-- ==== Sys2Proof/Word.lean ====
section
/-! DEFINITION. The words of the KSG-2416 (R2) and the keyed tables the state is made of. -/

namespace Sys2Proof

/-- A byte of memory. -/
abbrev Byte := BitVec 8
/-- A 32-bit register or instruction word. -/
abbrev Word := BitVec 32
/-- A 64-bit value: a register pair, an address, a lane mask. -/
abbrev DWord := BitVec 64
/-- A 24-bit offset: a count of 32-bit words (R25). -/
abbrev Off := BitVec 24

/-- A table of records by number. A number that stands in no entry holds the record given at the read:
the record's reset value. -/
abbrev Table (α : Type) := List (Nat × α)

/-- The record of number `k`, or `d` where the table lists none. -/
def Table.get {α : Type} (t : Table α) (k : Nat) (d : α) : α :=
  match t with
  | [] => d
  | (j, x) :: r => if j = k then x else Table.get r k d

/-- The table with `x` as the record of number `k`; entries stay in rising order of their numbers. -/
def Table.set {α : Type} (t : Table α) (k : Nat) (x : α) : Table α :=
  match t with
  | [] => [(k, x)]
  | (j, y) :: r =>
    if j = k then (k, x) :: r
    else if k < j then (k, x) :: (j, y) :: r
    else (j, y) :: Table.set r k x

/-- The table without the record of number `k`. -/
def Table.erase {α : Type} (t : Table α) (k : Nat) : Table α :=
  match t with
  | [] => []
  | (j, y) :: r => if j = k then Table.erase r k else (j, y) :: Table.erase r k

/-- Does the table list the number `k`? -/
def Table.has {α : Type} (t : Table α) (k : Nat) : Bool :=
  match t with
  | [] => false
  | (j, _) :: r => j == k || Table.has r k

end Sys2Proof
end

