-- ==== Sys2Proof/Config.lean ====
section
/-! DEFINITION. What a part fixes and what the manual leaves open: the free values, which no proof can see. -/

namespace Sys2Proof.Config

/-- A 32-bit value the manual does not state, one for each use (the counter `State.free` numbers the uses; log
entry 4, DESIGN CHOICE). -/
opaque freeWord : Nat → Word

/-- A byte of die memory read back under a later memory key: "unrelated bytes" (R340, R343). The argument is the
number of the key change and the address. -/
opaque rekeyedByte : Nat → Nat → Byte

/-- Byte `i` of a unit of 64 bytes of die memory that was written under one memory key and is read under another: "unrelated bytes"
(R340). The arguments are the unit, the slots and keys of the writer and of the reader, the unit's bytes as written, and `i`. -/
opaque unrelatedByte : Nat → Nat × Nat → Nat × Nat → List Byte → Nat → Byte

/-- The home slice, of 64, of line `n` of 256 bytes of die `d`'s memory: different lines may or may not share one (R180; log entry
67, DESIGN CHOICE). -/
opaque homeSlice : Nat → Nat → BitVec 6

/-- The offset of pound `n`'s time counter against the Basin's, measured at bring-up, in nanoseconds (R192). -/
opaque timeOffset : Nat → Int

/-- The measured band word of sending pound `s` and receiving pound `d`, written at test (R261): bits [63:0]. -/
opaque bandWord : Nat → Nat → DWord

/-- Whether the n-th verification of firmware against its digest succeeds (R341, R343). -/
opaque verified : Nat → Bool

/-- The words of the bank image that the host complex's firmware loads at boot (R341): the number of the boot, word 64 × program + n
(log entry 58, DESIGN CHOICE). -/
opaque bootWord : Nat → Nat → DWord

/-- The package identifier, 10 bits (R260). -/
opaque packageId : BitVec 10

end Sys2Proof.Config
end

