-- ==== Sys2Proof/Syntax.lean ====
section
/-! DEFINITION. The abstract syntax: operands (R49) and one constructor for every row of the table of operations and
events. -/

namespace Sys2Proof

/-- An operand code (R49), every one of the 256; which an instruction's field admits is WellFormed's (R50). -/
inductive Operand where
  | v (n : Fin 192)
  | s (n : Fin 32)
  | l (n : Fin 4)
  | lane
  | zero
  | h (n : Fin 8)
  | p (n : Fin 8)
  | x (n : Fin 8)
  /-- the reserved codes 0xE6 and 0xE7 -/
  | rsv (odd : Bool)
  deriving DecidableEq, Repr

/-- Where a memory error is met (R342). -/
inductive ErrorPlace where
  /-- a byte address of a die's stacks, or its home slice -/
  | memory (die pa : Nat)
  /-- the registers or the local store of a team -/
  | team (uid : Nat)
  /-- a snapshot cache of a die's core -/
  | cache (ckey : Nat)
  deriving DecidableEq, Repr

/-- Where a network packet comes from (R319, R322): the sending package, its delivery context, the packet's number in it. -/
structure PacketSource where
  pkg : Nat
  context : Nat
  psn : Nat
  /-- reliable ordered delivery, numbers from 0 -/
  rod : Bool
  deriving DecidableEq, Repr

/-- What a network packet writes (R320): its bytes, and a chunk's scale bytes with their offset (R248). -/
structure PacketData where
  bytes : List Byte
  scale : Option (Nat × List Byte)
  deriving DecidableEq, Repr

/-- A packet of a network transfer as it reaches this package (R319, R320, R322). -/
structure NetPacket extends PacketSource, PacketData where
  /-- target die and registration index, byte offset in the registration -/
  die : Nat
  index : Nat
  off : Nat
  /-- an RMA read of so many bytes; none: a write -/
  read : Option Nat
  deriving DecidableEq, Repr

/-- Bytes as they come by an external port (R324): the epoch they are sealed under, and whether they authenticate. -/
structure SealedBytes where
  bytes : List Byte
  epoch : Bool
  auth : Bool
  deriving DecidableEq, Repr

/-- What an acknowledgement brings, and the port that it comes to (R320, R324). -/
structure AckData extends SealedBytes where
  port : Nat
  deriving DecidableEq, Repr

/-- A FWDE packet's number and its bytes (R287). -/
structure FwdeData where
  psn : Nat
  body : SealedBytes
  deriving DecidableEq, Repr

/-- How a host agent's request comes in (R329, R337): the host port, and the IDE stream it stands in. -/
structure HostLine where
  port : Nat
  stream : Option Nat
  deriving DecidableEq, Repr

/-- What a host agent's request does (R329): a read of so many bytes, or a posted write. -/
inductive HostAccess where
  | read (count : Nat)
  | write (bytes : List Byte)
  deriving DecidableEq, Repr

/-- An IDE stream of a host port (R337). -/
structure IdeStream where
  port : Nat
  stream : Nat
  deriving DecidableEq, Repr

/-- A flit that fails its CRC (R312, R314): its sequence, and the module it came by. -/
structure FailedFlit where
  seq : BitVec 10
  module : Nat
  deriving DecidableEq, Repr

/-- One entry of a routing table as the host complex writes it (R316). -/
structure RouteEntry where
  router : Nat
  dest : Nat
  next : Nat
  deriving DecidableEq, Repr

/-- The instructions of the compute cores (R56), the Henat instructions (R280), and the part's events and commands.
An instruction's arguments are its fields in the order of the word, `w` being the W bit; an event's arguments say
which agent, record or number it concerns. -/
inductive Instr where
  | nop
  | modelo (k : BitVec 16)
  | modehi (k : BitVec 16)
  | moder (d : Operand)
  | br (o : BitVec 24)
  | brx (t : BitVec 12) (v : BitVec 12)
  | call (o : BitVec 24)
  | ret
  | jmps (a : Operand)
  | cIf (f : BitVec 24)
  | cElse (f : BitVec 24)
  | cEndif
  | yield (d : Operand) (k : BitVec 16)
  | tbar (i : BitVec 8)
  | trap (i : BitVec 8)
  | tret (i : BitVec 8)
  | exit
  | plset (i : BitVec 8)
  | plsetv (a : Operand)
  | plget (d : Operand)
  | execw (a : Operand)
  | execr (d : Operand)
  | nestr (d : Operand)
  | grow (i : BitVec 8)
  | shrink (i : BitVec 8)
  | vtop (d : Operand) (a : Operand)
  | ptov (d : Operand) (a : Operand)
  | pcnt (d : Operand) (a : Operand)
  | wbid (d : Operand) (a : Operand) (i : BitVec 8)
  | wres (d : Operand) (i : BitVec 8)
  | wrel (i : BitVec 8)
  | cntr (d : Operand) (i : BitVec 8)
  | iadd (w : Bool) (d : Operand) (a : Operand) (b : Operand)
  | isub (w : Bool) (d : Operand) (a : Operand) (b : Operand)
  | imul (w : Bool) (d : Operand) (a : Operand) (b : Operand)
  | imulh (w : Bool) (d : Operand) (a : Operand) (b : Operand)
  | imulhn (w : Bool) (d : Operand) (a : Operand) (b : Operand)
  | imad (w : Bool) (d : Operand) (a : Operand) (b : Operand)
  | iand (w : Bool) (d : Operand) (a : Operand) (b : Operand)
  | ior (w : Bool) (d : Operand) (a : Operand) (b : Operand)
  | ixor (w : Bool) (d : Operand) (a : Operand) (b : Operand)
  | ishl (w : Bool) (d : Operand) (a : Operand) (b : Operand)
  | ishr (w : Bool) (d : Operand) (a : Operand) (b : Operand)
  | isar (w : Bool) (d : Operand) (a : Operand) (b : Operand)
  | imin (w : Bool) (d : Operand) (a : Operand) (b : Operand)
  | imax (w : Bool) (d : Operand) (a : Operand) (b : Operand)
  | iminn (w : Bool) (d : Operand) (a : Operand) (b : Operand)
  | imaxn (w : Bool) (d : Operand) (a : Operand) (b : Operand)
  | inot (w : Bool) (d : Operand) (a : Operand)
  | ineg (w : Bool) (d : Operand) (a : Operand)
  | iabs (w : Bool) (d : Operand) (a : Operand)
  | popc (w : Bool) (d : Operand) (a : Operand)
  | clz (w : Bool) (d : Operand) (a : Operand)
  | brev (w : Bool) (d : Operand) (a : Operand)
  | sext8 (w : Bool) (d : Operand) (a : Operand)
  | sext16 (w : Bool) (d : Operand) (a : Operand)
  | iaddi (w : Bool) (d : Operand) (a : Operand) (i : BitVec 8)
  | ishli (w : Bool) (d : Operand) (a : Operand) (i : BitVec 8)
  | ishri (w : Bool) (d : Operand) (a : Operand) (i : BitVec 8)
  | isari (w : Bool) (d : Operand) (a : Operand) (i : BitVec 8)
  | iandi (w : Bool) (d : Operand) (a : Operand) (i : BitVec 8)
  | movi (w : Bool) (d : Operand) (k : BitVec 16)
  | movhi (w : Bool) (d : Operand) (k : BitVec 16)
  | movsi (w : Bool) (d : Operand) (k : BitVec 16)
  | mloop (d : Operand) (a : Operand)
  | mvec (d : Operand) (a : Operand)
  | mzero (d : Operand) (i : BitVec 8)
  | mstore (d : Operand) (a : Operand)
  | xst (d : Operand) (a : Operand) (b : Operand)
  | rotate (d : Operand) (a : Operand)
  | copen (d : Operand) (a : Operand)
  | icmpeq (d : Operand) (a : Operand) (b : Operand)
  | icmpne (d : Operand) (a : Operand) (b : Operand)
  | icmplt (d : Operand) (a : Operand) (b : Operand)
  | icmple (d : Operand) (a : Operand) (b : Operand)
  | icmpltn (d : Operand) (a : Operand) (b : Operand)
  | icmplen (d : Operand) (a : Operand) (b : Operand)
  | fcmpeq (d : Operand) (a : Operand) (b : Operand)
  | fcmpne (d : Operand) (a : Operand) (b : Operand)
  | fcmplt (d : Operand) (a : Operand) (b : Operand)
  | fcmple (d : Operand) (a : Operand) (b : Operand)
  | fcmpun (d : Operand) (a : Operand) (b : Operand)
  | pand (d : Operand) (a : Operand) (b : Operand)
  | por (d : Operand) (a : Operand) (b : Operand)
  | pxor (d : Operand) (a : Operand) (b : Operand)
  | pandn (d : Operand) (a : Operand) (b : Operand)
  | sel (w : Bool) (d : Operand) (a : Operand) (b : Operand)
  | fadd (w : Bool) (d : Operand) (a : Operand) (b : Operand)
  | fsub (w : Bool) (d : Operand) (a : Operand) (b : Operand)
  | fmul (w : Bool) (d : Operand) (a : Operand) (b : Operand)
  | ffma (w : Bool) (d : Operand) (a : Operand) (b : Operand)
  | fmin (w : Bool) (d : Operand) (a : Operand) (b : Operand)
  | fmax (w : Bool) (d : Operand) (a : Operand) (b : Operand)
  | fabs (w : Bool) (d : Operand) (a : Operand)
  | fneg (w : Bool) (d : Operand) (a : Operand)
  | frcp (w : Bool) (d : Operand) (a : Operand)
  | frsq (w : Bool) (d : Operand) (a : Operand)
  | fsqrt (w : Bool) (d : Operand) (a : Operand)
  | fexp2 (w : Bool) (d : Operand) (a : Operand)
  | flog2 (w : Bool) (d : Operand) (a : Operand)
  | ffloor (w : Bool) (d : Operand) (a : Operand)
  | fceil (w : Bool) (d : Operand) (a : Operand)
  | ftrunc (w : Bool) (d : Operand) (a : Operand)
  | frint (w : Bool) (d : Operand) (a : Operand)
  | cvt (w : Bool) (d : Operand) (a : Operand) (b : BitVec 8)
  | fscale (w : Bool) (d : Operand) (a : Operand) (b : Operand)
  | fclass (w : Bool) (d : Operand) (a : Operand)
  | htest (d : Operand) (a : Operand)
  | hcancel (a : Operand)
  | hmov (d : Operand) (a : Operand)
  | chktest (d : Operand) (a : Operand) (b : Operand)
  | chkwait (a : Operand) (b : Operand)
  | time (d : Operand)
  | perm (w : Bool) (d : Operand) (a : Operand) (b : Operand)
  | vidx (w : Bool) (d : Operand) (a : Operand)
  | vidxw (d : Operand) (a : Operand)
  | bcast (w : Bool) (d : Operand) (a : Operand) (i : BitVec 8)
  | vread (d : Operand) (a : Operand) (i : BitVec 8)
  | vwrite (d : Operand) (a : Operand) (i : BitVec 8)
  | rediadd (w : Bool) (d : Operand) (a : Operand)
  | redimax (w : Bool) (d : Operand) (a : Operand)
  | redimin (w : Bool) (d : Operand) (a : Operand)
  | redimaxn (w : Bool) (d : Operand) (a : Operand)
  | rediminn (w : Bool) (d : Operand) (a : Operand)
  | redfadd (w : Bool) (d : Operand) (a : Operand)
  | redfmax (w : Bool) (d : Operand) (a : Operand)
  | redfmin (w : Bool) (d : Operand) (a : Operand)
  | ldl (d : Operand) (a : Operand) (i : BitVec 8)
  | stl (d : Operand) (a : Operand) (i : BitVec 8)
  | ldlf (d : Operand) (a : Operand) (i : BitVec 8)
  | stle (d : Operand) (a : Operand) (i : BitVec 8)
  | ldlp (d : Operand) (a : Operand) (i : BitVec 8)
  | feset (d : Operand) (a : Operand) (s : Bool)
  | aladd (w : Bool) (d : Operand) (a : Operand) (i : BitVec 8)
  | alcas (w : Bool) (d : Operand) (a : Operand) (i : BitVec 8)
  | ldg (d : Operand) (a : Operand) (b : Operand)
  | stg (d : Operand) (a : Operand) (b : Operand)
  | prefg (a : Operand) (b : Operand)
  | aadd (w : Bool) (d : Operand) (a : Operand) (b : Operand)
  | amin (w : Bool) (d : Operand) (a : Operand) (b : Operand)
  | amax (w : Bool) (d : Operand) (a : Operand) (b : Operand)
  | aand (w : Bool) (d : Operand) (a : Operand) (b : Operand)
  | aor (w : Bool) (d : Operand) (a : Operand) (b : Operand)
  | axor (w : Bool) (d : Operand) (a : Operand) (b : Operand)
  | axch (w : Bool) (d : Operand) (a : Operand) (b : Operand)
  | acas (w : Bool) (d : Operand) (a : Operand) (b : Operand)
  | afadd (w : Bool) (d : Operand) (a : Operand) (b : Operand)
  | phase (d : BitVec 8) (i : BitVec 2)
  | fence (d : BitVec 8) (a : BitVec 8) (b : BitVec 8)
  | waitc (a : Operand) (b : Operand)
  | henatEnd
  | henatMatch (set win : BitVec 2) (last : Bool)
  | henatLoad (d : BitVec 3) (bf : Bool) (port : BitVec 6) (win : BitVec 2) (last : Bool)
  | henatAdd (d : BitVec 3) (bf : Bool) (port : BitVec 6) (win : BitVec 2) (last : Bool)
  | henatMax (d : BitVec 3) (bf : Bool) (port : BitVec 6) (win : BitVec 2) (last : Bool)
  | henatMin (d : BitVec 3) (bf : Bool) (port : BitVec 6) (win : BitVec 2) (last : Bool)
  | henatAdda (d s : BitVec 3) (last : Bool)
  | henatScale (d s : BitVec 3) (imm : BitVec 32) (last : Bool)
  | henatRound (d s : BitVec 3) (bf : Bool) (last : Bool)
  | henatFwd (s : BitVec 3) (bf : Bool) (set : BitVec 2) (last bar : Bool)
  | henatFwde (s : BitVec 3) (bf : Bool) (port : BitVec 6) (win : BitVec 2) (last : Bool)
  | henatCopy (d s : BitVec 3) (last : Bool)
  | henatGath (set : BitVec 2) (port : BitVec 6) (win : BitVec 2) (last bar : Bool)
  | henatBar (set : BitVec 2) (last : Bool)
  | henatFail (code : BitVec 8) (last : Bool)
  | henatSkipnl
  | rejoinReplay (gkey : Nat)
  | loadDataReturn (uid : Nat)
  | atomicReply (uid : Nat)
  | publishCompletion (gkey : Nat)
  | fencePointSatisfied (gkey i : Nat)
  | teamBarrierCompletion (team b : Nat)
  | waitcWake (gkey : Nat)
  | waitcPoll (gkey : Nat)
  | fullEmptyService (ckey : Nat)
  | growGrant (ckey : Nat)
  | shrinkRelease (gkey : Nat)
  | yieldResume (gkey : Nat)
  | tlbInvalidationRequest (die fn : Nat)
  | launchQueueTailWrite (die fn q : Nat)
  | launchSelection (die fn : Nat)
  | priorityAging (die fn q : Nat)
  | chainNodeReady (die fn c : Nat)
  | teamPlacement (die fn : Nat)
  | teamEnd (team : Nat)
  | exitFiredChunk (team : Nat)
  | gridCompletion (launch : Nat)
  | preempt (die fn : Nat) (b8 b16 : DWord) (result : Nat)
  | drainBoundExpiry (die fn : Nat)
  | preemptionCompletion (die fn : Nat)
  | teamRestore (die fn : Nat)
  | matrixStep (ckey tile : Nat)
  | mzeroCompletion (ckey tile : Nat)
  | mstoreWrite (ckey tile : Nat)
  | mvecOutputGroup (ckey : Nat)
  | copyChunkAcceptance (uid : Nat)
  | tokenTick (die : Nat)
  | copyChunkWrite (uid chunk : Nat)
  | keeperChunk (uid : Nat)
  | arrivalCounterIncrement (uid : Nat)
  | rotationStart (team : Nat)
  | rotationCompletion (team : Nat)
  | collectiveOpen (uid : Nat)
  | aliasStore (uid : Nat)
  | chunkBody (coll : Nat)
  | collectiveCompletion (coll : Nat)
  | reloadBankSwitch
  | weirBidArrival (die slot : Nat)
  | weirRoundStart
  | weirRoundEnd
  | contestTableWrite (contest : Nat) (entry : DWord)
  | contestChangeBoundary (contest : Nat)
  | freeze
  | thermalThrottle (die : Nat)
  | overtemperatureFreeze (die : Nat)
  | temperatureSample (die : Nat) (temp : DWord)
  | lifetimeImageWrite
  | packageReset
  | flitAcknowledgement (dir : Nat) (seq : BitVec 10)
  | requestArrival (uid : Nat)
  | requestReissueTimeout (uid : Nat)
  | holdAssert (dir : Nat) (resp : Bool)
  | holdRelease (dir : Nat) (resp : Bool)
  | moduleX32Fallback (link module : Nat)
  | networkAck (uid : Nat) (data : AckData)
  | retransmissionTimeout (uid : Nat)
  | keyInstall (dir : Nat)
  | epochSwitch (dir : Nat)
  | keyRetire (dir : Nat)
  | revocationComplete (die index : Nat)
  | register (die fn : Nat) (b8 b16 : DWord) (result : Nat)
  | revoke (die fn : Nat) (b8 b16 : DWord) (result : Nat)
  | abort (die fn : Nat) (b8 b16 : DWord) (result : Nat)
  | reload (die fn : Nat) (b8 b16 : DWord) (result : Nat)
  | config (die fn : Nat) (b8 b16 : DWord) (result : Nat)
  | lifetime (die fn : Nat) (b8 b16 : DWord) (result : Nat)
  | pageAnswer (die fn : Nat) (b8 b16 : DWord) (result : Nat)
  | dieReset (die fn : Nat) (b8 b16 : DWord) (result : Nat)
  | hostPortRequest (die fn : Nat) (va : DWord) (line : HostLine) (access : HostAccess)
  | thermalThrottleEnd (die : Nat)
  | lockInterfaceRequest (die fn : Nat)
  | startInterfaceRequest (die fn : Nat)
  | stopInterfaceRequest (die fn : Nat)
  | tdiError (die fn : Nat)
  | ideKm (key : IdeStream) (fkey : Nat)
  | getVersion (die : Nat)
  | getCapabilities (die : Nat)
  | negotiateAlgorithms (die : Nat)
  | getDigests (die : Nat)
  | getCertificate (die : Nat)
  | challenge (die : Nat)
  | getMeasurements (die index fn : Nat) (signed : Bool)
  | keyExchange (die : Nat)
  | finish (die : Nat)
  | endSession (die : Nat)
  | debugUnlock (verified : Bool)
  | slotTableWrite (slot state tenant : Nat) (masks : List (BitVec 42))
  | tenantQuotaTableWrite (tenant : Nat) (enabled : Bool) (reserved limit : Nat) (priority : BitVec 8)
  | portFenced (port : Nat)
  | softErrorCorrected (what : ErrorPlace)
  | powerLoss
  | scanReadOut
  | timeCounterTick
  | keeperFailure (die : Nat)
  | coreFailure (die core : Nat)
  | uncorrectableMemoryError (what : ErrorPlace)
  | flitCrcFailure (dir : Nat) (flit : FailedFlit)
  | moduleRetrainDone (link module : Nat)
  | routeChange (requests responses : List RouteEntry) (last : Bool)
  | feederFence (die : Nat)
  | networkPacketArrival (port : Nat) (src : PacketSource) (die index off : Nat) (read : Option Nat) (data : PacketData) (epoch auth : Bool)
  | fwdeReceipt (port slot win chunk : Nat) (pkt : FwdeData)
  deriving DecidableEq, Repr

end Sys2Proof
end

