-- ==== Sys2Proof/WellFormed.lean ====
section
/-! DEFINITION. Which instructions are well formed: the operand classes of R50, the destination rules of R51 and R54,
the ranges of R55 and R57. A failed check names the kind and the field that the illegal-encoding trap reports (R61,
R62). What depends on MODE or on the group width is checked at issue (`Machine/Operands.lean`). -/

namespace Sys2Proof

/-- The operand classes (R50). `hmovD` is HMOV's destination, an S or an H code, and `sOnly` its source when the
destination is an H code (R228). -/
inductive OpClass where
  | dst | vdst | sdst | src | uni | vsrc | adr | off | pair | blk | pred | han | hmovD | sOnly
  deriving DecidableEq, Repr

def Operand.isV : Operand → Bool | .v _ => true | _ => false
def Operand.isS : Operand → Bool | .s _ => true | _ => false
def Operand.isL : Operand → Bool | .l _ => true | _ => false
def Operand.isH : Operand → Bool | .h _ => true | _ => false
def Operand.isP : Operand → Bool | .p _ => true | _ => false

/-- An operand that gives every lane one value: S, ZERO, H or X. -/
def Operand.isUni : Operand → Bool
  | .s _ | .zero | .h _ | .x _ => true
  | _ => false

/-- Does the class accept the code (R50)? -/
def OpClass.accepts (c : OpClass) (o : Operand) : Bool :=
  match c with
  | .dst | .adr => o.isV || o.isS
  | .vdst => o.isV
  | .sdst | .sOnly => o.isS
  | .src => o.isV || o.isL || o.isUni || o == .lane
  | .uni => o.isUni
  | .vsrc => o.isV || o.isL
  | .off => o.isV || o.isS || o == .zero
  | .pair => match o with | .s n => n.val % 2 == 0 | _ => false
  | .blk => match o with | .s n => n.val % 8 == 0 | _ => false
  | .pred => o.isP
  | .han => o.isH
  | .hmovD => o.isS || o.isH

/-- The operand fields of an instruction, with their classes; `readsD`: the D field is a source as well (R54). -/
structure View where
  w : Bool := false
  d : Option (OpClass × Operand) := none
  a : Option (OpClass × Operand) := none
  b : Option (OpClass × Operand) := none
  readsD : Bool := false

/-- The operand fields of each instruction, by the opcode map (R56). CVT's B field depends on MODE (R60) and is not
listed. -/
def Instr.view (i : Instr) : View :=
  match i with
  | .iadd w d a b | .isub w d a b | .imul w d a b | .imulh w d a b | .imulhn w d a b | .iand w d a b
  | .ior w d a b | .ixor w d a b | .ishl w d a b | .ishr w d a b | .isar w d a b | .imin w d a b
  | .imax w d a b | .iminn w d a b | .imaxn w d a b | .sel w d a b | .fadd w d a b | .fsub w d a b
  | .fmul w d a b | .fmin w d a b | .fmax w d a b | .fscale w d a b =>
    { w, d := some (.dst, d), a := some (.src, a), b := some (.src, b) }
  | .imad w d a b | .ffma w d a b =>
    { w, d := some (.dst, d), a := some (.src, a), b := some (.src, b), readsD := true }
  | .inot w d a | .ineg w d a | .iabs w d a | .popc w d a | .clz w d a | .brev w d a | .sext8 w d a
  | .sext16 w d a | .fabs w d a | .fneg w d a | .frcp w d a | .frsq w d a | .fsqrt w d a | .fexp2 w d a
  | .flog2 w d a | .ffloor w d a | .fceil w d a | .ftrunc w d a | .frint w d a | .fclass w d a =>
    { w, d := some (.dst, d), a := some (.src, a) }
  | .iaddi w d a _ | .ishli w d a _ | .ishri w d a _ | .isari w d a _ | .iandi w d a _ =>
    { w, d := some (.dst, d), a := some (.src, a) }
  | .movi w d _ | .movsi w d _ =>
    { w, d := some (.dst, d) }
  | .movhi w d _ =>
    { w, d := some (.dst, d), readsD := true }
  | .cvt w d a _ =>
    { w, d := some (.dst, d), a := some (.src, a) }
  | .icmpeq d a b | .icmpne d a b | .icmplt d a b | .icmple d a b | .icmpltn d a b | .icmplen d a b
  | .fcmpeq d a b | .fcmpne d a b | .fcmplt d a b | .fcmple d a b | .fcmpun d a b =>
    { d := some (.pred, d), a := some (.src, a), b := some (.src, b) }
  | .pand d a b | .por d a b | .pxor d a b | .pandn d a b =>
    { d := some (.pred, d), a := some (.pred, a), b := some (.pred, b) }
  | .vtop d a =>
    { d := some (.pred, d), a := some (.src, a) }
  | .ptov d a =>
    { d := some (.vdst, d), a := some (.pred, a) }
  | .pcnt d a =>
    { d := some (.sdst, d), a := some (.pred, a) }
  | .moder d =>
    { d := some (.sdst, d) }
  | .jmps a =>
    { a := some (.uni, a) }
  | .yield d _ =>
    { d := some (.han, d) }
  | .plsetv a =>
    { a := some (.src, a) }
  | .plget d | .nestr d =>
    { d := some (.vdst, d) }
  | .execw a =>
    { a := some (.pair, a) }
  | .execr d | .time d | .wres d _ | .cntr d _ =>
    { d := some (.pair, d) }
  | .wbid d a _ =>
    { d := some (.han, d), a := some (.uni, a) }
  | .mloop d a | .mvec d a | .mstore d a | .rotate d a | .copen d a =>
    { d := some (.han, d), a := some (.blk, a) }
  | .mzero d _ =>
    { d := some (.han, d) }
  | .xst d a b =>
    { d := some (.han, d), a := some (.pair, a), b := some (.uni, b) }
  | .htest d a =>
    { d := some (.pred, d), a := some (.han, a) }
  | .hcancel a =>
    { a := some (.han, a) }
  | .hmov d a =>
    { d := some (.hmovD, d), a := some (if d.isH then .sOnly else .han, a) }
  | .chktest d a b =>
    { d := some (.pred, d), a := some (.han, a), b := some (.pair, b) }
  | .chkwait a b =>
    { a := some (.han, a), b := some (.pair, b) }
  | .perm w d a b =>
    { w, d := some (.vdst, d), a := some (.src, a), b := some (.src, b) }
  | .vidx w d a | .bcast w d a _ =>
    { w, d := some (.vdst, d), a := some (.src, a) }
  | .vidxw d a =>
    { d := some (.vsrc, d), a := some (.src, a) }
  | .vread d a _ =>
    { d := some (.sdst, d), a := some (.vsrc, a) }
  | .vwrite d a _ =>
    { d := some (.vdst, d), a := some (.uni, a) }
  | .rediadd w d a | .redimax w d a | .redimin w d a | .redimaxn w d a | .rediminn w d a | .redfadd w d a
  | .redfmax w d a | .redfmin w d a =>
    { w, d := some (.vdst, d), a := some (.vsrc, a) }
  | .ldl d a _ | .ldlf d a _ | .ldlp d a _ =>
    { d := some (.dst, d), a := some (.adr, a) }
  | .stl d a _ | .stle d a _ =>
    { d := some (.src, d), a := some (.adr, a) }
  | .feset d a _ =>
    { d := some (.uni, d), a := some (.adr, a) }
  | .aladd w d a _ | .alcas w d a _ =>
    { w, d := some (.dst, d), a := some (.adr, a), readsD := true }
  | .ldg d a b =>
    { d := some (.dst, d), a := some (.pair, a), b := some (.off, b) }
  | .stg d a b =>
    { d := some (.src, d), a := some (.pair, a), b := some (.off, b) }
  | .prefg a b =>
    { a := some (.pair, a), b := some (.off, b) }
  | .aadd w d a b | .amin w d a b | .amax w d a b | .aand w d a b | .aor w d a b | .axor w d a b
  | .axch w d a b | .acas w d a b | .afadd w d a b =>
    { w, d := some (.dst, d), a := some (.pair, a), b := some (.off, b), readsD := true }
  | .waitc a b =>
    { a := some (.pair, a), b := some (.pair, b) }
  | _ => {}

/-- A failed check: kind (R62) and field (R61). -/
structure Reject where
  kind : Nat
  field : Nat
  deriving DecidableEq, Repr

/-- Kind 0x03 on D: with W = 1 a D field that the instruction does not read must be zero (R54), code 0x00, which is V0. -/
def View.dZero (v : View) : Bool :=
  match v.d with
  | some (_, o) => !(v.w && !v.readsD) || o == .v 0
  | none => true

/-- The D field's class, where D is an operand: not where W = 1 makes it a zero field. -/
def View.dClass (v : View) : Bool :=
  match v.d with
  | some (c, o) => (v.w && !v.readsD) || c.accepts o
  | none => true

/-- A source field's class, and the rule of R51: with W = 0 and an S code in a dst field, a source is uniform. -/
def View.srcClass (v : View) (f : Option (OpClass × Operand)) : Bool :=
  match f with
  | none => true
  | some (c, o) =>
    c.accepts o &&
      (match v.d with
        | some (.dst, .s _) => v.w || o.isUni
        | _ => true)

/-- Kind 0x05: the lowest field whose code its class does not accept. -/
def View.badClass (v : View) : Option Nat :=
  if !v.dClass then some 1
  else if !v.srcClass v.a then some 2
  else if !v.srcClass v.b then some 3
  else none

/-- Kind 0x06: the lowest field whose immediate or offset is out of the range of the opcode map (R47, R56, R57). -/
def Instr.badRange (i : Instr) : Option Nat :=
  match i with
  | .cIf f | .cElse f => if f = 0 then some 5 else none
  | .tbar n => if n.toNat > 15 then some 3 else none
  | .tret n => if n.toNat > 1 then some 3 else none
  | .plset n | .mzero _ n => if n.toNat > 7 then some 3 else none
  | .grow n | .shrink n => if n.toNat < 1 || n.toNat > 11 then some 3 else none
  | .wbid _ _ n | .wres _ n | .wrel n => if n.toNat > 63 then some 3 else none
  | .ishli _ _ _ n | .ishri _ _ _ n | .isari _ _ _ n => if n.toNat > 31 then some 3 else none
  | .phase d n => if (d.extractLsb' 0 3).toNat > 5 then some 1 else if n = 0 then some 3 else none
  | .fence d a b =>
    if (d.extractLsb' 0 3).toNat > 5 then some 1
    else if a = 0 || a.getLsbD 7 then some 2
    else if b = 0 || b.getLsbD 7 then some 3
    else none
  | _ => none

/-- CNTR of a number that no counter has (R194). -/
def Instr.badCounter (i : Instr) : Bool :=
  match i with
  | .cntr _ n => decide (14 < n.toNat)
  | _ => false

/-- The lowest kind an instruction breaks, and its lowest field (R61): CNTR numbers (R194), then zero fields, then
classes, then ranges. -/
def Instr.illegal (i : Instr) : Option Reject :=
  if i.badCounter then some ⟨2, 3⟩
  else if !i.view.dZero then some ⟨3, 1⟩
  else match i.view.badClass with
    | some f => some ⟨5, f⟩
    | none => i.badRange.map (⟨6, ·⟩)

/-- A well-formed instruction breaks none of the checks that depend on the word alone. -/
def Instr.wf (i : Instr) : Bool := i.illegal.isNone

end Sys2Proof
end

