-- ==== Sys2Proof/Decode.lean ====
section
/-! DEFINITION. Decoding of compute-core words (R45 to R57) and of Henat words (R279, R280), total and rejecting by
kind and field, and after it the encoders. -/

namespace Sys2Proof

/-- The operand that an 8-bit code names (R49). -/
def Operand.ofCode (c : BitVec 8) : Operand :=
  if h : c.toNat < 0xC0 then .v ⟨c.toNat, h⟩
  else if c.toNat < 0xE0 then .s (Fin.ofNat 32 (c.toNat - 0xC0))
  else if c.toNat < 0xE4 then .l (Fin.ofNat 4 (c.toNat - 0xE0))
  else if c.toNat = 0xE4 then .lane
  else if c.toNat = 0xE5 then .zero
  else if c.toNat < 0xE8 then .rsv (c.toNat == 0xE7)
  else if c.toNat < 0xF0 then .h (Fin.ofNat 8 (c.toNat - 0xE8))
  else if c.toNat < 0xF8 then .p (Fin.ofNat 8 (c.toNat - 0xF0))
  else .x (Fin.ofNat 8 (c.toNat - 0xF8))

/-- The code of an operand (R49). -/
def Operand.code (o : Operand) : BitVec 8 :=
  match o with
  | .v n => BitVec.ofNat 8 n.val
  | .s n => BitVec.ofNat 8 (0xC0 + n.val)
  | .l n => BitVec.ofNat 8 (0xE0 + n.val)
  | .lane => 0xE4
  | .zero => 0xE5
  | .rsv b => if b then 0xE7 else 0xE6
  | .h n => BitVec.ofNat 8 (0xE8 + n.val)
  | .p n => BitVec.ofNat 8 (0xF0 + n.val)
  | .x n => BitVec.ofNat 8 (0xF8 + n.val)

/-- The W bit of a word. -/
def wBit (w : Word) : Bool := w.getLsbD 24
/-- The operand whose code stands in bits [lo + 7 : lo]. -/
def opd (w : Word) (lo : Nat) : Operand := Operand.ofCode (w.extractLsb' lo 8)
/-- Bits [7:0]. -/
def imm8 (w : Word) : BitVec 8 := w.extractLsb' 0 8
/-- The opcode, bits [31:25] (R45). -/
def opcodeOf (w : Word) : BitVec 7 := w.extractLsb' 25 7

/-- Which parts of a word the opcode map fixes at zero, and whether W = 1 is admitted (R46, R54, R56): for each opcode
of formats A, I, F and K its zero fields (bits 1 D, 2 A, 4 B), and the formats J, X, C and N whose bit 24 is zero. -/
structure Shape where
  bit24Zero : Bool := false
  zeros : List Nat := []
  wOk : Bool := false

/-- The shape of each opcode (R56). -/
def shapeOf (op : BitVec 7) : Shape :=
  let n := op.toNat
  if n = 0x00 || n = 0x07 || n = 0x0B || n = 0x10 then { bit24Zero := true, zeros := [1, 2, 3] }
  else if n = 0x04 || n = 0x05 || n = 0x06 || n = 0x09 || n = 0x0A then { bit24Zero := true }
  else if n = 0x01 || n = 0x02 then { zeros := [1] }
  else if n = 0x03 || n = 0x13 || n = 0x15 || n = 0x16 || n = 0x5F then { zeros := [2, 3] }
  else if n = 0x08 || n = 0x12 || n = 0x14 || n = 0x5B then { zeros := [1, 3] }
  else if n = 0x0D || n = 0x0E || n = 0x0F || n = 0x11 || n = 0x17 || n = 0x18 || n = 0x1E then { zeros := [1, 2] }
  else if n = 0x19 || n = 0x1A || n = 0x1B || n = 0x5A || n = 0x5C || n = 0x62 then { zeros := [3] }
  else if n = 0x1D || n = 0x1F || n = 0x3B || n = 0x7C then { zeros := [2] }
  else if n = 0x39 || n = 0x3A || n = 0x3C || n = 0x3E || n = 0x3F then { zeros := [3] }
  else if n = 0x59 || n = 0x61 then { zeros := [3], wOk := true }
  else if n = 0x5E || n = 0x72 || n = 0x7E then { zeros := [1] }
  else if (0x20 ≤ n && n ≤ 0x38) || (0x4F ≤ n && n ≤ 0x58) || n = 0x60 || n = 0x63 || n = 0x66 || n = 0x67
      || n = 0x6E || n = 0x6F || (0x73 ≤ n && n ≤ 0x7B) then { wOk := true }
  else {}

/-- Opcodes whose D field is a source as well and stands with W = 1 (R54). -/
def readsDOpcode (op : BitVec 7) : Bool :=
  op == 0x25 || op == 0x53 || op == 0x37 || op == 0x6E || op == 0x6F || (0x73 ≤ op.toNat && op.toNat ≤ 0x7B)

/-- Is field `f` of the word (1 D, 2 A, 3 B) nonzero? -/
def fieldNonzero (w : Word) (f : Nat) : Bool :=
  w.extractLsb' (24 - 8 * f) 8 != 0

/-- Kind 0x03: the lowest must-be-zero field that is not zero (R46, R54, R147, R174). -/
def badZero (w : Word) : Option Nat :=
  let op := opcodeOf w
  let sh := shapeOf op
  let dz := sh.zeros ++ (if sh.wOk && wBit w && !readsDOpcode op then [1] else [])
  if dz.contains 1 && fieldNonzero w 1 then some 1
  else if dz.contains 2 && fieldNonzero w 2 then some 2
  else if dz.contains 3 && fieldNonzero w 3 then some 3
  else if op == 0x6D && w.extractLsb' 1 7 != 0 then some 3
  else if op == 0x7C && w.extractLsb' 2 6 != 0 then some 3
  else if sh.bit24Zero && wBit w then some 6
  else none

/-- Kind 0x04: W = 1 on an opcode of a format with a W bit that has no result to suppress (R54). -/
def badW (w : Word) : Bool :=
  let sh := shapeOf (opcodeOf w)
  wBit w && !sh.wOk && !sh.bit24Zero

/-- The functions of opcode 0x30 (R56). -/
def parseIun (w : Word) : Except Reject Instr :=
  match imm8 w with
  | 0 => .ok (.inot (wBit w) (opd w 16) (opd w 8))
  | 1 => .ok (.ineg (wBit w) (opd w 16) (opd w 8))
  | 2 => .ok (.iabs (wBit w) (opd w 16) (opd w 8))
  | 3 => .ok (.popc (wBit w) (opd w 16) (opd w 8))
  | 4 => .ok (.clz (wBit w) (opd w 16) (opd w 8))
  | 5 => .ok (.brev (wBit w) (opd w 16) (opd w 8))
  | 6 => .ok (.sext8 (wBit w) (opd w 16) (opd w 8))
  | 7 => .ok (.sext16 (wBit w) (opd w 16) (opd w 8))
  | _ => .error ⟨2, 3⟩

/-- The functions of opcode 0x56 (R56). -/
def parseFun (w : Word) : Except Reject Instr :=
  match imm8 w with
  | 0 => .ok (.fabs (wBit w) (opd w 16) (opd w 8))
  | 1 => .ok (.fneg (wBit w) (opd w 16) (opd w 8))
  | 2 => .ok (.frcp (wBit w) (opd w 16) (opd w 8))
  | 3 => .ok (.frsq (wBit w) (opd w 16) (opd w 8))
  | 4 => .ok (.fsqrt (wBit w) (opd w 16) (opd w 8))
  | 5 => .ok (.fexp2 (wBit w) (opd w 16) (opd w 8))
  | 6 => .ok (.flog2 (wBit w) (opd w 16) (opd w 8))
  | 7 => .ok (.ffloor (wBit w) (opd w 16) (opd w 8))
  | 8 => .ok (.fceil (wBit w) (opd w 16) (opd w 8))
  | 9 => .ok (.ftrunc (wBit w) (opd w 16) (opd w 8))
  | 10 => .ok (.frint (wBit w) (opd w 16) (opd w 8))
  | _ => .error ⟨2, 3⟩

/-- The functions of opcode 0x66 (R56). -/
def parseRedi (w : Word) : Except Reject Instr :=
  match imm8 w with
  | 0 => .ok (.rediadd (wBit w) (opd w 16) (opd w 8))
  | 1 => .ok (.redimax (wBit w) (opd w 16) (opd w 8))
  | 2 => .ok (.redimin (wBit w) (opd w 16) (opd w 8))
  | 3 => .ok (.redimaxn (wBit w) (opd w 16) (opd w 8))
  | 4 => .ok (.rediminn (wBit w) (opd w 16) (opd w 8))
  | _ => .error ⟨2, 3⟩

/-- The functions of opcode 0x67 (R56). -/
def parseRedf (w : Word) : Except Reject Instr :=
  match imm8 w with
  | 0 => .ok (.redfadd (wBit w) (opd w 16) (opd w 8))
  | 1 => .ok (.redfmax (wBit w) (opd w 16) (opd w 8))
  | 2 => .ok (.redfmin (wBit w) (opd w 16) (opd w 8))
  | _ => .error ⟨2, 3⟩

/-- The fields of a word whose opcode and function exist, whatever they hold (R45, R56). -/
def parse (w : Word) : Except Reject Instr :=
  match opcodeOf w with
  | 0x00 => .ok (.nop)
  | 0x01 => .ok (.modelo (w.extractLsb' 0 16))
  | 0x02 => .ok (.modehi (w.extractLsb' 0 16))
  | 0x03 => .ok (.moder (opd w 16))
  | 0x04 => .ok (.br (w.extractLsb' 0 24))
  | 0x05 => .ok (.brx (w.extractLsb' 12 12) (w.extractLsb' 0 12))
  | 0x06 => .ok (.call (w.extractLsb' 0 24))
  | 0x07 => .ok (.ret)
  | 0x08 => .ok (.jmps (opd w 8))
  | 0x09 => .ok (.cIf (w.extractLsb' 0 24))
  | 0x0A => .ok (.cElse (w.extractLsb' 0 24))
  | 0x0B => .ok (.cEndif)
  | 0x0C => .ok (.yield (opd w 16) (w.extractLsb' 0 16))
  | 0x0D => .ok (.tbar (imm8 w))
  | 0x0E => .ok (.trap (imm8 w))
  | 0x0F => .ok (.tret (imm8 w))
  | 0x10 => .ok (.exit)
  | 0x11 => .ok (.plset (imm8 w))
  | 0x12 => .ok (.plsetv (opd w 8))
  | 0x13 => .ok (.plget (opd w 16))
  | 0x14 => .ok (.execw (opd w 8))
  | 0x15 => .ok (.execr (opd w 16))
  | 0x16 => .ok (.nestr (opd w 16))
  | 0x17 => .ok (.grow (imm8 w))
  | 0x18 => .ok (.shrink (imm8 w))
  | 0x19 => .ok (.vtop (opd w 16) (opd w 8))
  | 0x1A => .ok (.ptov (opd w 16) (opd w 8))
  | 0x1B => .ok (.pcnt (opd w 16) (opd w 8))
  | 0x1C => .ok (.wbid (opd w 16) (opd w 8) (imm8 w))
  | 0x1D => .ok (.wres (opd w 16) (imm8 w))
  | 0x1E => .ok (.wrel (imm8 w))
  | 0x1F => .ok (.cntr (opd w 16) (imm8 w))
  | 0x20 => .ok (.iadd (wBit w) (opd w 16) (opd w 8) (opd w 0))
  | 0x21 => .ok (.isub (wBit w) (opd w 16) (opd w 8) (opd w 0))
  | 0x22 => .ok (.imul (wBit w) (opd w 16) (opd w 8) (opd w 0))
  | 0x23 => .ok (.imulh (wBit w) (opd w 16) (opd w 8) (opd w 0))
  | 0x24 => .ok (.imulhn (wBit w) (opd w 16) (opd w 8) (opd w 0))
  | 0x25 => .ok (.imad (wBit w) (opd w 16) (opd w 8) (opd w 0))
  | 0x26 => .ok (.iand (wBit w) (opd w 16) (opd w 8) (opd w 0))
  | 0x27 => .ok (.ior (wBit w) (opd w 16) (opd w 8) (opd w 0))
  | 0x28 => .ok (.ixor (wBit w) (opd w 16) (opd w 8) (opd w 0))
  | 0x29 => .ok (.ishl (wBit w) (opd w 16) (opd w 8) (opd w 0))
  | 0x2A => .ok (.ishr (wBit w) (opd w 16) (opd w 8) (opd w 0))
  | 0x2B => .ok (.isar (wBit w) (opd w 16) (opd w 8) (opd w 0))
  | 0x2C => .ok (.imin (wBit w) (opd w 16) (opd w 8) (opd w 0))
  | 0x2D => .ok (.imax (wBit w) (opd w 16) (opd w 8) (opd w 0))
  | 0x2E => .ok (.iminn (wBit w) (opd w 16) (opd w 8) (opd w 0))
  | 0x2F => .ok (.imaxn (wBit w) (opd w 16) (opd w 8) (opd w 0))
  | 0x30 => parseIun w
  | 0x31 => .ok (.iaddi (wBit w) (opd w 16) (opd w 8) (imm8 w))
  | 0x32 => .ok (.ishli (wBit w) (opd w 16) (opd w 8) (imm8 w))
  | 0x33 => .ok (.ishri (wBit w) (opd w 16) (opd w 8) (imm8 w))
  | 0x34 => .ok (.isari (wBit w) (opd w 16) (opd w 8) (imm8 w))
  | 0x35 => .ok (.iandi (wBit w) (opd w 16) (opd w 8) (imm8 w))
  | 0x36 => .ok (.movi (wBit w) (opd w 16) (w.extractLsb' 0 16))
  | 0x37 => .ok (.movhi (wBit w) (opd w 16) (w.extractLsb' 0 16))
  | 0x38 => .ok (.movsi (wBit w) (opd w 16) (w.extractLsb' 0 16))
  | 0x39 => .ok (.mloop (opd w 16) (opd w 8))
  | 0x3A => .ok (.mvec (opd w 16) (opd w 8))
  | 0x3B => .ok (.mzero (opd w 16) (imm8 w))
  | 0x3C => .ok (.mstore (opd w 16) (opd w 8))
  | 0x3D => .ok (.xst (opd w 16) (opd w 8) (opd w 0))
  | 0x3E => .ok (.rotate (opd w 16) (opd w 8))
  | 0x3F => .ok (.copen (opd w 16) (opd w 8))
  | 0x40 => .ok (.icmpeq (opd w 16) (opd w 8) (opd w 0))
  | 0x41 => .ok (.icmpne (opd w 16) (opd w 8) (opd w 0))
  | 0x42 => .ok (.icmplt (opd w 16) (opd w 8) (opd w 0))
  | 0x43 => .ok (.icmple (opd w 16) (opd w 8) (opd w 0))
  | 0x44 => .ok (.icmpltn (opd w 16) (opd w 8) (opd w 0))
  | 0x45 => .ok (.icmplen (opd w 16) (opd w 8) (opd w 0))
  | 0x46 => .ok (.fcmpeq (opd w 16) (opd w 8) (opd w 0))
  | 0x47 => .ok (.fcmpne (opd w 16) (opd w 8) (opd w 0))
  | 0x48 => .ok (.fcmplt (opd w 16) (opd w 8) (opd w 0))
  | 0x49 => .ok (.fcmple (opd w 16) (opd w 8) (opd w 0))
  | 0x4A => .ok (.fcmpun (opd w 16) (opd w 8) (opd w 0))
  | 0x4B => .ok (.pand (opd w 16) (opd w 8) (opd w 0))
  | 0x4C => .ok (.por (opd w 16) (opd w 8) (opd w 0))
  | 0x4D => .ok (.pxor (opd w 16) (opd w 8) (opd w 0))
  | 0x4E => .ok (.pandn (opd w 16) (opd w 8) (opd w 0))
  | 0x4F => .ok (.sel (wBit w) (opd w 16) (opd w 8) (opd w 0))
  | 0x50 => .ok (.fadd (wBit w) (opd w 16) (opd w 8) (opd w 0))
  | 0x51 => .ok (.fsub (wBit w) (opd w 16) (opd w 8) (opd w 0))
  | 0x52 => .ok (.fmul (wBit w) (opd w 16) (opd w 8) (opd w 0))
  | 0x53 => .ok (.ffma (wBit w) (opd w 16) (opd w 8) (opd w 0))
  | 0x54 => .ok (.fmin (wBit w) (opd w 16) (opd w 8) (opd w 0))
  | 0x55 => .ok (.fmax (wBit w) (opd w 16) (opd w 8) (opd w 0))
  | 0x56 => parseFun w
  | 0x57 => .ok (.cvt (wBit w) (opd w 16) (opd w 8) (imm8 w))
  | 0x58 => .ok (.fscale (wBit w) (opd w 16) (opd w 8) (opd w 0))
  | 0x59 => .ok (.fclass (wBit w) (opd w 16) (opd w 8))
  | 0x5A => .ok (.htest (opd w 16) (opd w 8))
  | 0x5B => .ok (.hcancel (opd w 8))
  | 0x5C => .ok (.hmov (opd w 16) (opd w 8))
  | 0x5D => .ok (.chktest (opd w 16) (opd w 8) (opd w 0))
  | 0x5E => .ok (.chkwait (opd w 8) (opd w 0))
  | 0x5F => .ok (.time (opd w 16))
  | 0x60 => .ok (.perm (wBit w) (opd w 16) (opd w 8) (opd w 0))
  | 0x61 => .ok (.vidx (wBit w) (opd w 16) (opd w 8))
  | 0x62 => .ok (.vidxw (opd w 16) (opd w 8))
  | 0x63 => .ok (.bcast (wBit w) (opd w 16) (opd w 8) (imm8 w))
  | 0x64 => .ok (.vread (opd w 16) (opd w 8) (imm8 w))
  | 0x65 => .ok (.vwrite (opd w 16) (opd w 8) (imm8 w))
  | 0x66 => parseRedi w
  | 0x67 => parseRedf w
  | 0x68 => .ok (.ldl (opd w 16) (opd w 8) (imm8 w))
  | 0x69 => .ok (.stl (opd w 16) (opd w 8) (imm8 w))
  | 0x6A => .ok (.ldlf (opd w 16) (opd w 8) (imm8 w))
  | 0x6B => .ok (.stle (opd w 16) (opd w 8) (imm8 w))
  | 0x6C => .ok (.ldlp (opd w 16) (opd w 8) (imm8 w))
  | 0x6D => .ok (.feset (opd w 16) (opd w 8) (w.getLsbD 0))
  | 0x6E => .ok (.aladd (wBit w) (opd w 16) (opd w 8) (imm8 w))
  | 0x6F => .ok (.alcas (wBit w) (opd w 16) (opd w 8) (imm8 w))
  | 0x70 => .ok (.ldg (opd w 16) (opd w 8) (opd w 0))
  | 0x71 => .ok (.stg (opd w 16) (opd w 8) (opd w 0))
  | 0x72 => .ok (.prefg (opd w 8) (opd w 0))
  | 0x73 => .ok (.aadd (wBit w) (opd w 16) (opd w 8) (opd w 0))
  | 0x74 => .ok (.amin (wBit w) (opd w 16) (opd w 8) (opd w 0))
  | 0x75 => .ok (.amax (wBit w) (opd w 16) (opd w 8) (opd w 0))
  | 0x76 => .ok (.aand (wBit w) (opd w 16) (opd w 8) (opd w 0))
  | 0x77 => .ok (.aor (wBit w) (opd w 16) (opd w 8) (opd w 0))
  | 0x78 => .ok (.axor (wBit w) (opd w 16) (opd w 8) (opd w 0))
  | 0x79 => .ok (.axch (wBit w) (opd w 16) (opd w 8) (opd w 0))
  | 0x7A => .ok (.acas (wBit w) (opd w 16) (opd w 8) (opd w 0))
  | 0x7B => .ok (.afadd (wBit w) (opd w 16) (opd w 8) (opd w 0))
  | 0x7C => .ok (.phase (w.extractLsb' 16 8) (w.extractLsb' 0 2))
  | 0x7D => .ok (.fence (w.extractLsb' 16 8) (w.extractLsb' 8 8) (imm8 w))
  | 0x7E => .ok (.waitc (opd w 8) (opd w 0))
  | _ => .error ⟨1, 0⟩

/-- The instruction a word holds, or the lowest kind the word breaks and its lowest field, among the checks that
depend on the word alone (R61, R62): opcode 0x7F, function codes and counter numbers, zero fields, W, classes, ranges. -/
def decodeCore (w : Word) : Except Reject Instr :=
  match parse w with
  | .error r => .error r
  | .ok i =>
    match i.illegal with
    | some ⟨2, f⟩ => .error ⟨2, f⟩
    | r =>
      match badZero w with
      | some f => .error ⟨3, f⟩
      | none =>
        if badW w then .error ⟨4, 6⟩
        else match r with
          | some r => .error r
          | none => .ok i

/-! ### Henat words (R279 to R281) -/

/-- A Henat word is refused by a reload (R281): an op beyond 0x0F, a nonzero field the op does not use, a reserved type,
window or port, a flag the op does not allow, or a FWDE port outside 24 to 39. -/
inductive HenatReject where
  | op | unused | type | window | port | flag
  deriving DecidableEq, Repr

/-- The fields of a Henat word (R279). -/
structure HenatFields where
  op : BitVec 6
  d : BitVec 3
  s : BitVec 3
  type : BitVec 4
  port : BitVec 6
  set : BitVec 2
  mbz : BitVec 4
  win : BitVec 2
  last : Bool
  bar : Bool
  imm : BitVec 32
  deriving DecidableEq, Repr

def henatFields (w : DWord) : HenatFields where
  op := w.extractLsb' 58 6
  d := w.extractLsb' 55 3
  s := w.extractLsb' 52 3
  type := w.extractLsb' 48 4
  port := w.extractLsb' 42 6
  set := w.extractLsb' 40 2
  mbz := w.extractLsb' 36 4
  win := w.extractLsb' 34 2
  last := w.getLsbD 33
  bar := w.getLsbD 32
  imm := w.extractLsb' 0 32

/-- The word of Henat fields (R279). -/
def HenatFields.word (f : HenatFields) : DWord :=
  f.op ++ f.d ++ f.s ++ f.type ++ f.port ++ f.set ++ f.mbz ++ f.win ++ BitVec.ofBool f.last ++ BitVec.ofBool f.bar
    ++ f.imm

/-- Which fields an op uses (R280). -/
structure HenatUse where
  d : Bool := false
  s : Bool := false
  type : Bool := false
  port : Bool := false
  set : Bool := false
  win : Bool := false
  imm : Bool := false
  last : Bool := true
  bar : Bool := false

def henatUse (op : Nat) : HenatUse :=
  match op with
  | 0x01 => { set := true, win := true }
  | 0x02 | 0x03 | 0x04 | 0x05 => { d := true, type := true, port := true, win := true }
  | 0x06 | 0x0B => { d := true, s := true }
  | 0x07 => { d := true, s := true, imm := true }
  | 0x08 => { d := true, s := true, type := true }
  | 0x09 => { s := true, type := true, set := true, bar := true }
  | 0x0A => { s := true, type := true, port := true, win := true }
  | 0x0C => { set := true, port := true, win := true, bar := true }
  | 0x0D => { set := true }
  | 0x0E => { imm := true }
  | _ => { last := false }

/-- The first reason of R281 for which one word is refused. -/
def henatReject (w : DWord) : Option HenatReject :=
  let f := henatFields w
  let u := henatUse f.op.toNat
  if f.op.toNat > 0x0F then some .op
  else if f.mbz != 0 || (!u.d && f.d != 0) || (!u.s && f.s != 0) || (!u.type && f.type != 0) || (!u.port && f.port != 0)
      || (!u.set && f.set != 0) || (!u.win && f.win != 0) || (!u.imm && f.imm != 0)
      || (f.op == 0x0E && f.imm.extractLsb' 8 24 != 0) then some .unused
  else if u.type && f.type.toNat > 1 then some .type
  else if u.win && f.win == 3 then some .window
  else if u.port && f.port.toNat > 41 then some .port
  else if (!u.last && f.last) || (!u.bar && f.bar) then some .flag
  else if f.op == 0x0A && !(24 ≤ f.port.toNat && f.port.toNat ≤ 39) then some .port
  else none

/-- The instruction a Henat word holds (R280). -/
def decodeHenat (w : DWord) : Except HenatReject Instr :=
  match henatReject w with
  | some r => .error r
  | none =>
    let f := henatFields w
    let bf := f.type == 1
    match f.op with
    | 0x00 => .ok .henatEnd
    | 0x01 => .ok (.henatMatch f.set f.win f.last)
    | 0x02 => .ok (.henatLoad f.d bf f.port f.win f.last)
    | 0x03 => .ok (.henatAdd f.d bf f.port f.win f.last)
    | 0x04 => .ok (.henatMax f.d bf f.port f.win f.last)
    | 0x05 => .ok (.henatMin f.d bf f.port f.win f.last)
    | 0x06 => .ok (.henatAdda f.d f.s f.last)
    | 0x07 => .ok (.henatScale f.d f.s f.imm f.last)
    | 0x08 => .ok (.henatRound f.d f.s bf f.last)
    | 0x09 => .ok (.henatFwd f.s bf f.set f.last f.bar)
    | 0x0A => .ok (.henatFwde f.s bf f.port f.win f.last)
    | 0x0B => .ok (.henatCopy f.d f.s f.last)
    | 0x0C => .ok (.henatGath f.set f.port f.win f.last f.bar)
    | 0x0D => .ok (.henatBar f.set f.last)
    | 0x0E => .ok (.henatFail (f.imm.setWidth 8) f.last)
    | _ => .ok .henatSkipnl

/-! ### Encoders -/

/-- Format A, I or F: opcode, W, D, A, B (R45). -/
def formA (op : BitVec 7) (w : Bool) (d a b : BitVec 8) : Word := op ++ BitVec.ofBool w ++ d ++ a ++ b
/-- Format K (R45). -/
def formK (op : BitVec 7) (w : Bool) (d : BitVec 8) (k : BitVec 16) : Word := op ++ BitVec.ofBool w ++ d ++ k
/-- Formats J and C (R45). -/
def formJ (op : BitVec 7) (o : BitVec 24) : Word := op ++ 0#1 ++ o
/-- Format X (R45). -/
def formX (op : BitVec 7) (t v : BitVec 12) : Word := op ++ 0#1 ++ t ++ v

/-- The word of a compute-core instruction (R45, R56); an event has none. -/
def encodeCore (i : Instr) : Option Word :=
  match i with
  | .nop => some (formA 0x00 false 0 0 0)
  | .modelo k => some (formK 0x01 false 0 k)
  | .modehi k => some (formK 0x02 false 0 k)
  | .moder d => some (formA 0x03 false d.code 0 0)
  | .br o => some (formJ 0x04 o)
  | .brx t v => some (formX 0x05 t v)
  | .call o => some (formJ 0x06 o)
  | .ret => some (formA 0x07 false 0 0 0)
  | .jmps a => some (formA 0x08 false 0 a.code 0)
  | .cIf f => some (formJ 0x09 f)
  | .cElse f => some (formJ 0x0A f)
  | .cEndif => some (formA 0x0B false 0 0 0)
  | .yield d k => some (formK 0x0C false d.code k)
  | .tbar i => some (formA 0x0D false 0 0 i)
  | .trap i => some (formA 0x0E false 0 0 i)
  | .tret i => some (formA 0x0F false 0 0 i)
  | .exit => some (formA 0x10 false 0 0 0)
  | .plset i => some (formA 0x11 false 0 0 i)
  | .plsetv a => some (formA 0x12 false 0 a.code 0)
  | .plget d => some (formA 0x13 false d.code 0 0)
  | .execw a => some (formA 0x14 false 0 a.code 0)
  | .execr d => some (formA 0x15 false d.code 0 0)
  | .nestr d => some (formA 0x16 false d.code 0 0)
  | .grow i => some (formA 0x17 false 0 0 i)
  | .shrink i => some (formA 0x18 false 0 0 i)
  | .vtop d a => some (formA 0x19 false d.code a.code 0)
  | .ptov d a => some (formA 0x1A false d.code a.code 0)
  | .pcnt d a => some (formA 0x1B false d.code a.code 0)
  | .wbid d a i => some (formA 0x1C false d.code a.code i)
  | .wres d i => some (formA 0x1D false d.code 0 i)
  | .wrel i => some (formA 0x1E false 0 0 i)
  | .cntr d i => some (formA 0x1F false d.code 0 i)
  | .iadd w d a b => some (formA 0x20 w d.code a.code b.code)
  | .isub w d a b => some (formA 0x21 w d.code a.code b.code)
  | .imul w d a b => some (formA 0x22 w d.code a.code b.code)
  | .imulh w d a b => some (formA 0x23 w d.code a.code b.code)
  | .imulhn w d a b => some (formA 0x24 w d.code a.code b.code)
  | .imad w d a b => some (formA 0x25 w d.code a.code b.code)
  | .iand w d a b => some (formA 0x26 w d.code a.code b.code)
  | .ior w d a b => some (formA 0x27 w d.code a.code b.code)
  | .ixor w d a b => some (formA 0x28 w d.code a.code b.code)
  | .ishl w d a b => some (formA 0x29 w d.code a.code b.code)
  | .ishr w d a b => some (formA 0x2A w d.code a.code b.code)
  | .isar w d a b => some (formA 0x2B w d.code a.code b.code)
  | .imin w d a b => some (formA 0x2C w d.code a.code b.code)
  | .imax w d a b => some (formA 0x2D w d.code a.code b.code)
  | .iminn w d a b => some (formA 0x2E w d.code a.code b.code)
  | .imaxn w d a b => some (formA 0x2F w d.code a.code b.code)
  | .inot w d a => some (formA 0x30 w d.code a.code 0x00)
  | .ineg w d a => some (formA 0x30 w d.code a.code 0x01)
  | .iabs w d a => some (formA 0x30 w d.code a.code 0x02)
  | .popc w d a => some (formA 0x30 w d.code a.code 0x03)
  | .clz w d a => some (formA 0x30 w d.code a.code 0x04)
  | .brev w d a => some (formA 0x30 w d.code a.code 0x05)
  | .sext8 w d a => some (formA 0x30 w d.code a.code 0x06)
  | .sext16 w d a => some (formA 0x30 w d.code a.code 0x07)
  | .iaddi w d a i => some (formA 0x31 w d.code a.code i)
  | .ishli w d a i => some (formA 0x32 w d.code a.code i)
  | .ishri w d a i => some (formA 0x33 w d.code a.code i)
  | .isari w d a i => some (formA 0x34 w d.code a.code i)
  | .iandi w d a i => some (formA 0x35 w d.code a.code i)
  | .movi w d k => some (formK 0x36 w d.code k)
  | .movhi w d k => some (formK 0x37 w d.code k)
  | .movsi w d k => some (formK 0x38 w d.code k)
  | .mloop d a => some (formA 0x39 false d.code a.code 0)
  | .mvec d a => some (formA 0x3A false d.code a.code 0)
  | .mzero d i => some (formA 0x3B false d.code 0 i)
  | .mstore d a => some (formA 0x3C false d.code a.code 0)
  | .xst d a b => some (formA 0x3D false d.code a.code b.code)
  | .rotate d a => some (formA 0x3E false d.code a.code 0)
  | .copen d a => some (formA 0x3F false d.code a.code 0)
  | .icmpeq d a b => some (formA 0x40 false d.code a.code b.code)
  | .icmpne d a b => some (formA 0x41 false d.code a.code b.code)
  | .icmplt d a b => some (formA 0x42 false d.code a.code b.code)
  | .icmple d a b => some (formA 0x43 false d.code a.code b.code)
  | .icmpltn d a b => some (formA 0x44 false d.code a.code b.code)
  | .icmplen d a b => some (formA 0x45 false d.code a.code b.code)
  | .fcmpeq d a b => some (formA 0x46 false d.code a.code b.code)
  | .fcmpne d a b => some (formA 0x47 false d.code a.code b.code)
  | .fcmplt d a b => some (formA 0x48 false d.code a.code b.code)
  | .fcmple d a b => some (formA 0x49 false d.code a.code b.code)
  | .fcmpun d a b => some (formA 0x4A false d.code a.code b.code)
  | .pand d a b => some (formA 0x4B false d.code a.code b.code)
  | .por d a b => some (formA 0x4C false d.code a.code b.code)
  | .pxor d a b => some (formA 0x4D false d.code a.code b.code)
  | .pandn d a b => some (formA 0x4E false d.code a.code b.code)
  | .sel w d a b => some (formA 0x4F w d.code a.code b.code)
  | .fadd w d a b => some (formA 0x50 w d.code a.code b.code)
  | .fsub w d a b => some (formA 0x51 w d.code a.code b.code)
  | .fmul w d a b => some (formA 0x52 w d.code a.code b.code)
  | .ffma w d a b => some (formA 0x53 w d.code a.code b.code)
  | .fmin w d a b => some (formA 0x54 w d.code a.code b.code)
  | .fmax w d a b => some (formA 0x55 w d.code a.code b.code)
  | .fabs w d a => some (formA 0x56 w d.code a.code 0x00)
  | .fneg w d a => some (formA 0x56 w d.code a.code 0x01)
  | .frcp w d a => some (formA 0x56 w d.code a.code 0x02)
  | .frsq w d a => some (formA 0x56 w d.code a.code 0x03)
  | .fsqrt w d a => some (formA 0x56 w d.code a.code 0x04)
  | .fexp2 w d a => some (formA 0x56 w d.code a.code 0x05)
  | .flog2 w d a => some (formA 0x56 w d.code a.code 0x06)
  | .ffloor w d a => some (formA 0x56 w d.code a.code 0x07)
  | .fceil w d a => some (formA 0x56 w d.code a.code 0x08)
  | .ftrunc w d a => some (formA 0x56 w d.code a.code 0x09)
  | .frint w d a => some (formA 0x56 w d.code a.code 0x0A)
  | .cvt w d a b => some (formA 0x57 w d.code a.code b)
  | .fscale w d a b => some (formA 0x58 w d.code a.code b.code)
  | .fclass w d a => some (formA 0x59 w d.code a.code 0)
  | .htest d a => some (formA 0x5A false d.code a.code 0)
  | .hcancel a => some (formA 0x5B false 0 a.code 0)
  | .hmov d a => some (formA 0x5C false d.code a.code 0)
  | .chktest d a b => some (formA 0x5D false d.code a.code b.code)
  | .chkwait a b => some (formA 0x5E false 0 a.code b.code)
  | .time d => some (formA 0x5F false d.code 0 0)
  | .perm w d a b => some (formA 0x60 w d.code a.code b.code)
  | .vidx w d a => some (formA 0x61 w d.code a.code 0)
  | .vidxw d a => some (formA 0x62 false d.code a.code 0)
  | .bcast w d a i => some (formA 0x63 w d.code a.code i)
  | .vread d a i => some (formA 0x64 false d.code a.code i)
  | .vwrite d a i => some (formA 0x65 false d.code a.code i)
  | .rediadd w d a => some (formA 0x66 w d.code a.code 0x00)
  | .redimax w d a => some (formA 0x66 w d.code a.code 0x01)
  | .redimin w d a => some (formA 0x66 w d.code a.code 0x02)
  | .redimaxn w d a => some (formA 0x66 w d.code a.code 0x03)
  | .rediminn w d a => some (formA 0x66 w d.code a.code 0x04)
  | .redfadd w d a => some (formA 0x67 w d.code a.code 0x00)
  | .redfmax w d a => some (formA 0x67 w d.code a.code 0x01)
  | .redfmin w d a => some (formA 0x67 w d.code a.code 0x02)
  | .ldl d a i => some (formA 0x68 false d.code a.code i)
  | .stl d a i => some (formA 0x69 false d.code a.code i)
  | .ldlf d a i => some (formA 0x6A false d.code a.code i)
  | .stle d a i => some (formA 0x6B false d.code a.code i)
  | .ldlp d a i => some (formA 0x6C false d.code a.code i)
  | .feset d a s => some (formA 0x6D false d.code a.code (if s then 1 else 0))
  | .aladd w d a i => some (formA 0x6E w d.code a.code i)
  | .alcas w d a i => some (formA 0x6F w d.code a.code i)
  | .ldg d a b => some (formA 0x70 false d.code a.code b.code)
  | .stg d a b => some (formA 0x71 false d.code a.code b.code)
  | .prefg a b => some (formA 0x72 false 0 a.code b.code)
  | .aadd w d a b => some (formA 0x73 w d.code a.code b.code)
  | .amin w d a b => some (formA 0x74 w d.code a.code b.code)
  | .amax w d a b => some (formA 0x75 w d.code a.code b.code)
  | .aand w d a b => some (formA 0x76 w d.code a.code b.code)
  | .aor w d a b => some (formA 0x77 w d.code a.code b.code)
  | .axor w d a b => some (formA 0x78 w d.code a.code b.code)
  | .axch w d a b => some (formA 0x79 w d.code a.code b.code)
  | .acas w d a b => some (formA 0x7A w d.code a.code b.code)
  | .afadd w d a b => some (formA 0x7B w d.code a.code b.code)
  | .phase d i => some (formA 0x7C false d 0 (i.setWidth 8))
  | .fence d a b => some (formA 0x7D false d a b)
  | .waitc a b => some (formA 0x7E false 0 a.code b.code)
  | _ => none

/-- The type code of a Henat type (R279). -/
def henatType (bf : Bool) : BitVec 4 := if bf then 1 else 0

/-- The fields of a Henat instruction (R279, R280). -/
def henatFieldsOf (i : Instr) : Option HenatFields :=
  match i with
  | .henatEnd => some ⟨0x00, 0, 0, 0, 0, 0, 0, 0, false, false, 0⟩
  | .henatMatch set win last => some ⟨0x01, 0, 0, 0, 0, set, 0, win, last, false, 0⟩
  | .henatLoad d bf port win last => some ⟨0x02, d, 0, henatType bf, port, 0, 0, win, last, false, 0⟩
  | .henatAdd d bf port win last => some ⟨0x03, d, 0, henatType bf, port, 0, 0, win, last, false, 0⟩
  | .henatMax d bf port win last => some ⟨0x04, d, 0, henatType bf, port, 0, 0, win, last, false, 0⟩
  | .henatMin d bf port win last => some ⟨0x05, d, 0, henatType bf, port, 0, 0, win, last, false, 0⟩
  | .henatAdda d s last => some ⟨0x06, d, s, 0, 0, 0, 0, 0, last, false, 0⟩
  | .henatScale d s imm last => some ⟨0x07, d, s, 0, 0, 0, 0, 0, last, false, imm⟩
  | .henatRound d s bf last => some ⟨0x08, d, s, henatType bf, 0, 0, 0, 0, last, false, 0⟩
  | .henatFwd s bf set last bar => some ⟨0x09, 0, s, henatType bf, 0, set, 0, 0, last, bar, 0⟩
  | .henatFwde s bf port win last => some ⟨0x0A, 0, s, henatType bf, port, 0, 0, win, last, false, 0⟩
  | .henatCopy d s last => some ⟨0x0B, d, s, 0, 0, 0, 0, 0, last, false, 0⟩
  | .henatGath set port win last bar => some ⟨0x0C, 0, 0, 0, port, set, 0, win, last, bar, 0⟩
  | .henatBar set last => some ⟨0x0D, 0, 0, 0, 0, set, 0, 0, last, false, 0⟩
  | .henatFail code last => some ⟨0x0E, 0, 0, 0, 0, 0, 0, 0, last, false, code.setWidth 32⟩
  | .henatSkipnl => some ⟨0x0F, 0, 0, 0, 0, 0, 0, 0, false, false, 0⟩
  | _ => none

/-- The word of a Henat instruction. -/
def encodeHenat (i : Instr) : Option DWord := (henatFieldsOf i).map HenatFields.word

/-! ### Table words -/

/-- The instruction the decoder reads from bits numbered as the table of operations numbers them: a compute-core word
of 32 bits, stored little-endian (R2), or a Henat word of 64 bits. -/
def decodeTableWord (nbits w : Nat) : Option Instr :=
  if nbits ≤ 32 then (decodeCore (BitVec.ofNat 32 w)).toOption
  else if nbits ≤ 64 then (decodeHenat (BitVec.ofNat 64 w)).toOption
  else none

end Sys2Proof
end

