-- ==== Sys2Proof/Machine/Num.lean ====
section
/-! DEFINITION. Number formats and the one rounding function (R88 to R94), exact arithmetic on the extended reals, the
functions of FUN (R102), conversions (R105, R106) and the quantisation of copies (R96). -/

namespace Sys2Proof.Machine

/-! ### Formats -/

/-- A rounding mode (R92). -/
inductive Rnd where
  | rne | rtz | rup | rdn | rna
  deriving DecidableEq, Repr

/-- The rounding mode of a MODE.RND or template code (R69); a reserved code never stands in MODE. -/
def Rnd.ofCode (n : Nat) : Rnd :=
  match n with
  | 1 => .rtz
  | 2 => .rup
  | 3 => .rdn
  | 4 => .rna
  | _ => .rne

/-- A floating format (R88): total bits, sign bit or none, mantissa bits, bias, encoding of the largest finite
magnitude, whether encodings above it hold an infinity, canonical NaN. -/
structure Fmt where
  bits : Nat
  signed : Bool
  man : Nat
  bias : Nat
  maxEnc : Nat
  hasInf : Bool
  nan : Option Nat
  deriving DecidableEq, Repr

def Fmt.f32 : Fmt := ⟨32, true, 23, 127, 0x7F7FFFFF, true, some 0x7FC00000⟩
def Fmt.bf16 : Fmt := ⟨16, true, 7, 127, 0x7F7F, true, some 0x7FC0⟩
def Fmt.f16 : Fmt := ⟨16, true, 10, 15, 0x7BFF, true, some 0x7E00⟩
def Fmt.e4m3 : Fmt := ⟨8, true, 3, 7, 0x7E, false, some 0x7F⟩
def Fmt.e5m2 : Fmt := ⟨8, true, 2, 15, 0x7B, true, some 0x7E⟩
def Fmt.e2m1 : Fmt := ⟨4, true, 1, 1, 0x7, false, none⟩
def Fmt.e3m5 : Fmt := ⟨8, false, 5, 3, 0xFF, false, none⟩

/-- The sign bit's weight. -/
def Fmt.signW (f : Fmt) : Nat := 2 ^ (f.bits - 1)

/-- An exact value on the extended reals: NaN, an infinity, or ± m × 2^e with the sign of a zero kept. -/
inductive Val where
  | nan
  | inf (neg : Bool)
  | fin (neg : Bool) (m : Nat) (e : Int)
  deriving DecidableEq, Repr

/-- Magnitude bits of an encoding. -/
def Fmt.mag (f : Fmt) (x : Nat) : Nat := if f.signed then x % f.signW else x
/-- Sign of an encoding. -/
def Fmt.neg (f : Fmt) (x : Nat) : Bool := f.signed && decide (f.signW ≤ x % 2 ^ f.bits)

/-- The value of an encoding (R88). -/
def Fmt.value (f : Fmt) (x : Nat) : Val :=
  let g := f.mag x
  let s := f.neg x
  if g ≤ f.maxEnc then
    if g < 2 ^ f.man then .fin s g (1 - (f.bias : Int) - f.man)
    else .fin s (2 ^ f.man + g % 2 ^ f.man) ((g / 2 ^ f.man : Nat) - (f.bias : Int) - f.man)
  else if f.hasInf && g == f.maxEnc + 1 then .inf s
  else .nan

/-- Number of bits of a magnitude. -/
def bitLen (n : Nat) : Nat := if n = 0 then 0 else Nat.log2 n + 1

/-- Is a finite value's magnitude zero? -/
def Val.isZero : Val → Bool
  | .fin _ 0 _ => true
  | _ => false

def Val.isNan : Val → Bool
  | .nan => true
  | _ => false

def Val.sign : Val → Bool
  | .nan => false
  | .inf s => s
  | .fin s _ _ => s

def Val.negate : Val → Val
  | .nan => .nan
  | .inf s => .inf (!s)
  | .fin s m e => .fin (!s) m e

/-! ### Rounding (R92) -/

/-- Does the mode move away from zero, given the sign, the parity of the kept integer and the discarded part compared
with half a unit (0 nothing, 1 below half, 2 half, 3 above half)? -/
def roundsUp (r : Rnd) (neg odd : Bool) (rest : Nat) : Bool :=
  match r with
  | .rne => rest == 3 || (rest == 2 && odd)
  | .rna => rest == 3 || rest == 2
  | .rtz => false
  | .rup => !neg && rest != 0
  | .rdn => neg && rest != 0

/-- m × 2^(−sh) rounded to an integer. -/
def shiftRound (r : Rnd) (neg : Bool) (m sh : Nat) : Nat :=
  let q := m / 2 ^ sh
  let d := 2 * (m % 2 ^ sh)
  let rest := if d = 0 then 0 else if d < 2 ^ sh then 1 else if d = 2 ^ sh then 2 else 3
  if roundsUp r neg (q % 2 == 1) rest then q + 1 else q

/-- m × 2^e as a multiple of 2^q, rounded. A value far below the unit is a bare nonzero remainder, and a shift up is
cut where the result is beyond every format (R92 asks only which side of the limits it lies). -/
def quantum (r : Rnd) (neg : Bool) (m : Nat) (e q : Int) : Nat :=
  if m = 0 then 0
  else if q ≤ e then m * 2 ^ (min (e - q).toNat 4096)
  else if (q - e).toNat > bitLen m + 8 then shiftRound r neg 1 8
  else shiftRound r neg m (q - e).toNat

/-- The encoding with a sign. -/
def Fmt.withSign (f : Fmt) (neg : Bool) (g : Nat) : Nat := if f.signed && neg then g + f.signW else g

/-- Steps 3 and 4 of R92 for an infinite outcome of sign `neg`; `exact`: x itself is infinite. -/
def Fmt.overflow (f : Fmt) (neg exact : Bool) (r : Rnd) (sat : Bool) : Nat :=
  let toMax := sat || f.nan.isNone ||
    (!exact && (match r with
      | .rne | .rna => false
      | .rtz => true
      | .rup => neg
      | .rdn => !neg))
  if toMax then f.withSign neg f.maxEnc
  else if f.hasInf then f.withSign neg (f.maxEnc + 1)
  else f.nan.getD 0

/-- `round_fmt` (R92). -/
def roundFmt (x : Val) (f : Fmt) (r : Rnd) (sat : Bool) : Nat :=
  match x with
  | .nan => f.nan.getD 0
  | .inf s => f.overflow s true r sat
  | .fin s m e =>
    let top := e + bitLen m - 1
    let q := max (top - f.man) (1 - (f.bias : Int) - f.man)
    let n := quantum r s m e q
    let enc := (q + f.man + f.bias - 1).toNat * 2 ^ f.man + n
    if n ≠ 0 && f.maxEnc < enc then f.overflow s false r sat
    else f.withSign s (if n = 0 then 0 else enc)

/-! ### Exact operations (R94) -/

/-- The sum; `r` gives the sign of an exact zero. -/
def Val.add (r : Rnd) (x y : Val) : Val :=
  match x, y with
  | .nan, _ | _, .nan => .nan
  | .inf s, .inf t => if s = t then .inf s else .nan
  | .inf s, _ => .inf s
  | _, .inf t => .inf t
  | .fin s m e, .fin t n f =>
    let b := min e f
    let i : Int := (if s then -1 else 1) * ((m * 2 ^ (e - b).toNat : Nat) : Int)
    let j : Int := (if t then -1 else 1) * ((n * 2 ^ (f - b).toNat : Nat) : Int)
    let k := i + j
    if k = 0 then
      if m = 0 && n = 0 && s == t then .fin s 0 b else .fin (r == .rdn) 0 b
    else .fin (decide (k < 0)) k.natAbs b

/-- The product. -/
def Val.mul (x y : Val) : Val :=
  match x, y with
  | .nan, _ | _, .nan => .nan
  | .inf s, .inf t => .inf (s != t)
  | .inf s, .fin t m _ => if m = 0 then .nan else .inf (s != t)
  | .fin s m _, .inf t => if m = 0 then .nan else .inf (s != t)
  | .fin s m e, .fin t n f => .fin (s != t) (m * n) (e + f)

/-- A positive rational m × 2^e / n held to 64 bits and more, its last bit nonzero where the quotient is not exact: every
format's rounding of it is the rounding of the quotient. -/
def divBits (m n : Nat) : Nat × Int :=
  let k := 80 + bitLen n
  let q := m * 2 ^ k / n
  let r := m * 2 ^ k % n
  (2 * q + (if r = 0 then 0 else 1), -(k : Int) - 1)

/-- The quotient (R94, the quotient rules of FRCP in R102). -/
def Val.div (x y : Val) : Val :=
  match x, y with
  | .nan, _ | _, .nan => .nan
  | .inf _, .inf _ => .nan
  | .inf s, .fin t _ _ => .inf (s != t)
  | .fin s _ e, .inf t => .fin (s != t) 0 e
  | .fin s m e, .fin t n f =>
    if n = 0 then (if m = 0 then .nan else .inf (s != t))
    else let (q, k) := divBits m n; .fin (s != t) q (e - f + k)

/-- x × 2^n (R103). -/
def Val.scale (x : Val) (n : Int) : Val :=
  match x with
  | .fin s m e => .fin s m (e + n)
  | y => y

/-- The greatest r with r × r ≤ n, built from bit `k` down. -/
def isqrtFrom (n : Nat) (k r : Nat) : Nat :=
  match k with
  | 0 => if (r + 1) * (r + 1) ≤ n then r + 1 else r
  | j + 1 => isqrtFrom n j (if (r + 2 ^ (j + 1)) * (r + 2 ^ (j + 1)) ≤ n then r + 2 ^ (j + 1) else r)

def isqrt (n : Nat) : Nat := isqrtFrom n (bitLen n / 2 + 1) 0

/-- √x of a positive finite m × 2^e. -/
def sqrtBits (m : Nat) (e : Int) : Nat × Int :=
  let (m, e) := if e % 2 = 0 then (m, e) else (2 * m, e - 1)
  let n := m * 2 ^ 128
  let r := isqrt n
  (2 * r + (if r * r = n then 0 else 1), e / 2 - 65)

/-- 1 / √x of a positive finite m × 2^e. -/
def rsqrtBits (m : Nat) (e : Int) : Nat × Int :=
  let (m, e) := if e % 2 = 0 then (m, e) else (2 * m, e - 1)
  let k := 128 + bitLen m
  let n := 2 ^ (2 * k) / m
  let r := isqrt n
  (2 * r + (if r * r * m = 2 ^ (2 * k) then 0 else 1), -(e / 2) - (k : Int) - 1)

/-- x rounded to an integer in a mode, the sign kept apart (R102, R106). -/
def Val.toInt (r : Rnd) (neg : Bool) (m : Nat) (e : Int) : Nat := quantum r neg m e 0

/-! ### Exponential and logarithm (R102): fixed-point enclosures (log entry 14) -/

/-- Σ z^(2k+1) / (2k+1) in units of 2^(−p), each term cut down; `n` terms from k on. `zp` is z^(2k+1), `z2` is z². -/
def atanhTerms (p z2 : Nat) (n k zp : Nat) : Nat :=
  match n with
  | 0 => 0
  | j + 1 => zp / (2 * k + 1) + atanhTerms p z2 j (k + 1) (zp * z2 / 2 ^ p)

/-- 2 × atanh(a / b) in units of 2^(−p) from below, for a / b ≤ 1/3. -/
def atanh2 (p a b : Nat) : Nat :=
  let z := a * 2 ^ p / b
  2 * atanhTerms p (z * z / 2 ^ p) (p / 3 + 4) 0 z

/-- ln 2 in units of 2^(−p), from below (ln 2 = 2 atanh 1/3). -/
def ln2 (p : Nat) : Nat := atanh2 p 1 3

/-- e^y in units of 2^(−p), for 0 ≤ y < 1 in the same units; `n` terms, the running term `t` of index k. -/
def expTerms (p y n k t : Nat) : Nat :=
  match n with
  | 0 => 0
  | j + 1 => t + expTerms p y j (k + 1) (t * y / 2 ^ p / (k + 1))

/-- Units by which the cut terms can fall short. -/
def slack (p : Nat) : Nat := 64 * (p + 64)

/-- 2^f for f = a / 2^b in (0, 1): a lower bound in units of 2^(−p). -/
def exp2Frac (p a b : Nat) : Nat :=
  let y := a * ln2 p / 2 ^ b
  expTerms p y (p / 2 + 8) 0 (2 ^ p)

/-- Both ends of an enclosure, as values that are not themselves rounding boundaries: odd multiples of half a unit. -/
def ends (lo p : Nat) (e : Int) (neg : Bool) : Val × Val :=
  (.fin neg (2 * lo + 1) (e - p - 1), .fin neg (2 * (lo + slack p) + 1) (e - p - 1))

/-- The rounding of an irrational value, from the first precision whose enclosure rounds to one result. -/
def roundEncl (enc : Nat → Val × Val) (f : Fmt) (r : Rnd) (sat : Bool) (ps : List Nat) : Nat :=
  match ps with
  | [] => roundFmt (enc 1024).1 f r sat
  | p :: rest =>
    let a := roundFmt (enc p).1 f r sat
    if a = roundFmt (enc p).2 f r sat then a else roundEncl enc f r sat rest

/-- 2^x, rounded. -/
def exp2Round (x : Val) (f : Fmt) (r : Rnd) (sat : Bool) : Nat :=
  match x with
  | .nan => roundFmt .nan f r sat
  | .inf s => if s then f.withSign false 0 else roundFmt (.inf false) f r sat
  | .fin s m e =>
    if m = 0 then roundFmt (.fin false 1 0) f r sat
    else if e + bitLen m > 12 then roundFmt (.fin false 1 (if s then -4096 else 4096)) f r sat
    else if 0 ≤ e then
      let n : Int := (m * 2 ^ e.toNat : Nat)
      roundFmt (.fin false 1 (if s then -n else n)) f r sat
    else
      let b := (-e).toNat
      let i := m / 2 ^ b
      let a := m % 2 ^ b
      if a = 0 then roundFmt (.fin false 1 (if s then -(i : Int) else i)) f r sat
      else
        let (n, c) : Int × Nat := if s then (-(i : Int) - 1, 2 ^ b - a) else (i, a)
        roundEncl (fun p => ends (exp2Frac p c b) p n false) f r sat [96, 256, 512]

/-- log₂ x for a positive finite x, rounded. -/
def log2Round (m : Nat) (e : Int) (f : Fmt) (r : Rnd) (sat : Bool) : Nat :=
  let k := bitLen m - 1
  let n : Int := e + k
  if m = 2 ^ k then
    roundFmt (.fin (decide (n < 0)) n.natAbs 0) f r sat
  else
    roundEncl (fun p =>
      let l := atanh2 p (m - 2 ^ k) (m + 2 ^ k) * 2 ^ p / (ln2 p + p + 64)
      if 0 ≤ n then
        let (a, b) := ends l p 0 false
        match a, b with
        | .fin _ a' e', .fin _ b' _ => (.fin false (a' + n.toNat * 2 ^ (p + 1)) e', .fin false (b' + n.toNat * 2 ^ (p + 1)) e')
        | _, _ => (a, b)
      else
        let t := n.natAbs * 2 ^ p
        (.fin true (2 * (t - l - slack p) + 1) (-(p : Int) - 1), .fin true (2 * (t - l) + 1) (-(p : Int) - 1)))
      f r sat [96, 256, 512]

/-! ### Element functions -/

/-- FMIN and FMAX compare −0 below +0 (R101): order of two values that are not NaN. -/
def Val.lt (x y : Val) : Bool :=
  match x, y with
  | .nan, _ | _, .nan => false
  | .inf s, .inf t => s && !t
  | .inf s, .fin _ _ _ => s
  | .fin _ _ _, .inf t => !t
  | .fin s m e, .fin t n f =>
    let b := min e f
    let i : Int := (if s then -1 else 1) * ((m * 2 ^ (e - b).toNat : Nat) : Int)
    let j : Int := (if t then -1 else 1) * ((n * 2 ^ (f - b).toNat : Nat) : Int)
    decide (i < j)

/-- Equality of value; −0 equals +0 (R79). -/
def Val.eqv (x y : Val) : Bool := !x.isNan && !y.isNan && !x.lt y && !y.lt x

/-- The lesser (`greater` false) or greater of two encodings (R101). -/
def fminmax (greater : Bool) (f : Fmt) (a b : Nat) : Nat :=
  let x := f.value a
  let y := f.value b
  if x.isNan || y.isNan then f.nan.getD 0
  else
    let less := x.lt y || (x.eqv y && f.neg a && !f.neg b)
    if less == greater then b else a

/-- The functions of FUN that do not round (R102). -/
def fabsBits (f : Fmt) (a : Nat) : Nat := if (f.value a).isNan then f.nan.getD 0 else f.mag a
def fnegBits (f : Fmt) (a : Nat) : Nat :=
  if (f.value a).isNan then f.nan.getD 0 else f.withSign (!f.neg a) (f.mag a)

/-- 1 / x (R102). -/
def frcpBits (f : Fmt) (r : Rnd) (sat : Bool) (a : Nat) : Nat :=
  roundFmt ((Val.fin false 1 0).div (f.value a)) f r sat

/-- 1 / √x (R102). -/
def frsqBits (f : Fmt) (r : Rnd) (sat : Bool) (a : Nat) : Nat :=
  match f.value a with
  | .nan => roundFmt .nan f r sat
  | .inf s => if s then roundFmt .nan f r sat else 0
  | .fin s m e =>
    if m = 0 then roundFmt (.inf s) f r sat
    else if s then roundFmt .nan f r sat
    else let (q, k) := rsqrtBits m e; roundFmt (.fin false q k) f r sat

/-- √x (R102). -/
def fsqrtBits (f : Fmt) (r : Rnd) (sat : Bool) (a : Nat) : Nat :=
  match f.value a with
  | .nan => roundFmt .nan f r sat
  | .inf s => if s then roundFmt .nan f r sat else roundFmt (.inf false) f r sat
  | .fin s m e =>
    if m = 0 then f.withSign s 0
    else if s then roundFmt .nan f r sat
    else let (q, k) := sqrtBits m e; roundFmt (.fin false q k) f r sat

/-- 2^x (R102). -/
def fexp2Bits (f : Fmt) (r : Rnd) (sat : Bool) (a : Nat) : Nat := exp2Round (f.value a) f r sat

/-- log₂ x (R102). -/
def flog2Bits (f : Fmt) (r : Rnd) (sat : Bool) (a : Nat) : Nat :=
  match f.value a with
  | .nan => roundFmt .nan f r sat
  | .inf s => if s then roundFmt .nan f r sat else roundFmt (.inf false) f r sat
  | .fin s m e =>
    if m = 0 then roundFmt (.inf true) f r sat
    else if s then roundFmt .nan f r sat
    else log2Round m e f r sat

/-- Rounding to an integral value in the format itself (R93, R102). -/
def fintBits (f : Fmt) (r : Rnd) (a : Nat) : Nat :=
  match f.value a with
  | .nan => f.nan.getD 0
  | .inf _ => a
  | .fin s m e => if 0 ≤ e then a else roundFmt (.fin s (Val.toInt r s m e) 0) f r false

/-- The class code of an encoding (R104). -/
def fclassCode (f : Fmt) (a : Nat) : Nat :=
  let s := f.neg a
  match f.value a with
  | .nan => 8
  | .inf _ => if s then 0 else 7
  | .fin _ m _ =>
    if m = 0 then (if s then 3 else 4)
    else if f.mag a < 2 ^ f.man then (if s then 2 else 5)
    else if s then 1 else 6

/-! ### Type codes and conversion (R90, R105, R106) -/

/-- A type of MODE.CFROM and MODE.CTO (R90): floating, or an integer of a width and signedness. -/
inductive NumType where
  | flt (f : Fmt)
  | int (bits : Nat) (signed : Bool)
  deriving DecidableEq, Repr

def NumType.ofCode (n : Nat) : NumType :=
  match n with
  | 0 => .flt .f32
  | 1 => .flt .bf16
  | 2 => .flt .f16
  | 3 => .flt .e4m3
  | 4 => .flt .e5m2
  | 5 => .flt .e2m1
  | 6 => .int 32 true
  | 7 => .int 32 false
  | 8 => .int 8 true
  | _ => .int 8 false

def NumType.bits : NumType → Nat
  | .flt f => f.bits
  | .int b _ => b

/-- The value of an element of a type. -/
def NumType.value (t : NumType) (x : Nat) : Val :=
  match t with
  | .flt f => f.value x
  | .int b sg =>
    let u := x % 2 ^ b
    if sg && decide (2 ^ (b - 1) ≤ u) then .fin true (2 ^ b - u) 0 else .fin false u 0

/-- An integer clamped to a type and encoded. -/
def clampInt (b : Nat) (sg : Bool) (v : Int) : Nat :=
  let lo : Int := if sg then -(2 ^ (b - 1) : Nat) else 0
  let hi : Int := if sg then (2 ^ (b - 1) : Nat) - 1 else (2 ^ b : Nat) - 1
  let c := max lo (min hi v)
  (c % (2 ^ b : Nat)).toNat

/-- `convert` (R106), with element `x` of type `t` to type `u`. -/
def convert (t u : NumType) (r : Rnd) (sat : Bool) (x : Nat) : Nat :=
  match u with
  | .flt g =>
    if t = u then
      match g.value x with
      | .nan => g.nan.getD 0
      | .inf s => if sat then g.withSign s g.maxEnc else x
      | .fin _ _ _ => x
    else if g = .e2m1 then roundFmt (t.value x) .e2m1 r true
    else roundFmt (t.value x) g r sat
  | .int b sg =>
    match t.value x with
    | .nan => 0
    | .inf s => clampInt b sg (if s then -(2 ^ 40 : Nat) else (2 ^ 40 : Nat))
    | .fin s m e =>
      let n : Int := Val.toInt r s m e
      clampInt b sg (if s then -n else n)

/-! ### Scaled E2M1 (R95, R96) -/

/-- The value of an element with its block and band scales (R95): e × s × b; an infinite band scale acts on e alone. -/
def scaledValue (e s b : Val) : Val :=
  match b with
  | .inf _ => e.mul b
  | _ => (e.mul s).mul b

/-- E3M5 encodings from `n` down: the smallest whose value v has m ≤ 6 × v, for a magnitude m × 2^e. -/
def leastE3m5 (m : Nat) (e : Int) (n best : Nat) : Nat :=
  match n with
  | 0 => best
  | j + 1 =>
    let ok := match Fmt.e3m5.value (j + 1) with
      | .fin _ sm se => !(Val.fin false (6 * sm) se).lt (.fin false m e)
      | _ => false
    leastE3m5 m e j (if ok then j + 1 else best)

/-- The greater magnitude of a running maximum (none: no value yet) and a quotient. -/
def maxMag (acc : Option Val) (x : Val) : Option Val :=
  match x with
  | .nan => acc
  | .inf _ => some (.inf false)
  | .fin _ m e =>
    match acc with
    | none => some (.fin false m e)
    | some a => if a.lt (.fin false m e) then some (.fin false m e) else some a

/-- A block of eight quantised to its E3M5 scale encoding and its eight nibbles (R96). The comparison with m / 6 is made
on |x| and 6 × s × |b|, exactly. -/
def quantise (b : Val) (xs : List Val) : Nat × List Nat :=
  let qs := xs.map (·.div b)
  let scale :=
    match qs.foldl maxMag none with
    | none => 0
    | some (.inf _) => 0xFF
    | some (.fin _ m e) =>
      if m = 0 then 0
      else leastE3m5 m e 255 0xFF
    | some .nan => 0
  let s := Fmt.e3m5.value scale
  let nib (q : Val) : Nat :=
    let t := if scale = 0 then (Val.fin false 0 0) else q.div s
    let n := roundFmt t .e2m1 .rne true
    if n % 8 = 0 then 0 else n
  (scale, qs.map nib)

/-- A starting value plus products, exactly, with the special values and zero rule of R97: an exact zero is −0 only
when every term is −0. -/
def exactSum (c : Val) (ps : List Val) : Val := ps.foldl (Val.add .rne) c

end Sys2Proof.Machine
end

