-- ==== Sys2Proof/Machine/State.lean ====
section
/-! DEFINITION. The state of the package: everything the manual gives it, as plain data. A record that stands in no
table entry is at its reset value (`{}`), so the reset state lists only what differs. -/

namespace Sys2Proof.Machine

open Sys2Proof

/-! ### Groups (R21, R30, R66) -/

/-- A join-stack entry (R35). -/
structure Join where
  mask : DWord
  phase : Bool
  notTaken : Off
  join : Off
  deriving DecidableEq, Repr

/-- The trap frame: the group's control state at trap entry (R122). -/
structure Frame where
  offset : Off
  exec : DWord
  nest : Table (BitVec 8)
  plane : Table (BitVec 3)
  joins : List Join
  deriving DecidableEq, Repr

/-- What a group that is not ready waits for (R43). -/
inductive Wait where
  /-- ready to issue -/
  | ready
  /-- the service of a page met by a fetch or a scalar access (R64, R159): function key and page, and the address that met it -/
  | page (fkey page va : Nat)
  /-- the pages of its parked lanes (R38) -/
  | rejoin
  /-- team barrier (R44, R113) -/
  | bar (b : Nat)
  /-- a 64-bit word, read under a key slot, to reach a threshold (R190); 0 once a value that reaches it has been evaluated (R191) -/
  | waitc (loc slot : Nat) (thr : DWord)
  /-- completion of a handle's operation, then the continuation (R112) -/
  | yield (h : Word) (cont : Off)
  /-- free registers (R84) -/
  | grow (regs : Nat)
  /-- outstanding loads into the released registers (R85) -/
  | shrink (regs : Nat)
  /-- performance of the stores and atomics a publish covers, then perhaps a refresh (R165, R174) -/
  | publish (scope : Nat) (storage : BitVec 5) (refresh : Bool)
  /-- full or empty words (R139, R140) -/
  | fullEmpty
  /-- the fault block's page (R128), then the trap that is being taken -/
  | faultBlock (fkey page : Nat)
  deriving DecidableEq, Repr

/-- The first faulting issue of a kind 0x19 trap and the union over all of them (R120, R121, R184). -/
structure Faults where
  /-- bits [24:0] of the word of the first faulting issue, and its opcode -/
  word : Word
  /-- offset of the first faulting issue -/
  here : Off
  /-- X5, X6: fetch address, or the record's address field for a scalar access -/
  addr : DWord
  /-- lowest plane of the first faulting issue -/
  low : BitVec 3
  lanes : DWord
  planes : BitVec 8
  /-- run of the first faulting issue (0: the forward run), and its highest plane, for the order of R121 -/
  run : Nat
  high : Nat
  /-- number of the first faulting issue among what has been issued, for the order of R26 -/
  seq : Nat := 0
  deriving DecidableEq, Repr

/-- A parked lane: the page it met (function key and page), and the access for its record if the service fails
(R37, R152 row 7). -/
structure ParkedLane where
  fkey : Nat
  page : Nat
  lane : Nat
  va : Nat
  word : Word
  planes : BitVec 8
  deriving DecidableEq, Repr

/-- A byte of a fault-block record that its group has not published yet (R127): the group, its team, the byte's place, and the byte
that other cores see there. -/
structure Veil where
  gkey : Nat
  team : Nat
  loc : Nat
  old : Byte
  deriving DecidableEq, Repr

/-- A replay under way (R38): the lanes replayed, the offset it runs up to, the valid bits and the shifts of the run before it
(R39). -/
structure Replay where
  mask : DWord
  upTo : Off
  valid : BitVec 4
  /-- offsets at which the run before it shifted the latches -/
  shifts : List Off
  /-- its team has been saved since those shifts, which make no latch valid any more (R41) -/
  cut : Bool := false
  deriving DecidableEq, Repr

/-- A pending fence point (R175): what it recorded and the paths it holds back. -/
structure FencePoint where
  scope : Nat
  storage : BitVec 5
  later : BitVec 7
  /-- a fifth FENCE waits for it -/
  awaited : Bool
  /-- requests recorded -/
  reqs : List Nat
  /-- loads recorded -/
  loads : List Nat
  /-- handles of engine commands recorded -/
  ops : List Word
  deriving DecidableEq, Repr

/-- The issue being worked on (R26): which lanes and planes, the word, and what its instructions leave for the end of
the offset. -/
structure Issue where
  mask : DWord := 0
  planes : BitVec 8 := 0
  word : Word := 0
  /-- offset of the instruction -/
  here : Off := 0
  /-- replays under way at the offset: 0 in a forward run (R38) -/
  run : Nat := 0
  /-- union of the enabled lanes of the offset's issues (R107) -/
  union : DWord := 0
  /-- an issue of the offset has been made -/
  made : Bool := false
  /-- some issue of the offset produced a lane result (R40) -/
  res : Bool := false
  /-- lanes of the coming L0 -/
  l0 : Table Word := []
  /-- an instruction has set the offset itself -/
  moved : Bool := false
  /-- the instruction waits at issue: nothing at the offset counts, and the offset stays -/
  hold : Bool := false
  /-- an access at a later offset was cancelled for a page that is not present (R37) -/
  cancelled : Bool := false
  /-- a trap has been taken before the issue -/
  trapped : Bool := false
  /-- its number among what has been issued, for the order of late faults (R184) -/
  seq : Nat := 0
  /-- handles whose operations it waits for, and the completion words of those that have completed since, whatever their entries hold by
  now (R224, R229) -/
  asked : List Word := []
  got : List (Word × Word) := []
  deriving DecidableEq, Repr

/-- An offset some of whose issues still have to be made, because one of them waits: the issues left (word, planes,
mask), and what the earlier ones left behind. -/
structure Half where
  todo : List (Word × BitVec 8 × DWord)
  iss : Issue
  /-- its team has been saved and placed again since (R41, R219) -/
  cut : Bool
  /-- the issue that waits is the first of its offset -/
  first : Bool
  deriving DecidableEq, Repr

/-- One group and its group context (R22, R30, R66). The record's own values are the launch values, with no launch:
width 8, one plane, allotment 16 (log entry 5, DESIGN CHOICE). -/
structure Group where
  /-- a group stands in this context -/
  live : Bool := false
  exited : Bool := false
  die : Nat := 0
  core : Nat := 0
  ctx : Nat := 0
  /-- function of the launch, 0 to 4 -/
  fn : Nat := 0
  team : Nat := 0
  /-- index in its team -/
  index : Nat := 0
  /-- lanes: 8, 16, 32 or 64 -/
  width : Nat := 8
  /-- lowest octet (R22) -/
  octet : Nat := 0
  /-- plane count NP (R25) -/
  np : Nat := 1
  codeBase : BitVec 48 := 0
  stride : Word := 0
  /-- trap-handler offset, if the launch installed one (R205) -/
  handler : Option Off := none
  faultArea : DWord := 0
  offset : Off := 0
  exec : DWord := 0xFF
  plane : Table (BitVec 3) := []
  nest : Table (BitVec 8) := []
  joins : List Join := []
  parked : DWord := 0
  parkOffset : Off := 0
  /-- latch lanes saved at parking, key 64 × latch + lane (R39) -/
  parkLat : Table Word := []
  parkLatValid : BitVec 4 := 0
  rejoinAt : Off := 0
  /-- pages the rejoin waits for: function key and page -/
  waitPages : List (Nat × Nat) := []
  /-- lanes whose page service failed (R152 row 7) -/
  failedPages : List (Nat × Nat) := []
  /-- the address of a fetch or scalar access whose page service failed, until it is tried again (R156, R159) -/
  failedVa : Option Nat := none
  /-- the service of the page of its fault block failed while its team was saved (R128) -/
  blockFailed : Bool := false
  /-- which access each parked lane parked at -/
  parkedOn : List ParkedLane := []
  /-- park offset of the outermost range, from which R121 counts offsets -/
  rangeStart : Off := 0
  /-- issues of that range have this number or a later one (R121, R184) -/
  rangeSeq : Nat := 0
  /-- the team has been saved since lanes parked (R41) -/
  latCut : Bool := false
  /-- offsets since the park offset at which the latches shifted (R39) -/
  shifts : List Off := []
  /-- replays under way, innermost first (R38) -/
  replays : List Replay := []
  faults : Option Faults := none
  /-- records still to be written into the fault block: byte in the block, length, value (R127, R128) -/
  recs : List (Nat × Nat × Nat) := []
  /-- X0 to X7 of the trap that is being taken once its records are written; empty: none -/
  pendX : List Word := []
  /-- the trap being taken ends the team (R123, R126) -/
  dying : Bool := false
  /-- the offset is half issued -/
  half : Option Half := none
  /-- its last try to issue found it waiting; it is tried again once something else has happened (log entry 2) -/
  stalled : Bool := false
  /-- core cycles that its last issue still takes (R354) -/
  busy : Nat := 0
  /-- V registers, key 64 × register + lane -/
  v : Table Word := []
  s : Table Word := []
  /-- P0 to P6, one bit per lane -/
  p : Table DWord := []
  h : Table Word := []
  /-- L0 to L3, key 64 × latch + lane -/
  lat : Table Word := []
  latValid : BitVec 4 := 0
  x : Table Word := []
  mode : Word := 0x0200003F
  allot : Nat := 16
  frame : Option Frame := none
  wait : Wait := .ready
  served : DWord := 0
  /-- outstanding stores and atomics by storage space 1 (D), 2 (P), 3 (A), 5 (H) -/
  pubCount : Table Nat := []
  fences : List FencePoint := []
  /-- counters 1, 2, 3, 4, 11, 12 of R198 -/
  cnt : Table DWord := []
  age : BitVec 13 := 0
  deriving DecidableEq, Repr

/-! ### Teams and cores -/

/-- An entry of the team's operation table (R221). -/
structure OpEntry where
  handle : Word := 0
  word : Word := 0
  bitmap : DWord := 0
  pending : Bool := false
  /-- the issuing group's key -/
  gkey : Nat := 0
  deriving DecidableEq, Repr

/-- A team (R21, R221). -/
structure Team where
  live : Bool := false
  die : Nat := 0
  core : Nat := 0
  fn : Nat := 0
  launch : Nat := 0
  /-- linear index T in the grid -/
  index : Nat := 0
  /-- keys of its groups, by index -/
  groups : List Nat := []
  /-- keys of the groups that have exited -/
  gone : List Nat := []
  lsBase : Nat := 0
  lsSize : Nat := 0
  gen : BitVec 8 := 0
  opCount : BitVec 16 := 0
  ops : Table OpEntry := []
  /-- groups arrived at barrier b: list of group indexes (R44) -/
  bars : Table (List Nat) := []
  /-- position in its cluster's ring and the ring's teams, or none (R23) -/
  ring : Option Nat := none
  cluster : List Nat := []
  rotates : Nat := 0
  /-- ended by a fault or lost -/
  bad : Bool := false
  deriving DecidableEq, Repr

/-- A range-scoreboard entry (R172): bytes [lo, hi) of the core's local store. -/
structure ScoreEntry where
  handle : Word
  team : Nat
  lo : Nat
  hi : Nat
  write : Bool
  /-- bytes of one chunk, where the entry conflicts only in chunks whose bits are clear (R241); 0: the whole range -/
  piece : Nat
  deriving DecidableEq, Repr

/-- Where an engine command came from, for its report (R226). -/
structure Origin where
  die : Nat
  core : Nat
  team : Nat
  group : Nat
  gkey : Nat
  handle : Word
  offset : Off
  deriving DecidableEq, Repr

/-- One operand of a format block (R233). -/
structure FormatHalf where
  type : Nat
  blockScaled : Bool
  bandScaled : Bool
  table : Nat
  incr : Int
  band : BitVec 16
  deriving DecidableEq, Repr

/-- A matrix command in its queue (R234 to R236). -/
inductive MxCmd where
  /-- `left`: core cycles that its next step still takes -/
  | mloop (tile a b steps : Nat) (incA incB : Int) (fa fb : FormatHalf) (rows cols done : Nat) (cancelled : Bool) (left : Nat)
  | mzero (tile left : Nat)
  | mstore (tile dst pitch rows cols fmt : Nat) (sat : Bool)
  deriving DecidableEq, Repr

/-- An MVEC in its queue (R237). -/
structure NmCmd where
  a : Nat
  kb : Nat
  base : DWord
  n : Nat
  result : Nat
  fa : FormatHalf
  fb : FormatHalf
  done : Nat
  cancelled : Bool
  /-- the page whose service it waits for -/
  waiting : Option (Nat × Nat)
  deriving DecidableEq, Repr

/-- A ROTATE in its queue (R243). -/
structure RtCmd where
  src : Nat
  dst : Nat
  bytes : Nat
  /-- number of this ROTATE in its team -/
  n : Nat
  started : Bool
  /-- core cycles that the rotation still takes -/
  left : Nat
  deriving DecidableEq, Repr

/-- A snapshot line: 64 bytes at `64 × line` of memory, fetched as a space of a function (R160). A line that has been evicted
keeps the bytes that the core's loads go on returning until a refresh (R168). -/
structure SnapLine where
  line : Nat
  fn : Nat
  space : Nat
  bytes : List Byte
  /-- it stands in the cache -/
  held : Bool
  deriving DecidableEq, Repr

/-- A TLB entry: the leaf found for a page of a function (R153). -/
structure TlbEntry where
  fn : Nat
  /-- virtual address of the page, and its size as a power of two -/
  page : Nat
  bits : Nat
  leaf : DWord
  deriving DecidableEq, Repr

/-- A core (R9, R160, R221). -/
structure Core where
  fenced : Bool := false
  snap : List SnapLine := []
  score : List ScoreEntry := []
  pred : Table (BitVec 2) := []
  /-- 256-byte lines acquired for atomics (R179) -/
  atomLines : List Nat := []
  tlb : List TlbEntry := []
  gen : BitVec 8 := 1
  /-- F32 elements, key 256 × tile + 16 × row + column -/
  tiles : Table Word := []
  tileOwner : Option Nat := none
  mx : List (Origin × MxCmd) := []
  nm : List (Origin × NmCmd) := []
  rt : List (Origin × RtCmd) := []
  /-- the scalar unit has issued in this core cycle (R212) -/
  scalar : Bool := false
  /-- group keys waiting in GROW, oldest first (R87) -/
  growQ : List Nat := []
  /-- core cycles of the nanosecond that are still to come for this core -/
  lag : Nat := 0
  /-- the die's core cycles when counter 0 was last zeroed (R198) -/
  zeroed : Nat := 0
  /-- counters 5, 6, 8, 9, 10 of R198 -/
  cnt : Table DWord := []
  deriving DecidableEq, Repr

/-- A lane waiting on full/empty bits (R139, R140). -/
inductive FeKind where
  | ldlf | stle | ldlp
  deriving DecidableEq, Repr

structure FeWait where
  gkey : Nat
  team : Nat
  lane : Nat
  kind : FeKind
  loc : Nat
  n : Nat
  mode : Word
  scalar : Bool
  dst : Nat
  data : BitVec 128
  /-- the core cycle in which it began to wait -/
  since : Nat
  deriving DecidableEq, Repr

/-! ### Functions, launches (R201, R331) -/

/-- TDISP states (R336). -/
inductive Tdi where
  | unlocked
  | locked
  | run
  | error
  deriving DecidableEq, Repr

/-- A function configuration (R331). -/
structure FnCfg where
  root : Nat := 0
  templBase : Nat := 0
  templCount : Nat := 0
  columns : BitVec 20 := 0
  tenant : Nat := 0
  hostPort : Bool := false
  enabled : Bool := false
  rate : Nat := 0
  depth : Nat := 0
  keySlots : DWord := 0
  queueArea : Nat := 0
  saveArea : Nat := 0
  faultQ : Nat := 0
  pageQ : Nat := 0
  invalRing : Nat := 0
  ctrlRing : Nat := 0
  deriving DecidableEq, Repr

/-- A contest's last result at a die (R299, R304). -/
structure WeirResult where
  key : Word := 0
  valid : Bool := false
  held : Bool := false
  die : BitVec 5 := 0
  slot : BitVec 3 := 0
  k : BitVec 15 := 0
  deriving DecidableEq, Repr

/-- Who moves next (log entry 2, DESIGN CHOICE). -/
inductive Activity where
  /-- the next offset of the group of this key -/
  | group (gkey : Nat)
  /-- one core cycle of a core: the grants of R213 -/
  | cycle (ckey : Nat)
  /-- an event or command -/
  | event (e : Instr)
  /-- the next entry of a control ring (die, function) -/
  | control (die fn : Nat)
  /-- the next Henat word of an open collective's body -/
  | lock (coll : Nat)
  /-- a transmission of a flit reaches the far end of a link direction (R312) -/
  | flit (dir : Nat) (seq : BitVec 10) (tries : Nat)
  /-- a WREL reaches the Weir interface of its die (R17, R305) -/
  | release (die contest : Nat)
  /-- what a die's Weir interface has latched reaches its cores: a contest's result, and the completion of a bid's handle (R17, R299) -/
  | latched (die contest : Nat) (r : WeirResult)
  | bidEnd (die slot : Nat) (handle word : Word)
  /-- a write or arrive of a collective reaches its die (R16); the sending it belongs to -/
  | result (coll die epoch : Nat)
  /-- a host agent's access reaches its function's die (R329) -/
  | host (die fn : Nat) (va : DWord) (access : HostAccess)
  /-- a packet that its port has authenticated reaches its target die (R320); the port -/
  | packet (port : Nat) (p : NetPacket)
  /-- a packet of a transfer reaches its Ethernet port, and its acknowledgement or data the die of its copy (R16, R311) -/
  | port (uid : Nat)
  | netDone (uid : Nat)
  /-- an increment reaches the home of its counter (R189) -/
  | count (uid : Nat)
  /-- the answer to an accepted packet reaches its port (R320): an acknowledgement, or the data of a read -/
  | reply (port : Nat) (data : Option (List Byte))
  /-- what the Basin answers reaches the die that asked (R16, R318): an alias store has been accepted, or a COPEN on a slot is complete -/
  | stored (uid gkey team : Nat)
  | opened (slot : Nat) (org : Origin) (word : Word)
  /-- the acknowledgement of a chunk that has been written at another pound reaches its engine; bytes of it lie in host memory (R16, R311) -/
  | written (copy chunk : Nat) (host : Bool)
  /-- an increment has been made at another pound, which the die that made it hears: its copy, or the packet to be acknowledged (R16, R189) -/
  | counted (copy : Option Nat) (ack : Option (Nat × NetPacket))
  /-- the failure of a collective reaches a bound function (R275): the bound object's address, and the record -/
  | failed (die fn addr : Nat) (bytes : List Byte)
  /-- the image of the first RELOAD reaches the Basin (R288) -/
  | image
  /-- the accesses of a function that an answered page has failed have been tried again (R156) -/
  | settled (fkey answer : Nat)
  deriving DecidableEq, Repr

/-- The part's state of one launch queue (R201, R203, R204). -/
structure QueueState where
  /-- levels gained by aging -/
  aged : Nat := 0
  /-- T24 since which it has stayed eligible -/
  since : Option Nat := none
  /-- stopped without the header being written: unreadable -/
  stopped : Bool := false
  /-- the head record's bytes, read when its last dependence was found to hold (R207); empty: it cannot be read; false: a
  dependence word of it cannot -/
  rcd : Option (List Byte × Bool) := none
  /-- address that `rcd` was read at -/
  rcdAt : Nat := 0
  /-- the queue's own priority as its header last gave it -/
  prio : Nat := 0
  deriving DecidableEq, Repr

/-- A launch record as read (R205). -/
structure LaunchRec where
  codeBase : Nat := 0
  stride : Nat := 0
  npCode : Nat := 0
  widthCode : Nat := 0
  restartable : Bool := false
  cooperative : Bool := false
  groups : Nat := 1
  allot : Nat := 16
  lsBytes : Nat := 0
  clusterW : Nat := 0
  clusterH : Nat := 0
  gx : Nat := 1
  gy : Nat := 1
  gz : Nat := 1
  handler : Option Off := none
  expected : Nat := 0
  faultArea : Nat := 0
  deps : List (Nat × Nat) := []
  barrier : Nat := 0
  chainNext : Nat := 0
  bound : Bool := false
  slot : Nat := 0
  resultOff : Nat := 0
  tileBytes : Nat := 0
  aliasStride : Nat := 0
  /-- every zero or reserved field is zero -/
  zeros : Bool := true
  deriving DecidableEq, Repr

/-- A chain-table entry (R208): the node to be served next, or the node that runs. -/
structure Chain where
  addr : Nat
  node : Nat
  queue : Nat
  /-- the node's dependences hold and it stands as a candidate -/
  ready : Bool
  /-- the node has been selected and its grid runs -/
  running : Bool
  /-- order of the chains begun from one queue -/
  inst : Nat
  /-- the node's record, read when it became ready -/
  rcd : LaunchRec
  deriving DecidableEq, Repr

/-- A launch that has been taken (R205 to R216). -/
structure Launch where
  live : Bool := false
  die : Nat := 0
  fn : Nat := 0
  addr : Nat := 0
  queue : Nat := 0
  chain : Option Nat := none
  rcd : LaunchRec := {}
  placed : Nat := 0
  ended : Nat := 0
  bad : Bool := false
  /-- bound teams whose chunk is still to be fired (team numbers) -/
  firing : List Nat := []
  /-- team numbers that the stores of flushed teams stand under (R216, R219) -/
  strays : List Nat := []
  /-- the page that its completion arrive waits for -/
  waiting : Option (Nat × Nat) := none
  /-- the completion arrive has been made, or cannot be -/
  arrived : Bool := false
  deriving DecidableEq, Repr

/-- A team taken off its core (R219; its own record stays among the teams): its groups, its local store and its tiles. -/
structure SavedTeam where
  uid : Nat
  groups : List Group
  ls : List Host.Cell
  empties : List Nat
  fe : List FeWait
  tiles : Option (Table Word)
  /-- flushed: placed again with launch values -/
  fresh : Bool
  score : List ScoreEntry
  mx : List (Origin × MxCmd)
  nm : List (Origin × NmCmd)
  rt : List (Origin × RtCmd)
  /-- byte of the save area at which its image begins, and the image's length -/
  area : Nat
  size : Nat
  deriving DecidableEq, Repr

/-- A page-service request (R156, R335). -/
structure PageReq where
  page : Nat
  access : BitVec 4
  seq : Nat
  deriving DecidableEq, Repr

/-- A write of the part's own that waits for the service of a page (R156): a record of a ring, a completion counter, bytes
of a header or a result, an engine record of a fault block. -/
inductive HeldWrite where
  | record (vector : Nat) (bytes : List Byte)
  | count (ring : Nat)
  | put (addr : Nat) (bytes : List Byte)
  | image (addr : Nat) (bytes : List Byte)
  | block (addr : Nat) (bytes : List Byte)
  deriving DecidableEq, Repr

/-- An access of the part's own that waits for a page (R156): what makes it, and its address. -/
structure PartWait where
  fkey : Nat
  page : Nat
  who : Activity
  va : Nat
  deriving DecidableEq, Repr

/-- A dependence word that the part watches for a record (R207): the queue it heads, or 16 + the chain-table entry it is the next node
of; the word's address, place and key slot, the threshold, and whether a value that reaches it has been seen. -/
structure DepWatch where
  owner : Nat
  addr : Nat
  loc : Nat
  slot : Nat
  thr : Nat
  met : Bool
  deriving DecidableEq, Repr

/-- A pre-emption request under way (R217 to R220): units are lists of team numbers. -/
structure Preempt where
  columns : BitVec 20
  bound : Nat
  result : Nat
  /-- units that drain, and units to be saved once their groups have reached an offset boundary (R219) -/
  draining : List (List Nat)
  saving : List (List Nat)
  drained : Nat
  savedN : Nat
  flushed : Nat
  missed : Nat
  /-- core cycles since the request, and the most that a unit has taken (R218, R220) -/
  spent : Nat
  worst : Nat
  deriving DecidableEq, Repr

/-- A tenant function of a die (R328, R201). -/
structure Fn where
  cfg : FnCfg := {}
  tdi : Tdi := .unlocked
  level : Nat := 0
  debt : Nat := 0
  queues : Table QueueState := []
  rr : Table Nat := []
  chains : Table Chain := []
  chainInst : Nat := 0
  cursor : Option (Nat × Nat) := none
  saved : List SavedTeam := []
  cnt7 : DWord := 0
  pages : List PageReq := []
  pageSeq : Nat := 0
  /-- vectors signalled: fault, page service, control, invalidation (R329) -/
  msix : BitVec 4 := 0
  /-- pre-emption requests under way, in their order -/
  preempts : List Preempt := []
  /-- words the part watches for the function, and what follows a write to them (R191, R203, R332) -/
  watch : List (Nat × Activity) := []
  /-- dependence words of records that wait (R207) -/
  deps : List DepWatch := []
  /-- the part's own accesses that wait for a page and are tried again; and those whose service has failed, each until it has been tried, by
  what makes it, its address and the number of the answer (R156) -/
  pageWait : List PartWait := []
  pageFail : List (Activity × Nat × Nat) := []
  /-- the part's own writes that wait for a page, each with it, in their order (R156) -/
  held : List (HeldWrite × Nat × Nat) := []
  /-- commands and host agents' accesses that wait for the service of a page -/
  pending : List Activity := []
  /-- an invalidation whose entries are removed waits for the accesses with numbers below this one (R155) -/
  settling : Option Nat := none
  deriving DecidableEq, Repr

/-! ### Dies -/

/-- A bid slot (R292). -/
structure Bid where
  contest : Nat
  key : Word
  handle : Word
  origin : Origin
  /-- it has reached its die's Weir interface -/
  arrived : Bool
  /-- it is in the round in progress -/
  inRound : Bool
  deriving DecidableEq, Repr

/-- A memory key slot (R263): owner function and the number of the key in it; `closing`: every page mapped with it is fenced, and the owner
goes once the accesses that still reach them have been performed. -/
structure KeySlot where
  owner : Option Nat := none
  key : Nat := 0
  closing : Bool := false
  deriving DecidableEq, Repr

/-- A registration entry with its owner (R253, R254). -/
inductive RegState where
  | free
  | valid
  | revoking
  deriving DecidableEq, Repr

structure Reg where
  state : RegState := .free
  owner : Nat := 0
  base : Nat := 0
  pages : Nat := 0
  read : Bool := false
  write : Bool := false
  atomic : Bool := false
  peer : Bool := false
  network : Bool := false
  impFn : Nat := 0
  impDie : Nat := 0
  impPkg : Nat := 0
  counter : Nat := 0
  /-- result address of the REVOKE, to be written when FREE -/
  result : Option Nat := none
  deriving DecidableEq, Repr

/-- A compute die (R9). -/
structure Die where
  fenced : Bool := false
  keeperDead : Bool := false
  /-- core cycles since reset (R15): the clock of its cores -/
  cycle : Nat := 0
  time : DWord := 0
  /-- its time counter has been released at bring-up (R192) -/
  released : Bool := false
  pool : Nat := 0
  tlb2 : List TlbEntry := []
  /-- watch entries for waiting WAITCs (R191): the word's place and the waiting group's key -/
  watches : List (Nat × Nat) := []
  keys : Table KeySlot := []
  /-- per home slice, the accepted request sequences of each source core with the atomics' old values (R310, R313) -/
  filter : Table (List (Nat × BitVec 16 × List DWord)) := []
  bids : Table Bid := []
  results : Table WeirResult := []
  /-- corrected single-bit errors: 0 in register files and local stores, 1 in snapshot caches (R342) -/
  softErrors : Table DWord := []
  throttled : Bool := false
  /-- junction temperature in sixteenths of a degree (R198) -/
  temp : DWord := 0
  deriving DecidableEq, Repr

/-! ### Requests in flight -/

/-- The operation of a global atomic (R176). -/
inductive AtomOp where
  | add | min | max | and | or | xor | xch | cas | fadd
  deriving DecidableEq, Repr

/-- One lane's part of a store or atomic: its location (`space`, key in memory), its data, where an old value goes. -/
structure Part where
  lane : Nat
  /-- its virtual address, for the record of a fault met at the home (R317) -/
  va : Nat
  space : Nat
  loc : Nat
  /-- key slot the page is mapped with -/
  slot : Nat
  /-- the registration of a peer window (its counter counts the bytes) -/
  expo : Option Nat
  data : BitVec 128
  cmp : DWord
  old : DWord
  /-- an atomic that the predictor forwarded to the home slice (R179) -/
  fwd : Bool
  deriving DecidableEq, Repr

inductive ReqKind where
  | store
  | atomic (op : AtomOp) (ret : Bool)
  /-- the request of a load or a prefetch for a line of another pound (R157, R158, R311): nothing is performed at the home -/
  | read
  /-- the read of a WAITC, of a word of another pound (R190, R191) -/
  | word
  deriving DecidableEq, Repr

/-- A request issued and not yet done with (R160, R163, R310, R313). -/
structure Req where
  uid : Nat
  seq : BitVec 16
  srcDie : Nat
  srcCore : Nat
  gkey : Nat
  team : Nat
  fn : Nat
  kind : ReqKind
  /-- bytes of each lane's access -/
  n : Nat
  /-- MODE at issue -/
  mode : Word
  ord : Bool
  scalar : Bool
  /-- destination register code -/
  dst : Nat
  parts : List Part
  performed : Bool
  /-- where it goes: a die, or the Basin -/
  home : Nat
  /-- its last flit has reached its home -/
  arrived : Bool
  /-- T24 at which it was last sent (R313) -/
  sentAt : Nat
  /-- made by a replay: behind every access of the runs before it (R38) -/
  replayed : Bool
  /-- the issue it belongs to, for a lane fault met at the home (R317) -/
  word : Word
  here : Off
  planes : BitVec 8
  /-- the request for a line whose space the core has refreshed since: later loads ask anew (R168) -/
  stale : Bool := false
  deriving DecidableEq, Repr

/-- One lane's part of a load. -/
structure LoadPart where
  lane : Nat
  space : Nat
  loc : Nat
  /-- value taken at issue; none where an atomic of the core, or the line's home, is still to answer -/
  value : Option (BitVec 128)
  /-- the registration of a peer window -/
  expo : Option Nat
  /-- key slot the page is mapped with -/
  slot : Nat := 0
  /-- its virtual address, for the record of a fault met at the home (R317) -/
  va : Nat := 0
  deriving DecidableEq, Repr

/-- A load whose data have not returned (R142, R157). -/
structure Load where
  uid : Nat
  gkey : Nat
  team : Nat
  die : Nat
  core : Nat
  fn : Nat
  n : Nat
  mode : Word
  scalar : Bool
  /-- first destination register number, V or S -/
  dst : Nat
  parts : List LoadPart
  /-- made by a replay: behind every access of the runs before it (R38) -/
  replayed : Bool := false
  /-- the issue it belongs to, for a lane fault met at the home (R317) -/
  word : Word := 0
  here : Off := 0
  planes : BitVec 8 := 0
  deriving DecidableEq, Repr

/-- An alias store on its way to the Basin (R266). -/
structure AliasStore where
  uid : Nat
  gkey : Nat
  team : Nat
  die : Nat
  tenant : Nat
  slot : Nat
  window : Nat
  off : Nat
  bytes : List Byte
  /-- its last flit has reached the Basin -/
  arrived : Bool
  /-- the Basin has relayed it toward the Keeper of an endpoint collective's root die (R290) -/
  relayed : Bool
  /-- T24 at which it was last sent (R313) -/
  sentAt : Nat
  /-- made by a replay (R38) -/
  replayed : Bool
  /-- the core it was sent from, and its request sequence toward the Basin (R310, R318) -/
  src : Nat := 0
  seq : BitVec 16 := 0
  /-- for a host agent's contribution, the function that its address was translated for (R155, R282) -/
  hostFn : Option Nat := none
  deriving DecidableEq, Repr

/-- A COPEN on its way to the Basin (R244, R267): the block's fields. -/
structure OpenReq where
  uid : Nat
  org : Origin
  program : Nat
  slot : Nat
  parts : BitVec 42
  window : Nat
  object : Nat
  root : Nat
  /-- its last flit has reached the Basin -/
  arrived : Bool
  /-- T24 at which it was last sent (R313) -/
  sentAt : Nat
  /-- the core it was sent from, and its request sequence toward the Basin (R310, R318) -/
  src : Nat := 0
  seq : BitVec 16 := 0
  deriving DecidableEq, Repr

/-- A counted write whose increment is still to be made (R189): the counter's owner function and address. -/
structure Incr where
  uid : Nat
  die : Nat
  fn : Nat
  addr : Nat
  bytes : Nat
  /-- the copy that a template's counter belongs to; none: a registration's counter (R334 kind 7) -/
  copy : Option Nat
  /-- the registration whose accepted network write it counts (R255) -/
  net : Option Nat
  /-- the counted bytes lie in host memory as the counter's owner reaches them (R309) -/
  host : Bool
  waiting : Option (Nat × Nat)
  /-- the port and packet that are acknowledged once it has been counted (R320) -/
  ack : Option (Nat × NetPacket) := none
  /-- space, place and key slot of a counter at another pound that it is on its way to, and T24 at which it was last sent -/
  home : Option (Nat × Nat × Nat) := none
  /-- the registration of a peer window that it was translated through (R254, R255) -/
  expo : Option Nat := none
  sentAt : Nat := 0
  deriving DecidableEq, Repr

/-- An arrive that is still to be made (R187): on behalf of a function, with a status and the source of R334 kind 7. -/
structure Arrive where
  fkey : Nat
  addr : Nat
  status : Nat
  source : Nat
  waiting : Nat × Nat
  deriving DecidableEq, Repr

/-- A command's result still to be written (R333). -/
structure Result where
  fkey : Nat
  addr : Nat
  bytes : List Byte
  waiting : Nat × Nat
  deriving DecidableEq, Repr

/-- A copy template (R247). -/
structure Template where
  src : Nat
  dst : Nat
  srcKind : Nat
  dstKind : Nat
  srcType : Nat
  dstType : Nat
  scaled : Bool
  sat : Bool
  rnd : Nat
  tileBytes : Nat
  srcStride : Nat
  dstStride : Nat
  scaleDst : Nat
  band : BitVec 16
  rod : Bool
  flagged : Bool
  netDie : Nat
  netPkg : Nat
  netReg : Nat
  counter : Nat
  deriving DecidableEq, Repr

/-- A chunk on its way to or from other pounds (R311): where its bytes come from and go to, as they were translated when it left
(R155, R255), the number of that translation, and the request sequences it took toward the pounds it reaches (R310). -/
structure Away where
  chunk : Nat
  uid : Nat
  src : List (Nat × Nat × Nat × Option Nat)
  dst : List (Nat × Nat × Nat × Option Nat)
  scale : List (Nat × Nat × Nat × Option Nat)
  seqs : List (Nat × BitVec 16)
  deriving DecidableEq, Repr

/-- A copy in a channel or with the Keeper (R239 to R242). -/
structure Copy where
  uid : Nat
  org : Origin
  fn : Nat
  channel : Nat
  tile : Nat
  templAddr : Nat
  /-- read at acceptance; none while the template's page is being serviced -/
  tmpl : Option Template
  lsBase : Nat
  lsSize : Nat
  /-- chunks accepted -/
  accepted : Nat
  /-- chunks accepted and not yet written -/
  started : List Nat
  /-- chunks whose flits are on their way to another pound, and chunks whose flits have arrived (R311) -/
  flying : List Away
  landed : List Away
  /-- T24 at which flits of it were last sent (R313) -/
  sentAt : Nat
  bitmap : DWord
  cancelled : Bool
  /-- chunks left to the Keeper, once handed over -/
  keeper : Option (List Nat)
  /-- reason of the first failure and its address -/
  failed : Option (Nat × Nat)
  /-- the page that its template or its next chunk waits for, and the address at which that was met -/
  waiting : Option (Nat × Nat)
  waitAt : Nat
  deriving DecidableEq, Repr

/-- A network packet of a transfer (R320 to R323). -/
structure Packet where
  uid : Nat
  copy : Nat
  chunk : Nat
  /-- byte offset in the registration at the target -/
  off : Nat
  /-- an RMA read, whose acknowledgement brings the data -/
  read : Bool
  /-- transmissions made; 0: it waits for a key (R324) -/
  sent : Nat
  /-- T24 at which the last transmission times out (R321) -/
  due : Nat
  acked : Bool
  /-- Ethernet port, 24 to 39 (R12) -/
  port : Nat
  /-- key epoch it was last sealed under -/
  epoch : Bool
  /-- for a FWDE packet: collective key, window, chunk -/
  fwde : Option (Nat × Nat × Nat)
  payload : List Byte
  /-- scale bytes of the chunk and their offset in the registration (R248) -/
  scale : Option (Nat × List Byte)
  /-- delivered in sending order at the target (R319) -/
  rod : Bool
  /-- it has reached its port, and its acknowledgement the die of its copy (R16, R311) -/
  atPort : Bool
  back : Bool
  /-- T24 at which flits of it were last sent between its die and its port (R313) -/
  sentAt : Nat
  deriving DecidableEq, Repr

/-! ### The Basin (R265, R292, R328) -/

/-- A slot entry (R256). -/
structure Slot where
  state : Nat := 0
  isOpen : Bool := false
  endpoint : Bool := false
  tenant : Nat := 0
  root : Nat := 0
  lock : Nat := 0
  bank : Bool := false
  program : Nat := 0
  parts : BitVec 42 := 0
  opened : DWord := 0
  completed : DWord := 0
  masks : List (BitVec 42) := [0, 0, 0, 0]
  deriving DecidableEq, Repr

/-- A quota entry (R257). -/
structure Quota where
  enabled : Bool := false
  reserved : Nat := 0
  priority : BitVec 8 := 0
  limit : Nat := 0
  fallbacks : Word := 0
  deriving DecidableEq, Repr

/-- A binding of a die's results area (R270). -/
structure Binding where
  die : Nat
  fn : Nat
  addr : Nat
  deriving DecidableEq, Repr

/-- A write or arrive that a collective still has to make (R285, R286). -/
inductive CollOut where
  | write (die off : Nat) (bytes : List Byte)
  /-- the chunk in whose body it was made -/
  | arrive (die chunk : Nat)
  deriving DecidableEq, Repr

/-- An open collective (R265, R270). -/
structure Coll where
  tenant : Nat
  slot : Nat
  endpoint : Bool
  /-- the path is fixed (no pool request stands) -/
  fixed : Bool
  program : Nat
  bank : Bool
  /-- words of the program it opened with -/
  words : List DWord
  masks : List (BitVec 42)
  parts : BitVec 42
  window : Nat
  root : Nat
  lock : Nat
  /-- order of opening -/
  order : Nat
  bindings : List Binding
  /-- COPEN handles waiting for the path -/
  openers : List Origin
  /-- key (window × 2^18 + chunk) × 64 + port -/
  counts : Table Nat
  /-- chunks whose bodies have ended: all below this number (R276) -/
  next : Nat
  /-- staged bytes, key ((window × 2^18 + chunk) × 64 + port) × 256 + byte -/
  stage : Table Byte
  /-- next word of the running body -/
  pc : Nat
  /-- key 128 × accumulator + element -/
  acc : Table Word
  outs : List CollOut
  /-- by die, how many of its first writes and arrives are on their way to it, and how many have reached it -/
  flying : Table Nat := []
  landed : Table Nat := []
  /-- how often they have been sent anew for a change of routes (R316) -/
  epoch : Nat := 0
  /-- the page that the first write or arrive waits for -/
  waiting : Option (Nat × Nat)
  /-- FWDE packets not yet acknowledged -/
  fwde : Nat
  deriving DecidableEq, Repr

/-- A hold record (R292). -/
structure Hold where
  die : BitVec 5
  slot : BitVec 3
  key : Word
  /-- a WREL has reached the controller: the hold ends with a round's end (R305) -/
  released : Bool
  deriving DecidableEq, Repr

/-- A contest entry (R258). -/
structure Contest where
  enabled : Bool := false
  hold : Bool := false
  tenant : Nat := 0
  mask : BitVec 25 := 0
  deriving DecidableEq, Repr

/-- A bid presented in the round in progress (R296, R298). -/
structure Presented where
  contest : Nat
  die : Nat
  slot : Nat
  key : Word
  /-- bit time of its entry, 0 at the start of the round -/
  bit : Nat
  deriving DecidableEq, Repr

/-- A pool request (R272). -/
structure PoolReq where
  coll : Nat
  age : Nat
  deriving DecidableEq, Repr

/-- An 8-byte word held by a host-port station (R181): host address key and value. -/
structure Station where
  words : Table DWord := []
  deriving DecidableEq, Repr

/-- Counts of the lifetime record (R199, R200). -/
structure Life where
  fallbacks : DWord := 0
  keeperCopies : DWord := 0
  parkings : DWord := 0
  planeFaults : DWord := 0
  weirWaits : DWord := 0
  replays : Table DWord := []
  x32 : Table Word := []
  corrected : Table DWord := []
  uncorrectable : Table DWord := []
  /-- key 16 × die + bin -/
  temps : Table Word := []
  /-- key 16 × link + bin -/
  rates : Table Word := []
  /-- flits carried by a link since its last period -/
  flits : Table DWord := []
  /-- replays of a link in its period -/
  periodReplays : Table DWord := []
  seconds : DWord := 0
  /-- the second at which the last period was counted -/
  rolled : DWord := 0
  sequence : DWord := 0
  deriving DecidableEq, Repr

/-- SPDM exchange of a die's PF (R338). -/
inductive SpdmStage where
  | none | version | capabilities | negotiated | handshake | session
  deriving DecidableEq, Repr

/-- What a measurement is the digest of (R338). -/
inductive Measured where
  /-- 1 the boot ROM, 2 the host complex's firmware, 3 the Keepers' firmware -/
  | firmware (index : Nat)
  /-- 4: the active Henat bank -/
  | bank (words : Table DWord)
  /-- 5: the configuration that was frozen at lock -/
  | config (cfg : FnCfg)
  /-- 6: debug unlocked -/
  | unlock (unlocked : Bool)
  deriving DecidableEq, Repr

/-- What the package answered to the outside (R320, R336, R338, R339). -/
inductive Response where
  | version (die : Nat)
  | capabilities (die : Nat)
  | algorithms (die : Nat)
  | digests (die : Nat)
  | certificate (die : Nat)
  | challengeAuth (die leaf : Nat)
  | measurements (die index fn : Nat) (value : Measured) (signedLeaf : Option Nat)
  | keyExchange (die leaf : Nat)
  | finish (die : Nat)
  | endSession (die : Nat)
  | error (die : Nat)
  /-- a TDISP request of a function, accepted or answered with an error (R336) -/
  | tdisp (die fn : Nat) (accepted : Bool)
  | ideKey (port stream : Nat)
  /-- acknowledgement of an accepted RMA write or FWDE packet, sealed under an epoch (R320, R324) -/
  | rmaAck (port : Nat) (epoch : Bool)
  /-- data of an accepted RMA read, sealed under an epoch -/
  | rmaData (port : Nat) (epoch : Bool) (bytes : List Byte)
  /-- a host-port read's data; none: refused -/
  | hostData (die fn : Nat) (bytes : Option (List Byte))
  deriving DecidableEq, Repr

/-- A link-key slot (R264). -/
inductive KeyState where
  | empty | active | retiring
  deriving DecidableEq, Repr

/-- One direction of an external port (R264, R310). -/
structure PortDir where
  slot0 : KeyState := .empty
  slot1 : KeyState := .empty
  epoch : Bool := false
  /-- packets sealed under each slot's key (R310) -/
  seal0 : DWord := 0
  seal1 : DWord := 0
  /-- packets accepted under the new epoch since its first -/
  newPackets : Nat := 0
  /-- T24 of the first packet accepted under the new epoch -/
  newSince : Nat := 0
  deriving DecidableEq, Repr

/-- A Towpath module (R310, R314). -/
inductive Module where
  | x64 | x32 | training | fenced
  deriving DecidableEq, Repr

/-- What comes of a message when its last flit reaches the pound it goes to (R311). -/
inductive Parcel where
  /-- nothing: data that the model has delivered already, or an acknowledgement that no record waits for -/
  | none
  /-- a request at its home, and its answer at the core -/
  | request (uid : Nat)
  | answer (uid : Nat)
  /-- an alias store or a COPEN at the Basin -/
  | aliasStore (uid : Nat)
  | copen (uid : Nat)
  /-- a chunk of a copy that reads or writes at another pound -/
  | chunk (uid k : Nat)
  /-- an activity at the pound -/
  | act (a : Activity)
  /-- an activity at the pound, once, whatever is lost on the way -/
  | sure (uid : Nat)
  deriving DecidableEq, Repr

/-- A message that is sent anew where it is lost, as R313 has it of requests: its pounds and bytes, what it brings, and T24 at which it was
last sent. -/
structure Sure where
  uid : Nat
  src : Nat
  dst : Nat
  resp : Bool
  bytes : Nat
  act : Activity
  sentAt : Nat
  deriving DecidableEq, Repr

/-- A flit: 240 bytes or less of a request or response from a pound to a pound (R311). -/
structure Flit where
  src : Nat
  dst : Nat
  resp : Bool
  /-- number of its message -/
  msg : Nat
  /-- the message's last flit: what it brings -/
  last : Option Parcel
  deriving DecidableEq, Repr

/-- A flit in a replay buffer: its sequence, and how often it has been transmitted (R312). -/
structure Sent where
  seq : BitVec 10
  flit : Flit
  tries : Nat
  deriving DecidableEq, Repr

/-- One direction of a link (R310, R312, R315). -/
structure LinkDir where
  /-- the replay buffer, oldest first -/
  replay : List Sent := []
  seq : BitVec 10 := 0
  /-- next sequence the receiver delivers -/
  expect : BitVec 10 := 0
  /-- later ones that it has delivered past a flit of the other class whose hop buffer is full (R315) -/
  ahead : List (BitVec 10) := []
  /-- flits that wait at their source -/
  waitReq : List Flit := []
  waitResp : List Flit := []
  /-- hop buffers of the receiving port -/
  hopReq : List Flit := []
  hopResp : List Flit := []
  /-- hold asserted by the receiving port -/
  holdReq : Bool := false
  holdResp : Bool := false
  deriving DecidableEq, Repr

/-- A link (R310): modules of a Towpath link, fenced flag. -/
structure Link where
  modules : List Module := [.x64, .x64, .x64, .x64]
  fenced : Bool := false
  deriving DecidableEq, Repr

/-- A contest change waiting for its boundary (R259). -/
structure ContestChange where
  contest : Nat
  entry : Contest
  /-- T24 of the write, or of the end of the hold -/
  since : Nat
  /-- the contest is held, and the change waits for the hold's end -/
  deferred : Bool
  /-- it was written while the contest was held -/
  whileHeld : Bool
  deriving DecidableEq, Repr

/-- A RELOAD (R288): the die of its PF, its image's address, where its result goes, and the image's words once read. -/
structure Reload where
  die : Nat
  addr : Nat
  result : Nat
  image : List DWord
  deriving DecidableEq, Repr

/-- A delivery context of another package at a port (R319, R322): numbers performed, and packets held for a missing earlier one. -/
structure Inbound where
  port : Nat
  pkg : Nat
  context : Nat
  done : List Nat
  held : List NetPacket
  deriving DecidableEq, Repr

/-- The Basin and its host complex. -/
structure Basin where
  time : DWord := 0
  slots : Table Slot := []
  quotas : Table Quota := []
  contests : Table Contest := [(0, { enabled := true, hold := false, tenant := 255, mask := 0x1FFFFFF })]
  contestChanges : List ContestChange := []
  holds : Table Hold := []
  round : Nat := 0
  inRound : Bool := true
  lines : BitVec 16 := 0
  freezeLine : Bool := false
  presented : List Presented := []
  /-- open collectives by number -/
  colls : Table Coll := []
  nextColl : Nat := 1
  bank0 : Table DWord := []
  bank1 : Table DWord := []
  active : Bool := false
  staging : Option Reload := none
  reloads : List Reload := []
  pool : Table PoolReq := []
  poolWait : List PoolReq := []
  station0 : Station := {}
  station1 : Station := {}
  life : Life := {}
  /-- the images of the flash ring by slot (R199) -/
  images : Table Life := []
  xmss : Nat := 0
  unlocked : Bool := false
  /-- streams keyed: host port, stream, function key (R337) -/
  ide : List (Nat × Nat × Nat) := []
  spdm : Table SpdmStage := []
  responses : List Response := []
  /-- Basin cycles that a lock's last body still takes (R276) -/
  lockBusy : Table Nat := []
  frozen : Bool := false
  /-- steps of R341 completed -/
  boot : Nat := 0
  /-- a verification has failed, and the boot has stopped: of the host complex's firmware (24) or of a die's Keeper firmware -/
  bootFailed : Option Nat := none
  /-- nanoseconds since the counters began to be released; T24 is released after two (R192) -/
  lead : Nat := 0
  fencedPorts : BitVec 42 := 0
  ports : Table PortDir := []
  links : Table Link := []
  dirs : Table LinkDir := []
  /-- routing table entries that differ from the computed route, key 64 × router + 2 × destination, and 1 for responses -/
  routes : Table Nat := []
  /-- something has been fenced or taken live, and the routes have not been rewritten since (R316) -/
  rerouting : Bool := false
  /-- messages sent in flits: the number of the next -/
  msgs : Nat := 0
  /-- one more than T24 of the last such change, or of the fencing of a module (R313); 0: none -/
  routeTime : Nat := 0
  /-- T24 of the retries of a module's flits, key 4 × link + module (R314) -/
  retries : Table (List Nat) := []
  /-- packets received, by delivery context; FWDE packets under package 1,024 (R320, R322) -/
  inbound : List Inbound := []
  /-- answers to packets that wait for a link key (R324): the port, and a read's data -/
  ackWait : List (Nat × Option (List Byte)) := []
  deriving DecidableEq, Repr

/-! ### The package -/

/-- The state of the dies as a scan reads it out (R344). -/
structure ScanDies where
  dies : Table Die
  cores : Table Core
  groups : Table Group
  teams : Table Team
  fns : Table Fn
  regs : Table Reg
  mem : List Host.Cell
  deriving DecidableEq, Repr

/-- A scan read-out (R344): the Basin's own state, and the state of the dies when debug is unlocked. -/
structure Scan where
  basin : Basin
  dies : Option ScanDies
  deriving DecidableEq, Repr

/-- The whole package. -/
structure State where
  /-- live compute dies (R1, R19), fixed at test -/
  live : BitVec 24
  /-- part number in the device tables (R260) -/
  partNo : Word
  mem : List Host.Cell
  /-- local-store words that are empty, rising (R138): word numbers of `mem` -/
  empties : List Nat
  /-- key slot under which a 64-byte unit of die memory was last written, key location / 64 (R340) -/
  tags : Table Nat
  groups : Table Group
  teams : Table Team
  cores : Table Core
  fns : Table Fn
  launches : Table Launch
  dies : Table Die
  regs : Table Reg
  basin : Basin
  fencedPages : List Nat
  /-- scan read-outs (R344) -/
  scans : List Scan
  loads : List Load
  reqs : List Req
  /-- bytes of fault-block records that other cores do not see yet (R127) -/
  veils : List Veil
  aliases : List AliasStore
  opens : List OpenReq
  feWaits : List FeWait
  incrs : List Incr
  arrives : List Arrive
  results : List Result
  copies : List Copy
  packets : List Packet
  /-- answers and reports between pounds that have not arrived (R16) -/
  sures : List Sure
  /-- next request sequence, key 64 × source core + destination die (R310) -/
  reqSeq : Table (BitVec 16)
  /-- what happens next, in order (log entry 2) -/
  agenda : List Activity
  /-- key of the group that acts -/
  cur : Nat
  /-- the issue that acts -/
  iss : Issue
  /-- the collective whose body acts -/
  curColl : Nat
  /-- number of free values used (log entry 4, DESIGN CHOICE) -/
  free : Nat
  /-- next number for records in flight -/
  nextUid : Nat
  deriving DecidableEq, Repr

/-- Why the machine stops with a fault. -/
inductive Fault where
  /-- raised by `step` alone: the freeze line has stopped every clock (R308, R344) and what comes next is neither the
  reset nor the read-out that R344 admits. Safe: the hardware stands still as well. -/
  | frozen
  deriving DecidableEq, Repr

/-- Why an instruction is refused. -/
inductive Refusal where
  /-- raised by an arm of `exec` that has no meaning yet (none is left). Safe: nothing is claimed of it. -/
  | notModelled (mnemonic : String)
  deriving DecidableEq, Repr

/-- The package right after package reset: nothing configured, nothing placed, memory listing nothing. -/
def State.reset : State where
  live := 0xFFFFFF
  partNo := 0x00002416
  mem := []
  empties := []
  tags := []
  groups := []
  teams := []
  cores := []
  fns := []
  launches := []
  dies := []
  regs := []
  basin := {}
  fencedPages := []
  scans := []
  loads := []
  reqs := []
  veils := []
  aliases := []
  opens := []
  feWaits := []
  incrs := []
  arrives := []
  results := []
  copies := []
  packets := []
  sures := []
  reqSeq := []
  agenda := []
  cur := 0
  iss := {}
  curColl := 0
  free := 0
  nextUid := 1

end Sys2Proof.Machine
end

