-- ==== Sys2Proof/Machine/Mem.lean ====
section
/-! DEFINITION. Memory as a list of cells in canonical form, bytes in little-endian order (R2), the places of the
package's memories in it, and the empty words of the local stores (R138). -/

namespace Sys2Proof.Machine

open Sys2Proof

/-- The cells of `State.mem`. An unlisted address reads as zero (log entry 3, DESIGN CHOICE). -/
abbrev Memory := List Host.Cell

/-- The byte at an address. -/
def Memory.read (m : Memory) (a : Nat) : Byte :=
  match m with
  | [] => 0
  | (k, x) :: r => if k = a then x else Memory.read r a

/-- The memory after a byte is written; a zero byte is not listed. -/
def Memory.write (m : Memory) (a : Nat) (b : Byte) : Memory :=
  match m with
  | [] => if b = 0 then [] else [(a, b)]
  | (k, x) :: r =>
    if k < a then (k, x) :: Memory.write r a b
    else if k = a then (if b = 0 then r else (a, b) :: r)
    else if b = 0 then (k, x) :: r
    else (a, b) :: (k, x) :: r

/-- All addresses lie above `lo`, strictly rising, and no byte is zero. -/
def Memory.wfFrom (m : Memory) (lo : Option Nat) : Bool :=
  match m with
  | [] => true
  | (k, x) :: r => (match lo with | none => true | some l => decide (l < k)) && x != 0 && Memory.wfFrom r (some k)

/-- The canonical form: addresses strictly rising, no byte equal to what an unlisted address reads as. -/
def Memory.wf (m : Memory) : Bool := m.wfFrom none

/-- `n` bytes from `a` on, as a little-endian number. -/
def Memory.readNat (m : Memory) (a n : Nat) : Nat :=
  match n with
  | 0 => 0
  | k + 1 => (m.read a).toNat + 256 * m.readNat (a + 1) k

/-- `n` bytes from `a` on written from a little-endian number. -/
def Memory.writeNat (m : Memory) (a n v : Nat) : Memory :=
  match n with
  | 0 => m
  | k + 1 => (m.write a (BitVec.ofNat 8 v)).writeNat (a + 1) k (v / 256)

/-- `n` bytes from `a` on. -/
def Memory.readBytes (m : Memory) (a n : Nat) : List Byte :=
  match n with
  | 0 => []
  | k + 1 => m.read a :: m.readBytes (a + 1) k

/-- Bytes written from `a` on. -/
def Memory.writeBytes (m : Memory) (a : Nat) (bs : List Byte) : Memory :=
  match bs with
  | [] => m
  | b :: r => (m.write a b).writeBytes (a + 1) r

/-- A little-endian number's `n` bytes. -/
def bytesOf (n v : Nat) : List Byte :=
  match n with
  | 0 => []
  | k + 1 => BitVec.ofNat 8 v :: bytesOf k (v / 256)

/-- The number little-endian bytes hold. -/
def natOf (bs : List Byte) : Nat :=
  match bs with
  | [] => 0
  | b :: r => b.toNat + 256 * natOf r

/-- Bytes that stand from `a` on, with the bytes `new` from `b` on laid over them. -/
def overlay (a : Nat) (old : List Byte) (b : Nat) (new : List Byte) : List Byte :=
  old.zipIdx.map (fun p => if b ≤ a + p.2 ∧ a + p.2 < b + new.length then new.getD (a + p.2 - b) p.1 else p.1)

/-- Do bytes [a, a + n) and [b, b + m) meet? -/
def bytesMeet (a n b m : Nat) : Bool := decide (a < b + m) && decide (b < a + n)

/-! ### Places -/

/-- Physical address `pa` of die `d`'s memory. -/
def dieLoc (d pa : Nat) : Nat := d * 2 ^ 48 + pa
/-- An address of host memory. -/
def hostLoc (a : Nat) : Nat := 32 * 2 ^ 48 + a
/-- A byte of the device tables (R260). -/
def tableLoc (a : Nat) : Nat := 33 * 2 ^ 48 + a
/-- Byte `a` of the local store of the core of key `ckey` (R134). -/
def localLoc (ckey a : Nat) : Nat := (64 + ckey) * 2 ^ 48 + a

/-! ### Empty words (R138): a rising list of word numbers -/

/-- The list with word `w` empty. -/
def Empties.insert (e : List Nat) (w : Nat) : List Nat :=
  match e with
  | [] => [w]
  | k :: r => if k < w then k :: Empties.insert r w else if k = w then k :: r else w :: k :: r

/-- The list with the words from `lo` up to, not including, `hi` full. -/
def Empties.fill (e : List Nat) (lo hi : Nat) : List Nat := e.filter (fun w => !(decide (lo ≤ w) && decide (w < hi)))

/-- The list with `n` words from `lo` on empty. -/
def Empties.drain (e : List Nat) (lo n : Nat) : List Nat :=
  match n with
  | 0 => e
  | k + 1 => Empties.drain (Empties.insert e lo) (lo + 1) k

end Sys2Proof.Machine
end

