-- ==== Sys2Proof/Machine/Access.lean ====
section
/-! DEFINITION. Named reads and writes of the state: the current group and its registers, its team, core, function and
die, the fields of MODE (R69), lane masks (R29). -/

namespace Sys2Proof.Machine

open Sys2Proof

/-- The outcome of a meaning. -/
abbrev Res := Host.Outcome State Fault Refusal

/-- A 64-bit count that saturates (R199). -/
def satUp (x : DWord) : DWord := if x = BitVec.allOnes 64 then x else x + 1
/-- A 32-bit count that saturates. -/
def satUp32 (x : Word) : Word := if x = BitVec.allOnes 32 then x else x + 1

/-! ### Lane masks -/

/-- The lanes of a mask, ascending. -/
def lanesOf (m : DWord) : List Nat := (List.range 64).filter (fun l => m.getLsbD l)
/-- The mask of one lane. -/
def laneBit (l : Nat) : DWord := BitVec.twoPow 64 l
/-- The mask of a list of lanes. -/
def maskOf (ls : List Nat) : DWord := ls.foldl (fun m l => m ||| laneBit l) 0
/-- The mask of the lanes below `n`. -/
def lowMask (n : Nat) : DWord := BitVec.ofNat 64 (2 ^ n - 1)

/-! ### MODE (R69) -/

/-- Bits [lo + n − 1 : lo] of MODE. -/
def modeField (m : Word) (lo n : Nat) : Nat := (m.toNat / 2 ^ lo) % 2 ^ n

def modeMsx (m : Word) : Bool := m.getLsbD 27
def modeMw (m : Word) : Nat := modeField m 24 3
def modeCto (m : Word) : Nat := modeField m 20 4
def modeCfrom (m : Word) : Nat := modeField m 16 4
def modeOrd (m : Word) : Bool := m.getLsbD 15
def modeSat (m : Word) : Bool := m.getLsbD 14
def modeRnd (m : Word) : Nat := modeField m 11 3
def modeFtype (m : Word) : Nat := modeField m 8 3
def modeItype (m : Word) : Nat := modeField m 6 2
def modeBp (m : Word) : Nat := modeField m 3 3
def modeGp (m : Word) : Nat := modeField m 0 3

/-- Bytes of a memory access (R136). -/
def modeBytes (m : Word) : Nat := 2 ^ modeMw m

/-- A value that MODE may not hold (R59). -/
def modeReserved (m : Word) : Bool :=
  modeField m 28 4 != 0 || decide (modeMw m > 4) || decide (modeCto m > 9) || decide (modeCfrom m > 9)
    || decide (modeRnd m > 4) || decide (modeFtype m > 4)

/-! ### Groups -/

/-- A predicate in a lane; P7 is true everywhere (R66). -/
def Group.pred (g : Group) (n l : Nat) : Bool := n == 7 || (g.p.get n 0).getLsbD l

/-- The lanes with predicate `n` true. -/
def Group.predMask (g : Group) (n : Nat) : DWord := if n = 7 then BitVec.allOnes 64 else g.p.get n 0

/-- Write a predicate under a mask; writes to P7 are discarded. -/
def Group.setPred (g : Group) (n : Nat) (mask val : DWord) : Group :=
  if n = 7 then g else { g with p := g.p.set n ((g.p.get n 0 &&& ~~~mask) ||| (val &&& mask)) }

def Group.vr (g : Group) (n l : Nat) : Word := g.v.get (64 * n + l) 0
def Group.sr (g : Group) (n : Nat) : Word := g.s.get n 0
def Group.setV (g : Group) (n l : Nat) (x : Word) : Group := { g with v := g.v.set (64 * n + l) x }
def Group.setS (g : Group) (n : Nat) (x : Word) : Group := { g with s := g.s.set n x }
/-- The pair Sn, Sn+1. -/
def Group.pair (g : Group) (n : Nat) : DWord := g.sr (n + 1) ++ g.sr n
def Group.setPair (g : Group) (n : Nat) (x : DWord) : Group :=
  (g.setS n (x.setWidth 32)).setS (n + 1) (x.extractLsb' 32 32)

/-- Latch `n` in lane `l`. -/
def Group.latch (g : Group) (n l : Nat) : Word := g.lat.get (64 * n + l) 0

/-- Every lane of the group. -/
def Group.all (g : Group) : DWord := lowMask g.width

/-- Lanes that a join-stack entry holds deferred (R33). -/
def Group.deferred (g : Group) : DWord := g.joins.foldl (fun m j => m ||| j.mask) 0

/-- Lanes whose nest counter is zero. -/
def Group.nestZero (g : Group) : DWord := maskOf ((List.range g.width).filter (fun l => g.nest.get l 0 = 0))

/-- The lanes that run: all of them, or those of the innermost replay (R38). -/
def Group.base (g : Group) : DWord := match g.replays with | [] => g.all | r :: _ => r.mask

/-- Live lanes of R36: those that would be enabled if their EXEC bit were 1. -/
def Group.liveLanes (g : Group) : DWord := g.base &&& g.nestZero &&& ~~~g.deferred &&& ~~~g.parked

/-- The enabled lanes (R29). In handler state the live EXEC is all ones (R123). -/
def Group.enabled (g : Group) : DWord := g.liveLanes &&& (if g.frame.isSome then g.all else g.exec)

def Group.ckey (g : Group) : Nat := g.die * 512 + g.core
def Group.fkey (g : Group) : Nat := g.die * 8 + g.fn
def Group.gkey (g : Group) : Nat := g.ckey * 16 + g.ctx

/-- Latches invalidated (R41). -/
def Group.dropLatches (g : Group) : Group := { g with latValid := 0 }

/-- The next offset. -/
def Group.advance (g : Group) (n : Nat) : Group := { g with offset := g.offset + BitVec.ofNat 24 n }

/-! ### Records of the state -/

namespace State

def group (s : State) (k : Nat) : Group := s.groups.get k {}
def setGroup (s : State) (k : Nat) (g : Group) : State := { s with groups := s.groups.set k g }
def modGroup (s : State) (k : Nat) (f : Group → Group) : State := s.setGroup k (f (s.group k))
def g (s : State) : Group := s.group s.cur
def setG (s : State) (g : Group) : State := s.setGroup s.cur g
def modG (s : State) (f : Group → Group) : State := s.setG (f s.g)
def teamOf (s : State) (t : Nat) : Team := s.teams.get t {}
def setTeam (s : State) (t : Nat) (x : Team) : State := { s with teams := s.teams.set t x }
def team (s : State) : Team := s.teamOf s.g.team
def modTeam (s : State) (t : Nat) (f : Team → Team) : State := s.setTeam t (f (s.teamOf t))
def coreOf (s : State) (k : Nat) : Core := s.cores.get k {}
def setCore (s : State) (k : Nat) (c : Core) : State := { s with cores := s.cores.set k c }
def modCore (s : State) (k : Nat) (f : Core → Core) : State := s.setCore k (f (s.coreOf k))
def fnOf (s : State) (k : Nat) : Fn := s.fns.get k {}
def setFn (s : State) (k : Nat) (f : Fn) : State := { s with fns := s.fns.set k f }
def modFn (s : State) (k : Nat) (f : Fn → Fn) : State := s.setFn k (f (s.fnOf k))
def die (s : State) (d : Nat) : Die := s.dies.get d {}
def setDie (s : State) (d : Nat) (x : Die) : State := { s with dies := s.dies.set d x }
def modDie (s : State) (d : Nat) (f : Die → Die) : State := s.setDie d (f (s.die d))
def launch (s : State) (n : Nat) : Launch := s.launches.get n {}
def setLaunch (s : State) (n : Nat) (l : Launch) : State := { s with launches := s.launches.set n l }
def modLaunch (s : State) (n : Nat) (f : Launch → Launch) : State := s.setLaunch n (f (s.launch n))
def modBasin (s : State) (f : Basin → Basin) : State := { s with basin := f s.basin }
def modLife (s : State) (f : Life → Life) : State := s.modBasin (fun b => { b with life := f b.life })

/-- The groups of a team that have not exited. -/
def teamGroups (s : State) (t : Nat) : List Nat :=
  (s.teamOf t).groups.filter (fun k => !(s.teamOf t).gone.contains k)

/-- A fresh number. -/
def fresh (s : State) : Nat × State := (s.nextUid, { s with nextUid := s.nextUid + 1 })

/-- What the machine itself does next, after everything that stands before it. -/
def post (s : State) (e : Instr) : State := { s with agenda := s.agenda ++ [.event e] }

/-- A die that can be used: live, not fenced, not in reset (R1, R19, R342). -/
def dieLive (s : State) (d : Nat) : Bool := s.live.getLsbD d && !(s.die d).fenced

/-- Raise counter `n` of the current group (R198). -/
def countG (s : State) (n k : Nat) : State :=
  s.modG (fun g => { g with cnt := g.cnt.set n (g.cnt.get n 0 + BitVec.ofNat 64 k) })
/-- Raise counter `n` of a core (R198). -/
def countC (s : State) (ck n k : Nat) : State :=
  s.modCore ck (fun c => { c with cnt := c.cnt.set n (c.cnt.get n 0 + BitVec.ofNat 64 k) })

/-- The core cycle of a core (R15): its die's, less those of the nanosecond that are still to come for it. -/
def coreTime (s : State) (ck : Nat) : Nat := (s.die (ck / 512)).cycle - (s.coreOf ck).lag

/-- The lanes of the issue that an instruction writes: those with the guard predicate true (R29). -/
def guarded (s : State) : DWord := s.iss.mask &&& s.g.predMask (modeGp s.g.mode)

def holdIssue (s : State) : State := { s with iss := { s.iss with hold := true } }
/-- Set the group's offset: the offset does not advance by itself. -/
def jump (s : State) (o : Off) : State :=
  { (s.modG (fun g => { g with offset := o })) with iss := { s.iss with moved := true } }

end State

/-- Where byte `a` of the current team's allocation stands (R135). -/
def State.lsLoc (s : State) (a : Nat) : Nat := localLoc s.g.ckey (s.team.lsBase + a)

end Sys2Proof.Machine
end

