-- ==== Sys2Proof/Machine/Translate.lean ====
section
/-! DEFINITION. Translation of virtual addresses (R148 to R156, R251 to R255), with the two levels of translation
buffers (R153), and the requests for pages that are not present. -/

namespace Sys2Proof.Machine

open Sys2Proof

/-- What an access does, for the checks of R150 and R151. `waitc` is WAITC's read of a word (R190), `own64` an atomic of
the part's own on type 1 alone (R189), `arrive` one on types 1, 2 and 5 (R187). -/
inductive Acc where
  | fetch | load | store | atomic | xst | waitc | own64
  deriving DecidableEq, Repr

/-- Types that admit an access (R150, R189, R190, R239). -/
def Acc.admits (a : Acc) (t : Nat) : Bool :=
  match a with
  | .fetch | .own64 => t == 1
  | .load => t == 1 || t == 2 || t == 5 || t == 6
  | .store => t == 1 || t == 2 || t == 3 || t == 5
  | .atomic | .waitc => t == 1 || t == 2 || t == 5
  | .xst => t == 4

/-- Rights an access needs at the leaf (R151): read bit 5, write bit 6, atomic bit 7. -/
def Acc.rights (a : Acc) (pte : DWord) : Bool :=
  match a with
  | .fetch | .load | .waitc => pte.getLsbD 5
  | .store | .xst => pte.getLsbD 6
  | .atomic | .own64 => pte.getLsbD 5 && pte.getLsbD 6 && pte.getLsbD 7

/-- The access field of a page-service request (R335). -/
def Acc.request (a : Acc) : BitVec 4 :=
  match a with
  | .load | .waitc => 1
  | .store | .xst => 2
  | .atomic | .own64 => 7
  | .fetch => 9

/-- Where a translated access goes. -/
inductive Xl where
  /-- the lane record kind of R128 -/
  | fault (kind : Nat)
  /-- a page that is valid and not present: function key and page address (R37, R253) -/
  | absent (fkey page : Nat)
  /-- space (leaf type), place in memory, key slot, and the registration of a peer window -/
  | ok (space loc slot : Nat) (expo : Option Nat)
  /-- alias window: slot, window, byte in the window (R252) -/
  | aliased (slot win off : Nat)
  /-- the copy aperture -/
  | aperture
  deriving DecidableEq, Repr

/-- Field [lo + n − 1 : lo] of a number. -/
def bits (x lo n : Nat) : Nat := (x / 2 ^ lo) % 2 ^ n

def pteType (e : DWord) : Nat := bits e.toNat 2 3
def pteFrame (e : DWord) : Nat := bits e.toNat 12 36 * 4096
def pteSlot (e : DWord) : Nat := bits e.toNat 52 6

/-- The leaf of a walk: entry and size of its page as a power of two, or none where an entry is not valid (R149, R251).
The 64 KiB form is read from the first of its sixteen entries. -/
def walkFrom (m : Memory) (d va : Nat) (levels : List Nat) (table : Nat) : Option (DWord × Nat) :=
  match levels with
  | [] =>
    let idx := bits va 12 9
    let first := BitVec.ofNat 64 (m.readNat (dieLoc d (table + 8 * (idx / 16 * 16))) 8)
    if first.getLsbD 8 then some (first, 16)
    else some (BitVec.ofNat 64 (m.readNat (dieLoc d (table + 8 * idx)) 8), 12)
  | l :: r =>
    let e := BitVec.ofNat 64 (m.readNat (dieLoc d (table + 8 * bits va l 9)) 8)
    if !e.getLsbD 0 then none
    else if e.getLsbD 9 then (if l = 39 then none else some (e, l))
    else walkFrom m d va r (pteFrame e)

/-- The places of the entries that a walk reads. -/
def walkReads (m : Memory) (d va : Nat) (levels : List Nat) (table : Nat) : List Nat :=
  match levels with
  | [] =>
    let idx := bits va 12 9
    let first := dieLoc d (table + 8 * (idx / 16 * 16))
    if (m.readNat first 8).testBit 8 then [first] else [first, dieLoc d (table + 8 * idx)]
  | l :: r =>
    let a := dieLoc d (table + 8 * bits va l 9)
    let e := BitVec.ofNat 64 (m.readNat a 8)
    a :: (if !e.getLsbD 0 || e.getLsbD 9 then [] else walkReads m d va r (pteFrame e))

/-- A die memory of 192 GB (R3, R252). -/
def dieBytes : Nat := 192000000000

/-- An entry that counts as not valid: bit 0 clear, type 0 or 7, a page whose frame begins beyond the die's memory, window 3 (R150, R152,
R252). A larger page that begins in it and reaches beyond it is valid as a whole (log entry 87, DESIGN CHOICE). -/
def pteInvalid (e : DWord) (sz : Nat) : Bool :=
  !e.getLsbD 0 || pteType e == 0 || pteType e == 7
    || (pteType e == 1 && decide (dieBytes ≤ pteFrame e / 2 ^ sz * 2 ^ sz))
    || (pteType e == 3 && bits e.toNat 38 2 == 3)

/-! ### The device tables (R260 to R262) -/

/-- Row and column of a die's berth (R7, R8). -/
def berth (d : Nat) : Nat × Nat :=
  let b := if d = 24 then 12 else if d < 12 then d else d + 1
  (b / 5, b % 5)

/-- Do two pounds share a link (R13, R14): a Towpath link or a Feeder? -/
def linked (x y : Nat) : Bool :=
  let p := berth x
  let q := berth y
  if x = 24 || y = 24 then x != y
  else (p.1 == q.1 && (p.2 + 1 == q.2 || q.2 + 1 == p.2)) || (p.2 == q.2 && (p.1 + 1 == q.1 || q.1 + 1 == p.1))

/-- Is a pound of a package with these live dies there? -/
def poundLive (live : BitVec 24) (x : Nat) : Bool := x == 24 || (decide (x < 24) && live.getLsbD x)

/-- The banded-latency entry of a pair of pounds (R261): measured seam bounds from 7 to 10 cycles and flit latencies; zero
where there is no link. -/
def bandEntry (live : BitVec 24) (x y : Nat) : Nat :=
  if 24 < x || 24 < y || !poundLive live x || !poundLive live y || !linked x y then 0
  else
    let b := (Config.bandWord x y).toNat
    let lo := 7 + b % 4
    let hi := lo + b / 4 % (11 - lo)
    let fast := b / 256 % 2 ^ 16
    let slow := max fast (b / 2 ^ 24 % 2 ^ 16)
    x + (if x = 24 || y = 24 then 2 ^ 5 else 0) + y * 2 ^ 8 + lo * 2 ^ 16 + hi * 2 ^ 24 + fast * 2 ^ 32 + slow * 2 ^ 48

/-- The offset of a pound's time counter against the Basin's (R192): within 2 ns; none for the Basin. -/
def timeDelta (n : Nat) : Int := if n = 24 then 0 else Config.timeOffset n % 5 - 2

namespace State

/-- An access of an agent other than core `ck` to a place recalls its line from the cores that have acquired it for atomics. -/
def recallLine (s : State) (ck loc : Nat) : State :=
  { s with cores := s.cores.map (fun (p : Nat × Core) =>
      if p.1 = ck then p else (p.1, { p.2 with atomLines := p.2.atomLines.filter (· != loc / 256) })) }

/-- An access that the part makes itself, to `n` bytes at a place, recalls their lines from every core. -/
def recallAll (s : State) (loc n : Nat) : State :=
  { s with cores := s.cores.map (fun (p : Nat × Core) =>
      (p.1, { p.2 with atomLines := p.2.atomLines.filter (fun l => decide (256 * l + 256 ≤ loc) || decide (loc + n ≤ 256 * l)) })) }

/-- The owner of a die's key slot; slot 0 is the physical function's (R263). -/
def slotOwner (s : State) (d k : Nat) : Option Nat :=
  if k = 0 then some 0 else ((s.die d).keys.get k {}).owner

/-- The function that may access pages mapped with a key slot: its owner, while they are not fenced. -/
def keyOwner (s : State) (d k : Nat) : Option Nat :=
  if k != 0 && ((s.die d).keys.get k {}).closing then none else s.slotOwner d k

/-- An entry of a translation buffer for a function's address. -/
def tlbHit (l : List TlbEntry) (fn va : Nat) : Option TlbEntry :=
  l.find? (fun e => e.fn == fn && va / 2 ^ e.bits * 2 ^ e.bits == e.page)

/-- Put an entry in front; at most `n` of its page size stay. -/
def tlbPut (l : List TlbEntry) (n : Nat) (e : TlbEntry) : List TlbEntry :=
  let rest := l.filter (fun x => x != e)
  let same := (rest.filter (fun x => x.bits == e.bits)).take (n - 1)
  e :: rest.filter (fun x => x.bits != e.bits || same.contains x)

/-- The leaf found for an address of function `fn` of die `d`: through the core's buffer where a core asks, then the
die's, then the tables (R153), whose lines are recalled from cores that have acquired them (R179); present leaves are kept (R154), misses counted (R198 counters 6 and 7). Of a
full second level the entry that was put in first makes room (log entry 86, DESIGN CHOICE). -/
def leafOf (s : State) (d fn : Nat) (core : Option Nat) (va : Nat) : State × Option (DWord × Nat) :=
  let hit1 := match core with
    | some ck => tlbHit (s.coreOf ck).tlb fn va
    | none => none
  match hit1, core with
  | some e, some ck => (s.modCore ck (fun c => { c with tlb := tlbPut c.tlb 32 e }), some (e.leaf, e.bits))
  | _, _ =>
    let s := match core with
      | some ck => s.countC ck 6 1
      | none => s
    match tlbHit (s.die d).tlb2 fn va with
    | some e =>
      let s := match core with
        | some ck => s.modCore ck (fun c => { c with tlb := tlbPut c.tlb 32 e })
        | none => s
      (s, some (e.leaf, e.bits))
    | none =>
      let s := s.modFn (d * 8 + fn) (fun f => { f with cnt7 := f.cnt7 + 1 })
      let s := (walkReads s.mem d va [39, 30, 21] (s.fnOf (d * 8 + fn)).cfg.root).foldl (fun s a => s.recallAll a 8) s
      match walkFrom s.mem d va [39, 30, 21] (s.fnOf (d * 8 + fn)).cfg.root with
      | none => (s, none)
      | some (e, sz) =>
        if pteInvalid e sz then (s, none)
        else if e.getLsbD 1 then
          let t : TlbEntry := { fn, page := va / 2 ^ sz * 2 ^ sz, bits := sz, leaf := e }
          let s := s.modDie d (fun x => { x with tlb2 := (t :: x.tlb2).take 16384 })
          let s := match core with
            | some ck => s.modCore ck (fun c => { c with tlb := tlbPut c.tlb 32 t })
            | none => s
          (s, some (e, sz))
        else (s, some (e, sz))

/-- Does a page that has been fenced for an error lie in [lo, lo + size) (R152)? -/
def fencedIn (s : State) (lo size : Nat) : Bool :=
  s.fencedPages.any (fun p => decide (lo ≤ p * 4096) && decide (p * 4096 < lo + size))

/-- The exporting die's side of an access through a peer window (R253, R255): the place lies under the key slot of the owner's
leaf, and an address past the owner's 2^48 bytes has no valid entry there. -/
def translatePeer (s : State) (d fn : Nat) (acc : Acc) (e : DWord) (sz va : Nat) : State × Xl :=
  let f := pteFrame e / 2 ^ sz * 2 ^ sz
  let xd := bits f 43 5
  let key := xd * 2048 + bits f 32 11
  let off := f % 2 ^ 32 + va % 2 ^ sz
  let r := s.regs.get key {}
  let rightsOk := match acc with
    | .store => r.write
    | .atomic => r.read && r.write && r.atomic
    | _ => r.read
  if r.state != .valid || !r.peer || r.impDie != d || r.impFn != fn || decide (r.pages * 4096 ≤ off) || !rightsOk
      || decide (2 ^ 48 ≤ r.base + off) then
    (s, .fault 2)
  else
    let (s, leaf) := s.leafOf xd r.owner none (r.base + off)
    match leaf with
    | none => (s, .fault 2)
    | some (o, osz) =>
      if !o.getLsbD 1 then (s, .absent (xd * 8 + r.owner) ((r.base + off) / 2 ^ osz * 2 ^ osz))
      else if pteType o != 1 || !acc.rights o || s.keyOwner xd (pteSlot o) != some r.owner then (s, .fault 2)
      else
        let fr := pteFrame o / 2 ^ osz * 2 ^ osz
        if s.fencedIn (dieLoc xd fr) (2 ^ osz) then (s, .fault 4)
        else (s, .ok 2 (dieLoc xd (fr + (r.base + off) % 2 ^ osz)) (pteSlot o) (some key))

/-- The checks of R152 in their order, for an access of `n` bytes. -/
def translate (s : State) (d fn : Nat) (core : Option Nat) (va n : Nat) (acc : Acc) : State × Xl :=
  if 2 ^ 48 ≤ va then (s, .fault 1)
  else if va % n ≠ 0 then (s, .fault 3)
  else
    let (s, leaf) := s.leafOf d fn core va
    match leaf with
    | none => (s, .fault 1)
    | some (e, sz) =>
      let t := pteType e
      if !e.getLsbD 1 then (s, .absent (d * 8 + fn) (va / 2 ^ sz * 2 ^ sz))
      else if !acc.admits t || !acc.rights e
          || ((t == 1 || t == 2) && s.keyOwner d (pteSlot e) != some fn) then (s, .fault 2)
      else
        let fr := pteFrame e / 2 ^ sz * 2 ^ sz
        match t with
        | 1 =>
          if s.fencedIn (dieLoc d fr) (2 ^ sz) then (s, .fault 4)
          else (s, .ok 1 (dieLoc d (fr + va % 2 ^ sz)) (pteSlot e) none)
        | 2 => s.translatePeer d fn acc e sz va
        | 3 => (s, .aliased (bits e.toNat 40 8) (bits e.toNat 38 2) (fr % 2 ^ 26 + va % 2 ^ sz))
        | 4 => (s, .aperture)
        | 5 => (s, .ok 5 (hostLoc (fr + va % 2 ^ sz)) 0 none)
        | _ => (s, .ok 6 (tableLoc (fr + va % 2 ^ sz)) 0 none)

/-! ### Bytes at their coherence points (R163, R181), and the key slots they are stored under (R340) -/

/-- Byte `i` of a 64-bit word. -/
def byteOf (w : DWord) (i : Nat) : Byte := w.extractLsb' (8 * i) 8
/-- A 64-bit word with byte `i` replaced. -/
def setByte (w : DWord) (i : Nat) (b : Byte) : DWord :=
  (w &&& ~~~(0xFF#64 <<< (8 * i))) ||| ((b.setWidth 64) <<< (8 * i))

/-- A byte of the device tables (R260 to R262); the time offsets stand there from bring-up on. -/
def tableByte (s : State) (a : Nat) : Byte :=
  let at' (v base : Nat) : Byte := BitVec.ofNat 8 (v / 256 ^ (a - base))
  if a < 4 then at' s.live.toNat 0
  else if a < 8 then at' Config.packageId.toNat 4
  else if a < 12 then at' s.partNo.toNat 8
  else if 0x100 ≤ a ∧ a < 0x1C8 then
    (if s.basin.boot < 4 then 0 else at' (BitVec.ofInt 64 (timeDelta ((a - 0x100) / 8))).toNat (a / 8 * 8))
  else if 0x1000 ≤ a ∧ a < 0x2900 then at' (bandEntry s.live ((a - 0x1000) / 256) ((a - 0x1000) / 8 % 32)) (a / 8 * 8)
  else 0

/-- The byte at a place: a host word that a station holds is read from the station (R181); the device tables have their own
contents. -/
def byteAt (s : State) (loc : Nat) : Byte :=
  if loc / 2 ^ 48 = 33 then s.tableByte (loc % 2 ^ 48)
  else if s.basin.station0.words.has (loc / 8) then byteOf (s.basin.station0.words.get (loc / 8) 0) (loc % 8)
  else if s.basin.station1.words.has (loc / 8) then byteOf (s.basin.station1.words.get (loc / 8) 0) (loc % 8)
  else Memory.read s.mem loc

/-- The byte at a place as an agent reads it through a page mapped with a key slot: a unit of die memory that was last written under
another slot reads as unrelated bytes (R340). -/
def slotByte (s : State) (slot loc : Nat) : Byte :=
  let u := loc / 64
  if loc < hostLoc 0 && s.tags.has u && s.tags.get u 0 != slot then
    let key (k : Nat) : Nat × Nat := (k, ((s.die (loc / 2 ^ 48)).keys.get k {}).key)
    Config.unrelatedByte u (key (s.tags.get u 0)) (key slot) ((List.range 64).map (fun i => s.byteAt (64 * u + i))) (loc % 64)
  else s.byteAt loc

/-- `n` bytes at a place, through a page mapped with a key slot. -/
def readSlot (s : State) (loc slot n : Nat) : List Byte := (List.range n).map (fun i => s.slotByte slot (loc + i))
/-- `n` bytes at a place as a little-endian number, through a page mapped with a key slot. -/
def natSlot (s : State) (loc slot n : Nat) : Nat := natOf (s.readSlot loc slot n)

/-- `n` bytes at a place as core `ck` sees them: a record that a group of another core has not published shows the bytes that stood
there before it (R127). -/
def coreView (s : State) (ck loc slot n : Nat) : List Byte :=
  (List.range n).map (fun i => match s.veils.find? (fun v => v.loc == loc + i && v.gkey / 16 != ck) with
    | some v => v.old
    | none => s.slotByte slot (loc + i))

/-- `n` bytes at a place. -/
def bytesAt (s : State) (loc n : Nat) : List Byte := (List.range n).map (fun i => s.byteAt (loc + i))
/-- `n` bytes at a place as a little-endian number. -/
def natAt (s : State) (loc n : Nat) : Nat := natOf (s.bytesAt loc n)

/-- One byte stored; a host word that a station holds is updated in the station (R181). -/
def storeByte (s : State) (loc : Nat) (b : Byte) : State :=
  if s.basin.station0.words.has (loc / 8) then
    s.modBasin (fun x => { x with station0 :=
      { words := x.station0.words.set (loc / 8) (setByte (x.station0.words.get (loc / 8) 0) (loc % 8) b) } })
  else if s.basin.station1.words.has (loc / 8) then
    s.modBasin (fun x => { x with station1 :=
      { words := x.station1.words.set (loc / 8) (setByte (x.station1.words.get (loc / 8) 0) (loc % 8) b) } })
  else { s with mem := Memory.write s.mem loc b }

/-- Bytes stored from a place on. -/
def putBytes (s : State) (loc : Nat) (bs : List Byte) : State :=
  match bs with
  | [] => s
  | b :: r => (s.storeByte loc b).putBytes (loc + 1) r

/-- A unit of die memory comes under a key slot: what another slot left in it stays there as this one reads it. -/
def tagUnit (s : State) (slot u : Nat) : State :=
  let s := if s.tags.has u && s.tags.get u 0 != slot then s.putBytes (64 * u) (s.readSlot (64 * u) slot 64) else s
  { s with tags := s.tags.set u slot }

/-- The units of die memory that bytes at `loc` lie in keep the key slot they are written under (R340). -/
def tagUnits (s : State) (loc slot n : Nat) : State :=
  if loc < hostLoc 0 && n != 0 then
    (List.range ((loc + n - 1) / 64 - loc / 64 + 1)).foldl (fun s i => s.tagUnit slot (loc / 64 + i)) s
  else s

/-- Bytes stored under a key slot; every core sees them (R127). -/
def storeBytes (s : State) (loc slot : Nat) (bs : List Byte) : State :=
  let s := (s.tagUnits loc slot bs.length).putBytes loc bs
  { s with veils := s.veils.filter (fun v => decide (v.loc < loc) || decide (loc + bs.length ≤ v.loc)) }

/-- A little-endian number stored under a key slot. -/
def storeNat (s : State) (loc slot n v : Nat) : State := s.storeBytes loc slot (bytesOf n v)

end State

end Sys2Proof.Machine
end

