-- ==== Sys2Proof/Machine/Route.lean ====
section
/-! DEFINITION. Links and routes (R13, R14, R200, R310 to R318): which link joins two pounds, the route between two pounds, the
flits of a message from pound to pound, what a replay buffer, a hop buffer and a hold keep back, and what the last flit brings. -/

namespace Sys2Proof.Machine

open Sys2Proof

/-- The Towpath links, in the order of their numbers (R200). -/
def towpaths : List (Nat × Nat) :=
  (List.range 24).flatMap (fun a => ((List.range 24).filter (fun b => decide (a < b) && linked a b)).map (fun b => (a, b)))

/-- The number of the link between two pounds (R200): Towpath links 0 to 35, Feeder n 36 + n. -/
def linkNo (x y : Nat) : Nat :=
  if x = 24 then 36 + y else if y = 24 then 36 + x
  else towpaths.findIdx (fun p => p.1 == min x y && p.2 == max x y)

/-- A direction of a link: 2 × link, and 1 from the higher pound to the lower. -/
def dirNo (x y : Nat) : Nat := 2 * linkNo x y + (if x < y then 0 else 1)

/-- The pounds that a link joins, the lower one first. -/
def linkEnds (k : Nat) : Nat × Nat := if k < 36 then towpaths.getD k (0, 0) else (k - 36, 24)

/-- The pounds that a direction of a link leads from and to. -/
def dirEnds (d : Nat) : Nat × Nat :=
  let p := linkEnds (d / 2)
  if d % 2 = 0 then p else (p.2, p.1)

/-- A message takes a flit of up to 240 bytes of payload each (R311). -/
def flitCount (bytes : Nat) : Nat := max 1 ((bytes + 239) / 240)

/-- The pound where a place is homed: the die of its memory, the Basin for host memory. -/
def homePound (loc : Nat) : Nat := min 24 (loc / 2 ^ 48)

/-- An atomic whose old values return (R176). -/
def Req.ret (r : Req) : Bool :=
  match r.kind with
  | .atomic _ b => b
  | _ => false

def Req.isAtomic (r : Req) : Bool :=
  match r.kind with
  | .atomic _ _ => true
  | _ => false

/-- The request of a load or a prefetch for a line of another pound. -/
def Req.isRead (r : Req) : Bool := r.kind == ReqKind.read

/-- A request that writes nothing: for a line, or the read of a WAITC. -/
def Req.isLook (r : Req) : Bool := r.kind == ReqKind.read || r.kind == ReqKind.word

/-- A request whose home still has something to say to its core: it is not performed, or its answer has not come (R16, R165). -/
def Req.pending (r : Req) : Bool := !r.performed || r.home != r.srcDie

/-- The core a request was sent from. -/
def Req.srcKey (r : Req) : Nat := r.srcDie * 512 + r.srcCore

/-- Is a request one of a core's: sent from it, or of a group that has been put on it since (R164, R219)? -/
def Req.ofCore (r : Req) (ck : Nat) : Bool := r.srcKey == ck || r.gkey / 16 == ck

/-- Flits that the receiver of a link direction has not delivered yet, oldest first (R312). -/
def LinkDir.undelivered (l : LinkDir) : List Sent :=
  (l.replay.dropWhile (fun x => x.seq != l.expect)).filter (fun x => !l.ahead.contains x.seq)

/-- The flits of a class in a receiving port's hop buffer (R315). -/
def LinkDir.hop (l : LinkDir) (resp : Bool) : List Flit := if resp then l.hopResp else l.hopReq
def LinkDir.setHop (l : LinkDir) (resp : Bool) (fs : List Flit) : LinkDir :=
  if resp then { l with hopResp := fs } else { l with hopReq := fs }
/-- The flits of a class that wait at their source. -/
def LinkDir.queue (l : LinkDir) (resp : Bool) : List Flit := if resp then l.waitResp else l.waitReq
def LinkDir.setQueue (l : LinkDir) (resp : Bool) (fs : List Flit) : LinkDir :=
  if resp then { l with waitResp := fs } else { l with waitReq := fs }
/-- Is hold asserted for a class? -/
def LinkDir.held (l : LinkDir) (resp : Bool) : Bool := if resp then l.holdResp else l.holdReq

/-- A flit comes into its class's hop buffer: the next of the direction, or a later one where each before it is of the other class and
finds that class's buffer full, so that a response is never held behind a request (R315). -/
def LinkDir.admits (l : LinkDir) (x : Sent) : Bool :=
  l.undelivered.any (fun y => y.seq == x.seq) && decide ((l.hop x.flit.resp).length < 64)
    && (l.undelivered.takeWhile (fun y => y.seq != x.seq)).all (fun y =>
      y.flit.resp != x.flit.resp && decide (64 ≤ (l.hop y.flit.resp).length))

/-- The flits of a direction that are still on their way: waiting, undelivered, or in the hop buffers. -/
def LinkDir.flits (l : LinkDir) : List Flit := l.waitReq ++ l.waitResp ++ l.undelivered.map Sent.flit ++ l.hopReq ++ l.hopResp

/-- A change of every flit of a direction. -/
def LinkDir.mapFlits (l : LinkDir) (f : Flit → Flit) : LinkDir :=
  { l with replay := l.replay.map (fun x => { x with flit := f x.flit }), waitReq := l.waitReq.map f, waitResp := l.waitResp.map f
           hopReq := l.hopReq.map f, hopResp := l.hopResp.map f }

/-- The direction after a flit has been delivered. -/
def LinkDir.deliver (l : LinkDir) (x : Sent) : LinkDir :=
  let m := l.setHop x.flit.resp (l.hop x.flit.resp ++ [x.flit])
  if x.seq = l.expect then
    let rest := l.undelivered.filter (fun y => y.seq != x.seq)
    let e := (rest.head?.map Sent.seq).getD l.seq
    { m with expect := e, ahead := l.ahead.filter (fun q => (l.replay.dropWhile (fun y => y.seq != e)).any (fun y => y.seq == q)) }
  else { m with ahead := l.ahead ++ [x.seq] }

namespace State

def linkOf (s : State) (k : Nat) : Link := s.basin.links.get k {}
def setLink (s : State) (k : Nat) (l : Link) : State := s.modBasin (fun b => { b with links := b.links.set k l })
def dirOf (s : State) (d : Nat) : LinkDir := s.basin.dirs.get d {}
def setDir (s : State) (d : Nat) (l : LinkDir) : State := s.modBasin (fun b => { b with dirs := b.dirs.set d l })

/-! ### Routes (R316, R318) -/

/-- Do two pounds that are there share a link that is not fenced (R13, R14, R19)? -/
def linkUp (s : State) (x y : Nat) : Bool :=
  linked x y && poundLive s.live x && poundLive s.live y && !(s.linkOf (linkNo x y)).fenced

/-- May a route lead through a pound (R343)? -/
def forwards (s : State) (x : Nat) : Bool := x == 24 || !(s.die x).fenced

/-- The pounds from which a pound is at most `k` hops away. -/
def within (s : State) (y k : Nat) : List Nat :=
  match k with
  | 0 => [y]
  | j + 1 =>
    let near := s.within y j
    (List.range 25).filter (fun x => near.contains x || near.any (fun z => s.linkUp x z && (z == y || s.forwards z)))

/-- Are the Feeders of all dies that are there up, so that the Basin joins any two of them? -/
def feedersUp (s : State) : Bool := (List.range 24).all (fun d => !poundLive s.live d || s.linkUp d 24)

/-- The dies from which a die is at most `k` Towpath hops away. -/
def towWithin (s : State) (y k : Nat) : List Nat :=
  match k with
  | 0 => [y]
  | j + 1 =>
    let near := s.towWithin y j
    (List.range 24).filter (fun x => near.contains x || near.any (fun z => s.linkUp x z && (z == y || s.forwards z)))

/-- The place of a die in the order that Towpath routes follow: by hops from the lowest die that it reaches, then by number. -/
def towRank (s : State) (x : Nat) : Nat :=
  let root := (s.towWithin x 23).headD x
  32 * (((List.range 24).find? (fun k => (s.towWithin root k).contains x)).getD 0) + x

/-- The dies that lead to a die in at most `k` hops, each to a die of a higher place. -/
def towBelow (s : State) (y k : Nat) : List Nat :=
  match k with
  | 0 => [y]
  | j + 1 =>
    let near := s.towBelow y j
    (List.range 24).filter (fun x => near.contains x
      || near.any (fun z => s.linkUp x z && (z == y || s.forwards z) && decide (s.towRank x < s.towRank z)))

/-- The next die of a Towpath route: toward lower places until a way of rising places leads to the destination, so that the routes
form no cycle (R316; log entry 13, DEDUCED). -/
def towNext (s : State) (x y : Nat) : Option Nat :=
  if !(s.towWithin y 23).contains x then none
  else
    let down := (List.range 24).findSome? (fun k => (List.range 24).find? (fun z =>
      s.linkUp x z && (z == y || s.forwards z) && decide (s.towRank x < s.towRank z) && (s.towBelow y k).contains z))
    match down with
    | some z => some z
    | none => (List.range 24).find? (fun z => s.linkUp x z && s.forwards z && decide (s.towRank z < s.towRank x))

/-- The route that the host complex computes (R316, R318): the shared link; the Basin, while every Feeder is up; else Towpath hops
alone; and where none lead there, the Basin or a shortest path of any links (log entry 13, DEDUCED). -/
def computed (s : State) (x y : Nat) : Option Nat :=
  if s.linkUp x y then some y
  else if x != 24 && y != 24 && s.feedersUp then some 24
  else match (if x == 24 || y == 24 then none else s.towNext x y) with
    | some z => some z
    | none =>
      if s.linkUp x 24 && s.linkUp 24 y then some 24
      else (List.range 25).findSome? (fun k =>
        (List.range 25).find? (fun z => s.linkUp x z && s.forwards z && (s.within y k).contains z))

/-- Key of a routing table entry. -/
def routeKey (x y : Nat) (resp : Bool) : Nat := 64 * x + 2 * y + resp.toNat

/-- The next pound of a route (R316): over the link that two pounds share, else the table's entry, or the computed route; none where
there is no way. -/
def nextHop (s : State) (x y : Nat) (resp : Bool) : Option Nat :=
  if s.linkUp x y then some y
  else if s.basin.routes.has (routeKey x y resp) then some (s.basin.routes.get (routeKey x y resp) 0) else s.computed x y

/-- Does a route reach its destination, within so many hops? -/
def reaches (s : State) (x y : Nat) (resp : Bool) (fuel : Nat) : Bool :=
  match fuel with
  | 0 => x == y
  | k + 1 => x == y || (match s.nextHop x y resp with
    | some z => s.reaches z y resp k
    | none => false)

/-- The link directions of a route, in their order. -/
def path (s : State) (x y : Nat) (resp : Bool) (fuel : Nat) : List Nat :=
  match fuel with
  | 0 => []
  | k + 1 =>
    if x = y then []
    else match s.nextHop x y resp with
      | some z => dirNo x z :: s.path z y resp k
      | none => []

/-- A form that a route between two dies that share no link may take (R316): Towpath hops, or the two Feeders. -/
def routeForm (ds : List Nat) : Bool := ds.all (fun d => decide (d < 72)) || (ds.length == 2 && ds.all (fun d => decide (72 ≤ d)))

/-- Pairs without one in a cycle are gone after so many rounds, each taking those whose second is the first of none. -/
def prune (es : List (Nat × Nat)) (fuel : Nat) : List (Nat × Nat) :=
  match fuel with
  | 0 => es
  | k + 1 => prune (es.filter (fun e => es.any (fun f => f.1 == e.2))) k

/-- Do the routes of a class form no cycle of link directions that wait for each other (R316)? -/
def acyclic (s : State) (resp : Bool) : Bool :=
  let es := (List.range 25).flatMap (fun x => (List.range 25).flatMap (fun y =>
    let p := s.path x y resp 24
    List.zip p (p.drop 1)))
  (prune es.dedup 128).isEmpty

/-! ### Flits (R311, R312, R315) -/

/-- Does a link carry flits: not fenced, and of a Towpath link some module that does not train (R314)? -/
def carries (s : State) (k : Nat) : Bool :=
  let l := s.linkOf k
  !l.fenced && (decide (36 ≤ k) || l.modules.any (fun m => m == .x64 || m == .x32))

/-- May a flit of a class leave on a direction: the class is not held and the replay buffer has room (R312, R315)? -/
def room (s : State) (d : Nat) (resp : Bool) : Bool :=
  let l := s.dirOf d
  s.carries (d / 2) && !l.held resp && decide (l.replay.length < 128)

/-- A flit leaves: it stands in the replay buffer under the next sequence, and is on its way. -/
def launchFlit (s : State) (d : Nat) (f : Flit) : State :=
  let l := s.dirOf d
  let s := s.setDir d { l with replay := l.replay ++ [⟨l.seq, f, 1⟩], seq := l.seq + 1 }
  let s := s.modLife (fun x => { x with flits := x.flits.set (d / 2) (x.flits.get (d / 2) 0 + 1) })
  { s with agenda := s.agenda ++ [.flit d l.seq 1] }

/-- A change of the flits of some messages, wherever they are. -/
def mapFlits (s : State) (ms : List Nat) (f : Flit → Flit) : State :=
  s.modBasin (fun b => { b with dirs := b.dirs.map (fun (p : Nat × LinkDir) =>
    (p.1, p.2.mapFlits (fun x => if ms.contains x.msg then f x else x))) })

/-- Messages of which a flit has been lost bring nothing, whatever arrives of them: they are to be reissued (R313, R316). -/
def loseMsgs (s : State) (ms : List Nat) : State := if ms.isEmpty then s else s.mapFlits ms (fun f => { f with last := none })

/-- A flit at its source: it leaves, or waits behind those of its class that wait; with no way to its destination it is lost. -/
def sendFlit (s : State) (x : Nat) (f : Flit) : State :=
  match s.nextHop x f.dst f.resp with
  | none => s.loseMsgs [f.msg]
  | some z =>
    let d := dirNo x z
    let l := s.dirOf d
    if (l.queue f.resp).isEmpty && s.room d f.resp then s.launchFlit d f
    else s.setDir d (l.setQueue f.resp (l.queue f.resp ++ [f]))

/-- What comes of a message whose last flit has arrived. -/
def land (s : State) (p : Parcel) : State :=
  match p with
  | .none => s
  | .request u =>
    State.post { s with reqs := s.reqs.map (fun r => if r.uid = u then { r with arrived := true } else r) } (.requestArrival u)
  | .answer u => s.post (.atomicReply u)
  | .aliasStore u =>
    State.post { s with aliases := s.aliases.map (fun a => if a.uid = u then { a with arrived := true } else a) } (.aliasStore u)
  | .copen u =>
    State.post { s with opens := s.opens.map (fun o => if o.uid = u then { o with arrived := true } else o) } (.collectiveOpen u)
  | .chunk u k =>
    State.post { s with copies := s.copies.map (fun c =>
      if c.uid = u then { c with flying := c.flying.filter (fun a => a.chunk != k), landed := c.landed ++ c.flying.filter (fun a => a.chunk == k) } else c) }
      (.copyChunkWrite u k)
  | .act a => { s with agenda := s.agenda ++ [a] }
  | .sure u => match s.sures.find? (fun r => r.uid == u) with
    | some r => { s with sures := s.sures.filter (fun x => x.uid != u), agenda := s.agenda ++ [r.act] }
    | none => s

/-- The last flit of a message has arrived: with it the message, or the last of its other flits that comes after it brings it (R311). -/
def takeFlit (s : State) (f : Flit) : State :=
  match f.last with
  | none => s
  | some p =>
    if s.basin.dirs.any (fun d => d.2.flits.any (fun x => x.msg == f.msg)) then s.mapFlits [f.msg] (fun x => { x with last := some p })
    else s.land p

/-- A message of a pound to a pound: its flits in order, or at its own pound at once (R311). -/
def sendMsg (s : State) (x y : Nat) (resp : Bool) (bytes : Nat) (p : Parcel) : State :=
  if x = y then s.land p
  else
    let n := flitCount bytes
    let m := s.basin.msgs
    (List.range n).foldl (fun s i => s.sendFlit x ⟨x, y, resp, m, if i + 1 = n then some p else none⟩)
      (s.modBasin (fun b => { b with msgs := m + 1 }))

/-- A message that is kept until it has arrived, to be sent anew where a fence loses it, and brings its activity once (R313). -/
def sendSure (s : State) (x y : Nat) (resp : Bool) (bytes : Nat) (a : Activity) : State :=
  if x = y then { s with agenda := s.agenda ++ [a] }
  else
    let (u, s) := s.fresh
    let r : Sure := { uid := u, src := x, dst := y, resp, bytes, act := a, sentAt := s.basin.time.toNat }
    State.sendMsg { s with sures := s.sures ++ [r] } x y resp bytes (.sure u)

/-- Bytes at each pound other than one. -/
def farPounds (d : Nat) (l : List (Nat × Nat × Nat × Option Nat)) : List (Nat × Nat) :=
  (((l.map (fun p => homePound p.1)).filter (fun h => h != d)).dedup).map (fun h =>
    (h, ((l.filter (fun p => homePound p.1 == h)).map (fun p => p.2.2.1)).sum))

/-- The flits of an access that a die's own hardware makes of places at other pounds, read or written (R311, R318): a request and its
answer each; what is read and written is the memory of now (log entry 24, DESIGN CHOICE). -/
def partFlits (s : State) (d : Nat) (write : Bool) (l : List (Nat × Nat × Nat × Option Nat)) : State :=
  (farPounds d l).foldl (fun s h =>
    (s.sendMsg d h.1 false (if write then h.2 else 0) .none).sendMsg h.1 d true (if write then 0 else h.2) .none) s

/-! ### Buffers -/

/-- The undelivered flits of a direction are on their way once more. -/
def repostFlits (s : State) (d : Nat) : State :=
  { s with agenda := s.agenda ++ (s.dirOf d).undelivered.map (fun x => .flit d x.seq x.tries) }

/-- The first flit of a hop buffer is gone: hold is released below 32 flits (R315), and flits that found a full buffer come up. -/
def popHop (s : State) (d : Nat) (resp : Bool) : State :=
  let l := s.dirOf d
  let n := (l.hop resp).length
  let s := s.setDir d (l.setHop resp ((l.hop resp).drop 1))
  let s := if l.held resp && decide (n ≤ 32) then s.post (.holdRelease d resp) else s
  if n ≤ 63 then s else s.repostFlits d

/-- The flits of a hop buffer go on while they may: at their destination they are delivered, elsewhere they leave on the next
link of their route. -/
def forward (s : State) (d : Nat) (resp : Bool) (fuel : Nat) : State :=
  match fuel with
  | 0 => s
  | k + 1 =>
    let z := (dirEnds d).2
    match (s.dirOf d).hop resp with
    | [] => s
    | f :: _ =>
      if f.dst = z then
        ((s.popHop d resp).takeFlit f).forward d resp k
      else match s.nextHop z f.dst resp with
        | none => ((s.popHop d resp).loseMsgs [f.msg]).forward d resp k
        | some w =>
          if s.room (dirNo z w) resp then ((s.popHop d resp).launchFlit (dirNo z w) f).forward d resp k else s

/-- Flits that waited at their source leave while they may. -/
def drain (s : State) (d : Nat) (resp : Bool) (fuel : Nat) : State :=
  match fuel with
  | 0 => s
  | k + 1 =>
    let l := s.dirOf d
    match l.queue resp with
    | [] => s
    | f :: r => if s.room d resp then ((s.setDir d (l.setQueue resp r)).launchFlit d f).drain d resp k else s

/-- Whatever may leave a pound leaves it: responses first, through traffic first. -/
def pumpPound (s : State) (x : Nat) : State :=
  let near := (List.range 25).filter (linked x)
  [true, false].foldl (fun s resp =>
    let s := near.foldl (fun s w => s.forward (dirNo w x) resp 64) s
    near.foldl (fun s w => s.drain (dirNo x w) resp 128) s) s

/-- A transmission of a flit reaches the far end of its link (R312, R315). One that has been transmitted again since, or is
not the next in sequence of its class, brings nothing; one that the link does not carry, or that finds the hop buffer full, stays in
the replay buffer. What has been delivered without a gap is acknowledged. -/
def arriveFlit (s : State) (d : Nat) (seq : BitVec 10) (tries : Nat) : State :=
  let l := s.dirOf d
  match l.replay.find? (fun x => x.seq == seq && x.tries == tries) with
  | none => s
  | some x =>
    let fs := l.hop x.flit.resp
    if !s.carries (d / 2) || !l.admits x then s
    else
      let m := l.deliver x
      let s := s.setDir d m
      let s := if m.expect = l.expect then s else s.post (.flitAcknowledgement d (m.expect - 1))
      let s := if 48 ≤ fs.length && !l.held x.flit.resp then s.post (.holdAssert d x.flit.resp) else s
      s.forward d x.flit.resp 64

/-! ### Fences and retraining (R314, R316, R318) -/

/-- A link or a die has been fenced or taken live: the routes are computed anew, and what waits anywhere goes on; collectives send their writes and arrives that have not arrived anew. Holding the traffic until the entries
are written takes no time of its own here. -/
def topoChange (s : State) : State :=
  let s := s.modBasin (fun b => { b with
    rerouting := true, routeTime := b.time.toNat + 1
    routes := []
    colls := b.colls.map (fun (p : Nat × Coll) => (p.1, { p.2 with flying := [], epoch := p.2.epoch + 1 })) })
  let s := s.basin.colls.foldl (fun s p => s.post (.collectiveCompletion p.1)) s
  (List.range 25).foldl pumpPound s

/-- A link fenced: the flits in it are lost, and their messages with them; those that wait at its ends take their new routes. -/
def fenceLink (s : State) (k : Nat) : State :=
  let lost := ((s.dirOf (2 * k)).undelivered ++ (s.dirOf (2 * k + 1)).undelivered).map (fun x => x.flit.msg)
  let s := (s.loseMsgs lost).setLink k { s.linkOf k with fenced := true }
  let again (d : Nat) : List (Nat × Flit) :=
    ((s.dirOf d).waitResp ++ (s.dirOf d).waitReq).map (fun f => ((dirEnds d).1, f))
  let waiting := again (2 * k) ++ again (2 * k + 1)
  let empty (s : State) (d : Nat) : State :=
    s.setDir d { hopReq := (s.dirOf d).hopReq, hopResp := (s.dirOf d).hopResp }
  let s := (empty (empty s (2 * k)) (2 * k + 1)).topoChange
  waiting.foldl (fun s p => s.sendFlit p.1 p.2) s

/-- A link retrained as a whole: its sequences begin at 0 again (R310), and what has not been delivered is sent under them. -/
def retrainDir (s : State) (d : Nat) : State :=
  let l := s.dirOf d
  let again := l.undelivered.zipIdx.map (fun p => (⟨BitVec.ofNat 10 p.2, p.1.flit, p.1.tries + 1⟩ : Sent))
  (s.setDir d { l with replay := again, seq := BitVec.ofNat 10 again.length, expect := 0, ahead := [] }).repostFlits d

def retrainLink (s : State) (k : Nat) : State := (s.retrainDir (2 * k)).retrainDir (2 * k + 1)

end State

end Sys2Proof.Machine
end

