-- ==== Sys2Proof/Machine/Ops.lean ====
section
/-! DEFINITION. The shared operations of the machine: the part's own accesses to a function's memory (R156), rings and
their records (R332 to R335), parking (R37), lane faults and the fault block (R127, R128), taking a trap (R119 to R123)
and returning from one (R125), and how a team ends on a fault (R126). -/

namespace Sys2Proof.Machine

open Sys2Proof

/-- What became of an access the part makes in a function's memory. -/
inductive PartAcc (α : Type) where
  | ok (x : α)
  /-- a page to be serviced: function key and page -/
  | wait (fkey page : Nat)
  /-- not possible: the lane record kind that matches -/
  | bad (kind : Nat)
  deriving DecidableEq, Repr

/-- The pieces of `n` bytes from `va` on that lie in one 4 KiB unit each. -/
def pieces (fuel va n : Nat) : List (Nat × Nat) :=
  match fuel with
  | 0 => []
  | k + 1 =>
    if n = 0 then []
    else
      let m := min n (4096 - va % 4096)
      (va, m) :: pieces k (va + m) (n - m)

/-- The core a load returns to. -/
def Load.ckey (l : Load) : Nat := l.die * 512 + l.core

namespace State

/-! ### The part's own accesses -/

/-- Every piece translated: their places, key slots, lengths and exports. An access of the part's own recalls the lines that it
meets from the cores that have acquired them (R179). A place in an alias window counts as a failed translation, for a record
of a fault block too (log entry 62, DESIGN CHOICE). -/
def vPlaces (s : State) (d fn : Nat) (acc : Acc) (ps : List (Nat × Nat)) :
    State × PartAcc (List (Nat × Nat × Nat × Option Nat)) :=
  match ps with
  | [] => (s, .ok [])
  | (va, n) :: r =>
    match s.translate d fn none va 1 acc with
    | (s, .ok _ loc slot expo) =>
      match (s.recallAll loc n).vPlaces d fn acc r with
      | (s, .ok l) => (s, .ok ((loc, slot, n, expo) :: l))
      | (s, .wait f p) => (s, .wait f p)
      | (s, .bad k) => (s, .bad k)
    | (s, .absent f p) => (s, .wait f p)
    | (s, .fault k) => (s, .bad k)
    | (s, .aliased _ _ _) => (s, .bad 2)
    | (s, .aperture) => (s, .bad 2)

/-- `n` bytes of a function's memory. -/
def vRead (s : State) (d fn va n : Nat) : State × PartAcc (List Byte) :=
  match s.vPlaces d fn .load (pieces (n / 4096 + 2) va n) with
  | (s, .ok l) => (s.partFlits d false l, .ok (l.flatMap (fun p => s.readSlot p.1 p.2.1 p.2.2.1)))
  | (s, .wait f p) => (s, .wait f p)
  | (s, .bad k) => (s, .bad k)

/-- Bytes spread over translated pieces. -/
def putPieces (s : State) (l : List (Nat × Nat × Nat × Option Nat)) (bs : List Byte) : State :=
  match l with
  | [] => s
  | (loc, slot, n, _) :: r => (s.storeBytes loc slot (bs.take n)).putPieces r (bs.drop n)

/-- A WAITC that waits is evaluated at every write to its word where it has a watch entry, or where a station holds the word
(R191). -/
def evaluated (s : State) (gk loc : Nat) : Bool :=
  (s.die (loc / 2 ^ 48)).watches.contains (loc, gk) || s.basin.station0.words.has (loc / 8) || s.basin.station1.words.has (loc / 8)

/-- What stands for a record's owner among the watch entries of a die, where a waiting group's key stands. -/
def depKey (fkey owner : Nat) : Nat := 2 ^ 40 + 128 * fkey + owner

/-- Does a write to bytes [loc, loc + n) bring a dependence word that is evaluated at each write to its threshold (R191, R207)? -/
def depMet (s : State) (fkey loc n : Nat) (w : DepWatch) : Bool :=
  !w.met && bytesMeet w.loc 8 loc n && s.evaluated (depKey fkey w.owner) w.loc && decide (w.thr ≤ s.natSlot w.loc w.slot 8)

/-- A watch entry given back (R191). -/
def unwatch (s : State) (loc gk : Nat) : State :=
  let d := loc / 2 ^ 48
  if d < 24 then s.modDie d (fun x => { x with watches := x.watches.erase (loc, gk) }) else s

/-- A dependence word is watched no longer: its entry is given back, unless another word of its record stands there too. -/
def freeDep (s : State) (fkey : Nat) (w : DepWatch) : State :=
  if (s.fnOf fkey).deps.any (fun x => x.owner == w.owner && x.loc == w.loc && !x.met) then s else s.unwatch w.loc (depKey fkey w.owner)

/-- Dependence words of a function are watched no longer. -/
def dropDeps (s : State) (fkey : Nat) (gone : DepWatch → Bool) : State :=
  let out := (s.fnOf fkey).deps.filter gone
  out.foldl (fun s w => s.freeDep fkey w) (s.modFn fkey (fun f => { f with deps := f.deps.filter (fun w => !gone w) }))

/-- What comes up once a dependence of a record has been met. -/
def depActivity (fkey owner : Nat) : Activity :=
  .event (if owner < 16 then .launchSelection (fkey / 8) (fkey % 8) else .chainNodeReady (fkey / 8) (fkey % 8) (owner - 16))

/-- Dependence words that a write brings to their thresholds have been met, whatever they hold when their records are looked at (R191,
R207). -/
def meetDeps (s : State) (loc n : Nat) : State :=
  let due := s.fns.flatMap (fun p => (p.2.deps.filter (s.depMet p.1 loc n)).map (fun w => (p.1, w)))
  let s := { s with
    fns := s.fns.map (fun p => (p.1, { p.2 with deps := p.2.deps.map (fun w => if s.depMet p.1 loc n w then { w with met := true } else w) })) }
  due.foldl (fun s x => (s.freeDep x.1 x.2).sendSure (homePound x.2.loc) (x.1 / 8) true 0 (depActivity x.1 x.2.owner)) s

/-- After a write to bytes [loc, loc + n): a waiting WAITC whose word now reaches its threshold has been satisfied, whatever the
word holds when its group wakes (R191); and what the part does after a write to a word that it watches comes up (R203, R332);
a dependence word that reaches its threshold has been met (R207). What another pound is to hear crosses to it (R17, R191). -/
def wakeAt (s : State) (loc n : Nat) : State :=
  let acts := s.fns.flatMap (fun p => (p.2.watch.filter (fun w => decide (w.1 < loc + n) && decide (loc < w.1 + 8))).map Prod.snd)
  let s := ({ s with agenda := s.agenda ++ acts }).meetDeps loc n
  s.groups.foldl (fun s (p : Nat × Group) =>
    match (s.group p.1).wait with
    | .waitc w slot thr =>
      if thr != 0 && w < loc + n && loc < w + 8 && s.evaluated p.1 w && thr.toNat ≤ s.natSlot w slot 8 then
        (s.modGroup p.1 (fun g => { g with wait := .waitc w slot 0 })).sendSure (homePound w) (p.1 / 16 / 512) true 0 (.event (.waitcWake p.1))
      else s
    | _ => s) s

/-- An arrival counter's increment still to be made (R189); `net`: it counts a network write accepted through the entry (R255), which
is acknowledged after it (R320). -/
def postIncr (s : State) (regKey n : Nat) (net : Bool) (ack : Option (Nat × NetPacket) := none) : State :=
  let r := s.regs.get regKey {}
  if r.counter = 0 then s
  else
    let (u, s) := s.fresh
    let i : Incr := { uid := u, die := regKey / 2048, fn := r.owner, addr := r.counter, bytes := n, copy := none,
                      net := if net then some regKey else none, host := false, waiting := none, ack }
    State.post { s with incrs := s.incrs ++ [i] } (.arrivalCounterIncrement u)

/-- The core's lines that hold bytes of a place are changed where it stores (R160). -/
def snapStore (s : State) (ck loc : Nat) (bs : List Byte) : State :=
  s.modCore ck (fun c => { c with snap := c.snap.map (fun x =>
    if x.line = loc / 64 then { x with bytes := overlay (64 * x.line) x.bytes loc bs } else x) })

/-- Bytes the part writes into a function's memory; a write through a counted export counts (R189). -/
def vWrite (s : State) (d fn va : Nat) (bs : List Byte) : State × PartAcc Unit :=
  match s.vPlaces d fn .store (pieces (bs.length / 4096 + 2) va bs.length) with
  | (s, .ok l) =>
    let s := (s.partFlits d true l).putPieces l bs
    (l.foldl (fun s p => (match p.2.2.2 with
      | some k => s.postIncr k p.2.2.1 false
      | none => s).wakeAt p.1 p.2.2.1) s, .ok ())
  | (s, .wait f p) => (s, .wait f p)
  | (s, .bad k) => (s, .bad k)

/-! ### Rings (R332) -/

/-- A ring header's tail, head, completion count and entries. -/
structure RingHdr where
  tail : Nat
  head : Nat
  done : Nat
  entries : Nat
  lost : Nat
  deriving DecidableEq, Repr

def ringHdr (bs : List Byte) : RingHdr where
  tail := natOf (bs.take 8)
  head := natOf ((bs.drop 8).take 8)
  done := natOf ((bs.drop 16).take 8)
  entries := natOf ((bs.drop 24).take 4)
  lost := natOf ((bs.drop 28).take 4)

/-- A ring's entries field is usable: a power of two from 1 to 65,536. -/
def ringOk (n : Nat) : Bool := (List.range 17).any (fun k => n == 2 ^ k)

/-- Signal one of a function's vectors (R329). -/
def signal (s : State) (fkey v : Nat) : State := s.modFn fkey (fun f => { f with msix := f.msix ||| BitVec.twoPow 4 v })

/-- A write of the part's own waits for a page (R156). -/
def holdWrite (s : State) (fkey : Nat) (w : HeldWrite) (f p : Nat) : State :=
  s.modFn fkey (fun x => { x with held := x.held ++ [(w, f, p)] })

/-- Base of the ring whose vector is `v`: fault queue or page-service queue. -/
def ringOf (s : State) (fkey v : Nat) : Nat := if v = 0 then (s.fnOf fkey).cfg.faultQ else (s.fnOf fkey).cfg.pageQ

/-- A record put into a ring the part produces: the entry, then the tail, then the vector; a full or unusable ring
loses it (R332), and so does one that cannot be reached (log entry 15, DESIGN CHOICE). The page that it waits for, if there is one. -/
def putRecord (s : State) (fkey v : Nat) (bs : List Byte) : State × Option (Nat × Nat) :=
  let d := fkey / 8
  let fn := fkey % 8
  let base := s.ringOf fkey v
  match s.vRead d fn base 64 with
  | (s, .ok hb) =>
    let h := ringHdr hb
    if !ringOk h.entries || (h.tail + 2 ^ 64 - h.head) % 2 ^ 64 == h.entries then
      ((s.vWrite d fn (base + 28) (bytesOf 4 (min (h.lost + 1) 0xFFFFFFFF))).1, none)
    else
      match s.vWrite d fn (base + 64 + bs.length * (h.tail % h.entries)) bs with
      | (s, .ok _) => (((s.vWrite d fn base (bytesOf 8 (h.tail + 1))).1).signal fkey v, none)
      | (s, .wait f p) => (s, some (f, p))
      | (s, .bad _) => (s, none)
  | (s, .wait f p) => (s, some (f, p))
  | (s, .bad _) => (s, none)

/-- A record for a ring, behind those that wait already; the page it waits for, if there is one. -/
def postOrHold (s : State) (fkey v : Nat) (bs : List Byte) : State × Option (Nat × Nat) :=
  match (s.fnOf fkey).held.find? (fun h => match h.1 with | .record w _ => w == v | _ => false) with
  | some h => (s.holdWrite fkey (.record v bs) h.2.1 h.2.2, none)
  | none =>
    match s.putRecord fkey v bs with
    | (s, some (f, p)) => (s.holdWrite fkey (.record v bs) f p, some (f, p))
    | (s, none) => (s, none)

/-- The record of a page-service request (R335), and the function's sequence number raised. -/
def newRequest (s : State) (fkey page : Nat) (acc : Acc) : State × List Byte :=
  let f := s.fnOf fkey
  (s.setFn fkey { f with pages := f.pages ++ [⟨page, acc.request, f.pageSeq⟩], pageSeq := (f.pageSeq + 1) % 2 ^ 64 },
    bytesOf 8 (bits page 12 36 * 4096 + acc.request.toNat) ++ bytesOf 8 f.pageSeq ++ bytesOf 1 (fkey / 8) ++ bytesOf 15 0)

/-- Has a page's service been requested already? -/
def requested (s : State) (fkey page : Nat) : Bool := (s.fnOf fkey).pages.any (fun p => p.page == page)

/-- A page's service requested, or an earlier request for it joined (R156, R335). A page of the page-service queue itself
is requested too; its record stands behind the one that met it. -/
def requestPage (s : State) (fkey page : Nat) (acc : Acc) : State :=
  if s.requested fkey page then s
  else
    let (s, bs) := s.newRequest fkey page acc
    match s.postOrHold fkey 1 bs with
    | (s, none) => s
    | (s, some (f, p)) =>
      if s.requested f p then s
      else
        let (s, bs) := s.newRequest f p .store
        (s.postOrHold f 1 bs).1

/-- A fault-queue record: kind and the record's bytes (R334); it waits where a page of the queue does (R156). -/
def faultRecord (s : State) (fkey kind : Nat) (bs : List Byte) : State :=
  match s.postOrHold fkey 0 (bs.take 32 ++ bytesOf (32 - bs.length) 0 ++ bytesOf 4 kind ++ bytesOf 28 0) with
  | (s, some (f, p)) => s.requestPage f p .store
  | (s, none) => s

/-- Bytes of a header written, now or when the page has been serviced (R156). -/
def partPut (s : State) (fkey addr : Nat) (bs : List Byte) : State :=
  match s.vWrite (fkey / 8) (fkey % 8) addr bs with
  | (s, .wait f p) => (s.holdWrite fkey (.put addr bs) f p).requestPage f p .store
  | (s, _) => s

/-- The service of the page that an access of the part's own waited for has failed, and it has not been tried since (R156). -/
def hasFailed (s : State) (fkey : Nat) (who : Activity) (va : Nat) : Bool := (s.fnOf fkey).pageFail.any (fun x => x.1 == who && x.2.1 == va)

/-- It fails now, once. -/
def failedNow (s : State) (fkey : Nat) (who : Activity) (va : Nat) : State :=
  s.modFn fkey (fun f => { f with pageFail := f.pageFail.filter (fun x => !(x.1 == who && x.2.1 == va)) })

/-- An access of the part's own waits for a page, whose service is requested (R156). -/
def waitPage (s : State) (fkey : Nat) (who : Activity) (va f p : Nat) (acc : Acc) : State :=
  let w : PartWait := ⟨f, p, who, va⟩
  (s.modFn fkey (fun x => { x with pageWait := if x.pageWait.contains w then x.pageWait else x.pageWait ++ [w] })).requestPage f p acc

/-- A read of the part's own, made by `who`, which waits for a page that is not present, and fails where that page's service has failed
(R156). -/
def partRead (s : State) (who : Activity) (d fn va n : Nat) : State × PartAcc (List Byte) :=
  let k := d * 8 + fn
  if s.hasFailed k who va then (s.failedNow k who va, .bad 8)
  else match s.vRead d fn va n with
  | (s, .wait f p) => (s.waitPage k who va f p .load, .wait f p)
  | x => x

/-- A word of a function's memory that the part watches (R191). -/
def watchWord (s : State) (d fn va : Nat) (a : Activity) : State :=
  match s.translate d fn none va 8 .load with
  | (s, .ok _ loc _ _) =>
    s.modFn (d * 8 + fn) (fun f => { f with watch := if f.watch.contains (loc, a) then f.watch else f.watch ++ [(loc, a)] })
  | (s, _) => s

/-! ### Parking (R37) -/

/-- Lanes of the current issue park on pages, at the group's offset; the latch lanes are saved (R39), the episode
counted (R156, R198). -/
def park (s : State) (ls : List ParkedLane) : State :=
  if ls.isEmpty then s
  else
    let g := s.g
    let first := g.parked == 0
    let g1 : Group :=
      if first then
        { g with parkOffset := g.offset, parkLat := g.lat, parkLatValid := g.latValid, shifts := []
                 rangeStart := if g.replays.isEmpty then g.offset else g.rangeStart
                 rangeSeq := if g.replays.isEmpty then s.nextUid else g.rangeSeq }
      else g
    let s := s.setG { g1 with
      parked := g1.parked ||| maskOf (ls.map (fun p => p.lane))
      parkedOn := g1.parkedOn ++ ls
      waitPages := g1.waitPages ++ (ls.map (fun p => (p.fkey, p.page))).filter (fun p => !g1.waitPages.contains p) }
    if first then (s.countG 11 1).modLife (fun l => { l with parkings := satUp l.parkings }) else s

/-! ### Lane faults (R127, R128) -/

/-- A lane record (R128). -/
def laneRecord (kind op lane plane off addr : Nat) : Nat :=
  addr * 2 ^ 64 + off * 2 ^ 32 + kind * 2 ^ 24 + op * 2 ^ 16 + lane * 2 ^ 8 + plane

/-- The lowest plane of a plane mask. -/
def lowPlane (m : BitVec 8) : Nat := ((List.range 8).find? (fun p => m.getLsbD p)).getD 0

/-- Fetch address of an offset in a plane (R25). -/
def fetchAddr (g : Group) (plane : Nat) (o : Off) : Nat := g.codeBase.toNat + plane * g.stride.toNat + 4 * o.toNat

/-- The highest plane of a plane mask. -/
def highPlane (m : BitVec 8) : Nat := ((List.range 8).reverse.find? (fun p => m.getLsbD p)).getD 0

/-- Does a faulting issue of a group stand before another? In the order of issue (R26, R184); where lanes are parked or replayed, one of
before their range first, and in it by offset from the outermost park offset, then by run, then by highest plane (R121). -/
def faultBefore (g : Group) (a b : Faults) : Bool :=
  let key (f : Faults) : Nat := ((f.here - g.rangeStart).toNat * 2 ^ 16 + f.run) * 8 + f.high
  let early (f : Faults) : Bool := (g.parked == 0 && g.replays.isEmpty) || decide (f.seq < g.rangeSeq)
  if early a || early b then early a && (!early b || decide (a.seq < b.seq)) else decide (key a < key b)

end State

/-- A fault of an issue of a group joins those that kind 0x19 will report (R121, R184): `lanes` none for a scalar access,
whose record address stands in X5 and X6. One that has come back late from an earlier offset stands in the order of its issue. -/
def Group.noteFault (g : Group) (i : Issue) (lanes : DWord) (addr : Nat) (scalar : Bool) : Group :=
  let low := State.lowPlane i.planes
  let mine : Faults :=
    { word := i.word, here := i.here,
      addr := BitVec.ofNat 64 (if scalar then addr else State.fetchAddr g low i.here % 2 ^ 48),
      low := BitVec.ofNat 3 low, lanes, planes := i.planes, run := i.run, high := State.highPlane i.planes, seq := i.seq }
  match g.faults with
  | none => { g with faults := some mine }
  | some f =>
    let first := if State.faultBefore g mine f then mine else f
    { g with faults := some { first with lanes := f.lanes ||| lanes, planes := f.planes ||| i.planes } }

/-- An access of an issue of a group faults: in a lane, or as a scalar-class access (R159); its record is to be written. -/
def Group.accessFault (g : Group) (i : Issue) (scalar : Bool) (lane kind addr : Nat) : Group :=
  let r := State.laneRecord kind (i.word.toNat / 2 ^ 25) (if scalar then 0xFF else lane)
    (if scalar then State.lowPlane i.planes else (g.plane.get lane 0).toNat) i.here.toNat addr
  let g := { g with recs := g.recs ++ [(if scalar then 1088 else 16 * lane, 16, r)] }
  g.noteFault i (if scalar then 0 else laneBit lane) addr scalar

namespace State

/-- A fault of the current issue joins those of its group. -/
def noteFault (s : State) (lanes : DWord) (addr : Nat) (scalar : Bool) : State :=
  s.modG (fun g => g.noteFault { s.iss with seq := s.nextUid } lanes addr scalar)

/-- A lane of the current issue faults. -/
def laneFault (s : State) (lane kind addr : Nat) : State :=
  s.modG (fun g => g.accessFault { s.iss with seq := s.nextUid } false lane kind addr)

/-- A scalar-class access of the current issue faults (R159). -/
def scalarFault (s : State) (kind addr : Nat) : State :=
  s.modG (fun g => g.accessFault { s.iss with seq := s.nextUid } true 0 kind addr)

/-! ### Records of a fault block (R127) -/

/-- A store with the bytes that another write to its place has laid over its own. -/
def coverReq (r : Req) (loc : Nat) (bs : List Byte) : Req :=
  { r with parts := r.parts.map (fun p =>
      { p with data := BitVec.ofNat 128 (natOf (overlay p.loc (bytesOf r.n p.data.toNat) loc bs)) }) }

/-- Bytes that a core's later store or atomic writes stand over those that its performed atomics, and lines that are on their way to it,
still bring to its snapshot (R164). -/
def patchReplies (s : State) (ck loc : Nat) (bs : List Byte) : State :=
  { s with reqs := s.reqs.map (fun r =>
      if r.performed && (r.ret || r.isRead) && r.ofCore ck then coverReq r loc bs else r) }

/-- Translated pieces of a record of the current group performed at once, over its earlier stores that are still on their way (R163).
The loads of its core see the bytes; other cores see what stood there until the group's publish (R127). A write through a counted
export counts, and that publishes it (R189, R309). -/
def putShown (s : State) (l : List (Nat × Nat × Nat × Option Nat)) (bs : List Byte) : State :=
  match l with
  | [] => s
  | (loc, slot, n, expo) :: r =>
    let b := bs.take n
    let ck := s.g.ckey
    let olds := (s.coreView (2 ^ 16) loc slot n).zipIdx.map (fun x => (⟨s.cur, s.g.team, loc + x.2, x.1⟩ : Veil))
    let s := ((s.storeBytes loc slot b).snapStore ck loc b).patchReplies ck loc b
    let s := { s with
      reqs := s.reqs.map (fun (q : Req) =>
        if q.gkey = s.cur && q.team = s.g.team && !q.performed && q.kind == ReqKind.store then coverReq q loc b else q)
      veils := if expo.isSome then s.veils else s.veils ++ olds }
    let s := (match expo with
      | some k => s.postIncr k n false
      | none => s).wakeAt loc n
    s.putShown r (bs.drop n)

/-- Other cores see the records of a group from here on (R127). -/
def unveil (s : State) (gk team : Nat) : State := { s with veils := s.veils.filter (fun v => !(v.gkey == gk && v.team == team)) }

/-- A group that goes gives back the watch entry it holds (R191). -/
def stopWatching (s : State) (gk : Nat) : State :=
  match (s.group gk).wait with
  | .waitc loc _ _ => s.unwatch loc gk
  | _ => s

/-! ### A team ends on a fault (R123, R126, R214) -/

/-- Every group of a team stops for good and the team's end follows; the grid's status becomes failed. The report along the
chain of R63 is the group record and that status; no record goes to the fault queue (log entry 61, DESIGN CHOICE). -/
def killTeam (s : State) (t : Nat) : State :=
  let x := s.teamOf t
  let s := (s.teamGroups t).foldl (fun s k => (s.stopWatching k).modGroup k (fun g =>
    { g with live := false, exited := true, wait := .ready, recs := [], pendX := [] })) s
  ((s.setTeam t { x with bad := true, gone := x.groups }).modLaunch x.launch (fun l => { l with bad := true })).post (.teamEnd t)

/-! ### Taking a trap (R119 to R123) -/

/-- X0 to X7 (R61, R120). -/
def trapX (kind field op word25 : Nat) (off : Off) (mask : DWord) (addr x7hi : Nat) (planes : BitVec 8) (low : Nat) :
    List Word :=
  [ BitVec.ofNat 32 (kind * 2 ^ 24 + field * 2 ^ 8 + op),
    BitVec.ofNat 32 (word25 % 2 ^ 25),
    off.setWidth 32,
    mask.setWidth 32,
    mask.extractLsb' 32 32,
    BitVec.ofNat 32 addr,
    BitVec.ofNat 32 (addr / 2 ^ 32),
    BitVec.ofNat 32 (x7hi * 2 ^ 16 + planes.toNat * 2 ^ 8 + low) ]

/-- The 64 bytes of a group record (R128), as a number: X0 to X7, the frame's EXEC, offset and join-stack depth. -/
def groupRecord (xs : List Word) (exec : DWord) (off : Off) (depth : Nat) : Nat :=
  natOf ((xs.flatMap (fun x => bytesOf 4 x.toNat)) ++ bytesOf 8 exec.toNat ++ bytesOf 4 (depth * 2 ^ 24 + off.toNat))

/-- The fault block of the current group (R128), at an address modulo 2^64 (R5). -/
def faultBlock (s : State) : Nat := (s.g.faultArea.toNat + 2048 * (16 * s.team.index + s.g.index)) % 2 ^ 64

/-- Enter the handler: the frame is frozen, X0 to X7 are written, the latches drop, and issue goes on at the handler
offset with the live state of R123. -/
def enterHandler (s : State) (xs : List Word) (h : Off) : State :=
  let g := s.g
  let xt := (List.range 8).foldl (fun t i => t.set i (xs.getD i 0)) g.x
  s.setG { g with
    frame := some ⟨g.offset, g.exec, g.nest, g.plane, g.joins⟩
    x := xt, latValid := 0, nest := [], joins := [], offset := h, faults := none, pendX := [], recs := [], wait := .ready }

/-- Bytes of records put into the fault block, where the group's own loads see them at once and other cores not yet (R127); or
the page they wait for. -/
def writeRecs (s : State) (base : Nat) (rs : List (Nat × Nat × Nat)) : State × PartAcc Unit :=
  match rs with
  | [] => (s, .ok ())
  | (o, n, v) :: r =>
    match s.vPlaces s.g.die s.g.fn .store (pieces 2 ((base + o) % 2 ^ 64) n) with
    | (s, .ok l) =>
      ((s.partFlits s.g.die true l).putShown l (bytesOf n v)).writeRecs base r
    | (s, .wait f p) => (s, .wait f p)
    | (s, .bad k) => (s, .bad k)

/-- A fault block that cannot be written ends the team of the current group, with a record of kind 6 (R128). -/
def unwritableBlock (s : State) : State :=
  let g := s.g
  (s.killTeam g.team).faultRecord g.fkey 6 (bytesOf 4 (s.teamOf g.team).index ++ bytesOf 1 g.index)

/-- Finish the trap being taken: the records are written, then the handler is entered, or the team ends (R127, R128). -/
def finishTrap (s : State) : State :=
  let g := s.g
  let ready (s : State) : State :=
    if g.dying then s.killTeam g.team
    else match g.handler with
      | some h => s.enterHandler g.pendX h
      | none => s.killTeam g.team
  if g.recs.isEmpty then ready s
  else if g.faultArea = 0 || g.blockFailed then s.unwritableBlock
  else
    match s.writeRecs s.faultBlock g.recs with
    | (s, .ok _) => ready (s.modG (fun g => { g with recs := [], wait := .ready }))
    | (s, .wait f p) => (s.modG (fun g => { g with wait := .faultBlock f p })).requestPage f p .store
    | (s, .bad _) => s.unwritableBlock

/-- Take a trap with its X registers. In handler state, or with no handler, the team ends and the group record is
written first (R123, R126, R128). The offset stays at the trapping offset. -/
def takeTrap (s : State) (xs : List Word) : State :=
  let g := s.g
  let last := g.frame.isSome || g.handler.isNone
  let rcd := match g.frame with
    | some f => groupRecord xs f.exec f.offset f.joins.length
    | none => groupRecord xs g.exec g.offset g.joins.length
  let g := { g with pendX := xs, dying := last, recs := if last then g.recs ++ [(1024, 64, rcd)] else g.recs, replays := [] }
  let s := s.setG g
  { s.finishTrap with iss := { s.iss with moved := true, trapped := true } }

/-- A precise trap of the current issue (R58, R119): kind, field and X7's upper half. -/
def trapAt (s : State) (kind field : Nat) (mask : DWord) (x7hi : Nat) : State :=
  let low := lowPlane s.iss.planes
  s.takeTrap (trapX kind field (s.iss.word.toNat / 2 ^ 25) s.iss.word.toNat s.g.offset mask
    (fetchAddr s.g low s.g.offset % 2 ^ 48) x7hi s.iss.planes low)

/-- Kind 0x19, from the faults gathered at an offset or over a replay (R121, R184). -/
def takeLaneTrap (s : State) : State :=
  match s.g.faults with
  | none => s
  | some f =>
    let xs := trapX 0x19 0 (f.word.toNat / 2 ^ 25) f.word.toNat s.g.offset f.lanes f.addr.toNat 0 f.planes f.low.toNat
    (s.modG (fun g => { g with faults := none })).takeTrap xs

/-- Return from a trap (R125): the frame's state comes back, the latches drop; `next`: at the offset after the frame's. -/
def trapReturn (s : State) (f : Frame) (next : Bool) : State :=
  (s.modG (fun g => { g with exec := f.exec, nest := f.nest, plane := f.plane, joins := f.joins, latValid := 0,
                             frame := none })).jump (if next then f.offset + 1 else f.offset)

/-! ### Team barriers (R44) -/

/-- Every group of the team has arrived at barrier `b`, exited groups counting as arrived. -/
def barrierFull (s : State) (t b : Nat) : Bool :=
  (s.teamGroups t).all (fun k => ((s.teamOf t).bars.get b []).contains (s.group k).index)

/-! ### The range scoreboard (R172, R241) -/

/-- Does byte `a` of the core's local store still belong to an entry: for a chunked entry, only while its chunk's bit is
clear? -/
def entryHolds (s : State) (e : ScoreEntry) (a : Nat) : Bool :=
  decide (e.lo ≤ a) && decide (a < e.hi) &&
    (e.piece == 0 || !(((s.teamOf e.team).ops.get (e.handle.toNat % 128) {}).bitmap.getLsbD ((a - e.lo) / e.piece)))

/-- Does an access to bytes [lo, hi) conflict with an entry (R172)? Chunks are 16-byte multiples, so one byte in every
16 tells, and the ends. -/
def entryConflict (s : State) (e : ScoreEntry) (lo hi : Nat) (write : Bool) : Bool :=
  (write || e.write) && decide (lo < e.hi) && decide (e.lo < hi) &&
    (e.piece == 0 ||
      (List.range ((min hi e.hi - max lo e.lo + 15) / 16 + 1)).any (fun i => s.entryHolds e (min (max lo e.lo + 16 * i) (min hi e.hi - 1))))

/-- A conflict of a lane access with any pending entry of the core. -/
def scoreConflict (s : State) (ck lo hi : Nat) (write : Bool) : Bool :=
  (s.coreOf ck).score.any (fun e => s.entryConflict e lo hi write)

end State

end Sys2Proof.Machine
end

