-- ==== Sys2Proof/Machine/Operands.lean ====
section
/-! DEFINITION. Operand forms: what an operand field reads (R49, R51 to R53, R74), which registers an instruction uses,
the checks that depend on MODE and on the group (R55, R59, R60), instruction classes (R27, R37, R51), and how results
are written (R75, R40). -/

namespace Sys2Proof.Machine

open Sys2Proof

/-! ### Instruction classes -/

/-- An integer instruction whose operands are elements of MODE.ITYPE (R74). -/
def intClass (i : Instr) : Bool :=
  match i with
  | .iadd .. | .isub .. | .imul .. | .imulh .. | .imulhn .. | .imad .. | .iand .. | .ior .. | .ixor .. | .ishl ..
  | .ishr .. | .isar .. | .imin .. | .imax .. | .iminn .. | .imaxn .. | .inot .. | .ineg .. | .iabs .. | .popc ..
  | .clz .. | .brev .. | .sext8 .. | .sext16 .. | .iaddi .. | .ishli .. | .ishri .. | .isari .. | .iandi .. | .sel ..
  | .icmpeq .. | .icmpne .. | .icmplt .. | .icmple .. | .icmpltn .. | .icmplen .. | .rediadd .. | .redimax ..
  | .redimin .. | .redimaxn .. | .rediminn .. => true
  | _ => false

/-- A load, store or local or global atomic: D names data of MODE.MW's width (R53, R142). -/
def memClass (i : Instr) : Bool :=
  match i with
  | .ldl .. | .stl .. | .ldlf .. | .stle .. | .ldlp .. | .aladd .. | .ldg .. | .stg .. | .aadd .. | .amin ..
  | .amax .. | .aand .. | .aor .. | .axor .. | .axch .. | .afadd .. => true
  | _ => false

/-- ACAS and ALCAS: D and D + 1 (R53). -/
def casClass (i : Instr) : Bool :=
  match i with
  | .acas .. | .alcas .. => true
  | _ => false

/-- Skeleton instructions (R27). -/
def skeleton (i : Instr) : Bool :=
  match i with
  | .br .. | .brx .. | .call .. | .ret | .jmps .. | .cIf .. | .cElse .. | .cEndif | .yield .. | .tbar .. | .trap ..
  | .tret .. | .exit | .plset .. | .plsetv .. | .modelo .. | .modehi .. | .execw .. | .grow .. | .shrink .. | .waitc ..
  | .wbid .. | .copen .. => true
  | _ => false

/-- Lane-crossing instructions (R129). -/
def laneCrossing (i : Instr) : Bool :=
  match i with
  | .perm .. | .vidx .. | .vidxw .. | .bcast .. | .vread .. | .vwrite .. | .rediadd .. | .redimax .. | .redimin ..
  | .redimaxn .. | .rediminn .. | .redfadd .. | .redfmax .. | .redfmin .. | .pcnt .. => true
  | _ => false

/-- Engine commands (R231). -/
def engineCommand (i : Instr) : Bool :=
  match i with
  | .mloop .. | .mvec .. | .mzero .. | .mstore .. | .xst .. | .rotate .. | .copen .. => true
  | _ => false

/-- Instructions that act on handles, phases, fences and the Weir, and NESTR, which writes lanes outside its issue: none
of them is lane-private (R37, R117, R174, R175, R230). -/
def neverPrivate (i : Instr) : Bool :=
  match i with
  | .htest .. | .hcancel .. | .hmov .. | .chktest .. | .chkwait .. | .phase .. | .fence .. | .wres .. | .wrel ..
  | .nestr .. => true
  | _ => false

/-- Fields that hold an H code as a src or uni operand (R52): field number and register. -/
def hReads (i : Instr) : List (Nat × Nat) :=
  let f (n : Nat) (x : Option (OpClass × Operand)) : List (Nat × Nat) :=
    match x with
    | some (c, .h k) => if c == .src || c == .uni then [(n, k.val)] else []
    | _ => []
  let v := i.view
  let b := match i with
    | .cvt _ _ _ c => (match Operand.ofCode c with | .h k => [(3, k.val)] | _ => [])
    | _ => f 3 v.b
  f 1 v.d ++ f 2 v.a ++ b

/-- Scalar-class instructions (R51). FESET is judged by A alone. -/
def scalarClass (m : Word) (i : Instr) : Bool :=
  let v := i.view
  let uni (x : Option (OpClass × Operand)) : Bool :=
    match x with
    | some (c, o) => o.isUni && c != .han
    | none => true
  match i with
  | .feset _ a _ => a.isS
  | .cvt w d a b =>
    let narrowing := (NumType.ofCode (modeCto m)).bits < (NumType.ofCode (modeCfrom m)).bits
    !w && d.isS && a.isUni && (!narrowing || (Operand.ofCode b).isUni)
  | .hmov d _ => d.isS
  | .pcnt .. | .vread .. => false
  | _ =>
    match v.d with
    | some (_, o) => !v.w && o.isS && uni v.a && uni v.b
    | none => false

/-! ### Registers an instruction uses -/

/-- A register operand: its field, code and number of consecutive registers; `out`: written and not read. -/
structure RegUse where
  field : Nat
  op : Operand
  count : Nat
  out : Bool
  deriving DecidableEq, Repr

/-- Registers of a data operand of `n` bytes (R53). -/
def regsOf (n : Nat) : Nat := if n ≤ 4 then 1 else n / 4

/-- Width in registers of an operand field (R53, R74, R142). -/
def fieldCount (m : Word) (i : Instr) (field : Nat) (c : OpClass) : Nat :=
  match c with
  | .pair => 2
  | .blk => 8
  | _ =>
    if intClass i then (if modeItype m = 3 && c != .pred then 2 else 1)
    else if casClass i && field = 1 then 2
    else if memClass i && field = 1 then regsOf (modeBytes m)
    else 1

/-- Does the D field hold a source only? -/
def dIsSource (i : Instr) : Bool :=
  match i with
  | .stl .. | .stle .. | .stg .. | .feset .. | .vidxw .. => true
  | _ => false

/-- The registers of an instruction's fields. -/
def regUses (m : Word) (i : Instr) : List RegUse :=
  let v := i.view
  let f (n : Nat) (x : Option (OpClass × Operand)) : List RegUse :=
    match x with
    | some (c, o) =>
      if n == 1 && v.w && !v.readsD then []
      else [⟨n, o, fieldCount m i n c, n == 1 && !v.readsD && !dIsSource i⟩]
    | none => []
  let b := match i with
    | .cvt _ _ _ c =>
      if (NumType.ofCode (modeCto m)).bits < (NumType.ofCode (modeCfrom m)).bits then [⟨3, Operand.ofCode c, 1, false⟩] else []
    | _ => f 3 v.b
  let extra := match i with
    | .call _ => [⟨5, .s 31, 1, true⟩]
    | .ret => [⟨0, .s 31, 1, false⟩]
    | _ => []
  f 1 v.d ++ f 2 v.a ++ b ++ extra

/-- The lowest field naming a V register at or above the allotment (R42). -/
def rangeField (m : Word) (allot : Nat) (i : Instr) : Option Nat :=
  ((regUses m i).find? (fun u =>
    match u.op with
    | .v n => decide (allot < n.val + u.count)
    | _ => false)).map RegUse.field

/-- The lowest field naming an invalid latch (R41). -/
def latchField (m : Word) (valid : BitVec 4) (i : Instr) : Option Nat :=
  ((regUses m i).find? (fun u =>
    match u.op with
    | .l n => !valid.getLsbD n.val
    | _ => false)).map RegUse.field

/-! ### Checks that depend on MODE and on the group (R55, R59, R60) -/

/-- A register operand of `k` registers that is not aligned (R53). -/
def misaligned (o : Operand) (k : Nat) : Bool :=
  match o with
  | .v n => n.val % k != 0
  | .s n => n.val % k != 0
  | _ => false

/-- Kind 0x08 under ITYPE I64 (R74). -/
def bad64 (i : Instr) : Option Nat :=
  let v := i.view
  let bad (x : Option (OpClass × Operand)) : Bool :=
    match x with
    | some (_, o) => misaligned o 2 || o.isL
    | none => false
  if (!v.w || v.readsD) && bad v.d then some 1
  else if bad v.a then some 2
  else if bad v.b then some 3
  else if v.w then some 6
  else none

/-- Kind 0x08 on the memory instructions: widths (R145, R146, R176) and alignment of the data registers (R53, R142). -/
def badMw (m : Word) (i : Instr) (d : Operand) : Option Nat :=
  let mw := modeMw m
  match i with
  | .aladd .. | .aadd .. | .amin .. | .amax .. | .aand .. | .aor .. | .axor .. | .axch .. =>
    if mw = 4 then some 0 else if misaligned d (regsOf (modeBytes m)) then some 1 else none
  | .alcas .. | .acas .. => if 3 ≤ mw then some 0 else if misaligned d 2 then some 1 else none
  | .afadd .. => if mw ≠ 2 || 2 < modeFtype m then some 0 else none
  | _ => if misaligned d (regsOf (modeBytes m)) then some 1 else none

/-- Kind 0x08 on CVT (R60). -/
def badCvt (m : Word) (d : Operand) (w : Bool) (b : BitVec 8) : Option Nat :=
  let wf := (NumType.ofCode (modeCfrom m)).bits
  let wt := (NumType.ofCode (modeCto m)).bits
  if 2 * wf < wt || 2 * wt < wf then some 0
  else if wt < wf then
    let o := Operand.ofCode b
    if OpClass.accepts .src o && (w || !d.isS || o.isUni) then none else some 3
  else if wf < wt then (if b.toNat ≤ 1 then none else some 3)
  else if b = 0 then none else some 3

/-- The lowest kind that an instruction breaks under MODE `m` in a group of `width` lanes, and its field: a lane
immediate (kind 0x06), a reserved MODE value (0x07), an operand invalid under MODE (0x08). -/
def dynIllegal (m : Word) (width : Nat) (i : Instr) : Option Reject :=
  let d := match i.view.d with | some (_, o) => o | none => .zero
  match i with
  | .bcast _ _ _ k | .vread _ _ k | .vwrite _ _ k => if width ≤ k.toNat then some ⟨6, 3⟩ else none
  | .modelo k => if modeReserved (m.extractLsb' 16 16 ++ k) then some ⟨7, 4⟩ else none
  | .modehi k => if modeReserved (k ++ m.extractLsb' 0 16) then some ⟨7, 4⟩ else none
  | .cvt w d _ b => (badCvt m d w b).map (⟨8, ·⟩)
  | _ =>
    if intClass i then (if modeItype m = 3 then (bad64 i).map (⟨8, ·⟩) else none)
    else if memClass i || casClass i then (badMw m i d).map (⟨8, ·⟩)
    else none

/-- Bits [31:16] of X7 for an illegal encoding (R61). -/
def illegalX7 (m : Word) (kind : Nat) (word : Word) : Nat :=
  if kind = 7 then word.toNat % 2 ^ 16 else if kind = 8 then m.toNat / 2 ^ 16 else 0

namespace State

/-! ### Reading operands -/

/-- The entry of the team's operation table that a handle names (R222). -/
def opEntry (s : State) (h : Word) : OpEntry := s.team.ops.get (h.toNat % 128) {}

/-- A stale handle (R223). -/
def stale (s : State) (h : Word) : Bool :=
  let cls := bits h.toNat 28 4
  h != 0 && (cls == 0 || decide (7 ≤ cls) || bits h.toNat 24 4 != 0 || bits h.toNat 16 8 != s.team.gen.toNat
    || (s.opEntry h).handle != h)

/-- The completion word that the current issue has waited for (R224). -/
def gotWord (s : State) (h : Word) : Option Word := (s.iss.got.find? (fun p => p.1 == h)).map Prod.snd

/-- The operation of a handle is complete; the null handle's is. -/
def opDone (s : State) (h : Word) : Bool := h == 0 || (s.gotWord h).isSome || !(s.opEntry h).pending

/-- The completion word a handle reads as (R68, R224). -/
def opWord (s : State) (h : Word) : Word := if h = 0 then 0 else (s.gotWord h).getD (s.opEntry h).word

/-- A source operand in a lane (R49). -/
def rd (s : State) (o : Operand) (l : Nat) : Word :=
  match o with
  | .v n => s.g.vr n.val l
  | .s n => s.g.sr n.val
  | .l n => s.g.latch n.val l
  | .lane => BitVec.ofNat 32 l
  | .zero => 0
  | .h n => s.opWord (s.g.h.get n.val 0)
  | .p n => if s.g.pred n.val l then 1 else 0
  | .x n => s.g.x.get n.val 0
  | .rsv _ => 0

/-- Register `k` after the one an operand names; other sources supply zero above their 32 bits (R74). -/
def rdAt (s : State) (o : Operand) (l k : Nat) : Word :=
  match o with
  | .v n => s.g.vr (n.val + k) l
  | .s n => s.g.sr (n.val + k)
  | _ => if k = 0 then s.rd o l else 0

/-- A 64-bit operand (R53, R74). -/
def rd64 (s : State) (o : Operand) (l : Nat) : DWord := s.rdAt o l 1 ++ s.rdAt o l 0

/-- A 128-bit operand (R53, R142). -/
def rd128 (s : State) (o : Operand) (l : Nat) : BitVec 128 :=
  s.rdAt o l 3 ++ s.rdAt o l 2 ++ s.rdAt o l 1 ++ s.rdAt o l 0

/-- The 64-bit value of the S pair an operand names. -/
def rdPair (s : State) (o : Operand) : DWord :=
  match o with
  | .s n => s.g.pair n.val
  | _ => 0

/-- The number of the H register an operand names. -/
def hNum (o : Operand) : Nat :=
  match o with
  | .h n => n.val
  | _ => 0

/-- The handle that an h field names. -/
def hVal (s : State) (o : Operand) : Word := s.g.h.get (hNum o) 0

/-! ### Writing results -/

/-- A register write in a lane; only V and S codes are destinations (R49). -/
def putReg (g : Group) (d : Operand) (wide : Bool) (l : Nat) (x : DWord) : Group :=
  match d with
  | .v n =>
    let g := g.setV n.val l (x.setWidth 32)
    if wide then g.setV (n.val + 1) l (x.extractLsb' 32 32) else g
  | .s n => if wide then g.setPair n.val x else g.setS n.val (x.setWidth 32)
  | _ => g

/-- A lane result (R75, R40): L0 of the coming shift takes it in guarded lanes and zero in the issue's other lanes, and
with W = 0 the guarded lanes of D are written. -/
def laneResult (s : State) (w : Bool) (d : Operand) (wide : Bool) (f : Nat → DWord) : State :=
  let gm := s.guarded
  let ls := lanesOf s.iss.mask
  let l0 := ls.foldl (fun t l => t.set l (if gm.getLsbD l then (f l).setWidth 32 else 0)) s.iss.l0
  let g := if w then s.g else (ls.filter (fun l => gm.getLsbD l)).foldl (fun g l => putReg g d wide l (f l)) s.g
  { (s.setG g) with iss := { s.iss with l0 := l0, res := s.iss.res || !ls.isEmpty } }

/-- A scalar-class result (R73). -/
def scalarResult (s : State) (d : Operand) (wide : Bool) (x : DWord) : State := s.setG (putReg s.g d wide 0 x)

/-- A result by class (R51): scalar with W = 0 and an S code in D, else by lanes. -/
def result (s : State) (w : Bool) (d : Operand) (wide : Bool) (f : Nat → DWord) : State :=
  if !w && d.isS then s.scalarResult d wide (f 0) else s.laneResult w d wide f

/-- Vector writes without a lane result, in the lanes of a mask (PLGET, NESTR). -/
def plainWrite (s : State) (d : Operand) (m : DWord) (f : Nat → Word) : State :=
  s.setG ((lanesOf m).foldl (fun g l => putReg g d false l ((f l).setWidth 64)) s.g)

/-- A predicate written in the guarded lanes of the issue (R79, R80). -/
def predResult (s : State) (d : Operand) (f : Nat → Bool) : State :=
  match d with
  | .p n => s.setG (s.g.setPred n.val s.guarded (maskOf ((lanesOf s.guarded).filter f)))
  | _ => s

end State

end Sys2Proof.Machine
end

