-- ==== Sys2Proof/Machine/Flags.lean ====
section
/-! DEFINITION. What the machine has in place of flags: the relations of the compares (R79), the branch and select
decisions (R81, R107), and the elements they are taken over (R74, R90). -/

namespace Sys2Proof.Machine

open Sys2Proof

/-- A relation between two elements of width `w`. -/
abbrev IntRel := (w : Nat) → BitVec w → BitVec w → Bool

def relEq : IntRel := fun _ x y => x == y
def relNe : IntRel := fun _ x y => x != y
def relLt : IntRel := fun _ x y => x.slt y
def relLe : IntRel := fun _ x y => x.sle y
def relLtn : IntRel := fun _ x y => x.ult y
def relLen : IntRel := fun _ x y => x.ule y

/-- Element `e` of width `w`. -/
def elem (w : Nat) (x : DWord) (e : Nat) : BitVec w := x.extractLsb' (w * e) w

/-- The relation holds in every element (R79). -/
def allElems (itype : Nat) (r : IntRel) (a b : DWord) : Bool :=
  match itype with
  | 0 => r 32 (elem 32 a 0) (elem 32 b 0)
  | 1 => (List.range 2).all (fun e => r 16 (elem 16 a e) (elem 16 b e))
  | 2 => (List.range 4).all (fun e => r 8 (elem 8 a e) (elem 8 b e))
  | _ => r 64 a b

/-- The element format of MODE.FTYPE (R69, R90). -/
def ftypeFmt (n : Nat) : Fmt :=
  match n with
  | 1 => .bf16
  | 2 => .f16
  | 3 => .e4m3
  | 4 => .e5m2
  | _ => .f32

/-- Element `e` of a 32-bit register in a format. -/
def fElem (f : Fmt) (x : Word) (e : Nat) : Nat := x.toNat / 2 ^ (f.bits * e) % 2 ^ f.bits

/-- Number of elements of a format in a register. -/
def fCount (f : Fmt) : Nat := 32 / f.bits

/-- A relation between the values of two elements. -/
abbrev FltRel := Val → Val → Bool

def frelEq : FltRel := fun x y => x.eqv y
def frelNe : FltRel := fun x y => !x.eqv y
def frelLt : FltRel := fun x y => x.lt y
def frelLe : FltRel := fun x y => x.lt y || x.eqv y
def frelUn : FltRel := fun x y => x.isNan || y.isNan

/-- The relation holds in every element (R79). -/
def allFElems (f : Fmt) (r : FltRel) (a b : Word) : Bool :=
  (List.range (fCount f)).all (fun e => r (f.value (fElem f a e)) (f.value (fElem f b e)))

namespace State

/-- An integer compare (R79). -/
def icmp (s : State) (d a b : Operand) (r : IntRel) : State :=
  s.predResult d (fun l => allElems (modeItype s.g.mode) r (s.rd64 a l) (s.rd64 b l))

/-- A floating compare (R79). -/
def fcmp (s : State) (d a b : Operand) (r : FltRel) : State :=
  s.predResult d (fun l => allFElems (ftypeFmt (modeFtype s.g.mode)) r (s.rd a l) (s.rd b l))

/-- A predicate operation (R80). -/
def predOp (s : State) (d a b : Operand) (f : Bool → Bool → Bool) : State :=
  s.predResult d (fun l => f (s.rd a l != 0) (s.rd b l != 0))

/-- The branch decision over a set of lanes (R81, R107): some lane has P[BP] true, or BP is P7. -/
def branchTaken (s : State) (lanes : DWord) : Bool :=
  modeBp s.g.mode == 7 || (lanes &&& s.g.predMask (modeBp s.g.mode)) != 0

end State

end Sys2Proof.Machine
end

