-- ==== Sys2Proof/Machine/Handles.lean ====
section
/-! DEFINITION. Handles and completion of operations (R222 to R226), and the handle instructions (R228 to R230). -/

namespace Sys2Proof.Machine

open Sys2Proof

namespace State

/-- The engine record of a failed operation (R226). -/
def engineRecord (o : Origin) (word : Word) (addr team level : Nat) : List Byte :=
  bytesOf 4 o.handle.toNat ++ bytesOf 4 word.toNat ++ bytesOf 8 addr ++ bytesOf 4 o.offset.toNat ++ bytesOf 4 team
    ++ bytesOf 4 (o.group * 16 + level) ++ bytesOf 4 0

/-- A failure reported to the first member of the chain group, team, grid, function that still exists (R226). A record
that cannot be written into the fault block goes to the function's fault queue. -/
def reportFailure (s : State) (o : Origin) (word : Word) (addr : Nat) : State :=
  let t := s.teamOf o.team
  let g := s.group o.gkey
  let fkey := o.die * 8 + t.fn
  let kept := (s.fnOf fkey).saved.find? (fun x => x.uid == o.team)
  let inBlock (s : State) (g : Group) (at' level : Nat) : State :=
    let bs := engineRecord o word addr t.index level
    if g.faultArea = 0 then s.faultRecord fkey 1 bs
    else
      let a := (g.faultArea.toNat + 2048 * (16 * t.index + g.index) + at') % 2 ^ 64
      match s.vWrite g.die g.fn a bs with
      | (s, .ok _) => s
      | (s, .wait f p) => (s.holdWrite fkey (.block a bs) f p).requestPage f p .store
      | (s, .bad _) => s.faultRecord fkey 1 bs
  let mine := match kept with
    | some x => x.groups.find? (fun y => y.index == o.group)
    | none => if g.live && !g.exited && g.team == o.team then some g else none
  match mine with
  | some g => inBlock s g 1152 0
  | none =>
  if t.live || kept.isSome then
    inBlock s { die := t.die, fn := t.fn, index := 0, faultArea := BitVec.ofNat 64 (s.launch t.launch).rcd.faultArea } 1184 1
  else if (s.launch t.launch).live then
    (s.modLaunch t.launch (fun l => { l with bad := true })).faultRecord fkey 1 (engineRecord o word addr t.index 2)
  else s.faultRecord fkey 1 (engineRecord o word addr t.index 3)

/-- The tile that a matrix command acts on. -/
def mxTile (c : MxCmd) : Nat :=
  match c with
  | .mloop t .. => t
  | .mzero t _ => t
  | .mstore t .. => t

/-- The first matrix command on a tile of a core (R227). -/
def mxHead (s : State) (ck tile : Nat) : Option (Origin × MxCmd) :=
  (s.coreOf ck).mx.find? (fun p => mxTile p.2 == tile)

/-- A function's teams that wait to be placed or restored are looked at again (R210, R211, R219). -/
def kickPlace (s : State) (fkey : Nat) : State :=
  let s := if (s.fnOf fkey).saved.isEmpty then s else s.post (.teamRestore (fkey / 8) (fkey % 8))
  if (s.fnOf fkey).cursor.isSome then s.post (.teamPlacement (fkey / 8) (fkey % 8)) else s

/-- What waits for room on a core is looked at again: tiles still to be fired from its local store (R215), and teams of the
die's functions (R211). -/
def kickRoom (s : State) (ck : Nat) : State :=
  let s := (s.launches.flatMap (fun l => l.2.firing)).foldl (fun s t =>
    if (s.teamOf t).die * 512 + (s.teamOf t).core = ck then s.post (.exitFiredChunk t) else s) s
  (List.range 5).foldl (fun s f => s.kickPlace (ck / 512 * 8 + f)) s

/-- The copies of a list in ascending number of their function (R197). -/
def byFn (cs : List Copy) : List Copy := (List.range 5).flatMap (fun f => cs.filter (fun c => c.fn == f))

/-- The commands of a core's engines that may act now are looked at: the first on each tile, the first MVEC, its copies,
its ROTATEs; publishes that wait for transfers, and what waits for room. -/
def kickCore (s : State) (ck : Nat) : State :=
  let s := (List.range 8).foldl (fun s t =>
    match s.mxHead ck t with
    | some (_, .mloop ..) => s.post (.matrixStep ck t)
    | some (_, .mzero ..) => s.post (.mzeroCompletion ck t)
    | some (_, .mstore ..) => s.post (.mstoreWrite ck t)
    | none => s) s
  let s := if (s.coreOf ck).nm.isEmpty then s else s.post (.mvecOutputGroup ck)
  let s := (byFn (s.copies.filter (fun c => c.org.die * 512 + c.org.core == ck))).foldl (fun s c =>
    s.post (if c.keeper.isSome then .keeperChunk c.uid else .copyChunkAcceptance c.uid)) s
  let s := (s.coreOf ck).rt.foldl (fun s p => s.post (.rotationStart p.1.team)) s
  let s := s.groups.foldl (fun s p => if p.1 / 16 = ck then (match p.2.wait with
    | .publish _ _ _ => s.post (.publishCompletion p.1)
    | _ => s) else s) s
  s.kickRoom ck

/-- Scoreboard entries of a handle leave, of those that are picked (R173), those of a saved team too, and what they held back is
looked at again. -/
def dropEntries (s : State) (ck team : Nat) (h : Word) (pick : ScoreEntry → Bool) : State :=
  let own (e : ScoreEntry) : Bool := e.handle == h && e.team == team && pick e
  let t := s.teamOf team
  let away (x : SavedTeam) : SavedTeam := if x.uid = team then { x with score := x.score.filter (fun e => !own e) } else x
  let s := if (s.fnOf (t.die * 8 + t.fn)).saved.any (fun x => x.uid == team) then
      s.modFn (t.die * 8 + t.fn) (fun f => { f with saved := f.saved.map away })
    else s
  if (s.coreOf ck).score.any own then
    (s.modCore ck (fun c => { c with score := c.score.filter (fun e => !own e) })).kickCore ck
  else s

/-- A command's entries leave. -/
def dropScore (s : State) (ck team : Nat) (h : Word) : State := s.dropEntries ck team h (fun _ => true)

/-- Groups of a team that wait in YIELD on a handle come back (R112). -/
def wakeYield (s : State) (team : Nat) (h : Word) : State :=
  (s.teamGroups team).foldl (fun s k =>
    match (s.group k).wait with
    | .yield x _ => if x == h then s.post (.yieldResume k) else s
    | _ => s) s

/-- The groups of a team, saved or not, whose issue waits for a handle's operation have its completion word (R224, R229). -/
def tellReaders (s : State) (team : Nat) (h word : Word) : State :=
  let tell (g : Group) : Group :=
    match g.half with
    | some x => if x.iss.asked.contains h then { g with half := some { x with iss := { x.iss with got := x.iss.got ++ [(h, word)] } } } else g
    | none => g
  let s := (s.teamGroups team).foldl (fun s k => s.modGroup k tell) s
  let fkey := (s.teamOf team).die * 8 + (s.teamOf team).fn
  if (s.fnOf fkey).saved.any (fun x => x.uid == team) then
    s.modFn fkey (fun f => { f with saved := f.saved.map (fun x => if x.uid = team then { x with groups := x.groups.map tell } else x) })
  else s

/-- A grid looks again whether it is complete (R216). -/
def checkGrid (s : State) (launch : Nat) : State :=
  if (s.launch launch).live then s.post (.gridCompletion launch) else s

/-- The launch whose grid a team's accesses belong to: one that has flushed it keeps them under their number (R216, R219). -/
def launchOf (s : State) (team : Nat) : Nat := ((s.launches.find? (fun l => l.2.strays.contains team)).map Prod.fst).getD (s.teamOf team).launch

/-- An operation completes with a completion word; a failure is reported with the address at which it was met. -/
def completeOp (s : State) (o : Origin) (word : Word) (addr : Nat) : State :=
  let k := o.handle.toNat % 128
  let s := s.modTeam o.team (fun t =>
    let e := t.ops.get k {}
    if e.handle == o.handle then { t with ops := t.ops.set k { e with word := word, pending := false } } else t)
  let s := s.tellReaders o.team o.handle word
  let s := (s.dropScore (o.die * 512 + o.core) o.team o.handle).wakeYield o.team o.handle
  let s := if word.toNat / 2 ^ 24 == 2 then s.reportFailure o word addr else s
  s.checkGrid (s.teamOf o.team).launch

/-- A completion word with status and units (R224). -/
def doneWord (status units : Nat) : Word := BitVec.ofNat 32 (status * 2 ^ 24 + units % 2 ^ 24)
/-- A completion word of status 2 (R224, R225). -/
def failWord (reason units : Nat) : Word := BitVec.ofNat 32 (2 * 2 ^ 24 + reason * 2 ^ 16 + units % 2 ^ 16)

/-- The bitmap that CHKTEST and CHKWAIT read (R229). -/
def opBitmap (s : State) (h : Word) : DWord :=
  if h = 0 then BitVec.allOnes 64
  else if bits h.toNat 28 4 = 3 then (s.opEntry h).bitmap
  else if s.opDone h then BitVec.allOnes 64 else 0

/-- HCANCEL's request (R228): MLOOPs and MVECs stop before their next step, copies before their next chunk; other
operations go on. -/
def cancelOp (s : State) (team : Nat) (h : Word) : State :=
  let mine (o : Origin) : Bool := o.handle == h && o.team == team
  let ck := (s.teamOf team).die * 512 + (s.teamOf team).core
  let s := s.modCore ck (fun c => { c with
    mx := c.mx.map (fun p => if mine p.1 then
      (p.1, match p.2 with
        | .mloop t a b n ia ib fa fb r k d _ left => .mloop t a b n ia ib fa fb r k d true left
        | x => x) else p)
    nm := c.nm.map (fun p => if mine p.1 then (p.1, { p.2 with cancelled := true }) else p) })
  let s := if (s.coreOf ck).nm.any (fun p => mine p.1) then s.post (.mvecOutputGroup ck) else s
  (s.copies.filter (fun c => mine c.org)).foldl (fun s c =>
    (s.post (.copyChunkAcceptance c.uid)).post (.keeperChunk c.uid))
    { s with copies := s.copies.map (fun c => if mine c.org then { c with cancelled := true } else c) }

end State

/-- HTEST (R228). -/
def execHtest (d a : Operand) (s : State) : Res := .next (s.predResult d (fun _ => s.opDone (s.hVal a)))

/-- HCANCEL (R228): nothing on a complete or null handle. -/
def execHcancel (a : Operand) (s : State) : Res :=
  if s.opDone (s.hVal a) then .next s else .next (s.cancelOp s.g.team (s.hVal a))

/-- HMOV (R228): to an S register the handle value, to an H register the value of an S register. -/
def execHmov (d a : Operand) (s : State) : Res :=
  match d with
  | .h n => .next (s.modG (fun g => { g with h := g.h.set n.val (s.rd a 0) }))
  | _ => .next (s.setG (State.putReg s.g d false 0 ((s.hVal a).setWidth 64)))

/-- CHKTEST (R229). -/
def execChktest (d a b : Operand) (s : State) : Res :=
  .next (s.predResult d (fun _ => s.opBitmap (s.hVal a) &&& s.rdPair b == s.rdPair b))

/-- CHKWAIT (R229): the group waits at issue until the chunks stand or the operation is complete. -/
def execChkwait (a b : Operand) (s : State) : Res :=
  if s.opDone (s.hVal a) || s.opBitmap (s.hVal a) &&& s.rdPair b == s.rdPair b then .next s
  else .next s.holdIssue

end Sys2Proof.Machine
end

