-- ==== Sys2Proof/Machine/Control.lean ====
section
/-! DEFINITION. MODE, allotment, branches, divergence, waiting, planes and masks, traps, time and counters: the control
instructions (R48, R71, R72, R84 to R87, R107 to R118, R124, R125, R193, R194, R198). -/

namespace Sys2Proof.Machine

open Sys2Proof

/-- A signed offset field added to the instruction's offset, modulo 2^24 (R47). -/
def relOff {n : Nat} (here : Off) (f : BitVec n) : Off := here + f.signExtend 24

/-- EXEC as it acts: all ones in handler state (R123). -/
def Group.liveExec (g : Group) : DWord := if g.frame.isSome then g.all else g.exec

/-- Lanes that no join-stack entry holds deferred. -/
def Group.notDeferred (g : Group) : DWord := g.all &&& ~~~g.deferred

/-- The nest counters with a lane function applied in the lanes not deferred. -/
def Group.mapNest (g : Group) (f : Nat → BitVec 8 → BitVec 8) : Group :=
  { g with nest := (lanesOf g.notDeferred).foldl (fun t l => t.set l (f l (g.nest.get l 0))) g.nest }

/-- NOP (R48). -/
def execNop (s : State) : Res := .next s

/-! ### MODE (R71, R72) -/

namespace State

/-- A MODE write, or the trap for a reserved value (R59, R71). -/
def writeMode (s : State) (m : Word) (imm : BitVec 16) : State :=
  if modeReserved m then s.trapAt 7 4 s.iss.mask imm.toNat
  else s.modG (fun g => { g with mode := m })

end State

def execModelo (k : BitVec 16) (s : State) : Res := .next (s.writeMode (s.g.mode.extractLsb' 16 16 ++ k) k)
def execModehi (k : BitVec 16) (s : State) : Res := .next (s.writeMode (k ++ s.g.mode.extractLsb' 0 16) k)
def execModer (d : Operand) (s : State) : Res := .next (s.scalarResult d false (s.g.mode.setWidth 64))

/-! ### Branches (R107 to R109) -/

def execBr (o : BitVec 24) (s : State) : Res :=
  if s.branchTaken s.iss.mask then .next (s.jump (relOff s.g.offset o)) else .next s

/-- BRX (R33, R109). -/
def execBrx (t v : BitVec 12) (s : State) : Res :=
  let g := s.g
  let p := g.predMask (modeBp g.mode)
  let taken := s.iss.mask &&& p
  let rest := s.iss.mask &&& ~~~p
  let target := relOff g.offset t
  if taken = 0 then .next s
  else if rest = 0 then .next (s.jump target)
  else if 16 ≤ g.joins.length then .next (s.trapAt 0x13 0 s.iss.mask 0)
  else .next ((s.setG { g with joins := ⟨rest, false, g.offset + 1, relOff g.offset v⟩ :: g.joins }).jump target)

def execCall (o : BitVec 24) (s : State) : Res :=
  .next ((s.modG (fun g => g.setS 31 ((g.offset + 1).setWidth 32))).jump (relOff s.g.offset o))
def execRet (s : State) : Res := .next (s.jump ((s.g.sr 31).setWidth 24))
def execJmps (a : Operand) (s : State) : Res := .next (s.jump ((s.rd a 0).setWidth 24))

/-! ### Structured divergence (R31, R32, R110) -/

namespace State

/-- After IF and ELSE: to the partner when no lane is enabled (R110). -/
def skipIfNone (s : State) (f : BitVec 24) : State :=
  if s.g.enabled = 0 then s.jump (s.g.offset + f) else s

end State

/-- Lanes whose counter an IF would take past 255 (R32). -/
def nestOverflow (g : Group) : List Nat := (lanesOf g.notDeferred).filter (fun l => g.nest.get l 0 == 255)

def execCIf (f : BitVec 24) (s : State) : Res :=
  let g := s.g
  let past := nestOverflow g
  if past.isEmpty then
    let p := g.liveExec &&& g.predMask (modeBp g.mode)
    .next ((s.setG (g.mapNest (fun l n => if n = 0 then (if p.getLsbD l then 0 else 1) else n + 1))).skipIfNone f)
  else
    let recs := past.map (fun l => (16 * l, 16,
      State.laneRecord 7 (s.iss.word.toNat / 2 ^ 25) l (g.plane.get l 0).toNat g.offset.toNat 0))
    .next ((s.setG { g with recs := g.recs ++ recs }).trapAt 0x12 0 (maskOf past) 0)

def execCElse (f : BitVec 24) (s : State) : Res :=
  .next ((s.setG (s.g.mapNest (fun _ n => if n = 0 then 1 else if n = 1 then 0 else n))).skipIfNone f)

def execCEndif (s : State) : Res :=
  .next (s.setG (s.g.mapNest (fun _ n => if n = 0 then 0 else n - 1)))

/-! ### Waiting and leaving (R112 to R114) -/

/-- YIELD (R112). -/
def execYield (d : Operand) (k : BitVec 16) (s : State) : Res :=
  let h := s.hVal d
  let cont := relOff s.g.offset k
  if s.stale h then .next (s.trapAt 0x18 1 s.iss.mask 0)
  else
    let s := s.modG Group.dropLatches
    if s.opDone h then .next (s.jump cont)
    else .next ((s.modG (fun g => { g with wait := .yield h cont })).jump s.g.offset)

namespace State

/-- A barrier that every group has reached completes (R44). -/
def checkBarrier (s : State) (t b : Nat) : State :=
  if s.barrierFull t b && !((s.teamOf t).bars.get b []).isEmpty then s.post (.teamBarrierCompletion t b) else s

/-- Waiting GROWs of a core are looked at again (R87). -/
def checkGrow (s : State) (ck : Nat) : State :=
  if (s.coreOf ck).growQ.isEmpty then s else s.post (.growGrant ck)

/-- Every barrier of a team that has arrivals is looked at again. -/
def checkBarriers (s : State) (t : Nat) : State :=
  (List.range 16).foldl (fun s b => s.checkBarrier t b) s

end State

/-- TBAR (R113): the group arrives and stops issuing until the barrier completes. -/
def execTbar (i : BitVec 8) (s : State) : Res :=
  let g := s.g
  let s := s.setG { g with latValid := 0, wait := .bar i.toNat }
  let s := s.modTeam g.team (fun t => { t with bars := t.bars.set i.toNat (t.bars.get i.toNat [] ++ [g.index]) })
  .next (s.checkBarrier g.team i.toNat)

/-- EXIT (R114): the context is released, and a team that waits for it is looked at (R211); the last group's exit ends the team
(R214). -/
def execExit (s : State) : Res :=
  let g := s.g
  let s := s.modG (fun g => { g with live := false, exited := true, wait := .ready })
  let s := s.modTeam g.team (fun t => { t with gone := t.gone ++ [s.cur] })
  let s := { s with iss := { s.iss with moved := true } }
  let s := (s.checkBarriers g.team).checkGrow g.ckey
  if (s.teamGroups g.team).isEmpty then .next (s.post (.teamEnd g.team)) else .next (s.kickPlace g.fkey)

/-! ### Planes and masks (R115 to R118) -/

/-- PLSET (R115). -/
def execPlset (i : BitVec 8) (s : State) : Res :=
  if s.g.np ≤ i.toNat then .next (s.trapAt 0x1A 0 s.iss.mask 0)
  else
    let m := s.guarded &&& s.g.predMask (modeBp s.g.mode)
    .next (s.modG (fun g => { g with plane := (lanesOf m).foldl (fun t l => t.set l (i.setWidth 3)) g.plane }))

/-- PLSETV (R116): a lane whose value is out of range faults. -/
def execPlsetv (a : Operand) (s : State) : Res :=
  let ls := lanesOf s.guarded
  let ok (l : Nat) : Bool := decide ((s.rd a l).toNat < s.g.np)
  let r := (ls.filter (fun l => !ok l)).foldl (fun t l => t.laneFault l 6 0) s
  .next (r.modG (fun g => { g with plane := (ls.filter ok).foldl (fun t l => t.set l ((s.rd a l).setWidth 3)) g.plane }))

def execPlget (d : Operand) (s : State) : Res :=
  .next (s.plainWrite d s.guarded (fun l => (s.g.plane.get l 0).setWidth 32))

/-- The lanes that NESTR writes (R117): in handler state every guarded lane. -/
def State.nestrLanes (s : State) : DWord :=
  let g := s.g
  (if g.frame.isSome then g.all else g.exec &&& g.notDeferred &&& ~~~g.parked) &&& g.predMask (modeGp g.mode)

/-- NESTR (R117): whatever the nest counter; in handler state the frame's counters, in every guarded lane. With no
enabled lane nothing is written (R36). -/
def execNestr (d : Operand) (s : State) : Res :=
  let g := s.g
  if s.iss.mask = 0 then .next s
  else match g.frame with
    | some f => .next (s.plainWrite d s.nestrLanes (fun l => (f.nest.get l 0).setWidth 32))
    | none => .next (s.plainWrite d s.nestrLanes (fun l => (g.nest.get l 0).setWidth 32))

/-- EXECW (R118): in handler state the frame's EXEC. -/
def execExecw (a : Operand) (s : State) : Res :=
  let x := s.rdPair a &&& s.g.all
  .next (s.modG (fun g => match g.frame with
    | some f => { g with frame := some { f with exec := x } }
    | none => { g with exec := x }))

def execExecr (d : Operand) (s : State) : Res :=
  let x := match s.g.frame with | some f => f.exec | none => s.g.exec
  .next (s.scalarResult d true (x &&& s.g.all))

/-! ### Traps (R124, R125) -/

def execTrap (i : BitVec 8) (s : State) : Res := .next (s.trapAt 0x10 i.toNat s.iss.mask 0)

def execTret (i : BitVec 8) (s : State) : Res :=
  match s.g.frame with
  | none => .next (s.trapAt 0x1B 0 s.iss.mask 0)
  | some f => .next (s.trapReturn f (i == 1))

/-! ### Allotment (R84 to R87) -/

/-- Physical lanes of a group (R22). -/
def Group.lanes (g : Group) : List Nat := (List.range g.width).map (fun l => 8 * g.octet + l)

/-- Do two groups share a physical lane? -/
def Group.overlaps (g k : Group) : Bool :=
  decide (8 * g.octet < 8 * k.octet + k.width) && decide (8 * k.octet < 8 * g.octet + g.width)

namespace State

/-- The live groups of a core. -/
def groupsOn (s : State) (ck : Nat) : List (Nat × Group) := s.groups.filter (fun p => p.2.live && p.2.ckey == ck)

/-- Registers taken on a physical lane of a core (R42). -/
def laneUse (s : State) (ck lane : Nat) : Nat :=
  ((s.groupsOn ck).filter (fun p => decide (8 * p.2.octet ≤ lane) && decide (lane < 8 * p.2.octet + p.2.width))).foldl
    (fun n p => n + p.2.allot) 0

/-- `n` more registers are free on every physical lane of a group. -/
def lanesFree (s : State) (g : Group) (n : Nat) : Bool :=
  g.lanes.all (fun l => decide (s.laneUse g.ckey l + n ≤ 1024))

/-- An outstanding load or atomic that returns a value targets one of the V registers [lo, hi) of a group. -/
def loadInto (s : State) (gk lo hi : Nat) : Bool :=
  let t := (s.group gk).team
  s.loads.any (fun l => l.gkey == gk && l.team == t && !l.scalar && decide (lo < l.dst + regsOf l.n) && decide (l.dst < hi))
    || s.reqs.any (fun r => r.gkey == gk && r.team == t && !r.scalar
        && r.ret && decide (lo < r.dst + regsOf r.n) && decide (r.dst < hi))
    || s.feWaits.any (fun w => w.gkey == gk && w.team == t && !w.scalar && w.kind != .stle
        && decide (lo < w.dst + regsOf w.n) && decide (w.dst < hi))

/-- The registers a GROW adds, zero in every lane. -/
def zeroRegs (g : Group) (lo n : Nat) : Group :=
  { g with v := g.v.filter (fun p => !(decide (64 * lo ≤ p.1) && decide (p.1 < 64 * (lo + n)))) }

/-- A GROW granted (R84). -/
def doGrow (s : State) (gk n : Nat) : State :=
  let g := s.group gk
  s.setGroup gk { zeroRegs g g.allot n with allot := g.allot + n, latValid := 0, wait := .ready }

/-- Does a GROW of this group have to stand behind an earlier waiting one on common lanes (R87)? -/
def growBehind (s : State) (g : Group) (q : List Nat) : Bool := q.any (fun k => (s.group k).overlaps g)

end State

/-- GROW (R84): done at once where the space is free and no earlier GROW waits for the same lanes. -/
def execGrow (i : BitVec 8) (s : State) : Res :=
  let g := s.g
  let n := 16 * i.toNat
  if 192 < g.allot + n then .next (s.trapAt 0x16 0 s.iss.mask 0)
  else if s.lanesFree g n && !s.growBehind g (s.coreOf g.ckey).growQ then .next (s.doGrow s.cur n)
  else
    let s := s.modCore g.ckey (fun c => { c with growQ := c.growQ ++ [s.cur] })
    .next ((s.setG { g with wait := .grow n }).jump g.offset)

/-- SHRINK (R85). -/
def execShrink (i : BitVec 8) (s : State) : Res :=
  let g := s.g
  let n := 16 * i.toNat
  if g.allot < 16 + n then .next (s.trapAt 0x16 0 s.iss.mask 0)
  else if s.loadInto s.cur (g.allot - n) g.allot then
    .next ((s.setG { g with wait := .shrink n }).jump g.offset)
  else .next (((s.setG { g with allot := g.allot - n }).checkGrow g.ckey).kickPlace g.fkey)

/-- GROW_GRANT (R87): waiting GROWs in the order in which they began; each that stands behind no earlier one and fits. -/
def execGrowGrant (ckey : Nat) (s : State) : Res :=
  let r := (s.coreOf ckey).growQ.foldl (fun (p : State × List Nat) k =>
    let s := p.1
    let g := s.group k
    match g.wait with
    | .grow n =>
      if !s.growBehind g p.2 && s.lanesFree g n then
        ((s.doGrow k n).modGroup k (fun g => g.advance 1), p.2)
      else (s, p.2 ++ [k])
    | _ => (s, p.2)) (s, [])
  .next (r.1.modCore ckey (fun c => { c with growQ := r.2 }))

/-- SHRINK_RELEASE (R85): the waited-for loads have written back. -/
def execShrinkRelease (gkey : Nat) (s : State) : Res :=
  let g := s.group gkey
  match g.wait with
  | .shrink n =>
    if s.loadInto gkey (g.allot - n) g.allot then .next s
    else .next (((s.setGroup gkey { g with allot := g.allot - n, wait := .ready, offset := g.offset + 1 }).checkGrow g.ckey).kickPlace g.fkey)
  | _ => .next s

/-! ### Time and counters (R193, R194, R198) -/

def execTime (d : Operand) (s : State) : Res := .next (s.scalarResult d true (s.die s.g.die).time)

namespace State

/-- The value of a counter (R198). -/
def counter (s : State) (n : Nat) : DWord :=
  let g := s.g
  let f := s.fnOf g.fkey
  match n with
  | 0 => BitVec.ofNat 64 (s.coreTime g.ckey - (s.coreOf g.ckey).zeroed)
  | 5 | 6 | 8 | 9 | 10 => (s.coreOf g.ckey).cnt.get n 0
  | 7 => f.cnt7
  | 13 => BitVec.ofInt 64 ((f.level : Int) - f.debt)
  | 14 => (s.die g.die).temp
  | _ => g.cnt.get n 0

end State

def execCntr (d : Operand) (i : BitVec 8) (s : State) : Res := .next (s.scalarResult d true (s.counter i.toNat))

/-! ### Events of waiting groups -/

/-- TEAM_BARRIER_COMPLETION (R44): the arrivals start past and every group that waits at the barrier goes on. A team that has been saved
since keeps its arrivals, and the barrier is looked at again at its restore. -/
def execTeamBarrierCompletion (team b : Nat) (s : State) : Res :=
  if (s.teamOf team).live && s.barrierFull team b then
    let s := s.modTeam team (fun t => { t with bars := t.bars.set b [] })
    .next ((s.teamGroups team).foldl (fun s k =>
      if (s.group k).wait = .bar b then s.setGroup k { s.group k with wait := .ready } else s) s)
  else .next s

/-- YIELD_RESUME (R112): the operation is complete; the group goes on at its continuation. -/
def execYieldResume (gkey : Nat) (s : State) : Res :=
  let g := s.group gkey
  match g.wait with
  | .yield h cont =>
    let e := (s.teamOf g.team).ops.get (h.toNat % 128) {}
    if e.handle == h && e.pending then .next s
    else .next (s.setGroup gkey { g with wait := .ready, offset := cont })
  | _ => .next s

end Sys2Proof.Machine
end

