-- ==== Sys2Proof/Machine/Local.lean ====
section
/-! DEFINITION. The local store: lane addresses and checks (R136), loads and their return (R142), full/empty waits (R138 to
R140), and the instructions of R141 to R147. -/

namespace Sys2Proof.Machine

open Sys2Proof

/-- A value of `n` bytes as it goes to registers: narrow values extended to 32 bits by MSX (R142). -/
def extendValue (m : Word) (n v : Nat) : BitVec 128 :=
  if n = 1 then (if modeMsx m then (((BitVec.ofNat 8 v).signExtend 32).setWidth 128) else BitVec.ofNat 128 v)
  else if n = 2 then (if modeMsx m then (((BitVec.ofNat 16 v).signExtend 32).setWidth 128) else BitVec.ofNat 128 v)
  else BitVec.ofNat 128 v

/-- Registers written with a value of `n` bytes. -/
def putValue (g : Group) (scalar : Bool) (dst lane n : Nat) (x : BitVec 128) : Group :=
  (List.range (regsOf n)).foldl (fun g i =>
    let w : Word := x.extractLsb' (32 * i) 32
    if scalar then g.setS (dst + i) w else g.setV (dst + i) lane w) g

/-- The register number of a destination operand. -/
def regNum (o : Operand) : Nat :=
  match o with
  | .v n => n.val
  | .s n => n.val
  | _ => 0

/-- A lane access to the local store: in the allocation and aligned, or a fault of a kind with its address (R136). -/
def localCheck (size n : Nat) (a : Int) : Except Nat Nat :=
  if a < 0 || (size : Int) < a + n then .error 1
  else if a.toNat % n ≠ 0 then .error 3
  else .ok a.toNat

/-- An address as the 64-bit number of a record. -/
def addr64 (a : Int) : Nat := (a % (2 ^ 64 : Nat)).toNat

/-- Core cycles that bank conflicts add (R137): the most distinct lines in one of 48 banks, less one. -/
def bankCycles (addrs : List Nat) : Nat :=
  let lines := (addrs.map (· / 16)).dedup
  (lines.foldl (fun m x => max m (lines.countP (fun y => y % 48 == x % 48))) 1) - 1

namespace State

/-- Is a path held back by a pending fence point (R175)? -/
def fenceHeld (s : State) (path : Nat) : Bool := s.g.fences.any (fun f => f.later.getLsbD path)

/-- The lanes that an access is made for: lane 0 for a scalar-class one (R159), the guarded lanes otherwise. -/
def accessLanes (s : State) (scalar : Bool) : List Nat := if scalar then [0] else lanesOf s.guarded

/-- A fault of an access, scalar or of a lane. -/
def accessFault (s : State) (scalar : Bool) (lane kind addr : Nat) : State := s.modG (fun g => g.accessFault s.iss scalar lane kind addr)

/-- The address of R136 in a lane. -/
def localAddr (s : State) (a : Operand) (i : BitVec 8) (n l : Nat) : Int :=
  ((s.rd a l).toNat : Int) + i.toInt * n

/-- The accesses of a local-store instruction that pass R136: lane and byte address in the allocation. -/
def localGood (s : State) (ls : List Nat) (a : Operand) (i : BitVec 8) (n : Nat) : List (Nat × Nat) :=
  ls.filterMap (fun l => match localCheck s.team.lsSize n (s.localAddr a i n l) with
    | .ok x => some (l, x)
    | .error _ => none)

/-- The faults of the other accesses (R136). -/
def localFaults (s : State) (scalar : Bool) (ls : List Nat) (a : Operand) (i : BitVec 8) (n : Nat) : State :=
  ls.foldl (fun t l => match localCheck s.team.lsSize n (s.localAddr a i n l) with
    | .ok _ => t
    | .error k => t.accessFault scalar l k (addr64 (s.localAddr a i n l))) s

/-- Does any of the accesses meet a pending range of the scoreboard (R172)? -/
def localBlocked (s : State) (good : List (Nat × Nat)) (n : Nat) (write : Bool) : Bool :=
  good.any (fun p => s.scoreConflict s.g.ckey (s.team.lsBase + p.2) (s.team.lsBase + p.2 + n) write)

/-- Waiting lanes of a core are looked at again (R147). -/
def checkFe (s : State) (ck : Nat) : State :=
  if s.feWaits.any (fun w => (s.group w.gkey).ckey == ck) then s.post (.fullEmptyService ck) else s

/-- Covered words of bytes at a place made full (R138, R139). -/
def setFull (s : State) (loc n : Nat) : State := { s with empties := Empties.fill s.empties (loc / 4) ((loc + n + 3) / 4) }
/-- Covered words made empty. -/
def setEmpty (s : State) (loc n : Nat) : State :=
  { s with empties := Empties.drain s.empties (loc / 4) ((loc + n + 3) / 4 - loc / 4) }

/-- Every covered word is full (`full`), or every covered word is empty. -/
def coveredAre (s : State) (full : Bool) (loc n : Nat) : Bool :=
  (List.range ((loc + n + 3) / 4 - loc / 4)).all (fun i => s.empties.contains (loc / 4 + i) != full)

/-- A load that returns later (R142). -/
def addLoad (s : State) (scalar : Bool) (dst n : Nat) (parts : List LoadPart) : State :=
  if parts.isEmpty then s
  else
    let (u, s) := s.fresh
    let g := s.g
    let r : Load := { uid := u, gkey := s.cur, team := g.team, die := g.die, core := g.core, fn := g.fn, n, mode := g.mode,
                      scalar, dst, parts, replayed := s.iss.run != 0, word := s.iss.word, here := s.iss.here, planes := s.iss.planes }
    State.post { s with loads := s.loads ++ [r] } (.loadDataReturn u)

/-- The core cycles of bank conflicts (R137, R198 counter 8): the group's issue takes them. -/
def countBanks (s : State) (good : List (Nat × Nat)) : State :=
  let n := bankCycles (good.map Prod.snd)
  (s.modG (fun g => { g with busy := g.busy + n })).countC s.g.ckey 8 n

/-- LDL: the values stand at issue (R144) and go to the registers when they return. -/
def localLoad (s : State) (scalar : Bool) (d a : Operand) (i : BitVec 8) : State :=
  let n := modeBytes s.g.mode
  let ls := s.accessLanes scalar
  let good := s.localGood ls a i n
  if s.fenceHeld 0 || s.localBlocked good n false then s.holdIssue
  else
    let parts := good.map (fun p =>
      ({ lane := p.1, space := 0, loc := s.lsLoc p.2,
         value := some (extendValue s.g.mode n (s.natAt (s.lsLoc p.2) n)), expo := none } : LoadPart))
    ((s.localFaults scalar ls a i n).countBanks good).addLoad scalar (regNum d) n parts

/-- STL: performed at once, ascending lanes, the covered words full (R141 to R144). -/
def localStore (s : State) (scalar : Bool) (d a : Operand) (i : BitVec 8) : State :=
  let n := modeBytes s.g.mode
  let ls := s.accessLanes scalar
  let good := s.localGood ls a i n
  if s.fenceHeld 0 || s.localBlocked good n true then s.holdIssue
  else
    let t := good.foldl (fun t p => (t.storeNat (s.lsLoc p.2) 0 n (s.rd128 d p.1).toNat).setFull (s.lsLoc p.2) n)
      (s.localFaults scalar ls a i n)
    (t.countBanks good).checkFe s.g.ckey

/-- One waiting lane served: test, access and change of the covered bits are one step (R139). -/
def serveOne (s : State) (w : FeWait) : State :=
  let ready := match w.kind with
    | .stle => s.coveredAre false w.loc w.n
    | _ => s.coveredAre true w.loc w.n
  if !ready then s
  else
    let s := { s with feWaits := s.feWaits.filter (fun x => x != w) }
    let s := s.modGroup w.gkey (fun g => { g with served := g.served ||| laneBit w.lane })
    match w.kind with
    | .stle => (s.storeNat w.loc 0 w.n w.data.toNat).setFull w.loc w.n
    | k =>
      let v := extendValue w.mode w.n (s.natAt w.loc w.n)
      let s := if k = .ldlf then s.setEmpty w.loc w.n else s
      let g := s.group w.gkey
      let (u, s) := s.fresh
      let r : Load := { uid := u, gkey := w.gkey, team := w.team, die := g.die, core := g.core, fn := g.fn, n := w.n, mode := w.mode,
                        scalar := w.scalar, dst := w.dst, parts := [{ lane := w.lane, space := 0, loc := w.loc, value := some v, expo := none }] }
      State.post { s with loads := s.loads ++ [r] } (.loadDataReturn u)

/-- Do two waiting accesses that require the same state cover a common word? -/
def feOverlap (a b : FeWait) : Bool :=
  ((a.kind == .stle) == (b.kind == .stle)) && decide (a.loc / 4 < (b.loc + b.n + 3) / 4) && decide (b.loc / 4 < (a.loc + a.n + 3) / 4)

/-- Waiting lanes served in the order in which they began to wait: an access stands behind every earlier one on a word
that requires the same state of it (R140, log entry 20, DEDUCED). `seen` holds the earlier ones still waiting. -/
def servePass (s : State) (ck : Nat) (ws seen : List FeWait) : State :=
  match ws with
  | [] => s
  | w :: r =>
    if (s.group w.gkey).ckey != ck || seen.any (feOverlap w) then s.servePass ck r (seen ++ [w])
    else
      let t := s.serveOne w
      if t.feWaits.contains w then t.servePass ck r (seen ++ [w]) else t.servePass ck r seen

/-- Passes until nothing more can be served; each lane is served once, so as many passes as lanes wait are enough. -/
def serveAll (s : State) (ck : Nat) (fuel : Nat) : State :=
  match fuel with
  | 0 => s
  | k + 1 =>
    let t := s.servePass ck s.feWaits []
    if t.feWaits.length = s.feWaits.length then t else t.serveAll ck k

/-- Groups whose last waiting lane has been served go on; their served masks clear (R138, R140). -/
def releaseFe (s : State) : State :=
  s.groups.foldl (fun s p =>
    if p.2.wait = .fullEmpty && !s.feWaits.any (fun w => w.gkey == p.1) then
      s.setGroup p.1 { s.group p.1 with wait := .ready, served := 0 }
    else s) s

/-- A waiting lane put behind those that began to wait before it: in an earlier core cycle, or in the same one in a lower or the
same group context (R140). -/
def insertFe (l : List FeWait) (w : FeWait) : List FeWait :=
  match l with
  | [] => [w]
  | x :: r =>
    if x.gkey / 16 ≠ w.gkey / 16 || x.since < w.since || (x.since = w.since && x.gkey ≤ w.gkey) then x :: insertFe r w
    else w :: x :: r

/-- LDLF, STLE and LDLP: the lanes begin to wait in ascending order, and those that can be served are (R139 to R142). -/
def localWait (s : State) (kind : FeKind) (scalar : Bool) (d a : Operand) (i : BitVec 8) : State :=
  let n := modeBytes s.g.mode
  let ls := s.accessLanes scalar
  let good := s.localGood ls a i n
  if s.fenceHeld 0 || s.localBlocked good n (kind == .stle) then s.holdIssue
  else
    let ws := good.map (fun p =>
      ({ gkey := s.cur, team := s.g.team, lane := p.1, kind, loc := s.lsLoc p.2, n, mode := s.g.mode, scalar,
         dst := regNum d, data := s.rd128 d p.1, since := s.coreTime s.g.ckey } : FeWait))
    let t := (s.localFaults scalar ls a i n).countBanks good
    let t := { t with feWaits := ws.foldl insertFe t.feWaits }
    let t := (t.serveAll s.g.ckey (t.feWaits.length + 1)).releaseFe
    if t.feWaits.any (fun w => w.gkey == s.cur) then (t.modG (fun g => { g with wait := .fullEmpty })).holdIssue
    else t.modG (fun g => { g with served := 0 })

/-- A local atomic (R145, R146): `new` from the old value, the operand and D + 1; ascending lanes, each in one step. -/
def localAtomic (s : State) (w scalar : Bool) (d a : Operand) (i : BitVec 8) (new : Nat → Nat → Nat → Nat) : State :=
  let n := modeBytes s.g.mode
  let ls := s.accessLanes scalar
  let good := s.localGood ls a i n
  if s.fenceHeld 0 || s.localBlocked good n true then s.holdIssue
  else
    let r := good.foldl (fun (p : State × List LoadPart) x =>
      let loc := s.lsLoc x.2
      let old := p.1.natAt loc n
      let op := (if n = 8 then (s.rd64 d x.1).toNat else (s.rd d x.1).toNat) % 2 ^ (8 * n)
      let op2 := (s.rdAt d x.1 1).toNat % 2 ^ (8 * n)
      (p.1.storeNat loc 0 n (new old op op2 % 2 ^ (8 * n)),
       p.2 ++ [{ lane := x.1, space := 0, loc, value := some (extendValue s.g.mode n old), expo := none }]))
      ((s.localFaults scalar ls a i n).countBanks good, [])
    if w then r.1 else r.1.addLoad scalar (regNum d) n r.2

/-- The range of an FESET (R147): a fault of a kind, or the first byte. The checks are made for L = 0 too (log entry 65, DESIGN
CHOICE: whether "does nothing" comes before them is left open). -/
def fesetCheck (size a len : Nat) : Except Nat Nat :=
  if a % 4 ≠ 0 then .error 3 else if size < a + 4 * len then .error 1 else .ok a

end State

def execLdl (d a : Operand) (i : BitVec 8) (s : State) : Res := .next (s.localLoad d.isS d a i)
def execStl (d a : Operand) (i : BitVec 8) (s : State) : Res := .next (s.localStore (d.isS && a.isS) d a i)
def execLdlf (d a : Operand) (i : BitVec 8) (s : State) : Res := .next (s.localWait .ldlf d.isS d a i)
def execStle (d a : Operand) (i : BitVec 8) (s : State) : Res := .next (s.localWait .stle (d.isS && a.isS) d a i)
def execLdlp (d a : Operand) (i : BitVec 8) (s : State) : Res := .next (s.localWait .ldlp d.isS d a i)
def execAladd (w : Bool) (d a : Operand) (i : BitVec 8) (s : State) : Res :=
  .next (s.localAtomic w (!w && d.isS) d a i (fun old x _ => old + x))
def execAlcas (w : Bool) (d a : Operand) (i : BitVec 8) (s : State) : Res :=
  .next (s.localAtomic w (!w && d.isS) d a i (fun old x y => if old = x then y else old))

/-- FESET (R147): scalar-class on an S address; 192 words a core cycle. An empty range shares no byte with a scoreboard entry (R172). -/
def execFeset (d a : Operand) (full : Bool) (s : State) : Res :=
  let scalar := a.isS
  let ls := s.accessLanes scalar
  let len (l : Nat) : Nat := (s.rd d l).toNat
  let chk (l : Nat) : Except Nat Nat := State.fesetCheck s.team.lsSize (s.rd a l).toNat (len l)
  let hit (l : Nat) : Bool := match chk l with
    | .ok x => len l != 0 && s.scoreConflict s.g.ckey (s.team.lsBase + x) (s.team.lsBase + x + 4 * len l) true
    | .error _ => false
  if s.fenceHeld 0 || ls.any hit then .next s.holdIssue
  else
    let n := (ls.map (fun l => match chk l with
      | .ok _ => len l
      | .error _ => 0)).sum
    .next (((ls.foldl (fun t l => match chk l with
      | .error k => t.accessFault scalar l k (s.rd a l).toNat
      | .ok x =>
        if len l = 0 then t
        else if full then t.setFull (s.lsLoc x) (4 * len l) else t.setEmpty (s.lsLoc x) (4 * len l)) s).modG
      (fun g => { g with busy := g.busy + (n - 1) / 192 })).checkFe s.g.ckey)

/-- FULL_EMPTY_SERVICE (R139, R140). -/
def execFullEmptyService (ckey : Nat) (s : State) : Res :=
  .next (s.serveAll ckey (s.feWaits.length + 1)).releaseFe

end Sys2Proof.Machine
end

