-- ==== Sys2Proof/Machine/Global.lean ====
section
/-! DEFINITION. Global memory: loads, stores and prefetch (R148, R157 to R159), the snapshot cache (R160, R164, R168),
requests and their performance (R163), atomics (R176 to R181), phases and fences (R165, R174, R175), WAITC (R190, R191),
and the replay of parked lanes (R38). -/

namespace Sys2Proof.Machine

open Sys2Proof

/-- The space set of a storage byte's bits (R57, R162): spaces 1, 2, 3 and 5 for D, P, A and H. -/
def coversSpace (storage : BitVec 5) (space : Nat) : Bool :=
  match space with
  | 1 => storage.getLsbD 1
  | 2 => storage.getLsbD 2
  | 3 => storage.getLsbD 3
  | 5 | 6 => storage.getLsbD 4
  | _ => false

/-- One lane of a global access with its translation. -/
structure Lane where
  lane : Nat
  va : Nat
  xl : Xl

/-- A station's word given up, without a write-back. -/
def Station.without (t : Station) (k : Nat) : Station := { words := t.words.erase k }

/-- A word put into a station; of 8,192 words the first makes room. -/
def Station.put (t : Station) (k : Nat) (v : DWord) : Station :=
  { words := (if t.words.length < 8192 then t.words else t.words.drop 1).set k v }

namespace State

/-! ### Addresses -/

/-- The address of R148 in a lane. -/
def globalAddr (s : State) (a b : Operand) (l : Nat) : Nat := ((s.rdPair a).toNat + (s.rd b l).toNat) % 2 ^ 64

/-- Where a translated access goes, or kind 0x08 where it is the access whose page service failed (R156, R159); so too for one that waits at
issue on its page behind issues that its offset has made already (log entry 91, DESIGN CHOICE). -/
def orFailed (s : State) (va : Nat) (x : Xl) : Xl :=
  let late (f p : Nat) : Bool := s.iss.made && s.g.parked != 0 && s.g.parkOffset != s.g.offset && s.g.failedPages.contains (f, p)
  if s.g.failedVa = some va then .fault 8
  else match x with
  | .absent f p => if late f p then .fault 8 else x
  | _ => x

/-- Every lane's address translated, in ascending order. -/
def translateLanes (s : State) (ls : List Nat) (a b : Operand) (n : Nat) (acc : Acc) : State × List Lane :=
  match ls with
  | [] => (s, [])
  | l :: r =>
    let va := s.globalAddr a b l
    let (s, x) := s.translate s.g.die s.g.fn (some s.g.ckey) va n acc
    let (s, xs) := s.translateLanes r a b n acc
    (s, ⟨l, va, s.orFailed va x⟩ :: xs)

/-- The lanes that meet a page that is not present. -/
def absentLanes (s : State) (ls : List Lane) : List ParkedLane :=
  ls.filterMap (fun x => match x.xl with
    | .absent f p => some ⟨f, p, x.lane, x.va, s.iss.word, s.iss.planes⟩
    | _ => none)

/-- Requests for the pages that lanes met. -/
def requestAll (s : State) (ps : List ParkedLane) (acc : Acc) : State :=
  ps.foldl (fun s p => s.requestPage p.fkey p.page acc) s

/-- What comes of a global access before it is made: scalar accesses that meet a page not present stop the group (R159);
vector lanes park, or, at an offset after the park offset, cancel the access (R37). `none`: the access goes on without
the lanes that park. -/
def absentStop (s : State) (scalar : Bool) (ls : List Lane) (acc : Acc) : Option State :=
  match s.absentLanes ls with
  | [] => none
  | p :: r =>
    if scalar then some (((s.requestPage p.fkey p.page acc).modG (fun g => { g with wait := .page p.fkey p.page p.va })).holdIssue)
    else if s.g.parked != 0 && s.g.parkOffset != s.g.offset then
      let t := s.requestAll (p :: r) acc
      let pages := (p :: r).map (fun q => (q.fkey, q.page))
      let t := t.modG (fun g => { g with waitPages := g.waitPages ++ pages.filter (fun q => !g.waitPages.contains q) })
      some ({ t with iss := { t.iss with cancelled := true } }.holdIssue)
    else none

/-- The lanes that do not take part in the access: faults are recorded, vector lanes park (R152, R159). -/
def otherLanes (s : State) (scalar : Bool) (ls : List Lane) (acc : Acc) : State :=
  let s := if scalar then s.modG (fun g => { g with failedVa := none })
    else (s.requestAll (s.absentLanes ls) acc).park (s.absentLanes ls)
  ls.foldl (fun s x => match x.xl with
    | .fault k => s.accessFault scalar x.lane k x.va
    | .aperture => s.accessFault scalar x.lane 2 x.va
    | _ => s) s

/-! ### The snapshot cache (R160, R164, R168) -/

/-- Lines of 64 bytes that a core's snapshot cache holds (R9, R160). -/
def snapLines : Nat := 1024

/-- The snapshot line of a place for a function: held, or evicted since the last refresh. -/
def snapLine (s : State) (ck fn loc : Nat) : Option SnapLine :=
  (s.coreOf ck).snap.find? (fun x => x.line == loc / 64 && x.fn == fn)

/-- The oldest line that a full cache holds is evicted; its bytes stay what the core's loads return (R168, log entry 24). -/
def evict (l : List SnapLine) : List SnapLine :=
  if l.countP (fun x => x.held) < snapLines then l
  else match l.find? (fun x => x.held) with
    | some x => l.filter (fun y => y != x) ++ [{ x with held := false }]
    | none => l

/-- The next request sequence of a core toward a pound (R310). -/
def takeSeq (s : State) (ck home : Nat) : BitVec 16 × State :=
  let key := 64 * ck + home
  let q := s.reqSeq.get key 0
  (q, { s with reqSeq := s.reqSeq.set key (q + 1) })

/-- A core's request to a home takes the next number of its core toward that pound (R310) and travels in flits. -/
def sendOut (s : State) (r : Req) (bytes : Nat) : State :=
  let (seq, s) := s.takeSeq r.srcKey r.home
  State.sendMsg { s with reqs := s.reqs ++ [{ r with seq }] } r.srcDie r.home false bytes (.request r.uid)

/-- A read-only request of a core to another pound, for a group and its team (R311, R313). -/
def sendLook (s : State) (kind : ReqKind) (ck gk team fn n home : Nat) (parts : List Part) : State :=
  let (u, s) := s.fresh
  s.sendOut { uid := u, seq := 0, srcDie := ck / 512, srcCore := ck % 512, gkey := gk, team, fn, kind, n, mode := 0, ord := false
              scalar := false, dst := 0, parts, performed := false, home, arrived := false, sentAt := s.basin.time.toNat
              replayed := false, word := 0, here := 0, planes := 0 } 0

/-- What a read-only request reads at a place. -/
def lookPart (p : LoadPart) (loc : Nat) : Part :=
  { lane := p.lane, va := p.va, space := p.space, loc, slot := p.slot, expo := p.expo, data := 0, cmp := 0, old := 0, fwd := false }

/-- The request of a core for a line of another pound, which its answer brings in four parts. -/
def sendRead (s : State) (ck gk team fn : Nat) (p : LoadPart) : State :=
  s.sendLook .read ck gk team fn 16 (homePound p.loc) ((List.range 4).map (fun i => lookPart p (p.loc / 64 * 64 + 16 * i)))

/-- Has a core asked for the line of a place since its last refresh, and the answer has not come back? -/
def linePending (s : State) (ck loc : Nat) : Bool :=
  s.reqs.any (fun r => r.isRead && !r.stale && r.srcKey == ck && r.parts.any (fun p => p.loc / 64 == loc / 64))

/-- Does a core's cache hold the line of a place for a function? -/
def lineHeld (s : State) (ck fn loc : Nat) : Bool := (s.snapLine ck fn loc).any (fun x => x.held)

/-- A line comes into a core's cache; one that had been evicted keeps its bytes (R168). -/
def holdLine (s : State) (ck fn loc space : Nat) (bytes : List Byte) : State :=
  let old := s.snapLine ck fn loc
  let l : SnapLine := match old with
    | some x => { x with held := true }
    | none => { line := loc / 64, fn, space, bytes, held := true }
  s.modCore ck (fun c => { c with snap := evict (c.snap.filter (fun x => some x != old)) ++ [l] })

/-- The line of a place filled from its home for a group of a team, where the core does not hold it; a miss is counted (R198
counter 5). The bytes are those that stand there now; a line of another pound is asked for, and comes with the answer (R16, R311; log entry
24, DESIGN CHOICE). -/
def fillLine (s : State) (ck gk team fn : Nat) (p : LoadPart) : State :=
  if s.lineHeld ck fn p.loc then s
  else if homePound p.loc = ck / 512 then
    (s.countC ck 5 1).holdLine ck fn p.loc p.space (s.coreView ck (p.loc / 64 * 64) p.slot 64)
  else if s.linePending ck p.loc then s
  else (s.countC ck 5 1).sendRead ck gk team fn p

/-- Lines that are on their way to a core are none that its later loads may take (R168). -/
def staleLines (s : State) (ck : Nat) (which : Part → Bool) : State :=
  { s with reqs := s.reqs.map (fun r => if r.isRead && r.srcKey == ck && r.parts.any which then { r with stale := true } else r) }

/-- The core's lines that hold a place are discarded: at a W = 1 atomic the whole line, so that its other bytes may read anew
(R176; log entry 66, DESIGN CHOICE: R168 alone would keep them). -/
def snapDrop (s : State) (ck loc : Nat) : State :=
  (s.staleLines ck (fun p => p.loc / 64 == loc / 64)).modCore ck (fun c => { c with snap := c.snap.filter (fun x => x.line != loc / 64) })

/-- A refresh: lines of the storage set's spaces are discarded (R162, R174). -/
def refresh (s : State) (ck : Nat) (storage : BitVec 5) : State :=
  (s.staleLines ck (fun p => coversSpace storage p.space)).modCore ck (fun c =>
    { c with snap := c.snap.filter (fun x => !coversSpace storage x.space) })

/-- The byte that the latest of a list of writes (number, place, bytes) leaves at a place, or the byte that stood there. -/
def latestByte (ws : List (Nat × Nat × List Byte)) (a : Nat) (b : Byte) : Byte :=
  (ws.foldl (fun (best : Nat × Byte) w =>
    if w.2.1 ≤ a ∧ a < w.2.1 + w.2.2.length ∧ best.1 ≤ w.1 then (w.1, w.2.2.getD (a - w.2.1) best.2) else best) (0, b)).2

/-- The value a load of `n` bytes of a core takes of a place: the snapshot line, with the core's own earlier stores that are not
performed yet (R164). -/
def loadValue (s : State) (ck fn uid loc slot n : Nat) : Nat :=
  let base := match s.snapLine ck fn loc with
    | some x => (x.bytes.drop (loc % 64)).take n
    | none => s.coreView ck loc slot n
  let mine := s.reqs.filter (fun r => r.ofCore ck && !r.performed && decide (r.uid < uid) && r.kind == ReqKind.store)
  let ws := mine.flatMap (fun r => r.parts.map (fun p => (r.uid, p.loc, bytesOf r.n p.data.toNat)))
  natOf (base.zipIdx.map (fun p => latestByte ws (loc + p.2) p.1))

/-- An atomic of the core, issued earlier and not yet answered, that writes bytes of a place: a load of it waits (R164). -/
def atomicPending (s : State) (ck uid loc n : Nat) : Bool :=
  s.reqs.any (fun r => r.ofCore ck && r.isAtomic && (r.ret || !r.performed) && decide (r.uid < uid)
    && r.parts.any (fun p => bytesMeet p.loc r.n loc n))

/-- Accesses of a group issued before number `uid` that are still to be performed: a replayed one waits for them (R38). -/
def runPending (s : State) (gk team uid : Nat) : Bool :=
  s.reqs.any (fun r => decide (r.uid < uid) && !r.performed && !r.isLook && r.gkey == gk && r.team == team)
    || s.aliases.any (fun a => decide (a.uid < uid) && a.gkey == gk && a.team == team)
    || s.loads.any (fun l => decide (l.uid < uid) && l.gkey == gk && l.team == team && l.parts.any (fun p => p.value.isNone))

/-! ### Issue of loads, stores and atomics -/

/-- A line of the core's own die recalled from other cores that have acquired it (R179), then filled; one of another pound is recalled where
the request for it is performed. -/
def touchLine (s : State) (ck gk team fn : Nat) (p : LoadPart) : State :=
  (if homePound p.loc = ck / 512 then s.recallLine ck p.loc else s).fillLine ck gk team fn p

/-- The lanes' places read, ascending: a value is taken at once, from the snapshot line, which a miss fills, so that the core's
loads of a byte agree from one refresh to the next (R168); one that an atomic of the core still has to answer waits (R164), one of a
replay waits for the accesses of the runs before it (R38), and one whose line another pound has to give for the line (R16). -/
def readParts (s : State) (n : Nat) (xs : List Lane) : State × List LoadPart :=
  match xs with
  | [] => (s, [])
  | x :: r =>
    match x.xl with
    | .ok sp loc slot expo =>
      let ck := s.g.ckey
      let p : LoadPart := { lane := x.lane, space := sp, loc, value := none, expo, slot, va := x.va }
      if s.atomicPending ck s.nextUid loc n || (s.iss.run != 0 && s.runPending s.cur s.g.team s.nextUid) then
        let (s, ps) := s.readParts n r
        (s, p :: ps)
      else
        let s := s.touchLine ck s.cur s.g.team s.g.fn p
        let v := extendValue s.g.mode n (s.loadValue ck s.g.fn s.nextUid loc slot n)
        let here := homePound loc == s.g.die || s.lineHeld ck s.g.fn loc
        let (s, ps) := s.readParts n r
        (s, { p with value := if here then some v else none } :: ps)
    | _ => s.readParts n r

/-- LDG (R157). -/
def globalLoad (s : State) (scalar : Bool) (d a b : Operand) : State :=
  let n := modeBytes s.g.mode
  let (s, xs) := s.translateLanes (s.accessLanes scalar) a b n .load
  if s.fenceHeld 0 then s.holdIssue
  else match s.absentStop scalar xs .load with
    | some t => t
    | none =>
      let (s, parts) := s.readParts n xs
      (s.otherLanes scalar xs .load).addLoad scalar (regNum d) n parts

/-- A group of a team by its key, in its context or in its team's save (R219): what returns to it while the team is saved goes there. -/
def modMember (s : State) (gk team : Nat) (f : Group → Group) : State :=
  if (s.group gk).live && (s.group gk).team == team then s.modGroup gk f
  else
    let t := s.teamOf team
    let k := t.die * 8 + t.fn
    if (s.fnOf k).saved.any (fun x => x.uid == team) then
      s.modFn k (fun x => { x with saved := x.saved.map (fun y =>
        if y.uid = team then { y with groups := y.groups.map (fun g => if g.gkey = gk then f g else g) } else y) })
    else s

/-- Outstanding stores and atomics of a group in a space, up or down (R160). -/
def pubAdd (s : State) (gk team space : Nat) (up : Bool) : State :=
  s.modMember gk team (fun g =>
    let n := g.pubCount.get space 0
    { g with pubCount := g.pubCount.set space (if up then n + 1 else n - 1) })

/-- The parts of an issue that go to one pound make a request: at its own die it has arrived at once; to another pound it travels. -/
def sendReqTo (s : State) (kind : ReqKind) (scalar : Bool) (dst n : Nat) (parts : List Part) (home : Nat) : State :=
  let g := s.g
  let (u, s) := s.fresh
  let own := home == g.die
  let r : Req := { uid := u, seq := 0, srcDie := g.die, srcCore := g.core, gkey := s.cur, team := g.team, fn := g.fn, kind, n,
                   mode := g.mode, ord := modeOrd g.mode, scalar, dst, parts, performed := false, home, arrived := own,
                   sentAt := s.basin.time.toNat, replayed := s.iss.run != 0, word := s.iss.word, here := s.iss.here,
                   planes := s.iss.planes }
  let s := parts.foldl (fun s p => s.pubAdd r.gkey r.team p.space true) s
  if own then State.post { s with reqs := s.reqs ++ [r] } (.requestArrival u) else s.sendOut r (n * parts.length)

/-- The lanes of an issue make one request to each pound that they reach (log entry 25, DESIGN CHOICE); the publish counts rise. -/
def sendReq (s : State) (kind : ReqKind) (scalar : Bool) (dst n : Nat) (parts : List Part) : State :=
  (parts.map (fun p => homePound p.loc)).dedup.foldl (fun s h =>
    s.sendReqTo kind scalar dst n (parts.filter (fun p => homePound p.loc == h)) h) s

/-- The group's earlier COPEN on a slot has not completed: its alias stores to the slot are held (R227). -/
def openPending (s : State) (slot : Nat) : Bool :=
  let mine (o : Origin) : Bool := o.gkey == s.cur && o.team == s.g.team
  s.opens.any (fun o => mine o.org && o.slot == slot)
    || s.basin.colls.any (fun c => c.2.slot == slot && c.2.openers.any mine)
    || s.sures.any (fun x => match x.act with
      | .opened k o _ => k == slot && mine o
      | _ => false)

/-- An alias store goes to the Basin (R266). -/
def sendAlias (s : State) (slot win off : Nat) (bs : List Byte) : State :=
  let g := s.g
  let (u, s) := s.fresh
  let (seq, s) := s.takeSeq g.ckey 24
  let x : AliasStore := { uid := u, gkey := s.cur, team := g.team, die := g.die, tenant := (s.fnOf g.fkey).cfg.tenant, slot,
                          window := win, off, bytes := bs, arrived := false, relayed := false, sentAt := s.basin.time.toNat,
                          replayed := s.iss.run != 0, src := g.ckey, seq }
  ({ s with aliases := s.aliases ++ [x] }.pubAdd s.cur g.team 3 true).sendMsg g.die 24 false bs.length (.aliasStore u)

/-- STG (R157): the lanes of memory spaces make one request for each pound, each lane in an alias window its own. -/
def globalStore (s : State) (scalar : Bool) (d a b : Operand) : State :=
  let n := modeBytes s.g.mode
  let data (l : Nat) : BitVec 128 := s.rd128 d l
  let (s, xs) := s.translateLanes (s.accessLanes scalar) a b n .store
  let aliased := xs.filterMap (fun x => match x.xl with
    | .aliased sl w o => some (x.lane, sl, w, o)
    | _ => none)
  let parts := xs.filterMap (fun x => match x.xl with
    | .ok sp loc slot expo => some ({ lane := x.lane, va := x.va, space := sp, loc, slot, expo, data := data x.lane, cmp := 0, old := 0,
                                         fwd := false } : Part)
    | _ => none)
  if (s.fenceHeld 0 && aliased.length < xs.length) || (s.fenceHeld 4 && !aliased.isEmpty)
      || aliased.any (fun x => s.openPending x.2.1) then s.holdIssue
  else match s.absentStop scalar xs .store with
    | some t => t
    | none =>
      let s := (s.otherLanes scalar xs .store).sendReq .store scalar 0 n parts
      aliased.foldl (fun s x => s.sendAlias x.2.1 x.2.2.1 x.2.2.2 (bytesOf n (data x.1).toNat)) s

/-! ### Atomics (R176 to R181) -/

/-- The contention predictor at an atomic on a die-memory line (R179): a quiet line is acquired, recalling it from
another core where one holds it; an atomic on a contested one is forwarded to the home. Nothing else depends on it. -/
def predict (s : State) (ck loc : Nat) : State × Bool :=
  let line := loc / 256
  let i := line % 256
  let c := (s.coreOf ck).pred.get i 0
  if c.toNat < 2 then
    let held := s.cores.any (fun p => p.1 != ck && p.2.atomLines.contains line)
    let s := s.recallLine ck loc
    (s.modCore ck (fun x => { x with
      atomLines := if x.atomLines.contains line then x.atomLines else x.atomLines ++ [line]
      pred := if held then x.pred.set i (c + 1) else x.pred }), false)
  else (s, true)

/-- A forwarded atomic at its home: the predictor's counter falls where no other core's request for the line is pending there
(R179). -/
def fallPredict (s : State) (r : Req) (p : Part) : State :=
  let ck := r.srcKey
  let i := p.loc / 256 % 256
  let busy := s.reqs.any (fun x => x.srcKey != ck && x.arrived && !x.performed
    && x.parts.any (fun q => q.loc / 256 == p.loc / 256))
  let n := (s.coreOf ck).pred.get i 0
  if !p.fwd || busy || n == 0 then s else s.modCore ck (fun c => { c with pred := c.pred.set i (n - 1) })

/-- The atomic's lanes ask the predictor, in ascending order. -/
def predictParts (s : State) (ck : Nat) (ps : List Part) : State × List Part :=
  match ps with
  | [] => (s, [])
  | p :: r =>
    let (s, f) := if p.space = 5 then (s, false) else s.predict ck p.loc
    let (s, qs) := s.predictParts ck r
    (s, { p with fwd := f } :: qs)

/-- A global atomic (R176). With W = 1 the core's line is discarded at once and again when the atomic is performed. -/
def globalAtomic (s : State) (op : AtomOp) (w scalar : Bool) (d a b : Operand) : State :=
  let n := modeBytes s.g.mode
  let opnd (l : Nat) : BitVec 128 := if n = 8 then (s.rd64 d l).setWidth 128 else (s.rd d l).setWidth 128
  let second (l : Nat) : DWord := (s.rdAt d l 1).setWidth 64
  let (s, xs) := s.translateLanes (s.accessLanes scalar) a b n .atomic
  if s.fenceHeld 0 then s.holdIssue
  else match s.absentStop scalar xs .atomic with
    | some t => t
    | none =>
      let parts := xs.filterMap (fun x => match x.xl with
        | .ok sp loc slot expo => some ({ lane := x.lane, va := x.va, space := sp, loc, slot, expo, data := opnd x.lane,
                                          cmp := second x.lane, old := 0, fwd := false } : Part)
        | _ => none)
      let s := s.otherLanes scalar xs .atomic
      let (s, parts) := s.predictParts s.g.ckey parts
      let s := parts.foldl (fun s p => if w then s.snapDrop s.g.ckey p.loc else s) s
      s.sendReq (.atomic op (!w)) scalar (regNum d) n parts

/-- The new value of an atomic (R176). -/
def atomNew (op : AtomOp) (m : Word) (n old x second : Nat) : Nat :=
  let k := 8 * n
  let less (a b : Nat) : Bool := if modeMsx m then (BitVec.ofNat k a).slt (BitVec.ofNat k b) else decide (a < b)
  match op with
  | .add => (old + x) % 2 ^ k
  | .min => if less x old then x else old
  | .max => if less old x then x else old
  | .and => old &&& x
  | .or => old ||| x
  | .xor => old ^^^ x
  | .xch => x
  | .cas => if old = x then second % 2 ^ k else old
  | .fadd =>
    let f := ftypeFmt (modeFtype m)
    let r := Rnd.ofCode (modeRnd m)
    let e (i : Nat) : Nat := roundFmt ((f.value (old / 2 ^ (f.bits * i) % 2 ^ f.bits)).add r (f.value (x / 2 ^ (f.bits * i) % 2 ^ f.bits)))
      f r (modeSat m)
    if f.bits = 32 then e 0 else e 0 + 2 ^ f.bits * e 1

/-- The station of the host port that serves a function takes a word (R181): from the other port's station, where that holds it, or
from host memory; a word that makes room is written back. -/
def stationTake (s : State) (fkey loc : Nat) : State :=
  let k := loc / 8
  let port := (s.fnOf fkey).cfg.hostPort
  let mine := if port then s.basin.station1 else s.basin.station0
  if mine.words.has k then s
  else
    let v := BitVec.ofNat 64 (s.natAt (k * 8) 8)
    let s := match (if mine.words.length < 8192 then [] else mine.words.take 1) with
      | (j, x) :: _ => { s with mem := Memory.writeNat s.mem (j * 8) 8 x.toNat }
      | [] => s
    if port then s.modBasin (fun b => { b with station1 := b.station1.put k v, station0 := b.station0.without k })
    else s.modBasin (fun b => { b with station0 := b.station0.put k v, station1 := b.station1.without k })
/-- A station's word written back and given up (R181). -/
def stationDrop (s : State) (loc : Nat) : State :=
  let k := loc / 8
  let out (s : State) (t : Station) : State := { s with mem := Memory.writeNat s.mem (k * 8) 8 (t.words.get k 0).toNat }
  if s.basin.station0.words.has k then
    (out s s.basin.station0).modBasin (fun b => { b with station0 := { words := b.station0.words.erase k } })
  else if s.basin.station1.words.has k then
    (out s s.basin.station1).modBasin (fun b => { b with station1 := { words := b.station1.words.erase k } })
  else s
/-- An update the part makes by itself, in host memory at the station that serves the function: the words that the station did
not hold are written back at once (R181, log entry 22, DESIGN CHOICE). -/
def atStation (s : State) (fkey : Nat) (host : Bool) (locs : List Nat) (f : State → State) : State :=
  if host then
    let new := locs.filter (fun l => !s.basin.station0.words.has (l / 8) && !s.basin.station1.words.has (l / 8))
    new.foldl stationDrop (f (locs.foldl (fun s l => s.stationTake fkey l) s))
  else f s
/-- Every word of a station written back to host memory (R181); the station is empty then (log entry 68, DESIGN CHOICE). -/
def writeBack (s : State) (port : Bool) : State :=
  let t := if port then s.basin.station1 else s.basin.station0
  let m := t.words.foldl (fun m p => Memory.writeNat m (p.1 * 8) 8 p.2.toNat) s.mem
  let s := { s with mem := m }
  if port then s.modBasin (fun b => { b with station1 := {} }) else s.modBasin (fun b => { b with station0 := {} })

/-- The core a request was sent from, and the one that its group stands on since (R164, R219). -/
def reqCores (r : Req) : List Nat := [r.srcKey, r.gkey / 16].dedup

/-- Bytes written for a request stand in the snapshots of its cores where those hold the line, and over what older atomics of theirs still
bring there (R160, R164). -/
def patchCores (s : State) (r : Req) (loc : Nat) (bs : List Byte) (stored : Bool) : State :=
  (reqCores r).foldl (fun s ck => (if stored then s.snapStore ck loc bs else s).patchReplies ck loc bs) s

/-- A watch entry taken for a word of die memory and a waiting group, or the owner of a record, where the home has one free (R191, R207). -/
def watch (s : State) (loc gk : Nat) : State :=
  let d := loc / 2 ^ 48
  if d < 24 && (s.die d).watches.length < 1024 then s.modDie d (fun x => { x with watches := x.watches ++ [(loc, gk)] }) else s

/-- The read of a WAITC at its word's home (R190): where its group waits on, with a watch entry from here on, if there is one (R191). -/
def firstLook (s : State) (r : Req) (p : Part) : State × Part :=
  let v := s.natSlot p.loc p.slot 8
  let s := match (s.group r.gkey).wait with
    | .waitc loc _ thr =>
      if loc = p.loc && (s.group r.gkey).team == r.team && v < thr.toNat && !(s.die (loc / 2 ^ 48)).watches.contains (loc, r.gkey) then
        s.watch loc r.gkey
      else s
    | _ => s
  (s, { p with old := BitVec.ofNat 64 v })

/-- One part of a request performed at its home (R163): for an atomic the old value is kept for the reply. A group's counts of what it has
outstanding fall there at its own die, else with the answer (R16, R165). -/
def performPart (s : State) (r : Req) (p : Part) : State × Part :=
  let s := s.recallLine r.srcKey p.loc
  let told (s : State) : State := if r.home = r.srcDie then s.pubAdd r.gkey r.team p.space false else s
  match r.kind with
  | .read => (s, { p with data := BitVec.ofNat 128 (natOf (s.coreView r.srcKey p.loc p.slot r.n)) })
  | .word => s.firstLook r p
  | .store =>
    let bs := bytesOf r.n p.data.toNat
    let s := (s.storeBytes p.loc p.slot bs).patchCores r p.loc bs true
    let s := match p.expo with
      | some k => s.postIncr k r.n false
      | none => s
    (told (s.wakeAt p.loc r.n), p)
  | .atomic op ret =>
    let s := if p.space = 5 then s.stationTake (r.srcDie * 8 + r.fn) p.loc else s.fallPredict r p
    let old := s.natSlot p.loc p.slot r.n
    let new := atomNew op r.mode r.n old (p.data.toNat % 2 ^ (8 * r.n)) p.cmp.toNat
    let s := (s.storeNat p.loc p.slot r.n new).patchCores r p.loc (bytesOf r.n new) false
    let s := if ret then s else (reqCores r).foldl (fun s ck => s.snapDrop ck p.loc) s
    (told (s.wakeAt p.loc r.n), { p with old := BitVec.ofNat 64 old, data := BitVec.ofNat 128 new })

/-- Every part performed, ascending lanes, consecutively (R163, R177). -/
def performParts (s : State) (r : Req) (ps : List Part) : State × List Part :=
  match ps with
  | [] => (s, [])
  | p :: rest =>
    let (s, q) := s.performPart r p
    let (s, qs) := s.performParts r rest
    (s, q :: qs)

/-- The home slice of a place (R180): of a die's memory, one of its 64; host words are ordered by their 256-byte line. -/
def homeSlice (loc : Nat) : Nat :=
  if loc / 2 ^ 48 < 24 then 64 * (loc / 2 ^ 48) + (Config.homeSlice (loc / 2 ^ 48) (loc % 2 ^ 48 / 256)).toNat else 2 ^ 12 + loc / 256

/-- Does a request stand behind an earlier one that is not performed? Of its group, on a common byte (R163); under ORD, of an
ORD atomic's home slice (R180); a replayed one, behind every earlier one (R38). Of its core on its way to one pound, on a
common 256-byte line (R316), whatever it does there. -/
def behind (r x : Req) : Bool :=
  let shares (f : Part → Part → Bool) : Bool := x.parts.any (fun p => r.parts.any (fun q => f p q))
  decide (x.uid < r.uid) && !x.performed
    && ((!x.isLook && !r.isLook && x.gkey == r.gkey && x.team == r.team
        && (r.replayed || shares (fun p q => bytesMeet p.loc x.n q.loc r.n)
          || (x.ord && r.ord && x.isAtomic && r.isAtomic && shares (fun p q => homeSlice p.loc == homeSlice q.loc))))
      || (x.srcDie == r.srcDie && x.srcCore == r.srcCore && x.home == r.home && r.home != r.srcDie
        && shares (fun p q => p.loc / 256 == q.loc / 256)))

/-- The 256-byte lines of places. -/
def linesOf (l : List (Nat × Nat × Nat × Option Nat)) : List Nat :=
  l.flatMap (fun p => (List.range ((p.1 % 256 + p.2.2.1 + 255) / 256)).map (p.1 / 256 + ·))

/-- The 256-byte lines that a chunk reaches at a pound. -/
def awayLines (a : Away) (home : Nat) : List Nat := linesOf ((a.src ++ a.dst ++ a.scale).filter (fun p => homePound p.1 == home))

/-- Is a chunk of a core that left before number `uid` still on its way to one of some 256-byte lines of another pound (R316)? -/
def behindChunk (s : State) (ck uid home : Nat) (lines : List Nat) : Bool :=
  home != ck / 512 && s.copies.any (fun c => c.org.die * 512 + c.org.core == ck
    && (c.flying ++ c.landed).any (fun a => decide (a.uid < uid) && (awayLines a home).any lines.contains))

/-- May a request be performed now? It has reached its home, and stands behind no earlier one (R38, R163, R180, R316), no earlier
access of its group at all where it is a replayed one, no earlier load of its group from a common byte, and no earlier chunk of its core to
a common line of its home (R316). -/
def reqDue (s : State) (r : Req) : Bool :=
  r.arrived && !s.reqs.any (behind r) && !(r.replayed && s.runPending r.gkey r.team r.uid)
    && !s.behindChunk r.srcKey r.uid r.home (r.parts.map (fun p => p.loc / 256))
    && !s.loads.any (fun x => !r.isLook && decide (x.uid < r.uid) && x.gkey == r.gkey && x.team == r.team
      && x.parts.any (fun p => p.value.isNone && r.parts.any (fun q => bytesMeet p.loc x.n q.loc r.n)))

/-- What the home slices of a request's parts keep of it (R313): its core's last 1,024 sequence numbers, with old values. -/
def filterKeys (r : Req) : List Nat := if r.home < 24 then (r.parts.map (fun p => homeSlice p.loc % 64)).dedup else [0]

/-- A sequence of a core accepted by home slices of a pound, with the old values that a duplicate returns (R310, R313). -/
def acceptAt (s : State) (home : Nat) (slices : List Nat) (ck : Nat) (seq : BitVec 16) (olds : List DWord) : State :=
  let entry := (ck, seq, olds)
  s.modDie home (fun d => { d with filter := slices.foldl (fun t k =>
    let l := t.get k []
    t.set k ((entry :: l.filter (fun x => x.1 == ck)).take 1024 ++ l.filter (fun x => x.1 != ck))) d.filter })

/-- A request of another die accepted by the home slices. -/
def acceptSeq (s : State) (r : Req) (ps : List Part) : State := s.acceptAt r.home (filterKeys r) r.srcKey r.seq (ps.map (fun p => p.old))

/-- A request's parts with the old values that the home slices recorded at its first performance (R313). -/
def recorded (s : State) (r : Req) : Req :=
  let seen := (filterKeys r).findSome? (fun k => ((s.die r.home).filter.get k []).find? (fun x =>
    x.1 == r.srcKey && x.2.1 == r.seq))
  match seen with
  | some x => { r with parts := r.parts.zipIdx.map (fun p => { p.1 with old := x.2.2.getD p.2 p.1.old }) }
  | none => r

/-- The home's answer to a request (R311): a line, a word, or old values where they return, else an acknowledgement. -/
def answerReq (s : State) (r : Req) : State :=
  s.sendMsg r.home r.srcDie true (if r.ret || r.isLook then r.n * r.parts.length else 0) (.answer r.uid)

/-- Is the Basin's answer to an alias store on its way to the die (R16)? -/
def storedAck (s : State) (uid : Nat) : Bool := s.sures.any (fun x => match x.act with
  | .stored u _ _ => u == uid
  | _ => false)

/-- A pending fence point is satisfied (R175). -/
def pointDone (s : State) (g : Group) (f : FencePoint) : Bool :=
  f.reqs.all (fun u => !s.reqs.any (fun r => r.uid == u && r.pending) && !s.aliases.any (fun a => a.uid == u) && !s.storedAck u)
    && f.loads.all (fun u => !s.loads.any (fun l => l.uid == u))
    && f.ops.all (fun h =>
      let e := (s.teamOf g.team).ops.get (h.toNat % 128) {}
      !(e.handle == h && e.pending))

/-- Registrations whose revocation waits for accesses are looked at again (R255). -/
def lookRevoked (s : State) : State :=
  (s.regs.filter (fun r => r.2.state == .revoking)).foldl (fun s r => s.post (.revocationComplete (r.1 / 2048) (r.1 % 2048))) s

/-- What waits on requests is looked at again: loads of the core, publishes, fence points, shrinking groups. -/
def afterRequest (s : State) (ck : Nat) : State :=
  let s := (s.loads.filter (fun l => l.ckey == ck)).foldl (fun s l => s.post (.loadDataReturn l.uid)) s
  s.groups.foldl (fun s p =>
    if p.2.live && p.2.ckey == ck then
      let s := match p.2.wait with
        | .publish _ _ _ => s.post (.publishCompletion p.1)
        | .shrink _ => s.post (.shrinkRelease p.1)
        | _ => s
      (List.range p.2.fences.length).reverse.foldl (fun s i =>
        match p.2.fences[i]? with
        | some f => if s.pointDone p.2 f then s.post (.fencePointSatisfied p.1 i) else s
        | none => s) s
    else s) s |>.lookRevoked

/-- The later requests of a core, chunks of its copies that have arrived, and alias stores of its replays, are looked at again: one may have
stood behind the access just done. -/
def afterOrder (s : State) (ck : Nat) : State :=
  let s := (s.copies.filter (fun c => c.org.die * 512 + c.org.core == ck)).foldl (fun s c =>
    c.landed.foldl (fun s a => s.post (.copyChunkWrite c.uid a.chunk)) s) s
  let s := (s.reqs.filter (fun r => r.ofCore ck && r.arrived && !r.performed)).foldl (fun s r => s.post (.requestArrival r.uid)) s
  (s.aliases.filter (fun a => a.gkey / 16 == ck && a.arrived && a.replayed)).foldl (fun s a => s.post (.aliasStore a.uid)) s

/-- What waits on a request that is done with is looked at again, at the core it was sent from and where its group stands now, and its grid,
which may have waited for its last store (R216). -/
def afterReq (s : State) (r : Req) : State :=
  ((reqCores r).foldl (fun s ck => (s.afterRequest ck).afterOrder ck) s).checkGrid (s.launchOf r.team)

end State

/-- LDG (R157, R159). -/
def execLdg (d a b : Operand) (s : State) : Res := .next (s.globalLoad d.isS d a b)
/-- STG (R157, R159). -/
def execStg (d a b : Operand) (s : State) : Res := .next (s.globalStore (d.isS && b.isUni) d a b)

/-- PREFG (R158): the lines of the lanes that translate are filled, from cores that have acquired them too (R179); the others are
dropped. -/
def execPrefg (a b : Operand) (s : State) : Res :=
  if s.fenceHeld 0 then .next s.holdIssue
  else
    let (s, xs) := s.translateLanes (lanesOf s.guarded) a b (modeBytes s.g.mode) .load
    .next (xs.foldl (fun s x => match x.xl with
      | .ok sp loc slot expo =>
        s.touchLine s.g.ckey s.cur s.g.team s.g.fn { lane := x.lane, space := sp, loc, value := none, expo, slot, va := x.va }
      | _ => s) s)

def execAadd (w : Bool) (d a b : Operand) (s : State) : Res := .next (s.globalAtomic .add w (!w && d.isS) d a b)
def execAmin (w : Bool) (d a b : Operand) (s : State) : Res := .next (s.globalAtomic .min w (!w && d.isS) d a b)
def execAmax (w : Bool) (d a b : Operand) (s : State) : Res := .next (s.globalAtomic .max w (!w && d.isS) d a b)
def execAand (w : Bool) (d a b : Operand) (s : State) : Res := .next (s.globalAtomic .and w (!w && d.isS) d a b)
def execAor (w : Bool) (d a b : Operand) (s : State) : Res := .next (s.globalAtomic .or w (!w && d.isS) d a b)
def execAxor (w : Bool) (d a b : Operand) (s : State) : Res := .next (s.globalAtomic .xor w (!w && d.isS) d a b)
def execAxch (w : Bool) (d a b : Operand) (s : State) : Res := .next (s.globalAtomic .xch w (!w && d.isS) d a b)
def execAcas (w : Bool) (d a b : Operand) (s : State) : Res := .next (s.globalAtomic .cas w (!w && d.isS) d a b)
def execAfadd (w : Bool) (d a b : Operand) (s : State) : Res := .next (s.globalAtomic .fadd w (!w && d.isS) d a b)

/-! ### Returns and performance -/

/-- LOAD_DATA_RETURN (R142, R157, R164): the registers are written, unless the group has gone (R114); a load of a byte
that an earlier atomic of the core writes waits for its reply, one of a replay for the runs before it (R38), and one of another pound's
line for the line, which it asks for anew where a refresh has discarded it. -/
def execLoadDataReturn (uid : Nat) (s : State) : Res :=
  match s.loads.find? (fun l => l.uid == uid) with
  | none => .next s
  | some l =>
    let ck := l.ckey
    if l.parts.any (fun p => p.value.isNone && (s.atomicPending ck uid p.loc l.n || (l.replayed && s.runPending l.gkey l.team uid))) then .next s
    else
      let t := l.parts.foldl (fun s p => match p.value with
        | some _ => s
        | none => s.touchLine ck l.gkey l.team l.fn p) s
      if l.parts.any (fun p => p.value.isNone && homePound p.loc != l.die && !t.lineHeld ck l.fn p.loc) then .next t
      else
      let val (p : LoadPart) : BitVec 128 := match p.value with
        | some v => v
        | none => extendValue l.mode l.n (t.loadValue ck l.fn uid p.loc p.slot l.n)
      let t := t.modMember l.gkey l.team (fun g => l.parts.foldl (fun g p => putValue g l.scalar l.dst p.lane l.n (val p)) g)
      .next (({ t with loads := t.loads.filter (fun x => x.uid != uid) }.afterRequest ck).afterOrder ck)

/-- REQUEST_ARRIVAL (R163, R176, R313): performed at its home once. A request of the own die without a reply is then done with; one of
another die stays until its answer arrives, and a duplicate of one that has been performed is answered again with what was
recorded. -/
def execRequestArrival (uid : Nat) (s : State) : Res :=
  match s.reqs.find? (fun r => r.uid == uid) with
  | none => .next s
  | some r =>
    let put (s : State) (x : Req) : State := { s with reqs := s.reqs.map (fun y => if y.uid == uid then x else y) }
    if r.performed then
      let r := s.recorded r
      .next (if r.arrived && r.home != r.srcDie then (put s { r with arrived := false }).answerReq r else s)
    else if !s.reqDue r then .next s
    else
      let (s, ps) := s.performParts r r.parts
      let s :=
        if r.home = r.srcDie then
          if r.ret then (put s { r with performed := true, parts := ps }).post (.atomicReply uid)
          else { s with reqs := s.reqs.filter (fun x => x.uid != uid) }
        else
          let r := { r with performed := true, parts := ps, arrived := false }
          ((put s r).acceptSeq r ps).answerReq r
      .next (s.afterReq r)

/-- The answer to a request for a line: it stands in the core's cache, unless that has been refreshed since. -/
def State.lineComes (s : State) (r : Req) : State :=
  match r.stale, r.parts with
  | false, p :: _ => s.holdLine r.srcKey r.fn p.loc p.space (r.parts.flatMap (fun q => bytesOf r.n q.data.toNat))
  | _, _ => s

/-- The answer to a WAITC's read: its group goes on where the value reaches the threshold (R190). -/
def State.wordComes (s : State) (r : Req) : State :=
  match (s.group r.gkey).wait, r.parts with
  | .waitc loc _ thr, p :: _ =>
    if (s.group r.gkey).team == r.team && loc == p.loc && decide (thr.toNat ≤ p.old.toNat) then
      (s.modGroup r.gkey (fun g => { g with wait := .ready })).unwatch loc r.gkey
    else s
  | _, _ => s

/-- ATOMIC_REPLY (R176): the old values go to the registers, and the core's snapshot words take the new bytes. The answer of another pound:
the group's counts of what it has outstanding fall (R16, R165); a line lets the loads of it return; a WAITC's word is compared. -/
def execAtomicReply (uid : Nat) (s : State) : Res :=
  match s.reqs.find? (fun r => r.uid == uid) with
  | none => .next s
  | some r =>
    if !r.performed then .next s
    else
      let s := { s with reqs := s.reqs.filter (fun x => x.uid != uid) }
      if r.isRead then .next ((s.lineComes r).afterRequest r.srcKey)
      else if r.isLook then .next ((s.wordComes r).afterReq r)
      else
      let s := if r.home = r.srcDie then s else r.parts.foldl (fun s p => s.pubAdd r.gkey r.team p.space false) s
      if !r.ret then .next (s.afterReq r)
      else
      let s := r.parts.foldl (fun s p => (State.reqCores r).foldl (fun s ck => s.snapStore ck p.loc (bytesOf r.n p.data.toNat)) s) s
      let s := s.modMember r.gkey r.team (fun g =>
        r.parts.foldl (fun g p => putValue g r.scalar r.dst p.lane r.n (extendValue r.mode r.n p.old.toNat)) g)
      .next (s.afterReq r)

/-- A request of another die that finds no registration at its home any longer (R255, R317): nothing is performed, its lanes take lane
fault 0x02, and the group's next offset, in its context or after its team's restore, ends in kind 0x19. A request that only reads is
dropped: the loads and the WAITC that it was made for fault by themselves. -/
def State.lateFault (s : State) (r : Req) : State :=
  let s := { s with reqs := s.reqs.filter (fun x => x.uid != r.uid) }
  let s :=
    if r.isLook then s
    else
      let i : Issue := { word := r.word, here := r.here, planes := r.planes, run := if r.replayed then 1 else 0, seq := r.uid }
      r.parts.foldl (fun s p => (s.pubAdd r.gkey r.team p.space false).modMember r.gkey r.team (fun g =>
        g.accessFault i r.scalar p.lane 2 p.va)) s
  s.afterReq r

/-- A load of a peer window of a die that is reset, for lanes whose bytes have not come back: they take lane fault 0x02 (R317). -/
def State.lateLoad (s : State) (d : Nat) (l : Load) : State :=
  let lost := l.parts.filter (fun p => p.expo.isSome && p.loc / 2 ^ 48 == d && p.value.isNone)
  if l.die = d || lost.isEmpty then s
  else
    let left := l.parts.filter (fun p => !lost.contains p)
    let i : Issue := { word := l.word, here := l.here, planes := l.planes, run := if l.replayed then 1 else 0, seq := l.uid }
    let s := lost.foldl (fun s p => s.modMember l.gkey l.team (fun g => g.accessFault i l.scalar p.lane 2 p.va)) s
    (if left.isEmpty then { s with loads := s.loads.filter (fun x => x.uid != l.uid) }
      else { s with loads := s.loads.map (fun (x : Load) => if x.uid = l.uid then { l with parts := left } else x) }).post (.loadDataReturn l.uid)

/-! ### Phases and fences (R165, R174, R175) -/

namespace State

/-- Does a publish at a scope wait for alias stores? Die scope does not reach the Basin's agents, on any package (R1, R183). -/
def aliasWaits (scope : Nat) : Bool := decide (4 ≤ scope)

/-- Has a copy that writes to a network endpoint, or may do so once its template has been read, bytes that have not reached their port, or
(`acked`) not been acknowledged (R162)? -/
def netBusy (s : State) (c : Copy) (acked : Bool) : Bool :=
  match c.tmpl with
  | none => true
  | some t => t.dstKind == 2 && (acked || decide (c.accepted < t.tileBytes / 512) || !c.started.isEmpty || !c.flying.isEmpty
      || !c.landed.isEmpty || !(c.keeper.getD []).isEmpty || s.packets.any (fun p => p.copy == c.uid && !p.atPort))

/-- Every store and atomic that a publish covers has been performed (R165). With H the group's network transfers have reached their ports at
package scope, and been acknowledged at system scope (R162); at cluster and die scope, which the row of H does not name, host stores and
atomics are waited for and network transfers are not (log entry 78, DESIGN CHOICE). -/
def published (s : State) (gk : Nat) (scope : Nat) (storage : BitVec 5) : Bool :=
  let g := s.group gk
  [1, 2, 3, 5].all (fun sp => !coversSpace storage sp || (sp == 3 && !aliasWaits scope) || g.pubCount.get sp 0 == 0)
    && !(4 ≤ scope && storage.getLsbD 4
      && s.copies.any (fun c => c.org.gkey == gk && c.org.team == g.team && s.netBusy c (scope == 5)))

/-- At system scope with H the station of the group's host port writes its words back (R181). -/
def stationEnd (s : State) (gk : Nat) (scope : Nat) (storage : BitVec 5) : State :=
  if scope = 5 && storage.getLsbD 4 then s.writeBack (s.fnOf (s.group gk).fkey).cfg.hostPort else s

/-- A publish's last act: beyond the core and with D other cores see the group's records (R127); at system scope with H the station
writes its words back (R181). -/
def publishEnd (s : State) (gk : Nat) (scope : Nat) (storage : BitVec 5) : State :=
  let s := if 2 ≤ scope && storage.getLsbD 1 then s.unveil gk (s.group gk).team else s
  s.stationEnd gk scope storage

end State

/-- A group's refresh, of 32 core cycles (R174). -/
def State.refreshFor (s : State) (gkey : Nat) (storage : BitVec 5) : State :=
  (s.modGroup gkey (fun g => { g with busy := g.busy + 32 })).refresh (s.group gkey).ckey storage

/-- PHASE (R174): publish, then refresh. -/
def execPhase (d : BitVec 8) (i : BitVec 2) (s : State) : Res :=
  let q := (d.extractLsb' 0 3).toNat
  let st := d.extractLsb' 3 5
  if i.getLsbD 0 && 2 ≤ q && !s.published s.cur q st then
    .next ((s.modG (fun g => { g with wait := .publish q st (i.getLsbD 1) })).holdIssue)
  else
    let s := if i.getLsbD 0 then s.publishEnd s.cur q st else s
    .next (if i.getLsbD 1 then s.refreshFor s.cur st else s)

/-- PUBLISH_COMPLETION (R165, R174). -/
def execPublishCompletion (gkey : Nat) (s : State) : Res :=
  let g := s.group gkey
  match g.wait with
  | .publish q st r =>
    if !s.published gkey q st then .next s
    else
      let s := (s.setGroup gkey { g with wait := .ready }).publishEnd gkey q st
      .next (if r then s.refreshFor gkey st else s)
  | _ => .next s

/-- The path bit of a handle's class (R170). -/
def classPath (h : Word) : Nat :=
  match bits h.toNat 28 4 with
  | 1 => 2
  | 2 => 3
  | 3 => 1
  | 4 => 5
  | 5 => 6
  | _ => 4

namespace State

/-- Does a byte of a range of a function lie in a space of the storage set, as the leaves of its pages now say (R162)? -/
def rangeTouches (s : State) (die fn va n : Nat) (st : BitVec 5) : Bool :=
  (List.range ((va % 4096 + n + 4095) / 4096)).any (fun i =>
    let a := (va / 4096 * 4096 + 4096 * i) % 2 ^ 64
    decide (a < 2 ^ 48) && (match (s.leafOf die fn none a).2 with
      | some (e, _) => coversSpace st (pteType e)
      | none => false))

/-- Does a copy touch a space of the storage set, or the local store with L (R175): by its template read, its counter, its
ranges; a network end is in H (R162). The ranges of a copy whose template is still to be read are taken to reach every space
(log entry 16, DESIGN CHOICE). -/
def copyTouches (s : State) (c : Copy) (st : BitVec 5) : Bool :=
  let at' (va n : Nat) : Bool := s.rangeTouches c.org.die c.fn va n st
  at' c.templAddr 64 || match c.tmpl with
  | none => st != 0
  | some t =>
    let ws := (NumType.ofCode t.srcType).bits
    let wd := (NumType.ofCode t.dstType).bits
    let touch (kind va n : Nat) : Bool := match kind with
      | 0 => st.getLsbD 0
      | 1 => at' va n
      | _ => st.getLsbD 4
    touch t.srcKind ((t.src + c.tile * t.srcStride) % 2 ^ 64) (t.tileBytes * ws / wd)
      || touch t.dstKind ((t.dst + c.tile * t.dstStride) % 2 ^ 64) t.tileBytes
      || (t.scaled && touch t.dstKind ((t.scaleDst + c.tile * (t.tileBytes / wd)) % 2 ^ 64) (t.tileBytes / wd))
      || (t.counter != 0 && at' t.counter 8)

/-- Does a pending command touch a space of the storage set, or the local store with L (R175)? A bid on the Weir touches none. -/
def commandTouches (s : State) (h : Word) (st : BitVec 5) : Bool :=
  match bits h.toNat 28 4 with
  | 1 | 4 => st.getLsbD 0
  | 2 => st.getLsbD 0 || st.getLsbD 1
  | 6 => st.getLsbD 3
  | 3 => (s.copies.filter (fun c => c.org.handle == h && c.org.team == s.g.team)).any (fun c => s.copyTouches c st)
  | _ => false

end State

/-- FENCE (R175): a point is recorded; a fifth waits at issue for the oldest of the four it finds. -/
def execFence (d a b : BitVec 8) (s : State) : Res :=
  let g := s.g
  let q := (d.extractLsb' 0 3).toNat
  let st := d.extractLsb' 3 5
  let wide := decide (2 ≤ q)
  let mineR := s.reqs.filter (fun r => r.gkey == s.cur && r.team == g.team && r.pending && !r.isLook
    && r.parts.any (fun p => coversSpace st p.space))
  let mineL := s.loads.filter (fun l => l.gkey == s.cur && l.team == g.team
    && l.parts.any (fun p => coversSpace st p.space || (p.space == 0 && st.getLsbD 0)))
  let mineA := (s.aliases.filter (fun x => x.gkey == s.cur && x.team == g.team)).map AliasStore.uid ++ s.sures.filterMap (fun x =>
    match x.act with
    | .stored u k t => if k = s.cur && t == g.team then some u else none
    | _ => none)
  let ops := (s.team.ops.map Prod.snd).filter (fun e => e.pending && e.gkey == s.cur && a.getLsbD (classPath e.handle)
    && s.commandTouches e.handle st)
  let f : FencePoint :=
    { scope := q, storage := st, later := b.setWidth 7, awaited := false
      reqs := (if a.getLsbD 0 && wide then mineR.map Req.uid else [])
        ++ (if a.getLsbD 4 && st.getLsbD 3 && wide && State.aliasWaits q then mineA else [])
      loads := if a.getLsbD 0 then mineL.map Load.uid else []
      ops := ops.map OpEntry.handle }
  match g.fences with
  | p :: r =>
    if p.awaited then .next s.holdIssue
    else if 4 ≤ g.fences.length then .next ((s.setG { g with fences := { p with awaited := true } :: r }).holdIssue)
    else if s.pointDone g f then
      let s := s.stationEnd s.cur q st
      .next (if b.getLsbD 0 then s.refresh g.ckey st else s)
    else .next (s.setG { g with fences := g.fences ++ [f] })
  | [] =>
    if s.pointDone g f then
      let s := s.stationEnd s.cur q st
      .next (if b.getLsbD 0 then s.refresh g.ckey st else s)
    else .next (s.setG { g with fences := [f] })

/-- FENCE_POINT_SATISFIED (R175): the point goes, and with LS on its later side the core refreshes. -/
def execFencePointSatisfied (gkey i : Nat) (s : State) : Res :=
  let g := s.group gkey
  match g.fences[i]? with
  | none => .next s
  | some f =>
    if !s.pointDone g f then .next s
    else
      let s := (s.setGroup gkey { g with fences := g.fences.eraseIdx i }).stationEnd gkey f.scope f.storage
      .next (if f.later.getLsbD 0 then s.refresh g.ckey f.storage else s)

/-! ### WAITC (R190, R191) -/

namespace State

/-- The read of a WAITC of a word of another pound, for a group of a team: a request like any other (R310, R313). -/
def sendWord (s : State) (gk team fn : Nat) (p : LoadPart) : State :=
  s.sendLook .word (gk / 16) gk team fn 8 (homePound p.loc) [lookPart p p.loc]

/-- A waiting WAITC evaluated again, at the word's coherence point (R179): at its own die at once; at another pound its home has found it
satisfied, or it is read once more, where no read of it is under way. -/
def waitcEval (s : State) (gkey : Nat) : State :=
  let g := s.group gkey
  match g.wait with
  | .waitc loc slot thr =>
    if homePound loc = gkey / 16 / 512 then
      let s := s.recallLine (gkey / 16) loc
      if s.natSlot loc slot 8 < thr.toNat then s else (s.modGroup gkey (fun g => { g with wait := .ready })).unwatch loc gkey
    else if thr = 0 then (s.modGroup gkey (fun g => { g with wait := .ready })).unwatch loc gkey
    else if s.evaluated gkey loc || s.reqs.any (fun r => r.kind == .word && r.gkey == gkey && r.team == g.team) then s
    else s.sendWord gkey g.team g.fn { lane := 0, space := 0, loc, value := none, expo := none, slot }
  | _ => s

end State

/-- WAITC (R190): the word is compared at its coherence point, at another pound by a request whose answer ends the wait. -/
def execWaitc (a b : Operand) (s : State) : Res :=
  let g := s.g
  let va := (s.rdPair a).toNat
  let thr := s.rdPair b
  let (s, x) := s.translate g.die g.fn (some g.ckey) va 8 .waitc
  match s.absentStop true [⟨0, va, s.orFailed va x⟩] .waitc with
  | some t => .next t
  | none =>
    let x := s.orFailed va x
    let s := s.modG (fun g => { g with failedVa := none })
    match x with
    | .fault k => .next (s.scalarFault k va)
    | .ok sp loc slot expo =>
      let s := s.modG Group.dropLatches
      let wait (s : State) : State := s.modG (fun g => { g with wait := .waitc loc slot thr })
      if homePound loc ≠ g.die then
        .next ((wait s).sendWord s.cur g.team g.fn { lane := 0, space := sp, loc, value := none, expo, slot, va })
      else
        let s := s.recallLine g.ckey loc
        if s.natSlot loc slot 8 < thr.toNat then .next ((wait s).watch loc s.cur) else .next s
    | _ => .next (s.scalarFault 2 va)

/-- WAITC_WAKE (R191): evaluation after a store, atomic or increment to the word. -/
def execWaitcWake (gkey : Nat) (s : State) : Res := .next (s.waitcEval gkey)
/-- WAITC_POLL (R191): evaluation at the end of a poll interval. -/
def execWaitcPoll (gkey : Nat) (s : State) : Res := .next (s.waitcEval gkey)

/-! ### Rejoin and replay (R38, R39, R152 row 7) -/

/-- REJOIN_REPLAY: the pages are serviced; the lanes whose service failed fault, and the others are replayed from the park
offset with the latch lanes they had there. -/
def execRejoinReplay (gkey : Nat) (s : State) : Res :=
  let g := s.group gkey
  if g.wait != .rejoin || !g.waitPages.isEmpty then .next s
  else
    let bad := g.parkedOn.filter (fun p => g.failedPages.contains (p.fkey, p.page))
    let rest := g.parked &&& ~~~(maskOf (bad.map (fun p => p.lane)))
    let lat := (List.range 4).foldl (fun t k => (lanesOf rest).foldl (fun t l =>
      t.set (64 * k + l) (g.parkLat.get (64 * k + l) 0)) t) g.lat
    let g' := { g with wait := .ready, failedPages := [], parkedOn := [], parked := 0, lat := lat, latValid := g.parkLatValid,
                       parkLat := [], shifts := [], latCut := false
                       replays := ⟨rest, g.rejoinAt, g.latValid, g.shifts, g.latCut⟩ :: g.replays,
                       offset := if rest = 0 then g.rejoinAt else g.parkOffset }
    let s := { s with cur := gkey }.setG g'
    let s := bad.foldl (fun s p =>
      let i : Issue := { word := p.word, planes := p.planes, here := g.parkOffset, mask := laneBit p.lane, run := g.replays.length }
      State.laneFault { s with iss := i } p.lane 8 p.va) s
    .next { s with iss := {} }

end Sys2Proof.Machine
end

