-- ==== Sys2Proof/Machine/Engines.lean ====
section
/-! DEFINITION. Engine commands (R231): how they are accepted, refused and queued; the matrix sequencer (R232 to R236),
the near-memory multipliers (R237, R238) and the rotate ring (R243). -/

namespace Sys2Proof.Machine

open Sys2Proof

/-- A local-store range that a command names (R172), in bytes of its team's allocation. -/
structure LsRange where
  lo : Nat
  hi : Nat
  write : Bool
  piece : Nat := 0
  deriving DecidableEq, Repr

/-- The lowest reason among the checks that fail (R225). -/
def leastReason (cs : List (Bool × Nat)) : Option Nat :=
  cs.foldl (fun r c => if c.1 then (match r with | none => some c.2 | some k => some (min k c.2)) else r) none

/-- A signed register. -/
def sReg (w : Word) : Int := w.toInt

namespace State

/-- Register `i` of the command block that a blk field names. -/
def blk (s : State) (a : Operand) (i : Nat) : Word :=
  match a with
  | .s n => s.g.sr (n.val + i)
  | _ => 0

def blkN (s : State) (a : Operand) (i : Nat) : Nat := (s.blk a i).toNat

/-- The handle of the next command of a class, its entry and its place in H[D] (R222, R231). -/
def issueHandle (s : State) (cls : Nat) (d : Operand) : State × Origin :=
  let g := s.g
  let t := s.team
  let h : Word := BitVec.ofNat 32 (cls * 2 ^ 28 + t.gen.toNat * 2 ^ 16 + t.opCount.toNat)
  let e : OpEntry := { handle := h, word := 0, bitmap := 0, pending := true, gkey := s.cur }
  let s := s.modTeam g.team (fun t => { t with ops := t.ops.set (t.opCount.toNat % 128) e, opCount := t.opCount + 1 })
  let s := s.modG (fun g => { g with h := g.h.set (hNum d) h })
  (s, { die := g.die, core := g.core, team := g.team, group := g.index, gkey := s.cur, handle := h, offset := s.iss.here })

/-- Ranges enter the range scoreboard (R172). -/
def addScore (s : State) (o : Origin) (rs : List LsRange) : State :=
  let b := (s.teamOf o.team).lsBase
  s.modCore (o.die * 512 + o.core) (fun c => { c with score := c.score ++ rs.map (fun r =>
    { handle := o.handle, team := o.team, lo := b + r.lo, hi := b + r.hi, write := r.write, piece := r.piece }) })

/-- R231: the command waits at issue for its operation-table entry, for room in its queue and for a scoreboard entry for each of
the `need` ranges that it names; then it gets its handle, and is refused with a reason or queued. -/
def issueEngine (s : State) (path cls : Nat) (d : Operand) (room : Bool) (need : Nat) (chk : Except Nat (List LsRange))
    (queue : State → Origin → State) : State :=
  if s.fenceHeld path || (s.team.ops.get (s.team.opCount.toNat % 128) {}).pending || !room
      || 32 < (s.coreOf s.g.ckey).score.length + need then s.holdIssue
  else
    let (s, o) := s.issueHandle cls d
    match chk with
    | .error r => s.completeOp o (State.failWord r 0) 0
    | .ok rs => queue (s.addScore o rs) o

/-- Does an access of an engine command to bytes [lo, hi) of its team's allocation meet an earlier entry (R172)? -/
def engineBlocked (s : State) (o : Origin) (lo hi : Nat) (write : Bool) : Bool :=
  let b := (s.teamOf o.team).lsBase
  ((s.coreOf (o.die * 512 + o.core)).score.takeWhile (fun e => !(e.handle == o.handle && e.team == o.team))).any
    (fun e => s.entryConflict e (b + lo) (b + hi) write)

/-- Where byte `a` of the allocation of a command's team stands. -/
def orgLoc (s : State) (o : Origin) (a : Nat) : Nat :=
  localLoc (o.die * 512 + o.core) ((s.teamOf o.team).lsBase + a)

/-- Bytes written by an engine into the local store; the covered words become full (R138). -/
def engineWrite (s : State) (o : Origin) (a : Nat) (bs : List Byte) : State :=
  (s.putBytes (s.orgLoc o a) bs).setFull (s.orgLoc o a) bs.length

end State

/-! ### Operand values (R90, R95, R233) -/

/-- Elements of a width in bits, element 0 lowest. -/
def splitElems (w : Nat) (bs : List Byte) : List Nat :=
  if w = 4 then bs.flatMap (fun b => [b.toNat % 16, b.toNat / 16])
  else if w = 8 then bs.map (fun b => b.toNat)
  else
    let k := w / 8
    (List.range (bs.length / k)).map (fun i => natOf ((bs.drop (k * i)).take k))

/-- The format of a format block's type code. -/
def blockFmt (t : Nat) : Fmt :=
  match t with
  | 1 => .bf16
  | 2 => .f16
  | 3 => .e4m3
  | 4 => .e5m2
  | _ => .e2m1

/-- Half of a format block (R233), or none where it is refused. Its zero bits are ignored (R5). -/
def formatHalf (bs : List Byte) : Option FormatHalf :=
  let w0 := natOf (bs.take 4)
  let t := bits w0 0 8
  let blocked := bits w0 16 1 == 1
  if t = 0 || 5 < t || (blocked && t != 5) then none
  else some { type := t, blockScaled := blocked, bandScaled := bits w0 17 1 == 1, table := natOf ((bs.drop 4).take 4),
              incr := (BitVec.ofNat 32 (natOf ((bs.drop 8).take 4))).toInt, band := BitVec.ofNat 16 (natOf ((bs.drop 12).take 2)) }

/-- Both halves, which must agree in element width. -/
def formatBlock (bs : List Byte) : Option (FormatHalf × FormatHalf) :=
  match formatHalf (bs.take 16), formatHalf ((bs.drop 16).take 16) with
  | some a, some b => if (blockFmt a.type).bits = (blockFmt b.type).bits then some (a, b) else none
  | _, _ => none

/-- The band scale of an operand; a missing one is 1. -/
def bandValue (f : FormatHalf) : Val :=
  if f.bandScaled then Fmt.bf16.value f.band.toNat else .fin false 1 0

/-- Values of a row of elements with its block scales (none: 1). -/
def rowValues (f : FormatHalf) (els : List Nat) (scales : List Byte) : List Val :=
  let b := bandValue f
  els.zipIdx.map (fun p =>
    let s := if f.blockScaled then Fmt.e3m5.value (scales.getD (p.2 / 8) 0).toNat else .fin false 1 0
    scaledValue ((blockFmt f.type).value p.1) s b)

/-- The hull of `span` bytes moved by `inc` over a number of steps, where it lies in an allocation of `size` bytes. -/
def hull (base : Nat) (inc : Int) (steps span size : Nat) : Option LsRange :=
  let last : Int := base + ((steps : Int) - 1) * inc
  let lo := min (base : Int) last
  let hi := max (base : Int) last + span
  if lo < 0 || (size : Int) < hi then none else some { lo := lo.toNat, hi := hi.toNat, write := false }

/-! ### MLOOP, MZERO, MSTORE (R232 to R236) -/

/-- MSTORE's destination format (R236). -/
def storeFmt (n : Nat) : Fmt :=
  match n with
  | 0 => .f32
  | 1 => .bf16
  | 2 => .f16
  | _ => .e4m3

namespace State

/-- The tiles belong to a team from here on; at a change of owner every element becomes +0 (R232). A tile on which commands of a team
that has ended are still queued is cleared after the last of them (log entry 73, DEDUCED). -/
def ownTiles (s : State) (ck team : Nat) : State :=
  s.modCore ck (fun c =>
    if c.tileOwner = some team then c
    else { c with tileOwner := some team
                  tiles := c.tiles.filter (fun e => c.mx.any (fun p => p.1.team != team && mxTile p.2 == e.1 / 256)) })

/-- Room for a matrix command: the queue, and tiles that are free or the team's own (R231, R232). -/
def mxRoom (s : State) : Bool :=
  let c := s.coreOf s.g.ckey
  c.mx.length < 16 && (c.tileOwner == none || c.tileOwner == some s.g.team)

/-- A matrix command queued. -/
def mxQueue (s : State) (o : Origin) (c : MxCmd) : State :=
  let ck := o.die * 512 + o.core
  let s := (s.ownTiles ck o.team).modCore ck (fun k => { k with mx := k.mx ++ [(o, c)] })
  match c with
  | .mloop t .. => s.post (.matrixStep ck t)
  | .mzero t _ => s.post (.mzeroCompletion ck t)
  | .mstore t .. => s.post (.mstoreWrite ck t)

/-- A matrix command leaves its queue; the next on its tile follows. Of a team that owns the tiles no longer, the last command on a
tile leaves it clear (R232). -/
def mxDone (s : State) (ck : Nat) (o : Origin) (word : Word) : State :=
  let s := s.modCore ck (fun k =>
    let q := k.mx.filter (fun p => p.1 != o)
    let gone := (k.mx.filter (fun p => p.1 == o)).map (fun p => mxTile p.2)
    { k with mx := q
             tiles := if k.tileOwner = some o.team then k.tiles
               else k.tiles.filter (fun e => !gone.contains (e.1 / 256) || q.any (fun p => p.1.team == o.team && mxTile p.2 == e.1 / 256)) })
  (s.completeOp o word 0).kickCore ck

/-- Values of `n` operand rows at a step: elements at `base`, scales at `tab`. -/
def stepRows (s : State) (o : Origin) (f : FormatHalf) (base tab n : Nat) : List (List Val) :=
  (List.range n).map (fun i =>
    rowValues f (splitElems (blockFmt f.type).bits (s.bytesAt (s.orgLoc o (base + 512 * i)) 512))
      (if f.blockScaled then s.bytesAt (s.orgLoc o (tab + 128 * i)) 128 else []))

end State

/-- An address moved by a number of steps. -/
def stepAddr (base : Nat) (inc : Int) (n : Nat) : Nat := ((base : Int) + n * inc).toNat

/-- One element of a matrix step (R97). -/
def dotStep (c : Word) (a b : List Val) : Word :=
  BitVec.ofNat 32 (roundFmt (exactSum (Fmt.f32.value c.toNat) (List.zipWith Val.mul a b)) .f32 .rne false)

/-- MZERO (R235). -/
def execMzero (d : Operand) (i : BitVec 8) (s : State) : Res :=
  .next (s.issueEngine 2 1 d s.mxRoom 0 (.ok []) (fun s o => s.mxQueue o (.mzero (i.toNat % 8) 16)))

/-- MSTORE (R236). -/
def execMstore (d a : Operand) (s : State) : Res :=
  let dst := s.blkN a 0
  let w1 := s.blkN a 1
  let pitch := s.blkN a 2
  let rows := bits (s.blkN a 3) 0 8
  let cols := bits (s.blkN a 3) 8 8
  let f := bits w1 8 4
  let eb := (storeFmt f).bits / 8
  let hi := dst + (max rows 1 - 1) * pitch + max cols 1 * eb
  let chk : Except Nat (List LsRange) := match leastReason [
      (bits w1 17 15 != 0 || bits w1 12 4 != 0 || bits w1 3 5 != 0 || bits (s.blkN a 3) 16 16 != 0
        || s.blkN a 4 != 0 || s.blkN a 5 != 0 || s.blkN a 6 != 0 || s.blkN a 7 != 0, 0x10),
      (dst % 16 != 0 || pitch % 16 != 0 || (f ≤ 3 && s.team.lsSize < hi), 0x11),
      (3 < f, 0x12),
      (rows = 0 || 16 < rows || cols = 0 || 16 < cols || (f ≤ 3 && pitch < 16 * eb), 0x13)] with
    | some r => .error r
    | none => .ok [{ lo := dst, hi := hi, write := true }]
  .next (s.issueEngine 2 1 d s.mxRoom 1 chk (fun s o => s.mxQueue o (.mstore (bits w1 0 3) dst pitch rows cols f (bits w1 16 1 == 1))))

/-- Does something accepted earlier hold back the ranges that an MLOOP's step `k` reads (R172)? -/
def State.stepBlocked (s : State) (o : Origin) (a b : Nat) (incA incB : Int) (fa fb : FormatHalf) (k : Nat) : Bool :=
  let pa := stepAddr a incA k
  let pb := stepAddr b incB k
  let ta := stepAddr fa.table fa.incr k
  let tb := stepAddr fb.table fb.incr k
  s.engineBlocked o pa (pa + 8192) false || s.engineBlocked o pb (pb + 8192) false
    || (fa.blockScaled && s.engineBlocked o ta (ta + 2048) false) || (fb.blockScaled && s.engineBlocked o tb (tb + 2048) false)

/-- MATRIX_STEP (R97, R234): the next step of the first command on the tile, where it is an MLOOP whose step has taken its
32 core cycles and that nothing earlier holds back; a cancelled one ends before its next step. -/
def execMatrixStep (ckey tile : Nat) (s : State) : Res :=
  match s.mxHead ckey tile with
  | some (o, .mloop t a b steps incA incB fa fb rows cols k cancelled left) =>
    if cancelled && left == 32 then .next (s.mxDone ckey o (State.doneWord 1 k))
    else if left ≠ 0 then .next s
    else
      let pa := stepAddr a incA k
      let pb := stepAddr b incB k
      let ta := stepAddr fa.table fa.incr k
      let tb := stepAddr fb.table fb.incr k
      if s.stepBlocked o a b incA incB fa fb k then .next s
      else
        let ra := s.stepRows o fa pa ta rows
        let rb := s.stepRows o fb pb tb cols
        let tiles := ra.zipIdx.foldl (fun m x => rb.zipIdx.foldl (fun m y =>
          let i := 256 * t + 16 * x.2 + y.2
          m.set i (dotStep (m.get i 0) x.1 y.1)) m) (s.coreOf ckey).tiles
        let s := (s.modCore ckey (fun c => { c with tiles := tiles })).countC ckey 9 1
        if k + 1 = steps then .next (s.mxDone ckey o (State.doneWord 0 steps))
        else if cancelled then .next (s.mxDone ckey o (State.doneWord 1 (k + 1)))
        else
          let s := s.modCore ckey (fun c => { c with mx := c.mx.map (fun p =>
            if p.1 = o then (o, .mloop t a b steps incA incB fa fb rows cols (k + 1) cancelled 32) else p) })
          .next s
  | _ => .next s

/-- MZERO_COMPLETION (R235): after its 16 core cycles. -/
def execMzeroCompletion (ckey tile : Nat) (s : State) : Res :=
  match s.mxHead ckey tile with
  | some (o, .mzero t left) =>
    if left ≠ 0 then .next s
    else
      let s := s.modCore ckey (fun c => { c with tiles := c.tiles.filter (fun p => p.1 / 256 != t) })
      .next (s.mxDone ckey o (State.doneWord 0 1))
  | _ => .next s

/-- MSTORE_WRITE (R236): the elements are rounded to nearest even and written, their words full. -/
def execMstoreWrite (ckey tile : Nat) (s : State) : Res :=
  match s.mxHead ckey tile with
  | some (o, .mstore t dst pitch rows cols f sat) =>
    let fm := storeFmt f
    let eb := fm.bits / 8
    if s.engineBlocked o dst (dst + (rows - 1) * pitch + cols * eb) true then .next s
    else
      let tiles := (s.coreOf ckey).tiles
      let s := (List.range rows).foldl (fun s i => s.engineWrite o (dst + i * pitch)
        ((List.range cols).flatMap (fun j =>
          bytesOf eb (roundFmt (Fmt.f32.value (tiles.get (256 * t + 16 * i + j) 0).toNat) fm .rne sat)))) s
      .next ((s.checkFe ckey).mxDone ckey o (State.doneWord 0 1))
  | _ => .next s

/-! ### MVEC (R237, R238) -/

/-- Bytes from one column of B to the next. -/
def columnPitch (kb : Nat) (scaled : Bool) : Nat := if scaled then (kb + kb / 4 + 511) / 512 * 512 else kb

namespace State

/-- The bytes of a range of B (R238): every leaf of type 1 and 2 MiB. -/
def mvecBytes (s : State) (ck fn : Nat) (ps : List (Nat × Nat)) : State × PartAcc (List Byte × Nat) :=
  let d := ck / 512
  match ps with
  | [] => (s, .ok ([], 0))
  | (va, n) :: r =>
    let va := va % 2 ^ 64
    if 2 ^ 48 ≤ va then (s, .bad (1 + 256 * va))
    else
      match s.leafOf d fn none va with
      | (s, none) => (s, .bad (1 + 256 * va))
      | (s, some (e, sz)) =>
        if !e.getLsbD 1 then (s, .wait (d * 8 + fn) (va / 2 ^ sz * 2 ^ sz))
        else if pteType e != 1 || sz != 21 then (s, .bad (0x17 + 256 * va))
        else
          match s.translate d fn none va 1 .load with
          | (s, .ok _ loc slot _) =>
            match (s.recallAll loc n).mvecBytes ck fn r with
            | (s, .ok (bs, k)) => (s, .ok (s.coreView ck loc slot n ++ bs, k))
            | (s, x) => (s, x)
          | (s, .fault k) => (s, .bad (k + 256 * va))
          | (s, .absent f p) => (s, .wait f p)
          | (s, _) => (s, .bad (0x17 + 256 * va))

/-- The first byte of B that an MVEC reads in the page at `p`. -/
def mvecMet (c : NmCmd) (p : Nat) : Nat :=
  let len := if c.fb.blockScaled then c.kb + c.kb / 4 else c.kb
  let cols := (List.range 17).map (fun i => c.base.toNat + (c.done + i) * columnPitch c.kb c.fb.blockScaled)
  max p ((cols.find? (fun a => decide (p < a + len))).getD p)

/-- An MVEC leaves its queue. -/
def nmDone (s : State) (ck : Nat) (o : Origin) (word : Word) (addr : Nat) : State :=
  let s := s.modCore ck (fun k => { k with nm := k.nm.filter (fun p => p.1 != o) })
  (s.completeOp o word addr).kickCore ck

/-- Outputs j to j + m − 1 of an MVEC, or what stops them. -/
def mvecOutputs (s : State) (o : Origin) (c : NmCmd) (av : List Val) (m : Nat) : State × PartAcc (List Nat) :=
  match m with
  | 0 => (s, .ok [])
  | k + 1 =>
    let fn := (s.teamOf o.team).fn
    let col := c.base.toNat + (c.done + k) * columnPitch c.kb c.fb.blockScaled
    let len := if c.fb.blockScaled then c.kb + c.kb / 4 else c.kb
    match s.mvecOutputs o c av k with
    | (s, .ok l) =>
      match s.mvecBytes (o.die * 512 + o.core) fn (pieces 8 col len) with
      | (s, .ok (bs, _)) =>
        let bv := rowValues c.fb (splitElems (blockFmt c.fb.type).bits (bs.take c.kb)) (bs.drop c.kb)
        (s, .ok (l ++ [roundFmt (exactSum (.fin false 0 0) (List.zipWith Val.mul av bv)) .f32 .rne false]))
      | (s, .wait f p) => (s, .wait f p)
      | (s, .bad r) => (s, .bad r)
    | x => x

end State

/-- MVEC_OUTPUT_GROUP (R98, R237, R238): the next sixteen outputs of the core's first MVEC. -/
def execMvecOutputGroup (ckey : Nat) (s : State) : Res :=
  match (s.coreOf ckey).nm with
  | [] => .next s
  | (o, c) :: _ =>
    let m := min 16 (c.n - c.done)
    let tab := c.fa.table
    if c.cancelled then .next (s.nmDone ckey o (State.doneWord 1 c.done) 0)
    else if c.waiting.isSome || s.engineBlocked o c.a (c.a + c.kb) false
        || (c.fa.blockScaled && s.engineBlocked o tab (tab + c.kb / 4) false)
        || s.engineBlocked o (c.result + 4 * c.done) (c.result + 4 * (c.done + m)) true then .next s
    else
      let av := rowValues c.fa (splitElems (blockFmt c.fa.type).bits (s.bytesAt (s.orgLoc o c.a) c.kb))
        (if c.fa.blockScaled then s.bytesAt (s.orgLoc o tab) (c.kb / 4) else [])
      match s.mvecOutputs o c av m with
      | (s, .wait f p) =>
        .next ((s.modCore ckey (fun k => { k with nm := k.nm.map (fun x => if x.1 = o then (o, { c with waiting := some (f, p) }) else x) })).requestPage
          f p .load)
      | (s, .bad r) => .next (s.nmDone ckey o (State.failWord (r % 256) c.done) (r / 256))
      | (s, .ok l) =>
        let s := (s.engineWrite o (c.result + 4 * c.done) (l.flatMap (bytesOf 4))).checkFe ckey
        if c.done + m = c.n then .next (s.nmDone ckey o (State.doneWord 0 c.n) 0)
        else
          .next ((s.modCore ckey (fun k => { k with nm := k.nm.map (fun x => if x.1 = o then (o, { c with done := c.done + m }) else x) })).post
            (.mvecOutputGroup ckey))

/-! ### ROTATE (R243) -/

/-- ROTATE. -/
def execRotate (d a : Operand) (s : State) : Res :=
  let size := s.team.lsSize
  let src := s.blkN a 0
  let dst := s.blkN a 1
  let n := s.blkN a 2
  let chk : Except Nat (List LsRange) := match leastReason [
      ((List.range 5).any (fun i => s.blkN a (3 + i) != 0), 0x10),
      (src % 512 != 0 || dst % 512 != 0 || size < src + n || size < dst + n, 0x11),
      (n % 512 != 0 || n = 0 || 32768 < n, 0x13),
      (s.team.ring.isNone, 0x15)] with
    | some r => .error r
    | none => .ok [{ lo := src, hi := src + n, write := false }, { lo := dst, hi := dst + n, write := true }]
  .next (s.issueEngine 5 4 d (decide ((s.coreOf s.g.ckey).rt.length < 2)) 2 chk (fun s o =>
    let c : RtCmd := { src, dst, bytes := n, n := (s.teamOf o.team).rotates, started := false, left := n / 128 }
    ((s.modCore (o.die * 512 + o.core) (fun k => { k with rt := k.rt ++ [(o, c)] })).modTeam o.team
      (fun t => { t with rotates := t.rotates + 1 })).post (.rotationStart o.team)))

namespace State

/-- A team's first ROTATE. -/
def rtHead (s : State) (team : Nat) : Option (Origin × RtCmd) :=
  let t := s.teamOf team
  (s.coreOf (t.die * 512 + t.core)).rt.find? (fun p => p.1.team == team)

/-- The first ROTATEs of a ring, in ring order, where every member's has been accepted and is the same in number. -/
def ringHeads (s : State) (team : Nat) : Option (List (Origin × RtCmd)) :=
  let ms := (s.teamOf team).cluster
  let hs := ms.filterMap s.rtHead
  if hs.length = ms.length && !ms.isEmpty && hs.all (fun h => h.2.n == (hs.headD h).2.n) then some hs else none

/-- The ROTATEs of a ring are done with, each with a completion word. -/
def endRotation (s : State) (hs : List (Origin × RtCmd)) (word : RtCmd → Word) : State :=
  let s := hs.foldl (fun s h =>
    s.modCore (h.1.die * 512 + h.1.core) (fun k => { k with rt := k.rt.filter (fun p => p.1 != h.1) })) s
  hs.foldl (fun s h => (s.completeOp h.1 (word h.2) 0).kickCore (h.1.die * 512 + h.1.core)) s

end State

/-- ROTATION_START (R243): every member's ROTATE stands, and nothing earlier holds a range back. -/
def execRotationStart (team : Nat) (s : State) : Res :=
  match s.ringHeads team with
  | none => .next s
  | some hs =>
    if hs.any (fun h => h.2.started) then .next s
    else if hs.any (fun h => h.2.bytes != (hs.headD h).2.bytes) then .next (s.endRotation hs (fun _ => State.failWord 0x15 0))
    else if hs.any (fun h => s.engineBlocked h.1 h.2.src (h.2.src + h.2.bytes) false
        || s.engineBlocked h.1 h.2.dst (h.2.dst + h.2.bytes) true) then .next s
    else
      let s := hs.foldl (fun s h => s.modCore (h.1.die * 512 + h.1.core) (fun k =>
        { k with rt := k.rt.map (fun p => if p.1 = h.1 then (p.1, { p.2 with started := true }) else p) })) s
      .next s

/-- A rotation under way is done (R243): every outgoing range is read, then written at the next ring position. -/
def State.rotateNow (s : State) (team : Nat) : State :=
  match s.ringHeads team with
  | none => s
  | some hs =>
    if hs.any (fun h => !h.2.started) then s
    else
      let data := hs.map (fun h => s.bytesAt (s.orgLoc h.1 h.2.src) h.2.bytes)
      let s := hs.zipIdx.foldl (fun s h =>
        (s.engineWrite h.1.1 h.1.2.dst (data.getD ((h.2 + hs.length - 1) % hs.length) [])).checkFe
          (h.1.1.die * 512 + h.1.1.core)) s
      s.endRotation hs (fun c => State.doneWord 0 (c.bytes / 512))

/-- ROTATION_COMPLETION (R243): once 128 bytes a core cycle have been moved. -/
def execRotationCompletion (team : Nat) (s : State) : Res :=
  match s.ringHeads team with
  | none => .next s
  | some hs => if hs.any (fun h => h.2.left != 0) then .next s else .next (s.rotateNow team)

end Sys2Proof.Machine
end

