-- ==== Sys2Proof/Machine/Copies.lean ====
section
/-! DEFINITION. Copies: XST (R239), templates (R247 to R250), tokens (R195 to R197), chunks and their conversion (R240,
R241, R248), the Keeper's remainders (R242), network transfers at the issuer (R320 to R325), arrival counters (R189). -/

namespace Sys2Proof.Machine

open Sys2Proof

/-! ### Templates (R247 to R249) -/

def Template.ws (t : Template) : Nat := (NumType.ofCode t.srcType).bits
def Template.wd (t : Template) : Nat := (NumType.ofCode t.dstType).bits
/-- Chunks of the tile. -/
def Template.chunks (t : Template) : Nat := t.tileBytes / 512
/-- Source bytes of one chunk. -/
def Template.srcBytes (t : Template) : Nat := 512 * t.ws / t.wd
/-- First source byte of chunk `c` of tile `x`. -/
def Template.srcAt (t : Template) (x c : Nat) : Nat := (t.src + x * t.srcStride + c * t.srcBytes) % 2 ^ 64
def Template.dstAt (t : Template) (x c : Nat) : Nat := (t.dst + x * t.dstStride + 512 * c) % 2 ^ 64
def Template.scaleAt (t : Template) (x c : Nat) : Nat := (t.scaleDst + x * t.tileBytes / t.wd + 128 * c) % 2 ^ 64

/-- Source bytes of the tile, and its scale bytes: an eighth of a byte more counts as a byte. -/
def Template.srcSpan (t : Template) : Nat := (t.tileBytes * t.ws + t.wd - 1) / t.wd
def Template.scaleSpan (t : Template) : Nat := (t.tileBytes + t.wd - 1) / t.wd

/-- Local-store ranges of a copy that its template names (R241): with a type code that no format has, those that do not depend on it. -/
def Template.ranges (t : Template) (x : Nat) : List LsRange :=
  (if t.srcKind = 0 && t.srcType ≤ 9 && t.dstType ≤ 9 then [{ lo := t.srcAt x 0, hi := t.srcAt x 0 + t.srcSpan, write := false }] else [])
    ++ (if t.dstKind = 0 then [{ lo := t.dstAt x 0, hi := t.dstAt x 0 + t.tileBytes, write := true, piece := 512 }] else [])
    ++ (if t.dstKind = 0 && t.scaled && t.dstType ≤ 9 then
      [{ lo := t.scaleAt x 0, hi := t.scaleAt x 0 + t.scaleSpan, write := true, piece := 128 }] else [])

/-- A template as its 64 bytes lay it out. -/
def layTemplate (bs : List Byte) : Template :=
  let w (a n : Nat) : Nat := natOf ((bs.drop a).take n)
  let ctl := w 16 4
  { src := w 0 6, dst := w 8 6, srcKind := bits ctl 2 2, dstKind := bits ctl 4 2, srcType := bits ctl 12 4,
    dstType := bits ctl 16 4, scaled := bits ctl 22 1 == 1, sat := bits ctl 23 1 == 1, rnd := bits ctl 24 3,
    tileBytes := w 20 4, srcStride := w 24 4, dstStride := w 28 4, scaleDst := w 32 6, band := BitVec.ofNat 16 (w 40 2),
    rod := bits (w 44 4) 0 1 == 1, flagged := bits (w 44 4) 1 1 == 1, netDie := bits (w 44 4) 8 5,
    netPkg := bits (w 44 4) 16 10, netReg := bits (w 48 4) 0 11, counter := w 56 6 }

/-- A template's 64 bytes read and checked for tile `x` in an allocation of `size` bytes; the refusal's reason (R249). -/
def parseTemplate (bs : List Byte) (size x : Nat) : Except Nat Template :=
  let w (a n : Nat) : Nat := natOf ((bs.drop a).take n)
  let ctl := w 16 4
  let t := layTemplate bs
  let zeros := [6, 14, 38, 62].all (fun a => w a 2 == 0)
    && bits ctl 0 2 == 0 && bits ctl 6 6 == 0 && bits ctl 20 2 == 0 && bits ctl 27 4 == 0
    && w 42 2 == 0 && bits (w 44 4) 2 6 == 0 && bits (w 44 4) 13 3 == 0 && bits (w 44 4) 26 6 == 0
    && bits (w 48 4) 11 21 == 0 && w 52 4 == 0
  let types := t.srcType ≤ 9 && t.dstType ≤ 9
  let e2m1 := (t.srcType != 5 || t.dstType == 5) && (t.scaled == (t.srcType != 5 && t.dstType == 5))
  let shape := t.tileBytes % 512 == 0 && 512 ≤ t.tileBytes && t.tileBytes ≤ 32768
    && [t.src, t.dst, t.srcStride, t.dstStride, t.scaleDst].all (fun n => n % 16 == 0)
  let kinds := t.srcKind != 3 && t.dstKind != 3 && !(t.srcKind == 2 && t.dstKind == 2) && !(t.dstKind == 2 && t.counter != 0)
  if (t.ranges x).any (fun r => size < r.hi) then .error 0x11
  else if bits ctl 31 1 == 1 && zeros && types && t.rnd ≤ 4 && e2m1 && shape && kinds then .ok t
  else .error 0x14

/-- Elements packed into bytes, element 0 lowest. -/
def packBytes (w : Nat) (els : List Nat) : List Byte :=
  if w = 4 then
    (List.range (els.length / 2)).map (fun i => BitVec.ofNat 8 (els.getD (2 * i) 0 % 16 + 16 * (els.getD (2 * i + 1) 0 % 16)))
  else els.flatMap (bytesOf (w / 8))

/-- Blocks of eight. -/
def blocks8 {α : Type} (fuel : Nat) (l : List α) : List (List α) :=
  match fuel with
  | 0 => []
  | k + 1 => if l.isEmpty then [] else l.take 8 :: blocks8 k (l.drop 8)

/-- A chunk converted (R96, R106, R248): its destination bytes and its scale bytes. -/
def convertChunk (t : Template) (src : List Byte) : List Byte × List Byte :=
  let st := NumType.ofCode t.srcType
  let dt := NumType.ofCode t.dstType
  if t.scaled then
    let qs := (blocks8 128 ((splitElems t.ws src).map st.value)).map (quantise (Fmt.bf16.value t.band.toNat))
    (packBytes 4 (qs.flatMap Prod.snd), qs.map (fun q => BitVec.ofNat 8 q.1))
  else if t.srcType = t.dstType then (src, [])
  else (packBytes t.wd ((splitElems t.ws src).map (convert st dt (Rnd.ofCode t.rnd) t.sat)), [])

namespace State

/-! ### Tokens (R195 to R197) -/

/-- A token for a chunk of a function: from its level, or by borrowing from the die's pool. -/
def takeToken (s : State) (fkey : Nat) : Option State :=
  let f := s.fnOf fkey
  if 0 < f.level then some (s.setFn fkey { f with level := f.level - 1 })
  else
    let b := min f.cfg.depth (s.die (fkey / 8)).pool
    if f.debt = 0 && b != 0 then
      some ((s.setFn fkey { f with level := b - 1, debt := b }).modDie (fkey / 8) (fun d => { d with pool := d.pool - b }))
    else none

/-- One refill tick of a function (R196). -/
def refill (s : State) (fkey : Nat) : State :=
  let f := s.fnOf fkey
  let repay := min f.debt ((f.cfg.rate + 1) / 2)
  let up := f.level + (f.cfg.rate - repay)
  let level := min up f.cfg.depth
  (s.setFn fkey { f with level := level, debt := f.debt - repay }).modDie (fkey / 8)
    (fun d => { d with pool := min 65536 (d.pool + repay + (up - level)) })

/-- A chunk that would have to borrow stands behind the chunks of lower-numbered functions of its die that ask next (R197). -/
def borrowBehind (s : State) (c : Copy) : Bool :=
  (s.fnOf (c.org.die * 8 + c.fn)).level == 0
    && s.agenda.any (fun a => match a with
      | .event (.copyChunkAcceptance u) | .event (.keeperChunk u) =>
        s.copies.any (fun x => x.uid == u && x.org.die == c.org.die && decide (x.fn < c.fn))
      | _ => false)

/-! ### Copies in flight -/

def copyOf (s : State) (uid : Nat) : Option Copy := s.copies.find? (fun c => c.uid == uid)
def setCopy (s : State) (c : Copy) : State := { s with copies := s.copies.map (fun x => if x.uid = c.uid then c else x) }

/-- A team that has been saved and not yet restored (R219). -/
def isSaved (s : State) (team : Nat) : Bool :=
  let t := s.teamOf team
  (s.fnOf (t.die * 8 + t.fn)).saved.any (fun x => x.uid == team)

/-- A team's record while it is saved. -/
def savedTeam (s : State) (team : Nat) : Option SavedTeam :=
  let t := s.teamOf team
  (s.fnOf (t.die * 8 + t.fn)).saved.find? (fun x => x.uid == team)

/-- Bytes of the allocation of a copy's team: in the local store, or in the save area while the team is saved (R219). -/
def copyBytes (s : State) (o : Origin) (a n : Nat) : List Byte :=
  match s.savedTeam o.team with
  | some x => Memory.readBytes x.ls a n
  | none => s.bytesAt (s.orgLoc o a) n

/-- Bytes written there, their words full (R241). -/
def copyPut (s : State) (o : Origin) (a : Nat) (bs : List Byte) : State :=
  match s.savedTeam o.team with
  | some x =>
    let y := { x with ls := Memory.writeBytes x.ls a bs, empties := Empties.fill x.empties (a / 4) ((a + bs.length + 3) / 4) }
    s.modFn (o.die * 8 + (s.teamOf o.team).fn) (fun f => { f with saved := f.saved.map (fun z => if z.uid = x.uid then y else z) })
  | none => s.engineWrite o a bs

/-- Does an earlier entry of the scoreboard hold an access of a copy back (R172)? -/
def copyBlocked (s : State) (o : Origin) (lo hi : Nat) (write : Bool) : Bool :=
  match s.savedTeam o.team with
  | some x => (x.score.takeWhile (fun e => e.handle != o.handle)).any (fun e => s.entryConflict e lo hi write)
  | none => s.engineBlocked o lo hi write

/-- Copies of a saved team stop at a chunk boundary; its network transfers go on (R219). -/
def heldCopy (s : State) (c : Copy) : Bool :=
  s.isSaved c.org.team && !(match c.tmpl with | some t => t.srcKind == 2 || t.dstKind == 2 | none => false)

/-- Chunks written: the bits of the bitmap. -/
def copyCount (c : Copy) : Nat := (lanesOf c.bitmap).length

/-- The copy's bitmap follows into the operation table (R241). -/
def setBit (s : State) (c : Copy) (k : Nat) : State :=
  let m := c.bitmap ||| laneBit k
  let i := c.org.handle.toNat % 128
  (s.setCopy { c with bitmap := m }).modTeam c.org.team (fun t =>
    let e := t.ops.get i {}
    if e.handle == c.org.handle then { t with ops := t.ops.set i { e with bitmap := m } } else t)

/-- A copy leaves, complete with a word. -/
def endCopy (s : State) (c : Copy) (word : Word) (addr : Nat) : State :=
  let s := { s with copies := s.copies.filter (fun x => x.uid != c.uid), packets := s.packets.filter (fun p => p.copy != c.uid) }
  ((s.completeOp c.org word addr).kickCore (c.org.die * 512 + c.org.core)).lookRevoked

/-- Is the acknowledgement of a chunk that a copy has written at another pound on its way to its engine (R16)? -/
def writtenAck (s : State) (uid : Nat) : Bool := s.sures.any (fun x => match x.act with
  | .written u _ _ => u == uid
  | _ => false)

/-- Is the answer to an increment of a copy's counter at another pound on its way (R16)? -/
def countedAck (s : State) (uid : Nat) : Bool := s.sures.any (fun x => match x.act with
  | .counted c _ => c == some uid
  | _ => false)

/-- A copy completes once nothing of it is under way (R224, R228, R242, R248). -/
def finishCopy (s : State) (uid : Nat) : State :=
  match s.copyOf uid with
  | none => s
  | some c =>
    match c.tmpl with
    | none =>
      if c.cancelled then s.endCopy c (doneWord 1 0) 0 else s
    | some t =>
      let busy := !c.started.isEmpty || !c.flying.isEmpty || !c.landed.isEmpty || s.writtenAck uid || s.packets.any (fun p => p.copy == uid)
        || s.incrs.any (fun i => i.copy == some uid) || s.countedAck uid
        || (match c.keeper with | some (_ :: _) => true | _ => false)
      let n := copyCount c
      if busy then s
      else match c.failed with
        | some (r, a) => if n = t.chunks || c.keeper.isSome || c.cancelled then s.endCopy c (failWord r n) a else s
        | none =>
          if n = t.chunks then s.endCopy c (doneWord (if c.keeper.isSome then 3 else 0) n) 0
          else if c.cancelled then s.endCopy c (doneWord 1 n) 0
          else s

/-- Entries of a copy in the scoreboard leave with its last access to their ranges (R173): the source's when every chunk has been
read, the destination's when every chunk has been written. -/
def dropRanges (s : State) (uid : Nat) : State :=
  match s.copyOf uid with
  | none => s
  | some c =>
    match c.tmpl with
    | none => s
    | some t =>
      let ck := c.org.die * 512 + c.org.core
      let read := c.accepted = t.chunks && c.started.isEmpty && (c.keeper.getD []).isEmpty
      let s := if read then s.dropEntries ck c.org.team c.org.handle (fun e => !e.write) else s
      if copyCount c = t.chunks then s.dropEntries ck c.org.team c.org.handle (fun e => e.write) else s

/-- The remainder of a copy passes to the die's Keeper (R242): the chunk `k` that met the fault and the chunks not yet
started, accepted or not; those on their way to another pound complete in the engine, and one of them that meets a fault follows. -/
def handOver (s : State) (c : Copy) (t : Template) (k : Nat) : State :=
  match c.keeper with
  | some l => (s.setCopy { c with keeper := some (if l.contains k then l else l ++ [k]) }).post (.keeperChunk c.uid)
  | none =>
    let going := (c.flying ++ c.landed).map Away.chunk
    let left := (List.range t.chunks).filter (fun j => j != k && (c.accepted ≤ j || (c.started.contains j && !going.contains j)))
    let s := s.setCopy { c with keeper := some (k :: left), started := c.started.filter going.contains }
    let s := s.modLife (fun l => { l with keeperCopies := satUp l.keeperCopies })
    (s.post (.keeperChunk c.uid)).kickCore (c.org.die * 512 + c.org.core)

/-! ### The bytes of a chunk -/

/-- Places of bytes in a function's memory for a copy: leaves of type 1, 2 or 5 (R248); else the failure and its address. -/
def copyPlaces (s : State) (d fn : Nat) (acc : Acc) (va n : Nat) : State × PartAcc (List (Nat × Nat × Nat × Option Nat)) :=
  match s.vPlaces d fn acc (pieces (n / 4096 + 2) va n) with
  | (s, .ok l) => if l.any (fun p => p.1 / 2 ^ 48 == 33) then (s, .bad 2) else (s, .ok l)
  | x => x

/-- The address at which `n` bytes from `va` on cannot be reached: the start, or the first byte of a later page (R226). -/
def metAt (s : State) (d fn : Nat) (acc : Acc) (va n : Nat) : Nat :=
  (((pieces (n / 4096 + 2) va n).find? (fun p => match (s.translate d fn none p.1 1 acc).2 with
    | .ok _ loc _ _ => loc / 2 ^ 48 == 33
    | _ => true)).map Prod.fst).getD va

/-- Bytes stored to their places, counted through exports (R189, R326) and seen by waiting WAITCs. -/
def putPlaces (s : State) (l : List (Nat × Nat × Nat × Option Nat)) (bs : List Byte) : State :=
  l.foldl (fun s p => (match p.2.2.2 with
    | some k => s.postIncr k p.2.2.1 false
    | none => s).wakeAt p.1 p.2.2.1) (s.putPieces l bs)

/-- Do places lie in host memory? -/
def anyHost (l : List (Nat × Nat × Nat × Option Nat)) : Bool := l.any (fun p => homePound p.1 == 24)

/-- What an access of a chunk comes to: the result; a page to be serviced, or a failure, each with the address at which it was met. -/
inductive ChunkAcc (α : Type) where
  | ok (x : α)
  | wait (fkey page addr : Nat) (acc : Acc)
  | bad (kind addr : Nat)
  deriving DecidableEq, Repr

/-- Places for `n` bytes of a chunk at a virtual address. -/
def chunkPlaces (s : State) (c : Copy) (acc : Acc) (va n : Nat) : State × ChunkAcc (List (Nat × Nat × Nat × Option Nat)) :=
  match s.copyPlaces c.org.die c.fn acc va n with
  | (s, .ok l) => (s, .ok l)
  | (s, .wait f p) => (s, .wait f p (s.metAt c.org.die c.fn acc va n) acc)
  | (s, .bad r) => (s, .bad r (s.metAt c.org.die c.fn acc va n))

/-- Places of a virtual range that a chunk reaches; none where it is not one (R248). -/
def virtualPlaces (s : State) (c : Copy) (virtual : Bool) (acc : Acc) (va n : Nat) : State × ChunkAcc (List (Nat × Nat × Nat × Option Nat)) :=
  if virtual then s.chunkPlaces c acc va n else (s, .ok [])

/-- A chunk's accesses translated, its source first, then its destination, then its scale bytes (R248): what it reaches, or what stops
it. -/
def chunkPath (s : State) (c : Copy) (t : Template) (k : Nat) : State × ChunkAcc Away :=
  match s.virtualPlaces c (t.srcKind == 1) .load (t.srcAt c.tile k) t.srcBytes with
  | (s, .wait f p a q) => (s, .wait f p a q)
  | (s, .bad r a) => (s, .bad r a)
  | (s, .ok src) =>
    match s.virtualPlaces c (t.dstKind == 1) .store (t.dstAt c.tile k) 512 with
    | (s, .wait f p a q) => (s, .wait f p a q)
    | (s, .bad r a) => (s, .bad r a)
    | (s, .ok dst) =>
      match s.virtualPlaces c (t.dstKind == 1 && t.scaled) .store (t.scaleAt c.tile k) 128 with
      | (s, .wait f p a q) => (s, .wait f p a q)
      | (s, .bad r a) => (s, .bad r a)
      | (s, .ok scale) =>
        let (u, s) := s.fresh
        (s, .ok { chunk := k, uid := u, src, dst, scale, seqs := [] })

/-- The packet of a chunk that is read from a network endpoint. -/
def readPacket (s : State) (c : Copy) (k : Nat) : Option Packet := s.packets.find? (fun p => p.copy == c.uid && p.chunk == k && p.read)

/-- The source bytes of a chunk: from the local store, from the places that its addresses led to as the copy's core sees them (R127), or
as a network read has brought them. -/
def chunkBytes (s : State) (c : Copy) (t : Template) (a : Away) : List Byte :=
  match t.srcKind with
  | 0 => s.copyBytes c.org (t.srcAt c.tile a.chunk) t.srcBytes
  | 1 => a.src.flatMap (fun p => s.coreView (c.org.die * 512 + c.org.core) p.1 p.2.1 p.2.2.1)
  | _ => ((s.readPacket c a.chunk).map Packet.payload).getD []

/-- A chunk's destination and scale bytes written, in the local store or at the places that its addresses led to; whether host memory
is among the places. -/
def chunkPut (s : State) (c : Copy) (t : Template) (a : Away) (data scale : List Byte) : State × Bool :=
  if t.dstKind = 0 then
    let s := s.copyPut c.org (t.dstAt c.tile a.chunk) data
    let s := if t.scaled then s.copyPut c.org (t.scaleAt c.tile a.chunk) scale else s
    (s.checkFe (c.org.die * 512 + c.org.core), false)
  else ((s.putPlaces a.dst data).putPlaces a.scale scale, anyHost (a.dst ++ a.scale))

/-- Do a chunk's bytes cross to or from another pound? -/
def farChunk (d : Nat) (a : Away) : Bool := (a.src ++ a.dst ++ a.scale).any (fun p => homePound p.1 != d)

/-- The request sequences that a chunk takes toward the pounds it reaches (R310). -/
def takeSeqs (s : State) (c : Copy) (a : Away) : State × Away :=
  let ck := c.org.die * 512 + c.org.core
  let homes := ((farPounds c.org.die a.src).map Prod.fst) ++ ((farPounds c.org.die (a.dst ++ a.scale)).map Prod.fst)
  homes.foldl (fun (x : State × Away) h =>
    let (q, s) := x.1.takeSeq ck h
    (s, { x.2 with seqs := x.2.seqs ++ [(h, q)] })) (s, a)

/-- The flits of a chunk's accesses at other pounds (R16, R311): a request and its data from each source, then the data and the scale
bytes to each destination; the chunk is there with the last of them. -/
def sendChunk (s : State) (c : Copy) (a : Away) : State :=
  let d := c.org.die
  let froms := farPounds d a.src
  let s := froms.foldl (fun s h => s.sendMsg d h.1 false 0 .none) s
  let trips := froms.map (fun h => (h.1, d, true, h.2)) ++ (farPounds d (a.dst ++ a.scale)).map (fun h => (d, h.1, false, h.2))
  trips.zipIdx.foldl (fun s x =>
    s.sendMsg x.1.1 x.1.2.1 x.1.2.2.1 x.1.2.2.2 (if x.2 + 1 = trips.length then .chunk c.uid a.chunk else .none)) s

/-- A chunk leaves for other pounds: it stands among those on their way until its last flit has arrived. -/
def launchChunk (s : State) (c : Copy) (a : Away) : State :=
  let (s, a) := s.takeSeqs c a
  (s.setCopy { c with flying := c.flying ++ [a], sentAt := s.basin.time.toNat }).sendChunk c a

/-- The template's counter counts a written chunk (R248); `host`: bytes of it lie in host memory (R309). -/
def countChunk (s : State) (c : Copy) (t : Template) (host : Bool) : State :=
  if t.counter = 0 then s
  else
    let (u, s) := s.fresh
    let i : Incr := { uid := u, die := c.org.die, fn := c.fn, addr := t.counter, bytes := 512, copy := some c.uid, net := none, host,
                      waiting := none }
    State.post { s with incrs := s.incrs ++ [i] } (.arrivalCounterIncrement u)

/-- A chunk has been performed: its bit, its count, and what its scoreboard bytes held back. -/
def chunkDone (s : State) (c : Copy) (t : Template) (k : Nat) (host : Bool) : State :=
  let s := ((s.setBit c k).countChunk c t host).dropRanges c.uid
  let s := if t.dstKind = 0 then s.kickCore (c.org.die * 512 + c.org.core) else s
  s.finishCopy c.uid

/-! ### Network packets at the issuer (R320 to R325) -/

/-- The Ethernet port a die's transfers leave by: the first that is not fenced, from 24 + die mod 16 on (log entry 17, DESIGN CHOICE). -/
def netPort (s : State) (d : Nat) : Nat :=
  (((List.range 16).map (fun i => 24 + (d + i) % 16)).find? (fun p => !s.basin.fencedPorts.getLsbD p)).getD (24 + d % 16)

/-- The sending direction of a port. -/
def txKey (port : Nat) : Nat := 2 * port

/-- May a port seal a packet: the key of its epoch is active and below its limit (R264, R324)? -/
def canSeal (s : State) (port : Nat) : Bool :=
  let p := s.basin.ports.get (txKey port) {}
  if p.epoch then p.slot1 == .active && p.seal1 < 0x1000000000000 else p.slot0 == .active && p.seal0 < 0x1000000000000

/-- The number of a port's link in the lifetime record (R200): Ethernet ports 24 to 39 are 60 to 75, the host ports 76 and 77. -/
def portLink (port : Nat) : Nat := 36 + port

/-- A flit of a port's link counted (R200). -/
def countPort (s : State) (port : Nat) : State :=
  s.modLife (fun x => { x with flits := x.flits.set (portLink port) (x.flits.get (portLink port) 0 + 1) })

/-- One packet sealed under the current epoch of a port's sending direction (R324). -/
def sealPacket (s : State) (port : Nat) : State :=
  let d := s.basin.ports.get (txKey port) {}
  let d' := if d.epoch then { d with seal1 := d.seal1 + 1 } else { d with seal0 := d.seal0 + 1 }
  (s.modBasin (fun b => { b with ports := b.ports.set (txKey port) d' })).countPort port

/-- A transmission of a packet from its port, under the port's current epoch; without a key it waits. What leaves by a fenced port reaches nobody, and
times out (R321). -/
def transmit (s : State) (uid : Nat) : State :=
  match s.packets.find? (fun p => p.uid == uid) with
  | none => s
  | some p =>
    if !p.atPort || !s.canSeal p.port then s
    else
      let epoch := (s.basin.ports.get (txKey p.port) {}).epoch
      let s := s.sealPacket p.port
      { s with packets := s.packets.map (fun x => if x.uid = uid then { x with sent := x.sent + 1, epoch, due := s.basin.time.toNat + min (8000 * 2 ^ x.sent) 1000000 } else x) }

/-- A packet reaches its port, and is sent (R16, R320); a publish may have waited for that (R162). -/
def reachPort (s : State) (uid : Nat) : State :=
  match s.packets.find? (fun p => p.uid == uid && !p.atPort) with
  | none => s
  | some x =>
    let s := State.transmit { s with packets := s.packets.map (fun p => if p.uid = uid then { p with atPort := true } else p) } uid
    match s.copyOf x.copy with
    | some c => s.post (.publishCompletion c.org.gkey)
    | none => s

/-- A packet crosses the Feeder from its die to its port (R16, R311, R318). -/
def crossOut (s : State) (d : Nat) (p : Packet) : State :=
  s.sendMsg d 24 false (if p.read then 0 else p.payload.length + ((p.scale.map (fun x => x.2.length)).getD 0)) (.act (.port p.uid))

/-- A packet of a transfer made and sent: the data of a chunk, its scale bytes with it (R320, R248). -/
def sendPacket (s : State) (c : Copy) (t : Template) (k off : Nat) (read : Bool) (payload : List Byte)
    (scale : Option (Nat × List Byte)) : State :=
  let (u, s) := s.fresh
  let p : Packet := { uid := u, copy := c.uid, chunk := k, off, read, sent := 0, due := 0, acked := false, port := s.netPort c.org.die,
                      epoch := false, fwde := none, payload, scale, rod := t.rod, atPort := false, back := false, sentAt := s.basin.time.toNat }
  State.crossOut { s with packets := s.packets ++ [p] } c.org.die p

/-- A chunk's write to a network endpoint sent. -/
def sendWrite (s : State) (c : Copy) (t : Template) (k : Nat) (data scale : List Byte) : State :=
  s.sendPacket c t k (t.dstAt c.tile k) false data (if t.scaled then some (t.scaleAt c.tile k, scale) else none)

/-- A flagged write still waits for the acknowledgement of another chunk (R322). -/
def flagHeld (c : Copy) (t : Template) (k : Nat) : Bool :=
  t.flagged && t.dstKind == 2 && k + 1 == t.chunks && copyCount c != k

/-- The sequences of a chunk accepted by the home slices that it reaches (R313). -/
def acceptChunk (s : State) (c : Copy) (a : Away) : State :=
  a.seqs.foldl (fun s q =>
    let slices := (((a.src ++ a.dst ++ a.scale).filter (fun p => homePound p.1 == q.1)).map (fun p => if q.1 < 24 then homeSlice p.1 % 64 else 0)).dedup
    s.acceptAt q.1 slices (c.org.die * 512 + c.org.core) q.2 []) s

/-- May a chunk that has arrived at other pounds be performed: behind no earlier request and no earlier chunk of its core to a common 256-byte
line there (R316)? -/
def chunkDue (s : State) (c : Copy) (a : Away) : Bool :=
  let ck := c.org.die * 512 + c.org.core
  (farPounds c.org.die (a.src ++ a.dst ++ a.scale)).all (fun h =>
    let lines := awayLines a h.1
    !s.reqs.any (fun r => r.srcKey == ck && decide (r.uid < a.uid) && !r.performed && r.home == h.1
      && r.parts.any (fun p => lines.contains (p.loc / 256))) && !s.behindChunk ck a.uid h.1 lines)

/-- A chunk has been written: at the die of its copy at once; else the pound it went to last acknowledges it (R16, R311). -/
def ackChunk (s : State) (c : Copy) (t : Template) (a : Away) (host : Bool) : State :=
  match (farPounds c.org.die (a.dst ++ a.scale)).getLast? with
  | some h => s.sendSure h.1 c.org.die true 0 (.written c.uid a.chunk host)
  | none => s.chunkDone c t a.chunk host

/-- The acknowledgement of a chunk reaches its engine. -/
def chunkWritten (s : State) (uid k : Nat) (host : Bool) : State :=
  match s.copyOf uid with
  | some c => match c.tmpl with
    | some t => s.chunkDone c t k host
    | none => s
  | none => s

/-- The lines of places that the part reaches by itself are recalled from cores that have acquired them (R179). -/
def recallPlaces (s : State) (l : List (Nat × Nat × Nat × Option Nat)) : State := l.foldl (fun s p => s.recallAll p.1 p.2.2.1) s

/-- A chunk performed: its bytes converted and written, or sent in a packet; lines that cores have acquired are recalled first (R179). The
chunk's own record among those started, on their way and arrived goes. -/
def performChunk (s : State) (c : Copy) (t : Template) (a : Away) : State :=
  let other (b : Away) : Bool := b.chunk != a.chunk
  let c := { c with started := c.started.filter (fun k => k != a.chunk), flying := c.flying.filter other, landed := c.landed.filter other }
  let s := s.recallPlaces (a.src ++ a.dst ++ a.scale)
  let (data, scale) := convertChunk t (s.chunkBytes c t a)
  let s := (s.setCopy c).acceptChunk c a
  if t.dstKind = 2 then (s.sendWrite c t a.chunk data scale).dropRanges c.uid
  else
    let (s, h) := s.chunkPut c t a data scale
    let s := { s with packets := s.packets.filter (fun p => !(p.copy == c.uid && p.chunk == a.chunk)) }
    ((s.ackChunk c t a h).lookRevoked).afterOrder (c.org.die * 512 + c.org.core)

/-- A chunk of the remainder is not written (R242): its reason stands if it is the first; a flagged write, which no longer comes after
every other chunk, is not sent either (R322). -/
def dropChunk (c : Copy) (r at' : Nat) : Copy :=
  let rest := (c.keeper.getD []).drop 1
  let last := match c.tmpl with
    | some t => if t.flagged && t.dstKind == 2 then t.chunks - 1 else t.chunks
    | none => 64
  { c with keeper := some (rest.filter (fun k => k != last)), failed := if c.failed.isSome then c.failed else some (r, at') }

/-- Room for a packet among the port's transfer contexts (R310): each outstanding packet takes one (log entry 79, DESIGN CHOICE). -/
def netRoom (s : State) (d : Nat) : Bool := (s.packets.filter (fun p => p.port == s.netPort d)).length < 4096

/-- A copy with a network end, whose next packet finds no room. -/
def portFull (s : State) (c : Copy) (t : Template) : Bool := (t.srcKind == 2 || t.dstKind == 2) && !s.netRoom c.org.die

/-- Chunks that have found no room at a port are tried again. -/
def kickNet (s : State) (d : Nat) : State :=
  (s.copies.filter (fun c => c.org.die == d && c.tmpl.any (fun t => t.srcKind == 2 || t.dstKind == 2))).foldl (fun s c =>
    c.started.foldl (fun s k => s.post (.copyChunkWrite c.uid k)) s) s

/-! ### Acceptance -/

/-- An accepted copy's template is read (R239, R250): the copy goes on, waits for the template's page, or ends. -/
def readTemplate (s : State) (c : Copy) : State :=
  match s.vRead c.org.die c.fn c.templAddr 64 with
  | (s, .ok bs) =>
    match parseTemplate bs c.lsSize c.tile with
    | .error r => s.endCopy c (failWord r 0) 0
    | .ok t =>
      if 32 < (s.coreOf (c.org.die * 512 + c.org.core)).score.length + (t.ranges c.tile).length then s
      else ((s.addScore c.org (t.ranges c.tile)).setCopy { c with tmpl := some t }).post (.copyChunkAcceptance c.uid)
  | (s, .wait f p) => (s.setCopy { c with waiting := some (f, p) }).requestPage f p .load
  | (s, .bad k) => s.endCopy c (failWord k 0) c.templAddr

/-- The copies that stand in a core's channel, in order: not those of a saved team, nor those handed over (R240, R242). -/
def channelCopies (s : State) (die core chan : Nat) : List Copy :=
  s.copies.filter (fun x => x.org.die == die && x.org.core == core && x.channel == chan && x.keeper.isNone && !s.isSaved x.org.team)

/-- A copy has to stand back in its channel: an earlier one still has chunks to be accepted (R227), or eight stand before it (R240),
as may be after a restore. -/
def channelBusy (s : State) (c : Copy) : Bool :=
  let before := (s.channelCopies c.org.die c.org.core c.channel).takeWhile (fun x => x.uid != c.uid)
  8 ≤ before.length || before.any (fun x => !x.cancelled && (match x.tmpl with
    | none => true
    | some t => decide (x.accepted < t.chunks)))

/-- Does an earlier entry hold back a chunk's accesses to the local store (R172)? -/
def chunkBlocked (s : State) (c : Copy) (t : Template) (k : Nat) : Bool :=
  (t.srcKind == 0 && s.copyBlocked c.org (t.srcAt c.tile k) (t.srcAt c.tile k + t.srcBytes) false)
    || (t.dstKind == 0 && s.copyBlocked c.org (t.dstAt c.tile k) (t.dstAt c.tile k + 512) true)
    || (t.dstKind == 0 && t.scaled && s.copyBlocked c.org (t.scaleAt c.tile k) (t.scaleAt c.tile k + 128) true)

end State

/-- XST (R239). -/
def execXst (_d a b : Operand) (s : State) : Res :=
  let g := s.g
  let va := (s.rdPair a).toNat
  let data := (s.rd b 0).toNat
  let chan := bits va 12 2
  if s.fenceHeld 1 then .next s.holdIssue
  else if 2 ^ 48 ≤ va then .next (s.scalarFault 1 va)
  else if bits va 0 12 != 0 || bits va 14 2 != 0 then .next (s.scalarFault 3 va)
  else
    let (s, x) := s.translate g.die g.fn (some g.ckey) va 1 .xst
    match s.absentStop true [⟨0, va, s.orFailed va x⟩] .xst with
    | some t => .next t
    | none =>
    let x := s.orFailed va x
    let s := s.modG (fun g => { g with failedVa := none })
    match x with
    | .fault k => .next (s.scalarFault k va)
    | .aperture =>
      let cfg := (s.fnOf g.fkey).cfg
      let ta := cfg.templBase + 64 * bits data 0 10
      let room := decide ((s.channelCopies g.die g.core chan).length < 8)
      let start (s : State) (o : Origin) (t : Option Template) (w : Option (Nat × Nat)) : State :=
        let (u, s) := s.fresh
        let c : Copy := { uid := u, org := o, fn := g.fn, channel := chan, tile := bits data 10 22, templAddr := ta, tmpl := t,
                          lsBase := s.team.lsBase, lsSize := s.team.lsSize, accepted := 0, started := [], flying := [], landed := [], sentAt := 0, bitmap := 0,
                          cancelled := false, keeper := none, failed := none, waiting := w, waitAt := ta }
        State.post { s with copies := s.copies ++ [c] } (.copyChunkAcceptance u)
      if cfg.templCount ≤ bits data 0 10 then .next (s.issueEngine 1 3 _d room 0 (.error 0x14) (fun s _ => s))
      else
        match s.vRead g.die g.fn ta 64 with
        | (s, .ok bs) =>
          let need := ((layTemplate bs).ranges (bits data 10 22)).length
          match parseTemplate bs s.team.lsSize (bits data 10 22) with
          | .error r => .next (s.issueEngine 1 3 _d room need (.error r) (fun s _ => s))
          | .ok t => .next (s.issueEngine 1 3 _d room need (.ok (t.ranges (bits data 10 22))) (fun s o => start s o (some t) none))
        | (s, .wait f p) =>
          .next (s.issueEngine 1 3 _d room 0 (.ok []) (fun s o => (start s o none (some (f, p))).requestPage f p .load))
        | (s, .bad k) =>
          .next (s.issueEngine 1 3 _d room 0 (.ok []) (fun s o => s.completeOp o (State.failWord k 0) ta))
    | _ => .next (s.scalarFault 2 va)

/-- TOKEN_TICK (R196, R197): every function of a die is refilled, and its chunks ask again, in ascending number. -/
def execTokenTick (die : Nat) (s : State) : Res :=
  let s := (List.range 5).foldl (fun s f => s.refill (die * 8 + f)) s
  .next (((State.byFn (s.copies.filter (fun c => c.org.die == die))).foldl (fun s c =>
    s.post (if c.keeper.isSome then .keeperChunk c.uid else .copyChunkAcceptance c.uid)) s).kickNet die)

/-- COPY_CHUNK_ACCEPTANCE (R195, R227, R240): the next chunk takes its token. -/
def execCopyChunkAcceptance (uid : Nat) (s : State) : Res :=
  match s.copyOf uid with
  | none => .next s
  | some c =>
    if c.keeper.isSome || c.waiting.isSome || s.heldCopy c then .next s
    else if c.cancelled then .next (s.finishCopy uid)
    else match c.tmpl with
      | none => .next (s.readTemplate c)
      | some t =>
        let k := c.accepted
        if t.chunks ≤ k || s.channelBusy c || s.chunkBlocked c t k
            || s.portFull c t || State.flagHeld c t k then .next s
        else if s.borrowBehind c then .next (s.post (.copyChunkAcceptance uid))
        else match s.takeToken (c.org.die * 8 + c.fn) with
          | none => .next s
          | some s =>
            let s := s.countC (c.org.die * 512 + c.org.core) 10 1
            let s := s.setCopy { c with accepted := k + 1, started := c.started ++ [k] }
            .next ((s.post (.copyChunkWrite uid k)).post (.copyChunkAcceptance uid))

/-- COPY_CHUNK_WRITE (R241, R248, R320): an accepted chunk is translated, read, converted and written, or leaves as a packet; where it
reads or writes at another pound its flits go first, and it is performed when they have arrived (R311), in its order (R316); one that needs a
packet waits for room at its port (R310). A fault of translation or memory
hands the remainder to the Keeper (R242). -/
def execCopyChunkWrite (uid chunk : Nat) (s : State) : Res :=
  match s.copyOf uid with
  | none => .next s
  | some c =>
    match c.tmpl with
    | none => .next s
    | some t =>
      match c.landed.find? (fun a => a.chunk == chunk) with
      | some a =>
        if (c.keeper.getD []).contains chunk then .next (s.post (.keeperChunk uid))
        else if !s.chunkDue c a || (t.dstKind == 2 && s.portFull c t) then .next s
        else .next (s.performChunk c t a)
      | none =>
        if !c.started.contains chunk || c.flying.any (fun a => a.chunk == chunk) || s.heldCopy c || s.portFull c t then .next s
        else
          let c' := { c with started := c.started.filter (fun k => k != chunk) }
          if t.srcKind = 2 then
            .next (((s.setCopy c').sendPacket c' t chunk (t.srcAt c.tile chunk) true [] none).dropRanges uid)
          else match s.chunkPath c t chunk with
            | (s, .ok a) => if State.farChunk c.org.die a then .next (s.launchChunk c a) else .next (s.performChunk c t a)
            | (s, _) => .next (s.handOver c' t chunk)

/-- KEEPER_CHUNK (R242): the first chunk of the remainder; a chunk is not read or written before the earlier commands whose ranges it
meets (R172), nor a flagged write sent before the other chunks' acknowledgements (R322). The Keeper's chunks do not count in
counter 10 (log entry 69, DESIGN CHOICE). -/
def execKeeperChunk (uid : Nat) (s : State) : Res :=
  match s.copyOf uid with
  | none => .next s
  | some c =>
    match c.keeper, c.tmpl with
    | some (k :: rest), some t =>
      let onward (s : State) : State := ((s.dropRanges uid).post (.keeperChunk uid)).finishCopy uid
      let perform (s : State) (c : Copy) (a : Away) : Res := .next (onward (s.performChunk { c with keeper := some rest } t a))
      if c.waiting.isSome || s.heldCopy c || (s.die c.org.die).keeperDead || c.flying.any (fun a => a.chunk == k) then .next s
      else match c.landed.find? (fun a => a.chunk == k) with
      | some a => if !s.chunkDue c a || (t.dstKind == 2 && s.portFull c t) then .next s else perform s c a
      | none =>
      if c.cancelled then
        .next (State.finishCopy { (s.setCopy { c with keeper := some [] }) with
          packets := s.packets.filter (fun p => !(p.copy == uid && p.acked)) } uid)
      else if s.chunkBlocked c t k || State.flagHeld c t k || (t.dstKind == 2 && !s.netRoom c.org.die) then .next s
      else
        let paid := decide (k < c.accepted)
        if !paid && s.borrowBehind c then .next (s.post (.keeperChunk uid))
        else match (if paid then some s else s.takeToken (c.org.die * 8 + c.fn)) with
        | none => .next s
        | some s =>
          let c := { c with accepted := if paid then c.accepted else k + 1 }
          let drop (s : State) (r a : Nat) : State :=
            onward (State.setCopy { s with packets := s.packets.filter (fun p => !(p.copy == uid && p.chunk == k)) } (State.dropChunk c r a))
          match (if t.srcKind = 2 then s.readPacket c k else none) with
          | some p =>
            if !p.back then .next (s.setCopy c)
            else match s.chunkPath c t k with
              | (s, .wait f p a q) => .next ((s.setCopy { c with waiting := some (f, p), waitAt := a }).requestPage f p q)
              | (s, .bad r a) => .next (drop s r a)
              | (s, .ok a) => if State.farChunk c.org.die a then .next (s.launchChunk c a) else perform s c a
          | none =>
            if t.srcKind = 2 then
              if s.netRoom c.org.die then .next ((s.setCopy c).sendPacket c t k (t.srcAt c.tile k) true [] none) else .next (s.setCopy c)
            else match s.chunkPath c t k with
              | (s, .wait f p a q) => .next ((s.setCopy { c with waiting := some (f, p), waitAt := a }).requestPage f p q)
              | (s, .bad r a) => .next (drop s r a)
              | (s, .ok a) => if State.farChunk c.org.die a then .next (s.launchChunk c a) else perform s c a
    | _, _ => .next (s.finishCopy uid)

namespace State

/-- The record of a delivery context. -/
def inboundOf (s : State) (port pkg context : Nat) : Inbound :=
  (s.basin.inbound.find? (fun i => i.port == port && i.pkg == pkg && i.context == context)).getD ⟨port, pkg, context, [], []⟩

def setInbound (s : State) (x : Inbound) : State :=
  s.modBasin (fun b => { b with
    inbound := b.inbound.filter (fun i => !(i.port == x.port && i.pkg == x.pkg && i.context == x.context)) ++ [x] })

/-- A packet that has been performed: its number stands, and under ROD the packet that waited for it comes up (R322). -/
def packetDone (s : State) (port : Nat) (p : NetPacket) : State :=
  let x := s.inboundOf port p.pkg p.context
  let next := if p.rod then x.held.filter (fun q => q.psn == p.psn + 1) else []
  let s := s.setInbound { x with done := if x.done.contains p.psn then x.done else x.done ++ [p.psn]
                                 held := x.held.filter (fun q => q.psn != p.psn + 1 && q.psn != p.psn) }
  { s with agenda := s.agenda ++ next.map (.packet port) }

/-- The answer to a packet goes back to its port: an acknowledgement, or a read's data (R320). -/
def answerPacket (s : State) (port : Nat) (p : NetPacket) (data : Option (List Byte)) : State :=
  s.sendMsg p.die 24 true ((data.getD []).length) (.act (.reply port data))

/-- A die has heard that an increment has been made, or cannot be: its copy may complete, its packet is acknowledged (R320). -/
def counted (s : State) (copy : Option Nat) (ack : Option (Nat × NetPacket)) : State :=
  match copy, ack with
  | some c, _ => s.finishCopy c
  | none, some (port, p) => s.answerPacket port p none
  | none, none => s

/-- An increment is done with: its die hears of it, from another pound by a message (R16), and a registration that waits for it is looked at
again (R255). -/
def incrDone (s : State) (i : Incr) : State :=
  let s := { s with incrs := s.incrs.filter (fun x => x.uid != i.uid) }
  (match i.home with
    | some (_, loc, _) => s.sendSure (homePound loc) i.die true 0 (.counted i.copy i.ack)
    | none => s.counted i.copy i.ack).lookRevoked

/-- An increment that is not made (R189, R248): its copy fails, or record kind 7 goes to the counter's owner. -/
def incrFailed (s : State) (i : Incr) (r : Nat) : State :=
  match i.copy with
  | none => (s.faultRecord (i.die * 8 + i.fn) 7 (bytesOf 8 i.addr ++ bytesOf 1 3 ++ bytesOf 1 r)).incrDone i
  | some u =>
    State.incrDone { s with copies := s.copies.map (fun c =>
      if c.uid = u && c.failed.isNone then { c with failed := some (r, i.addr) } else c) } i

/-- The 64-bit add at the counter's home (R189, R309); host words of the counted bytes are written back before it (R181). -/
def addCount (s : State) (i : Incr) (sp loc slot : Nat) : State :=
  let s := s.recallAll loc 8
  let s := if i.host then s.writeBack (s.fnOf (i.die * 8 + i.fn)).cfg.hostPort else s
  let s := s.atStation (i.die * 8 + i.fn) (sp == 5) [loc] (fun s => s.storeNat loc slot 8 ((s.natSlot loc slot 8 + i.bytes) % 2 ^ 64))
  (s.wakeAt loc 8).incrDone i

/-- An increment leaves for the home of its counter at another pound (R16, R311). -/
def sendCount (s : State) (i : Incr) (loc : Nat) : State := s.sendMsg i.die (homePound loc) false 8 (.act (.count i.uid))

/-- An increment reaches the home of its counter. -/
def countArrives (s : State) (uid : Nat) : State :=
  match s.incrs.find? (fun i => i.uid == uid) with
  | some i => match i.home with
    | some (sp, loc, slot) => s.addCount i sp loc slot
    | none => s
  | none => s

end State

/-- ARRIVAL_COUNTER_INCREMENT (R189, R248, R309): the counter is translated, and the add made at its home. A template's counter that is not
8-byte aligned, which no check of R249 refuses, fails the copy with reason 0x03 (log entry 96, DESIGN CHOICE). -/
def execArrivalCounterIncrement (uid : Nat) (s : State) : Res :=
  match s.incrs.find? (fun i => i.uid == uid) with
  | none => .next s
  | some i =>
    let acc : Acc := if i.copy.isSome then .atomic else .own64
    let put (s : State) (j : Incr) : State := { s with incrs := s.incrs.map (fun x => if x.uid = uid then j else x) }
    if i.waiting.isSome || i.home.isSome then .next s
    else match s.translate i.die i.fn none i.addr 8 acc with
      | (s, .absent f p) => .next ((put s { i with waiting := some (f, p) }).requestPage f p acc)
      | (s, .ok sp loc slot expo) =>
        if homePound loc = i.die then .next (s.addCount i sp loc slot)
        else
          let j := { i with home := some (sp, loc, slot), expo, sentAt := s.basin.time.toNat }
          .next ((put s j).sendCount j loc)
      | (s, .fault k) => .next (s.incrFailed i k)
      | (s, _) => .next (s.incrFailed i 2)

end Sys2Proof.Machine
end

