-- ==== Sys2Proof/Machine/Launch.lean ====
section
/-! DEFINITION. Launch records and their checks (R205, R206), arrives on barrier objects (R186, R187), results of commands
(R333), placement of teams (R209 to R211) and their save and restore (R219). -/

namespace Sys2Proof.Machine

open Sys2Proof

/-- The next state of an outcome, or the state before it. -/
def nextOr (s : State) (r : Res) : State :=
  match r with
  | .next t => t
  | _ => s

/-! ### Launch records (R205, R206) -/

/-- Bytes [a, a + n) of a record as a number. -/
def recAt (bs : List Byte) (a n : Nat) : Nat := natOf ((bs.drop a).take n)

def parseRecord (bs : List Byte) : LaunchRec :=
  let w (a n : Nat) : Nat := recAt bs a n
  { codeBase := w 0 6, stride := w 8 4, npCode := bits (w 12 4) 0 2, widthCode := bits (w 12 4) 2 2,
    restartable := bits (w 12 4) 4 1 == 1, cooperative := bits (w 12 4) 5 1 == 1, groups := bits (w 12 4) 16 4 + 1,
    allot := bits (w 12 4) 24 8, lsBytes := w 16 4, clusterW := bits (w 20 4) 0 4, clusterH := bits (w 20 4) 4 4,
    gx := w 24 4, gy := w 28 2, gz := w 30 2,
    handler := if bits (w 32 4) 31 1 = 1 then some (BitVec.ofNat 24 (w 32 3)) else none,
    expected := w 36 4, faultArea := w 40 8, deps := (List.range 4).map (fun d => (w (48 + 16 * d) 8, w (56 + 16 * d) 8)),
    barrier := w 112 8, chainNext := w 120 8, bound := bits (w 128 4) 31 1 == 1, slot := w 128 1, resultOff := w 132 4,
    tileBytes := w 136 4, aliasStride := w 140 4,
    zeros := w 6 2 == 0 && bits (w 12 4) 6 10 == 0 && bits (w 12 4) 20 4 == 0 && bits (w 20 4) 8 24 == 0
      && bits (w 32 4) 24 7 == 0 && bits (w 128 4) 8 23 == 0 && w 144 16 == 0 }

/-- Teams of the grid. -/
def LaunchRec.teams (r : LaunchRec) : Nat := r.gx * r.gy * r.gz
/-- Teams placed together: a cluster's, or one. -/
def LaunchRec.unit (r : LaunchRec) : Nat := if r.clusterW = 0 then 1 else r.clusterW * r.clusterH
def LaunchRec.width (r : LaunchRec) : Nat := 8 * 2 ^ r.widthCode

/-! ### Needs and fits (R22, R42, R209) -/

/-- What a team needs of a core: the width of its groups, the allotment of each, local store, free tiles. -/
structure Need where
  width : Nat
  allots : List Nat
  ls : Nat
  tiles : Bool
  deriving DecidableEq, Repr

def LaunchRec.need (r : LaunchRec) : Need :=
  { width := r.width, allots := List.replicate r.groups r.allot, ls := r.lsBytes, tiles := false }

/-- Local-store runs of a core that are taken: those of its teams, of teams whose tile is still to be fired (R215), and
ranges that engine commands still reach (log entry 18, DESIGN CHOICE). -/
def State.lsRuns (s : State) (ck : Nat) : List (Nat × Nat) :=
  ((s.teams.filter (fun p => p.2.die * 512 + p.2.core == ck
      && (p.2.live || (s.launch p.2.launch).firing.contains p.1))).map (fun p => (p.2.lsBase, p.2.lsSize)))
    ++ (s.coreOf ck).score.map (fun e => (e.lo, e.hi - e.lo))

/-- The lowest base of a free run of `n` bytes, a multiple of 768. -/
def State.freeRun (s : State) (ck n : Nat) : Option Nat :=
  let runs := s.lsRuns ck
  ((List.range 769).map (· * 768)).find? (fun b =>
    b + n ≤ 589824 && runs.all (fun r => !(decide (b < r.1 + r.2) && decide (r.1 < b + n))))

/-- Octets for groups of one width with the allotments of a list, each the lowest that fits (R209); `used` holds what the
earlier groups take. -/
def State.fitOctets (s : State) (ck width : Nat) (allots : List Nat) (used : List (Nat × Nat)) : Option (List Nat) :=
  match allots with
  | [] => some []
  | a :: r =>
    let w8 := width / 8
    let free (f : Nat) : Bool := (List.range width).all (fun l =>
      let lane := 8 * f + l
      let mine := (used.filter (fun u => decide (8 * u.1 ≤ lane) && decide (lane < 8 * u.1 + width))).foldl (fun n u => n + u.2) 0
      decide (s.laneUse ck lane + mine + a ≤ 1024))
    match ((List.range (8 / w8)).map (· * w8)).find? free with
    | none => none
    | some f =>
      match s.fitOctets ck width r (used ++ [(f, a)]) with
      | none => none
      | some l => some (f :: l)

/-- Contexts and octets for a team's groups and the base of its local store, where a core has them all. The contexts are the lowest
free ones (log entry 71, DESIGN CHOICE). Saved tiles need a core where no team owns the tiles and no command of an ended team is still to
act on them (R209, R232). -/
def State.fitCore (s : State) (ck : Nat) (n : Need) : Option (List (Nat × Nat) × Nat) :=
  let busy := (s.groupsOn ck).map (fun p => p.2.ctx)
  let ctxs := (List.range 16).filter (fun c => !busy.contains c)
  if (s.coreOf ck).fenced || ctxs.length < n.allots.length || (n.tiles && ((s.coreOf ck).tileOwner.isSome || !(s.coreOf ck).mx.isEmpty)) then none
  else match s.fitOctets ck n.width n.allots [], s.freeRun ck n.ls with
    | some os, some b => some (List.zip ctxs os, b)
    | _, _ => none

/-- Core columns of a function: its own, or for the physical function those of no enabled virtual function (R330). -/
def State.columns (s : State) (fkey : Nat) : BitVec 20 :=
  let d := fkey / 8
  let vfs := (List.range 4).foldl (fun m i =>
    let c := (s.fnOf (d * 8 + i + 1)).cfg
    if c.enabled then m ||| c.columns else m) (0 : BitVec 20)
  if fkey % 8 = 0 then ~~~vfs else (s.fnOf fkey).cfg.columns

/-- May a team be placed on a core now: a core of the function, outside the columns of every pre-emption under way (R217)? Saved teams are
kept off these columns as new ones are (log entry 101, DESIGN CHOICE). -/
def State.coreOpen (s : State) (fkey core : Nat) : Bool :=
  core < 500 && (s.columns fkey).getLsbD (core % 20) && (s.fnOf fkey).preempts.all (fun p => !p.columns.getLsbD (core % 20))

/-- A rectangle's cores in ring order (R23). -/
def ringCores (tl w h : Nat) : List Nat :=
  (List.range h).flatMap (fun r =>
    let row := (List.range w).map (fun c => tl + 20 * r + c)
    if r % 2 = 0 then row else row.reverse)

/-- The cores for a unit, lowest first (R209, R210), with what each offers; `w` 0: one core. A position of a rectangle whose team has
ended needs its core to be one of the function's, and nothing of it. -/
def State.fitUnit (s : State) (fkey w h : Nat) (needs : List (Option Need)) : Option (List (Nat × List (Nat × Nat) × Nat)) :=
  let d := fkey / 8
  let one (c : Nat) (n : Need) : Option (Nat × List (Nat × Nat) × Nat) := (s.fitCore (d * 512 + c) n).map (fun x => (c, x))
  let all (cs : List Nat) : Option (List (Nat × List (Nat × Nat) × Nat)) :=
    let xs := (List.zip cs needs).filterMap (fun p => p.2.bind (one p.1))
    if cs.length = needs.length && cs.all (s.coreOpen fkey) && xs.length == (needs.filterMap id).length then some xs else none
  (List.range 500).findSome? (fun tl =>
    if w = 0 then all [tl]
    else if 20 < tl % 20 + w || 25 < tl / 20 + h then none
    else all (ringCores tl w h))

/-! ### Teams put on cores -/

/-- The next generation of a core (R221): not 0 and not that of a team on it. -/
def nextGen (held : List (BitVec 8)) (g : BitVec 8) (fuel : Nat) : BitVec 8 :=
  match fuel with
  | 0 => g
  | k + 1 =>
    let n := g + 1
    if n = 0 || held.contains n then nextGen held n k else n

/-- A group at its launch values (R66, R67). -/
def newGroup (l : Launch) (uid team core index ctx octet ring : Nat) : Group :=
  let r := l.rcd
  { live := true, die := l.die, core := core, ctx := ctx, fn := l.fn, team := uid, index := index, width := r.width,
    octet := octet, np := 2 ^ r.npCode, codeBase := BitVec.ofNat 48 r.codeBase, stride := BitVec.ofNat 32 r.stride,
    handler := r.handler, faultArea := BitVec.ofNat 64 r.faultArea, exec := lowMask r.width, allot := r.allot,
    s := [(0, BitVec.ofNat 32 team), (1, BitVec.ofNat 32 (ring * 2 ^ 16 + l.die * 2 ^ 8 + index)),
          (2, BitVec.ofNat 32 l.addr), (3, BitVec.ofNat 32 (l.addr / 2 ^ 32))] }

namespace State

/-- A range of a local store becomes zero and full (R135). -/
def clearStore (s : State) (ck base n : Nat) : State :=
  let lo := localLoc ck base
  { s with mem := s.mem.filter (fun c => !(decide (lo ≤ c.1) && decide (c.1 < lo + n)))
           empties := Empties.fill s.empties (lo / 4) ((lo + n) / 4) }

/-- A generation taken from a core's counter, which advances past it (R221, log entry 21, DEDUCED): not one that a team on the core holds. -/
def takeGen (s : State) (ck : Nat) : BitVec 8 × State :=
  let held := (s.teams.filter (fun p => p.2.live && p.2.die * 512 + p.2.core == ck)).map (fun p => p.2.gen)
  let c := (s.coreOf ck).gen
  let g := if held.contains c then nextGen held c 256 else c
  (g, s.modCore ck (fun x => { x with gen := nextGen (g :: held) g 256 }))

/-- A team of a launch placed fresh on a core (R209): zeroed local store, refreshed core (R168), launch values. -/
def putTeam (s : State) (uid lid index : Nat) (x : Nat × List (Nat × Nat) × Nat) (ring : Option Nat) (cluster : List Nat) : State :=
  let l := s.launch lid
  let core := x.1
  let ck := l.die * 512 + core
  let (gen, s) := (s.clearStore ck x.2.2 l.rcd.lsBytes).takeGen ck
  let s := s.refresh ck 0x16
  let keys := x.2.1.map (fun p => ck * 16 + p.1)
  let t : Team := { live := true, die := l.die, core, fn := l.fn, launch := lid, index, groups := keys, lsBase := x.2.2,
                    lsSize := l.rcd.lsBytes, gen, ring, cluster }
  let s := s.setTeam uid t
  x.2.1.zipIdx.foldl (fun s p =>
    s.setGroup (ck * 16 + p.1.1) (newGroup l uid index core p.2 p.1.1 p.1.2 (ring.getD 0))) s

/-- A unit of a launch placed, from team `index` on. -/
def placeUnit (s : State) (lid index : Nat) : Option State :=
  let l := s.launch lid
  let n := l.rcd.unit
  match s.fitUnit (l.die * 8 + l.fn) l.rcd.clusterW l.rcd.clusterH (List.replicate n (some l.rcd.need)) with
  | none => none
  | some xs =>
    let u := s.nextUid
    let ids := (List.range n).map (u + ·)
    let s := { s with nextUid := u + n }
    let inRing := l.rcd.clusterW != 0
    some (xs.zipIdx.foldl (fun s x =>
      s.putTeam (u + x.2) lid (index + x.2) x.1 (if inRing then some x.2 else none) (if inRing then ids else [])) s)

/-- `n` units of a cooperative launch placed, all or none (R210). -/
def placeAll (s : State) (lid index n : Nat) : Option State :=
  match n with
  | 0 => some s
  | k + 1 =>
    match s.placeUnit lid index with
    | none => none
    | some t => t.placeAll lid (index + (s.launch lid).rcd.unit) k

/-- The die with nothing placed on its cores, to judge what could ever fit (R206 code 0x08). -/
def vacant (s : State) : State :=
  { s with groups := [], teams := [], fns := s.fns.map (fun (p : Nat × Fn) => (p.1, { p.2 with preempts := [] }))
           cores := s.cores.map (fun (p : Nat × Core) => (p.1, { p.2 with score := [], tileOwner := none, mx := [] })) }

/-- Could a record's teams ever be placed: a team on an empty core, a cluster on the function's columns, a cooperative
grid on all its cores? -/
def everFits (s : State) (fkey : Nat) (r : LaunchRec) : Bool :=
  let v := s.vacant.setLaunch 0 { live := true, die := fkey / 8, fn := fkey % 8, rcd := r }
  let empty := { v with cores := [] }
  (State.fitCore empty (fkey / 8 * 512) r.need).isSome
    && (r.clusterW == 0 || (v.placeUnit 0 0).isSome)
    && (!r.cooperative || (r.teams ≤ 8000 && (v.placeAll 0 0 (r.teams / r.unit)).isSome))

/-- The first check of R206 that a record fails. -/
def recordCode (s : State) (fkey : Nat) (r : LaunchRec) : Option Nat :=
  let n := r.teams
  if !r.zeros then some 1
  else if r.allot % 16 ≠ 0 || r.allot < 16 || 192 < r.allot then some 2
  else if r.lsBytes % 768 ≠ 0 || 589824 < r.lsBytes then some 3
  else if (r.clusterW == 0) != (r.clusterH == 0) || 12 < r.clusterW * r.clusterH || n % r.unit ≠ 0 then some 4
  else if n = 0 || 2 ^ 32 - 1 < n then some 5
  else if r.codeBase % 256 ≠ 0 || r.stride % 256 ≠ 0 || r.stride < 256 then some 6
  else if r.bound && (r.tileBytes % 256 != 0 || r.tileBytes < 256 || 32768 < r.tileBytes || r.resultOff % 256 != 0
      || r.aliasStride % 256 != 0 || r.aliasStride < r.tileBytes || r.lsBytes < r.resultOff + r.tileBytes
      || 67108864 < (n - 1) * r.aliasStride + r.tileBytes) then some 7
  else if !s.everFits fkey r then some 8
  else none

/-! ### Arrives (R186, R187) -/

/-- One arrival with a status on a barrier object, indivisibly; `own`: the leaf must be of type 1. -/
def arriveAt (s : State) (d fn addr status : Nat) (own : Bool) : State × PartAcc Unit :=
  match s.translate d fn none addr 64 .atomic with
  | (s, .ok sp loc slot _) =>
    if own && sp != 1 then (s, .bad 2)
    else
      let s := s.recallAll loc 20
      let e := max 1 (s.natSlot (loc + 12) slot 4)
      let total := s.natSlot (loc + 8) slot 4 + 1
      let fails := s.natSlot (loc + 16) slot 2
      let s := s.atStation (d * 8 + fn) (sp == 5) [loc, loc + 8, loc + 16] (fun s =>
        let s := s.storeNat loc slot 8 ((s.natSlot loc slot 8 + total / e) % 2 ^ 64)
        let s := s.storeNat (loc + 8) slot 4 (total % e)
        if 0 < total / e then
          s.storeNat (loc + 16) slot 4 (status * 2 ^ 24 + (if status = 0 then fails else min (fails + 1) 0xFFFF))
        else s)
      (s.wakeAt loc 20, .ok ())
  | (s, .absent f p) => (s.requestPage f p .atomic, .wait f p)
  | (s, .fault k) => (s, .bad k)
  | (s, _) => (s, .bad 2)

/-- Record kind 7: an arrive or count that was not made (R334). -/
def notMade (s : State) (fkey addr source reason : Nat) : State :=
  s.faultRecord fkey 7 (bytesOf 8 addr ++ bytesOf 1 source ++ bytesOf 1 reason)

/-- An arrive of a source of R334, now or when its page has been serviced. -/
def arriveFor (s : State) (fkey addr status source : Nat) : State :=
  match s.arriveAt (fkey / 8) (fkey % 8) addr status false with
  | (s, .ok _) => s
  | (s, .wait f p) => { s with arrives := s.arrives ++ [{ fkey, addr, status, source, waiting := (f, p) }] }
  | (s, .bad k) => s.notMade fkey addr source k

/-! ### Results of commands (R333) -/

/-- The control ring's completion counter rises. -/
def bumpDone (s : State) (fkey ring : Nat) : State :=
  match s.vRead (fkey / 8) (fkey % 8) (ring + 16) 8 with
  | (s, .ok bs) => s.partPut fkey (ring + 16) (bytesOf 8 (natOf bs + 1))
  | (s, .wait f p) => (s.holdWrite fkey (.count ring) f p).requestPage f p .store
  | (s, .bad _) => s

/-- A command's result bytes written, then the completion counter raised and the vector signalled. -/
def writeResult (s : State) (fkey addr : Nat) (bs : List Byte) : State :=
  match s.vWrite (fkey / 8) (fkey % 8) addr bs with
  | (s, .wait f p) =>
    { (s.requestPage f p .store) with results := s.results ++ [{ fkey, addr, bytes := bs, waiting := (f, p) }] }
  | (s, _) => (s.bumpDone fkey (s.fnOf fkey).cfg.ctrlRing).signal fkey 2

/-- A command completes with a status. -/
def complete (s : State) (fkey addr status : Nat) : State := s.writeResult fkey addr (bytesOf 8 (2 ^ 63 + status))

/-! ### Saving and restoring (R219) -/

/-- Numbers put into rising order. -/
def insertNat (n : Nat) (l : List Nat) : List Nat :=
  match l with
  | [] => [n]
  | x :: r => if n ≤ x then n :: x :: r else x :: insertNat n r

/-- What a core has outstanding at its own die is performed and answered, in the order of issue. -/
def settleCore (s : State) (ck : Nat) : State :=
  let ls := (s.loads.filter (fun l => l.die * 512 + l.core == ck)).map Load.uid
  let rs := (s.reqs.filter (fun r => r.srcDie * 512 + r.srcCore == ck && r.home == r.srcDie)).map Req.uid
  ((ls ++ rs).foldr insertNat []).foldl (fun s u =>
    let s := nextOr s (execLoadDataReturn u s)
    let s := nextOr s (execRequestArrival u s)
    if rs.contains u then nextOr s (execAtomicReply u s) else s) s

/-- What is left of the offset of a group that is saved: nothing where none of it has been issued, for it is fetched again. A PHASE that
waits in its publish is issued again (R174). -/
def savedHalf (g : Group) (h : Half) : Option Half :=
  match g.wait with
  | .publish _ _ _ => if h.first then none else some { h with todo := (h.iss.word, h.iss.planes, h.iss.mask) :: h.todo, cut := true }
  | _ => if h.iss.made then some { h with cut := true } else none

/-- A group as it is saved: latches invalid, those kept for a replay as well, and not made valid by what is replayed of the time before
(R41); a WAITC, GROW, SHRINK or PHASE to be issued again (R87, R174, R190), and an instruction that waits at issue with nothing of its offset
issued. A wait for a page goes on while it is saved (R156). -/
def savedGroup (g : Group) : Group :=
  let g := { g.dropLatches with
    parkLatValid := 0, latCut := g.latCut || g.parked != 0, replays := g.replays.map (fun (r : Replay) => { r with valid := 0, cut := true })
    stalled := false, half := g.half.bind (savedHalf g) }
  match g.wait with
  | .waitc _ _ _ => { g with wait := .ready, offset := g.offset - 1 }
  | .grow _ | .shrink _ | .publish _ _ _ => { g with wait := .ready }
  | _ => g

/-- Is a group between two issues of one offset, and goes on by itself: it is saved only at the offset's end (R219)? -/
def betweenIssues (g : Group) : Bool := g.half.any (fun (h : Half) => h.iss.made) && g.wait == .ready && !g.stalled

/-! ### The image of a saved team (R35, R219) -/

/-- A join-stack entry's 128 bits (R35). -/
def joinEntry (j : Join) : Nat := j.mask.toNat * 2 ^ 64 + j.phase.toNat * 2 ^ 63 + j.notTaken.toNat * 2 ^ 24 + j.join.toNat

/-- A join stack: its depth, then sixteen entries, the lowest first. -/
def joinBytes (l : List Join) : List Byte :=
  bytesOf 8 l.length ++ l.reverse.flatMap (fun j => bytesOf 16 (joinEntry j)) ++ bytesOf (16 * (16 - l.length)) 0

/-- Offset, EXEC, NEST, PLANE and join stack, of a group or of its trap frame. -/
def controlBytes (o : Off) (exec : DWord) (nest : Table (BitVec 8)) (plane : Table (BitVec 3)) (joins : List Join) : List Byte :=
  bytesOf 8 o.toNat ++ bytesOf 8 exec.toNat ++ (List.range 64).flatMap (fun l => bytesOf 1 (nest.get l 0).toNat)
    ++ (List.range 64).flatMap (fun l => bytesOf 1 (plane.get l 0).toNat) ++ joinBytes joins

/-- A group's image: the items of R66 and R160 in their order. -/
def groupImage (g : Group) : List Byte :=
  let f := g.frame.getD ⟨0, 0, [], [], []⟩
  bytesOf 4 g.index ++ bytesOf 4 g.allot ++ bytesOf 4 g.mode.toNat ++ bytesOf 4 g.frame.isSome.toNat
    ++ controlBytes g.offset g.exec g.nest g.plane g.joins ++ controlBytes f.offset f.exec f.nest f.plane f.joins
    ++ bytesOf 8 g.parked.toNat ++ bytesOf 8 g.parkOffset.toNat ++ bytesOf 8 g.served.toNat
    ++ (List.range 32).flatMap (fun n => bytesOf 4 (g.sr n).toNat) ++ (List.range 7).flatMap (fun n => bytesOf 8 (g.p.get n 0).toNat)
    ++ (List.range 8).flatMap (fun n => bytesOf 4 (g.h.get n 0).toNat) ++ (List.range 8).flatMap (fun n => bytesOf 4 (g.x.get n 0).toNat)
    ++ (List.range 16).flatMap (fun n => bytesOf 8 (g.cnt.get n 0).toNat)
    ++ [1, 2, 3, 5].flatMap (fun n => bytesOf 4 (g.pubCount.get n 0))
    ++ g.fences.flatMap (fun f => bytesOf 1 (f.storage.toNat * 8 + f.scope) ++ bytesOf 1 f.later.toNat) ++ bytesOf (2 * (4 - g.fences.length)) 0
    ++ (List.range g.allot).flatMap (fun n => (List.range g.width).flatMap (fun l => bytesOf 4 (g.vr n l).toNat))

/-- A team's image: its groups, its local store with a bit for each empty word, its tiles where it owns them (log entry 34, DESIGN
CHOICE: the spec gives the form of a join-stack entry alone). -/
def teamImage (groups : List Group) (ls : List Host.Cell) (size : Nat) (empties : List Nat) (tiles : Option (Table Word)) : List Byte :=
  groups.flatMap groupImage ++ Memory.readBytes ls 0 size
    ++ (List.range (size / 32)).map (fun i => BitVec.ofNat 8 (((List.range 8).map (fun j => (empties.contains (8 * i + j)).toNat * 2 ^ j)).sum))
    ++ (match tiles with
      | some t => (List.range 2048).flatMap (fun i => bytesOf 4 (t.get i 0).toNat)
      | none => [])

/-- An image written to a function's save area, now or when the page has been serviced (R156); where its page cannot be reached or its
service fails, these bytes are not written and the save goes on (log entry 80, DESIGN CHOICE). -/
def writeImage (s : State) (fkey addr : Nat) (bs : List Byte) : State :=
  match s.vWrite (fkey / 8) (fkey % 8) addr bs with
  | (s, .wait f p) => (s.holdWrite fkey (.image addr bs) f p).requestPage f p .store
  | (s, _) => s

/-- The first byte of a function's save area, in units of 64, past the images that stand there. -/
def areaTop (s : State) (fkey : Nat) : Nat := (s.fnOf fkey).saved.foldl (fun m x => max m (x.area + (x.size + 63) / 64 * 64)) 0

/-- The origin of a command with its team's new core and its group's new context. -/
def rehome (o : Origin) (uid core : Nat) (keys : List (Nat × Nat)) : Origin :=
  if o.team = uid then { o with core := core, gkey := ((keys.find? (fun k => k.1 == o.group)).map Prod.snd).getD 0 } else o

/-- A team's commands and accesses in flight follow it to another core; its copies stand last in their channels there. -/
def rehomeAll (s : State) (uid core : Nat) (keys olds : List (Nat × Nat)) : State :=
  let f (o : Origin) : Origin := rehome o uid core keys
  let key (old : Nat) : Nat := ((olds.find? (fun k => k.1 == old)).map Prod.snd).getD old
  { s with
    copies := s.copies.filter (fun c => c.org.team != uid)
      ++ (s.copies.filter (fun c => c.org.team == uid)).map (fun c => { c with org := f c.org })
    opens := s.opens.map (fun c => { c with org := f c.org })
    aliases := s.aliases.map (fun (a : AliasStore) => if a.team = uid then { a with gkey := key a.gkey } else a)
    sures := s.sures.map (fun (x : Sure) => { x with act := match x.act with
      | .stored u g t => .stored u (if t = uid then key g else g) t
      | .opened k o w => .opened k (f o) w
      | a => a })
    veils := s.veils.map (fun (a : Veil) => if a.team = uid then { a with gkey := key a.gkey } else a)
    reqs := s.reqs.map (fun (a : Req) => if a.team = uid then { a with gkey := key a.gkey } else a)
    loads := s.loads.map (fun (a : Load) => if a.team = uid then { a with gkey := key a.gkey, core } else a)
    dies := s.dies.map (fun (p : Nat × Die) => (p.1, { p.2 with bids := p.2.bids.map (fun (q : Nat × Bid) => (q.1, { q.2 with origin := f q.2.origin })) }))
    basin := { s.basin with colls := s.basin.colls.map (fun (p : Nat × Coll) => (p.1, { p.2 with openers := p.2.openers.map f })) } }

/-- What a flushed team has in flight returns to no group any more; its grid still waits for its stores (R216). -/
def orphan (s : State) (uid : Nat) : State :=
  let (u, s) := s.fresh
  let s := s.modLaunch (s.teamOf uid).launch (fun l => { l with strays := l.strays ++ [u] })
  { s with aliases := s.aliases.map (fun (a : AliasStore) => if a.team = uid then { a with team := u } else a)
           sures := s.sures.map (fun (x : Sure) => { x with act := match x.act with
             | .stored k g t => .stored k g (if t = uid then u else t)
             | a => a })
           reqs := s.reqs.map (fun (a : Req) => if a.team = uid then { a with team := u } else a)
           loads := s.loads.map (fun (a : Load) => if a.team = uid then { a with team := u } else a) }

/-- A team taken off its core (R219), and its image written to the save area. What it has in flight keeps its groups' keys until the
restore; the reads of its WAITCs, which are issued again, are gone. A tile that an ended team's commands still act on holds no sum of the owner's yet (R232). -/
def saveTeam (s : State) (uid : Nat) : State :=
  let t := s.teamOf uid
  if !t.live then s
  else
    let ck := t.die * 512 + t.core
    let fk := t.die * 8 + t.fn
    let s := (s.rotateNow uid).settleCore ck
    let t := s.teamOf uid
    let keys := s.teamGroups uid
    let s := keys.foldl stopWatching s
    let c := s.coreOf ck
    let mine (o : Origin) : Bool := o.team == uid
    let lo := localLoc ck t.lsBase
    let gs := keys.map (fun k => savedGroup (s.group k))
    let ls := (s.mem.filter (fun k => decide (lo ≤ k.1) && decide (k.1 < lo + t.lsSize))).map (fun k => (k.1 - lo, k.2))
    let empties := (s.empties.filter (fun w => decide (lo / 4 ≤ w) && decide (w < (lo + t.lsSize) / 4))).map (· - lo / 4)
    let others (t : Nat) : Bool := c.mx.any (fun p => p.1.team != uid && mxTile p.2 == t)
    let tiles := if c.tileOwner = some uid then some (c.tiles.filter (fun e => !others (e.1 / 256))) else none
    let img := teamImage gs ls t.lsSize empties tiles
    let x : SavedTeam :=
      { uid, groups := gs, ls, empties
        fe := (s.feWaits.filter (fun w => w.team == uid)).map (fun w => { w with loc := w.loc - lo, gkey := (s.group w.gkey).index })
        tiles, fresh := false
        score := (c.score.filter (fun e => e.team == uid)).map (fun e => { e with lo := e.lo - t.lsBase, hi := e.hi - t.lsBase })
        mx := c.mx.filter (fun p => mine p.1), nm := c.nm.filter (fun p => mine p.1), rt := c.rt.filter (fun p => mine p.1)
        area := s.areaTop fk, size := img.length }
    let s := s.modCore ck (fun c => { c with
      tileOwner := if c.tileOwner = some uid then none else c.tileOwner
      score := c.score.filter (fun e => e.team != uid), mx := c.mx.filter (fun p => !mine p.1)
      nm := c.nm.filter (fun p => !mine p.1), rt := c.rt.filter (fun p => !mine p.1)
      growQ := c.growQ.filter (fun k => !keys.contains k) })
    let s := { s with
      groups := s.groups.filter (fun (p : Nat × Group) => !keys.contains p.1)
      reqs := s.reqs.filter (fun (r : Req) => !(r.team == uid && r.kind == ReqKind.word))
      feWaits := s.feWaits.filter (fun w => w.team != uid) }
    let s := (s.setTeam uid { t with live := false, groups := [], gone := [] }).modFn fk
      (fun f => { f with saved := f.saved ++ [x] })
    ((s.writeImage fk ((s.fnOf fk).cfg.saveArea + x.area) img).checkGrow ck).kickCore ck

/-- COPENs that are not complete, by whoever issued them: on their way to the Basin, waiting there for a path, or answered on their way
back. -/
def openOrigins (s : State) : List Origin :=
  s.opens.map OpenReq.org ++ s.basin.colls.flatMap (fun c => c.2.openers) ++ s.sures.filterMap (fun x => match x.act with
    | .opened _ o _ => some o
    | _ => none)

/-- COPENs dropped where they stand; what one has opened or joined stays so. -/
def dropOpens (s : State) (mine : Origin → Bool) : State :=
  let s := { s with opens := s.opens.filter (fun o => !mine o.org)
                    sures := s.sures.filter (fun x => match x.act with
                      | .opened _ o _ => !mine o
                      | _ => true) }
  s.modBasin (fun b => { b with colls := b.colls.map (fun (p : Nat × Coll) => (p.1, { p.2 with openers := p.2.openers.filter (fun o => !mine o) })) })

/-- A team flushed (R219): its groups stop, its commands are cancelled, COPENs among them (R231), and it is to be placed again with launch
values. -/
def flushTeam (s : State) (uid : Nat) : State :=
  let t := s.teamOf uid
  if !t.live then s
  else
    let ck := t.die * 512 + t.core
    let s := (s.settleCore ck).orphan uid
    let keys := t.groups
    let s := keys.foldl stopWatching s
    let mine (o : Origin) : Bool := o.team == uid
    let c := s.coreOf ck
    let os := (c.mx.filter (fun p => mine p.1)).map Prod.fst ++ (c.nm.filter (fun p => mine p.1)).map Prod.fst
      ++ (c.rt.filter (fun p => mine p.1)).map Prod.fst
    let s := s.modCore ck (fun c => { c with
      tileOwner := if c.tileOwner = some uid then none else c.tileOwner, mx := c.mx.filter (fun p => !mine p.1)
      nm := c.nm.filter (fun p => !mine p.1), rt := c.rt.filter (fun p => !mine p.1)
      growQ := c.growQ.filter (fun k => !keys.contains k) })
    let early := (s.die t.die).bids.filter (fun b => mine b.2.origin && !b.2.inRound)
    let os := os ++ early.map (fun b => b.2.origin) ++ s.openOrigins.filter mine
    let s := s.dropOpens mine
    let s := s.modDie t.die (fun d => { d with bids := d.bids.filter (fun b => !(mine b.2.origin && !b.2.inRound)) })
    let s := os.foldl (fun s o => s.completeOp o (doneWord 1 0) 0) s
    let s := (s.copies.filter (fun c => mine c.org)).foldl (fun s c => s.endCopy c (doneWord 1 (copyCount c)) 0) s
    let s := { s with groups := s.groups.filter (fun (p : Nat × Group) => !keys.contains p.1)
                      feWaits := s.feWaits.filter (fun w => w.team != uid) }
    let x : SavedTeam := { uid, groups := [], ls := [], empties := [], fe := [], tiles := none, fresh := true, score := [], mx := [],
                           nm := [], rt := [], area := 0, size := 0 }
    let (gen, s) := s.takeGen ck
    let s := (s.setTeam uid { t with live := false, groups := [], gone := [], bars := [], gen }).modFn (t.die * 8 + t.fn)
      (fun f => { f with saved := f.saved ++ [x] })
    ((s.modCore ck (fun c => { c with score := c.score.filter (fun e => e.team != uid) })).checkGrow ck).kickCore ck

/-- What a saved team needs: a cluster's position whose team has ended needs nothing. -/
def savedNeed (s : State) (u : Nat) : Option Need :=
  let t := s.teamOf u
  let fk := t.die * 8 + t.fn
  ((s.fnOf fk).saved.find? (fun x => x.uid == u)).map (fun x =>
    if x.fresh then (s.launch t.launch).rcd.need
    else { width := (s.launch t.launch).rcd.width, allots := x.groups.map Group.allot, ls := t.lsSize, tiles := x.tiles.isSome })

/-- A saved team put on a core again (R219). Its scoreboard entries stand behind those of the core, past 32 where fewer are free (log entry
81, DESIGN CHOICE). -/
def putBack (s : State) (x : SavedTeam) (at' : Nat × List (Nat × Nat) × Nat) : State :=
  let t := s.teamOf x.uid
  if x.fresh then s.putTeam x.uid t.launch t.index at' t.ring t.cluster
  else
    let core := at'.1
    let ck := t.die * 512 + core
    let base := at'.2.2
    let lo := localLoc ck base
    let pairs := List.zip x.groups at'.2.1
    let keys := pairs.map (fun p => (p.1.index, ck * 16 + p.2.1))
    let olds := pairs.map (fun p => (p.1.gkey, ck * 16 + p.2.1))
    let key (g : Nat) : Nat := ((keys.find? (fun k => k.1 == g)).map Prod.snd).getD 0
    let f (o : Origin) : Origin := rehome o x.uid core keys
    let s := (s.clearStore ck base t.lsSize).refresh ck 0x16
    let s := { s with mem := x.ls.foldl (fun m (c : Host.Cell) => Memory.write m (lo + c.1) c.2) s.mem
                      empties := x.empties.foldl (fun e w => Empties.insert e (lo / 4 + w)) s.empties
                      feWaits := s.feWaits ++ x.fe.map (fun (w : FeWait) => { w with loc := lo + w.loc, gkey := key w.gkey, since := s.coreTime ck }) }
    let s := s.modCore ck (fun c => { c with
      tiles := x.tiles.getD c.tiles, tileOwner := if x.tiles.isSome then some x.uid else c.tileOwner
      score := c.score ++ x.score.map (fun (e : ScoreEntry) => { e with lo := base + e.lo, hi := base + e.hi })
      mx := c.mx ++ x.mx.map (fun (p : Origin × MxCmd) => (f p.1, p.2)), nm := c.nm ++ x.nm.map (fun (p : Origin × NmCmd) => (f p.1, p.2))
      rt := c.rt ++ x.rt.map (fun (p : Origin × RtCmd) => (f p.1, p.2)) })
    let s := s.rehomeAll x.uid core keys olds
    let s := s.setTeam x.uid { t with
      live := true, core := core, lsBase := base, groups := keys.map Prod.snd, gone := []
      ops := t.ops.map (fun (p : Nat × OpEntry) => (p.1, { p.2 with gkey := ((x.groups.find? (fun (g : Group) => g.gkey == p.2.gkey)).map (fun (g : Group) => key g.index)).getD 0 })) }
    let s := pairs.foldl (fun s p =>
      let g := { p.1 with core := core, ctx := p.2.1, octet := p.2.2 }
      let k := ck * 16 + p.2.1
      let s := s.setGroup k g
      match g.wait with
      | .yield _ _ => s.post (.yieldResume k)
      | .rejoin => s.post (.rejoinReplay k)
      | .fullEmpty => s.post (.fullEmptyService ck)
      | _ => s) s
    let s := s.checkBarriers x.uid
    let s := (s.copies.filter (fun c => c.org.team == x.uid)).foldl (fun s c =>
      c.started.foldl (fun s k => s.post (.copyChunkWrite c.uid k)) s) s
    let s := keys.foldl (fun s k => match (s.group k.2).live, (s.group k.2).wait with
      | true, .faultBlock _ _ => State.finishTrap { s with cur := k.2 }
      | _, _ => s) s
    s.kickCore ck

end State

end Sys2Proof.Machine
end

