-- ==== Sys2Proof/Machine/Queues.lean ====
section
/-! DEFINITION. Launch queues and selection (R202 to R204), dependences and chains (R207, R208), placement events (R210,
R211), the end of teams and grids (R214, R216), pre-emption (R217 to R220). -/

namespace Sys2Proof.Machine

open Sys2Proof

/-- A queue header (R202). -/
structure QHdr where
  base : Nat
  entries : Nat
  prio : Nat
  enabled : Bool
  tail : Nat
  head : Nat
  /-- the checked fields are well formed (R203) -/
  ok : Bool
  deriving DecidableEq, Repr

def parseHeader (bs : List Byte) : QHdr :=
  let w (a n : Nat) : Nat := recAt bs a n
  { base := w 0 6, entries := w 8 4, prio := bits (w 12 4) 0 2, enabled := bits (w 12 4) 31 1 == 1, tail := w 16 8, head := w 24 8,
    ok := State.ringOk (w 8 4) && w 0 6 % 256 == 0 && w 6 2 == 0 && bits (w 12 4) 2 29 == 0 }

/-- What a record's dependences say. -/
inductive Deps where
  | hold
  | wait
  | unreadable
  deriving DecidableEq, Repr

namespace State

/-- Are a function's queues served (R336)? -/
def served (s : State) (fkey : Nat) : Bool :=
  let f := s.fnOf fkey
  f.cfg.enabled && (fkey % 8 == 0 || f.tdi == .run) && s.dieLive (fkey / 8)

/-- Everything of a function that may go on is looked at again. -/
def kickFn (s : State) (fkey : Nat) : State :=
  let d := fkey / 8
  let n := fkey % 8
  let s := if (s.fnOf fkey).saved.isEmpty then s else s.post (.teamRestore d n)
  let s := if (s.fnOf fkey).cursor.isSome then s.post (.teamPlacement d n) else s
  let s := s.post (.launchSelection d n)
  (s.fnOf fkey).chains.foldl (fun s c => if c.2.ready || c.2.running then s else s.post (.chainNodeReady d n c.1)) s

/-- A queue stopped and reported (R203): its enabled bit is cleared; the zero field beside it is written as zero (R5). Of a header that can
be read and not written the bit stays set, so that the queue is reported each time it is looked at (log entry 102, DESIGN CHOICE: R203
speaks of an unreadable header only). -/
def stopQueue (s : State) (d fn q cause ctl : Nat) : State :=
  let k := d * 8 + fn
  let s := s.partPut k ((s.fnOf k).cfg.queueArea + 64 * q + 12) (bytesOf 4 (ctl % 4))
  s.faultRecord k 4 (bytesOf 1 q ++ bytesOf 1 cause)

/-- What a queue's header says now: the queue's own priority, or, where it is disabled, that no record of it has been read, for it is read
for that bit alone (R203, R204, R207). -/
def noteHeader (s : State) (k q : Nat) (h : QHdr) : State :=
  s.modFn k (fun f =>
    let x := f.queues.get q {}
    { f with queues := f.queues.set q (if h.enabled then { x with prio := h.prio } else { x with rcd := none }) })
    |> fun s => if h.enabled then s else s.dropDeps k (fun w => w.owner == q)

/-- What reads a record, and its dependence words, for its owner (R156, R207). -/
def depReader (fkey owner : Nat) : Activity :=
  .event (if owner < 16 then .launchQueueTailWrite (fkey / 8) (fkey % 8) owner else .chainNodeReady (fkey / 8) (fkey % 8) (owner - 16))

/-- A queue's header read and checked (R203): a header that can be served, if there is one. -/
def checkQueue (s : State) (d fn q : Nat) : State × Option QHdr :=
  let k := d * 8 + fn
  let a := (s.fnOf k).cfg.queueArea + 64 * q
  if ((s.fnOf k).queues.get q {}).stopped then (s, none)
  else
    let s := s.watchWord d fn (a + 16) (.event (.launchQueueTailWrite d fn q))
    match s.partRead (depReader k q) d fn a 64 with
    | (s, .wait _ _) => (s, none)
    | (s, .bad _) =>
      let s := s.modFn k (fun f => { f with queues := f.queues.set q { f.queues.get q {} with stopped := true } })
      (s.faultRecord k 4 (bytesOf 1 q ++ bytesOf 1 2), none)
    | (s, .ok bs) =>
      let h := parseHeader bs
      let s := s.noteHeader k q h
      if !h.enabled then (s, none)
      else if !h.ok then (s.stopQueue d fn q 1 (recAt bs 12 4), none)
      else if h.entries < (h.tail + 2 ^ 64 - h.head) % 2 ^ 64 then (s.stopQueue d fn q 0 (recAt bs 12 4), none)
      else (s, some h)

/-- A dependence word watched for the record of an owner, with a watch entry where its home has one free (R191, R207). -/
def watchDep (s : State) (fkey : Nat) (w : DepWatch) : State :=
  let s := s.modFn fkey (fun f => { f with deps := f.deps ++ [w] })
  if w.met || (s.die (w.loc / 2 ^ 48)).watches.contains (w.loc, depKey fkey w.owner) then s else s.watch w.loc (depKey fkey w.owner)

/-- A record's dependence words, each read at its coherence point when it is first looked at (R207), and from then on evaluated as R191 has it:
at each write, or polled. One that has been met once stays met, as a WAITC's word does (log entry 82, DEDUCED). -/
def depsOf (s : State) (d fn owner : Nat) (ds : List (Nat × Nat)) : State × Deps :=
  match ds with
  | [] => (s, .hold)
  | (a, thr) :: r =>
    let k := d * 8 + fn
    let who := depReader k owner
    let onward (s : State) (met : Bool) : State × Deps :=
      match s.depsOf d fn owner r with
      | (s, .hold) => (s, if met then .hold else .wait)
      | x => x
    if a = 0 then s.depsOf d fn owner r
    else match (s.fnOf k).deps.find? (fun w => w.owner == owner && w.addr == a && w.thr == thr) with
    | some w => onward s w.met
    | none =>
    if s.hasFailed k who a then (s.failedNow k who a, .unreadable)
    else match s.translate d fn none a 8 .waitc with
      | (s, .ok _ loc slot expo) =>
        let s := (s.recallAll loc 8).partFlits d false [(loc, slot, 8, expo)]
        let met := decide (thr ≤ s.natSlot loc slot 8)
        onward (s.watchDep k ⟨owner, a, loc, slot, thr, met⟩) met
      | (s, .absent f p) => onward (s.waitPage k who a f p .load) false
      | (s, _) => (s, .unreadable)

/-- The record at an address once its dependences hold: its bytes, none where it cannot be read, and whether its dependence
words can be (R206, R207). What is watched for its owner is what its dependences name now. -/
def recordWhenDue (s : State) (d fn addr owner : Nat) : State × Option (List Byte × Bool) :=
  match s.partRead (depReader (d * 8 + fn) owner) d fn addr 256 with
  | (s, .wait _ _) => (s, none)
  | (s, .bad _) => (s, some ([], false))
  | (s, .ok bs) =>
    let keep (s : State) (f : DepWatch → Bool) : State := s.dropDeps (d * 8 + fn) (fun w => w.owner == owner && !f w)
    let ds := (parseRecord bs).deps
    match (keep s (fun w => ds.contains (w.addr, w.thr))).depsOf d fn owner ds with
    | (s, .hold) => (keep s (fun _ => false), some (bs, true))
    | (s, .wait) => (s, none)
    | (s, .unreadable) => (keep s (fun _ => false), some (bs, false))

/-- The code by which a record as read is rejected, if it is: the first check of R206 that fails, the last being that the
record and its dependence words can be read. -/
def codeOf (s : State) (k : Nat) (x : List Byte × Bool) : Option Nat :=
  if x.1.isEmpty then some 9
  else match s.recordCode k (parseRecord x.1) with
    | some c => some c
    | none => if x.2 then none else some 9

/-- The barrier object of a record as read; 0 where it cannot be read. -/
def barrierOf (x : List Byte × Bool) : Nat := if x.1.isEmpty then 0 else (parseRecord x.1).barrier

/-- The chain node of queue `q` that may be served: ready, not running, and behind no earlier chain's same or earlier
node (R208); of several, the first in the chain table (log entry 70, DESIGN CHOICE). -/
def readyNode (s : State) (k q : Nat) : Option (Nat × Chain) :=
  let cs := (s.fnOf k).chains
  cs.find? (fun c => c.2.queue == q && c.2.ready && !c.2.running
    && !cs.any (fun e => e.2.queue == q && decide (e.2.inst < c.2.inst)
        && (decide (e.2.node < c.2.node) || (e.2.node == c.2.node && !e.2.running))))

/-- Is the head record of a queue eligible (R203, R207, R208)? Its bytes are kept from the instant its dependences hold, while the
header keeps it at the same address. -/
def headEligible (s : State) (d fn q : Nat) (h : QHdr) : State × Bool :=
  let k := d * 8 + fn
  if h.tail = h.head then (s, false)
  else
    let addr := h.base + 256 * (h.head % h.entries)
    let x := (s.fnOf k).queues.get q {}
    let (s, r) := match (if x.rcdAt = addr then x.rcd else none) with
      | some bs => (s, some bs)
      | none => s.recordWhenDue d fn addr q
    match r with
    | none => (s, false)
    | some bs =>
      let s := s.modFn k (fun f => { f with queues := f.queues.set q { f.queues.get q {} with rcd := some bs, rcdAt := addr } })
      (s, (parseRecord bs.1).chainNext == 0 || decide ((s.fnOf k).chains.length < 64))

/-- The candidates of R204 with their effective priorities, queues from `q` on; the time since which each stands. -/
def candidates (s : State) (d fn : Nat) (qs : List Nat) : State × List (Nat × Nat) :=
  match qs with
  | [] => (s, [])
  | q :: r =>
    let k := d * 8 + fn
    let (s, h) := s.checkQueue d fn q
    let node := (s.readyNode k q).isSome
    let (s, head) := match h with
      | some h => s.headEligible d fn q h
      | none => (s, false)
    let x := (s.fnOf k).queues.get q {}
    let since := if node || head then (match x.since with | some t => some t | none => some s.basin.time.toNat) else none
    let s := if x.since == since then s else s.modFn k (fun f => { f with queues := f.queues.set q { x with since := since } })
    let (s, l) := s.candidates d fn r
    (s, if node || head then (q, min 3 (x.prio + x.aged)) :: l else l)

/-- The queue that R204 chooses: the highest effective priority, then the first at or after the round-robin pointer. -/
def chooseQueue (rr : Table Nat) (cs : List (Nat × Nat)) : Option (Nat × Nat) :=
  let top := cs.foldl (fun m c => max m c.2) 0
  let p := rr.get top 0
  (((List.range 16).map (fun i => (p + i) % 16)).find? (fun q => cs.contains (q, top))).map (fun q => (q, top))

/-- A record rejected with a code (R206). -/
def rejectRecord (s : State) (d fn addr code barrier : Nat) : State :=
  let k := d * 8 + fn
  let s := s.faultRecord k 3 (bytesOf 8 addr ++ bytesOf 1 code)
  if barrier = 0 then s else s.arriveFor k barrier 2 1

/-- A launch taken: its teams are to be placed (R210), and the candidates that stand meanwhile age from now on (R204). -/
def startLaunch (s : State) (d fn addr q : Nat) (r : LaunchRec) (chain : Option Nat) : State :=
  let (u, s) := s.fresh
  let s := s.setLaunch u { live := true, die := d, fn := fn, addr := addr, queue := q, chain := chain, rcd := r }
  ((s.modFn (d * 8 + fn) (fun f => { f with cursor := some (u, 0) })).post (.teamPlacement d fn)).post (.launchSelection d fn)

/-- The head record of a queue taken: the head rises, the record starts or is rejected (R203, R206, R208). In a header that cannot be
written the head does not rise, and the record is taken again (log entry 102, DESIGN CHOICE). -/
def takeHead (s : State) (d fn q : Nat) (h : QHdr) : State :=
  let k := d * 8 + fn
  let addr := h.base + 256 * (h.head % h.entries)
  let x := (((s.fnOf k).queues.get q {}).rcd).getD ([], false)
  let s := s.partPut k ((s.fnOf k).cfg.queueArea + 64 * q + 24) (bytesOf 8 (h.head + 1))
  let s := s.modFn k (fun f => { f with queues := f.queues.set q { f.queues.get q {} with rcd := none } })
  match s.codeOf k x with
  | some c => (s.rejectRecord d fn addr c (barrierOf x)).post (.launchSelection d fn)
  | none =>
    let r := parseRecord x.1
    if r.chainNext = 0 then s.startLaunch d fn addr q r none
    else
      let cs := (s.fnOf k).chains
      let i := ((List.range 64).find? (fun i => !cs.has i)).getD 0
      let s := s.modFn k (fun f => { f with chainInst := f.chainInst + 1
                                            chains := f.chains.set i ⟨addr, 0, q, true, true, f.chainInst, r⟩ })
      s.startLaunch d fn addr q r (some i)

end State

/-- LAUNCH_QUEUE_TAIL_WRITE (R203). -/
def execLaunchQueueTailWrite (die fn q : Nat) (s : State) : Res :=
  if !s.served (die * 8 + fn) then .next s
  else .next ((s.checkQueue die fn q).1.post (.launchSelection die fn))

/-- LAUNCH_SELECTION (R204): the candidates are found, and one is chosen where the last launch is placed (R210). -/
def execLaunchSelection (die fn : Nat) (s : State) : Res :=
  let k := die * 8 + fn
  let busy := (s.fnOf k).cursor.isSome
  if !s.served k then .next s
  else
    let (s, cs) := s.candidates die fn (List.range 16)
    match (if busy then none else State.chooseQueue (s.fnOf k).rr cs) with
    | none => .next s
    | some (q, p) =>
      let s := s.modFn k (fun f => { f with rr := f.rr.set p ((q + 1) % 16)
                                            queues := f.queues.set q { f.queues.get q {} with aged := 0, since := none } })
      match s.readyNode k q with
      | some (c, x) =>
        let s := s.modFn k (fun f => { f with chains := f.chains.set c { x with running := true } })
        .next (s.startLaunch die fn x.addr q x.rcd (some c))
      | none =>
        match s.checkQueue die fn q with
        | (s, some h) => .next (s.takeHead die fn q h)
        | (s, none) => .next s

/-- PRIORITY_AGING (R204): a candidate that has stood 65,536 ns without being chosen gains a level. -/
def execPriorityAging (die fn q : Nat) (s : State) : Res :=
  let k := die * 8 + fn
  let x := (s.fnOf k).queues.get q {}
  match x.since with
  | none => .next s
  | some t =>
    if s.basin.time.toNat < t + 65536 then .next s
    else .next (s.modFn k (fun f => { f with queues := f.queues.set q { x with aged := min 3 (x.aged + 1), since := some (t + 65536) } }))

/-- CHAIN_NODE_READY (R207, R208): the next node's dependences hold; its record is read then, and checked. -/
def execChainNodeReady (die fn c : Nat) (s : State) : Res :=
  let k := die * 8 + fn
  if !(s.fnOf k).chains.has c || !s.served k then .next s
  else
    let x := (s.fnOf k).chains.get c ⟨0, 0, 0, false, false, 0, {}⟩
    if x.ready || x.running then .next s
    else match s.recordWhenDue die fn x.addr (16 + c) with
      | (s, none) => .next s
      | (s, some b) =>
        match s.codeOf k b with
        | some code =>
          let s := s.modFn k (fun f => { f with chains := f.chains.erase c })
          .next ((s.rejectRecord die fn x.addr code (State.barrierOf b)).post (.launchSelection die fn))
        | none =>
          .next ((s.modFn k (fun f => { f with chains := f.chains.set c { x with ready := true, rcd := parseRecord b.1 } })).post
            (.launchSelection die fn))

/-! ### Placement (R209 to R211, R219) -/

/-- TEAM_PLACEMENT (R210): the next unit of the current launch, a cooperative grid whole; the function's saved teams go first, and flushed
teams of the launch itself (R219). -/
def execTeamPlacement (die fn : Nat) (s : State) : Res :=
  let k := die * 8 + fn
  match (s.fnOf k).cursor with
  | none => .next s
  | some (l, i) =>
    let r := (s.launch l).rcd
    if !s.served k || (s.fnOf k).saved.any (fun x => !x.fresh || (s.teamOf x.uid).launch == l) then .next s
    else
      let n := if r.cooperative then r.teams else r.unit
      match (if r.cooperative then s.placeAll l 0 (r.teams / r.unit) else s.placeUnit l i) with
      | none => .next s
      | some t =>
        let t := t.modLaunch l (fun x => { x with placed := x.placed + n })
        if i + n < r.teams then .next ((t.modFn k (fun f => { f with cursor := some (l, i + n) })).post (.teamPlacement die fn))
        else .next ((t.modFn k (fun f => { f with cursor := none })).post (.launchSelection die fn))

namespace State

/-- The teams that are placed together with a saved one, in ring order: its cluster's, or itself. -/
def savedUnit (s : State) (x : SavedTeam) : List Nat :=
  if (s.teamOf x.uid).cluster.isEmpty then [x.uid] else (s.teamOf x.uid).cluster

/-- Saved units placed again, one or (a cooperative grid) all its units or none. A cluster's positions whose teams have ended stay
empty (R219). -/
def restoreUnits (s : State) (fkey : Nat) (xs : List SavedTeam) (fuel : Nat) : Option State :=
  match fuel with
  | 0 => some s
  | n + 1 =>
    match xs with
    | [] => some s
    | x :: _ =>
      let u := s.savedUnit x
      let l := s.launch (s.teamOf x.uid).launch
      let cl := !(s.teamOf x.uid).cluster.isEmpty
      match s.fitUnit fkey (if cl then l.rcd.clusterW else 0) (if cl then l.rcd.clusterH else 0) (u.map s.savedNeed) with
      | none => none
      | some ps =>
        let ts := u.filterMap (fun v => xs.find? (fun y => y.uid == v))
        ((List.zip ts ps).foldl (fun s p => s.putBack p.1 p.2) s).restoreUnits fkey (xs.filter (fun y => !u.contains y.uid)) n

end State

/-- Is a cooperative launch other than `l` selected and not placed, so that its function places no new team of `l` (R210)? -/
def State.coopWaits (s : State) (fkey l : Nat) : Bool := (s.fnOf fkey).cursor.any (fun c => (s.launch c.1).rcd.cooperative && c.1 != l)

/-- TEAM_RESTORE (R219): the first saved unit of a function is placed again, also while a cooperative launch waits to be placed
(R210; log entry 72, DEDUCED); flushed units, which are new teams, after the saved ones, and not while another launch that is cooperative
waits. -/
def execTeamRestore (die fn : Nat) (s : State) : Res :=
  let k := die * 8 + fn
  let all := (s.fnOf k).saved
  match all.filter (fun x => !x.fresh) ++ all.filter (fun x => x.fresh && !s.coopWaits k (s.teamOf x.uid).launch) with
  | [] => .next s
  | x :: _ =>
    if !s.served k then .next s
    else
      let l := (s.teamOf x.uid).launch
      let unit := if (s.launch l).rcd.cooperative then all.filter (fun y => (s.teamOf y.uid).launch == l)
        else all.filter (fun y => (s.savedUnit x).contains y.uid)
      match s.restoreUnits k unit (unit.length + 1) with
      | none => .next s
      | some t =>
        let t := t.modFn k (fun f => { f with saved := f.saved.filter (fun y => !unit.any (fun z => z.uid == y.uid)) })
        .next (t.kickFn k)

/-! ### Teams and grids end (R214, R216) -/

namespace State

/-- What a request does with its units of which no team runs any more: they have been drained, saved or flushed, and took the core
cycles since the request (R218, R220). -/
def retireUnits (s : State) (fkey : Nat) (p : Preempt) : Preempt :=
  let over' (u : List Nat) : Bool := u.all (fun t => !(s.teamOf t).live)
  let gone := (p.draining ++ p.saving).filter over'
  let kept (u : List Nat) : List SavedTeam := (s.fnOf fkey).saved.filter (fun x => u.contains x.uid)
  let flushed := gone.filter (fun u => (kept u).any (fun x => x.fresh))
  let saved := gone.filter (fun u => !(kept u).isEmpty && (kept u).all (fun x => !x.fresh))
  { p with
    draining := p.draining.filter (fun u => !over' u), saving := p.saving.filter (fun u => !over' u)
    drained := p.drained + (gone.length - flushed.length - saved.length)
    savedN := p.savedN + saved.length, flushed := p.flushed + flushed.length
    worst := if gone.isEmpty then p.worst else max p.worst p.spent }

/-- A function's pre-emption requests look at their units again (R218, R220). -/
def checkDrain (s : State) (fkey : Nat) : State :=
  if (s.fnOf fkey).preempts.isEmpty then s
  else
    (s.modFn fkey (fun f => { f with preempts := f.preempts.map (s.retireUnits fkey) })).post
      (.preemptionCompletion (fkey / 8) (fkey % 8))

/-- Does a grid still have something to do: teams, engine commands, chunks to fire, stores to perform (R216)? -/
def gridBusy (s : State) (l : Nat) : Bool :=
  let x := s.launch l
  let mine (t : Nat) : Bool := (s.teamOf t).launch == l || x.strays.contains t
  x.placed != x.rcd.teams || x.ended != x.rcd.teams || !x.firing.isEmpty
    || s.teams.any (fun p => p.2.launch == l && p.2.ops.any (fun e => e.2.pending))
    || s.reqs.any (fun r => mine r.team && r.pending && !r.isLook) || s.aliases.any (fun a => mine a.team)
    || s.sures.any (fun x => match x.act with
      | .stored _ _ t => mine t
      | _ => false)

/-- A grid's chain goes on, or its run ends (R208). -/
def followChain (s : State) (l : Launch) : State :=
  let k := l.die * 8 + l.fn
  match l.chain with
  | none => s
  | some c =>
    let x := (s.fnOf k).chains.get c ⟨0, 0, 0, false, false, 0, {}⟩
    if l.rcd.chainNext = 0 then s.modFn k (fun f => { f with chains := f.chains.erase c })
    else
      let y := { x with addr := l.rcd.chainNext, node := x.node + 1, ready := false, running := false }
      (s.modFn k (fun f => { f with chains := f.chains.set c y })).post (.chainNodeReady l.die l.fn c)

end State

/-- TEAM_END (R214): contexts, registers and local store return to the core; a bound team's chunk is still to be fired;
placement is tried again. -/
def execTeamEnd (team : Nat) (s : State) : Res :=
  let t := s.teamOf team
  if !t.live || !(s.teamGroups team).isEmpty then .next s
  else
    let ck := t.die * 512 + t.core
    let k := t.die * 8 + t.fn
    let l := s.launch t.launch
    let s := s.setTeam team { t with live := false }
    let s := s.modCore ck (fun c => { c with
      tileOwner := if c.tileOwner = some team then none else c.tileOwner
      growQ := c.growQ.filter (fun g => (s.group g).team != team) })
    let s := { s with feWaits := s.feWaits.filter (fun w => w.team != team) }
    let s := s.modLaunch t.launch (fun x => { x with ended := x.ended + 1, bad := x.bad || t.bad,
                                                     firing := if l.rcd.bound then x.firing ++ [team] else x.firing })
    let s := if l.rcd.bound then s.post (.exitFiredChunk team) else s
    let s := ((s.checkGrid t.launch).checkGrow ck).checkDrain k
    let s := ((s.teams.filter (fun p => p.2.live && p.2.die * 512 + p.2.core == ck)).foldl (fun s p => s.checkBarriers p.1) s)
    .next (s.kickFn k)

/-- GRID_COMPLETION (R216): the release step makes the records of its teams' fault blocks visible too (R127, R187); then the arrive, then
the chain. -/
def execGridCompletion (launch : Nat) (s : State) : Res :=
  let l := s.launch launch
  if !l.live || s.gridBusy launch || l.waiting.isSome then .next s
  else
    let k := l.die * 8 + l.fn
    let s := { s with veils := s.veils.filter (fun v => (s.teamOf v.team).launch != launch) }
    let finish (s : State) : State := (s.setLaunch launch { s.launch launch with live := false, arrived := true }).followChain l
    if l.rcd.barrier = 0 || l.arrived then .next ((finish s).kickFn k)
    else match s.arriveAt l.die l.fn l.rcd.barrier (if l.bad then 2 else 0) false with
      | (s, .ok _) => .next ((finish s).kickFn k)
      | (s, .wait f p) => .next (s.setLaunch launch { l with waiting := some (f, p) })
      | (s, .bad r) => .next ((finish (s.notMade k l.rcd.barrier 0 r)).kickFn k)

/-! ### Pre-emption (R217 to R220) -/

namespace State

/-- The unit of a team: its cluster, its cooperative grid's resident teams, or itself. -/
def unitOf (s : State) (t : Nat) : List Nat :=
  let x := s.teamOf t
  if (s.launch x.launch).rcd.cooperative then
    (s.teams.filter (fun p => p.2.live && p.2.launch == x.launch)).map Prod.fst
  else if !x.cluster.isEmpty then x.cluster.filter (fun u => (s.teamOf u).live)
  else [t]

/-- The units resident on a function's selected columns. -/
def unitsOn (s : State) (fkey : Nat) (cols : BitVec 20) : List (List Nat) :=
  let ts := (s.teams.filter (fun p => p.2.live && p.2.die * 8 + p.2.fn == fkey && cols.getLsbD (p.2.core % 20))).map Prod.fst
  ts.foldl (fun us t => if us.any (fun u => u.contains t) then us else us ++ [s.unitOf t]) []

/-- The drain and save costs of R218, in core cycles: of the groups that have not exited, with their allotments of now (log entry 83, DESIGN
CHOICE). -/
def drainCost (s : State) (u : List Nat) : Nat :=
  (u.flatMap s.teamGroups).foldl (fun m k =>
    max m ((s.launch (s.teamOf (s.group k).team).launch).rcd.expected - ((s.group k).cnt.get 1 0).toNat)) 0 + 500

def saveCost (s : State) (u : List Nat) : Nat :=
  let bytes := u.foldl (fun n t => n + (s.teamOf t).lsSize
    + (s.teamGroups t).foldl (fun m k => m + (s.group k).width * (s.group k).allot * 4) 0) 0
  (bytes + 63) / 64 + 1200

/-- May every team of a unit be flushed? -/
def canFlush (s : State) (u : List Nat) : Bool := u.all (fun t => (s.launch (s.teamOf t).launch).rcd.restartable)

/-- May a unit be saved: none of its groups stands between two issues of one offset (R219)? -/
def atBoundary (s : State) (u : List Nat) : Bool := (u.flatMap s.teamGroups).all (fun k => !betweenIssues (s.group k))

/-- Is a group's team to be saved at the next offset boundary (R219)? -/
def stopsAtBoundary (s : State) (gk : Nat) : Bool :=
  (s.fnOf (s.group gk).fkey).preempts.any (fun p => p.saving.any (fun u => u.contains (s.group gk).team))

/-- One unit of a request: drained, saved or flushed, as R218 says. -/
def preemptUnit (s : State) (p : Preempt) (u : List Nat) : State × Preempt :=
  if s.drainCost u ≤ p.bound then (s, { p with draining := p.draining ++ [u] })
  else if s.saveCost u ≤ p.bound then (s, { p with saving := p.saving ++ [u] })
  else if s.canFlush u then (u.foldl flushTeam s, { p with flushed := p.flushed + 1 })
  else (s, { p with saving := p.saving ++ [u], missed := p.missed + 1 })

/-- A request starts on every unit of its columns; the units to be saved are saved at their offset boundaries. -/
def startPreempt (s : State) (fkey : Nat) (cols : BitVec 20) (bound result : Nat) : State :=
  let p : Preempt := { columns := cols, bound, result, draining := [], saving := [], drained := 0, savedN := 0, flushed := 0,
                       missed := 0, spent := 0, worst := 0 }
  let r := (s.unitsOn fkey cols).foldl (fun (x : State × Preempt) u => x.1.preemptUnit x.2 u) (s, p)
  (r.1.modFn fkey (fun f => { f with preempts := f.preempts ++ [r.2] })).checkDrain fkey

/-- A request that is done reports (R220). -/
def reportPreempt (s : State) (fkey : Nat) (p : Preempt) : State :=
  s.writeResult fkey p.result (bytesOf 4 p.drained ++ bytesOf 4 p.savedN ++ bytesOf 4 p.flushed ++ bytesOf 4 p.missed
    ++ bytesOf 4 p.worst ++ bytesOf 44 0)

end State

/-- PREEMPT (R217): a mask outside the function's own columns is not permitted, a misaligned result address is malformed; bits of
zero fields are ignored (R5). -/
def execPreempt (die fn : Nat) (b8 b16 : DWord) (result : Nat) (s : State) : Res :=
  let k := die * 8 + fn
  let cols : BitVec 20 := b8.setWidth 20
  if result % 64 ≠ 0 then .next (s.complete k result 3)
  else if cols &&& ~~~(s.columns k) ≠ 0 then .next (s.complete k result 2)
  else .next (s.startPreempt k cols (bits b16.toNat 0 32) result)

/-- DRAIN_BOUND_EXPIRY (R218): B core cycles after a request its units that still run are to be saved, each a missed bound. -/
def execDrainBoundExpiry (die fn : Nat) (s : State) : Res :=
  let k := die * 8 + fn
  let late (p : Preempt) : Preempt :=
    if p.spent < p.bound then p
    else { p with draining := [], saving := p.saving ++ p.draining, missed := p.missed + p.draining.length }
  if (s.fnOf k).preempts.all (fun p => late p == p) then .next s
  else .next ((s.modFn k (fun f => { f with preempts := f.preempts.map late })).post (.preemptionCompletion die fn))

/-- PREEMPTION_COMPLETION (R219, R220): units to be saved that stand at an offset boundary are saved; a request of which no unit is
left reports, and then the completion counter rises. -/
def execPreemptionCompletion (die fn : Nat) (s : State) : Res :=
  let k := die * 8 + fn
  if (s.fnOf k).preempts.isEmpty then .next s
  else
    let due := ((s.fnOf k).preempts.flatMap Preempt.saving).filter s.atBoundary
    let s := due.flatten.foldl State.saveTeam s
    let ps := (s.fnOf k).preempts.map (s.retireUnits k)
    let isDone (p : Preempt) : Bool := p.draining.isEmpty && p.saving.isEmpty
    let s := s.modFn k (fun f => { f with preempts := ps.filter (fun p => !isDone p) })
    if ps.any isDone then .next (((ps.filter isDone).foldl (fun s p => s.reportPreempt k p) s).kickFn k)
    else .next s

end Sys2Proof.Machine
end

