-- ==== Sys2Proof/Machine/Basin.lean ====
section
/-! DEFINITION. Collectives in the Basin (R265 to R290): COPEN and the open (R244, R270 to R273, R282), alias stores (R266 to
R269), writes and arrives (R285, R286), completion and failure (R274, R275), exit-fired chunks (R215), the control store
(R281, R288). -/

namespace Sys2Proof.Machine

open Sys2Proof

/-- Key of a chunk's count for a port, and of a staged byte. -/
def countKey (win chunk port : Nat) : Nat := (win * 2 ^ 18 + chunk) * 64 + port
def stageKey (win chunk port b : Nat) : Nat := countKey win chunk port * 256 + b

/-- Chunks of a collective's window. -/
def Coll.chunks (c : Coll) : Nat := c.window / 256
/-- Does a port take part? -/
def Coll.has (c : Coll) (port : Nat) : Bool := port < 42 && c.parts.getLsbD port
/-- Is a chunk ready for a port (R267)? -/
def Coll.ready (c : Coll) (win chunk port : Nat) : Bool := c.counts.get (countKey win chunk port) 0 == 256
/-- The staged bytes of a chunk; a byte that no store wrote is zero (R266). -/
def Coll.bytes (c : Coll) (win chunk port : Nat) : List Byte := (List.range 256).map (fun b => c.stage.get (stageKey win chunk port b) 0)
/-- Port-set mask `k`. -/
def Coll.mask (c : Coll) (k : Nat) : BitVec 42 := c.masks.getD k 0
/-- Ports of a mask, ascending. -/
def portsOf (m : BitVec 42) : List Nat := (List.range 42).filter (fun p => m.getLsbD p)

/-- Has a collective done everything (R274)? -/
def Coll.over (c : Coll) : Bool := c.fixed && c.next == c.chunks && c.outs.isEmpty && c.fwde == 0

/-! ### Programs (R281, R282) -/

/-- Is a word END, or SKIPNL? -/
def isEnd (w : DWord) : Bool := match decodeHenat w with | .ok .henatEnd => true | _ => false
def isSkip (w : DWord) : Bool := match decodeHenat w with | .ok .henatSkipnl => true | _ => false

/-- A program that a reload admits: words up to its first END (R281). -/
def programOk (ws : List DWord) : Bool :=
  match ws with
  | [] => false
  | w :: r =>
    if isEnd w then true
    else (match decodeHenat w with | .ok _ => true | .error _ => false)
      && !(isSkip w && (match r with | [] => true | x :: _ => isEnd x)) && programOk r

/-- Words up to the first END. -/
def body (ws : List DWord) : List DWord := ws.takeWhile (fun w => !isEnd w)

/-- Does a collective accept `n` bytes of a port at offset `off` of a window: within it, and to a chunk whose body has not ended and whose
count they take to 256 at most (R267)? -/
def Coll.accepts (c : Coll) (port win off n : Nat) : Bool :=
  decide (win ≤ 2) && decide (off + n ≤ c.window) && decide (c.next ≤ off / 256)
    && decide (c.counts.get (countKey win (off / 256) port) 0 + n ≤ 256)

/-- May a program be opened with participants and set masks (R282)? -/
def openable (ws : List DWord) (parts : BitVec 42) (masks : List (BitVec 42)) : Bool :=
  let sub (m : BitVec 42) : Bool := m &&& ~~~parts == 0
  let feeders (m : BitVec 42) : Bool := m &&& ~~~(BitVec.ofNat 42 (2 ^ 24 - 1)) == 0
  let set (k : BitVec 2) : BitVec 42 := masks.getD k.toNat 0
  masks.all sub && (body ws).all (fun w => match decodeHenat w with
    | .ok (.henatMatch k _ _) => sub (set k)
    | .ok (.henatLoad _ _ p _ _) | .ok (.henatAdd _ _ p _ _) | .ok (.henatMax _ _ p _ _) | .ok (.henatMin _ _ p _ _)
    | .ok (.henatFwde _ _ p _ _) => parts.getLsbD p.toNat
    | .ok (.henatFwd _ _ k _ _) | .ok (.henatBar k _) => sub (set k) && feeders (set k)
    | .ok (.henatGath k p _ _ _) => sub (set k) && feeders (set k) && parts.getLsbD p.toNat
    | _ => true)

namespace State

def collOf (s : State) (n : Nat) : Option Coll := (s.basin.colls.find? (fun c => c.1 == n)).map Prod.snd
def setColl (s : State) (n : Nat) (c : Coll) : State := s.modBasin (fun b => { b with colls := b.colls.set n c })

/-- The open collective of a tenant on a slot number (R269, R271). -/
def openColl (s : State) (tenant slot : Nat) : Option (Nat × Coll) :=
  s.basin.colls.find? (fun c => c.2.tenant == tenant && c.2.slot == slot)

def slotOf (s : State) (n : Nat) : Slot := s.basin.slots.get n {}
def setSlot (s : State) (n : Nat) (x : Slot) : State := s.modBasin (fun b => { b with slots := b.slots.set n x })

/-- Is a slot reserved or pool-held for a tenant (R256)? -/
def holdsSlot (s : State) (tenant slot : Nat) : Bool :=
  let x := s.slotOf slot
  (x.state == 1 || x.state == 2) && x.tenant == tenant

/-! ### End and failure (R274, R275) -/

/-- Waiting pool requests take Weir slots of die 24 as they free, from 7 downward (R272). -/
def fillPool (s : State) (fuel : Nat) : State :=
  match fuel with
  | 0 => s
  | k + 1 =>
    match s.basin.poolWait, [7, 6, 5, 4, 3, 2, 1, 0].find? (fun i => !s.basin.pool.has i) with
    | r :: rest, some i => (s.modBasin (fun b => { b with pool := b.pool.set i r, poolWait := rest })).fillPool k
    | _, _ => s

/-- Does a collective's fallback wait for an entry of the endpoint list (R265)? -/
def waitsEntry (s : State) (n : Nat) (c : Coll) : Bool :=
  !c.fixed && !s.basin.pool.any (fun p => p.2.coll == n) && !s.basin.poolWait.any (fun p => p.coll == n)

/-- Held and waiting alias stores and COPENs are looked at again. -/
def kickAliases (s : State) : State :=
  let s := s.aliases.foldl (fun s a => s.post (.aliasStore a.uid)) s
  s.opens.foldl (fun s o => s.post (.collectiveOpen o.uid)) s

/-- A collective ends: its counts and staging go, a pool-held slot is free again. -/
def endColl (s : State) (n : Nat) (c : Coll) (good : Bool) : State :=
  let s := s.modBasin (fun b => { b with colls := b.colls.erase n, pool := b.pool.filter (fun p => p.2.coll != n)
                                         poolWait := b.poolWait.filter (fun p => p.coll != n) })
  let s := s.fillPool 8
  let s := { s with packets := s.packets.filter (fun p => match p.fwde with | some (k, _, _) => k != n | none => true) }
  let s := s.basin.colls.foldl (fun s p => if s.waitsEntry p.1 p.2 then s.post (.collectiveCompletion p.1) else s) s
  let s := if c.endpoint || !c.fixed then s
    else
      let x := s.slotOf c.slot
      let x := { x with isOpen := false, completed := if good then x.completed + 1 else x.completed }
      s.setSlot c.slot (if x.state = 2 then { x with state := 0, tenant := 0 } else x)
  if s.basin.staging.isSome then s.post .reloadBankSwitch else s

/-- A collective record (R275). Its field holds a chunk index modulo 2^18: only a store beyond the window has a higher one (log entry 23,
DEDUCED). -/
def collRecord (c : Coll) (reason port code chunk : Nat) : List Byte :=
  bytesOf 4 (code * 2 ^ 24 + port * 2 ^ 16 + reason * 2 ^ 8 + c.slot) ++ bytesOf 4 (chunk % 2 ^ 18) ++ bytesOf 24 0

/-- The Basin's answer to a COPEN crosses to the die that asked (R16, R244): its completion word. -/
def answerOpen (s : State) (slot : Nat) (o : Origin) (word : Word) : State := s.sendSure 24 o.die true 0 (.opened slot o word)

/-- The chunk that a write or arrive belongs to. -/
def outChunk (o : CollOut) : Nat :=
  match o with
  | .write _ off _ => off / 256
  | .arrive _ k => k

/-- The pound whose firmware makes the arrives of a collective that fails: the Basin, or on the endpoint path the root die's Keeper (R289). -/
def collFrom (s : State) (c : Coll) : Nat := if c.endpoint && s.dieLive c.root && !(s.die c.root).keeperDead then c.root else 24

/-- A failure: every bound object gets an arrive of status 2, every bound function a record, once it has crossed to the die (R16). COPENs that
still wait for the path complete with status 2 and reason 0x16 (log entry 98, DESIGN CHOICE: R275 does not say), and stores that were held
for the collective are looked at again (R269). The chunk recorded is the one that the store, write or arrive at fault belongs to, and the one whose body is due
where none does (log entry 23, DEDUCED). -/
def failColl (s : State) (n reason port code : Nat) (chunk : Option Nat := none) : State :=
  match s.collOf n with
  | none => s
  | some c =>
    let s := s.endColl n c false
    let s := c.openers.foldl (fun s o => s.answerOpen c.slot o (failWord 0x16 0)) s
    let bs := collRecord c reason port code (chunk.getD (min c.next ((c.window - 1) / 256)))
    State.kickAliases (c.bindings.foldl (fun s b => s.sendSure (s.collFrom c) b.die false 32 (.failed b.die b.fn b.addr bs)) s)

/-- The failure of a collective reaches a bound function: the arrive with status 2, which may wait for a page, and the record (R275). -/
def failArrives (s : State) (die fn addr : Nat) (bs : List Byte) : State :=
  let s : State := match s.arriveAt die fn addr 2 true with
    | (s, .wait f p) => { s with arrives := s.arrives ++ [{ fkey := die * 8 + fn, addr, status := 2, source := 4, waiting := (f, p) }] }
    | (s, _) => s
  s.faultRecord (die * 8 + fn) 2 bs

/-- The die that a write or arrive goes to. -/
def outDie (o : CollOut) : Nat :=
  match o with
  | .write d _ _ => d
  | .arrive d _ => d

/-- Writes and arrives toward dies that have joined leave for them in their order (R16, R270), from the Basin, or on the endpoint path
from the root die, whose Keeper makes them (R289). -/
def sendOuts (s : State) (n : Nat) (c : Coll) : State :=
  let bound (d : Nat) : Bool := c.bindings.any (fun b => b.die == d)
  let count (d : Nat) : Nat := c.outs.countP (fun o => outDie o == d)
  let gone (d : Nat) : Nat := c.landed.get d 0 + c.flying.get d 0
  let dies := ((c.outs.map outDie).dedup).filter (fun d => bound d && decide (gone d < count d))
  let s := s.setColl n { c with flying := dies.foldl (fun t d => t.set d (count d - c.landed.get d 0)) c.flying }
  dies.foldl (fun s d => ((c.outs.filter (fun o => outDie o == d)).drop (gone d)).foldl (fun s o =>
    s.sendMsg (if c.endpoint then c.root else 24) d false (match o with
      | .write _ _ bs => bs.length
      | .arrive _ _ => 0) (.act (.result n d c.epoch))) s) s

/-- Writes and arrives of a collective that have reached their dies are performed in their order (R285); all that come after one that
waits for a page wait. -/
def flushOuts (s : State) (n : Nat) (outs kept : List CollOut) : State :=
  match outs with
  | [] =>
    match s.collOf n with
    | none => s
    | some c =>
      let c := { c with outs := kept }
      let s := s.setColl n c
      if c.over then s.post (.collectiveCompletion n) else s
  | o :: r =>
    match s.collOf n with
    | none => s
    | some c =>
      match (if c.landed.get (outDie o) 0 = 0 then none else c.bindings.find? (fun b => b.die == outDie o)) with
      | none => s.flushOuts n r (kept ++ [o])
      | some b =>
        let done : State × PartAcc Unit := match o with
          | .write _ off bs =>
            match s.vPlaces b.die b.fn .store (pieces 2 ((b.addr + 64 + off) % 2 ^ 64) 256) with
            | (s, .ok l) => if l.all (fun p => p.1 / 2 ^ 48 == b.die && p.2.2.2.isNone) then (s.putPlaces l bs, .ok ()) else (s, .bad 2)
            | (s, .wait f p) => (s.requestPage f p .store, .wait f p)
            | (s, .bad k) => (s, .bad k)
          | .arrive _ _ => s.arriveAt b.die b.fn b.addr 0 true
        match done with
        | (s, .ok _) => (s.setColl n { c with landed := c.landed.set b.die (c.landed.get b.die 0 - 1) }).flushOuts n r kept
        | (s, .wait f p) => s.setColl n { c with outs := kept ++ o :: r, waiting := some (f, p) }
        | (s, .bad _) => s.failColl n 6 b.die 0 (some (outChunk o))

/-- A collective's pending writes and arrives are sent, and those that have arrived are tried, unless the first waits for a page. -/
def pushOuts (s : State) (n : Nat) : State :=
  match s.collOf n with
  | none => s
  | some c =>
    let s := if c.fixed then s.sendOuts n c else s
    if c.waiting.isSome then s else s.flushOuts n c.outs []

/-- A write or arrive of a collective reaches its die. -/
def resultArrives (s : State) (n d epoch : Nat) : State :=
  match s.collOf n with
  | none => s
  | some c =>
    if c.epoch ≠ epoch || c.flying.get d 0 = 0 then s
    else (s.setColl n { c with flying := c.flying.set d (c.flying.get d 0 - 1), landed := c.landed.set d (c.landed.get d 0 + 1) }).pushOuts n

/-! ### The open (R270 to R273) -/

/-- COPENs whose path is fixed and whose die is bound complete; the collective goes on (R244, R270). A staged bank may have waited for the
path (R288). -/
def fixPath (s : State) (n : Nat) : State :=
  match s.collOf n with
  | none => s
  | some c =>
    let s := s.setColl n { c with fixed := true, openers := [] }
    let s := c.openers.foldl (fun s o => s.answerOpen c.slot o 0) s
    let s := if s.basin.staging.isSome then s.post .reloadBankSwitch else s
    ((s.pushOuts n).post (.chunkBody n)).kickAliases

/-- The lock with the fewest open collectives, the lowest on a tie (R273). -/
def pickLock (s : State) : Nat :=
  let load (k : Nat) : Nat := s.basin.colls.countP (fun c => c.2.fixed && !c.2.endpoint && c.2.lock == k)
  (List.range 32).foldl (fun b k => if load k < load b then k else b) 0

/-- A collective takes its slot on the switch path (R256, R273). One that a pool request has brought here keeps the bank and the program of
its first COPEN, and takes the lock that has the fewest open collectives now (log entry 100, DESIGN CHOICE: R273 does not say which moment
its open is). -/
def takeSlot (s : State) (n : Nat) (poolHeld : Bool) : State :=
  match s.collOf n with
  | none => s
  | some c =>
    let k := s.pickLock
    let x := s.slotOf c.slot
    let s := s.setSlot c.slot { x with
      isOpen := true, endpoint := false, program := c.program, bank := c.bank, lock := k, root := c.root, parts := c.parts
      opened := x.opened + 1, state := if poolHeld then 2 else x.state, tenant := if poolHeld then c.tenant else x.tenant }
    (s.setColl n { c with lock := k, endpoint := false }).fixPath n

/-- A collective takes the endpoint path and an entry of the endpoint list, {tenant, slot number, root die} of its record; the fallback
is counted (R257, R265, R271, R272). With all 256 entries taken it waits for one (log entry 74, DESIGN CHOICE). -/
def fallBack (s : State) (n : Nat) : State :=
  match s.collOf n with
  | none => s
  | some c =>
    if 256 ≤ s.basin.colls.countP (fun x => x.2.endpoint && x.2.fixed) then s
    else
    let q := s.basin.quotas.get c.tenant {}
    let s := s.modBasin (fun b => { b with quotas := b.quotas.set c.tenant { q with fallbacks := if q.fallbacks = BitVec.allOnes 32 then q.fallbacks else q.fallbacks + 1 } })
    let s := s.modLife (fun l => { l with fallbacks := satUp l.fallbacks })
    (s.setColl n { c with endpoint := true }).fixPath n

/-- A pool request (R272): a free Weir slot of die 24, from 7 downward; else the wait list; else the endpoint path. -/
def poolRequest (s : State) (n : Nat) : State :=
  match [7, 6, 5, 4, 3, 2, 1, 0].find? (fun k => !s.basin.pool.has k) with
  | some k => s.modBasin (fun b => { b with pool := b.pool.set k ⟨n, 0⟩ })
  | none =>
    if s.basin.poolWait.length < 256 then s.modBasin (fun b => { b with poolWait := b.poolWait ++ [⟨n, 0⟩] })
    else s.fallBack n

/-- Are a COPEN's participants there (R270): live dies whose Feeder ports, host and Ethernet ports are not fenced? -/
def partsLive (s : State) (m : BitVec 42) : Bool :=
  (portsOf m).all (fun p => !s.basin.fencedPorts.getLsbD p && (decide (24 ≤ p) || s.dieLive p))

/-- Words of a program in the active bank. -/
def programWords (s : State) (p : Nat) : List DWord :=
  let t := if s.basin.active then s.basin.bank1 else s.basin.bank0
  (List.range 64).map (fun i => t.get (64 * p + i) 0)

/-- A COPEN at the Basin: it opens, joins, or is refused with reason 0x16. The first one, too, is refused where its die or its root die is no
participant (log entry 84, DESIGN CHOICE). -/
def openAt (s : State) (r : OpenReq) : State :=
  let fn := (s.teamOf r.org.team).fn
  let die := r.org.die
  let tenant := (s.fnOf (die * 8 + fn)).cfg.tenant
  let b : Binding := { die, fn, addr := r.object }
  let refuse (s : State) : State := s.answerOpen r.slot r.org (failWord 0x16 0)
  if !r.parts.getLsbD die || !(decide (r.root < 24) && r.parts.getLsbD r.root) || !s.partsLive r.parts then refuse s
  else match s.openColl tenant r.slot with
    | some (n, c) =>
      if c.program != r.program || c.parts != r.parts || c.window != r.window || c.root != r.root
          || c.bindings.any (fun x => x.die == die) then refuse s
      else
        let s := s.setColl n { c with bindings := c.bindings ++ [b], openers := if c.fixed then c.openers else c.openers ++ [r.org] }
        if c.fixed then (s.answerOpen r.slot r.org 0).pushOuts n else s
    | none =>
      let x := s.slotOf r.slot
      let held := s.holdsSlot tenant r.slot && !x.isOpen
      let ws := s.programWords r.program
      if !(held || x.state == 0) || !openable ws r.parts x.masks then refuse s
      else
        let n := s.basin.nextColl
        let c : Coll := { tenant, slot := r.slot, endpoint := false, fixed := false, program := r.program, bank := s.basin.active,
                          words := ws, masks := x.masks, parts := r.parts, window := r.window, root := r.root, lock := 0,
                          order := n, bindings := [b], openers := [r.org], counts := [], next := 0, stage := [], pc := 0,
                          acc := [], outs := [], waiting := none, fwde := 0 }
        let s := (s.modBasin (fun b => { b with nextColl := n + 1 })).setColl n c
        if held then s.takeSlot n false else s.poolRequest n

/-! ### Alias stores (R266 to R269) -/

/-- Bytes counted and staged for a port (R266, R267): in the Basin, or on the endpoint path in firmware memory of the root die, outside
every function's space (R290). -/
def stageBytes (s : State) (n : Nat) (c : Coll) (port win off : Nat) (bs : List Byte) : State :=
  let chunk := off / 256
  let k := countKey win chunk port
  if 2 < win || c.window < off + bs.length then s.failColl n 2 port 0 (some chunk)
  else if chunk < c.next || 256 < c.counts.get k 0 + bs.length then s.failColl n 1 port 0 (some chunk)
  else
    let stage := bs.zipIdx.foldl (fun t p => t.set (stageKey win chunk port (off % 256 + p.2)) p.1) c.stage
    (s.setColl n { c with counts := c.counts.set k (c.counts.get k 0 + bs.length), stage := stage }).post (.chunkBody n)

/-- The Basin has accepted an alias store, or discarded it, and its die hears of it (R16, R162, R267): the group's count falls, and what
waits on the store goes on. -/
def storeAccepted (s : State) (gkey team : Nat) : State :=
  ((((s.pubAdd gkey team 3 false).checkGrid (s.launchOf team)).afterRequest (gkey / 16)).afterOrder (gkey / 16))

/-- A chunk fired at a bound team's end which the collective does not take: its grid's status is failed (R216). -/
def chunkLost (s : State) (a : AliasStore) : State :=
  if a.gkey = 2 ^ 40 + a.team then s.modLaunch (s.launchOf a.team) (fun l => { l with bad := true }) else s

/-- An alias store at its collective (R267, R269): counted and staged, a failure of the collective, or discarded. -/
def takeStore (s : State) (a : AliasStore) : State :=
  match s.openColl a.tenant a.slot with
  | none => s.chunkLost a
  | some (n, c) =>
    if !c.has a.die then s.chunkLost a
    else (if c.accepts a.die a.window a.off a.bytes.length then s else s.chunkLost a).stageBytes n c a.die a.window a.off a.bytes

/-- The pound that acknowledges an alias store: the Basin, or the root die that it has been relayed to (R290). -/
def storedFrom (s : State) (a : AliasStore) : Nat :=
  if a.relayed then ((s.openColl a.tenant a.slot).map (fun c => c.2.root)).getD 24 else 24

/-- Does the Basin hold an alias store to a chunk of the window back at its port (R268)? -/
def heldBack (s : State) (a : AliasStore) : Bool :=
  match s.openColl a.tenant a.slot with
  | some (_, c) => c.has a.die && decide (c.next + 64 ≤ a.off / 256) && decide (a.off + a.bytes.length ≤ c.window)
  | none => false

/-- May an alias store be performed: it has arrived, stands after the group's earlier CL accesses (R227), behind no held store of its port
(R268), and a replayed one behind every earlier access of its group (R38)? -/
def aliasDue (s : State) (a : AliasStore) : Bool :=
  a.arrived && !s.heldBack a
    && !(a.replayed && s.runPending a.gkey a.team a.uid)
    && !s.aliases.any (fun x => decide (x.uid < a.uid)
      && ((x.gkey == a.gkey && x.team == a.team) || (x.die == a.die && s.heldBack x)))
    && !s.opens.any (fun o => decide (o.uid < a.uid) && o.org.gkey == a.gkey && o.org.team == a.team)

end State

/-- COPEN (R244): checks of its block; what depends on the slot follows at the Basin. -/
def execCopen (d a : Operand) (s : State) : Res :=
  let r := s.blkN a
  let object := (s.blk a 5 ++ s.blk a 4).toNat
  let chk : Except Nat (List LsRange) := match leastReason [
      (bits (r 0) 14 18 != 0 || bits (r 1) 24 8 != 0 || bits (r 2) 18 14 != 0 || bits (r 6) 5 27 != 0 || r 7 != 0, 0x10),
      (object % 64 != 0, 0x11),
      (r 3 % 256 != 0 || r 3 < 256 || 67108864 < r 3, 0x13)] with
    | some k => .error k
    | none => .ok []
  .next (s.issueEngine 4 6 d true 0 chk (fun s o =>
    let (u, s) := s.fresh
    let (seq, s) := s.takeSeq (o.die * 512 + o.core) 24
    let q : OpenReq := { src := o.die * 512 + o.core, seq, uid := u, org := o, program := bits (r 0) 8 6, slot := bits (r 0) 0 8
                         parts := BitVec.ofNat 42 (bits (r 1) 0 24 + bits (r 2) 0 16 * 2 ^ 24 + bits (r 2) 16 2 * 2 ^ 40)
                         window := r 3, object := object, root := bits (r 6) 0 5, arrived := false, sentAt := s.basin.time.toNat }
    State.sendMsg { s with opens := s.opens ++ [q] } o.die 24 false 64 (.copen u)))

/-- COLLECTIVE_OPEN (R227, R270): after the group's earlier CL accesses. -/
def execCollectiveOpen (uid : Nat) (s : State) : Res :=
  match s.opens.find? (fun o => o.uid == uid) with
  | none => .next s
  | some r =>
    let mine (g t : Nat) : Bool := g == r.org.gkey && t == r.org.team
    if !r.arrived || s.aliases.any (fun a => decide (a.uid < uid) && mine a.gkey a.team)
        || s.opens.any (fun o => decide (o.uid < uid) && mine o.org.gkey o.org.team) then .next s
    else
      let s := { s with opens := s.opens.filter (fun o => o.uid != uid) }
      .next (((s.acceptAt 24 [0] r.src r.seq []).openAt r).kickAliases)

/-- ALIAS_STORE (R266 to R269): discarded, counted and staged, or a failure of the collective; the Basin relays one of an endpoint
collective to the root die, where it is counted (R290). Its die hears of it (R16); a host agent's contribution has none that waits. -/
def execAliasStore (uid : Nat) (s : State) : Res :=
  match s.aliases.find? (fun a => a.uid == uid) with
  | none => .next s
  | some a =>
    let relay := !a.relayed && (match s.openColl a.tenant a.slot with
      | some (_, c) => c.endpoint && c.has a.die
      | none => false)
    if !s.aliasDue a then .next s
    else if relay then
      let root := ((s.openColl a.tenant a.slot).map (fun c => c.2.root)).getD 0
      let mark (x : AliasStore) : AliasStore := if x.uid = uid then { x with relayed := true, arrived := false } else x
      .next (State.sendMsg { s with aliases := s.aliases.map mark } 24 root false a.bytes.length (.aliasStore uid))
    else
      let s := { s with aliases := s.aliases.filter (fun x => x.uid != uid) }
      let s := if a.hostFn.isSome then s else s.acceptAt 24 [0] a.src a.seq []
      let t := (s.takeStore a).kickAliases.afterOrder (a.gkey / 16)
      .next (if a.hostFn.isSome then t else t.sendSure (s.storedFrom a) a.die true 0 (.stored uid a.gkey a.team))

/-- COLLECTIVE_COMPLETION (R274): after the last chunk's body, once every write and arrive has been performed. A collective that waits for
an entry of the endpoint list asks again. -/
def execCollectiveCompletion (coll : Nat) (s : State) : Res :=
  match s.collOf coll with
  | none => .next s
  | some c =>
    if s.waitsEntry coll c then .next (s.fallBack coll)
    else if c.over then .next ((s.endColl coll c true).kickAliases)
    else .next (s.pushOuts coll)

/-- EXIT_FIRED_CHUNK (R215, R275): the tile of a bound team goes to the reduce window of its slot as alias stores of 256
bytes; a team that ended by a fault fails the slot's collective. The slot has to be held by the tenant, for which an endpoint entry
counts (R271). -/
def execExitFiredChunk (team : Nat) (s : State) : Res :=
  let t := s.teamOf team
  let l := s.launch t.launch
  let r := l.rcd
  let tenant := (s.fnOf (t.die * 8 + t.fn)).cfg.tenant
  let ck := t.die * 512 + t.core
  let lo := t.lsBase + r.resultOff
  let done (s : State) : State :=
    ((s.modLaunch t.launch (fun x => { x with firing := x.firing.filter (fun u => u != team) })).checkGrid t.launch).kickFn (t.die * 8 + t.fn)
  if !l.firing.contains team then .next s
  else if t.bad then
    .next (done (match s.openColl tenant r.slot with
      | some (n, _) => s.failColl n 4 t.die 0
      | none => s))
  else if (s.coreOf ck).score.any (fun e => e.team == team && decide (e.lo < lo + r.tileBytes) && decide (lo < e.hi)) then .next s
  else match (s.openColl tenant r.slot).filter (fun c => s.holdsSlot tenant r.slot || (c.2.fixed && c.2.endpoint)) with
    | none =>
      let o : Origin := { die := t.die, core := t.core, team := team, group := 0, gkey := 0, handle := 0, offset := 0 }
      .next (done ((s.modLaunch t.launch (fun x => { x with bad := true })).reportFailure o (State.failWord 0x16 0) 0))
    | some _ =>
      let tile := s.bytesAt (localLoc ck lo) r.tileBytes
      let u := s.nextUid
      let n := r.tileBytes / 256
      let (q, s) := s.takeSeq ck 24
      let new := (List.range n).map (fun i =>
        ({ uid := u + i, gkey := 2 ^ 40 + team, team, die := t.die, tenant, slot := r.slot, window := 0
           off := t.index * r.aliasStride + 256 * i, bytes := (tile.drop (256 * i)).take 256, arrived := false, relayed := false
           sentAt := s.basin.time.toNat, replayed := false, src := ck, seq := q + BitVec.ofNat 16 i } : AliasStore))
      let s := { s with nextUid := u + n, aliases := s.aliases ++ new, reqSeq := s.reqSeq.set (64 * ck + 24) (q + BitVec.ofNat 16 n) }
      .next (new.foldl (fun s a => s.sendMsg t.die 24 false 256 (.aliasStore a.uid)) (done s))

/-! ### Tables the firmware writes (R256, R257) -/

/-- SLOT_TABLE_WRITE (R256): state, holding tenant and set masks. -/
def execSlotTableWrite (slot state tenant : Nat) (masks : List (BitVec 42)) (s : State) : Res :=
  if 256 ≤ slot || masks.length ≠ 4 then .next s
  else .next (s.setSlot slot { s.slotOf slot with state := state % 4, tenant := tenant % 64, masks := masks })

/-- TENANT_QUOTA_TABLE_WRITE (R257); the reserved counts of all tenants stay at 256 or fewer. -/
def execTenantQuotaTableWrite (tenant : Nat) (enabled : Bool) (reserved limit : Nat) (priority : BitVec 8) (s : State) : Res :=
  let others := (s.basin.quotas.filter (fun q => q.1 != tenant)).foldl (fun n q => n + q.2.reserved) 0
  if 64 ≤ tenant || 256 < reserved || 256 < limit || 256 < others + reserved then .next s
  else .next (s.modBasin (fun b => { b with quotas := b.quotas.set tenant { b.quotas.get tenant {} with
    enabled := enabled, reserved := reserved, limit := limit, priority := priority } }))

/-! ### The control store (R281, R288) -/

namespace State

/-- The next RELOAD's image is read, where none is staged, and leaves its die for the Basin (R16, R288). -/
def stageReload (s : State) (fuel : Nat) : State :=
  match fuel with
  | 0 => s
  | k + 1 =>
    match s.basin.staging, s.basin.reloads with
    | none, r :: rest =>
      if !r.image.isEmpty then s
      else match s.partRead .image r.die 0 r.addr 32768 with
      | (s, .wait _ _) => s
      | (s, .bad _) => ((s.modBasin (fun b => { b with reloads := rest })).complete (r.die * 8) r.result 4).stageReload k
      | (s, .ok bs) =>
        let ws := (List.range 4096).map (fun i => BitVec.ofNat 64 (recAt bs (8 * i) 8))
        (s.modBasin (fun b => { b with reloads := { r with image := ws } :: rest })).sendSure r.die 24 true 32768 .image
    | _, _ => s

/-- An image reaches the Basin's staging buffer and is checked (R281, R288); where none is on its way, its read is tried again. -/
def imageArrives (s : State) : State :=
  match s.basin.staging, s.basin.reloads with
  | none, r :: rest =>
    if r.image.isEmpty then s.stageReload (rest.length + 1)
    else
      let s := s.modBasin (fun b => { b with reloads := rest })
      if (List.range 64).all (fun p => programOk ((r.image.drop (64 * p)).take 64)) then
        (s.modBasin (fun b => { b with staging := some r })).post .reloadBankSwitch
      else (s.complete (r.die * 8) r.result 3).stageReload (rest.length + 1)
  | _, _ => s

end State

/-- RELOAD (R288, R333): from the physical function alone; behind earlier RELOADs. -/
def execReload (die fn : Nat) (_ b16 : DWord) (result : Nat) (s : State) : Res :=
  let k := die * 8 + fn
  if fn ≠ 0 then .next (s.complete k result 2)
  else if b16.toNat % 64 ≠ 0 then .next (s.complete k result 3)
  else
    let s := s.modBasin (fun b => { b with reloads := b.reloads ++ [{ die := die, addr := b16.toNat, result := result, image := [] }] })
    .next (s.stageReload (s.basin.reloads.length + 1))

/-- RELOAD_BANK_SWITCH (R288): once no open collective is bound to the inactive bank. -/
def execReloadBankSwitch (s : State) : Res :=
  match s.basin.staging with
  | none => .next s
  | some r =>
    let other := !s.basin.active
    if s.basin.colls.any (fun c => !c.2.endpoint && c.2.bank == other) then .next s
    else
      let t := (r.image.zipIdx.filter (fun p => p.1 != 0)).map (fun p => (p.2, p.1))
      let s := s.modBasin (fun b => { b with bank0 := if other then b.bank0 else t, bank1 := if other then t else b.bank1
                                             active := other, staging := none })
      let s := s.complete (r.die * 8) r.result 0
      .next (s.stageReload (s.basin.reloads.length + 1))

/-- ABORT (R333): by a function of the tenant that holds the slot, on the switch path or through an endpoint entry; reason 0x07. A
collective whose path is not fixed holds neither. -/
def execAbort (die fn : Nat) (b8 _ : DWord) (result : Nat) (s : State) : Res :=
  let k := die * 8 + fn
  let slot := bits b8.toNat 0 8
  let tenant := (s.fnOf k).cfg.tenant
  let held := s.holdsSlot tenant slot
  match s.openColl tenant slot with
  | some (n, c) => .next (if c.fixed || held then (s.failColl n 7 0x3F 0).complete k result 0 else s.complete k result 2)
  | none => .next (s.complete k result (if held then 1 else 2))

end Sys2Proof.Machine
end

