-- ==== Sys2Proof/Machine/Henat.lean ====
section
/-! DEFINITION. The Henat instructions (R276 to R287): each acts on the body of the collective `State.curColl`, and waits by
leaving the body where it stands; the body of a chunk (R276). -/

namespace Sys2Proof.Machine

open Sys2Proof

/-- Element `e` of accumulator `a` (R265). -/
def Coll.accAt (c : Coll) (a e : Nat) : Word := c.acc.get (128 * a + e) 0
/-- Is the running chunk the last? -/
def Coll.isLast (c : Coll) : Bool := c.next + 1 == c.chunks
/-- May an instruction with this `.last` flag act in the running body (R283)? -/
def Coll.acts (c : Coll) (last : Bool) : Bool := !last || c.isLast

/-- Rounded to F32 (R92, R94). -/
def rneF32 (x : Val) : Word := BitVec.ofNat 32 (roundFmt x .f32 .rne false)
/-- The value of an F32 element. -/
def valF32 (w : Word) : Val := Fmt.f32.value w.toNat

/-- The elements of a chunk's bytes, as F32 (R277). -/
def chunkElems (bf : Bool) (bs : List Byte) : List Word :=
  if bf then (splitElems 16 bs).map (fun x => rneF32 (Fmt.bf16.value x))
  else (splitElems 32 bs).map (fun x => rneF32 (Fmt.f32.value x))

/-- The bytes that FWD and FWDE form of an accumulator (R285). -/
def Coll.formed (c : Coll) (a : Nat) (bf : Bool) : List Byte :=
  if bf then (List.range 128).flatMap (fun e => bytesOf 2 (roundFmt (valF32 (c.accAt a e)) .bf16 .rne false))
  else (List.range 64).flatMap (fun e => bytesOf 4 (rneF32 (valF32 (c.accAt a e))).toNat)

/-- An accumulator's first elements replaced (R283). -/
def Coll.setAcc (c : Coll) (a : Nat) (ws : List Word) : Coll :=
  { c with acc := ws.zipIdx.foldl (fun t p => t.set (128 * a + p.2) p.1) c.acc }

namespace State

/-- The body acts on the current collective; with none, nothing happens. -/
def withColl (s : State) (f : Coll → State) : State :=
  match s.collOf s.curColl with
  | none => s
  | some c => f c

/-- The collective as it is after an instruction, at the word after it. -/
def henatNext (s : State) (c : Coll) : State := s.setColl s.curColl { c with pc := c.pc + 1 }

/-- Writes and arrives made by an instruction, tried at once. -/
def henatOut (s : State) (c : Coll) (outs : List CollOut) : State :=
  (s.henatNext { c with outs := c.outs ++ outs }).pushOuts s.curColl

/-- An instruction that reads a port's chunk (R277): it waits until the chunk is ready. -/
def henatData (s : State) (port win : Nat) (last : Bool) (f : Coll → List Byte → State) : State :=
  s.withColl (fun c =>
    if !c.acts last then s.henatNext c
    else if c.ready win c.next port then f c (c.bytes win c.next port)
    else s)

/-- LOAD, ADD, MAX, MIN (R283). -/
def henatElems (s : State) (d : Nat) (bf : Bool) (port win : Nat) (last : Bool) (f : Word → Word → Word) : State :=
  s.henatData port win last (fun c bs =>
    s.henatNext (c.setAcc d ((chunkElems bf bs).zipIdx.map (fun p => f (c.accAt d p.2) p.1))))

/-- ADDA, SCALE, ROUND, COPY (R283). -/
def henatAcc (s : State) (d : Nat) (last : Bool) (f : Coll → Nat → Word) : State :=
  s.withColl (fun c =>
    if c.acts last then s.henatNext (c.setAcc d ((List.range 128).map (f c))) else s.henatNext c)

/-- A write of 256 bytes to each die of a set, each followed with `.bar` in the last body by an arrive (R285). -/
def henatWrites (c : Coll) (set : Nat) (bs : List Byte) (bar : Bool) : List CollOut :=
  (portsOf (c.mask set)).flatMap (fun d =>
    .write d (256 * c.next) bs :: (if bar && c.isLast then [.arrive d c.next] else []))

/-- A body ends (R267, R276): the chunk's staging and counts are freed, held stores come up, the collective goes on. -/
def endBody (s : State) (n : Nat) (c : Coll) : State :=
  let mine (k : Nat) : Bool := k / 64 % 2 ^ 18 == c.next
  let c := { c with counts := c.counts.filter (fun p => !mine p.1), stage := c.stage.filter (fun p => !mine (p.1 / 256))
                    next := c.next + 1, pc := 0, acc := [] }
  let s := ((s.setColl n c).pushOuts n).kickAliases
  if c.next < c.chunks then s.post (.chunkBody n) else s.post (.collectiveCompletion n)

end State

/-- END (R276, R284). -/
def execHenatEnd (s : State) : Res := .next (s.withColl (fun c => s.endBody s.curColl c))

/-- MATCH (R284). -/
def execHenatMatch (set win : BitVec 2) (last : Bool) (s : State) : Res :=
  .next (s.withColl (fun c =>
    if !c.acts last || (portsOf (c.mask set.toNat)).all (fun p => c.ready win.toNat c.next p) then s.henatNext c else s))

/-- LOAD (R283). -/
def execHenatLoad (d : BitVec 3) (bf : Bool) (port : BitVec 6) (win : BitVec 2) (last : Bool) (s : State) : Res :=
  .next (s.henatElems d.toNat bf port.toNat win.toNat last (fun _ x => x))

/-- ADD (R283). -/
def execHenatAdd (d : BitVec 3) (bf : Bool) (port : BitVec 6) (win : BitVec 2) (last : Bool) (s : State) : Res :=
  .next (s.henatElems d.toNat bf port.toNat win.toNat last (fun a x => rneF32 (Val.add .rne (valF32 a) (valF32 x))))

/-- MAX (R283, R101). -/
def execHenatMax (d : BitVec 3) (bf : Bool) (port : BitVec 6) (win : BitVec 2) (last : Bool) (s : State) : Res :=
  .next (s.henatElems d.toNat bf port.toNat win.toNat last (fun a x => BitVec.ofNat 32 (fminmax true .f32 a.toNat x.toNat)))

/-- MIN (R283, R101). -/
def execHenatMin (d : BitVec 3) (bf : Bool) (port : BitVec 6) (win : BitVec 2) (last : Bool) (s : State) : Res :=
  .next (s.henatElems d.toNat bf port.toNat win.toNat last (fun a x => BitVec.ofNat 32 (fminmax false .f32 a.toNat x.toNat)))

/-- ADDA (R283). -/
def execHenatAdda (d src : BitVec 3) (last : Bool) (s : State) : Res :=
  .next (s.henatAcc d.toNat last (fun c e => rneF32 (Val.add .rne (valF32 (c.accAt d.toNat e)) (valF32 (c.accAt src.toNat e)))))

/-- SCALE (R283). -/
def execHenatScale (d src : BitVec 3) (imm : BitVec 32) (last : Bool) (s : State) : Res :=
  .next (s.henatAcc d.toNat last (fun c e => rneF32 (Val.scale (valF32 (c.accAt src.toNat e)) imm.toInt)))

/-- ROUND (R283): the value in the format, held as F32. -/
def execHenatRound (d src : BitVec 3) (bf : Bool) (last : Bool) (s : State) : Res :=
  .next (s.henatAcc d.toNat last (fun c e =>
    let x := valF32 (c.accAt src.toNat e)
    if bf then rneF32 (Fmt.bf16.value (roundFmt x .bf16 .rne false)) else rneF32 x))

/-- COPY (R283). -/
def execHenatCopy (d src : BitVec 3) (last : Bool) (s : State) : Res :=
  .next (s.henatAcc d.toNat last (fun c e => c.accAt src.toNat e))

/-- FWD (R285). -/
def execHenatFwd (src : BitVec 3) (bf : Bool) (set : BitVec 2) (last bar : Bool) (s : State) : Res :=
  .next (s.withColl (fun c =>
    if c.acts last then s.henatOut c (State.henatWrites c set.toNat (c.formed src.toNat bf) bar) else s.henatNext c))

/-- GATH (R285): the staged bytes as they are. -/
def execHenatGath (set : BitVec 2) (port : BitVec 6) (win : BitVec 2) (last bar : Bool) (s : State) : Res :=
  .next (s.henatData port.toNat win.toNat last (fun c bs => s.henatOut c (State.henatWrites c set.toNat bs bar)))

/-- BAR (R286). -/
def execHenatBar (set : BitVec 2) (last : Bool) (s : State) : Res :=
  .next (s.withColl (fun c =>
    if c.acts last then s.henatOut c ((portsOf (c.mask set.toNat)).map (fun d => .arrive d c.next)) else s.henatNext c))

/-- FWDE (R287): one flagged packet through an Ethernet port; of a root die's Keeper, once it has reached the Basin (R289). -/
def execHenatFwde (src : BitVec 3) (bf : Bool) (port : BitVec 6) (win : BitVec 2) (last : Bool) (s : State) : Res :=
  .next (s.withColl (fun c =>
    if !c.acts last then s.henatNext c
    else
      let t := s.henatNext { c with fwde := c.fwde + 1 }
      let (u, t) := t.fresh
      let p : Packet := { uid := u, copy := 0, chunk := c.next, off := 256 * c.next, read := false, sent := 0, due := 0, acked := false,
                          port := port.toNat, epoch := false, fwde := some (s.curColl, win.toNat, c.next),
                          payload := c.formed src.toNat bf, scale := none, rod := false, atPort := !c.endpoint, back := false
                          sentAt := t.basin.time.toNat }
      let t := { t with packets := t.packets ++ [p] }
      if c.endpoint then t.crossOut c.root p else t.transmit u))

/-- FAIL (R284, R275): reason 0x03 and its code; no port is concerned. -/
def execHenatFail (code : BitVec 8) (last : Bool) (s : State) : Res :=
  .next (s.withColl (fun c =>
    if c.acts last then s.failColl s.curColl 3 0x3F code.toNat else s.henatNext c))

/-- SKIPNL (R284). -/
def execHenatSkipnl (s : State) : Res :=
  .next (s.withColl (fun c => s.setColl s.curColl { c with pc := if c.isLast then c.pc + 1 else c.pc + 2 }))

/-- The meaning of a Henat instruction; nothing for any other. -/
def henatExec (i : Instr) (s : State) : Res :=
  match i with
  | .henatEnd => execHenatEnd s
  | .henatMatch k w l => execHenatMatch k w l s
  | .henatLoad d b p w l => execHenatLoad d b p w l s
  | .henatAdd d b p w l => execHenatAdd d b p w l s
  | .henatMax d b p w l => execHenatMax d b p w l s
  | .henatMin d b p w l => execHenatMin d b p w l s
  | .henatAdda d a l => execHenatAdda d a l s
  | .henatScale d a n l => execHenatScale d a n l s
  | .henatRound d a b l => execHenatRound d a b l s
  | .henatFwd a b k l r => execHenatFwd a b k l r s
  | .henatFwde a b p w l => execHenatFwde a b p w l s
  | .henatCopy d a l => execHenatCopy d a l s
  | .henatGath k p w l r => execHenatGath k p w l r s
  | .henatBar k l => execHenatBar k l s
  | .henatFail c l => execHenatFail c l s
  | .henatSkipnl => execHenatSkipnl s
  | _ => .next s

/-- The instruction at a body's next word; a body ends after the last of its words, and at one that no reload admits
(R281). -/
def Coll.instr (c : Coll) : Instr :=
  match decodeHenat (c.words.getD c.pc 0) with
  | .ok i => i
  | .error _ => .henatEnd

namespace State

/-- May a collective's body run: its path is fixed, chunks are left, and on the endpoint path its root die's Keeper works
(R276, R289)? -/
def bodyDue (s : State) (c : Coll) : Bool :=
  c.fixed && decide (c.next < c.chunks) && !(c.endpoint && ((s.die c.root).keeperDead || !s.dieLive c.root))

/-- A body's instructions until it waits, ends or fails; how many, the waits not counted. -/
def runBody (s : State) (n fuel : Nat) : State × Nat :=
  match fuel with
  | 0 => (s, 0)
  | k + 1 =>
    match s.collOf n with
    | none => (s, 0)
    | some c =>
      let t := nextOr s (henatExec c.instr { s with curColl := n })
      match t.collOf n with
      | none => (t, 1)
      | some c' =>
        if c'.next != c.next then (t, 1)
        else if c'.pc == c.pc then (t, 0)
        else
          let (t, m) := t.runBody n k
          (t, m + 1)

/-- A lock is taken for a number of Basin cycles (R276, R354). -/
def holdLock (s : State) (k m : Nat) : State :=
  if m = 0 then s else s.modBasin (fun b => { b with lockBusy := b.lockBusy.set k m })

/-- A nanosecond of the locks, two Basin cycles: where a lock becomes free, the bodies of its collectives come up, those opened
first before the others (R276). -/
def lockTick (s : State) : State :=
  let free := (s.basin.lockBusy.filter (fun p => p.2 ≤ 2)).map Prod.fst
  let s := s.modBasin (fun b => { b with lockBusy := (b.lockBusy.filter (fun p => 2 < p.2)).map (fun p => (p.1, p.2 - 2)) })
  free.foldl (fun s k => (s.basin.colls.filter (fun c => !c.2.endpoint && c.2.lock == k)).foldl (fun s c => s.post (.chunkBody c.1)) s) s

end State

/-- The body that a free lock runs (R276): of its collectives' bodies that can proceed, the one whose collective opened first; the state
after it, and its cycles. -/
def State.lockBody (s : State) (k : Nat) : Option (State × Nat) :=
  (s.basin.colls.filter (fun c => s.bodyDue c.2 && !c.2.endpoint && c.2.lock == k)).findSome? (fun c =>
    let r := s.runBody c.1 66
    if r.2 = 0 then none else some r)

/-- CHUNK_BODY (R276): on the endpoint path the body of the collective's next chunk, as far as it can go; on the switch path its lock,
where that is free, runs what can proceed. -/
def execChunkBody (coll : Nat) (s : State) : Res :=
  match s.collOf coll with
  | none => .next s
  | some c =>
    if !s.bodyDue c then .next s
    else if c.endpoint then .next (s.runBody coll 66).1
    else if s.basin.lockBusy.has c.lock then .next s
    else match s.lockBody c.lock with
      | none => .next s
      | some (t, m) => .next (t.holdLock c.lock m)

end Sys2Proof.Machine
end

