-- ==== Sys2Proof/Machine/Weir.lean ====
section
/-! DEFINITION. The Weir (R292 to R308): WBID, WRES and WREL, bids, rounds, held contests, changes of the contest table
(R258, R259), the pool's bids in contest 0 (R272). -/

namespace Sys2Proof.Machine

open Sys2Proof

/-- A presented bid's 41 bits as a number (R295): start, key, die, slot. -/
def bidNumber (key : Word) (die slot : Nat) : Nat := 2 ^ 40 + key.toNat * 2 ^ 8 + die % 32 * 8 + slot % 8
def Presented.number (p : Presented) : Nat := bidNumber p.key p.die p.slot

/-- Is round `r` one of contest `c` (R294)? -/
def roundOf (r c : Nat) : Bool := r % 4 == c / 16

namespace State

def contest (s : State) (c : Nat) : Contest := s.basin.contests.get c {}
def holdOf (s : State) (c : Nat) : Option Hold := (s.basin.holds.find? (fun h => h.1 == c)).map Prod.snd

/-- What a contest's line has shown: the greatest number presented; its first bits are the line's bits so far (R297). -/
def lineNumber (s : State) (c : Nat) : Nat := (s.basin.presented.filter (fun p => p.contest == c)).foldl (fun m p => max m p.number) 0

/-- May a function of a die see a contest's results and release it (R301, R304)? -/
def contestOpen (s : State) (die fkey c : Nat) : Bool :=
  (s.contest c).mask.getLsbD die && (s.contest c).tenant == (s.fnOf fkey).cfg.tenant

/-- May a pending bid of a die take part in its contest: the mask holds the die, and the tenant is that of the function that issued it
(R301)? One that may not stays pending (log entry 75, DEDUCED). -/
def takesPart (s : State) (die : Nat) (b : Bid) : Bool :=
  s.dieLive die && s.contestOpen die (die * 8 + (s.teamOf b.origin.team).fn) b.contest

def modBid (s : State) (die slot : Nat) (f : Bid → Bid) : State :=
  s.modDie die (fun d => { d with bids := d.bids.map (fun (p : Nat × Bid) => if p.1 = slot then (p.1, f p.2) else p) })

/-- The completion of a bid reaches its die's cores (R17): its slot is free, its handle completes (R302, R303). -/
def bidEnds (s : State) (die slot : Nat) (handle word : Word) : State :=
  match (s.die die).bids.find? (fun b => b.1 == slot && b.2.handle == handle) with
  | none => s
  | some (_, b) => (s.modDie die (fun d => { d with bids := d.bids.erase slot })).completeOp b.origin word 0

/-- A bid is done with at its die's Weir interface: it enters no further round, and its completion crosses back (R17, R299). -/
def endBid (s : State) (die slot : Nat) (word : Word) : State :=
  match (s.die die).bids.find? (fun b => b.1 == slot) with
  | none => s
  | some (_, b) =>
    let s := s.modBid die slot (fun b => { b with inRound := true })
    { s with agenda := s.agenda ++ [.bidEnd die slot b.handle word] }

/-- One Weir round waited, in the issuing group's counter 12, on its core or saved, and in the lifetime record (R296). -/
def countRound (s : State) (o : Origin) : State :=
  let up (g : Group) : Group := { g with cnt := g.cnt.set 12 (g.cnt.get 12 0 + 1) }
  let s := s.modLife (fun l => { l with weirWaits := satUp l.weirWaits })
  let g := s.group o.gkey
  if g.live && g.team == o.team && g.index == o.group then s.modGroup o.gkey up
  else s.modFn (o.die * 8 + (s.teamOf o.team).fn) (fun f => { f with saved := f.saved.map (fun (x : SavedTeam) =>
    if x.uid = o.team then { x with groups := x.groups.map (fun g => if g.index = o.group then up g else g) } else x) })

end State

/-! ### The instructions (R302 to R305) -/

/-- WBID (R302). -/
def execWbid (d a : Operand) (i : BitVec 8) (s : State) : Res :=
  let g := s.g
  let c := i.toNat
  if s.fenceHeld 6 then .next s.holdIssue
  else if !(s.contest c).enabled || !s.contestOpen g.die g.fkey c || c == 0 then .next (s.scalarFault 2 c)
  else
    let slot := (List.range 8).find? (fun k => !(s.die g.die).bids.has k)
    .next (s.issueEngine 6 5 d slot.isSome 0 (.ok []) (fun t o =>
      let k := slot.getD 0
      let b : Bid := { contest := c, key := s.rd a 0, handle := o.handle, origin := o, arrived := false, inRound := false }
      (t.modDie g.die (fun x => { x with bids := x.bids.set k b })).post (.weirBidArrival g.die k)))

/-- The pair that WRES writes (R304). -/
def WeirResult.pair (r : WeirResult) : DWord :=
  (BitVec.ofBool r.valid ++ BitVec.ofBool r.held ++ 0#7 ++ r.die ++ r.slot ++ r.k) ++ r.key

/-- WRES (R304). -/
def execWres (d : Operand) (i : BitVec 8) (s : State) : Res :=
  let g := s.g
  let c := i.toNat
  if s.fenceHeld 6 then .next s.holdIssue
  else if !s.contestOpen g.die g.fkey c then .next (s.scalarFault 2 c)
  else .next (s.scalarResult d true ((s.die g.die).results.get c {}).pair)

/-- A WREL of a die reaches the controller (R305): a hold by that die ends at the end of the first round of the contest that ends from
now on. -/
def State.releaseArrives (s : State) (die c : Nat) : State :=
  match s.holdOf c with
  | none => s
  | some h => if h.die.toNat = die then s.modBasin (fun b => { b with holds := b.holds.set c { h with released := true } }) else s

/-- WREL (R305): the release crosses to the Weir interface (R17). -/
def execWrel (i : BitVec 8) (s : State) : Res :=
  let g := s.g
  let c := i.toNat
  if s.fenceHeld 6 then .next s.holdIssue
  else if !s.contestOpen g.die g.fkey c then .next (s.scalarFault 2 c)
  else .next { s with agenda := s.agenda ++ [.release g.die c] }

/-! ### Bids and rounds (R294 to R300) -/

namespace State

/-- The bits that the Weir lines show at a bit time of the round in progress (R295, R297). -/
def weirLines (s : State) : BitVec 16 :=
  let r := s.basin.round
  let j := (s.basin.time.toNat - 164 * r) / 4
  if !s.basin.inRound || 40 < j then 0
  else BitVec.ofNat 16 ((List.range 16).foldl (fun n i =>
    n + (if (s.lineNumber (16 * (r % 4) + i)).testBit (40 - j) then 2 ^ i else 0)) 0)

/-- The lines as the bids in the round drive them. -/
def showLines (s : State) : State := s.modBasin (fun b => { b with lines := s.weirLines })

/-- A bid enters the round in progress at a bit time. -/
def enterRound (s : State) (die slot : Nat) (b : Bid) (bit : Nat) : State :=
  ((s.modBid die slot (fun b => { b with inRound := true })).modBasin (fun x =>
    { x with presented := x.presented ++ [{ contest := b.contest, die, slot, key := b.key, bit }] })).showLines

/-- The late entry of R298. Of two bids of a die that come in one bit time, the greater is the one that enters. -/
def lateEntry (s : State) (die slot : Nat) (b : Bid) : State :=
  let r := s.basin.round
  let j := (s.basin.time.toNat - 164 * r) / 4
  let own := bidNumber b.key die slot
  if !s.basin.inRound || !roundOf r b.contest || !s.takesPart die b || (s.holdOf b.contest).isSome || j = 0 || 40 < j
      || own / 2 ^ (41 - j) != s.lineNumber b.contest / 2 ^ (41 - j) then s
  else match s.basin.presented.find? (fun p => p.contest == b.contest && p.die == die) with
    | none => s.enterRound die slot b j
    | some p =>
      if p.bit = j && p.number < own then
        let s := s.modBasin (fun x => { x with presented := x.presented.filter (fun q => q != p) })
        (s.modBid die p.slot (fun b => { b with inRound := false })).enterRound die slot b j
      else s

/-- The pending bid that a die presents on a contest (R296): the greatest key, then the higher slot. -/
def bestBid (s : State) (die c : Nat) : Option (Nat × Bid) :=
  ((s.die die).bids.filter (fun b => b.2.contest == c && b.2.arrived && !b.2.inRound && s.takesPart die b.2)).foldl (fun m b =>
    match m with
    | none => some b
    | some x => if bidNumber x.2.key die x.1 < bidNumber b.2.key die b.1 then some b else some x) none

/-- A die's part in the start of a contest's round: it presents one bid, or while the contest is held its bids are
consumed (R296, R300). -/
def dieStart (s : State) (c die : Nat) : State :=
  if (s.holdOf c).isSome then
    s.modDie die (fun d => { d with bids := d.bids.map (fun (p : Nat × Bid) =>
      if p.2.contest = c && p.2.arrived && s.takesPart die p.2 then (p.1, { p.2 with inRound := true }) else p) })
  else match s.bestBid die c with
    | some (k, b) => s.enterRound die k b 0
    | none => s

/-- The key of a pool request (R272). -/
def poolKey (s : State) (r : PoolReq) : Word :=
  let t := match s.collOf r.coll with
    | some c => c.tenant
    | none => 0
  (s.basin.quotas.get t {}).priority ++ BitVec.ofNat 24 r.age

/-- The Basin presents its greatest pool request on contest 0 (R272). -/
def poolStart (s : State) : State :=
  match s.basin.pool.foldl (fun (m : Option (Nat × PoolReq)) p => match m with
      | none => some p
      | some x => if bidNumber (s.poolKey x.2) 24 x.1 < bidNumber (s.poolKey p.2) 24 p.1 then some p else some x) none with
  | none => s
  | some (k, r) => s.modBasin (fun x => { x with presented := x.presented ++ [{ contest := 0, die := 24, slot := k, key := s.poolKey r, bit := 0 }] })

/-- A latched result reaches a die's cores. -/
def showResult (s : State) (d c : Nat) (r : WeirResult) : State := s.modDie d (fun x => { x with results := x.results.set c r })

/-- A result latched by every die of a contest's mask (R299, R300): the Basin shows it at once, to a die's cores it crosses a seam (R17). -/
def latchResult (s : State) (c : Nat) (r : WeirResult) : State :=
  let far := (List.range 24).filter (fun d => (s.contest c).mask.getLsbD d && s.dieLive d)
  let s := if (s.contest c).mask.getLsbD 24 then s.showResult 24 c r else s
  { s with agenda := s.agenda ++ far.map (fun d => .latched d c r) }

/-- A pool request that has won its round (R272): the slot, or the endpoint path. -/
def poolWon (s : State) (slot : Nat) : State :=
  match s.basin.pool.find? (fun p => p.1 == slot) with
  | none => s
  | some (_, r) =>
    let s := (s.modBasin (fun b => { b with pool := b.pool.erase slot })).fillPool 8
    match s.collOf r.coll with
    | none => s
    | some c =>
      let held := s.basin.slots.countP (fun x => x.2.state == 2 && x.2.tenant == c.tenant)
      if (s.slotOf c.slot).state = 0 && held < (s.basin.quotas.get c.tenant {}).limit then s.takeSlot r.coll true
      else s.fallBack r.coll

/-- The bids of a contest that are in the round complete; each round a pending bid has passed is counted. -/
def finishBids (s : State) (c : Nat) (die slot k : Nat) (held : Bool) : State :=
  (List.range 24).foldl (fun s d =>
    ((s.die d).bids.filter (fun b => b.2.contest == c && b.2.arrived)).foldl (fun s b =>
      if b.2.inRound then
        let won := !held && d == die && b.1 == slot
        s.endBid d b.1 (BitVec.ofNat 32 ((if won then 2 ^ 23 else 0) + die * 2 ^ 18 + slot * 2 ^ 15 + k % 2 ^ 15))
      else s.countRound b.2.origin) s) s

/-- The end of a contest's round (R299, R300, R305). -/
def endContest (s : State) (c k : Nat) : State :=
  match s.holdOf c with
  | some h =>
    let s := s.latchResult c ⟨h.key, true, true, h.die, h.slot, BitVec.ofNat 15 k⟩
    let s := s.finishBids c h.die.toNat h.slot.toNat k true
    if h.released then
      s.modBasin (fun b => { b with
        holds := b.holds.erase c
        contestChanges := b.contestChanges.map (fun (x : ContestChange) =>
          if x.contest = c && x.deferred then { x with since := b.time.toNat, deferred := false } else x) })
    else s
  | none =>
    match (s.basin.presented.filter (fun p => p.contest == c)).find? (fun p => p.number == s.lineNumber c) with
    | none => s.finishBids c 0 0 k false
    | some w =>
      let mode := (s.contest c).hold
      let s := s.latchResult c ⟨w.key, true, mode, BitVec.ofNat 5 w.die, BitVec.ofNat 3 w.slot, BitVec.ofNat 15 k⟩
      let s := if mode then
          s.modBasin (fun b => { b with holds := b.holds.set c ⟨BitVec.ofNat 5 w.die, BitVec.ofNat 3 w.slot, w.key, false⟩ })
        else s
      let s := s.finishBids c w.die w.slot k false
      if c = 0 then s.poolWon w.slot else s

/-- The pool's requests grow older by a round of contest 0 (R272). -/
def agePool (s : State) : State :=
  let up (r : PoolReq) : PoolReq := { r with age := min (r.age + 1) (2 ^ 24 - 1) }
  s.modBasin (fun b => { b with pool := b.pool.map (fun (p : Nat × PoolReq) => (p.1, up p.2)), poolWait := b.poolWait.map up })

end State

/-- WEIR_BID_ARRIVAL (R298, R302). -/
def execWeirBidArrival (die slot : Nat) (s : State) : Res :=
  match (s.die die).bids.find? (fun b => b.1 == slot) with
  | none => .next s
  | some (_, b) =>
    if b.arrived then .next s
    else .next ((s.modBid die slot (fun b => { b with arrived := true })).lateEntry die slot b)

/-- WEIR_ROUND_START (R294, R296): every 164 ns of the Basin's time counter. -/
def execWeirRoundStart (s : State) : Res :=
  let r := s.basin.time.toNat / 164
  if s.basin.inRound || s.basin.time.toNat % 164 ≠ 0 then .next s
  else
    let s := s.modBasin (fun b => { b with round := r, inRound := true, presented := [] })
    let s := ((List.range 64).filter (roundOf r)).foldl (fun s c => (List.range 24).foldl (fun s d => s.dieStart c d) s) s
    .next (if roundOf r 0 then s.poolStart.showLines else s)

/-- WEIR_ROUND_END (R299, R300): after bit 40. -/
def execWeirRoundEnd (s : State) : Res :=
  let r := s.basin.round
  if !s.basin.inRound || s.basin.time.toNat < 164 * (r + 1) then .next s
  else
    let s := ((List.range 64).filter (roundOf r)).foldl (fun s c => s.endContest c (r / 4)) s
    let s := if roundOf r 0 then s.agePool else s
    .next (s.modBasin (fun b => { b with inRound := false, presented := [], lines := 0 }))

/-! ### The contest table (R258, R259) -/

/-- An entry of the contest table (R258). -/
def contestOf (e : DWord) : Contest where
  enabled := e.getLsbD 63
  hold := e.getLsbD 62
  tenant := bits e.toNat 48 8
  mask := e.setWidth 25

/-- CONTEST_TABLE_WRITE (R259): it takes effect at a boundary; while the contest is held it is deferred. It replaces one that was deferred
and has not taken effect. The table never includes a die that is not live (R1). -/
def execContestTableWrite (contest : Nat) (entry : DWord) (s : State) : Res :=
  let held := (s.holdOf contest).isSome
  let e := contestOf entry
  let x : ContestChange := { contest, entry := { e with mask := e.mask &&& (1#1 ++ s.live) }, since := s.basin.time.toNat, deferred := held,
                             whileHeld := held }
  .next (s.modBasin (fun b => { b with
    contestChanges := b.contestChanges.filter (fun y => !(y.contest == contest && y.whileHeld)) ++ [x] }))

/-- CONTEST_CHANGE_BOUNDARY (R259, R307): at the first round start of the contest at least 656 ns after the write or the
hold's end; bids of the disabled contest, or of dies that leave its mask, complete with reason 0x02. -/
def execContestChangeBoundary (contest : Nat) (s : State) : Res :=
  let t := s.basin.time.toNat
  match s.basin.contestChanges.find? (fun x => x.contest == contest && !x.deferred && decide (x.since + 656 ≤ t)) with
  | none => .next s
  | some x =>
    if s.basin.inRound || t % 164 ≠ 0 || !roundOf (t / 164) contest then .next s
    else
      let s := s.modBasin (fun b => { b with contestChanges := b.contestChanges.erase x, contests := b.contests.set contest x.entry })
      .next ((List.range 24).foldl (fun s d =>
        if x.entry.enabled && x.entry.mask.getLsbD d then s
        else ((s.die d).bids.filter (fun b => b.2.contest == contest && !b.2.inRound)).foldl
          (fun s b => s.endBid d b.1 (State.failWord 2 0)) s) s)

/-- FREEZE (R308, R344): every clock stops, every memory and link key slot is emptied, the index writer stops; nothing in
progress latches or completes. -/
def execFreeze (s : State) : Res :=
  let s := { s with dies := s.dies.map (fun (p : Nat × Die) => (p.1, { p.2 with keys := [] })) }
  .next (s.modBasin (fun b => { b with
    freezeLine := true, frozen := true, presented := []
    ports := b.ports.map (fun (p : Nat × PortDir) => (p.1, { p.2 with slot0 := .empty, slot1 := .empty })) }))

end Sys2Proof.Machine
end

