-- ==== Sys2Proof/Machine/Links.lean ====
section
/-! DEFINITION. Links (R310 to R318): replay, hold, reissue, modules, routes, fenced ports; network packets at the target and
their timeouts (R319 to R323), link keys (R324, R325), registrations (R253 to R255). -/

namespace Sys2Proof.Machine

open Sys2Proof

namespace State

/-- A replay of a link, in the lifetime record and in its period (R199, R312, R324). -/
def countReplay (s : State) (link : Nat) : State :=
  s.modLife (fun l => { l with replays := l.replays.set link (satUp (l.replays.get link 0))
                               periodReplays := l.periodReplays.set link (satUp (l.periodReplays.get link 0)) })

/-- A retry that a module of a Towpath link causes: more than 16 within 1 ms, and it retrains (R314). -/
def countRetry (s : State) (link module : Nat) : State :=
  if 36 ≤ link || 4 ≤ module then s
  else
    let k := 4 * link + module
    let now := s.basin.time.toNat
    let l := now :: (s.basin.retries.get k []).filter (fun x => decide (now < x + 1000000))
    let s := s.modBasin (fun b => { b with retries := b.retries.set k (l.take 17) })
    let e : Instr := .moduleX32Fallback link module
    if 16 < l.length && (s.linkOf link).modules[module]? == some .x64 && !s.agenda.contains (.event e) then s.post e else s

end State

/-- FLIT_CRC_FAILURE (R312): a flit on its way is not delivered, nor what follows it; the sender replays from it, in the same order. -/
def execFlitCrcFailure (dir : Nat) (flit : FailedFlit) (s : State) : Res :=
  let l := s.dirOf dir
  if !l.undelivered.any (fun x => x.seq == flit.seq) then .next s
  else
    let again := l.undelivered.dropWhile (fun x => x.seq != flit.seq)
    let s := s.setDir dir { l with replay := l.replay.map (fun x =>
      if again.any (fun y => y.seq == x.seq) then { x with tries := x.tries + 1 } else x) }
    let s := { s with agenda := s.agenda ++ again.map (fun (x : Sent) => Activity.flit dir x.seq (x.tries + 1)) }
    .next ((s.countReplay (dir / 2)).countRetry (dir / 2) flit.module)

/-- FLIT_ACKNOWLEDGEMENT (R312): the replay buffer frees what has been delivered without a gap, up to this flit, and flits that waited
leave. A flit that has been delivered past an undelivered one is not acknowledged yet. -/
def execFlitAcknowledgement (dir : Nat) (seq : BitVec 10) (s : State) : Res :=
  let l := s.dirOf dir
  if !(l.replay.takeWhile (fun x => x.seq != l.expect)).any (fun x => x.seq == seq) then .next s
  else
    .next ((s.setDir dir { l with replay := (l.replay.dropWhile (fun x => x.seq != seq)).drop 1 }).pumpPound (dirEnds dir).1)

/-- HOLD_ASSERT (R315): a receive buffer has passed 48 flits. -/
def execHoldAssert (dir : Nat) (resp : Bool) (s : State) : Res :=
  let l := s.dirOf dir
  if (l.hop resp).length ≤ 48 then .next s
  else .next (s.setDir dir (if resp then { l with holdResp := true } else { l with holdReq := true }))

/-- HOLD_RELEASE (R315): the buffer has dropped below 32. -/
def execHoldRelease (dir : Nat) (resp : Bool) (s : State) : Res :=
  let l := s.dirOf dir
  if 32 ≤ (l.hop resp).length then .next s
  else .next ((s.setDir dir (if resp then { l with holdResp := false } else { l with holdReq := false })).pumpPound (dirEnds dir).1)

namespace State

/-- A message sent at T24 `at'` and not answered is due to be reissued: 20 µs later, once a router, a link or a module has been fenced or
a route has changed since it was sent (R313). -/
def reissueDue (s : State) (at' : Nat) : Bool := decide (at' + 20000 ≤ s.basin.time.toNat) && decide (at' < s.basin.routeTime)

/-- What has been sent and has not arrived, or not been answered, with the time at which it was last sent: requests, alias stores,
COPENs, copies with chunks on their way, packets between their die and their port, increments on their way to their counter, and answers
between pounds. -/
def outstanding (s : State) : List (Nat × Nat) :=
  (s.reqs.filter (fun r => !r.arrived)).map (fun r => (r.uid, r.sentAt))
    ++ (s.aliases.filter (fun a => !a.arrived)).map (fun a => (a.uid, a.sentAt))
    ++ (s.opens.filter (fun o => !o.arrived)).map (fun o => (o.uid, o.sentAt))
    ++ (s.copies.filter (fun c => !c.flying.isEmpty)).map (fun c => (c.uid, c.sentAt))
    ++ (s.packets.filter (fun p => !p.atPort || (p.acked && !p.back))).map (fun p => (p.uid, p.sentAt))
    ++ (s.incrs.filter (fun i => i.home.isSome)).map (fun i => (i.uid, i.sentAt))
    ++ s.sures.map (fun x => (x.uid, x.sentAt))

/-- The die that a packet of a transfer comes from: that of its copy, or the root die of an endpoint collective (R289). -/
def packetDie (s : State) (p : Packet) : Option Nat :=
  match p.fwde with
  | some (n, _, _) => (s.collOf n).map Coll.root
  | none => (s.copyOf p.copy).map (fun c => c.org.die)

/-- The acknowledgement of a packet, for a read with its data, crosses from its port to its die (R16, R311). -/
def crossBack (s : State) (d : Nat) (p : Packet) : State :=
  s.sendMsg 24 d true (if p.read then p.payload.length else 0) (.act (.netDone p.uid))

end State

/-- REQUEST_REISSUE_TIMEOUT (R313): the same request, with the same sequence, once more. -/
def execRequestReissueTimeout (uid : Nat) (s : State) : Res :=
  let now := s.basin.time.toNat
  if !s.outstanding.any (fun x => x.1 == uid && s.reissueDue x.2) then .next s
  else match s.sures.find? (fun x => x.uid == uid) with
    | some x =>
      let s := { s with sures := s.sures.map (fun (y : Sure) => if y.uid = uid then { y with sentAt := now } else y) }
      .next (s.sendMsg x.src x.dst x.resp x.bytes (.sure uid))
    | none =>
    match s.reqs.find? (fun r => r.uid == uid) with
    | some r =>
      let s := { s with reqs := s.reqs.map (fun (x : Req) => if x.uid = uid then { x with sentAt := now } else x) }
      .next (s.sendMsg r.srcDie r.home false (if r.isLook then 0 else r.n * r.parts.length) (.request uid))
    | none =>
    match s.aliases.find? (fun a => a.uid == uid) with
    | some a =>
      let s := { s with aliases := s.aliases.map (fun (x : AliasStore) => if x.uid = uid then { x with sentAt := now, relayed := false } else x) }
      .next (s.sendMsg (min a.die 24) 24 false a.bytes.length (.aliasStore uid))
    | none =>
    match s.opens.find? (fun o => o.uid == uid) with
    | some o =>
      let s := { s with opens := s.opens.map (fun (x : OpenReq) => if x.uid = uid then { x with sentAt := now } else x) }
      .next (s.sendMsg o.org.die 24 false 64 (.copen uid))
    | none =>
    match s.packets.find? (fun p => p.uid == uid) with
    | some p =>
      let s := { s with packets := s.packets.map (fun (x : Packet) => if x.uid = uid then { x with sentAt := now } else x) }
      match s.packetDie p with
      | some d => .next (if p.atPort then s.crossBack d p else s.crossOut d p)
      | none => .next s
    | none =>
    match s.incrs.find? (fun i => i.uid == uid) with
    | some i =>
      let s := { s with incrs := s.incrs.map (fun (x : Incr) => if x.uid = uid then { x with sentAt := now } else x) }
      match i.home with
      | some h => .next (s.sendCount i h.2.1)
      | none => .next s
    | none =>
    match s.copyOf uid with
    | some c => .next (c.flying.foldl (fun s a => s.sendChunk c a) (s.setCopy { c with sentAt := now }))
    | none => .next s

/-! ### Modules, routes, fences (R314, R316, R318) -/

/-- MODULE_X32_FALLBACK (R314): an x64 module of a Towpath link retrains to x32; one that fails while it trains, or at x32, is fenced, and
a link with every module fenced is fenced. A Feeder has no narrower width (R318). -/
def execModuleX32Fallback (link module : Nat) (s : State) : Res :=
  let l := s.linkOf link
  if 36 ≤ link then .next s
  else match l.modules[module]? with
  | some .x64 =>
    let s := s.setLink link { l with modules := l.modules.set module .training }
    .next (s.modLife (fun x => { x with x32 := x.x32.set link (satUp32 (x.x32.get link 0)) }))
  | some .fenced | none => .next s
  | some _ =>
    let ms := l.modules.set module .fenced
    let s := (s.setLink link { l with modules := ms }).modBasin (fun b => { b with routeTime := b.time.toNat + 1 })
    .next (if ms.all (fun m => m == .fenced) then s.fenceLink link else s)

/-- MODULE_RETRAIN_DONE (R314): the module carries traffic at x32. A link of which no module carried any has been retrained as a whole
(R310). -/
def execModuleRetrainDone (link module : Nat) (s : State) : Res :=
  let l := s.linkOf link
  match l.modules[module]? with
  | some .training =>
    let carried := s.carries link
    let s := s.setLink link { l with modules := l.modules.set module .x32 }
    let s := if carried then s else s.retrainLink link
    .next ((s.pumpPound (linkEnds link).1).pumpPound (linkEnds link).2)
  | _ => .next s

namespace State

/-- Does a pound's route to another lead there, in a form that R316 allows between dies that share no link; or is it what it was? -/
def routeGood (s t : State) (x y : Nat) (resp : Bool) : Bool :=
  let p := t.path x y resp 24
  p == s.path x y resp 24 || (t.reaches x y resp 24 && (x == 24 || y == 24 || t.linkUp x y || routeForm p))

/-- May the host complex write an entry of a class (R316): over a link that is up, the shared one where there is one, to a pound that
forwards, so that every route to its destination is good? -/
def entryGood (s t : State) (resp : Bool) (e : RouteEntry) : Bool :=
  decide (e.router < 25) && decide (e.dest < 25) && s.linkUp e.router e.next
    && (e.next == e.dest || (s.forwards e.next && !s.linkUp e.router e.dest))
    && t.reaches e.router e.dest resp 24 && (List.range 25).all (fun x => s.routeGood t x e.dest resp)

end State

/-- ROUTE_CHANGE (R316): after something has been fenced or taken live the host complex writes the entries of each class that it
changes, so that each route leads to its destination and those of a class form no cycle; anything else is no change it makes. With the
last of them the change is over. -/
def execRouteChange (requests responses : List RouteEntry) (last : Bool) (s : State) : Res :=
  let put (resp : Bool) (r : Table Nat) (e : RouteEntry) : Table Nat := r.set (State.routeKey e.router e.dest resp) e.next
  let t := s.modBasin (fun b => { b with routes := responses.foldl (put true) (requests.foldl (put false) b.routes) })
  if !s.basin.rerouting || !requests.all (s.entryGood t false) || !responses.all (s.entryGood t true)
      || !(requests.isEmpty || t.acyclic false) || !(responses.isEmpty || t.acyclic true) then .next s
  else
    let t := t.modBasin (fun b => { b with rerouting := !last, routeTime := b.time.toNat + 1 })
    .next ((List.range 25).foldl State.pumpPound t)

namespace State

/-- Open collectives with a port among their participants fail (R275). -/
def failPort (s : State) (port reason : Nat) : State :=
  (s.basin.colls.filter (fun c => c.2.has port)).foldl (fun s c => s.failColl c.1 reason port 0) s

/-- A port of the Basin fenced (R275). -/
def fencePort (s : State) (port : Nat) : State :=
  (s.modBasin (fun b => { b with fencedPorts := b.fencedPorts ||| BitVec.twoPow 42 port })).failPort port 5

end State

/-- FEEDER_FENCE (R318): the die's traffic through the Basin is rerouted over the Towpath. -/
def execFeederFence (die : Nat) (s : State) : Res :=
  if 24 ≤ die then .next s else .next ((s.fenceLink (36 + die)).fencePort die)

/-- PORT_FENCED (R270, R275): a host or Ethernet port. -/
def execPortFenced (port : Nat) (s : State) : Res :=
  if port < 24 || 42 ≤ port then .next s else .next (s.fencePort port)

/-! ### What comes in by an Ethernet port (R320 to R324) -/

namespace State

/-- The receiving direction of a port. -/
def rxKey (port : Nat) : Nat := 2 * port + 1

def portDir (s : State) (k : Nat) : PortDir := s.basin.ports.get k {}
def setPortDir (s : State) (k : Nat) (d : PortDir) : State := s.modBasin (fun b => { b with ports := b.ports.set k d })
def respond (s : State) (r : Response) : State := s.modBasin (fun b => { b with responses := b.responses ++ [r] })

/-- A packet under an epoch accepted by a port (R324, R325): under the new epoch the old slot is retiring, and after 1,024
further packets it retires. -/
def acceptEpoch (s : State) (port : Nat) (epoch : Bool) : State :=
  let d := s.portDir (rxKey port)
  if d.epoch = epoch then s
  else
    let d := if d.newPackets = 0 then
        { d with newSince := s.basin.time.toNat, slot0 := if epoch then .retiring else d.slot0, slot1 := if epoch then d.slot1 else .retiring }
      else d
    let s := s.setPortDir (rxKey port) { d with newPackets := d.newPackets + 1 }
    if 1024 ≤ d.newPackets then s.post (.keyRetire (rxKey port)) else s

/-- A packet received by an Ethernet port: none at a fenced port; one that fails authentication, or whose epoch names an empty or
retired slot, is discarded and counted (R324); any other goes on to `f`. -/
def received (s : State) (port : Nat) (epoch auth : Bool) (f : State → State) : State :=
  let d := s.portDir (rxKey port)
  let slot := if epoch then d.slot1 else d.slot0
  if port < 24 || 40 ≤ port || s.basin.fencedPorts.getLsbD port then s
  else if !auth || slot == .empty then (s.countPort port).countReplay (portLink port)
  else f ((s.countPort port).acceptEpoch port epoch)

/-- The answer to an accepted packet leaves, sealed under the current epoch of its port, or waits for a key (R324). -/
def sendAnswer (s : State) (port : Nat) (data : Option (List Byte)) : State :=
  if s.canSeal port then
    let e := (s.portDir (txKey port)).epoch
    (s.sealPacket port).respond (match data with
      | some bs => .rmaData port e bs
      | none => .rmaAck port e)
  else s.modBasin (fun b => { b with ackWait := b.ackWait ++ [(port, data)] })

/-- The pieces of an exported range in the owner's memory (R253): leaves of type 1 with the rights of the access. -/
def exportPlaces (s : State) (die : Nat) (r : Reg) (acc : Acc) (off n : Nat) :
    State × PartAcc (List (Nat × Nat × Nat × Option Nat)) :=
  match s.vPlaces die r.owner acc (pieces (n / 4096 + 2) (r.base + off) n) with
  | (s, .ok l) => if l.all (fun p => p.1 / 2 ^ 48 == die && p.2.2.2.isNone) then (s, .ok l) else (s, .bad 2)
  | x => x

/-- Does the registration of a packet admit it (R254, R255)? -/
def admits (s : State) (p : NetPacket) : Bool :=
  let r := s.regs.get (p.die * 2048 + p.index) {}
  let inside (off n : Nat) : Bool := decide (off + n ≤ r.pages * 4096)
  decide (p.die < 24) && decide (p.index < 2048) && s.dieLive p.die && r.state == .valid && r.network && r.impPkg == p.pkg
    && (if p.read.isSome then r.read else r.write) && inside p.off (p.read.getD p.bytes.length)
    && (match p.scale with
      | some (o, bs) => inside o bs.length
      | none => true)

/-- The places of a packet's bytes, and of its scale bytes. -/
def packetPlaces (s : State) (p : NetPacket) : State × PartAcc (List (Nat × Nat × Nat × Option Nat)) :=
  let r := s.regs.get (p.die * 2048 + p.index) {}
  let acc : Acc := if p.read.isSome then .load else .store
  match s.exportPlaces p.die r acc p.off (p.read.getD p.bytes.length) with
  | (s, .ok l) =>
    match p.scale with
    | none => (s, .ok l)
    | some (o, bs) =>
      match s.exportPlaces p.die r acc o bs.length with
      | (s, .ok m) => (s, .ok (l ++ m))
      | x => x
  | x => x

/-- Has a packet been performed and is still to be counted? -/
def counting (s : State) (port : Nat) (p : NetPacket) : Bool :=
  s.incrs.any (fun i => match i.ack with
    | some (q, x) => q == port && x.pkg == p.pkg && x.context == p.context && x.psn == p.psn
    | none => false)

/-- A packet at its target die (R320, R322, R323): performed, counted, and then acknowledged. A duplicate of one that has been performed
is answered again and not performed, once the first is counted; under ROD one that comes before a missing earlier one is held; one that is
refused, or meets a page not present, is not answered. -/
def takePacket (s : State) (port : Nat) (p : NetPacket) : State :=
  let x := s.inboundOf port p.pkg p.context
  let seen := x.done.contains p.psn
  if p.read.isNone && seen then (if s.counting port p then s else s.answerPacket port p none)
  else if p.rod && !seen && !((List.range p.psn).all x.done.contains) then
    s.setInbound { x with held := if x.held.any (fun q => q.psn == p.psn) then x.held else x.held ++ [p] }
  else if !s.admits p then s
  else match s.packetPlaces p with
    | (s, .bad _) => s
    | (s, .wait f q) => s.requestPage f q (if p.read.isSome then .load else .store)
    | (s, .ok l) =>
      if p.read.isSome then (s.packetDone port p).answerPacket port p (some (l.flatMap (fun q => s.readSlot q.1 q.2.1 q.2.2.1)))
      else
        let bs := p.bytes ++ (p.scale.map Prod.snd).getD []
        let key := p.die * 2048 + p.index
        let s := (s.putPlaces l bs).packetDone port p
        if (s.regs.get key {}).counter = 0 then s.answerPacket port p none else s.postIncr key bs.length true (some (port, p))

end State

/-- NETWORK_PACKET_ARRIVAL (R320, R323, R324): authenticated at its port, the packet crosses the Basin to its target die. -/
def execNetworkPacketArrival (port : Nat) (src : PacketSource) (die index off : Nat) (read : Option Nat) (data : PacketData)
    (epoch auth : Bool) (s : State) : Res :=
  let pkt : NetPacket := { toPacketSource := src, toPacketData := data, die, index, off, read }
  .next (s.received port epoch auth (fun s =>
    if 24 ≤ pkt.die then s
    else s.sendMsg 24 pkt.die false (pkt.bytes.length + ((pkt.scale.map (fun x => x.2.length)).getD 0)) (.act (.packet port pkt))))

/-- FWDE_RECEIPT (R287): 256 bytes of another package, counted once for the Ethernet port they came by, where the slot has an open
collective with that port; else discarded without an answer. Of two tenants' collectives on the slot number that have the port, the
one opened first counts them (log entry 85, DESIGN CHOICE). -/
def execFwdeReceipt (port slot win chunk : Nat) (pkt : FwdeData) (s : State) : Res :=
  let psn := pkt.psn
  let bytes := pkt.body.bytes
  .next (s.received port pkt.body.epoch pkt.body.auth (fun s =>
    let x := s.inboundOf port 1024 0
    if x.done.contains psn then s.sendAnswer port none
    else match s.basin.colls.find? (fun c => c.2.slot == slot && c.2.has port) with
      | none => s
      | some (n, c) =>
        let s := s.setInbound { x with done := x.done ++ [psn] }
        let s := s.stageBytes n c port win (256 * chunk) (bytes.take 256 ++ List.replicate (256 - bytes.length) 0)
        (if c.endpoint then s.sendMsg 24 c.root false 256 .none else s).sendAnswer port none))

namespace State

/-- A packet of a transfer is done with. -/
def dropPacket (s : State) (uid : Nat) : State := { s with packets := s.packets.filter (fun x => x.uid != uid) }

/-- A FWDE packet of a collective has been acknowledged (R287). -/
def fwdeDone (s : State) (uid n : Nat) : State :=
  match s.collOf n with
  | some c => ((s.dropPacket uid).setColl n { c with fwde := c.fwde - 1 }).post (.collectiveCompletion n)
  | none => s.dropPacket uid

/-- An acknowledgement has crossed to the die of its packet (R320): a write's chunk is done, and a read's data go to their destination,
over other pounds where that lies there, or to the Keeper where the destination faults (R242). -/
def netDone (s : State) (uid : Nat) : State :=
  match s.packets.find? (fun p => p.uid == uid && p.acked && !p.back) with
  | none => s
  | some p =>
    match p.fwde with
    | some (n, _, _) => s.fwdeDone uid n
    | none =>
      match s.copyOf p.copy with
      | none => s.dropPacket uid
      | some c =>
        let next : Instr := if c.keeper.isSome then .keeperChunk c.uid else .copyChunkAcceptance c.uid
        match c.tmpl with
        | none => s.dropPacket uid
        | some t =>
          if !p.read then (((s.dropPacket uid).chunkDone c t p.chunk false).post next).kickNet c.org.die
          else
            let s := { s with packets := s.packets.map (fun (x : Packet) => if x.uid = uid then { x with back := true } else x) }
            if (c.keeper.getD []).contains p.chunk then s.post next
            else match s.chunkPath c t p.chunk with
              | (s, .ok a) => if farChunk c.org.die a then s.launchChunk c a else (s.performChunk c t a).post next
              | (s, _) => s.handOver c t p.chunk

end State

/-- NETWORK_ACK (R320, R324, R287): the acknowledgement of a packet, for a read with its data, at the packet's port; it goes on to the die
that the packet came from. One whose packet is no longer outstanding has been received all the same (R324, R325). -/
def execNetworkAck (uid : Nat) (data : AckData) (s : State) : Res :=
  .next (s.received data.port data.epoch data.auth (fun s =>
    match s.packets.find? (fun p => p.uid == uid && p.port == data.port && p.sent != 0 && !p.acked) with
    | none => s
    | some p =>
      let n := match (s.copyOf p.copy).bind Copy.tmpl with
        | some t => t.srcBytes
        | none => 0
      let q := { p with acked := true, sentAt := s.basin.time.toNat
                        payload := if p.read then data.bytes.take n ++ List.replicate (n - data.bytes.length) 0 else p.payload }
      let t := { s with packets := s.packets.map (fun (x : Packet) => if x.uid = uid then q else x) }
      match p.fwde with
      | none => match s.packetDie p with
        | some d => t.crossBack d q
        | none => s.dropPacket uid
      | some (k, _, _) => match s.collOf k with
        | some c => if c.endpoint then t.crossBack c.root q else s.fwdeDone uid k
        | none => s.dropPacket uid))

/-- RETRANSMISSION_TIMEOUT (R321): sent again, or after the eighth transmission the transfer fails; for FWDE its collective
does (R275). A packet that has not left yet leaves. -/
def execRetransmissionTimeout (uid : Nat) (s : State) : Res :=
  match s.packets.find? (fun p => p.uid == uid) with
  | none => .next s
  | some p =>
    if p.sent = 0 then .next (s.transmit uid)
    else if p.acked || s.basin.time.toNat < p.due then .next s
    else if p.sent < 8 then .next (s.transmit uid)
    else match p.fwde with
      | some (c, _, _) => .next (s.failColl c 5 p.port 0)
      | none =>
        match s.copyOf p.copy with
        | none => .next { s with packets := s.packets.filter (fun x => x.uid != uid) }
        | some c => .next (s.endCopy c (State.failWord 0x18 (State.copyCount c)) 0)

/-! ### Link keys (R264, R325) -/

/-- Packets and answers of a port that wait for a key are sent. -/
def State.sendWaiting (s : State) (port : Nat) : State :=
  let s := (s.packets.filter (fun p => p.port == port && p.sent == 0)).foldl (fun s p => s.transmit p.uid) s
  let mine := s.basin.ackWait.filter (fun a => a.1 == port)
  mine.foldl (fun s a => s.sendAnswer a.1 a.2) (s.modBasin (fun b => { b with ackWait := b.ackWait.filter (fun a => a.1 != port) }))

/-- KEY_INSTALL (R264, R325): a new key in the slot whose epoch is not in use; its seal counter starts at 0. -/
def execKeyInstall (dir : Nat) (s : State) : Res :=
  let d := s.portDir dir
  let cur := if d.epoch then d.slot1 else d.slot0
  let other := if d.epoch then d.slot0 else d.slot1
  let into1 := if cur = .empty then d.epoch else !d.epoch
  if cur ≠ .empty && other ≠ .empty then .next s
  else
    let d := if into1 then { d with slot1 := .active, seal1 := 0 } else { d with slot0 := .active, seal0 := 0 }
    .next ((s.setPortDir dir d).sendWaiting (dir / 2))

/-- EPOCH_SWITCH (R325): the sender seals everything from here on under the new key. -/
def execEpochSwitch (dir : Nat) (s : State) : Res :=
  let d := s.portDir dir
  let other := if d.epoch then d.slot0 else d.slot1
  if dir % 2 ≠ 0 || other ≠ .active then .next s
  else
    let d := if d.epoch then { d with epoch := false, slot1 := .retiring } else { d with epoch := true, slot0 := .retiring }
    .next ((s.setPortDir dir d).sendWaiting (dir / 2))

/-- KEY_RETIRE (R325): at the receiver after 1,024 packets more than the first under the new epoch, or 1 ms after that
first; at the sender once it has switched. -/
def execKeyRetire (dir : Nat) (s : State) : Res :=
  let d := s.portDir dir
  if dir % 2 = 0 then
    let old := if d.epoch then d.slot0 else d.slot1
    if old ≠ .retiring then .next s
    else .next (s.setPortDir dir (if d.epoch then { d with slot0 := .empty } else { d with slot1 := .empty }))
  else if d.newPackets = 0 || (d.newPackets ≤ 1024 && s.basin.time.toNat < d.newSince + 1000000) then .next s
  else .next (s.setPortDir dir { d with epoch := !d.epoch, newPackets := 0
                                        slot0 := if d.epoch then d.slot0 else .empty, slot1 := if d.epoch then .empty else d.slot1 })

/-! ### Registrations (R253 to R255) -/

namespace State

/-- Accesses translated through an entry and not yet performed, increments among them, and accepted network writes not yet counted (R254,
R255). A WAITC that already waits on a word of the window is none of them, and waits on (log entry 97, DESIGN CHOICE). -/
def inFlight (s : State) (key : Nat) : Bool :=
  s.reqs.any (fun r => !r.performed && r.parts.any (fun p => p.expo == some key))
    || s.loads.any (fun l => l.parts.any (fun p => p.expo == some key))
    || s.copies.any (fun c => (c.flying ++ c.landed).any (fun a => (a.src ++ a.dst ++ a.scale).any (fun p => p.2.2.2 == some key)))
    || s.incrs.any (fun i => i.net == some key || i.expo == some key)

/-- Every die removes its translations that name an entry (R255). -/
def purgeExport (s : State) (key : Nat) : State :=
  let names (e : TlbEntry) : Bool :=
    pteType e.leaf == 2 && bits e.leaf.toNat 43 5 == key / 2048 && bits e.leaf.toNat 32 11 == key % 2048
  { s with cores := s.cores.map (fun (p : Nat × Core) => (p.1, { p.2 with tlb := p.2.tlb.filter (fun e => !names e) }))
           dies := s.dies.map (fun (p : Nat × Die) => (p.1, { p.2 with tlb2 := p.2.tlb2.filter (fun e => !names e) })) }

/-- An entry goes to REVOKING; `result`: where its REVOKE reports. -/
def revokeEntry (s : State) (key : Nat) (result : Option Nat) : State :=
  let r := s.regs.get key {}
  let s := { s with regs := s.regs.set key { r with state := .revoking, result := result } }
  (s.purgeExport key).post (.revocationComplete (key / 2048) (key % 2048))

/-- The owner's registrations go to REVOKING (R336). -/
def revokeAll (s : State) (fkey : Nat) : State :=
  (s.regs.filter (fun r => r.1 / 2048 == fkey / 8 && r.2.owner == fkey % 8 && r.2.state == .valid)).foldl
    (fun s r => s.revokeEntry r.1 none) s

end State

/-- A function's closing key slots lose their owner (R263), once nothing that its registrations admitted is still to be performed. -/
def State.dropOwners (s : State) (fkey : Nat) : State :=
  let mine (x : KeySlot) : Bool := x.closing && x.owner == some (fkey % 8)
  if s.regs.any (fun r => r.1 / 2048 == fkey / 8 && r.2.owner == fkey % 8 && r.2.state == .revoking) then s
  else s.modDie (fkey / 8) (fun d => { d with keys := d.keys.map (fun (k : Nat × KeySlot) =>
    if mine k.2 then (k.1, { k.2 with owner := none, closing := false }) else k) })

/-- REVOCATION_COMPLETE (R254): FREE once nothing is in flight through the entry. -/
def execRevocationComplete (die index : Nat) (s : State) : Res :=
  let key := die * 2048 + index
  let r := s.regs.get key {}
  if r.state != .revoking || s.inFlight key then .next s
  else
    let s := State.dropOwners { s with regs := s.regs.erase key } (die * 8 + r.owner)
    match r.result with
    | some a => .next (s.complete (die * 8 + r.owner) a 0)
    | none => .next s

end Sys2Proof.Machine
end

