-- ==== Sys2Proof/Machine/Trust.lean ====
section
/-! DEFINITION. Failures, die reset and package reset (R341 to R345), TDISP (R336, R340), SPDM and keys of the host ports
(R337 to R339), the lifetime record (R199, R200), temperature (R345), the time counters (R192) and what comes with time. -/

namespace Sys2Proof.Machine

open Sys2Proof

namespace State

/-! ### Teams lost (R342) -/

/-- A saved team's engine commands and copies are gone with it; its bids and COPENs go on (R219). -/
def dropSaved (s : State) (u : Nat) : State :=
  if !s.isSaved u then s
  else
    let ended (e : Nat × OpEntry) : Nat × OpEntry := if bits e.2.handle.toNat 28 4 ≤ 4 then (e.1, { e.2 with pending := false }) else e
    State.modTeam { s with copies := s.copies.filter (fun c => c.org.team != u) } u (fun t => { t with ops := t.ops.map ended })

/-- A team lost: record kind 5, and its end with status failed; a saved team is lost as well. -/
def loseTeam (s : State) (u : Nat) : State :=
  let t := s.teamOf u
  let k := t.die * 8 + t.fn
  if !t.live && !s.isSaved u then s
  else
    let s := s.dropSaved u
    let t := s.teamOf u
    let s := s.faultRecord k 5 (bytesOf 4 t.index ++ bytesOf 1 t.die ++ bytesOf 3 0 ++ bytesOf 2 t.core)
    let s := s.modFn k (fun f => { f with saved := f.saved.filter (fun x => x.uid != u) })
    (s.setTeam u { t with live := true }).killTeam u

/-- A team, its cluster and its cooperative grid's teams. -/
def kin (s : State) (u : Nat) : List Nat :=
  let t := s.teamOf u
  (u :: t.cluster ++ (if (s.launch t.launch).rcd.cooperative then
    (s.teams.filter (fun p => p.2.launch == t.launch)).map Prod.fst else [])).dedup

/-- Commands of a core's engines gone, with their handles (R342). -/
def dropEngines (s : State) (ck : Nat) : State :=
  let s := s.modCore ck (fun c => { c with mx := [], nm := [], rt := [], score := [], growQ := [] })
  { s with copies := s.copies.filter (fun c => c.org.die * 512 + c.org.core != ck)
           teams := s.teams.map (fun (p : Nat × Team) => if p.2.die * 512 + p.2.core = ck then
             (p.1, { p.2 with ops := p.2.ops.map (fun (e : Nat × OpEntry) => (e.1, { e.2 with pending := false })) }) else p) }

/-! ### A function's state scrubbed (R336) -/

/-- Translations of a function that a range of 4 KiB units, which wraps at 2^64 (R5), touches are removed in every buffer of the die
(R155). -/
def invalidate (s : State) (d fn va units : Nat) (all : Bool) : State :=
  let hit (e : TlbEntry) : Bool :=
    e.fn == fn && (all || (decide (e.page < va + units * 4096) && decide (va < e.page + 2 ^ e.bits))
      || decide (e.page + 2 ^ 64 < va + units * 4096))
  { s with cores := s.cores.map (fun (c : Nat × Core) => if c.1 / 512 = d then (c.1, { c.2 with tlb := c.2.tlb.filter (fun e => !hit e) }) else c)
           dies := s.dies.map (fun (x : Nat × Die) => if x.1 = d then (x.1, { x.2 with tlb2 := x.2.tlb2.filter (fun e => !hit e) }) else x) }

/-- Units of a die written under slots of a set read back as unrelated bytes from here on (R340), for every core. -/
def rekey (s : State) (d : Nat) (slots : Nat → Bool) : State :=
  let units := (s.tags.filter (fun t => t.1 / 2 ^ 42 == d && slots t.2)).map Prod.fst
  let put (m : Memory) (a : Nat) : Memory := Memory.write m a (Config.rekeyedByte s.free a)
  { s with
    veils := s.veils.filter (fun v => !units.contains (v.loc / 64))
    mem := units.foldl (fun m u => (List.range 64).foldl (fun m i => put m (64 * u + i)) m) s.mem, free := s.free + 1 }

/-- A function's key slots are emptied (R263, R336, R340): every page mapped with one is fenced first, and its translations are gone from
the die; the slot keeps its owner until the accesses that its registrations admitted have been performed. What was written under it is
not read as such again. -/
def emptySlots (s : State) (fkey : Nat) : State :=
  let d := fkey / 8
  let own (k : Nat) : Bool := ((s.die d).keys.get k {}).owner == some (fkey % 8)
  (((s.invalidate d (fkey % 8) 0 0 true).rekey d own).modDie d (fun x => { x with
    keys := x.keys.map (fun (k : Nat × KeySlot) => if k.2.owner = some (fkey % 8) then (k.1, { k.2 with closing := true }) else k) })).dropOwners fkey

/-- Cores of a die whose column stands in a mask. -/
def coresOf (d : Nat) (cols : BitVec 20) : List Nat := ((List.range 500).filter (fun c => cols.getLsbD (c % 20))).map (d * 512 + ·)

/-- Cells of the local stores of some cores become zero and full. -/
def zeroStores (s : State) (cks : List Nat) : State :=
  let gone (a : Nat) : Bool := decide (64 * 2 ^ 48 ≤ a) && cks.contains (a / 2 ^ 48 - 64)
  { s with mem := s.mem.filter (fun c => !gone c.1), empties := s.empties.filter (fun w => !gone (4 * w)) }

/-- The effects of ERROR and of leaving RUN or ERROR (R336): teams lost, collectives failed, registrations revoked, key slots
emptied, local stores and registers zero; the columns of a configuration that is not enabled are not the function's (R330). -/
def scrub (s : State) (fkey : Nat) : State :=
  let d := fkey / 8
  let cfg := (s.fnOf fkey).cfg
  let cks := coresOf d (if cfg.enabled then cfg.columns else 0)
  let mine (c : Nat) : Bool := cks.contains c
  let busy := (s.cores.map Prod.fst).filter mine
  let s := busy.foldl (fun s c => s.settleCore c) s
  let s := ((s.teams.filter (fun p => p.2.die == d && p.2.fn == fkey % 8)).map Prod.fst).foldl (fun s u => s.loseTeam u) s
  let s := (s.basin.colls.filter (fun c => c.2.bindings.any (fun b => b.die == d && b.fn == fkey % 8))).foldl
    (fun s c => s.failColl c.1 4 d 0) s
  let s := busy.foldl (fun s c => s.dropEngines c) (s.revokeAll fkey)
  let s := s.emptySlots fkey
  let s := { s with groups := s.groups.filter (fun (p : Nat × Group) => !(p.2.die == d && mine (p.1 / 16)))
                    veils := s.veils.filter (fun v => !((s.teamOf v.team).die == d && (s.teamOf v.team).fn == fkey % 8))
                    launches := s.launches.map (fun (p : Nat × Launch) =>
                      if p.2.die = d ∧ p.2.fn = fkey % 8 then (p.1, { p.2 with live := false }) else p) }
  (((s.zeroStores cks).dropDeps fkey (fun _ => true)).modFn fkey (fun f => { f with chains := [], cursor := none, saved := [], preempts := [] })).lookRevoked

/-- A TDI goes to ERROR from CONFIG_LOCKED or RUN (R336). -/
def toError (s : State) (fkey : Nat) : State :=
  if (s.fnOf fkey).tdi == .locked || (s.fnOf fkey).tdi == .run then (s.scrub fkey).modFn fkey (fun f => { f with tdi := .error }) else s

/-! ### Die fence and die reset (R342, R343) -/

/-- A hold by a die ends (R300): at once, or with the round in progress. -/
def endHolds (s : State) (d : Nat) : State :=
  let mine (h : Nat × Hold) : Bool := h.2.die.toNat == d
  let busy (c : Nat) : Bool := s.basin.inRound && roundOf s.basin.round c
  let over' := (s.basin.holds.filter (fun h => mine h && !busy h.1)).map Prod.fst
  s.modBasin (fun b => { b with
    holds := (b.holds.filter (fun h => !(mine h && !busy h.1))).map (fun (h : Nat × Hold) => if mine h then (h.1, { h.2 with released := true }) else h)
    contestChanges := b.contestChanges.map (fun (x : ContestChange) =>
      if x.deferred && over'.contains x.contest then { x with since := b.time.toNat, deferred := false } else x) })

/-- A die is fenced: its TDIs go to ERROR, its collectives fail, its holds end, and the host complex routes around it (R343). -/
def fenceDie (s : State) (d : Nat) : State :=
  let s := [1, 2, 3, 4].foldl (fun s f => s.toError (d * 8 + f)) s
  let s := (s.basin.colls.filter (fun c => c.2.has d)).foldl (fun s c => s.failColl c.1 4 d 0) s
  ((s.endHolds d).modDie d (fun x => { x with fenced := true })).topoChange

/-- A chunk of another die's copy that is on its way to a die that is reset goes to that die's Keeper, which finds no registration (R242,
R317). -/
def strandChunk (s : State) (uid k : Nat) : State :=
  match s.copyOf uid with
  | none => s
  | some c =>
    let other (a : Away) : Bool := a.chunk != k
    match c.tmpl with
    | none => s
    | some t => s.handOver { c with flying := c.flying.filter other, landed := c.landed.filter other } t k

/-- A load or a request of another die, by its number, that has no registration left at a die that is reset. -/
def cutAccess (s : State) (d u : Nat) : State :=
  let s := (s.loads.filter (fun l => l.uid == u)).foldl (fun s l => s.lateLoad d l) s
  (s.reqs.filter (fun (r : Req) => r.uid == u && r.srcDie != d && r.home == d && !r.performed)).foldl lateFault s

/-- What other dies' agents have on its way to a die that is reset finds no registration there (R317): loads, stores and atomics take lane
fault 0x02, in the order of their issue (R184), so does a WAITC that waits on a word of the die, issued once more, and chunks and counts are not performed. -/
def cutOff (s : State) (d : Nat) : State :=
  let s := ((s.loads.map Load.uid ++ s.reqs.map Req.uid).foldr insertNat []).foldl (fun s u => s.cutAccess d u) s
  let s := (s.copies.filter (fun c => c.org.die != d)).foldl (fun s c =>
    ((c.flying ++ c.landed).filter (fun a => (a.src ++ a.dst ++ a.scale).any (fun p => p.1 / 2 ^ 48 == d))).foldl
      (fun s a => s.strandChunk c.uid a.chunk) s) s
  let s := (s.incrs.filter (fun i => i.die != d && i.home.any (fun h => h.2.1 / 2 ^ 48 == d))).foldl (fun s i => s.incrFailed i 2) s
  s.groups.foldl (fun s (p : Nat × Group) => match p.2.wait with
    | .waitc loc _ _ =>
      if p.2.live && p.2.die != d && loc / 2 ^ 48 == d then
        (s.stopWatching p.1).modGroup p.1 (fun g => { g with wait := .ready, offset := g.offset - 1 })
      else s
    | _ => s) s

/-- Steps 3 to 5 of R343: cores, Keeper, home slices, translation hardware, engines, registrations and configurations are
reset, key slots emptied, stores zeroed, and other dies' requests to it find no registration (R317); then the Keeper's firmware is
verified, the Feeder is retrained, and the die comes back. -/
def resetDie (s : State) (d : Nat) : State × Bool :=
  let s := s.fenceDie d
  let core (c : Nat × Core) : Bool := c.1 / 512 == d
  let s := s.rekey d (fun _ => true)
  let s := s.cutOff d
  let s := ((s.groups.filter (fun (p : Nat × Group) => p.2.die == d)).map Prod.fst).foldl stopWatching s
  let s := (List.range 5).foldl (fun s f => s.dropDeps (d * 8 + f) (fun _ => true)) s
  let s := { s with
    groups := s.groups.filter (fun (p : Nat × Group) => p.2.die != d)
    teams := s.teams.filter (fun (p : Nat × Team) => p.2.die != d)
    launches := s.launches.filter (fun (p : Nat × Launch) => p.2.die != d)
    cores := s.cores.map (fun (c : Nat × Core) => if core c then (c.1, { fenced := c.2.fenced, lag := c.2.lag }) else c)
    fns := s.fns.filter (fun f => f.1 / 8 != d)
    regs := s.regs.filter (fun r => r.1 / 2048 != d)
    mem := s.mem.filter (fun c => !(decide (64 * 2 ^ 48 ≤ c.1) && (c.1 / 2 ^ 48 - 64) / 512 == d))
    empties := s.empties.filter (fun w => (4 * w / 2 ^ 48 - 64) / 512 != d)
    loads := s.loads.filter (fun (l : Load) => l.die != d)
    reqs := s.reqs.filter (fun (r : Req) => r.srcDie != d)
    veils := s.veils.filter (fun (v : Veil) => v.gkey / 16 / 512 != d)
    aliases := s.aliases.filter (fun (a : AliasStore) => a.die != d)
    opens := s.opens.filter (fun (o : OpenReq) => o.org.die != d)
    feWaits := s.feWaits.filter (fun (w : FeWait) => w.gkey / 16 / 512 != d)
    incrs := s.incrs.filter (fun (i : Incr) => i.die != d)
    sures := s.sures.filter (fun (x : Sure) => x.dst != d)
    arrives := s.arrives.filter (fun (a : Arrive) => a.fkey / 8 != d)
    results := s.results.filter (fun (r : Result) => r.fkey / 8 != d)
    packets := s.packets.filter (fun (p : Packet) => p.fwde.isSome || !s.copies.any (fun c => c.uid == p.copy && c.org.die == d))
    copies := s.copies.filter (fun (c : Copy) => c.org.die != d) }
  let good := Config.verified s.free
  let s := { s with free := s.free + 1 }
  let s := s.modDie d (fun x => { x with
    fenced := !good, keeperDead := !good, pool := 0, tlb2 := [], watches := [], keys := [], filter := [] })
  let s := (coresOf d (BitVec.allOnes 20)).foldl (fun s c => s.modCore c (fun x => { x with zeroed := s.coreTime c })) s
  let s := s.modBasin (fun b => { b with
    spdm := b.spdm.erase d
    links := if good then b.links.erase (36 + d) else b.links
    fencedPorts := if good then b.fencedPorts &&& ~~~(BitVec.twoPow 42 d) else b.fencedPorts })
  let s := if good then (s.retrainLink (36 + d)).topoChange else s
  (s.lookRevoked, good)

end State

/-- KEEPER_FAILURE (R342): the die is fenced, then reset. -/
def execKeeperFailure (die : Nat) (s : State) : Res :=
  if !s.dieLive die then .next s
  else .next ((s.modDie die (fun d => { d with keeperDead := true })).resetDie die).1

/-- CORE_FAILURE (R10, R342): the core is fenced; its teams, and those of their clusters and cooperative grids, are lost. -/
def execCoreFailure (die core : Nat) (s : State) : Res :=
  let ck := die * 512 + core
  let mine := (s.teams.filter (fun p => p.2.live && p.2.die == die && p.2.core == core)).map Prod.fst
  let s := (mine.flatMap s.kin).dedup.foldl (fun s u => s.loseTeam u) s
  .next ((s.dropEngines ck).modCore ck (fun c => { c with fenced := true }))

/-- UNCORRECTABLE_MEMORY_ERROR (R342): the page is fenced and counted to its stack; or the team is lost. -/
def execUncorrectableMemoryError (what : ErrorPlace) (s : State) : Res :=
  match what with
  | .memory die pa =>
    let page := dieLoc die pa / 4096
    let stack := 2 * die + (Config.freeWord s.free).toNat % 2
    let s := { s with fencedPages := if s.fencedPages.contains page then s.fencedPages else s.fencedPages ++ [page], free := s.free + 1 }
    .next (s.modLife (fun l => { l with uncorrectable := l.uncorrectable.set stack (satUp (l.uncorrectable.get stack 0)) }))
  | .team uid => .next (s.loseTeam uid)
  | .cache _ => .next s

/-- SOFT_ERROR_CORRECTED (R342): one in a stack or home slice is counted to the stack, one in a register file or local store (0) or in
a snapshot cache (1) to the die. -/
def execSoftErrorCorrected (what : ErrorPlace) (s : State) : Res :=
  let up (d k : Nat) : State := s.modDie d (fun x => { x with softErrors := x.softErrors.set k (satUp (x.softErrors.get k 0)) })
  match what with
  | .memory die _ =>
    let stack := 2 * die + (Config.freeWord s.free).toNat % 2
    let s := { s with free := s.free + 1 }
    .next (s.modLife (fun l => { l with corrected := l.corrected.set stack (satUp (l.corrected.get stack 0)) }))
  | .team uid => .next (up (s.teamOf uid).die 0)
  | .cache ck => .next (up (ck / 512) 1)

/-! ### TDISP (R336, R340) -/

/-- Does a die's PF hold an SPDM session, in which TDISP and IDE_KM messages come? -/
def State.inSession (s : State) (die : Nat) : Bool := s.dieLive die && s.basin.spdm.get die .none == .session

/-- A TDISP request in a session (R336): carried out where it is in its place, and answered; outside a session there is no answer. -/
def State.tdisp (s : State) (die fn : Nat) (good : Bool) (f : State → State) : Res :=
  if !s.inSession die then .next s
  else if fn = 0 || 4 < fn || !good then .next (s.respond (.tdisp die fn false))
  else .next ((f s).respond (.tdisp die fn true))

/-- LOCK_INTERFACE_REQUEST (R263, R336, R340): fresh keys into every slot granted, which become the function's, for accesses translated
after a die-wide invalidation. With a slot that has an owner still it is answered with an error (log entry 76, DEDUCED). -/
def execLockInterfaceRequest (die fn : Nat) (s : State) : Res :=
  let k := die * 8 + fn
  let slots := lanesOf (s.fnOf k).cfg.keySlots
  s.tdisp die fn ((s.fnOf k).tdi == .unlocked && slots.all (fun i => (s.slotOwner die i).isNone)) (fun s =>
    let s := s.modDie die (fun d => { d with
      keys := slots.foldl (fun t i => t.set i { owner := some fn, key := (t.get i {}).key + 1 }) d.keys })
    ((s.rekey die (fun i => slots.contains i)).invalidate die fn 0 0 true).modFn k (fun f => { f with tdi := .locked }))

/-- A function's rings and queues are looked at: it is served from here on. -/
def State.startServing (s : State) (k : Nat) : State :=
  let d := k / 8
  let fn := k % 8
  let s := (List.range 16).foldl (fun s q => s.post (.launchQueueTailWrite d fn q)) s
  (State.post { s with agenda := s.agenda ++ [.control d fn] } (.tlbInvalidationRequest d fn)).kickFn k

/-- START_INTERFACE_REQUEST (R336). -/
def execStartInterfaceRequest (die fn : Nat) (s : State) : Res :=
  let k := die * 8 + fn
  s.tdisp die fn ((s.fnOf k).tdi == .locked) (fun s => (s.modFn k (fun f => { f with tdi := .run })).startServing k)

/-- STOP_INTERFACE_REQUEST (R336): from RUN or ERROR. -/
def execStopInterfaceRequest (die fn : Nat) (s : State) : Res :=
  let k := die * 8 + fn
  s.tdisp die fn ((s.fnOf k).tdi == .run || (s.fnOf k).tdi == .error) (fun s => (s.scrub k).modFn k (fun f => { f with tdi := .unlocked }))

/-- TDI_ERROR (R336): a request outside the stream, or one that fails its integrity. -/
def execTdiError (die fn : Nat) (s : State) : Res :=
  if fn = 0 || 4 < fn then .next s else .next (s.toError (die * 8 + fn))

/-! ### SPDM and IDE (R337 to R339) -/

namespace State

def stage (s : State) (d : Nat) : SpdmStage := s.basin.spdm.get d .none
def setStage (s : State) (d : Nat) (x : SpdmStage) : State := s.modBasin (fun b => { b with spdm := b.spdm.set d x })

/-- A leaf used for a signature: written to flash before the signature leaves; none once all are used (R339). -/
def sign (s : State) : State × Option Nat :=
  if 1048576 ≤ s.basin.xmss then (s, none) else (s.modBasin (fun b => { b with xmss := b.xmss + 1 }), some s.basin.xmss)

/-- A signed response, or an SPDM error (R339). -/
def signed (s : State) (d : Nat) (r : Nat → Response) : State :=
  match s.sign with
  | (s, some leaf) => s.respond (r leaf)
  | (s, none) => s.respond (.error d)

/-- Has the responder of a die got as far as algorithms? -/
def negotiated (s : State) (d : Nat) : Bool :=
  match s.stage d with
  | .negotiated | .handshake | .session => true
  | _ => false

/-- A request that the responder of a live die answers under a condition. -/
def ask (s : State) (d : Nat) (good : Bool) (answer : State → State) : Res :=
  if !s.dieLive d || s.basin.boot < 6 then .next s else if good then .next (answer s) else .next (s.respond (.error d))

end State

/-- GET_VERSION (R338): the exchange begins anew. -/
def execGetVersion (die : Nat) (s : State) : Res := s.ask die true (fun s => (s.setStage die .version).respond (.version die))
/-- GET_CAPABILITIES (R338). -/
def execGetCapabilities (die : Nat) (s : State) : Res :=
  s.ask die (s.stage die == .version) (fun s => (s.setStage die .capabilities).respond (.capabilities die))
/-- NEGOTIATE_ALGORITHMS (R338). -/
def execNegotiateAlgorithms (die : Nat) (s : State) : Res :=
  s.ask die (s.stage die == .capabilities) (fun s => (s.setStage die .negotiated).respond (.algorithms die))
/-- GET_DIGESTS (R338). -/
def execGetDigests (die : Nat) (s : State) : Res := s.ask die (s.negotiated die) (fun s => s.respond (.digests die))
/-- GET_CERTIFICATE (R338). -/
def execGetCertificate (die : Nat) (s : State) : Res := s.ask die (s.negotiated die) (fun s => s.respond (.certificate die))
/-- CHALLENGE (R338, R339). -/
def execChallenge (die : Nat) (s : State) : Res :=
  s.ask die (s.negotiated die) (fun s => s.signed die (fun l => .challengeAuth die l))
/-- What a measurement is the digest of (R338). -/
def State.measured (s : State) (die index fn : Nat) : Measured :=
  match index with
  | 4 => .bank (if s.basin.active then s.basin.bank1 else s.basin.bank0)
  | 5 => .config (s.fnOf (die * 8 + fn)).cfg
  | 6 => .unlock s.basin.unlocked
  | i => .firmware i

/-- GET_MEASUREMENTS (R338, R339): signed when asked. -/
def execGetMeasurements (die index fn : Nat) (signed : Bool) (s : State) : Res :=
  s.ask die (s.negotiated die && decide (1 ≤ index) && decide (index ≤ 6)) (fun s =>
    let m := s.measured die index fn
    if signed then s.signed die (fun l => .measurements die index fn m (some l)) else s.respond (.measurements die index fn m none))
/-- KEY_EXCHANGE (R338, R339). -/
def execKeyExchange (die : Nat) (s : State) : Res :=
  s.ask die (s.stage die == .negotiated) (fun s =>
    match s.sign with
    | (s, some l) => (s.setStage die .handshake).respond (.keyExchange die l)
    | (s, none) => s.respond (.error die))
/-- FINISH (R338). -/
def execFinish (die : Nat) (s : State) : Res :=
  s.ask die (s.stage die == .handshake) (fun s => (s.setStage die .session).respond (.finish die))
/-- END_SESSION (R338). -/
def execEndSession (die : Nat) (s : State) : Res :=
  s.ask die (s.stage die == .session) (fun s => (s.setStage die .negotiated).respond (.endSession die))

/-- IDE_KM (R337): inside a session one of a host port's 128 streams is keyed for a function that the port serves. -/
def execIdeKm (key : IdeStream) (fkey : Nat) (s : State) : Res :=
  let port := key.port
  let stream := key.stream
  let die := fkey / 8
  if !s.inSession die then .next s
  else if port ≠ (if (s.fnOf fkey).cfg.hostPort then 41 else 40) || 128 ≤ stream || 4 < fkey % 8 then .next (s.respond (.error die))
  else
    let s := s.modBasin (fun b => { b with
      ide := b.ide.filter (fun x => !(x.1 == port && (x.2.1 == stream || x.2.2 == fkey))) ++ [(port, stream, fkey)] })
    .next (s.respond (.ideKey port stream))

/-- DEBUG_UNLOCK (R344): a token that the host complex has verified. -/
def execDebugUnlock (verified : Bool) (s : State) : Res :=
  .next (s.modBasin (fun b => { b with unlocked := b.unlocked || verified }))

/-- SCAN_READ_OUT (R344): the Basin's own state, and the state of the dies when debug is unlocked. -/
def execScanReadOut (s : State) : Res :=
  let dies : ScanDies := { dies := s.dies, cores := s.cores, groups := s.groups, teams := s.teams, fns := s.fns, regs := s.regs, mem := s.mem }
  .next { s with scans := s.scans ++ [{ basin := s.basin, dies := if s.basin.unlocked then some dies else none }] }

/-! ### The lifetime record (R199, R200) -/

/-- One bit of CRC-32 (IEEE 802.3, reflected). -/
def crcBit (c : Word) : Word := if c.getLsbD 0 then (c >>> 1) ^^^ 0xEDB88320#32 else c >>> 1
def crcByte (c : Word) (b : Byte) : Word :=
  let f (c : Word) : Word := crcBit (crcBit c)
  f (f (f (f (c ^^^ b.setWidth 32))))
def crc32 (bs : List Byte) : Word := ~~~(bs.foldl crcByte (BitVec.allOnes 32))

/-- An image's 64 KiB (R199). -/
def Life.bytes (l : Life) : List Byte :=
  let body := bytesOf 4 0x4546494C ++ bytesOf 4 1 ++ bytesOf 8 l.sequence.toNat ++ bytesOf 8 l.seconds.toNat ++ bytesOf 40 0
    ++ (List.range 48).flatMap (fun i => bytesOf 8 (l.corrected.get i 0).toNat ++ bytesOf 8 (l.uncorrectable.get i 0).toNat)
    ++ (List.range 78).flatMap (fun i => bytesOf 8 (l.replays.get i 0).toNat
      ++ bytesOf 4 (if i < 36 then (l.x32.get i 0).toNat else 0) ++ bytesOf 4 0)
    ++ bytesOf 8 l.fallbacks.toNat ++ bytesOf 8 l.keeperCopies.toNat ++ bytesOf 8 l.parkings.toNat
    ++ bytesOf 8 l.planeFaults.toNat ++ bytesOf 8 l.weirWaits.toNat ++ bytesOf 184 0
    ++ (List.range 400).flatMap (fun i => bytesOf 4 (l.temps.get i 0).toNat) ++ bytesOf 192 0
    ++ (List.range 1248).flatMap (fun i => bytesOf 4 (l.rates.get i 0).toNat) ++ bytesOf 56444 0
  body ++ bytesOf 4 (crc32 body).toNat

/-- The bin of a period's replay rate (R200). -/
def rateBin (replays flits : Nat) : Nat :=
  if replays = 0 then 0
  else ((List.range 14).find? (fun k => decide (replays * 1000000000 < 2 ^ (k + 1) * flits))).elim 15 (· + 1)

/-- The bin of a temperature in sixteenths of a degree (R200). -/
def tempBin (t : Int) : Nat := if t < 480 then 0 else min 15 (((t - 480) / 80).toNat + 1)

/-- The current image (R199): the one with the highest sequence number. -/
def Basin.image (b : Basin) : Option Life :=
  b.images.foldl (fun m p => match m with
    | none => some p.2
    | some x => if x.sequence < p.2.sequence then some p.2 else some x) none

/-- LIFETIME_IMAGE_WRITE (R199, R200): at the end of a ten-minute period its replay rates are counted, once; the next slot takes the
image. -/
def execLifetimeImageWrite (s : State) : Res :=
  let l := s.basin.life
  let l := if l.seconds.toNat % 600 = 0 && l.seconds != l.rolled then
      { l with rolled := l.seconds, flits := [], periodReplays := []
               rates := (List.range 78).foldl (fun t i =>
                 let k := 16 * i + rateBin (l.periodReplays.get i 0).toNat (l.flits.get i 0).toNat
                 t.set k (satUp32 (t.get k 0))) l.rates }
    else l
  let l := { l with sequence := l.sequence + 1 }
  .next (s.modBasin (fun b => { b with life := l, images := b.images.set (l.sequence.toNat % 1024) l }))

/-! ### Temperature (R345) -/

/-- THERMAL_THROTTLE (R345): a junction past 110 °C halves the core clock. -/
def execThermalThrottle (die : Nat) (s : State) : Res :=
  if (s.die die).temp.toInt ≤ 1760 then .next s else .next (s.modDie die (fun d => { d with throttled := true }))

/-- THERMAL_THROTTLE_END (R345): below 100 °C. -/
def execThermalThrottleEnd (die : Nat) (s : State) : Res :=
  if 1600 ≤ (s.die die).temp.toInt then .next s else .next (s.modDie die (fun d => { d with throttled := false }))

/-- OVERTEMPERATURE_FREEZE (R345): at 125 °C. -/
def execOvertemperatureFreeze (die : Nat) (s : State) : Res :=
  if (s.die die).temp.toInt < 2000 then .next s else execFreeze s

/-- TEMPERATURE_SAMPLE (R198, R200): the junction's temperature in sixteenths of a degree, counted in its bin. -/
def execTemperatureSample (die : Nat) (temp : DWord) (s : State) : Res :=
  let s := s.modDie die (fun d => { d with temp := temp })
  let k := 16 * die + tempBin temp.toInt
  let s := s.modLife (fun l => { l with temps := l.temps.set k (satUp32 (l.temps.get k 0)) })
  let t := temp.toInt
  let s := if 1760 < t && die != 24 then s.post (.thermalThrottle die) else s
  let s := if t < 1600 && (s.die die).throttled then s.post (.thermalThrottleEnd die) else s
  .next (if 2000 ≤ t then s.post (.overtemperatureFreeze die) else s)

/-! ### Package reset and power (R341, R199) -/

/-- Bank 0 of the control store as the firmware loads it at boot (R341). -/
def bootBank (n : Nat) : Table DWord := (List.range 4096).map (fun i => (i, Config.bootWord n i))

/-- The package after a reset, `boot` steps of R341 done: what is fixed at test, flash, host memory and what stands in the
stacks stay; data in the stacks read back as unrelated bytes; bank 0 is loaded in step 5. -/
def State.restart (s : State) (boot : Nat) (failed : Option Nat) : State :=
  let t := (List.range 24).foldl (fun s d => s.rekey d (fun _ => true)) s
  { State.reset with
    live := s.live, partNo := s.partNo, mem := t.mem.filter (fun c => decide (c.1 < 64 * 2 ^ 48)), tags := s.tags, free := t.free
    nextUid := s.nextUid, scans := s.scans
    agenda := s.agenda.filter (fun a => match a with | .event _ => true | _ => false)
    basin := { ({} : Basin) with
      contests := [(0, { enabled := true, hold := false, tenant := 255, mask := 1#1 ++ s.live })]
      life := (s.basin.image).getD {}, images := s.basin.images, xmss := s.basin.xmss
      bank0 := if 5 ≤ boot then bootBank s.free else [], boot := boot, bootFailed := failed } }

/-- PACKAGE_RESET (R341): the boot ROM verifies the host complex's firmware, and the host complex brings the package up, its steps in
order; in step 3 it verifies the Keeper firmware of each live die. A failed verification stops the boot, and its cause stays in the
Basin (R344). -/
def execPackageReset (s : State) : Res :=
  let n := s.free
  let s := { s with free := n + 25 }
  if !Config.verified n then .next (s.restart 0 (some 24))
  else match (List.range 24).find? (fun d => s.live.getLsbD d && !Config.verified (n + 1 + d)) with
    | some d => .next (s.restart 2 (some d))
    | none => .next (s.restart 6 none)

/-- POWER_LOSS (R199, R339, R345): everything but flash and what is fixed at test is gone; the boot follows when power comes
back. -/
def execPowerLoss (s : State) : Res := .next (s.restart 0 none)

/-! ### Time (R192) -/

namespace State

/-- Core cycles of a die in the nanosecond `t` of T24 (R15, R345): three in two nanoseconds, half as many on a throttled die. -/
def cyclesIn (s : State) (d t : Nat) : Nat :=
  if (s.die d).throttled then (if t % 4 = 3 then 0 else 1) else if t % 2 = 0 then 2 else 1

/-- The time counters one nanosecond on (R192): two nanoseconds after the first of them may begin T24 begins, each die's counter by its
offset earlier or later; from then on each rises by one. -/
def tickCounters (s : State) : State :=
  let k := min (s.basin.lead + 1) 5
  let up (d : Nat) (x : Die) : Die :=
    if x.released || decide (3 ≤ (k : Int) + timeDelta d) then { x with released := true, time := x.time + 1 } else x
  let s := s.modBasin (fun b => { b with lead := k, time := if 3 ≤ k then b.time + 1 else b.time })
  (List.range 24).foldl (fun s d => if s.live.getLsbD d then s.modDie d (up d) else s) s

/-- Is the wait of a group of a die, or of a record's owner there, evaluated by polling after the nanosecond `t` (R191): on a host word every
1,024 ns, on a die's word without a watch entry every 512 core cycles of the die? -/
def pollDue (s : State) (t d gk loc : Nat) : Bool :=
  if 24 ≤ loc / 2 ^ 48 then s.basin.time.toNat % 1024 == 0
  else !(s.die (loc / 2 ^ 48)).watches.contains (loc, gk)
    && ((s.die d).cycle - s.cyclesIn d t) / 512 != (s.die d).cycle / 512

/-- A dependence word polled: where it reaches its threshold it has been met, and its record comes up (R207). -/
def pollDep (s : State) (fkey : Nat) (w : DepWatch) : State :=
  let s := (s.recallAll w.loc 8).partFlits (fkey / 8) false [(w.loc, w.slot, 8, none)]
  if s.natSlot w.loc w.slot 8 < w.thr then s
  else
    let s := s.modFn fkey (fun f => { f with deps := f.deps.map (fun x => if x = w then { x with met := true } else x) })
    { s with agenda := s.agenda ++ [depActivity fkey w.owner] }

/-- The dependence words that are polled after the nanosecond `t` (R191, R207). -/
def pollDeps (s : State) (t : Nat) : State :=
  s.fns.foldl (fun s (f : Nat × Fn) =>
    (f.2.deps.filter (fun w => let k := depKey f.1 w.owner
      !w.met && !s.evaluated k w.loc && s.pollDue t (f.1 / 8) k w.loc)).foldl (fun s w => s.pollDep f.1 w) s) s

/-- What is polled or retried after the nanosecond `t`: waiting groups, WAITCs, and the dependences of records. -/
def polls (s : State) (t : Nat) : State :=
  State.pollDeps (t := t) <| s.groups.foldl (fun s (p : Nat × Group) =>
    let s := if p.2.stalled then s.setGroup p.1 { s.group p.1 with stalled := false } else s
    match p.2.wait with
    | .waitc loc _ _ => if s.pollDue t (p.1 / 16 / 512) p.1 loc then s.post (.waitcPoll p.1) else s
    | _ => s) s

/-- The nanosecond `t` of the pre-emption requests under way: their core cycles, and drain bounds that have passed (R218). -/
def preemptTick (s : State) (t : Nat) : State :=
  s.fns.foldl (fun s (f : Nat × Fn) =>
    if f.2.preempts.isEmpty then s
    else
      let n := s.cyclesIn (f.1 / 8) t
      let s := s.modFn f.1 (fun x => { x with preempts := x.preempts.map (fun p => { p with spent := p.spent + n }) })
      if (s.fnOf f.1).preempts.any (fun p => decide (p.bound ≤ p.spent) && !p.draining.isEmpty) then
        s.post (.drainBoundExpiry (f.1 / 8) (f.1 % 8))
      else s) s

/-- What a nanosecond brings up (R196, R199, R204, R294, R321, R325). -/
def timed (s : State) : State :=
  let t := s.basin.time.toNat
  let s := if t % 1024 = 0 then ((List.range 24).filter (fun d => s.live.getLsbD d)).foldl (fun s d => s.post (.tokenTick d)) s else s
  let s := if t % 164 = 0 then
      let s := s.post .weirRoundEnd
      let s := s.basin.contestChanges.foldl (fun s x => s.post (.contestChangeBoundary x.contest)) s
      s.post .weirRoundStart
    else s
  let s := s.fns.foldl (fun s (f : Nat × Fn) => f.2.queues.foldl (fun s (q : Nat × QueueState) => match q.2.since with
    | some u => if u + 65536 ≤ t then s.post (.priorityAging (f.1 / 8) (f.1 % 8) q.1) else s
    | none => s) s) s
  let s := (s.outstanding.filter (fun x => s.reissueDue x.2)).foldl (fun s x => s.post (.requestReissueTimeout x.1)) s
  let s := (s.fns.filter (fun (f : Nat × Fn) => f.2.settling.isSome)).foldl (fun s f => s.post (.tlbInvalidationRequest (f.1 / 8) (f.1 % 8))) s
  let s := s.packets.foldl (fun s (p : Packet) => if p.sent ≠ 0 && !p.acked && p.due ≤ t then s.post (.retransmissionTimeout p.uid) else s) s
  let s := s.basin.ports.foldl (fun s (p : Nat × PortDir) =>
    if p.1 % 2 = 1 && p.2.newPackets ≠ 0 && p.2.newSince + 1000000 ≤ t then s.post (.keyRetire p.1) else s) s
  if t % 1000000000 = 0 then
    let s := s.modLife (fun l => { l with seconds := satUp l.seconds })
    if s.basin.life.seconds.toNat % 600 = 0 then s.post .lifetimeImageWrite else s
  else s

end State

/-- TIME_COUNTER_TICK (R192): one nanosecond of the package's reference, once the counters are being released (R341). -/
def execTimeCounterTick (s : State) : Res :=
  let t := s.basin.time.toNat
  if s.basin.frozen || s.basin.boot < 4 then .next (s.polls t)
  else
    let s := s.tickCounters.showLines
    .next (if s.basin.lead < 3 then s.polls t else (((s.preemptTick t).polls t).timed).lockTick)

end Sys2Proof.Machine
end

