-- ==== Sys2Proof/Machine/Commands.lean ====
section
/-! DEFINITION. The rings that drivers produce (R332, R333), invalidations (R155), the commands of the control ring that act on
tables and configurations (R253, R254, R331, R333, R343), answers to page requests (R156, R335), host agents' accesses (R329). -/

namespace Sys2Proof.Machine

open Sys2Proof

namespace State

/-! ### Operands of commands -/

/-- What waits for the service of a page in a function's memory, to be tried again (R156). -/
def waitAgain (s : State) (fkey : Nat) (a : Activity) : State := s.modFn fkey (fun f => { f with pending := f.pending ++ [a] })

/-- Bytes that a command reads in its function's memory: with a page not present the command waits and is tried again. -/
def withOperand (s : State) (fkey va n : Nat) (again : Instr) (good : State → List Byte → State) (bad : State → State) : State :=
  match s.partRead (.event again) (fkey / 8) (fkey % 8) va n with
  | (s, .ok bs) => good s bs
  | (s, .bad _) => bad s
  | (s, .wait _ _) => s.waitAgain fkey (.event again)

/-- Bytes written to a function's memory by what can be tried again: written, not possible, or waiting for the service of a page, which
may have failed (R156). -/
def putOrWait (s : State) (fkey va : Nat) (bs : List Byte) (again : Activity) (good : State → State) (bad : State → State) : State :=
  if s.hasFailed fkey again va then bad (s.failedNow fkey again va)
  else match s.vWrite (fkey / 8) (fkey % 8) va bs with
  | (s, .ok _) => good s
  | (s, .bad _) => bad s
  | (s, .wait f p) => (s.waitPage fkey again va f p .store).waitAgain fkey again

/-- A function's waiting commands are tried again. -/
def repost (s : State) (fkey : Nat) : State :=
  let as := (s.fnOf fkey).pending
  { (s.modFn fkey (fun f => { f with pending := [] })) with agenda := s.agenda ++ as }

/-! ### Rings (R332) -/

/-- The next entry of a ring that the driver produces. -/
inductive Entry where
  /-- nothing to take now -/
  | none
  | some (bytes : List Byte)
  | unreadable
  deriving DecidableEq, Repr

/-- The next 32-byte entry of a ring of a function, its head raised; the tail is watched. -/
def takeEntry (s : State) (fkey base : Nat) (a : Activity) : State × Entry :=
  let d := fkey / 8
  let fn := fkey % 8
  if !s.served fkey then (s, .none)
  else
    let s := s.watchWord d fn base a
    match s.partRead a d fn base 64 with
    | (s, .ok hb) =>
      let h := ringHdr hb
      if !ringOk h.entries || h.tail = h.head then (s, .none)
      else
        let up (s : State) : State := s.partPut fkey (base + 8) (bytesOf 8 (h.head + 1))
        match s.partRead a d fn (base + 64 + 32 * (h.head % h.entries)) 32 with
        | (s, .ok bs) => (up s, .some bs)
        | (s, .wait _ _) => (s, .none)
        | (s, .bad _) => (up s, .unreadable)
    | (s, _) => (s, .none)

/-- The command of a control-ring entry (R333); an unknown code is malformed. Bits shown as zero are ignored (R5). -/
def startCommand (s : State) (d fn : Nat) (bs : List Byte) : State :=
  let k := d * 8 + fn
  let b8 := BitVec.ofNat 64 (recAt bs 8 8)
  let b16 := BitVec.ofNat 64 (recAt bs 16 8)
  let r := recAt bs 24 8
  match recAt bs 0 1 with
  | 0 => s.post (.preempt d fn b8 b16 r)
  | 1 => s.post (.register d fn b8 b16 r)
  | 2 => s.post (.revoke d fn b8 b16 r)
  | 3 => s.post (.abort d fn b8 b16 r)
  | 4 => s.post (.reload d fn b8 b16 r)
  | 5 => s.post (.config d fn b8 b16 r)
  | 6 => s.post (.lifetime d fn b8 b16 r)
  | 7 => s.post (.pageAnswer d fn b8 b16 r)
  | 8 => s.post (.dieReset d fn b8 b16 r)
  | _ => s.complete k r 3

/-- The next entry of a function's control ring (R332, R333): its command comes up; an entry that cannot be read completes
without a result, and is signalled (R329). -/
def controlStep (s : State) (d fn : Nat) : State :=
  let k := d * 8 + fn
  let ring := (s.fnOf k).cfg.ctrlRing
  match s.takeEntry k ring (.control d fn) with
  | (s, .none) => s
  | (s, .some bs) => (fun (t : State) => { t with agenda := t.agenda ++ [.control d fn] }) (s.startCommand d fn bs)
  | (s, .unreadable) => (fun (t : State) => { t with agenda := t.agenda ++ [.control d fn] }) ((s.bumpDone k ring).signal k 2)

/-- Accesses with numbers below `n` that a function's translations led to, of its own or of other dies through its exports, and that have
not been performed (R155). -/
def fnBusy (s : State) (d fn n : Nat) : Bool :=
  let mine (e : Option Nat) : Bool := match e with
    | some k => k / 2048 == d && (s.regs.get k {}).owner == fn
    | none => false
  s.loads.any (fun (l : Load) => decide (l.uid < n) && ((l.die == d && l.fn == fn) || l.parts.any (fun p => mine p.expo)))
    || s.reqs.any (fun (r : Req) => decide (r.uid < n) && !r.performed && ((r.srcDie == d && r.fn == fn) || r.parts.any (fun p => mine p.expo)))
    || s.aliases.any (fun (a : AliasStore) => decide (a.uid < n) && ((a.die == d && (s.teamOf a.team).fn == fn) || a.hostFn == some (d * 8 + fn)))
    || s.copies.any (fun (c : Copy) => (c.flying ++ c.landed).any (fun a => decide (a.uid < n)
      && ((c.org.die == d && c.fn == fn) || (a.src ++ a.dst ++ a.scale).any (fun p => mine p.2.2.2))))
    || s.incrs.any (fun (i : Incr) => decide (i.uid < n) && i.home.isSome && ((i.die == d && i.fn == fn) || mine i.expo))

end State

/-- TLB_INVALIDATION_REQUEST (R155, R203): an invalidation whose accesses have been performed completes; else the next entry of a
function's invalidation ring removes its entries, and one that cannot be read every entry of the function. -/
def execTlbInvalidationRequest (die fn : Nat) (s : State) : Res :=
  let k := die * 8 + fn
  let ring := (s.fnOf k).cfg.invalRing
  let again (s : State) : State := s.post (.tlbInvalidationRequest die fn)
  let start (s : State) (va units : Nat) (all : Bool) : State :=
    let s := s.invalidate die fn va units all
    again (s.modFn k (fun f => { f with settling := some s.nextUid }))
  match (s.fnOf k).settling with
  | some n =>
    if s.fnBusy die fn n then .next s
    else
      let s := ((s.modFn k (fun f => { f with settling := none })).bumpDone k ring).signal k 3
      let s := s.modFn k (fun f => { f with queues := f.queues.map (fun (q : Nat × QueueState) => (q.1, { q.2 with stopped := false })) })
      .next (again ((List.range 16).foldl (fun s q => s.post (.launchQueueTailWrite die fn q)) s))
  | none =>
    match s.takeEntry k ring (.event (.tlbInvalidationRequest die fn)) with
    | (s, .none) => .next s
    | (s, .some bs) => .next (start s (recAt bs 0 8) (recAt bs 8 4) (bits (recAt bs 12 4) 0 1 == 1))
    | (s, .unreadable) => .next (start s 0 0 true)

/-! ### Registrations (R253, R254) -/

/-- A registration image (R253), or none where it is malformed. -/
def regOf (bs : List Byte) (owner : Nat) : Option Reg :=
  let c := recAt bs 20 4
  if 2 ^ 48 ≤ recAt bs 24 8 || bits c 23 7 != 0 || recAt bs 8 8 != 0 || 2 ^ 48 ≤ recAt bs 0 8 || recAt bs 0 8 % 4096 != 0
      || recAt bs 16 4 == 0 then none
  else some { state := .valid, owner := owner, base := recAt bs 0 8, pages := recAt bs 16 4, read := bits c 0 1 == 1,
              write := bits c 1 1 == 1, atomic := bits c 2 1 == 1, peer := bits c 3 1 == 1, network := bits c 4 1 == 1,
              impFn := bits c 5 3, impDie := bits c 8 5, impPkg := bits c 13 10, counter := recAt bs 24 8 }

/-- REGISTER (R254, R333). -/
def execRegister (die fn : Nat) (b8 b16 : DWord) (result : Nat) (s : State) : Res :=
  let k := die * 8 + fn
  let key := die * 2048 + bits b8.toNat 0 11
  if (s.regs.get key {}).state != .free then .next (s.complete k result 1)
  else .next (s.withOperand k b16.toNat 32 (.register die fn b8 b16 result)
    (fun s bs => match regOf bs fn with
      | none => s.complete k result 3
      | some r => State.complete { s with regs := s.regs.set key r } k result 0)
    (fun s => s.complete k result 4))

/-- REVOKE (R254, R333): reported when the entry is FREE. One of another function than the owner is not permitted, also on an entry that is
REVOKING (log entry 88, DESIGN CHOICE). -/
def execRevoke (die fn : Nat) (b8 _ : DWord) (result : Nat) (s : State) : Res :=
  let k := die * 8 + fn
  let key := die * 2048 + bits b8.toNat 0 11
  let r := s.regs.get key {}
  if r.state != .free && r.owner != fn then .next (s.complete k result 2)
  else if r.state != .valid then .next (s.complete k result 1)
  else .next (s.revokeEntry key (some result))

/-! ### Configurations (R330, R331) -/

/-- The column sets of R330. -/
def columnSets : List (BitVec 20) := [0xFFFFF, 0x003FF, 0xFFC00, 0x0001F, 0x003E0, 0x07C00, 0xF8000]

/-- A configuration's 128 bytes (R331), or none where an address is not aligned or the template count is out of range; bits shown as zero
are ignored (R5). -/
def cfgOf (bs : List Byte) : Option FnCfg :=
  let w (a n : Nat) : Nat := recAt bs a n
  let c := w 24 4
  let cfg : FnCfg :=
    { root := w 0 6, templBase := w 8 6, templCount := bits (w 16 4) 0 11, columns := BitVec.ofNat 20 (w 20 4), tenant := bits c 0 6,
      hostPort := bits c 8 1 == 1, enabled := bits c 31 1 == 1, rate := w 28 2, depth := w 32 4, keySlots := BitVec.ofNat 64 (w 40 8),
      queueArea := w 48 6, saveArea := w 56 6, faultQ := w 64 6, pageQ := w 72 6, invalRing := w 80 6, ctrlRing := w 88 6 }
  let aligned := cfg.root % 4096 == 0 && cfg.templBase % 64 == 0 && cfg.queueArea % 1024 == 0 && cfg.saveArea % 4096 == 0
    && cfg.ctrlRing % 64 == 0
  if aligned && cfg.templCount ≤ 1024 then some cfg else none

namespace State

/-- May a function of a die take a configuration (R331): its columns, and no key slot that another function owns? -/
def cfgFits (s : State) (die f : Nat) (cfg : FnCfg) : Bool :=
  columnSets.contains cfg.columns
    && [1, 2, 3, 4].all (fun g => g == f || !(s.fnOf (die * 8 + g)).cfg.enabled || (s.fnOf (die * 8 + g)).cfg.columns &&& cfg.columns == 0)
    && (lanesOf cfg.keySlots).all (fun i => match s.slotOwner die i with
      | some o => o == f
      | none => true)

/-- The counters of a die's cores in a set of columns begin anew: they change hands (R198). -/
def zeroCounters (s : State) (die : Nat) (cols : BitVec 20) : State :=
  (coresOf die cols).foldl (fun s c => s.modCore c (fun x => { x with cnt := [], zeroed := s.coreTime c })) s

/-- The function that holds a core column (R330): the enabled virtual function that has it, or the physical function. -/
def holder (s : State) (die col : Nat) : Nat :=
  ([1, 2, 3, 4].find? (fun f => (s.fnOf (die * 8 + f)).cfg.enabled && (s.fnOf (die * 8 + f)).cfg.columns.getLsbD col)).getD 0

/-- A function takes a configuration (R195, R198, R201): its bucket is full, its queues start anew, and the counters of the cores that
change hands are at 0. -/
def setConfig (s : State) (die f : Nat) (cfg : FnCfg) : State :=
  let t := (s.dropDeps (die * 8 + f) (fun _ => true)).modFn (die * 8 + f) (fun x =>
    { x with cfg := cfg, level := cfg.depth, debt := 0, queues := [], rr := [], chains := [], cursor := none, cnt7 := 0 })
  t.zeroCounters die (BitVec.ofNat 20 (((List.range 20).filter (fun c => s.holder die c != t.holder die c)).map (2 ^ ·)).sum)

end State

/-- CONFIG (R331, R333, R336). -/
def execConfig (die fn : Nat) (b8 b16 : DWord) (result : Nat) (s : State) : Res :=
  let k := die * 8 + fn
  let f := bits b8.toNat 0 3
  if fn ≠ 0 then .next (s.complete k result 2)
  else if f = 0 || 4 < f then .next (s.complete k result 3)
  else if (s.fnOf (die * 8 + f)).tdi != .unlocked then .next ((s.complete k result 1).toError (die * 8 + f))
  else .next (s.withOperand k b16.toNat 128 (.config die fn b8 b16 result)
    (fun s bs => match cfgOf bs with
      | none => s.complete k result 3
      | some cfg => if s.cfgFits die f cfg then (s.setConfig die f cfg).complete k result 0 else s.complete k result 3)
    (fun s => s.complete k result 4))

/-- LIFETIME (R199, R333): the current image is copied to the destination. -/
def execLifetime (die fn : Nat) (b8 b16 : DWord) (result : Nat) (s : State) : Res :=
  let k := die * 8 + fn
  if fn ≠ 0 then .next (s.complete k result 2)
  else match s.basin.image with
    | none => .next (s.complete k result 4)
    | some l => .next (s.putOrWait k b16.toNat l.bytes (.event (.lifetime die fn b8 b16 result)) (fun s => s.complete k result 0)
        (fun s => s.complete k result 4))

/-- DIE_RESET (R333, R343): by the PF of another live die, every virtual function of the target in CONFIG_UNLOCKED. -/
def execDieReset (die fn : Nat) (b8 _ : DWord) (result : Nat) (s : State) : Res :=
  let k := die * 8 + fn
  let t := bits b8.toNat 0 5
  if fn ≠ 0 then .next (s.complete k result 2)
  else if t = die || !s.live.getLsbD t then .next (s.complete k result 2)
  else if [1, 2, 3, 4].any (fun f => (s.fnOf (t * 8 + f)).tdi != .unlocked) then .next (s.complete k result 1)
  else
    let (s, good) := s.resetDie t
    .next (s.complete k result (if good then 0 else 4))

/-! ### Page answers (R156, R335) -/

namespace State

/-- A group whose page has been serviced, or not: a rejoin waits for the rest of its pages; a fetch or a scalar access goes on, and after a
failure faults at the address that met the page; a saved group's fault block that failed is not written (R128, R156). -/
def servedGroup (g : Group) (f p : Nat) (good : Bool) : Group :=
  let g :=
    if g.waitPages.contains (f, p) then
      { g with waitPages := g.waitPages.filter (fun q => q != (f, p))
               failedPages := if good then g.failedPages else g.failedPages ++ [(f, p)] }
    else g
  match g.wait with
  | .page a b va => if a = f ∧ b = p then { g with wait := .ready, failedVa := if good then g.failedVa else some va } else g
  | .faultBlock a b => if a = f ∧ b = p ∧ !good then { g with blockFailed := true } else g
  | _ => g

/-- Groups waiting on a page (R38, R64, R128, R159), saved ones as well. -/
def answerGroups (s : State) (f p : Nat) (good : Bool) : State :=
  let s := { s with fns := s.fns.map (fun (x : Nat × Fn) => (x.1, { x.2 with saved := x.2.saved.map (fun (t : SavedTeam) =>
    { t with groups := t.groups.map (fun g => servedGroup g f p good) }) })) }
  (s.groups.map Prod.fst).foldl (fun s k =>
    let x := s.group k
    if !x.live then s
    else if x.wait = .faultBlock f p then
      let s := { s with cur := k }
      if good then s.finishTrap else s.unwritableBlock
    else
      let g := servedGroup x f p good
      let s := if g == x then s else s.setGroup k g
      if g.wait == .rejoin && g.waitPages.isEmpty && !x.waitPages.isEmpty then s.post (.rejoinReplay k) else s) s

/-- Copies waiting on a page (R242, R250). -/
def answerCopies (s : State) (f p : Nat) (good : Bool) : State :=
  (s.copies.filter (fun c => c.waiting == some (f, p))).foldl (fun s c =>
    let c := { c with waiting := none }
    match c.tmpl, good with
    | none, true => (s.setCopy c).post (.copyChunkAcceptance c.uid)
    | none, false => s.endCopy c (failWord 8 0) c.waitAt
    | some _, true => (s.setCopy c).post (.keeperChunk c.uid)
    | some _, false =>
      ((s.setCopy (dropChunk c 8 c.waitAt)).post (.keeperChunk c.uid)).finishCopy c.uid) s

/-- An MVEC whose page has been serviced. -/
def servedMvec (f p : Nat) (x : Origin × NmCmd) : Origin × NmCmd :=
  if x.2.waiting = some (f, p) then (x.1, { x.2 with waiting := none }) else x

/-- MVECs waiting on a page (R238), those of saved teams as well. -/
def answerMvecs (s : State) (f p : Nat) (good : Bool) : State :=
  let mine (l : List (Origin × NmCmd)) : List (Origin × NmCmd) := l.filter (fun x => x.2.waiting == some (f, p))
  let bad := s.cores.flatMap (fun (x : Nat × Core) => (mine x.2.nm).map (fun y => (x.1, y)))
  let badSaved := s.fns.flatMap (fun (x : Nat × Fn) => x.2.saved.flatMap (fun t => mine t.nm))
  if good then
    let s := { s with
      cores := s.cores.map (fun (x : Nat × Core) => (x.1, { x.2 with nm := x.2.nm.map (servedMvec f p) }))
      fns := s.fns.map (fun (x : Nat × Fn) => (x.1, { x.2 with saved := x.2.saved.map (fun t => { t with nm := t.nm.map (servedMvec f p) }) })) }
    bad.foldl (fun s x => s.post (.mvecOutputGroup x.1)) s
  else
    let s := bad.foldl (fun s x => s.nmDone x.1 x.2.1 (failWord 8 x.2.2.done) (mvecMet x.2.2 p)) s
    let s := { s with fns := s.fns.map (fun (x : Nat × Fn) => (x.1, { x.2 with saved := x.2.saved.map (fun t =>
      { t with nm := t.nm.filter (fun y => y.2.waiting != some (f, p)) }) })) }
    badSaved.foldl (fun s x => s.completeOp x.1 (failWord 8 x.2.done) (mvecMet x.2 p)) s

/-- Increments waiting on a page (R189, R248). -/
def answerIncrs (s : State) (f p : Nat) (good : Bool) : State :=
  (s.incrs.filter (fun (i : Incr) => i.waiting == some (f, p))).foldl (fun s i =>
    if good then
      State.post { s with incrs := s.incrs.map (fun (x : Incr) => if x.uid = i.uid then { x with waiting := none } else x) }
        (.arrivalCounterIncrement i.uid)
    else s.incrFailed i 8) s

/-- Arrives waiting on a page (R187). -/
def answerArrives (s : State) (f p : Nat) (good : Bool) : State :=
  let mine := s.arrives.filter (fun a => a.waiting == (f, p))
  let s := { s with arrives := s.arrives.filter (fun a => a.waiting != (f, p)) }
  let s := mine.foldl (fun s a =>
    if good then
      (if a.source = 4 then
        match s.arriveAt (a.fkey / 8) (a.fkey % 8) a.addr a.status true with
        | (s, .wait g q) => { s with arrives := s.arrives ++ [{ a with waiting := (g, q) }] }
        | (s, _) => s
      else s.arriveFor a.fkey a.addr a.status a.source)
    else if a.source = 4 then s else s.notMade a.fkey a.addr a.source 8) s
  s.launches.foldl (fun s (l : Nat × Launch) =>
    if l.2.waiting != some (f, p) then s
    else
      let s := if good then s else s.notMade (l.2.die * 8 + l.2.fn) l.2.rcd.barrier 0 8
      (s.setLaunch l.1 { l.2 with waiting := none, arrived := !good }).post (.gridCompletion l.1)) s

/-- Results of commands and collectives' writes waiting on a page (R285, R333). -/
def answerWrites (s : State) (f p : Nat) (good : Bool) : State :=
  let mine := s.results.filter (fun r => r.waiting == (f, p))
  let s := { s with results := s.results.filter (fun r => r.waiting != (f, p)) }
  let s := mine.foldl (fun s r =>
    if good then s.writeResult r.fkey r.addr r.bytes
    else (s.bumpDone r.fkey (s.fnOf r.fkey).cfg.ctrlRing).signal r.fkey 2) s
  (s.basin.colls.filter (fun c => c.2.waiting == some (f, p))).foldl (fun s c =>
    if good then (s.setColl c.1 { c.2 with waiting := none }).pushOuts c.1
    else s.failColl c.1 6 (f / 8) 0 ((c.2.outs.find? (fun o => outDie o == f / 8 && c.2.landed.get (f / 8) 0 != 0)).map outChunk)) s

/-- The part's own writes waiting on a page (R156), in their order; those that another page stops wait again. -/
def answerHeld (s : State) (f p : Nat) (good : Bool) : State :=
  s.fns.foldl (fun s (x : Nat × Fn) =>
    let mine := x.2.held.filter (fun h => h.2 == (f, p))
    if mine.isEmpty then s
    else
      let s := s.modFn x.1 (fun y => { y with held := y.held.filter (fun h => h.2 != (f, p)) })
      (if good then mine
        else mine.filter (fun h => match h.1 with | .block _ _ => true | _ => false)).foldl (fun s h => match h.1 with
      | .record v bs =>
        match s.postOrHold x.1 v bs with
        | (s, some (g, q)) => s.requestPage g q .store
        | (s, none) => s
      | .count ring => s.bumpDone x.1 ring
      | .put a bs => s.partPut x.1 a bs
      | .image a bs => s.writeImage x.1 a bs
      | .block a bs =>
        match good, s.vWrite (x.1 / 8) (x.1 % 8) a bs with
        | true, (s, .ok _) => s
        | true, (s, .wait g q) => (s.holdWrite x.1 (.block a bs) g q).requestPage g q .store
        | _, _ => s.faultRecord x.1 1 bs) s) s

/-- The part's own accesses that waited on a page and are tried again (R156): whatever makes them, and everything of their function that may
have waited, comes up; after a failure each of them fails then, and none that comes later. -/
def answerReads (s : State) (f p : Nat) (good : Bool) : State :=
  let on (w : PartWait) : Bool := w.fkey == f && w.page == p
  (s.fns.filter (fun (x : Nat × Fn) => x.2.pageWait.any on)).foldl (fun s (x : Nat × Fn) =>
    let mine := (s.fnOf x.1).pageWait.filter on
    let (n, s) := s.fresh
    let s := s.modFn x.1 (fun y => { y with pageWait := y.pageWait.filter (fun w => !on w)
                                            pageFail := if good then y.pageFail else y.pageFail ++ mine.map (fun w => (w.who, w.va, n)) })
    let s := (s.repost x.1).startServing x.1
    let s := mine.foldl (fun s w => if s.agenda.contains w.who then s else { s with agenda := s.agenda ++ [w.who] }) s
    if good then s else { s with agenda := s.agenda ++ [.settled x.1 n] }) s

/-- The accesses that an answer has failed have been tried again: of one that has not come back nothing is left (R156). -/
def answerSettled (s : State) (fkey n : Nat) : State :=
  s.modFn fkey (fun f => { f with pageFail := f.pageFail.filter (fun x => x.2.2 != n) })

end State

/-- PAGE_ANSWER (R156, R335): everything that waits on the page goes on, or fails. -/
def execPageAnswer (die fn : Nat) (b8 b16 : DWord) (result : Nat) (s : State) : Res :=
  let k := die * 8 + fn
  let good := !b16.getLsbD 0
  match (s.fnOf k).pages.find? (fun r => r.seq == b8.toNat) with
    | none => .next (s.complete k result 1)
    | some r =>
      let p := r.page
      let s := s.modFn k (fun f => { f with pages := f.pages.filter (fun x => x != r) })
      let s := ((((s.answerHeld k p good).answerGroups k p good).answerCopies k p good).answerMvecs k p good).answerIncrs k p good
      let s := ((s.answerArrives k p good).answerWrites k p good).answerReads k p good
      .next (s.complete k result 0)

/-! ### Host agents (R329, R337) -/

namespace State

/-- A host agent's write into an alias window contributes for its host port (R282; log entry 77, DEDUCED): its bytes in each chunk, as an
alias store of port 40 or 41 that has come to the Basin. -/
def hostAlias (s : State) (fkey slot win off fuel : Nat) (bs : List Byte) : State :=
  match fuel with
  | 0 => s
  | k + 1 =>
    if bs.isEmpty then s
    else
      let n := 256 - off % 256
      let port := if (s.fnOf fkey).cfg.hostPort then 41 else 40
      let (u, s) := s.fresh
      let x : AliasStore := { uid := u, gkey := 2 ^ 41 + port, team := u, die := port, tenant := (s.fnOf fkey).cfg.tenant, slot, window := win,
                              off, bytes := bs.take n, arrived := true, relayed := false, sentAt := s.basin.time.toNat, replayed := false, hostFn := some fkey }
      (State.post { s with aliases := s.aliases ++ [x] } (.aliasStore u)).hostAlias fkey slot win (off + n) k (bs.drop n)

/-- A host agent's access at the die of its function (R329): a posted write, or a read whose data go back. A write that its function's type-5
page leads to host memory is one of the part for the station there, whose word it updates (log entry 99, DESIGN CHOICE: R181 speaks of a host
agent's own writes). -/
def hostAccess (s : State) (die fn : Nat) (va : DWord) (access : HostAccess) : State :=
  let k := die * 8 + fn
  let again : Activity := .host die fn va access
  match access with
  | .write bs =>
    match s.translate die fn none va.toNat 1 .store with
    | (s, .aliased slot win off) => s.hostAlias k slot win off (bs.length / 256 + 2) bs
    | (s, _) => s.putOrWait k va.toNat bs again (fun s => s) (fun s => s)
  | .read count =>
    match s.partRead again die fn va.toNat count with
    | (s, .ok bs) => ((s.sendMsg die 24 true bs.length .none).countPort (if (s.fnOf k).cfg.hostPort then 41 else 40)).respond (.hostData die fn (some bs))
    | (s, .wait _ _) => s.waitAgain k again
    | (s, .bad _) => s.respond (.hostData die fn none)

end State

/-- HOST_PORT_REQUEST (R329, R337): a read or a posted write of a host agent in a function's memory, by the host port that serves the
function, from which it crosses the Basin to the die. A virtual function takes none outside RUN; one outside its IDE stream leads a
locked or running one to ERROR (R336). -/
def execHostPortRequest (die fn : Nat) (va : DWord) (line : HostLine) (access : HostAccess) (s : State) : Res :=
  let port := line.port
  let k := die * 8 + fn
  let f := s.fnOf k
  let refuse (s : State) : Res := match access with
    | .write _ => .next s
    | .read _ => .next (s.respond (.hostData die fn none))
  let inside := match line.stream with
    | some n => s.basin.ide.contains (port, n, k)
    | none => false
  if s.basin.boot < 6 || !s.dieLive die || 4 < fn || port ≠ (if f.cfg.hostPort then 41 else 40) || s.basin.fencedPorts.getLsbD port then
    refuse s
  else
    let s := s.countPort port
    if fn ≠ 0 && !inside then refuse (s.toError k)
    else if fn ≠ 0 && f.tdi != .run then refuse s
    else .next (match access with
      | .write bs => s.sendMsg 24 die false bs.length (.act (.host die fn va access))
      | .read _ => s.sendMsg 24 die false 0 (.act (.host die fn va access)))

end Sys2Proof.Machine
end

