-- ==== Sys2Proof/Machine/Float.lean ====
section
/-! DEFINITION. The floating instructions FADD to FCLASS (R99 to R104) and CVT (R105, R106). -/

namespace Sys2Proof.Machine

open Sys2Proof

/-- Encodings placed as the elements of a 32-bit register, element 0 lowest. -/
def packElems (bits : Nat) (l : List Nat) : Nat :=
  match l with
  | [] => 0
  | x :: r => x % 2 ^ bits + 2 ^ bits * packElems bits r

namespace State

def fmt (s : State) : Fmt := ftypeFmt (modeFtype s.g.mode)
def rnd (s : State) : Rnd := Rnd.ofCode (modeRnd s.g.mode)
def sat (s : State) : Bool := modeSat s.g.mode

/-- A function of the encodings of the elements of A, B and D (R100). -/
def fltOp (s : State) (w : Bool) (d a b : Operand) (f : Nat → Nat → Nat → Nat) : State :=
  s.result w d false (fun l =>
    BitVec.ofNat 64 (packElems s.fmt.bits ((List.range (fCount s.fmt)).map (fun e =>
      f (fElem s.fmt (s.rd a l) e) (fElem s.fmt (s.rd b l) e) (fElem s.fmt (s.rd d l) e)))))

/-- A function of the encoding of each element of A (R102). -/
def fltUn (s : State) (w : Bool) (d a : Operand) (f : Nat → Nat) : State :=
  s.fltOp w d a .zero (fun x _ _ => f x)

/-- A function of exact values, rounded in MODE.RND with MODE.SAT (R93, R100). -/
def fltArith (s : State) (w : Bool) (d a b : Operand) (f : Val → Val → Val → Val) : State :=
  s.fltOp w d a b (fun x y c => roundFmt (f (s.fmt.value x) (s.fmt.value y) (s.fmt.value c)) s.fmt s.rnd s.sat)

end State

def execFadd (w : Bool) (d a b : Operand) (s : State) : Res :=
  .next (s.fltArith w d a b (fun x y _ => x.add s.rnd y))
def execFsub (w : Bool) (d a b : Operand) (s : State) : Res :=
  .next (s.fltArith w d a b (fun x y _ => x.add s.rnd y.negate))
def execFmul (w : Bool) (d a b : Operand) (s : State) : Res :=
  .next (s.fltArith w d a b (fun x y _ => x.mul y))
def execFfma (w : Bool) (d a b : Operand) (s : State) : Res :=
  .next (s.fltArith w d a b (fun x y c => c.add s.rnd (x.mul y)))
def execFmin (w : Bool) (d a b : Operand) (s : State) : Res :=
  .next (s.fltOp w d a b (fun x y _ => fminmax false s.fmt x y))
def execFmax (w : Bool) (d a b : Operand) (s : State) : Res :=
  .next (s.fltOp w d a b (fun x y _ => fminmax true s.fmt x y))

def execFabs (w : Bool) (d a : Operand) (s : State) : Res := .next (s.fltUn w d a (fabsBits s.fmt))
def execFneg (w : Bool) (d a : Operand) (s : State) : Res := .next (s.fltUn w d a (fnegBits s.fmt))
def execFrcp (w : Bool) (d a : Operand) (s : State) : Res := .next (s.fltUn w d a (frcpBits s.fmt s.rnd s.sat))
def execFrsq (w : Bool) (d a : Operand) (s : State) : Res := .next (s.fltUn w d a (frsqBits s.fmt s.rnd s.sat))
def execFsqrt (w : Bool) (d a : Operand) (s : State) : Res := .next (s.fltUn w d a (fsqrtBits s.fmt s.rnd s.sat))
def execFexp2 (w : Bool) (d a : Operand) (s : State) : Res := .next (s.fltUn w d a (fexp2Bits s.fmt s.rnd s.sat))
def execFlog2 (w : Bool) (d a : Operand) (s : State) : Res := .next (s.fltUn w d a (flog2Bits s.fmt s.rnd s.sat))
def execFfloor (w : Bool) (d a : Operand) (s : State) : Res := .next (s.fltUn w d a (fintBits s.fmt .rdn))
def execFceil (w : Bool) (d a : Operand) (s : State) : Res := .next (s.fltUn w d a (fintBits s.fmt .rup))
def execFtrunc (w : Bool) (d a : Operand) (s : State) : Res := .next (s.fltUn w d a (fintBits s.fmt .rtz))
def execFrint (w : Bool) (d a : Operand) (s : State) : Res := .next (s.fltUn w d a (fintBits s.fmt s.rnd))

/-- FSCALE (R103): B's element is a two's-complement power. -/
def execFscale (w : Bool) (d a b : Operand) (s : State) : Res :=
  .next (s.fltOp w d a b (fun x y _ =>
    roundFmt ((s.fmt.value x).scale (BitVec.ofNat s.fmt.bits y).toInt) s.fmt s.rnd s.sat))

def execFclass (w : Bool) (d a : Operand) (s : State) : Res := .next (s.fltUn w d a (fclassCode s.fmt))

/-- The source elements of a CVT in a lane, in the order of R105. -/
def cvtSources (s : State) (a : Operand) (b : BitVec 8) (l : Nat) : List Nat :=
  let wf := (NumType.ofCode (modeCfrom s.g.mode)).bits
  let wt := (NumType.ofCode (modeCto s.g.mode)).bits
  let split (x n : Nat) : List Nat := (List.range n).map (fun e => x / 2 ^ (wf * e) % 2 ^ wf)
  let x := (s.rd a l).toNat
  if wt < wf then split x (32 / wf) ++ split (s.rd (Operand.ofCode b) l).toNat (32 / wf)
  else if wf < wt then split (if b = 0 then x % 2 ^ 16 else x / 2 ^ 16) (16 / wf)
  else split x (32 / wf)

/-- CVT (R105). -/
def execCvt (w : Bool) (d a : Operand) (b : BitVec 8) (s : State) : Res :=
  let t := NumType.ofCode (modeCfrom s.g.mode)
  let u := NumType.ofCode (modeCto s.g.mode)
  .next (s.result w d false (fun l =>
    BitVec.ofNat 64 (packElems u.bits ((cvtSources s a b l).map (convert t u s.rnd s.sat)))))

end Sys2Proof.Machine
end

