-- ==== Sys2Proof/Machine/Integer.lean ====
section
/-! DEFINITION. The integer instructions (R74 to R78), the compares and predicate instructions (R79 to R83). -/

namespace Sys2Proof.Machine

open Sys2Proof

/-- A function of elements x, y and the addend c, of width `w`. -/
abbrev IntOp := (w : Nat) → BitVec w → BitVec w → BitVec w → BitVec w

/-- An element function applied to every element of MODE.ITYPE (R74, R75). -/
def mapElems (itype : Nat) (f : IntOp) (a b c : DWord) : DWord :=
  match itype with
  | 0 => (f 32 (elem 32 a 0) (elem 32 b 0) (elem 32 c 0)).setWidth 64
  | 1 =>
    (f 16 (elem 16 a 1) (elem 16 b 1) (elem 16 c 1) ++ f 16 (elem 16 a 0) (elem 16 b 0) (elem 16 c 0)).setWidth 64
  | 2 =>
    (f 8 (elem 8 a 3) (elem 8 b 3) (elem 8 c 3) ++ f 8 (elem 8 a 2) (elem 8 b 2) (elem 8 c 2)
      ++ f 8 (elem 8 a 1) (elem 8 b 1) (elem 8 c 1) ++ f 8 (elem 8 a 0) (elem 8 b 0) (elem 8 c 0)).setWidth 64
  | _ => f 64 a b c

/-- An immediate in every element (R76). -/
def immElems (itype : Nat) (f : (w : Nat) → BitVec w) : DWord := mapElems itype (fun w _ _ _ => f w) 0 0 0

/-! ### Element functions (R75, R77) -/

def opAdd : IntOp := fun _ x y _ => x + y
def opSub : IntOp := fun _ x y _ => x - y
def opMul : IntOp := fun _ x y _ => x * y
def opMulh : IntOp := fun w x y _ => (x.signExtend (2 * w) * y.signExtend (2 * w)).extractLsb' w w
def opMulhn : IntOp := fun w x y _ => (x.setWidth (2 * w) * y.setWidth (2 * w)).extractLsb' w w
def opMad : IntOp := fun _ x y c => c + x * y
def opAnd : IntOp := fun _ x y _ => x &&& y
def opOr : IntOp := fun _ x y _ => x ||| y
def opXor : IntOp := fun _ x y _ => x ^^^ y
def opShl : IntOp := fun _ x y _ => x <<< y.toNat
def opShr : IntOp := fun _ x y _ => x >>> y.toNat
def opSar : IntOp := fun _ x y _ => x.sshiftRight y.toNat
def opMin : IntOp := fun _ x y _ => if x.sle y then x else y
def opMax : IntOp := fun _ x y _ => if y.sle x then x else y
def opMinn : IntOp := fun _ x y _ => if x.ule y then x else y
def opMaxn : IntOp := fun _ x y _ => if y.ule x then x else y
def opNot : IntOp := fun _ x _ _ => ~~~x
def opNeg : IntOp := fun _ x _ _ => 0 - x
def opAbs : IntOp := fun _ x _ _ => if x.msb then 0 - x else x
def opPopc : IntOp := fun w x _ _ => BitVec.ofNat w ((List.range w).countP (fun i => x.getLsbD i))
def opClz : IntOp := fun w x _ _ => BitVec.ofNat w (w - bitLen x.toNat)
def opBrev : IntOp := fun _ x _ _ => x.reverse
def opSext8 : IntOp := fun w x _ _ => if w ≤ 8 then x else (x.setWidth 8).signExtend w
def opSext16 : IntOp := fun w x _ _ => if w ≤ 16 then x else (x.setWidth 16).signExtend w

namespace State

/-- The current ITYPE. -/
def itype (s : State) : Nat := modeItype s.g.mode

/-- An integer instruction of R75 on operands A and B; `c` reads D for IMAD. -/
def intOp (s : State) (w : Bool) (d a b : Operand) (f : IntOp) : State :=
  s.result w d (s.itype == 3) (fun l => mapElems s.itype f (s.rd64 a l) (s.rd64 b l) (s.rd64 d l))

/-- An immediate form (R76): B is the same immediate in every element. -/
def intImm (s : State) (w : Bool) (d a : Operand) (f : IntOp) (imm : (w : Nat) → BitVec w) : State :=
  s.result w d (s.itype == 3) (fun l => mapElems s.itype f (s.rd64 a l) (immElems s.itype imm) 0)

/-- A one-operand function of IUN (R77). -/
def intUn (s : State) (w : Bool) (d a : Operand) (f : IntOp) : State :=
  s.result w d (s.itype == 3) (fun l => mapElems s.itype f (s.rd64 a l) 0 0)

end State

/-! ### IADD to IMAXN (R75) -/

def execIadd (w : Bool) (d a b : Operand) (s : State) : Res := .next (s.intOp w d a b opAdd)
def execIsub (w : Bool) (d a b : Operand) (s : State) : Res := .next (s.intOp w d a b opSub)
def execImul (w : Bool) (d a b : Operand) (s : State) : Res := .next (s.intOp w d a b opMul)
def execImulh (w : Bool) (d a b : Operand) (s : State) : Res := .next (s.intOp w d a b opMulh)
def execImulhn (w : Bool) (d a b : Operand) (s : State) : Res := .next (s.intOp w d a b opMulhn)
def execImad (w : Bool) (d a b : Operand) (s : State) : Res := .next (s.intOp w d a b opMad)
def execIand (w : Bool) (d a b : Operand) (s : State) : Res := .next (s.intOp w d a b opAnd)
def execIor (w : Bool) (d a b : Operand) (s : State) : Res := .next (s.intOp w d a b opOr)
def execIxor (w : Bool) (d a b : Operand) (s : State) : Res := .next (s.intOp w d a b opXor)
def execIshl (w : Bool) (d a b : Operand) (s : State) : Res := .next (s.intOp w d a b opShl)
def execIshr (w : Bool) (d a b : Operand) (s : State) : Res := .next (s.intOp w d a b opShr)
def execIsar (w : Bool) (d a b : Operand) (s : State) : Res := .next (s.intOp w d a b opSar)
def execImin (w : Bool) (d a b : Operand) (s : State) : Res := .next (s.intOp w d a b opMin)
def execImax (w : Bool) (d a b : Operand) (s : State) : Res := .next (s.intOp w d a b opMax)
def execIminn (w : Bool) (d a b : Operand) (s : State) : Res := .next (s.intOp w d a b opMinn)
def execImaxn (w : Bool) (d a b : Operand) (s : State) : Res := .next (s.intOp w d a b opMaxn)

/-! ### IUN (R77) -/

def execInot (w : Bool) (d a : Operand) (s : State) : Res := .next (s.intUn w d a opNot)
def execIneg (w : Bool) (d a : Operand) (s : State) : Res := .next (s.intUn w d a opNeg)
def execIabs (w : Bool) (d a : Operand) (s : State) : Res := .next (s.intUn w d a opAbs)
def execPopc (w : Bool) (d a : Operand) (s : State) : Res := .next (s.intUn w d a opPopc)
def execClz (w : Bool) (d a : Operand) (s : State) : Res := .next (s.intUn w d a opClz)
def execBrev (w : Bool) (d a : Operand) (s : State) : Res := .next (s.intUn w d a opBrev)
def execSext8 (w : Bool) (d a : Operand) (s : State) : Res := .next (s.intUn w d a opSext8)
def execSext16 (w : Bool) (d a : Operand) (s : State) : Res := .next (s.intUn w d a opSext16)

/-! ### Immediate forms (R76) -/

def execIaddi (w : Bool) (d a : Operand) (i : BitVec 8) (s : State) : Res :=
  .next (s.intImm w d a opAdd (fun n => i.signExtend n))
/-- The count is compared with the width itself (R76), so it is applied as a number. -/
def execIshli (w : Bool) (d a : Operand) (i : BitVec 8) (s : State) : Res :=
  .next (s.intUn w d a (fun _ x _ _ => x <<< i.toNat))
def execIshri (w : Bool) (d a : Operand) (i : BitVec 8) (s : State) : Res :=
  .next (s.intUn w d a (fun _ x _ _ => x >>> i.toNat))
def execIsari (w : Bool) (d a : Operand) (i : BitVec 8) (s : State) : Res :=
  .next (s.intUn w d a (fun _ x _ _ => x.sshiftRight i.toNat))
def execIandi (w : Bool) (d a : Operand) (i : BitVec 8) (s : State) : Res :=
  .next (s.intImm w d a opAnd (fun n => i.setWidth n))

/-! ### MOVI, MOVHI, MOVSI (R78) -/

def execMovi (w : Bool) (d : Operand) (k : BitVec 16) (s : State) : Res :=
  .next (s.result w d false (fun _ => k.setWidth 64))
def execMovhi (w : Bool) (d : Operand) (k : BitVec 16) (s : State) : Res :=
  .next (s.result w d false (fun l => (k ++ (s.rd d l).setWidth 16).setWidth 64))
def execMovsi (w : Bool) (d : Operand) (k : BitVec 16) (s : State) : Res :=
  .next (s.result w d false (fun _ => (k.signExtend 32).setWidth 64))

/-! ### Compares (R79) and predicate operations (R80) -/

def execIcmpeq (d a b : Operand) (s : State) : Res := .next (s.icmp d a b relEq)
def execIcmpne (d a b : Operand) (s : State) : Res := .next (s.icmp d a b relNe)
def execIcmplt (d a b : Operand) (s : State) : Res := .next (s.icmp d a b relLt)
def execIcmple (d a b : Operand) (s : State) : Res := .next (s.icmp d a b relLe)
def execIcmpltn (d a b : Operand) (s : State) : Res := .next (s.icmp d a b relLtn)
def execIcmplen (d a b : Operand) (s : State) : Res := .next (s.icmp d a b relLen)
def execFcmpeq (d a b : Operand) (s : State) : Res := .next (s.fcmp d a b frelEq)
def execFcmpne (d a b : Operand) (s : State) : Res := .next (s.fcmp d a b frelNe)
def execFcmplt (d a b : Operand) (s : State) : Res := .next (s.fcmp d a b frelLt)
def execFcmple (d a b : Operand) (s : State) : Res := .next (s.fcmp d a b frelLe)
def execFcmpun (d a b : Operand) (s : State) : Res := .next (s.fcmp d a b frelUn)

def execPand (d a b : Operand) (s : State) : Res := .next (s.predOp d a b (fun x y => x && y))
def execPor (d a b : Operand) (s : State) : Res := .next (s.predOp d a b (fun x y => x || y))
def execPxor (d a b : Operand) (s : State) : Res := .next (s.predOp d a b (fun x y => x != y))
def execPandn (d a b : Operand) (s : State) : Res := .next (s.predOp d a b (fun x y => x && !y))

/-- SEL (R81): by lane on P[BP], or once on the branch decision over the issue's enabled lanes. -/
def execSel (w : Bool) (d a b : Operand) (s : State) : Res :=
  let pick (t : Bool) (l : Nat) : DWord :=
    let o := if t then a else b
    if s.itype = 3 then s.rd64 o l else (s.rd o l).setWidth 64
  if !w && d.isS then .next (s.scalarResult d (s.itype == 3) (pick (s.branchTaken s.iss.mask) 0))
  else .next (s.laneResult w d (s.itype == 3) (fun l => pick (s.g.pred (modeBp s.g.mode) l) l))

/-- VTOP (R82): all 32 bits compared. -/
def execVtop (d a : Operand) (s : State) : Res := .next (s.predResult d (fun l => s.rd a l != 0))
/-- PTOV (R82): a lane result. -/
def execPtov (d a : Operand) (s : State) : Res :=
  .next (s.laneResult false d false (fun l => if s.rd a l != 0 then 1 else 0))

/-- PCNT (R83): nothing with no enabled lane. -/
def execPcnt (d a : Operand) (s : State) : Res :=
  if s.iss.mask = 0 then .next s
  else
    let n := (lanesOf s.iss.mask).countP (fun l => s.rd a l != 0)
    .next (s.setG (State.putReg s.g d false 0 (BitVec.ofNat 64 n)))

end Sys2Proof.Machine
end

