-- ==== Sys2Proof/Machine/Crossing.lean ====
section
/-! DEFINITION. Lane-crossing instructions (R129 to R133). -/

namespace Sys2Proof.Machine

open Sys2Proof

/-- The fixed tree of R133 over the values of all lanes: neighbours are combined level by level. -/
def treeLevel {α : Type} (f : α → α → α) (l : List α) : List α :=
  match l with
  | x :: y :: r => f x y :: treeLevel f r
  | r => r

/-- `n` levels of the tree. -/
def treeReduce {α : Type} (f : α → α → α) (n : Nat) (l : List α) : List α :=
  match n with
  | 0 => l
  | k + 1 => treeReduce f k (treeLevel f l)

namespace State

/-- The value of every lane of the group: the operand's in the issue mask, the identity elsewhere. -/
def treeInput {α : Type} (s : State) (ident : α) (val : Nat → α) : List α :=
  (List.range s.g.width).map (fun l => if s.iss.mask.getLsbD l then val l else ident)

/-- REDI (R133) with an element function and an identity. -/
def redInt (s : State) (w : Bool) (d a : Operand) (f : IntOp) (ident : (w : Nat) → BitVec w) : State :=
  let t := treeReduce (fun x y => mapElems s.itype f x y 0) 6 (s.treeInput (immElems s.itype ident) (fun l => s.rd64 a l))
  let r := t.headD 0
  s.laneResult w d (s.itype == 3) (fun _ => r)

/-- REDFMAX and REDFMIN (R133): an absent lane (none) is the identity, and a NaN anywhere gives the canonical NaN. -/
def redFlt (s : State) (w : Bool) (d a : Operand) (f : Nat → Nat → Nat) : State :=
  let one (e : Nat) : Nat :=
    let t := treeReduce (fun x y => match x, y with
        | some p, some q => some (f p q)
        | some p, none => some p
        | none, q => q) 6
      (s.treeInput none (fun l => some (fElem s.fmt (s.rd a l) e)))
    let x := (t.headD none).getD 0
    if (s.fmt.value x).isNan then s.fmt.nan.getD 0 else x
  let r := packElems s.fmt.bits ((List.range (fCount s.fmt)).map one)
  s.laneResult w d false (fun _ => BitVec.ofNat 64 r)

/-- REDFADD's tree (R133): an absent lane is −0, and every node rounds. -/
def redFadd (s : State) (w : Bool) (d a : Operand) : State :=
  let ident := s.fmt.signW
  let one (e : Nat) : Nat :=
    (treeReduce (fun x y => roundFmt ((s.fmt.value x).add s.rnd (s.fmt.value y)) s.fmt s.rnd s.sat) 6
      (s.treeInput ident (fun l => fElem s.fmt (s.rd a l) e))).headD 0
  let r := packElems s.fmt.bits ((List.range (fCount s.fmt)).map one)
  s.laneResult w d false (fun _ => BitVec.ofNat 64 r)

end State

/-- PERM (R130). -/
def execPerm (w : Bool) (d a b : Operand) (s : State) : Res :=
  .next (s.laneResult w d false (fun l => (s.rd a ((s.rd b l).toNat % s.g.width)).setWidth 64))

/-- VIDX (R132): an index at or above the allotment is a lane fault, in guarded lanes alone. -/
def execVidx (w : Bool) (d a : Operand) (s : State) : Res :=
  let bad := (lanesOf s.guarded).filter (fun l => decide (s.g.allot ≤ (s.rd a l).toNat))
  let good := { s.iss with mask := s.iss.mask &&& ~~~(maskOf bad) }
  let r := State.laneResult { s with iss := good } w d false (fun l => (s.g.vr (s.rd a l).toNat l).setWidth 64)
  let l0 := bad.foldl (fun t l => t.set l 0) r.iss.l0
  let r := { r with iss := { r.iss with mask := s.iss.mask, l0 := l0, res := r.iss.res || s.iss.mask != 0 } }
  .next (bad.foldl (fun t l => t.laneFault l 5 (s.rd a l).toNat) r)

/-- VIDXW (R132). -/
def execVidxw (d a : Operand) (s : State) : Res :=
  let ls := lanesOf s.guarded
  let ok (l : Nat) : Bool := decide ((s.rd a l).toNat < s.g.allot)
  let g := (ls.filter ok).foldl (fun g l => g.setV (s.rd a l).toNat l (s.rd d l)) s.g
  .next ((ls.filter (fun l => !ok l)).foldl (fun t l => t.laneFault l 5 (s.rd a l).toNat) (s.setG g))

/-- BCAST (R131). -/
def execBcast (w : Bool) (d a : Operand) (i : BitVec 8) (s : State) : Res :=
  .next (s.laneResult w d false (fun _ => (s.rd a i.toNat).setWidth 64))

/-- VREAD (R131): once per issue, nothing with no enabled lane (R36). -/
def execVread (d a : Operand) (i : BitVec 8) (s : State) : Res :=
  if s.iss.mask = 0 then .next s
  else .next (s.setG (State.putReg s.g d false 0 ((s.rd a i.toNat).setWidth 64)))

/-- VWRITE (R131): only if lane k is in the issue mask and guarded. -/
def execVwrite (d a : Operand) (i : BitVec 8) (s : State) : Res :=
  if s.guarded.getLsbD i.toNat then .next (s.setG (State.putReg s.g d false i.toNat ((s.rd a 0).setWidth 64)))
  else .next s

def execRediadd (w : Bool) (d a : Operand) (s : State) : Res := .next (s.redInt w d a opAdd (fun n => 0#n))
def execRedimax (w : Bool) (d a : Operand) (s : State) : Res := .next (s.redInt w d a opMax BitVec.intMin)
def execRedimin (w : Bool) (d a : Operand) (s : State) : Res := .next (s.redInt w d a opMin BitVec.intMax)
def execRedimaxn (w : Bool) (d a : Operand) (s : State) : Res := .next (s.redInt w d a opMaxn (fun n => 0#n))
def execRediminn (w : Bool) (d a : Operand) (s : State) : Res := .next (s.redInt w d a opMinn BitVec.allOnes)
def execRedfadd (w : Bool) (d a : Operand) (s : State) : Res := .next (s.redFadd w d a)
def execRedfmax (w : Bool) (d a : Operand) (s : State) : Res := .next (s.redFlt w d a (fminmax true s.fmt))
def execRedfmin (w : Bool) (d a : Operand) (s : State) : Res := .next (s.redFlt w d a (fminmax false s.fmt))

end Sys2Proof.Machine
end

