-- ==== Sys2Proof/Machine/Formats.lean ====
section
/-! DEFINITION. Format blocks, which MLOOP and MVEC read at acceptance whatever engines still write into them (R233, R245), and these two
commands (R234, R237). -/

namespace Sys2Proof.Machine

open Sys2Proof

namespace State

/-- Is byte `a` of the core's local store still to be written by the command of a scoreboard entry: not where a chunk or an output
has been written, nor between the rows of an MSTORE (R236, R237, R241)? -/
def pendingByte (s : State) (ck : Nat) (e : ScoreEntry) (a : Nat) : Bool :=
  let mine (o : Origin) : Bool := o.handle == e.handle && o.team == e.team
  e.write && s.entryHolds e a
    && (match (s.coreOf ck).mx.find? (fun p => mine p.1) with
      | some (_, .mstore _ _ pitch _ cols f _) => decide ((a - e.lo) % pitch < cols * ((storeFmt f).bits / 8))
      | _ => true)
    && (match (s.coreOf ck).nm.find? (fun p => mine p.1) with
      | some (_, c) => decide (e.lo + 4 * c.done ≤ a)
      | none => true)

/-- Does an engine still write byte `i` of a format block, which is read at acceptance (R245)? -/
def formatPending (s : State) (off i : Nat) : Bool :=
  (s.coreOf s.g.ckey).score.any (fun e => s.pendingByte s.g.ckey e (s.team.lsBase + off + i))

def formatBusy (s : State) (off : Nat) : Bool := (List.range 32).any (s.formatPending off)

/-- Byte `k` of the output range of a pending MVEC, as the engine would write it now; none where it cannot. -/
def mvecByte (s : State) (o : Origin) (c : NmCmd) (k : Nat) : Option Byte :=
  let av := rowValues c.fa (splitElems (blockFmt c.fa.type).bits (s.bytesAt (s.orgLoc o c.a) c.kb))
    (if c.fa.blockScaled then s.bytesAt (s.orgLoc o c.fa.table) (c.kb / 4) else [])
  match (s.mvecOutputs o { c with done := k / 4 } av 1).2 with
  | .ok (x :: _) => (bytesOf 4 x)[k % 4]?
  | _ => none

/-- Byte `k` of the range of a pending MSTORE, as the tile stands now. -/
def mstoreByte (s : State) (ck tile pitch f : Nat) (sat : Bool) (k : Nat) : Option Byte :=
  let eb := (storeFmt f).bits / 8
  let x := (s.coreOf ck).tiles.get (256 * tile + 16 * (k / pitch) + k % pitch / eb) 0
  (bytesOf eb (roundFmt (Fmt.f32.value x.toNat) (storeFmt f) .rne sat))[k % eb]?

/-- Byte `k` that a team's first ROTATE brings in, where every member of the ring has issued its own. -/
def rotateByte (s : State) (o : Origin) (k : Nat) : Option Byte :=
  match s.ringHeads o.team with
  | none => none
  | some hs => match hs.findIdx? (fun h => h.1 == o) with
    | none => none
    | some i => hs[(i + hs.length - 1) % hs.length]?.map (fun h => s.byteAt (s.orgLoc h.1 (h.2.src + k)))

/-- Byte `k` of the range of a pending copy, in pieces of 512 bytes of data or of 128 scale bytes, as its chunk would be written now; none
where the chunk cannot be formed. -/
def copyByte (s : State) (c : Copy) (piece k : Nat) : Option Byte :=
  match c.tmpl with
  | none => none
  | some t =>
    if t.srcKind = 2 && ((s.readPacket c (k / piece)).map Packet.back) != some true then none
    else match (s.chunkPath c t (k / piece)).2 with
    | .ok a =>
      let x := convertChunk t (s.chunkBytes c t a)
      (if piece = 128 then x.2 else x.1)[k % piece]?
    | _ => none

/-- What the command of a scoreboard entry would write to byte `a` of the core's local store if it wrote it now. -/
def newByte (s : State) (ck : Nat) (e : ScoreEntry) (a : Nat) : Option Byte :=
  let mine (o : Origin) : Bool := o.handle == e.handle && o.team == e.team
  let k := a - e.lo
  match (s.coreOf ck).mx.find? (fun p => mine p.1), (s.coreOf ck).nm.find? (fun p => mine p.1),
      (s.coreOf ck).rt.find? (fun p => mine p.1), s.copies.find? (fun c => mine c.org) with
  | some (_, .mstore t _ pitch _ _ f sat), _, _, _ => s.mstoreByte ck t pitch f sat k
  | _, some (o, c), _, _ => s.mvecByte o c k
  | _, _, some (o, _), _ => s.rotateByte o k
  | _, _, _, some c => s.copyByte c e.piece k
  | _, _, _, _ => none

/-- Byte `i` of a format block that is read while engines still write into it (R245): the byte that stands, or the byte that a write which is
pending for it would leave there if it were performed now; a free value chooses, for each byte by itself (log entry 31, DEDUCED). -/
def racedByte (s : State) (off i : Nat) : Byte :=
  let ck := s.g.ckey
  let a := s.team.lsBase + off + i
  let old := s.byteAt (s.lsLoc (off + i))
  let all := old :: ((s.coreOf ck).score.filter (fun e => s.pendingByte ck e a)).filterMap (fun e => s.newByte ck e a)
  all.getD ((Config.freeWord (s.free + i / 4)).toNat / 2 ^ (8 * (i % 4)) % all.length) old

/-- The format block of the current command, where it lies in the allocation: the bytes that stand at acceptance (R245). -/
def formatAt (s : State) (off : Nat) : Option (FormatHalf × FormatHalf) :=
  formatBlock (if s.formatBusy off then (List.range 32).map (s.racedByte off) else s.bytesAt (s.lsLoc off) 32)

/-- The free values that reading a format block has used. -/
def formatRead (s : State) (off : Nat) : State := if s.formatBusy off then { s with free := s.free + 8 } else s

/-- Local-store ranges that an MLOOP or MVEC with its format block at `off` names: two, and one for each block-scaled operand that
`f` counts; of a block that cannot be read, none more (R231). -/
def formatNeed (s : State) (off : Nat) (f : FormatHalf × FormatHalf → Nat) : Nat :=
  if off % 32 = 0 && off + 32 ≤ s.team.lsSize then 2 + ((s.formatAt off).map f).getD 0 else 2

/-- MLOOP's checks and ranges (R225, R233, R234); a hull spans sixteen rows or columns. -/
def mloopPlan (s : State) (a : Operand) : Except Nat (List LsRange × MxCmd) :=
  let size := s.team.lsSize
  let steps := s.blkN a 3
  let incA := sReg (s.blk a 4)
  let incB := sReg (s.blk a 5)
  let fo := s.blkN a 6
  let cols := bits (s.blkN a 7) 8 8
  let rows := bits (s.blkN a 7) 0 8
  let fIn := fo % 32 == 0 && decide (fo + 32 ≤ size)
  let fmts := if fIn then s.formatAt fo else none
  let n := max steps 1
  let tables : List FormatHalf := match fmts with
    | some (x, y) => [x, y].filter FormatHalf.blockScaled
    | none => []
  let hulls := [hull (s.blkN a 0) incA n 8192 size, hull (s.blkN a 1) incB n 8192 size]
    ++ tables.map (fun f => hull f.table f.incr n 2048 size)
  match leastReason [
      (bits (s.blkN a 2) 3 29 != 0 || bits (s.blkN a 7) 16 16 != 0, 0x10),
      (s.blkN a 0 % 16 != 0 || s.blkN a 1 % 16 != 0 || incA % 16 != 0 || incB % 16 != 0 || !fIn
        || tables.any (fun f => f.table % 16 != 0 || f.incr % 16 != 0) || hulls.any Option.isNone, 0x11),
      (fIn && fmts.isNone, 0x12),
      (steps = 0 || 4096 < steps || rows = 0 || 16 < rows || cols = 0 || 16 < cols, 0x13)], fmts with
  | some r, _ => .error r
  | none, none => .error 0x12
  | none, some (fa, fb) =>
    .ok (hulls.filterMap id,
      .mloop (bits (s.blkN a 2) 0 3) (s.blkN a 0) (s.blkN a 1) steps incA incB fa fb rows cols 0 false 32)

end State

/-- MLOOP (R234). -/
def execMloop (d a : Operand) (s : State) : Res :=
  let need := s.formatNeed (s.blkN a 6) (fun f => f.1.blockScaled.toNat + f.2.blockScaled.toNat)
  match s.mloopPlan a with
  | .error r => .next ((s.formatRead (s.blkN a 6)).issueEngine 2 1 d s.mxRoom need (.error r) (fun s _ => s))
  | .ok (rs, c) => .next ((s.formatRead (s.blkN a 6)).issueEngine 2 1 d s.mxRoom need (.ok rs) (fun s o => s.mxQueue o c))

/-- MVEC (R237). -/
def execMvec (d a : Operand) (s : State) : Res :=
  let size := s.team.lsSize
  let va := s.blkN a 0
  let kb := s.blkN a 1
  let base := s.blk a 3 ++ s.blk a 2
  let n := s.blkN a 4
  let res := s.blkN a 5
  let fo := s.blkN a 6
  let fIn := fo % 32 == 0 && decide (fo + 32 ≤ size)
  let fmts := if fIn then s.formatAt fo else none
  let tab := match fmts with
    | some (x, _) => if x.blockScaled then [x.table] else []
    | none => []
  let plan := match leastReason [
      (s.blkN a 7 != 0, 0x10),
      (va % 16 != 0 || size < va + kb || base.toNat % 512 != 0 || res % 16 != 0 || size < res + 4 * n || !fIn
        || tab.any (fun t => t % 16 != 0 || size < t + kb / 4), 0x11),
      (fIn && fmts.isNone, 0x12),
      (kb % 512 != 0 || kb = 0 || 16384 < kb || n = 0 || 4096 < n, 0x13)] with
    | some r => Except.error r
    | none => .ok ([{ lo := va, hi := va + kb, write := false }] ++ tab.map (fun t => { lo := t, hi := t + kb / 4, write := false })
        ++ [({ lo := res, hi := res + 4 * n, write := true } : LsRange)])
  .next ((s.formatRead fo).issueEngine 3 2 d (decide ((s.coreOf s.g.ckey).nm.length < 4))
    (s.formatNeed fo (fun f => f.1.blockScaled.toNat)) plan (fun s o =>
    match fmts with
    | none => s
    | some (fa, fb) =>
      let c : NmCmd := { a := va, kb, base, n, result := res, fa, fb, done := 0, cancelled := false, waiting := none }
      (s.modCore (o.die * 512 + o.core) (fun k => { k with nm := k.nm ++ [(o, c)] })).post
        (.mvecOutputGroup (o.die * 512 + o.core))))

end Sys2Proof.Machine
end

