-- ==== Sys2Proof/Machine/Dispatch.lean ====
section
/-! DEFINITION. Which meaning each instruction has: one arm per constructor. -/

namespace Sys2Proof.Machine

open Sys2Proof

/-- One instruction, event or command. -/
def exec (i : Instr) (s : State) : Host.Outcome State Fault Refusal :=
  match i with
  | .nop => Sys2Proof.Machine.execNop s
  | .modelo k => Sys2Proof.Machine.execModelo k s
  | .modehi k => Sys2Proof.Machine.execModehi k s
  | .moder d => Sys2Proof.Machine.execModer d s
  | .br o => Sys2Proof.Machine.execBr o s
  | .brx t v => Sys2Proof.Machine.execBrx t v s
  | .call o => Sys2Proof.Machine.execCall o s
  | .ret => Sys2Proof.Machine.execRet s
  | .jmps a => Sys2Proof.Machine.execJmps a s
  | .cIf f => Sys2Proof.Machine.execCIf f s
  | .cElse f => Sys2Proof.Machine.execCElse f s
  | .cEndif => Sys2Proof.Machine.execCEndif s
  | .yield d k => Sys2Proof.Machine.execYield d k s
  | .tbar imm => Sys2Proof.Machine.execTbar imm s
  | .trap imm => Sys2Proof.Machine.execTrap imm s
  | .tret imm => Sys2Proof.Machine.execTret imm s
  | .exit => Sys2Proof.Machine.execExit s
  | .plset imm => Sys2Proof.Machine.execPlset imm s
  | .plsetv a => Sys2Proof.Machine.execPlsetv a s
  | .plget d => Sys2Proof.Machine.execPlget d s
  | .execw a => Sys2Proof.Machine.execExecw a s
  | .execr d => Sys2Proof.Machine.execExecr d s
  | .nestr d => Sys2Proof.Machine.execNestr d s
  | .grow imm => Sys2Proof.Machine.execGrow imm s
  | .shrink imm => Sys2Proof.Machine.execShrink imm s
  | .vtop d a => Sys2Proof.Machine.execVtop d a s
  | .ptov d a => Sys2Proof.Machine.execPtov d a s
  | .pcnt d a => Sys2Proof.Machine.execPcnt d a s
  | .wbid d a imm => Sys2Proof.Machine.execWbid d a imm s
  | .wres d imm => Sys2Proof.Machine.execWres d imm s
  | .wrel imm => Sys2Proof.Machine.execWrel imm s
  | .cntr d imm => Sys2Proof.Machine.execCntr d imm s
  | .iadd w d a b => Sys2Proof.Machine.execIadd w d a b s
  | .isub w d a b => Sys2Proof.Machine.execIsub w d a b s
  | .imul w d a b => Sys2Proof.Machine.execImul w d a b s
  | .imulh w d a b => Sys2Proof.Machine.execImulh w d a b s
  | .imulhn w d a b => Sys2Proof.Machine.execImulhn w d a b s
  | .imad w d a b => Sys2Proof.Machine.execImad w d a b s
  | .iand w d a b => Sys2Proof.Machine.execIand w d a b s
  | .ior w d a b => Sys2Proof.Machine.execIor w d a b s
  | .ixor w d a b => Sys2Proof.Machine.execIxor w d a b s
  | .ishl w d a b => Sys2Proof.Machine.execIshl w d a b s
  | .ishr w d a b => Sys2Proof.Machine.execIshr w d a b s
  | .isar w d a b => Sys2Proof.Machine.execIsar w d a b s
  | .imin w d a b => Sys2Proof.Machine.execImin w d a b s
  | .imax w d a b => Sys2Proof.Machine.execImax w d a b s
  | .iminn w d a b => Sys2Proof.Machine.execIminn w d a b s
  | .imaxn w d a b => Sys2Proof.Machine.execImaxn w d a b s
  | .inot w d a => Sys2Proof.Machine.execInot w d a s
  | .ineg w d a => Sys2Proof.Machine.execIneg w d a s
  | .iabs w d a => Sys2Proof.Machine.execIabs w d a s
  | .popc w d a => Sys2Proof.Machine.execPopc w d a s
  | .clz w d a => Sys2Proof.Machine.execClz w d a s
  | .brev w d a => Sys2Proof.Machine.execBrev w d a s
  | .sext8 w d a => Sys2Proof.Machine.execSext8 w d a s
  | .sext16 w d a => Sys2Proof.Machine.execSext16 w d a s
  | .iaddi w d a imm => Sys2Proof.Machine.execIaddi w d a imm s
  | .ishli w d a imm => Sys2Proof.Machine.execIshli w d a imm s
  | .ishri w d a imm => Sys2Proof.Machine.execIshri w d a imm s
  | .isari w d a imm => Sys2Proof.Machine.execIsari w d a imm s
  | .iandi w d a imm => Sys2Proof.Machine.execIandi w d a imm s
  | .movi w d k => Sys2Proof.Machine.execMovi w d k s
  | .movhi w d k => Sys2Proof.Machine.execMovhi w d k s
  | .movsi w d k => Sys2Proof.Machine.execMovsi w d k s
  | .mloop d a => Sys2Proof.Machine.execMloop d a s
  | .mvec d a => Sys2Proof.Machine.execMvec d a s
  | .mzero d imm => Sys2Proof.Machine.execMzero d imm s
  | .mstore d a => Sys2Proof.Machine.execMstore d a s
  | .xst d a b => Sys2Proof.Machine.execXst d a b s
  | .rotate d a => Sys2Proof.Machine.execRotate d a s
  | .copen d a => Sys2Proof.Machine.execCopen d a s
  | .icmpeq d a b => Sys2Proof.Machine.execIcmpeq d a b s
  | .icmpne d a b => Sys2Proof.Machine.execIcmpne d a b s
  | .icmplt d a b => Sys2Proof.Machine.execIcmplt d a b s
  | .icmple d a b => Sys2Proof.Machine.execIcmple d a b s
  | .icmpltn d a b => Sys2Proof.Machine.execIcmpltn d a b s
  | .icmplen d a b => Sys2Proof.Machine.execIcmplen d a b s
  | .fcmpeq d a b => Sys2Proof.Machine.execFcmpeq d a b s
  | .fcmpne d a b => Sys2Proof.Machine.execFcmpne d a b s
  | .fcmplt d a b => Sys2Proof.Machine.execFcmplt d a b s
  | .fcmple d a b => Sys2Proof.Machine.execFcmple d a b s
  | .fcmpun d a b => Sys2Proof.Machine.execFcmpun d a b s
  | .pand d a b => Sys2Proof.Machine.execPand d a b s
  | .por d a b => Sys2Proof.Machine.execPor d a b s
  | .pxor d a b => Sys2Proof.Machine.execPxor d a b s
  | .pandn d a b => Sys2Proof.Machine.execPandn d a b s
  | .sel w d a b => Sys2Proof.Machine.execSel w d a b s
  | .fadd w d a b => Sys2Proof.Machine.execFadd w d a b s
  | .fsub w d a b => Sys2Proof.Machine.execFsub w d a b s
  | .fmul w d a b => Sys2Proof.Machine.execFmul w d a b s
  | .ffma w d a b => Sys2Proof.Machine.execFfma w d a b s
  | .fmin w d a b => Sys2Proof.Machine.execFmin w d a b s
  | .fmax w d a b => Sys2Proof.Machine.execFmax w d a b s
  | .fabs w d a => Sys2Proof.Machine.execFabs w d a s
  | .fneg w d a => Sys2Proof.Machine.execFneg w d a s
  | .frcp w d a => Sys2Proof.Machine.execFrcp w d a s
  | .frsq w d a => Sys2Proof.Machine.execFrsq w d a s
  | .fsqrt w d a => Sys2Proof.Machine.execFsqrt w d a s
  | .fexp2 w d a => Sys2Proof.Machine.execFexp2 w d a s
  | .flog2 w d a => Sys2Proof.Machine.execFlog2 w d a s
  | .ffloor w d a => Sys2Proof.Machine.execFfloor w d a s
  | .fceil w d a => Sys2Proof.Machine.execFceil w d a s
  | .ftrunc w d a => Sys2Proof.Machine.execFtrunc w d a s
  | .frint w d a => Sys2Proof.Machine.execFrint w d a s
  | .cvt w d a b => Sys2Proof.Machine.execCvt w d a b s
  | .fscale w d a b => Sys2Proof.Machine.execFscale w d a b s
  | .fclass w d a => Sys2Proof.Machine.execFclass w d a s
  | .htest d a => Sys2Proof.Machine.execHtest d a s
  | .hcancel a => Sys2Proof.Machine.execHcancel a s
  | .hmov d a => Sys2Proof.Machine.execHmov d a s
  | .chktest d a b => Sys2Proof.Machine.execChktest d a b s
  | .chkwait a b => Sys2Proof.Machine.execChkwait a b s
  | .time d => Sys2Proof.Machine.execTime d s
  | .perm w d a b => Sys2Proof.Machine.execPerm w d a b s
  | .vidx w d a => Sys2Proof.Machine.execVidx w d a s
  | .vidxw d a => Sys2Proof.Machine.execVidxw d a s
  | .bcast w d a imm => Sys2Proof.Machine.execBcast w d a imm s
  | .vread d a imm => Sys2Proof.Machine.execVread d a imm s
  | .vwrite d a imm => Sys2Proof.Machine.execVwrite d a imm s
  | .rediadd w d a => Sys2Proof.Machine.execRediadd w d a s
  | .redimax w d a => Sys2Proof.Machine.execRedimax w d a s
  | .redimin w d a => Sys2Proof.Machine.execRedimin w d a s
  | .redimaxn w d a => Sys2Proof.Machine.execRedimaxn w d a s
  | .rediminn w d a => Sys2Proof.Machine.execRediminn w d a s
  | .redfadd w d a => Sys2Proof.Machine.execRedfadd w d a s
  | .redfmax w d a => Sys2Proof.Machine.execRedfmax w d a s
  | .redfmin w d a => Sys2Proof.Machine.execRedfmin w d a s
  | .ldl d a imm => Sys2Proof.Machine.execLdl d a imm s
  | .stl d a imm => Sys2Proof.Machine.execStl d a imm s
  | .ldlf d a imm => Sys2Proof.Machine.execLdlf d a imm s
  | .stle d a imm => Sys2Proof.Machine.execStle d a imm s
  | .ldlp d a imm => Sys2Proof.Machine.execLdlp d a imm s
  | .feset d a src => Sys2Proof.Machine.execFeset d a src s
  | .aladd w d a imm => Sys2Proof.Machine.execAladd w d a imm s
  | .alcas w d a imm => Sys2Proof.Machine.execAlcas w d a imm s
  | .ldg d a b => Sys2Proof.Machine.execLdg d a b s
  | .stg d a b => Sys2Proof.Machine.execStg d a b s
  | .prefg a b => Sys2Proof.Machine.execPrefg a b s
  | .aadd w d a b => Sys2Proof.Machine.execAadd w d a b s
  | .amin w d a b => Sys2Proof.Machine.execAmin w d a b s
  | .amax w d a b => Sys2Proof.Machine.execAmax w d a b s
  | .aand w d a b => Sys2Proof.Machine.execAand w d a b s
  | .aor w d a b => Sys2Proof.Machine.execAor w d a b s
  | .axor w d a b => Sys2Proof.Machine.execAxor w d a b s
  | .axch w d a b => Sys2Proof.Machine.execAxch w d a b s
  | .acas w d a b => Sys2Proof.Machine.execAcas w d a b s
  | .afadd w d a b => Sys2Proof.Machine.execAfadd w d a b s
  | .phase d imm => Sys2Proof.Machine.execPhase d imm s
  | .fence d a b => Sys2Proof.Machine.execFence d a b s
  | .waitc a b => Sys2Proof.Machine.execWaitc a b s
  | .henatEnd => Sys2Proof.Machine.execHenatEnd s
  | .henatMatch set win last => Sys2Proof.Machine.execHenatMatch set win last s
  | .henatLoad d bf port win last => Sys2Proof.Machine.execHenatLoad d bf port win last s
  | .henatAdd d bf port win last => Sys2Proof.Machine.execHenatAdd d bf port win last s
  | .henatMax d bf port win last => Sys2Proof.Machine.execHenatMax d bf port win last s
  | .henatMin d bf port win last => Sys2Proof.Machine.execHenatMin d bf port win last s
  | .henatAdda d src last => Sys2Proof.Machine.execHenatAdda d src last s
  | .henatScale d src imm last => Sys2Proof.Machine.execHenatScale d src imm last s
  | .henatRound d src bf last => Sys2Proof.Machine.execHenatRound d src bf last s
  | .henatFwd src bf set last bar => Sys2Proof.Machine.execHenatFwd src bf set last bar s
  | .henatFwde src bf port win last => Sys2Proof.Machine.execHenatFwde src bf port win last s
  | .henatCopy d src last => Sys2Proof.Machine.execHenatCopy d src last s
  | .henatGath set port win last bar => Sys2Proof.Machine.execHenatGath set port win last bar s
  | .henatBar set last => Sys2Proof.Machine.execHenatBar set last s
  | .henatFail code last => Sys2Proof.Machine.execHenatFail code last s
  | .henatSkipnl => Sys2Proof.Machine.execHenatSkipnl s
  | .rejoinReplay gkey => Sys2Proof.Machine.execRejoinReplay gkey s
  | .loadDataReturn uid => Sys2Proof.Machine.execLoadDataReturn uid s
  | .atomicReply uid => Sys2Proof.Machine.execAtomicReply uid s
  | .publishCompletion gkey => Sys2Proof.Machine.execPublishCompletion gkey s
  | .fencePointSatisfied gkey imm => Sys2Proof.Machine.execFencePointSatisfied gkey imm s
  | .teamBarrierCompletion team b => Sys2Proof.Machine.execTeamBarrierCompletion team b s
  | .waitcWake gkey => Sys2Proof.Machine.execWaitcWake gkey s
  | .waitcPoll gkey => Sys2Proof.Machine.execWaitcPoll gkey s
  | .fullEmptyService ckey => Sys2Proof.Machine.execFullEmptyService ckey s
  | .growGrant ckey => Sys2Proof.Machine.execGrowGrant ckey s
  | .shrinkRelease gkey => Sys2Proof.Machine.execShrinkRelease gkey s
  | .yieldResume gkey => Sys2Proof.Machine.execYieldResume gkey s
  | .tlbInvalidationRequest die fn => Sys2Proof.Machine.execTlbInvalidationRequest die fn s
  | .launchQueueTailWrite die fn q => Sys2Proof.Machine.execLaunchQueueTailWrite die fn q s
  | .launchSelection die fn => Sys2Proof.Machine.execLaunchSelection die fn s
  | .priorityAging die fn q => Sys2Proof.Machine.execPriorityAging die fn q s
  | .chainNodeReady die fn c => Sys2Proof.Machine.execChainNodeReady die fn c s
  | .teamPlacement die fn => Sys2Proof.Machine.execTeamPlacement die fn s
  | .teamEnd team => Sys2Proof.Machine.execTeamEnd team s
  | .exitFiredChunk team => Sys2Proof.Machine.execExitFiredChunk team s
  | .gridCompletion launch => Sys2Proof.Machine.execGridCompletion launch s
  | .preempt die fn b8 b16 result => Sys2Proof.Machine.execPreempt die fn b8 b16 result s
  | .drainBoundExpiry die fn => Sys2Proof.Machine.execDrainBoundExpiry die fn s
  | .preemptionCompletion die fn => Sys2Proof.Machine.execPreemptionCompletion die fn s
  | .teamRestore die fn => Sys2Proof.Machine.execTeamRestore die fn s
  | .matrixStep ckey tile => Sys2Proof.Machine.execMatrixStep ckey tile s
  | .mzeroCompletion ckey tile => Sys2Proof.Machine.execMzeroCompletion ckey tile s
  | .mstoreWrite ckey tile => Sys2Proof.Machine.execMstoreWrite ckey tile s
  | .mvecOutputGroup ckey => Sys2Proof.Machine.execMvecOutputGroup ckey s
  | .copyChunkAcceptance uid => Sys2Proof.Machine.execCopyChunkAcceptance uid s
  | .tokenTick die => Sys2Proof.Machine.execTokenTick die s
  | .copyChunkWrite uid chunk => Sys2Proof.Machine.execCopyChunkWrite uid chunk s
  | .keeperChunk uid => Sys2Proof.Machine.execKeeperChunk uid s
  | .arrivalCounterIncrement uid => Sys2Proof.Machine.execArrivalCounterIncrement uid s
  | .rotationStart team => Sys2Proof.Machine.execRotationStart team s
  | .rotationCompletion team => Sys2Proof.Machine.execRotationCompletion team s
  | .collectiveOpen uid => Sys2Proof.Machine.execCollectiveOpen uid s
  | .aliasStore uid => Sys2Proof.Machine.execAliasStore uid s
  | .chunkBody coll => Sys2Proof.Machine.execChunkBody coll s
  | .collectiveCompletion coll => Sys2Proof.Machine.execCollectiveCompletion coll s
  | .reloadBankSwitch => Sys2Proof.Machine.execReloadBankSwitch s
  | .weirBidArrival die slot => Sys2Proof.Machine.execWeirBidArrival die slot s
  | .weirRoundStart => Sys2Proof.Machine.execWeirRoundStart s
  | .weirRoundEnd => Sys2Proof.Machine.execWeirRoundEnd s
  | .contestTableWrite contest entry => Sys2Proof.Machine.execContestTableWrite contest entry s
  | .contestChangeBoundary contest => Sys2Proof.Machine.execContestChangeBoundary contest s
  | .freeze => Sys2Proof.Machine.execFreeze s
  | .thermalThrottle die => Sys2Proof.Machine.execThermalThrottle die s
  | .overtemperatureFreeze die => Sys2Proof.Machine.execOvertemperatureFreeze die s
  | .temperatureSample die temp => Sys2Proof.Machine.execTemperatureSample die temp s
  | .lifetimeImageWrite => Sys2Proof.Machine.execLifetimeImageWrite s
  | .packageReset => Sys2Proof.Machine.execPackageReset s
  | .flitAcknowledgement dir seq => Sys2Proof.Machine.execFlitAcknowledgement dir seq s
  | .requestArrival uid => Sys2Proof.Machine.execRequestArrival uid s
  | .requestReissueTimeout uid => Sys2Proof.Machine.execRequestReissueTimeout uid s
  | .networkAck uid data => Sys2Proof.Machine.execNetworkAck uid data s
  | .retransmissionTimeout uid => Sys2Proof.Machine.execRetransmissionTimeout uid s
  | .keyInstall dir => Sys2Proof.Machine.execKeyInstall dir s
  | .epochSwitch dir => Sys2Proof.Machine.execEpochSwitch dir s
  | .keyRetire dir => Sys2Proof.Machine.execKeyRetire dir s
  | .revocationComplete die index => Sys2Proof.Machine.execRevocationComplete die index s
  | .register die fn b8 b16 result => Sys2Proof.Machine.execRegister die fn b8 b16 result s
  | .revoke die fn b8 b16 result => Sys2Proof.Machine.execRevoke die fn b8 b16 result s
  | .abort die fn b8 b16 result => Sys2Proof.Machine.execAbort die fn b8 b16 result s
  | .reload die fn b8 b16 result => Sys2Proof.Machine.execReload die fn b8 b16 result s
  | .config die fn b8 b16 result => Sys2Proof.Machine.execConfig die fn b8 b16 result s
  | .lifetime die fn b8 b16 result => Sys2Proof.Machine.execLifetime die fn b8 b16 result s
  | .pageAnswer die fn b8 b16 result => Sys2Proof.Machine.execPageAnswer die fn b8 b16 result s
  | .dieReset die fn b8 b16 result => Sys2Proof.Machine.execDieReset die fn b8 b16 result s
  | .hostPortRequest die fn va line access => Sys2Proof.Machine.execHostPortRequest die fn va line access s
  | .thermalThrottleEnd die => Sys2Proof.Machine.execThermalThrottleEnd die s
  | .lockInterfaceRequest die fn => Sys2Proof.Machine.execLockInterfaceRequest die fn s
  | .startInterfaceRequest die fn => Sys2Proof.Machine.execStartInterfaceRequest die fn s
  | .stopInterfaceRequest die fn => Sys2Proof.Machine.execStopInterfaceRequest die fn s
  | .tdiError die fn => Sys2Proof.Machine.execTdiError die fn s
  | .ideKm key fkey => Sys2Proof.Machine.execIdeKm key fkey s
  | .getVersion die => Sys2Proof.Machine.execGetVersion die s
  | .getCapabilities die => Sys2Proof.Machine.execGetCapabilities die s
  | .negotiateAlgorithms die => Sys2Proof.Machine.execNegotiateAlgorithms die s
  | .getDigests die => Sys2Proof.Machine.execGetDigests die s
  | .getCertificate die => Sys2Proof.Machine.execGetCertificate die s
  | .challenge die => Sys2Proof.Machine.execChallenge die s
  | .getMeasurements die index fn signed => Sys2Proof.Machine.execGetMeasurements die index fn signed s
  | .keyExchange die => Sys2Proof.Machine.execKeyExchange die s
  | .finish die => Sys2Proof.Machine.execFinish die s
  | .endSession die => Sys2Proof.Machine.execEndSession die s
  | .debugUnlock verified => Sys2Proof.Machine.execDebugUnlock verified s
  | .slotTableWrite slot state tenant masks => Sys2Proof.Machine.execSlotTableWrite slot state tenant masks s
  | .tenantQuotaTableWrite tenant enabled reserved limit priority => Sys2Proof.Machine.execTenantQuotaTableWrite tenant enabled reserved limit priority s
  | .portFenced port => Sys2Proof.Machine.execPortFenced port s
  | .softErrorCorrected what => Sys2Proof.Machine.execSoftErrorCorrected what s
  | .powerLoss => Sys2Proof.Machine.execPowerLoss s
  | .scanReadOut => Sys2Proof.Machine.execScanReadOut s
  | .timeCounterTick => Sys2Proof.Machine.execTimeCounterTick s
  | .keeperFailure die => Sys2Proof.Machine.execKeeperFailure die s
  | .coreFailure die core => Sys2Proof.Machine.execCoreFailure die core s
  | .uncorrectableMemoryError what => Sys2Proof.Machine.execUncorrectableMemoryError what s
  | .flitCrcFailure dir flit => Sys2Proof.Machine.execFlitCrcFailure dir flit s
  | .holdAssert dir resp => Sys2Proof.Machine.execHoldAssert dir resp s
  | .holdRelease dir resp => Sys2Proof.Machine.execHoldRelease dir resp s
  | .moduleX32Fallback link module => Sys2Proof.Machine.execModuleX32Fallback link module s
  | .moduleRetrainDone link module => Sys2Proof.Machine.execModuleRetrainDone link module s
  | .routeChange requests responses last => Sys2Proof.Machine.execRouteChange requests responses last s
  | .feederFence die => Sys2Proof.Machine.execFeederFence die s
  | .networkPacketArrival port src die index off read data epoch auth => Sys2Proof.Machine.execNetworkPacketArrival port src die index off read data epoch auth s
  | .fwdeReceipt port slot win chunk pkt => Sys2Proof.Machine.execFwdeReceipt port slot win chunk pkt s

end Sys2Proof.Machine
end

