-- ==== Sys2Proof/Machine/Sequence.lean ====
section
/-! DEFINITION. One offset of a group: fetch in every occupied plane, the checks of R58 in their order, the issues of R26,
and what follows them (R40, R119); rejoin points and the end of a replay (R37, R38). -/

namespace Sys2Proof.Machine

open Sys2Proof

/-- Opcodes of skeleton instructions (R27). -/
def skeletonOp (w : Word) : Bool :=
  [0x01, 0x02, 0x04, 0x05, 0x06, 0x07, 0x08, 0x09, 0x0A, 0x0B, 0x0C, 0x0D, 0x0E, 0x0F, 0x10, 0x11, 0x12, 0x14, 0x17, 0x18,
    0x1C, 0x3F, 0x7E].contains (w.toNat / 2 ^ 25)

/-- The lanes of a mask that stand in a plane. -/
def planeLanes (g : Group) (m : DWord) (p : Nat) : DWord :=
  maskOf ((lanesOf m).filter (fun l => (g.plane.get l 0).toNat == p))

/-- Planes that hold a lane of a mask, ascending. -/
def planesOf (g : Group) (m : DWord) : List Nat := (List.range 8).filter (fun p => planeLanes g m p != 0)

/-- The planes that an offset fetches: the occupied ones, or with no enabled lane the plane of the lowest live lane, or of
lane 0 (R26, R36). -/
def fetchPlanes (g : Group) : List Nat :=
  if g.enabled ≠ 0 then planesOf g g.enabled
  else [(g.plane.get ((lanesOf g.liveLanes).headD 0) 0).toNat]

/-- Issues (word, planes, mask) of the fetched words: planes with one word together, in ascending order of the highest
plane (R26). -/
def formIssues (g : Group) (ws : List (Nat × Word)) : List (Word × BitVec 8 × DWord) :=
  ws.foldl (fun l p =>
    let m := planeLanes g g.enabled p.1
    match l.find? (fun x => x.1 == p.2) with
    | some x => l.filter (fun y => y.1 != p.2) ++ [(p.2, x.2.1 ||| BitVec.twoPow 8 p.1, x.2.2 ||| m)]
    | none => l ++ [(p.2, BitVec.twoPow 8 p.1, m)]) []

/-- A check of R58 that fails before anything issues: kind, field, X7's upper half and the issue. -/
structure Failing where
  kind : Nat
  field : Nat
  x7 : Nat
  word : Word
  planes : BitVec 8
  mask : DWord

namespace State

/-- The field in which an instruction names a stale handle, but for those whose operations its issue has waited for (R223, R224). -/
def staleField (s : State) (i : Instr) : Option Nat :=
  let named := hReads i ++ (match i with
    | .yield (.h n) _ => [(1, n.val)]
    | .htest _ (.h n) | .hcancel (.h n) | .chktest _ (.h n) _ | .chkwait (.h n) _ => [(2, n.val)]
    | _ => [])
  (named.find? (fun p => let h := s.g.h.get p.2 0; s.stale h && (s.gotWord h).isNone)).map Prod.fst

/-- Steps 3 to 6 of R58: each step over every issue before the next step. -/
def checkIssues (s : State) (is : List (Word × BitVec 8 × DWord)) : Option Failing :=
  let g := s.g
  let first (f : Instr → Option Nat) (kind : Nat) : Option Failing :=
    is.findSome? (fun x => match decodeCore x.1 with
      | .ok i => (f i).map (fun n => ⟨kind, n, 0, x.1, x.2.1, x.2.2⟩)
      | .error _ => none)
  let illegal := is.findSome? (fun x => match decodeCore x.1 with
    | .error r => some (⟨r.kind, r.field, illegalX7 g.mode r.kind x.1, x.1, x.2.1, x.2.2⟩ : Failing)
    | .ok i => (dynIllegal g.mode g.width i).map (fun r => ⟨r.kind, r.field, illegalX7 g.mode r.kind x.1, x.1, x.2.1, x.2.2⟩))
  match illegal with
  | some f => some f
  | none => match first (rangeField g.mode g.allot) 0x14 with
    | some f => some f
    | none => match first (latchField g.mode g.latValid) 0x15 with
      | some f => some f
      | none => first s.staleField 0x18

/-- The base and offset of a global access, and what it does. -/
def globalForm (i : Instr) : Option (Operand × Operand × Acc) :=
  match i with
  | .ldg _ a b => some (a, b, .load)
  | .stg _ a b => some (a, b, .store)
  | .aadd _ _ a b | .amin _ _ a b | .amax _ _ a b | .aand _ _ a b | .aor _ _ a b | .axor _ _ a b | .axch _ _ a b
  | .acas _ _ a b | .afadd _ _ a b => some (a, b, .atomic)
  | _ => none

/-- V registers that the parked accesses target (R37). -/
def parkTargets (s : State) : List (Nat × Nat) :=
  s.g.parkedOn.filterMap (fun p => match decodeCore p.word with
    | .ok (.ldg (.v n) _ _) => some (n.val, regsOf (modeBytes s.g.mode))
    | .ok (.aadd false (.v n) _ _) | .ok (.amin false (.v n) _ _) | .ok (.amax false (.v n) _ _)
    | .ok (.aand false (.v n) _ _) | .ok (.aor false (.v n) _ _) | .ok (.axor false (.v n) _ _)
    | .ok (.axch false (.v n) _ _) | .ok (.acas false (.v n) _ _) | .ok (.afadd false (.v n) _ _) =>
      some (n.val, regsOf (modeBytes s.g.mode))
    | _ => none)

/-- A rejoin point, but for the access that meets a page not present (R37). PLGET reads the plane number, which the list of what a
lane-private instruction reads does not name; it is taken as lane-private, and runs while lanes are parked (log entry 63, DESIGN
CHOICE). A PREFG whose operands a parked access targets is one (log entry 89, DESIGN CHOICE). -/
def rejoinPoint (s : State) (i : Instr) : Bool :=
  skeleton i || laneCrossing i || engineCommand i || neverPrivate i || scalarClass s.g.mode i || !(hReads i).isEmpty
    || (regUses s.g.mode i).any (fun u => !u.out && (match u.op with
      | .v n => s.parkTargets.any (fun t => decide (n.val < t.1 + t.2) && decide (t.1 < n.val + u.count))
      | _ => false))

/-- Pages not present that the issues of an offset after the park offset meet (R37): the requests are made, and the pages
are waited for. -/
def probe (s : State) (is : List (Word × BitVec 8 × DWord)) : State × Bool :=
  is.foldl (fun (p : State × Bool) x =>
    match decodeCore x.1 with
    | .ok i => match globalForm i with
      | some (a, b, acc) =>
        let s := p.1
        let ls := lanesOf (x.2.2 &&& s.g.predMask (modeGp s.g.mode))
        let (s, xs) := s.translateLanes ls a b (modeBytes s.g.mode) acc
        let ab := s.absentLanes xs
        let pages := ab.map (fun q => (q.fkey, q.page))
        let s := (s.requestAll ab acc).modG (fun g =>
          { g with waitPages := g.waitPages ++ pages.dedup.filter (fun q => !g.waitPages.contains q) })
        (s, p.2 || !ab.isEmpty)
      | none => p
    | .error _ => p) (s, false)

/-- The group stops before this offset until its parked lanes have been replayed (R37, R38). -/
def startRejoin (s : State) : State :=
  let s := s.modG (fun g => { g with wait := .rejoin, rejoinAt := g.offset })
  if s.g.waitPages.isEmpty then s.post (.rejoinReplay s.cur) else s

/-- A replay has reached the end of its range: lanes that parked anew are waited for, else the range is left; after the
outermost range the gathered faults are taken, at the last offset replayed (R38, R121). Shifts that a save has cut off from the run
before it make no latch valid (R41). -/
def endReplay (s : State) (r : Replay) (rest : List Replay) : State :=
  if s.g.parked != 0 then s.startRejoin
  else
    let s := s.modG (fun g => { g with replays := rest, latValid := if r.cut then r.valid else g.latValid ||| r.valid })
    if rest.isEmpty && s.g.faults.isSome then (s.modG (fun g => { g with offset := r.upTo - 1 })).takeLaneTrap else s

/-- The pops of R34 at the group's offset. -/
def pops (s : State) (fuel : Nat) : State :=
  match fuel with
  | 0 => s
  | k + 1 =>
    let g := s.g
    match g.joins with
    | [] => s
    | j :: r =>
      if j.join ≠ g.offset then s
      else if j.phase then (s.setG { g with joins := r }).pops k
      else (s.setG { g with joins := { j with mask := g.notDeferred, phase := true } :: r, offset := j.notTaken }).pops k

/-- Is a pop due at the group's offset? -/
def popDue (s : State) : Bool :=
  match s.g.joins with
  | j :: _ => j.join == s.g.offset
  | [] => false

/-- An outstanding load or atomic targets a register the instruction uses, in a lane concerned (R132, R142). -/
def regPending (s : State) (i : Instr) (mask : DWord) : Bool :=
  let g := s.g
  let lanes := match i with
    | .nestr _ => s.nestrLanes
    | _ => if laneCrossing i then g.all else mask
  let uses := regUses g.mode i
  let hit (scalar : Bool) (dst n : Nat) (ls : List Nat) : Bool :=
    uses.any (fun u => match u.op with
      | .v k => !scalar && decide (k.val < dst + regsOf n) && decide (dst < k.val + u.count) && ls.any (fun l => lanes.getLsbD l)
      | .s k => scalar && decide (k.val < dst + regsOf n) && decide (dst < k.val + u.count)
      | _ => false)
      || (match i with
        | .vidx _ _ a | .vidxw _ a =>
          !scalar && ls.any (fun l => mask.getLsbD l && decide (dst ≤ (s.rd a l).toNat) && decide ((s.rd a l).toNat < dst + regsOf n))
        | _ => false)
  s.loads.any (fun l => l.gkey == s.cur && l.team == g.team && hit l.scalar l.dst l.n (l.parts.map (fun p => p.lane)))
    || s.reqs.any (fun r => r.gkey == s.cur && r.team == g.team && r.ret && hit r.scalar r.dst r.n (r.parts.map (fun p => p.lane)))

/-- An H register read as a source whose operation is pending: the group blocks (R52). -/
def handlePending (s : State) (i : Instr) : Bool := (hReads i).any (fun p => !s.opDone (s.g.h.get p.2 0))

/-- The latches shift once (R40); a replay shifts the lanes it replays alone (R39). -/
def shiftLatches (s : State) : State :=
  let g := s.g
  let lanes := if g.replays.isEmpty then g.all else g.base
  let lat := (lanesOf lanes).foldl (fun t l =>
    (((t.set (192 + l) (g.latch 2 l)).set (128 + l) (g.latch 1 l)).set (64 + l) (g.latch 0 l)).set l (s.iss.l0.get l 0)) g.lat
  s.setG { g with lat := lat, latValid := (g.latValid <<< 1) ||| 1 }

/-- Do the latches shift at this offset: in a replay also where the run before it shifted them, whichever plane gave the result
(R39, R40)? -/
def shiftsHere (s : State) : Bool := s.iss.res || s.g.replays.head?.any (fun r => r.shifts.contains s.iss.here)

/-- The latches shift, and while lanes are parked it is noted where, for their replay (R39). -/
def shiftOffset (s : State) : State :=
  let s := s.shiftLatches
  if s.g.parked = 0 then s else s.modG (fun g => { g with shifts := g.shifts ++ [s.iss.here] })

/-- After the last issue of an offset: the offset counts (R198), the latches shift, the offset advances, and lane faults
lead to kind 0x19, after the rejoin where lanes are parked; a replay runs on to the end of its range (R38, R119, R121). -/
def finishOffset (s : State) : State :=
  let s := s.countG 1 1
  let s := if s.shiftsHere then s.shiftOffset else s
  let s := if s.iss.moved then s else s.modG (fun g => g.advance 1)
  if !s.g.live || s.g.faults.isNone || !s.g.replays.isEmpty then s
  else if s.g.parked != 0 then s.startRejoin
  else (s.modG (fun g => { g with offset := s.iss.here })).takeLaneTrap

/-- The issue that waits, and those after it, are kept for later. An issue whose own wait will have ended it
(full/empty words, a publish) is not issued again, and counts (R198). -/
def stash (s : State) (cur : Word × BitVec 8 × DWord) (rest : List (Word × BitVec 8 × DWord)) : State :=
  let own := match s.g.wait with
    | .fullEmpty | .publish _ _ _ => true
    | _ => false
  let first := !s.iss.made
  let asked := match decodeCore cur.1 with
    | .ok i => ((match i with
        | .chkwait (.h n) _ => [n.val]
        | _ => (hReads i).map Prod.snd).map (fun n => s.g.h.get n 0)).filter (fun h => !s.opDone h)
    | .error _ => []
  let i := { s.iss with hold := false, made := s.iss.made || own, asked }
  let s := if own then (s.countG 2 1).countG 3 (lanesOf cur.2.2).length else s
  s.modG (fun g => { g with half := some ⟨if own then rest else cur :: rest, i, false, first⟩, stalled := g.wait == .ready })

/-- An issue has been made: of the scalar unit, where it is one of its (R212). -/
def issued (s : State) (i : Instr) : State :=
  if scalarClass s.g.mode i then s.modCore s.g.ckey (fun c => { c with scalar := true }) else s

/-- An issue that finds the scalar unit taken in this core cycle is made in a later one (R212). A group that the core grants comes here only
where another group's issue has turned out otherwise than its try. -/
def scalarTaken (s : State) (i : Instr) (x : Word × BitVec 8 × DWord) (rest : List (Word × BitVec 8 × DWord)) : Option State :=
  if scalarClass s.g.mode i && (s.coreOf s.g.ckey).scalar then
    some (s.modG (fun g => { g with half := some ⟨x :: rest, { s.iss with hold := false }, false, !s.iss.made⟩ }))
  else none

/-- The next issue of an offset; where planes differ, each takes its own core cycle (R26, R212). An access after the park offset that meets a
page not present ends in the rejoin at its offset (R37); behind issues that the offset has made already it waits for the page at issue
(log entry 91, DESIGN CHOICE). -/
def runIssues (s : State) (todo : List (Word × BitVec 8 × DWord)) : Res :=
  match todo with
  | [] => .next s.finishOffset
  | x :: rest =>
    match decodeCore x.1 with
    | .error _ => .next s
    | .ok i =>
      let s := { s with iss := { s.iss with mask := x.2.2, planes := x.2.1, word := x.1 } }
      if s.handlePending i || s.regPending i x.2.2 then .next (s.stash x rest)
      else match s.scalarTaken i x rest with
      | some t => .next t
      | none =>
        let s := if (hReads i).isEmpty then s else s.modG Group.dropLatches
        match exec i s with
        | .next t =>
          if t.iss.trapped then .next (t.issued i)
          else if t.iss.cancelled && !s.iss.made then .next t.startRejoin
          else if t.iss.hold then .next (t.stash x rest)
          else
            let t := ((t.countG 2 1).countG 3 (lanesOf x.2.2).length).issued i
            if rest.isEmpty then .next t.finishOffset else .next (t.modG (fun g => { g with half := some ⟨rest, { t.iss with made := true }, false, false⟩ }))
        | o => o

/-- The words of the planes fetched, or the state in which the fetch stops: a fetch fault's plane, one whose page service has failed among
them (R156), or a page (R58, R64). -/
def fetchWords (s : State) (ps : List Nat) : State × Except (Option Nat) (List (Nat × Word)) :=
  match ps with
  | [] => (s, .ok [])
  | p :: r =>
    let g := s.g
    let va := fetchAddr g p g.offset
    if g.failedVa = some va then (s.modG (fun g => { g with failedVa := none }), .error (some p))
    else match s.translate g.die g.fn (some g.ckey) va 4 .fetch with
    | (s, .ok _ loc slot _) =>
      match (s.recallLine g.ckey loc).fetchWords r with
      | (s, .ok l) => (s, .ok ((p, BitVec.ofNat 32 (natOf (s.coreView g.ckey loc slot 4))) :: l))
      | (s, e) => (s, e)
    | (s, .absent f pg) => ((s.requestPage f pg .fetch).modG (fun g => { g with wait := .page f pg va }), .error none)
    | (s, _) => (s, .error (some p))

/-- A precise trap with nothing issued, or first the rejoin where lanes are parked (R121). -/
def trapOrRejoin (s : State) (f : Failing) : State :=
  if s.g.parked != 0 then s.startRejoin
  else
    let i : Issue := { mask := f.mask, planes := f.planes, word := f.word, here := s.g.offset }
    State.trapAt { s with iss := i } f.kind f.field f.mask f.x7

/-- One offset from its fetch on (R26, R58). A fetch fault has fetched no word: X0[6:0] is 0 then (log entry 93, DESIGN CHOICE: R64 and R120
do not say). While lanes are parked the offset's issues are looked at together, before the first of them: a page that an access of them
meets, once the registers of every access among them are there, or a rejoin point stops the group here (R37). A rejoin point in a later
issue of the park offset itself issues with lanes parked (log entry 94, DESIGN CHOICE). -/
def issueOffset (s : State) : Res :=
  let s := { s.modG (fun g => { g with stalled := false }) with iss := { ({} : Issue) with here := s.g.offset, union := s.g.enabled, run := s.g.replays.length } }
  match s.fetchWords (fetchPlanes s.g) with
  | (s, .error none) => .next s
  | (s, .error (some p)) => .next (s.trapOrRejoin ⟨0x17, 0, 0, 0, BitVec.twoPow 8 p, 0⟩)
  | (s, .ok ws) =>
    let is := formIssues s.g ws
    let blocked := is.any (fun x => match decodeCore x.1 with
      | .ok i => (globalForm i).isSome && s.regPending i x.2.2
      | .error _ => false)
    let occ : BitVec 8 := ws.foldl (fun m p => m ||| BitVec.twoPow 8 p.1) 0
    if ws.any (fun p => skeletonOp p.2) && 1 < is.length then
      let s := if s.g.parked != 0 then s else s.modLife (fun l => { l with planeFaults := satUp l.planeFaults })
      .next (s.trapOrRejoin ⟨0x11, 0, 0, (ws.headD (0, 0)).2, occ, s.g.enabled⟩)
    else match s.checkIssues is with
      | some f => .next (s.trapOrRejoin f)
      | none =>
        if s.g.parked = 0 then s.runIssues is
        else if is.any (fun x => match decodeCore x.1 with
            | .ok i => s.rejoinPoint i
            | .error _ => false) then .next s.startRejoin
        else if blocked then .next (s.modG (fun g => { g with stalled := true }))
        else
          let (s, absent) := s.probe is
          if absent then .next s.startRejoin else s.runIssues is

/-- An issue left of an offset that a pre-emption has cut, and which reads a latch that the pre-emption made invalid (R41, R219). -/
def cutLatch (s : State) (h : Half) : Option Failing :=
  if h.cut then h.todo.findSome? (fun x => match decodeCore x.1 with
    | .ok i => (latchField s.g.mode s.g.latValid i).map (fun n => ⟨0x15, n, 0, x.1, x.2.1, x.2.2⟩)
    | .error _ => none)
  else none

/-- An issue left of an offset which names a handle that has become stale while it waited for something else (R223). -/
def lateStale (s : State) (h : Half) : Option Failing :=
  h.todo.findSome? (fun x => match decodeCore x.1 with
    | .ok i => (s.staleField i).map (fun n => ⟨0x18, n, 0, x.1, x.2.1, x.2.2⟩)
    | .error _ => none)

/-- What a group does next: the rest of a half-issued offset, the end of a replay, the pops of R34, one offset. -/
def groupTurn (s : State) : Res :=
  let g := s.g
  match g.half with
  | some h =>
    let s := { (s.setG { g with half := none, stalled := false }) with iss := h.iss }
    match (s.cutLatch h).or (s.lateStale h) with
    | some f => .next (s.trapOrRejoin f)
    | none => s.runIssues h.todo
  | none =>
    match g.replays with
    | r :: rest => if r.upTo = g.offset then .next (s.endReplay r rest) else s.issueOffset
    | [] => if s.popDue && g.parked != 0 then .next s.startRejoin else (s.pops 33).issueOffset

/-- A group of a team that is to be saved has reached an offset boundary, or waits (R219). -/
def reachBoundary (s : State) (gk : Nat) : State :=
  let g := s.group gk
  if s.stopsAtBoundary gk && !betweenIssues g then s.post (.preemptionCompletion g.die g.fn) else s

/-- A group acts, where it is ready; at an offset boundary a group of a team that is to be saved issues nothing more (R219). -/
def groupStep (s : State) (gk : Nat) : Res :=
  let s := { s with cur := gk }
  let g := s.g
  if !g.live || g.wait != .ready then .next s
  else if g.half.isNone && s.stopsAtBoundary gk then .next (s.reachBoundary gk)
  else match s.groupTurn with
    | .next t => .next (t.reachBoundary gk)
    | o => o

/-! ### Core cycles (R212, R213) -/

/-- A group put into a list in the order of consideration: oldest first, then lower context. -/
def byAge (s : State) (k : Nat) (l : List Nat) : List Nat :=
  match l with
  | [] => [k]
  | x :: r =>
    let a := (s.group k).age
    let b := (s.group x).age
    if b < a || (a == b && (s.group k).ctx < (s.group x).ctx) then k :: x :: r else x :: s.byAge k r

/-- The groups of a core that are granted in a core cycle, in the order of consideration: those none of whose octets has been granted, and
of those in `sc`, which issue in the scalar unit, the first (R212). One that the scalar unit refuses takes no octet (log entry 90,
DESIGN CHOICE). -/
def grants (s : State) (sc ks taken : List Nat) (scalar : Bool) : List Nat :=
  match ks with
  | [] => []
  | k :: r =>
    let g := s.group k
    let os := (List.range (g.width / 8)).map (g.octet + ·)
    if os.any taken.contains || (scalar && sc.contains k) then s.grants sc r taken scalar
    else k :: s.grants sc r (taken ++ os) (scalar || sc.contains k)

/-- A matrix command on a tile, and the ROTATEs under way, one core cycle on (R234, R235, R243, R354); what is then due. The commands at the
heads of the eight tiles step in the same core cycles (log entry 95, DESIGN CHOICE). -/
def engineCycle (s : State) (ck : Nat) : State × List Activity :=
  let left (c : MxCmd) (n : Nat) : MxCmd := match c with
    | .mloop t a b k ia ib fa fb r w d x _ => .mloop t a b k ia ib fa fb r w d x n
    | .mzero t _ => .mzero t n
    | c => c
  let put (s : State) (o : Origin) (n : Nat) : State :=
    s.modCore ck (fun c => { c with mx := c.mx.map (fun p => if p.1 = o then (p.1, left p.2 n) else p) })
  let (s, es) := (List.range 8).foldl (fun (x : State × List Activity) t =>
    match x.1.mxHead ck t with
    | some (o, .mloop _ a b _ ia ib fa fb _ _ k cancelled n) =>
      if n = 0 || (cancelled && n == 32) then (x.1, x.2 ++ [.event (.matrixStep ck t)])
      else if x.1.stepBlocked o a b ia ib fa fb k then x
      else (put x.1 o (n - 1), if n = 1 then x.2 ++ [.event (.matrixStep ck t)] else x.2)
    | some (o, .mzero _ n) => (put x.1 o (n - 1), if n ≤ 1 then x.2 ++ [.event (.mzeroCompletion ck t)] else x.2)
    | _ => x) (s, [])
  let due := ((s.coreOf ck).rt.filter (fun p => p.2.started && decide (p.2.left ≤ 1))).map (fun p =>
    Activity.event (.rotationCompletion p.1.team))
  let s := if (s.coreOf ck).rt.isEmpty then s else s.modCore ck (fun c => { c with
    rt := c.rt.map (fun p => if p.2.started then (p.1, { p.2 with left := p.2.left - 1 }) else p) })
  (s, es ++ due)

/-- A group's next issue tried. Does it have to wait, so that the group is not ready (R43, R213): for a handle, a register, the scoreboard, a
fence point, a chunk, or because its team is to be saved? Then with its fence points as the try leaves them (R175). And is it one of
the scalar unit? -/
def tryIssue (s : State) (gk : Nat) : Option (List FencePoint) × Bool :=
  let g := s.group gk
  if g.half.isNone && s.stopsAtBoundary gk then (some g.fences, false)
  else match s.groupStep gk with
    | .next t => (if (t.group gk).stalled then some (t.group gk).fences else none, (t.coreOf (gk / 16)).scalar)
    | _ => (none, false)

/-- One core cycle (R213): of the groups that are ready, the granted ones issue next, in the order of their contexts (log entry 92, DESIGN
CHOICE); ages and the counters of cycles move (R198), and fence points that are satisfied go (R175). -/
def coreCycle (s : State) (ck : Nat) : State :=
  let s := s.modCore ck (fun c => { c with scalar := false, lag := c.lag - 1 })
  let mine := s.groupsOn ck
  let could := mine.filter (fun p => p.2.wait == .ready && p.2.busy == 0)
  let tries := could.map (fun p => (p.1, s.tryIssue p.1))
  let held := tries.filterMap (fun x => x.2.1.map (fun l => (x.1, l)))
  let ready := (tries.filter (fun x => x.2.1.isNone)).map Prod.fst
  let now := s.grants ((tries.filter (fun x => x.2.2)).map Prod.fst) (ready.foldr (fun k l => s.byAge k l) []) [] false
  let s := held.foldl (fun s x => s.modGroup x.1 (fun g => { g with fences := x.2 })) s
  let s := mine.foldl (fun s p => s.modGroup p.1 (fun g =>
    if now.contains p.1 then { g with age := 0 }
    else if ready.contains p.1 then { g with age := g.age + 1 }
    else { g with busy := g.busy - 1, cnt := g.cnt.set 4 (g.cnt.get 4 0 + 1) })) s
  let (s, es) := s.engineCycle ck
  let points := mine.flatMap (fun p => (List.range p.2.fences.length).reverse.filterMap (fun i =>
    match p.2.fences[i]? with
    | some f => if s.pointDone p.2 f then some (Activity.event (.fencePointSatisfied p.1 i)) else none
    | none => none))
  { s with agenda := es ++ points ++ (ready.filter now.contains).map Activity.group ++ s.agenda }

/-- The core cycles of a nanosecond pass on every live die (R15); those of the cores named are still to come. -/
def clockDies (s : State) (cks : List Nat) : State :=
  let t := s.basin.time.toNat
  let s := (List.range 24).foldl (fun s d =>
    if s.live.getLsbD d then s.modDie d (fun x => { x with cycle := x.cycle + s.cyclesIn d t }) else s) s
  cks.foldl (fun s c => s.modCore c (fun x => { x with lag := s.cyclesIn (c / 512) t })) s

/-- What comes up when nothing does (log entry 2, DESIGN CHOICE): the boot, where it has not begun; else a nanosecond, with the core
cycles of the cores that hold groups or engine commands. -/
def idle (s : State) : State :=
  let cks := ((s.groups.filter (fun (p : Nat × Group) => p.2.live)).map (fun (p : Nat × Group) => p.1 / 16)
    ++ (s.cores.filter (fun (c : Nat × Core) => !c.2.mx.isEmpty || !c.2.rt.isEmpty)).map Prod.fst).dedup
  if cks.isEmpty && s.basin.boot == 0 && s.basin.bootFailed.isNone then s.post .packageReset
  else
    let cycles := cks.flatMap (fun c => List.replicate (s.cyclesIn (c / 512) s.basin.time.toNat) (Activity.cycle c))
    State.post { s.clockDies cks with agenda := cycles } .timeCounterTick

/-! ### Activities -/

/-- An event or command, not an instruction of a core or a Henat word. -/
def isEvent (e : Instr) : Bool := (encodeCore e).isNone && (henatFieldsOf e).isNone

/-- The next word of an open collective's body (R276). -/
def lockStep (s : State) (n : Nat) : Res :=
  match s.collOf n with
  | none => .next s
  | some c => if s.bodyDue c then exec c.instr { s with curColl := n } else .next s

/-- An activity. -/
def act (s : State) (a : Activity) : Res :=
  match a with
  | .group k => s.groupStep k
  | .cycle ck => .next (s.coreCycle ck)
  | .event e => if isEvent e then exec e s else .next s
  | .control d fn => .next (s.controlStep d fn)
  | .lock n => s.lockStep n
  | .flit d q n => .next (s.arriveFlit d q n)
  | .release d c => .next (s.releaseArrives d c)
  | .latched d c r => .next (s.showResult d c r)
  | .bidEnd d k h w => .next (s.bidEnds d k h w)
  | .result n d e => .next (s.resultArrives n d e)
  | .host d f va x => .next (s.hostAccess d f va x)
  | .packet port p => .next (s.takePacket port p)
  | .port u => .next (s.reachPort u)
  | .netDone u => .next (s.netDone u)
  | .count u => .next (s.countArrives u)
  | .reply port bs => .next (s.sendAnswer port bs)
  | .stored _ k t => .next (s.storeAccepted k t)
  | .opened _ o w => .next (s.completeOp o w 0)
  | .written u k h => .next (s.chunkWritten u k h)
  | .counted c a => .next (s.counted c a)
  | .failed d f a bs => .next (s.failArrives d f a bs)
  | .image => .next s.imageArrives
  | .settled k n => .next (s.answerSettled k n)

/-- What a frozen package still admits (R344): the reset and the read-out. -/
def thawed (a : Activity) : Bool := a == .event .packageReset || a == .event .scanReadOut

/-- One step: the first activity of the agenda; with none, what comes up next. -/
def advanceOne (s : State) : Res :=
  match s.agenda with
  | [] => if s.basin.frozen then .fault .frozen else .next s.idle
  | a :: r => if s.basin.frozen && !thawed a then .fault .frozen else State.act { s with agenda := r } a

/-! ### Placing one instruction where the next step fetches it (log entry 1, DESIGN CHOICE) -/

/-- A word placed for a group: the physical function of die 0 with one page of 1 GiB, a group of eight lanes with one plane on
core 0 whose next offset holds the word, and that group the next to act. -/
def placeCore (s : State) (w : Nat) : State :=
  let m := Memory.writeNat (Memory.writeNat (Memory.writeNat s.mem (dieLoc 0 0x1000) 8 0x2001) (dieLoc 0 0x2000) 8 551) (dieLoc 0 0x3000) 4 w
  { s with
    mem := m
    fencedPages := s.fencedPages.filter (fun p => !decide (p < 2 ^ 18))
    fns := s.fns.set 0 { s.fnOf 0 with cfg := { (s.fnOf 0).cfg with root := 0x1000 } }
    cores := s.cores.set 0 { s.coreOf 0 with tlb := [] }
    dies := s.dies.set 0 { s.die 0 with tlb2 := [] }
    teams := s.teams.set 0 { live := true, groups := [0], lsSize := 589824, gen := 1 }
    groups := s.groups.set 0 { live := true, codeBase := 0x3000, stride := 256, exec := 0xFF }
    agenda := [.group 0], cur := 0, basin := { s.basin with frozen := false } }

/-- A Henat word placed as the first word of the body of an open collective, which acts next. -/
def placeHenat (s : State) (w : Nat) : State :=
  let c : Coll := { tenant := 0, slot := 0, endpoint := false, fixed := true, program := 0, bank := false, words := [BitVec.ofNat 64 w],
                    masks := [0, 0, 0, 0], parts := 0, window := 256, root := 0, lock := 0, order := 0, bindings := [], openers := [],
                    counts := [], next := 0, stage := [], pc := 0, acc := [], outs := [], waiting := none, fwde := 0 }
  { s with agenda := [.lock 0], curColl := 0, basin := { s.basin with frozen := false, colls := s.basin.colls.set 0 c } }

end State

end Sys2Proof.Machine
end

