-- ==== Sys2Proof/Machine/Step.lean ====
section
/-! DEFINITION. One step of the package, and a word placed where the next step fetches it. -/

namespace Sys2Proof.Machine

open Sys2Proof

/-- One step (log entry 2). -/
def step (s : State) : Host.Outcome State Fault Refusal := s.advanceOne

/-- The state with one instruction placed where the next step fetches it (log entry 1): words of up to 32 bits for a group of a
core, longer ones for the body of a collective. -/
def State.withFetchWord (s : State) (nbits w : Nat) : State :=
  if nbits ≤ 32 then s.placeCore w else s.placeHenat w

end Sys2Proof.Machine
end

