-- ==== Sys2Proof/Safety.lean ====
section
/-! DEFINITION. What claims mean by a safe run and by the machine's invariant, and the words they use for what an
instruction leaves: nothing but the acting group, one result (R40, R51, R73, R75), predicates, elements as numbers, traps,
commands and accesses accepted, Henat elements; and the manual's tables of instructions of one shape. -/

namespace Sys2Proof

open Sys2Proof.Machine

/-- A number of steps from a state ends in a next state, without fault or refusal. -/
def Safe (n : Nat) (s : State) : Prop :=
  match n with
  | 0 => True
  | k + 1 => match step s with
    | .next t => Safe k t
    | _ => False

/-- The invariant that every step keeps: the canonical form of memory. -/
def Inv (s : State) : Prop := Memory.wf s.mem = true

/-! ### Frames -/

/-- Nothing differs but the acting group's record and the issue: every other group, the teams, cores, functions, the
special state and every byte of memory are as before. -/
def GroupOnly (s t : State) : Prop :=
  t = { s with groups := t.groups, iss := t.iss } ∧ (∀ k, k ≠ s.cur → t.group k = s.group k) ∧
    ∀ a, Memory.read t.mem a = Memory.read s.mem a

/-- Nothing of the acting group differs but its V and S registers. -/
def RegsOnly (s t : State) : Prop := GroupOnly s t ∧ t.g = { s.g with v := t.g.v, s := t.g.s }

/-- The S registers are as before, but for the number or pair written where `d` is an S code. -/
def SWritten (s t : State) (d : Operand) (wide : Bool) (x : DWord) : Prop :=
  ∀ r, t.g.sr r = match d with
    | .s n => if r = n.val then x.extractLsb' 0 32 else if wide ∧ r = n.val + 1 then x.extractLsb' 32 32 else s.g.sr r
    | _ => s.g.sr r

/-- The V registers are as before, but in the lanes of a mask those written where `d` is a V code. -/
def VWritten (s t : State) (d : Operand) (wide : Bool) (m : DWord) (x : Nat → DWord) : Prop :=
  ∀ r l, l < 64 → t.g.vr r l = match d with
    | .v n =>
      if m.getLsbD l = false then s.g.vr r l
      else if r = n.val then (x l).extractLsb' 0 32
      else if wide ∧ r = n.val + 1 then (x l).extractLsb' 32 32
      else s.g.vr r l
    | _ => s.g.vr r l

/-- What a lane result leaves for the latches (R40): in the issue's lanes the coming L0 is the result where guarded and
zero elsewhere, and the offset has a lane result if the issue has a lane. -/
def LatchTaken (s t : State) (x : Nat → DWord) : Prop :=
  t.iss = { s.iss with l0 := t.iss.l0, res := s.iss.res || s.iss.mask != 0 } ∧
    ∀ l, l < 64 → t.iss.l0.get l 0 =
      if s.iss.mask.getLsbD l = false then s.iss.l0.get l 0
      else if s.guarded.getLsbD l then (x l).extractLsb' 0 32 else 0

/-- A scalar-class result: D takes the value of lane 0's place, and no latch is concerned (R51, R73). -/
def ScalarWritten (s t : State) (d : Operand) (wide : Bool) (x : DWord) : Prop :=
  RegsOnly s t ∧ t.iss = s.iss ∧ SWritten s t d wide x ∧ t.g.v = s.g.v

/-- A vector result: with W = 0 the guarded lanes of D take their values, and the latches take theirs (R40, R75). -/
def LaneWritten (s t : State) (w : Bool) (d : Operand) (wide : Bool) (x : Nat → DWord) : Prop :=
  RegsOnly s t ∧ LatchTaken s t x ∧ t.g.s = s.g.s ∧ VWritten s t d wide (if w then 0 else s.guarded) x

/-- The result of an instruction by its class (R51). -/
def Written (s t : State) (w : Bool) (d : Operand) (wide : Bool) (x : Nat → DWord) : Prop :=
  if w = false ∧ d.isS = true then ScalarWritten s t d wide (x 0) else LaneWritten s t w d wide x

/-- Predicates: in the guarded lanes of the issue D takes its bits, unless it is P7; all else is as before. -/
def PredWritten (s t : State) (d : Operand) (f : Nat → Bool) : Prop :=
  GroupOnly s t ∧ t.iss = s.iss ∧ t.g = { s.g with p := t.g.p } ∧
    ∀ n l, t.g.pred n l =
      if d = .p (Fin.ofNat 8 n) ∧ n < 7 ∧ s.guarded.getLsbD l then f l else s.g.pred n l

/-! ### Elements as numbers (R74, R100) -/

/-- Width of an element of MODE.ITYPE (R74). -/
def elemWidth (itype : Nat) : Nat :=
  match itype with
  | 0 => 32
  | 1 => 16
  | 2 => 8
  | _ => 64

/-- Number of elements that an instruction works on (R74). -/
def elemCount (itype : Nat) : Nat :=
  match itype with
  | 1 => 2
  | 2 => 4
  | _ => 1

/-- Element `e` of width `n`, as an unsigned number. -/
def elemNat (n : Nat) (x : DWord) (e : Nat) : Nat := x.toNat / 2 ^ (n * e) % 2 ^ n

/-- A number below 2^n as a signed one. -/
def toSigned (n x : Nat) : Int := if 2 * x < 2 ^ n then (x : Int) else (x : Int) - 2 ^ n

/-- An integer modulo 2^n. -/
def wrapInt (n : Nat) (x : Int) : Nat := (x % (2 ^ n : Nat)).toNat

/-- Is the shift count at or above the width? Then zeros, else the value given (R75). -/
def cutShift (n y v : Nat) : Nat := if n ≤ y then 0 else v

/-- The right shift with sign fill (R75). -/
def signShift (n x y : Nat) : Nat :=
  if n ≤ y then (if toSigned n x < 0 then 2 ^ n - 1 else 0) else wrapInt n (toSigned n x / 2 ^ y)

/-- R75's table: opcode, W, D, A, B, and the result of the elements x and y of width n with the addend c. -/
def intBinary (i : Instr) : Option (BitVec 7 × Bool × Operand × Operand × Operand × (Nat → Nat → Nat → Nat → Nat)) :=
  match i with
  | .iadd w d a b => some (0x20, w, d, a, b, fun n x y _ => (x + y) % 2 ^ n)
  | .isub w d a b => some (0x21, w, d, a, b, fun n x y _ => wrapInt n ((x : Int) - y))
  | .imul w d a b => some (0x22, w, d, a, b, fun n x y _ => x * y % 2 ^ n)
  | .imulh w d a b => some (0x23, w, d, a, b, fun n x y _ => wrapInt n (toSigned n x * toSigned n y / 2 ^ n))
  | .imulhn w d a b => some (0x24, w, d, a, b, fun n x y _ => x * y / 2 ^ n)
  | .imad w d a b => some (0x25, w, d, a, b, fun n x y c => (c + x * y) % 2 ^ n)
  | .iand w d a b => some (0x26, w, d, a, b, fun _ x y _ => x &&& y)
  | .ior w d a b => some (0x27, w, d, a, b, fun _ x y _ => x ||| y)
  | .ixor w d a b => some (0x28, w, d, a, b, fun _ x y _ => x ^^^ y)
  | .ishl w d a b => some (0x29, w, d, a, b, fun n x y _ => cutShift n y (x * 2 ^ y % 2 ^ n))
  | .ishr w d a b => some (0x2A, w, d, a, b, fun n x y _ => cutShift n y (x / 2 ^ y))
  | .isar w d a b => some (0x2B, w, d, a, b, fun n x y _ => signShift n x y)
  | .imin w d a b => some (0x2C, w, d, a, b, fun n x y _ => if toSigned n x ≤ toSigned n y then x else y)
  | .imax w d a b => some (0x2D, w, d, a, b, fun n x y _ => if toSigned n x ≤ toSigned n y then y else x)
  | .iminn w d a b => some (0x2E, w, d, a, b, fun _ x y _ => min x y)
  | .imaxn w d a b => some (0x2F, w, d, a, b, fun _ x y _ => max x y)
  | _ => none

/-- The number of leading zeros of an element (R77). -/
def leadingZeros (n x : Nat) : Nat := if x = 0 then n else n - 1 - Nat.log2 x

/-- Sign extension of the low `k` bits, where the element is wider (R77). -/
def sextNat (k n x : Nat) : Nat := if n ≤ k then x else wrapInt n (toSigned k (x % 2 ^ k))

/-- R77's table: function code, W, D, A, and the result of the element x of width n. -/
def intUnary (i : Instr) : Option (BitVec 8 × Bool × Operand × Operand × (Nat → Nat → Nat)) :=
  match i with
  | .inot w d a => some (0, w, d, a, fun n x => 2 ^ n - 1 - x)
  | .ineg w d a => some (1, w, d, a, fun n x => wrapInt n (-(x : Int)))
  | .iabs w d a => some (2, w, d, a, fun n x => if toSigned n x < 0 then wrapInt n (-(x : Int)) else x)
  | .popc w d a => some (3, w, d, a, fun n x => ((List.range n).filter (fun k => x.testBit k)).length)
  | .clz w d a => some (4, w, d, a, fun n x => leadingZeros n x)
  | .brev w d a => some (5, w, d, a, fun n x => ((List.range n).map (fun k => if x.testBit k then 2 ^ (n - 1 - k) else 0)).sum)
  | .sext8 w d a => some (6, w, d, a, fun n x => sextNat 8 n x)
  | .sext16 w d a => some (7, w, d, a, fun n x => sextNat 16 n x)
  | _ => none

/-- R76's table: opcode, W, D, A, the immediate, and the result of the element x of width n. -/
def intImmediate (i : Instr) : Option (BitVec 7 × Bool × Operand × Operand × BitVec 8 × (Nat → Nat → Nat)) :=
  match i with
  | .iaddi w d a k => some (0x31, w, d, a, k, fun n x => wrapInt n ((x : Int) + k.toInt))
  | .ishli w d a k => some (0x32, w, d, a, k, fun n x => cutShift n k.toNat (x * 2 ^ k.toNat % 2 ^ n))
  | .ishri w d a k => some (0x33, w, d, a, k, fun n x => cutShift n k.toNat (x / 2 ^ k.toNat))
  | .isari w d a k => some (0x34, w, d, a, k, fun n x => signShift n x k.toNat)
  | .iandi w d a k => some (0x35, w, d, a, k, fun _ x => x &&& k.toNat)
  | _ => none

/-- R79's table of the integer relations: opcode, D, A, B, and the relation of the elements x and y of width n. -/
def intCompare (i : Instr) : Option (BitVec 7 × Operand × Operand × Operand × (Nat → Nat → Nat → Prop)) :=
  match i with
  | .icmpeq d a b => some (0x40, d, a, b, fun _ x y => x = y)
  | .icmpne d a b => some (0x41, d, a, b, fun _ x y => x ≠ y)
  | .icmplt d a b => some (0x42, d, a, b, fun n x y => toSigned n x < toSigned n y)
  | .icmple d a b => some (0x43, d, a, b, fun n x y => toSigned n x ≤ toSigned n y)
  | .icmpltn d a b => some (0x44, d, a, b, fun _ x y => x < y)
  | .icmplen d a b => some (0x45, d, a, b, fun _ x y => x ≤ y)
  | _ => none

/-- R80's table: opcode, D, A, B, and the operation. -/
def predicateOp (i : Instr) : Option (BitVec 7 × Operand × Operand × Operand × (Bool → Bool → Bool)) :=
  match i with
  | .pand d a b => some (0x4B, d, a, b, fun x y => x && y)
  | .por d a b => some (0x4C, d, a, b, fun x y => x || y)
  | .pxor d a b => some (0x4D, d, a, b, fun x y => x ^^ y)
  | .pandn d a b => some (0x4E, d, a, b, fun x y => x && !y)
  | _ => none

/-! ### Henat words (R281) -/

/-- A Henat instruction whose window and port a reload admits. -/
def henatWf (i : Instr) : Bool :=
  match i with
  | .henatMatch _ win _ => win != 3
  | .henatLoad _ _ port win _ | .henatAdd _ _ port win _ | .henatMax _ _ port win _ | .henatMin _ _ port win _
  | .henatGath _ port win _ _ => decide (port.toNat ≤ 41) && win != 3
  | .henatFwde _ _ port win _ => decide (24 ≤ port.toNat) && decide (port.toNat ≤ 39) && win != 3
  | _ => true

/-! ### Floating elements (R79, R90, R92, R100 to R104) -/

/-- The rational that a finite value stands for. -/
def ratOf (v : Val) : ℚ :=
  match v with
  | .fin s m e => (if s then -1 else 1) * (m : ℚ) * (2 : ℚ) ^ e
  | _ => 0

/-- The order of values: none with a NaN, −∞ below and +∞ above every finite value, which stand as rationals (R79). -/
def Less (x y : Val) : Prop :=
  match x, y with
  | .nan, _ | _, .nan => False
  | .inf s, .inf t => s = true ∧ t = false
  | .inf s, .fin _ _ _ => s = true
  | .fin _ _ _, .inf t => t = false
  | x, y => ratOf x < ratOf y

/-- Equal as values: −0 equals +0, a NaN equals nothing (R79). -/
def Same (x y : Val) : Prop := x ≠ .nan ∧ y ≠ .nan ∧ ¬ Less x y ∧ ¬ Less y x

/-- R79's table of the floating relations: opcode, D, A, B, and the relation of the values. -/
def fltCompare (i : Instr) : Option (BitVec 7 × Operand × Operand × Operand × (Val → Val → Prop)) :=
  match i with
  | .fcmpeq d a b => some (0x46, d, a, b, Same)
  | .fcmpne d a b => some (0x47, d, a, b, fun x y => ¬ Same x y)
  | .fcmplt d a b => some (0x48, d, a, b, Less)
  | .fcmple d a b => some (0x49, d, a, b, fun x y => Less x y ∨ Same x y)
  | .fcmpun d a b => some (0x4A, d, a, b, fun x y => x = .nan ∨ y = .nan)
  | _ => none

/-- Is the first of two encodings the lesser, −0 standing below +0 (R101)? -/
def firstLess (f : Fmt) (x y : Nat) : Bool :=
  (f.value x).lt (f.value y) || ((f.value x).isZero && (f.value y).isZero && f.neg x)

/-- R100, R101 and R103: opcode, W, D, A, B, and the result of the encodings x and y with the addend c. -/
def fltBinary (i : Instr) : Option (BitVec 7 × Bool × Operand × Operand × Operand × (Fmt → Rnd → Bool → Nat → Nat → Nat → Nat)) :=
  match i with
  | .fadd w d a b => some (0x50, w, d, a, b, fun f r sat x y _ => roundFmt ((f.value x).add r (f.value y)) f r sat)
  | .fsub w d a b => some (0x51, w, d, a, b, fun f r sat x y _ => roundFmt ((f.value x).add r (f.value y).negate) f r sat)
  | .fmul w d a b => some (0x52, w, d, a, b, fun f r sat x y _ => roundFmt ((f.value x).mul (f.value y)) f r sat)
  | .ffma w d a b => some (0x53, w, d, a, b, fun f r sat x y c =>
      roundFmt ((f.value c).add r ((f.value x).mul (f.value y))) f r sat)
  | .fmin w d a b => some (0x54, w, d, a, b, fun f _ _ x y _ =>
      if (f.value x).isNan || (f.value y).isNan then f.nan.getD 0 else if firstLess f x y then x else y)
  | .fmax w d a b => some (0x55, w, d, a, b, fun f _ _ x y _ =>
      if (f.value x).isNan || (f.value y).isNan then f.nan.getD 0 else if firstLess f y x then x else y)
  | .fscale w d a b => some (0x58, w, d, a, b, fun f r sat x y _ => roundFmt ((f.value x).scale (toSigned f.bits y)) f r sat)
  | _ => none

/-- R102 and R104: opcode, function code, W, D, A, and the result of the encoding x. -/
def fltUnary (i : Instr) : Option (BitVec 7 × BitVec 8 × Bool × Operand × Operand × (Fmt → Rnd → Bool → Nat → Nat)) :=
  match i with
  | .fabs w d a => some (0x56, 0, w, d, a, fun f _ _ x => if (f.value x).isNan then f.nan.getD 0 else x % 2 ^ (f.bits - 1))
  | .fneg w d a => some (0x56, 1, w, d, a, fun f _ _ x =>
      if (f.value x).isNan then f.nan.getD 0 else (x + 2 ^ (f.bits - 1)) % 2 ^ f.bits)
  | .frcp w d a => some (0x56, 2, w, d, a, frcpBits)
  | .frsq w d a => some (0x56, 3, w, d, a, frsqBits)
  | .fsqrt w d a => some (0x56, 4, w, d, a, fsqrtBits)
  | .fexp2 w d a => some (0x56, 5, w, d, a, fexp2Bits)
  | .flog2 w d a => some (0x56, 6, w, d, a, flog2Bits)
  | .ffloor w d a => some (0x56, 7, w, d, a, fun f _ _ x => fintBits f .rdn x)
  | .fceil w d a => some (0x56, 8, w, d, a, fun f _ _ x => fintBits f .rup x)
  | .ftrunc w d a => some (0x56, 9, w, d, a, fun f _ _ x => fintBits f .rtz x)
  | .frint w d a => some (0x56, 10, w, d, a, fun f r _ x => fintBits f r x)
  | .fclass w d a => some (0x59, 0, w, d, a, fun f _ _ x => fclassCode f x)
  | _ => none

/-- A rational rounded to an integer (R92). -/
def intRounded (r : Rnd) (v : ℚ) : Int :=
  match r with
  | .rdn => ⌊v⌋
  | .rup => ⌈v⌉
  | .rtz => if v < 0 then ⌈v⌉ else ⌊v⌋
  | .rna => if v < 0 then ⌈v - 1 / 2⌉ else ⌊v + 1 / 2⌋
  | .rne => if v - ⌊v⌋ < 1 / 2 ∨ (v - ⌊v⌋ = 1 / 2 ∧ ⌊v⌋ % 2 = 0) then ⌊v⌋ else ⌊v⌋ + 1

/-- A rational held to an integer type's range (R106). -/
def heldTo (bits : Nat) (signed : Bool) (n : Int) : Int :=
  if signed then max (-2 ^ (bits - 1)) (min n (2 ^ (bits - 1) - 1)) else max 0 (min n (2 ^ bits - 1))

/-- The formats that MODE.FTYPE names (R69). -/
def elementFormats : List Fmt := [.f32, .bf16, .f16, .e4m3, .e5m2]

/-- Step n of R92's set of magnitudes of a format: as if the exponent range had no upper limit, every binade with every mantissa. -/
def stepOf (f : Fmt) (n : Nat) : ℚ :=
  if n < 2 ^ f.man then n * (2 : ℚ) ^ (1 - (f.bias : Int) - f.man)
  else (2 ^ f.man + n % 2 ^ f.man : Nat) * (2 : ℚ) ^ ((n / 2 ^ f.man : Nat) - (f.bias : Int) - f.man)

/-- R92, step 2: the step of a format's set that a rounding mode chooses for a number, of the two that its magnitude lies between. A
step's lowest mantissa bit is the parity of its index. -/
def Chooses (f : Fmt) (r : Rnd) (v : ℝ) (n : Nat) : Prop :=
  let at' (k : Nat) : ℝ := ((stepOf f k : ℚ) : ℝ)
  at' n = |v| ∨ ∃ k, at' k < |v| ∧ |v| < at' (k + 1) ∧ (n = k ∨ n = k + 1) ∧
    let near := |v| - at' k < at' (k + 1) - |v|
    let tie := |v| - at' k = at' (k + 1) - |v|
    match r with
    | .rne => if tie then n % 2 = 0 else (n = k ↔ near)
    | .rna => n = k ↔ near
    | .rtz => n = k
    | .rup => n = k ↔ v < 0
    | .rdn => n = k ↔ 0 < v

/-- R92's table of overflow and step 4: with SAT, in E2M1 and where the mode keeps to the finite side the largest finite value, else
infinity, or the NaN of a format without one. -/
def overflowOf (f : Fmt) (sat : Bool) (finite : List (Rnd × Bool)) (r : Rnd) (neg : Bool) : Nat :=
  if sat = true ∨ f = .e2m1 ∨ (r, neg) ∈ finite then f.withSign neg f.maxEnc
  else if f.hasInf then f.withSign neg (f.maxEnc + 1)
  else f.nan.getD 0

/-- What R92 delivers for a step of the set and a sign. -/
def delivered (f : Fmt) (r : Rnd) (sat neg : Bool) (n : Nat) : Nat :=
  if n ≤ f.maxEnc then f.withSign neg n else overflowOf f sat [(.rtz, false), (.rtz, true), (.rup, true), (.rdn, false)] r neg

/-- R92 for a finite number and its sign: the encoding that `round_fmt` delivers. -/
def RoundsTo (f : Fmt) (r : Rnd) (sat neg : Bool) (v : ℝ) (y : Nat) : Prop := ∃ n, Chooses f r v n ∧ y = delivered f r sat neg n

/-- The rounding of a number wherever it is the same for all numbers within a 2^(−50) part of it. -/
def RoundsNear (f : Fmt) (r : Rnd) (sat neg : Bool) (v : ℝ) (y : Nat) : Prop :=
  ∀ n, Chooses f r (v * (1 - 2 ^ (-50 : Int))) n → Chooses f r (v * (1 + 2 ^ (-50 : Int))) n → y = delivered f r sat neg n

/-- The value of an element of an integer type (R90). -/
def intOf (bits : Nat) (signed : Bool) (x : Nat) : Int :=
  if signed = true ∧ 2 ^ (bits - 1) ≤ x then (x : Int) - 2 ^ bits else x

/-! ### Reductions (R133) -/

/-- R133's tree over 2^k lanes: the lower half combined with the upper half. -/
def pairTree {α : Type} (f : α → α → α) (k : Nat) (t : Nat → α) : α :=
  match k with
  | 0 => t 0
  | j + 1 => f (pairTree f j t) (pairTree f j (fun l => t (l + 2 ^ j)))

/-- R133's integer functions: function code, W, D, A, the combination and the identity at width n. -/
def redInteger (i : Instr) : Option (BitVec 8 × Bool × Operand × Operand × (Nat → Nat → Nat → Nat) × (Nat → Nat)) :=
  match i with
  | .rediadd w d a => some (0, w, d, a, fun n x y => (x + y) % 2 ^ n, fun _ => 0)
  | .redimax w d a => some (1, w, d, a, fun n x y => if toSigned n x ≤ toSigned n y then y else x, fun n => 2 ^ (n - 1))
  | .redimin w d a => some (2, w, d, a, fun n x y => if toSigned n x ≤ toSigned n y then x else y, fun n => 2 ^ (n - 1) - 1)
  | .redimaxn w d a => some (3, w, d, a, fun _ x y => max x y, fun _ => 0)
  | .rediminn w d a => some (4, w, d, a, fun _ x y => min x y, fun n => 2 ^ n - 1)
  | _ => none

/-- The combination of REDFMAX and REDFMIN: an absent lane leaves the other operand unchanged (R133). -/
def orOther (f : Nat → Nat → Nat) (x y : Option Nat) : Option Nat :=
  match x, y with
  | some p, some q => some (f p q)
  | some p, none => some p
  | none, q => q

/-! ### Control (R30, R33, R71, R107, R119 to R122) -/

/-- Nothing but the offset of the acting group differs: it has been set, and does not advance by itself. -/
def Jumped (s t : State) (o : Off) : Prop :=
  GroupOnly s t ∧ t.iss = { s.iss with moved := true } ∧ t.g = { s.g with offset := o }

/-- A value that MODE may hold (R59, R69). -/
def modeLegal (m : Word) : Prop :=
  m.toNat / 2 ^ 28 = 0 ∧ m.toNat / 2 ^ 24 % 8 ≤ 4 ∧ m.toNat / 2 ^ 20 % 16 ≤ 9 ∧ m.toNat / 2 ^ 16 % 16 ≤ 9 ∧
    m.toNat / 2 ^ 11 % 8 ≤ 4 ∧ m.toNat / 2 ^ 8 % 8 ≤ 4

/-- The branch decision (R107): BP is P7, or some lane of the issue has P[BP]. -/
def branchDecision (s : State) : Prop :=
  modeBp s.g.mode = 7 ∨ ∃ l, s.iss.mask.getLsbD l = true ∧ s.g.pred (modeBp s.g.mode) l = true

/-- The group may enter its handler at once: its launch names one, it is not in handler state (R123, R126), and no lane
record waits to be written (R127). -/
def canTrap (s : State) (h : Off) : Prop := s.g.handler = some h ∧ s.g.frame = none ∧ s.g.recs = []

/-- A precise trap has been taken at handler offset `h` (R119 to R122): the frame holds the control state, X0 to X7 have the
layout of R61, the latches are invalid, the handler's own nest counters and join stack are empty, and nothing else changes. -/
def TrapTaken (s t : State) (h : Off) (kind field x7hi : Nat) (mask : DWord) : Prop :=
  GroupOnly s t ∧ t.iss = { s.iss with moved := true, trapped := true } ∧
  t.g = { s.g with
    frame := some ⟨s.g.offset, s.g.exec, s.g.nest, s.g.plane, s.g.joins⟩, x := t.g.x, latValid := 0, nest := [], joins := [],
    offset := h, faults := none, pendX := [], dying := false, recs := [], replays := [], wait := .ready } ∧
  let low := State.lowPlane s.iss.planes
  let address := s.g.codeBase.toNat + low * s.g.stride.toNat + 4 * s.g.offset.toNat
  t.g.x.get 0 0 = BitVec.ofNat 32 (kind * 2 ^ 24 + field * 2 ^ 8 + s.iss.word.toNat / 2 ^ 25) ∧
  t.g.x.get 1 0 = BitVec.ofNat 32 (s.iss.word.toNat % 2 ^ 25) ∧
  t.g.x.get 2 0 = s.g.offset.setWidth 32 ∧
  t.g.x.get 3 0 = mask.extractLsb' 0 32 ∧
  t.g.x.get 4 0 = mask.extractLsb' 32 32 ∧
  t.g.x.get 5 0 = BitVec.ofNat 32 address ∧
  t.g.x.get 6 0 = BitVec.ofNat 32 (address / 2 ^ 32 % 2 ^ 16) ∧
  t.g.x.get 7 0 = BitVec.ofNat 32 (x7hi * 2 ^ 16 + s.iss.planes.toNat * 2 ^ 8 + low)

/-- A trap is being taken whose records are still to be written (R127, R128); `last`: it ends the team. -/
def trapPending (s : State) (xs : List Word) (last : Bool) (recs : List (Nat × Nat × Nat)) : State :=
  s.setG { s.g with pendX := xs, dying := last, recs := recs, replays := [] }

/-- Nothing of the acting group differs but its planes (R115, R116). -/
def PlanesSet (s t : State) (f : Nat → BitVec 3) : Prop :=
  GroupOnly s t ∧ t.iss = s.iss ∧ t.g = { s.g with plane := t.g.plane } ∧ ∀ l, t.g.plane.get l 0 = f l

/-! ### A group's next offset (R26, R58) -/

/-- A group acts next and begins an offset: it is ready, its forward run has no parked lane and no pop due, and its team is not to be
saved. -/
def begins (s : State) (k : Nat) (rest : List Activity) : Prop :=
  let g := s.group k
  s.basin.frozen = false ∧ s.agenda = .group k :: rest ∧ g.live = true ∧ g.wait = .ready ∧ g.half = none ∧ g.replays = [] ∧
    g.parked = 0 ∧ (∀ j ∈ g.joins.head?, j.join ≠ g.offset) ∧ s.stopsAtBoundary k = false

/-- The state in which that group fetches. -/
def atFetch (s : State) (k : Nat) (rest : List Activity) : State :=
  let g := s.group k
  { State.modG { s with agenda := rest, cur := k } (fun g => { g with stalled := false }) with
    iss := { ({} : Issue) with here := g.offset, union := g.enabled } }

/-- The state with the issue that a check of R58 has found at fault. -/
def checkedAt (s : State) (w : Word) (planes : BitVec 8) (mask : DWord) : State :=
  { s with iss := { ({} : Issue) with mask := mask, planes := planes, word := w, here := s.g.offset } }

/-! ### Engine commands (R222, R231) -/

/-- Nothing keeps a command of a path waiting but its queue: no fence point holds the path, the operation-table entry is free,
and the range scoreboard has room for its ranges (R231). -/
def engineFree (s : State) (path need : Nat) : Prop :=
  s.fenceHeld path = false ∧ (s.team.ops.get (s.team.opCount.toNat % 128) {}).pending = false ∧
    (s.coreOf s.g.ckey).score.length + need ≤ 32

/-- An engine command of a class has been accepted: its handle (R222) stands in H[n], the operation-table entry is pending,
and of the group, the other groups and memory nothing else differs. -/
def Accepted (s t : State) (cls : Nat) (n : Fin 8) (o : Origin) : Prop :=
  let h : Word := BitVec.ofNat 32 (cls * 2 ^ 28 + s.team.gen.toNat * 2 ^ 16 + s.team.opCount.toNat)
  o = { die := s.g.die, core := s.g.core, team := s.g.team, group := s.g.index, gkey := s.cur, handle := h, offset := s.iss.here } ∧
  t.iss = s.iss ∧ t.g = { s.g with h := t.g.h } ∧ (∀ k, t.g.h.get k 0 = if k = n.val then h else s.g.h.get k 0) ∧
  (∀ k, k ≠ s.cur → t.group k = s.group k) ∧ t.team.opCount = s.team.opCount + 1 ∧
  (∀ k, t.team.ops.get k {} = if k = s.team.opCount.toNat % 128 then { handle := h, pending := true, gkey := s.cur } else s.team.ops.get k {}) ∧
  (∀ j, j ≠ s.g.team → t.teamOf j = s.teamOf j) ∧ t.mem = s.mem

/-! ### Faults of lanes and of scalar-class accesses (R127, R128, R159) -/

/-- Lanes of the issue fault, in the order given, or a scalar-class access does: each gets a record of its kind and address at its
place in the fault block, and the trap of kind 0x19 will name the lanes, with those that faulted before. -/
def FaultsTaken (s t : State) (scalar : Bool) (ls : List Nat) (kind addr : Nat → Nat) : Prop :=
  let record (l : Nat) : Nat × Nat × Nat :=
    (if scalar then 1088 else 16 * l, 16, addr l * 2 ^ 64 + s.iss.here.toNat * 2 ^ 32 + kind l * 2 ^ 24 + s.iss.word.toNat / 2 ^ 25 * 2 ^ 16 +
      (if scalar then 255 else l) * 2 ^ 8 + (if scalar then State.lowPlane s.iss.planes else (s.g.plane.get l 0).toNat))
  t.g.recs = s.g.recs ++ ls.map record ∧ (ls = [] → t.g.faults = s.g.faults) ∧
  (ls ≠ [] → ∃ f, t.g.faults = some f ∧
    (∀ l, l < 64 → f.lanes.getLsbD l = ((!scalar && ls.contains l) || (s.g.faults.any (fun f => f.lanes.getLsbD l)))) ∧
    (s.g.faults = none → f.word = s.iss.word ∧ f.here = s.iss.here ∧ f.planes = s.iss.planes ∧
      (scalar = true → ∀ l, ls = [l] → f.addr = BitVec.ofNat 64 (addr l))))

/-! ### Memory accesses (R136, R142, R148, R157) -/

/-- Of the acting group nothing differs but its time, and where an access has failed its records and faults (R127, R136). -/
def AccessOnly (s t : State) : Prop :=
  t.iss = s.iss ∧ (∀ k, k ≠ s.cur → t.group k = s.group k) ∧
    t.g = { s.g with busy := t.g.busy, recs := t.g.recs, faults := t.g.faults }

/-- Is a lane's access to the local store inside the team's allocation (R136)? -/
def localInside (s : State) (a : Operand) (i : BitVec 8) (l : Nat) : Bool :=
  decide (0 ≤ s.localAddr a i (modeBytes s.g.mode) l) && decide (s.localAddr a i (modeBytes s.g.mode) l + modeBytes s.g.mode ≤ s.team.lsSize)

/-- Does it pass R136: inside, and aligned? -/
def localPasses (s : State) (a : Operand) (i : BitVec 8) (l : Nat) : Bool :=
  localInside s a i l && decide (s.localAddr a i (modeBytes s.g.mode) l % modeBytes s.g.mode = 0)

/-- The lanes of an access to the local store that do not pass R136 fault: kind 0x01 outside, else 0x03, with the address of R136. -/
def LocalFaults (s t : State) (scalar : Bool) (ls : List Nat) (a : Operand) (i : BitVec 8) : Prop :=
  FaultsTaken s t scalar (ls.filter (fun l => !localPasses s a i l)) (fun l => if localInside s a i l then 3 else 1)
    (fun l => wrapInt 64 (s.localAddr a i (modeBytes s.g.mode) l))

/-- The byte in the local store that a lane's access begins at. -/
def localPlace (s : State) (a : Operand) (i : BitVec 8) (l : Nat) : Nat :=
  s.lsLoc (s.localAddr a i (modeBytes s.g.mode) l).toNat

/-- Lanes whose accesses of `n` bytes have no byte in common. -/
def apart (n x y : Nat) : Prop := x + n ≤ y ∨ y + n ≤ x

/-- A new load of the acting group stands behind the others, and its data come up (R142). -/
def LoadMade (s t : State) (scalar : Bool) (dst : Nat) (parts : List LoadPart) : Prop :=
  ∃ u, t.loads = s.loads ++ [⟨u, s.cur, s.g.team, s.g.die, s.g.core, s.g.fn, modeBytes s.g.mode, s.g.mode, scalar, dst, parts,
    s.iss.run != 0, s.iss.word, s.iss.here, s.iss.planes⟩] ∧
    Activity.event (.loadDataReturn u) ∈ t.agenda

/-- The lanes of an LDLF, STLE or LDLP (R139, R140): those served make a load each, where they make any; the others wait in their order, and
the group with them. -/
def FullEmptyMade (s t : State) (kind : FeKind) (scalar : Bool) (dst : Nat) (parts : List LoadPart) (served : List Nat)
    (waits : List (Nat × Nat)) : Prop :=
  (∃ us : List Nat, us.length = parts.length ∧ (∀ u ∈ us, Activity.event (.loadDataReturn u) ∈ t.agenda) ∧
    t.loads = s.loads ++ List.zipWith (fun u p => ({
      uid := u, gkey := s.cur, team := s.g.team, die := s.g.die, core := s.g.core, fn := s.g.fn, n := modeBytes s.g.mode,
      mode := s.g.mode, scalar, dst, parts := [p] } : Load)) us parts) ∧
  t.feWaits.map (fun w => (w.gkey, w.kind, w.lane, w.loc)) = waits.map (fun p => (s.cur, kind, p.1, p.2)) ∧
  (∀ k, k ≠ s.cur → t.group k = s.group k) ∧
  (waits = [] → t.iss = s.iss ∧ t.g = { s.g with busy := t.g.busy, recs := t.g.recs, faults := t.g.faults, served := 0 }) ∧
  (waits ≠ [] → t.iss = { s.iss with hold := true } ∧
    t.g = { s.g with busy := t.g.busy, recs := t.g.recs, faults := t.g.faults, served := t.g.served, wait := .fullEmpty } ∧
    ∀ l, l < 64 → t.g.served.getLsbD l = (s.g.served.getLsbD l || served.contains l))

/-- Requests of the acting group, one to each pound that its parts reach, in program order behind the earlier ones: at the own die it
has arrived (R157, R163, R311). -/
def RequestsMade (s t : State) (kind : ReqKind) (scalar : Bool) (dst : Nat) (parts : List Part) : Prop :=
  ∃ rs : List Req, t.reqs = s.reqs ++ rs ∧ rs.map (fun r => r.home) = (parts.map (fun p => homePound p.loc)).dedup ∧
    ∀ r ∈ rs, r.parts = parts.filter (fun p => homePound p.loc == r.home) ∧ r.kind = kind ∧ r.n = modeBytes s.g.mode ∧
      r.mode = s.g.mode ∧ r.ord = modeOrd s.g.mode ∧ r.scalar = scalar ∧ r.dst = dst ∧ r.gkey = s.cur ∧ r.team = s.g.team ∧
      r.srcDie = s.g.die ∧ r.srcCore = s.g.core ∧ r.fn = s.g.fn ∧ r.performed = false ∧ r.arrived = (r.home == s.g.die) ∧
      r.replayed = (s.iss.run != 0) ∧ (r.home = s.g.die → Activity.event (.requestArrival r.uid) ∈ t.agenda)

/-- Bytes of a copy have not reached their port (R162): chunks are still to be accepted, read or carried there, or a packet is on its way. -/
def offPort (s : State) (c : Copy) (m : Template) : Prop :=
  c.accepted < m.tileBytes / 512 ∨ c.started ≠ [] ∨ c.flying ≠ [] ∨ c.landed ≠ [] ∨ c.keeper.getD [] ≠ [] ∨
    ∃ p ∈ s.packets, p.copy = c.uid ∧ p.atPort = false

/-- Something that a publish of a group covers has not been performed (R165): a store or atomic in a covered space, alias stores only
where the scope waits for them (R183); with H a network transfer, at package scope until its bytes have reached their port, at system scope
until it has been acknowledged (R162). A copy whose template is still to be read may be one. -/
def unpublished (s : State) (gk scope : Nat) (st : BitVec 5) : Prop :=
  (∃ sp ∈ [1, 2, 3, 5], coversSpace st sp = true ∧ (sp = 3 → 4 ≤ scope) ∧ (s.group gk).pubCount.get sp 0 ≠ 0) ∨
  (4 ≤ scope ∧ st.getLsbD 4 = true ∧ ∃ c ∈ s.copies, c.org.gkey = gk ∧ c.org.team = (s.group gk).team ∧
    ∀ m, c.tmpl = some m → m.dstKind = 2 ∧ (scope = 5 ∨ offPort s c m))

/-- Every group but one stands, where a WAITC whose word reaches its threshold counts as satisfied (R191). -/
def OthersStand (s t : State) (k : Nat) : Prop :=
  ∀ j, j ≠ k → t.group j = s.group j ∨ ∃ w slot thr, (s.group j).wait = .waitc w slot thr ∧
    t.group j = { s.group j with wait := .waitc w slot 0 }

/-- R176's table: opcode, operation, W, D, A, B. -/
def atomicForm (i : Instr) : Option (BitVec 7 × AtomOp × Bool × Operand × Operand × Operand) :=
  match i with
  | .aadd w d a b => some (0x73, .add, w, d, a, b)
  | .amin w d a b => some (0x74, .min, w, d, a, b)
  | .amax w d a b => some (0x75, .max, w, d, a, b)
  | .aand w d a b => some (0x76, .and, w, d, a, b)
  | .aor w d a b => some (0x77, .or, w, d, a, b)
  | .axor w d a b => some (0x78, .xor, w, d, a, b)
  | .axch w d a b => some (0x79, .xch, w, d, a, b)
  | .acas w d a b => some (0x7A, .cas, w, d, a, b)
  | .afadd w d a b => some (0x7B, .fadd, w, d, a, b)
  | _ => none

/-- R150's table: the leaf types that admit an access. -/
def admittedTypes (acc : Acc) : List Nat :=
  match acc with
  | .fetch | .own64 => [1]
  | .load => [1, 2, 5, 6]
  | .store => [1, 2, 3, 5]
  | .atomic | .waitc => [1, 2, 5]
  | .xst => [4]

/-- A permission that an access needs is missing at a leaf (R151, R251). -/
def lacksRight (acc : Acc) (e : DWord) : Prop :=
  match acc with
  | .fetch | .load | .waitc => e.getLsbD 5 = false
  | .store | .xst => e.getLsbD 6 = false
  | .atomic | .own64 => e.getLsbD 5 = false ∨ e.getLsbD 6 = false ∨ e.getLsbD 7 = false

/-- The parts of a global access: its lanes that translate to memory. -/
def partsOf (xs : List Lane) : List LoadPart :=
  xs.filterMap (fun x => match x.xl with
    | .ok sp loc slot e => some { lane := x.lane, space := sp, loc, value := none, expo := e, slot, va := x.va }
    | _ => none)

/-- The lane record kind of a lane that faults (R152). -/
def laneKind (x : Lane) : Option Nat :=
  match x.xl with
  | .fault k => some k
  | .aperture => some 2
  | _ => none

/-- The page that a lane meets not present (R152 step 4): function key and page. -/
def lanePage (x : Lane) : Option (Nat × Nat) :=
  match x.xl with
  | .absent f p => some (f, p)
  | _ => none

/-- Does a lane reach an alias window? -/
def laneAliased (x : Lane) : Bool :=
  match x.xl with
  | .aliased _ _ _ => true
  | _ => false

/-- A global access is made, its lanes on absent pages apart (R37, R159): none is on one, or they may park. -/
def goesOn (s : State) (scalar : Bool) (xs : List Lane) : Prop :=
  (∀ x ∈ xs, lanePage x = none) ∨ (scalar = false ∧ (s.g.parked = 0 ∨ s.g.parkOffset = s.g.offset))

/-- What its lanes that do not take part leave (R37, R39, R152, R156): those that fail a check fault, each with the kind of that check and
its address; those on absent pages park, the latches saved at the first parking, and the service of their pages is requested. With none
parked, nothing but the acting group changes. -/
def LanesLeft (s t : State) (scalar : Bool) (xs : List Lane) : Prop :=
  let parks := xs.filter (fun x => (lanePage x).isSome)
  t.iss = s.iss ∧
  FaultsTaken s t scalar ((xs.filter (fun x => (laneKind x).isSome)).map (fun x => x.lane))
    (fun l => ((xs.find? (fun x => x.lane == l)).bind laneKind).getD 0) (fun l => ((xs.find? (fun x => x.lane == l)).map (fun x => x.va)).getD 0) ∧
  (parks = [] → t.mem = s.mem ∧ (∀ k, k ≠ s.cur → t.group k = s.group k) ∧
    t.g = { s.g with recs := t.g.recs, faults := t.g.faults, failedVa := t.g.failedVa, pubCount := t.g.pubCount }) ∧
  (parks ≠ [] →
    (∀ l, l < 64 → t.g.parked.getLsbD l = (s.g.parked.getLsbD l || (parks.map (fun x => x.lane)).contains l)) ∧
    t.g.parkOffset = (if s.g.parked = 0 then s.g.offset else s.g.parkOffset) ∧
    t.g.parkLat = (if s.g.parked = 0 then s.g.lat else s.g.parkLat) ∧ t.g.lat = s.g.lat ∧ t.g.v = s.g.v ∧ t.g.s = s.g.s ∧
    ∀ x ∈ xs, ∀ f p, lanePage x = some (f, p) → (f, p) ∈ t.g.waitPages ∧ t.requested f p = true)

/-- A global access that is not made (R37, R159): a scalar one stops its group for the first page, a vector one after the park offset is
cancelled for all its lanes and its pages are waited for; each page's service is requested. -/
def LanesStopped (s t : State) (scalar : Bool) (xs : List Lane) : Prop :=
  t.loads = s.loads ∧ t.reqs = s.reqs ∧ t.aliases = s.aliases ∧ t.g.recs = s.g.recs ∧ t.g.faults = s.g.faults ∧ t.g.parked = s.g.parked ∧
  (scalar = true → ∀ f p, xs.head?.bind lanePage = some (f, p) → t.iss = { s.iss with hold := true } ∧ t.requested f p = true ∧
    ∃ va, t.g.wait = .page f p va) ∧
  (scalar = false → t.iss = { s.iss with hold := true, cancelled := true } ∧
    ∀ x ∈ xs, ∀ f p, lanePage x = some (f, p) → (f, p) ∈ t.g.waitPages ∧ t.requested f p = true)

/-! ### Henat bodies (R277, R283, R285) -/

/-- Element `e` of a chunk's bytes, as an F32 encoding (R277). -/
def chunkElem (bf : Bool) (b : Nat → Nat) (e : Nat) : Nat :=
  if bf then roundFmt (Fmt.bf16.value (b (2 * e) + 256 * b (2 * e + 1))) .f32 .rne false
  else roundFmt (Fmt.f32.value (b (4 * e) + 256 * b (4 * e + 1) + 65536 * b (4 * e + 2) + 16777216 * b (4 * e + 3))) .f32 .rne false

/-- Byte `k` of what FWD and FWDE form of an accumulator's elements (R285). -/
def formedByte (bf : Bool) (a : Nat → Nat) (k : Nat) : Byte :=
  if bf then BitVec.ofNat 8 (roundFmt (Fmt.f32.value (a (k / 2))) .bf16 .rne false / 256 ^ (k % 2))
  else BitVec.ofNat 8 (roundFmt (Fmt.f32.value (a (k / 4))) .f32 .rne false / 256 ^ (k % 4))

/-- R283's instructions on a port's chunk: accumulator, format, port, window, `.last`, and the result of the encodings a of
the accumulator and x of the chunk. -/
def henatPort (i : Instr) : Option (BitVec 3 × Bool × BitVec 6 × BitVec 2 × Bool × (Nat → Nat → Nat)) :=
  let nan (x : Nat) : Bool := (Fmt.f32.value x).isNan
  match i with
  | .henatLoad d b p w l => some (d, b, p, w, l, fun _ x => x)
  | .henatAdd d b p w l => some (d, b, p, w, l, fun a x => roundFmt ((Fmt.f32.value a).add .rne (Fmt.f32.value x)) .f32 .rne false)
  | .henatMax d b p w l => some (d, b, p, w, l, fun a x => if nan a || nan x then 0x7FC00000 else if firstLess .f32 x a then a else x)
  | .henatMin d b p w l => some (d, b, p, w, l, fun a x => if nan a || nan x then 0x7FC00000 else if firstLess .f32 a x then a else x)
  | _ => none

/-- R283's instructions on accumulators: destination, source, `.last`, and the result of their encodings. -/
def henatAccumulator (i : Instr) : Option (BitVec 3 × BitVec 3 × Bool × (Nat → Nat → Nat)) :=
  let f32 (v : Val) : Nat := roundFmt v .f32 .rne false
  match i with
  | .henatAdda d a l => some (d, a, l, fun x y => f32 ((Fmt.f32.value x).add .rne (Fmt.f32.value y)))
  | .henatScale d a n l => some (d, a, l, fun _ y => f32 ((Fmt.f32.value y).scale n.toInt))
  | .henatRound d a b l => some (d, a, l, fun _ y =>
      if b then f32 (Fmt.bf16.value (roundFmt (Fmt.f32.value y) .bf16 .rne false)) else f32 (Fmt.f32.value y))
  | .henatCopy d a l => some (d, a, l, fun _ y => y)
  | _ => none

end Sys2Proof
end

