-- ==== Sys2Proof/Certificates/Slice0/Obligations.lean ====
section
/-! DEFINITION. The statements for the provers. -/

open Sys2Proof Sys2Proof.Machine

/-! ### Integer instructions -/

/-- R75: the two-source integer instructions, each an instruction of format A of its own opcode. -/
def Obligations.IntegerTwoSourceResults : Prop :=
  ∀ (i : Instr) (op : BitVec 7) (w : Bool) (d a b : Operand) (f : Nat → Nat → Nat → Nat → Nat) (s : State),
    intBinary i = some (op, w, d, a, b, f) → i.wf = true →
    encodeCore i = some (formA op w d.code a.code b.code) ∧
    ∃ t x, exec i s = .next t ∧ Written s t w d (modeItype s.g.mode == 3) x ∧
      ∀ l e, e < elemCount (modeItype s.g.mode) →
        let n := elemWidth (modeItype s.g.mode)
        elemNat n (x l) e = f n (elemNat n (s.rd64 a l) e) (elemNat n (s.rd64 b l) e) (elemNat n (s.rd64 d l) e)

/-- R77: the functions of IUN, opcode 0x30. -/
def Obligations.IntegerOneSourceResults : Prop :=
  ∀ (i : Instr) (fn : BitVec 8) (w : Bool) (d a : Operand) (f : Nat → Nat → Nat) (s : State),
    intUnary i = some (fn, w, d, a, f) → i.wf = true →
    encodeCore i = some (formA 0x30 w d.code a.code fn) ∧
    ∃ t x, exec i s = .next t ∧ Written s t w d (modeItype s.g.mode == 3) x ∧
      ∀ l e, e < elemCount (modeItype s.g.mode) →
        let n := elemWidth (modeItype s.g.mode)
        elemNat n (x l) e = f n (elemNat n (s.rd64 a l) e)

/-- R76: the immediate forms, each of its own opcode. -/
def Obligations.IntegerImmediateResults : Prop :=
  ∀ (i : Instr) (op : BitVec 7) (w : Bool) (d a : Operand) (k : BitVec 8) (f : Nat → Nat → Nat) (s : State),
    intImmediate i = some (op, w, d, a, k, f) → i.wf = true →
    encodeCore i = some (formA op w d.code a.code k) ∧
    ∃ t x, exec i s = .next t ∧ Written s t w d (modeItype s.g.mode == 3) x ∧
      ∀ l e, e < elemCount (modeItype s.g.mode) →
        let n := elemWidth (modeItype s.g.mode)
        elemNat n (x l) e = f n (elemNat n (s.rd64 a l) e)

/-- R78: MOVI, MOVHI and MOVSI, of format K with D a dst field (zero with W = 1, but for MOVHI), write one 32-bit register,
whatever MODE.ITYPE. -/
def Obligations.MoveImmediateResults : Prop :=
  ∀ (w : Bool) (d : Operand) (k : BitVec 16) (s : State),
    encodeCore (.movi w d k) = some (formK 0x36 w d.code k) ∧ encodeCore (.movhi w d k) = some (formK 0x37 w d.code k) ∧
    encodeCore (.movsi w d k) = some (formK 0x38 w d.code k) ∧
    (Instr.movi w d k).wf = (if w then decide (d = .v 0) else d.isV || d.isS) ∧ (Instr.movhi w d k).wf = (d.isV || d.isS) ∧
    (Instr.movsi w d k).wf = (if w then decide (d = .v 0) else d.isV || d.isS) ∧
    ((Instr.movi w d k).wf = true →
      ∃ t x, exec (.movi w d k) s = .next t ∧ Written s t w d false x ∧ ∀ l, (x l).toNat % 2 ^ 32 = k.toNat) ∧
    ((Instr.movsi w d k).wf = true →
      ∃ t x, exec (.movsi w d k) s = .next t ∧ Written s t w d false x ∧
        ∀ l, (x l).toNat % 2 ^ 32 = wrapInt 32 k.toInt) ∧
    ((Instr.movhi w d k).wf = true →
      ∃ t x, exec (.movhi w d k) s = .next t ∧ Written s t w d false x ∧
        ∀ l, (x l).toNat % 2 ^ 32 = k.toNat * 2 ^ 16 + (s.rd d l).toNat % 2 ^ 16)

/-! ### Compares and predicates -/

/-- R79 for the integer relations: true where the relation holds in every element; nothing but D changes. -/
def Obligations.IntegerCompareResults : Prop :=
  ∀ (i : Instr) (op : BitVec 7) (d a b : Operand) (r : Nat → Nat → Nat → Prop) (s : State),
    intCompare i = some (op, d, a, b, r) → i.wf = true →
    encodeCore i = some (formA op false d.code a.code b.code) ∧
    ∃ t f, exec i s = .next t ∧ PredWritten s t d f ∧
      ∀ l, f l = true ↔ ∀ e, e < elemCount (modeItype s.g.mode) →
        let n := elemWidth (modeItype s.g.mode)
        r n (elemNat n (s.rd64 a l) e) (elemNat n (s.rd64 b l) e)

/-- R80: the predicate operations, of format A with W = 0 and predicates in D, A and B; operands and the guard are read before
the write. -/
def Obligations.PredicateOperationResults : Prop :=
  ∀ (i : Instr) (op : BitVec 7) (d a b : Fin 8) (f : Bool → Bool → Bool) (s : State),
    predicateOp i = some (op, .p d, .p a, .p b, f) →
    encodeCore i = some (formA op false (Operand.p d).code (Operand.p a).code (Operand.p b).code) ∧
    (∀ w x y z j, decodeCore (formA op w x y z) = .ok j →
      w = false ∧ ∃ d' a' b' f', predicateOp j = some (op, .p d', .p a', .p b', f')) ∧
    ∃ t, exec i s = .next t ∧ PredWritten s t (.p d) (fun l => f (s.g.pred a.val l) (s.g.pred b.val l))

/-- R81: SEL takes A where P[BP] is true in the lane, else B; the scalar-class form decides once, as BR does. -/
def Obligations.SelectResults : Prop :=
  ∀ (w : Bool) (d a b : Operand) (s : State), (Instr.sel w d a b).wf = true →
    ∃ t x, exec (.sel w d a b) s = .next t ∧ Written s t w d (modeItype s.g.mode == 3) x ∧
      let pick (o : Operand) (l : Nat) : DWord :=
        if modeItype s.g.mode = 3 then s.rd64 o l else (s.rd o l).setWidth 64
      ((w = true ∨ d.isS = false) → ∀ l, x l = if s.g.pred (modeBp s.g.mode) l then pick a l else pick b l) ∧
      (w = false ∧ d.isS = true → (branchDecision s → x 0 = pick a 0) ∧ (¬ branchDecision s → x 0 = pick b 0))

/-- R82, R83: VTOP, PTOV and PCNT. -/
def Obligations.PredicateConversionResults : Prop :=
  ∀ (s : State) (p : Fin 8) (n : Fin 192) (m : Fin 32) (a : Operand),
    (∃ t, exec (.vtop (.p p) a) s = .next t ∧ PredWritten s t (.p p) (fun l => decide (s.rd a l ≠ 0))) ∧
    (∃ t, exec (.ptov (.v n) (.p p)) s = .next t ∧
      LaneWritten s t false (.v n) false (fun l => if s.g.pred p.val l then 1 else 0)) ∧
    (∃ t, exec (.pcnt (.s m) (.p p)) s = .next t ∧
      (s.iss.mask = 0 → t = s) ∧
      (s.iss.mask ≠ 0 → ScalarWritten s t (.s m) false
        (BitVec.ofNat 64 ((List.range 64).filter (fun l => s.iss.mask.getLsbD l && s.g.pred p.val l)).length)))

/-! ### MODE and control -/

/-- R48, R59, R71: NOP does nothing; MODELO and MODEHI replace a half of MODE, or trap with kind 0x07 where the value is reserved. The
field of that trap's X0, 4, for imm16, is R61's field numbering read for format K (log entry 7, DEDUCED). -/
def Obligations.NopAndModeWrites : Prop :=
  ∀ (s : State) (k : BitVec 16) (h : Off),
    let lo := s.g.mode.extractLsb' 16 16 ++ k
    let hi := k ++ s.g.mode.extractLsb' 0 16
    exec .nop s = .next s ∧
    (modeLegal lo → ∃ t, exec (.modelo k) s = .next t ∧ GroupOnly s t ∧ t.iss = s.iss ∧ t.g = { s.g with mode := lo }) ∧
    (modeLegal hi → ∃ t, exec (.modehi k) s = .next t ∧ GroupOnly s t ∧ t.iss = s.iss ∧ t.g = { s.g with mode := hi }) ∧
    (¬ modeLegal lo → canTrap s h → ∃ t, exec (.modelo k) s = .next t ∧ TrapTaken s t h 7 4 k.toNat s.iss.mask) ∧
    (¬ modeLegal hi → canTrap s h → ∃ t, exec (.modehi k) s = .next t ∧ TrapTaken s t h 7 4 k.toNat s.iss.mask)

/-- R72: MODER is a scalar-class instruction of opcode 0x03 with an sdst field and zero fields A and B; it copies MODE, with no
enabled lane too, and leaves the latches alone. -/
def Obligations.ModerCopiesMode : Prop :=
  ∀ (s : State) (n : Fin 32),
    decodeCore (formA 0x03 false (Operand.s n).code 0 0) = .ok (.moder (.s n)) ∧
    (∀ d a b, decodeCore (formA 0x03 false d a b) ≠ .ok (.moder (Operand.ofCode d)) ∨ (a = 0 ∧ b = 0 ∧ 0xC0 ≤ d.toNat ∧ d.toNat < 0xE0)) ∧
    scalarClass s.g.mode (.moder (.s n)) = true ∧
    ∃ t, exec (.moder (.s n)) s = .next t ∧ ScalarWritten s t (.s n) false (s.g.mode.setWidth 64)

/-- R107, R108: BR, CALL, RET and JMPS. -/
def Obligations.BranchResults : Prop :=
  ∀ (s : State) (o : BitVec 24) (a : Operand),
    (branchDecision s → ∃ t, exec (.br o) s = .next t ∧ Jumped s t (s.g.offset + o)) ∧
    (¬ branchDecision s → exec (.br o) s = .next s) ∧
    (∃ t, exec (.call o) s = .next t ∧ GroupOnly s t ∧ t.iss = { s.iss with moved := true } ∧
      t.g = { s.g with offset := s.g.offset + o, s := t.g.s } ∧
      ∀ r, t.g.sr r = if r = 31 then (s.g.offset + 1).setWidth 32 else s.g.sr r) ∧
    (∃ t, exec .ret s = .next t ∧ Jumped s t ((s.g.sr 31).extractLsb' 0 24)) ∧
    (∃ t, exec (.jmps a) s = .next t ∧ Jumped s t ((s.rd a 0).extractLsb' 0 24))

/-- R33, R109: BRX. With no lane true it falls through, with every lane true it goes, else it pushes the other lanes; a
seventeenth entry is the join-stack overflow trap. -/
def Obligations.BrxSplitsGroup : Prop :=
  ∀ (s : State) (T V : BitVec 12) (h : Off),
    let p := s.g.pred (modeBp s.g.mode)
    let some' := ∃ l, s.iss.mask.getLsbD l = true ∧ p l = true
    let every := ∀ l, s.iss.mask.getLsbD l = true → p l = true
    let target := s.g.offset + T.signExtend 24
    (¬ some' → exec (.brx T V) s = .next s) ∧
    (some' → every → ∃ t, exec (.brx T V) s = .next t ∧ Jumped s t target) ∧
    (some' → ¬ every → s.g.joins.length < 16 → ∃ t m, exec (.brx T V) s = .next t ∧ GroupOnly s t ∧
      t.iss = { s.iss with moved := true } ∧ (∀ l, m.getLsbD l = (s.iss.mask.getLsbD l && !p l)) ∧
      t.g = { s.g with offset := target, joins := ⟨m, false, s.g.offset + 1, s.g.offset + V.signExtend 24⟩ :: s.g.joins }) ∧
    (some' → ¬ every → 16 ≤ s.g.joins.length → canTrap s h →
      ∃ t, exec (.brx T V) s = .next t ∧ TrapTaken s t h 0x13 0 0 s.iss.mask)

/-- R32, R110: IF, ELSE and ENDIF on the nest counters of the lanes not deferred; IF and ELSE go to their partner when no lane is
left enabled. An IF that would take a counter past 255 changes none: each such lane gets its record, and kind 0x12 is taken. -/
def Obligations.StructuredDivergenceResults : Prop :=
  ∀ (s : State) (f : BitVec 24),
    let nest := fun l => s.g.nest.get l 0
    let nd := s.g.notDeferred
    let skips (t : State) : Prop :=
      (t.g.enabled = 0 → t.g.offset = s.g.offset + f ∧ t.iss = { s.iss with moved := true }) ∧
      (t.g.enabled ≠ 0 → t.g.offset = s.g.offset ∧ t.iss = s.iss)
    ((∀ l, nd.getLsbD l = true → nest l ≠ 255) → ∃ t, exec (.cIf f) s = .next t ∧ GroupOnly s t ∧
      t.g = { s.g with nest := t.g.nest, offset := t.g.offset } ∧ skips t ∧
      ∀ l, t.g.nest.get l 0 = if nd.getLsbD l = false then nest l
        else if nest l = 0 then (if s.g.liveExec.getLsbD l && s.g.pred (modeBp s.g.mode) l then 0 else 1) else nest l + 1) ∧
    ((∃ l, nd.getLsbD l = true ∧ nest l = 255) → ∃ (m : DWord) (rs : List (Nat × Nat × Nat)),
      let t := (s.setG { s.g with recs := s.g.recs ++ rs }).trapAt 0x12 0 m 0
      exec (.cIf f) s = .next t ∧ (∀ l, l < 64 → m.getLsbD l = (nd.getLsbD l && decide (nest l = 255))) ∧
      (∀ l, l < 64 → ((∃ r, (16 * l, 16, r) ∈ rs) ↔ m.getLsbD l = true)) ∧
      (∀ x ∈ rs, ∃ l r, x = (16 * l, 16, r) ∧ l < 64 ∧ r / 2 ^ 32 = s.g.offset.toNat ∧ r / 2 ^ 24 % 2 ^ 8 = 7 ∧ r / 2 ^ 8 % 2 ^ 8 = l) ∧
      (t.g.nest = s.g.nest ∨ ∃ fr, t.g.frame = some fr ∧ fr.nest = s.g.nest)) ∧
    (∃ t, exec (.cElse f) s = .next t ∧ GroupOnly s t ∧
      t.g = { s.g with nest := t.g.nest, offset := t.g.offset } ∧ skips t ∧
      ∀ l, t.g.nest.get l 0 = if nd.getLsbD l = false then nest l
        else if nest l = 0 then 1 else if nest l = 1 then 0 else nest l) ∧
    (∃ t, exec .cEndif s = .next t ∧ GroupOnly s t ∧ t.iss = s.iss ∧ t.g = { s.g with nest := t.g.nest } ∧
      ∀ l, t.g.nest.get l 0 = if nd.getLsbD l = false ∨ nest l = 0 then nest l else nest l - 1)

/-- R112 and its resumption: a stale handle traps; a complete operation goes on at the continuation, a pending one takes the
group out of issue until it is complete. -/
def Obligations.YieldResults : Prop :=
  ∀ (s : State) (n : Fin 8) (k : BitVec 16) (h : Off),
    let v := s.g.h.get n.val 0
    let cont := s.g.offset + k.signExtend 24
    (s.stale v = true → canTrap s h → ∃ t, exec (.yield (.h n) k) s = .next t ∧ TrapTaken s t h 0x18 1 0 s.iss.mask) ∧
    (s.stale v = false → s.opDone v = true → ∃ t, exec (.yield (.h n) k) s = .next t ∧ GroupOnly s t ∧
      t.iss = { s.iss with moved := true } ∧ t.g = { s.g with latValid := 0, offset := cont }) ∧
    (s.stale v = false → s.opDone v = false → ∃ t, exec (.yield (.h n) k) s = .next t ∧ GroupOnly s t ∧
      t.iss = { s.iss with moved := true } ∧ t.g = { s.g with latValid := 0, wait := .yield v cont }) ∧
    (∀ (gk : Nat) (v : Word) (cont : Off), (s.group gk).wait = .yield v cont →
      (((s.teamOf (s.group gk).team).ops.get (v.toNat % 128) {}).handle ≠ v ∨
        ((s.teamOf (s.group gk).team).ops.get (v.toNat % 128) {}).pending = false) →
      ∃ t, exec (.yieldResume gk) s = .next t ∧ t = { s with groups := t.groups } ∧
        (∀ j, j ≠ gk → t.group j = s.group j) ∧ t.group gk = { s.group gk with wait := .ready, offset := cont })

/-- R44, R113: TBAR makes the group arrive and wait; the barrier completes when every group left in the team has arrived. -/
def Obligations.TeamBarrierResults : Prop :=
  ∀ (s : State) (i : BitVec 8) (team b : Nat),
    let old := s.team.bars.get i.toNat []
    let full := ∀ k ∈ s.teamGroups s.g.team, (s.group k).index ∈ old ++ [s.g.index]
    (∃ t, exec (.tbar i) s = .next t ∧ t = { s with groups := t.groups, teams := t.teams, agenda := t.agenda } ∧
      t.g = { s.g with latValid := 0, wait := .bar i.toNat } ∧ (∀ k, k ≠ s.cur → t.group k = s.group k) ∧
      t.teamOf s.g.team = { s.team with bars := (t.teamOf s.g.team).bars } ∧
      (∀ j, j ≠ s.g.team → t.teamOf j = s.teamOf j) ∧
      (∀ j, (t.teamOf s.g.team).bars.get j [] = if j = i.toNat then old ++ [s.g.index] else s.team.bars.get j []) ∧
      (full → t.agenda = s.agenda ++ [.event (.teamBarrierCompletion s.g.team i.toNat)]) ∧
      (¬ full → t.agenda = s.agenda)) ∧
    ((∀ k ∈ s.teamGroups team, (s.group k).index ∈ (s.teamOf team).bars.get b []) →
      ∃ t, exec (.teamBarrierCompletion team b) s = .next t ∧ t = { s with groups := t.groups, teams := t.teams } ∧
      (t.teamOf team).bars.get b [] = [] ∧
      ∀ k, t.group k = if k ∈ s.teamGroups team ∧ (s.group k).wait = .bar b then { s.group k with wait := .ready } else s.group k)

/-- R114: EXIT ends the group, whatever its masks; with the last group gone, the team's end follows (R214). It publishes nothing: no
byte of memory changes, and what other cores do not see yet of the group's fault records they do not see after it. -/
def Obligations.ExitEndsGroup : Prop :=
  ∀ (s : State), ∃ t, exec .exit s = .next t ∧
    t = { s with groups := t.groups, teams := t.teams, iss := { s.iss with moved := true }, agenda := t.agenda } ∧
    (∀ k, k ≠ s.cur → t.group k = s.group k) ∧
    (∀ ck loc slot n, t.coreView ck loc slot n = s.coreView ck loc slot n) ∧
    t.g = { s.g with live := false, exited := true, wait := .ready } ∧
    t.team = { s.team with gone := s.team.gone ++ [s.cur] } ∧ (∀ j, j ≠ s.g.team → t.teamOf j = s.teamOf j) ∧
    (∃ more, t.agenda = s.agenda ++ more) ∧
    ((∀ k ∈ s.team.groups, k ∈ s.team.gone ∨ k = s.cur) → Activity.event (.teamEnd s.g.team) ∈ t.agenda)

/-! ### Traps -/

/-- R121, R123, R124, R126 to R128: TRAP, opcode 0x0E with zero fields D and A, enters the handler with kind 0x10 before anything at its
offset takes effect, with no enabled lane too. After the issues of an offset some of whose lanes have faulted, kind 0x19 is taken. A
trap whose lane records can be written enters the handler with the records in the fault block, where other cores still see what stood
there before; with no handler, or in handler state, it ends the team, the group record standing behind the lane records. -/
def Obligations.TrapEntersHandler : Prop :=
  ∀ (s : State) (k : BitVec 8) (h : Off),
    decodeCore (formA 0x0E false 0 0 k) = .ok (.trap k) ∧
    (∀ d a, (d ≠ 0 ∨ a ≠ 0) → decodeCore (formA 0x0E false d a k) ≠ .ok (.trap k)) ∧
    (canTrap s h → ∃ t, exec (.trap k) s = .next t ∧ TrapTaken s t h 0x10 k.toNat 0 s.iss.mask) ∧
    (∃ xs, exec (.trap k) s = .next (s.takeTrap xs) ∧
      xs.getD 0 0 = BitVec.ofNat 32 (0x10 * 2 ^ 24 + k.toNat * 2 ^ 8 + s.iss.word.toNat / 2 ^ 25)) ∧
    (∀ f : Faults, s.g.live = true → s.g.faults = some f → s.g.parked = 0 → s.g.replays = [] →
      ∃ (u : State), s.finishOffset = u.takeTrap
          [BitVec.ofNat 32 (0x19 * 2 ^ 24 + f.word.toNat / 2 ^ 25), BitVec.ofNat 32 (f.word.toNat % 2 ^ 25), s.iss.here.setWidth 32,
            f.lanes.extractLsb' 0 32, f.lanes.extractLsb' 32 32, f.addr.extractLsb' 0 32, f.addr.extractLsb' 32 32,
            BitVec.ofNat 32 (f.planes.toNat * 2 ^ 8 + f.low.toNat)] ∧
        u.g = { s.g with offset := s.iss.here, faults := none, cnt := u.g.cnt, lat := u.g.lat, latValid := u.g.latValid } ∧
        u.iss = s.iss ∧ (∀ j, j ≠ s.cur → u.group j = s.group j) ∧ u.mem = s.mem) ∧
    (∀ (xs : List Word) (s1 : State), s.g.handler = some h → s.g.frame = none →
      (s.g.recs = [] ∧ s1 = trapPending s xs false s.g.recs ∨
        s.g.recs ≠ [] ∧ s.g.faultArea ≠ 0 ∧ s.g.blockFailed = false ∧
          (trapPending s xs false s.g.recs).writeRecs s.faultBlock s.g.recs = (s1, .ok ())) →
      let t := s.takeTrap xs
      t.g.frame = some ⟨s.g.offset, s.g.exec, s.g.nest, s.g.plane, s.g.joins⟩ ∧ t.g.offset = h ∧ t.g.latValid = 0 ∧ t.g.nest = [] ∧
        t.g.joins = [] ∧ t.g.wait = .ready ∧ t.g.faults = none ∧ t.g.recs = [] ∧
        (∀ i, i < 8 → t.g.x.get i 0 = xs.getD i 0) ∧ t.g.v = s.g.v ∧ t.g.s = s.g.s ∧ t.g.p = s.g.p ∧ t.g.mode = s.g.mode ∧
        t.mem = s1.mem ∧ t.veils = s1.veils ∧ t.iss = { s.iss with moved := true, trapped := true } ∧ (s.g.recs = [] → s1.mem = s.mem) ∧
        ∀ (o n v loc slot : Nat) (u : State), s.g.recs = [(o, n, v)] → (trapPending s xs false s.g.recs).vPlaces s.g.die s.g.fn .store
            (pieces 2 ((s.faultBlock + o) % 2 ^ 64) n) = (u, .ok [(loc, slot, n, none)]) → loc + n ≤ tableLoc 0 →
          (∀ w ∈ s.veils, w.loc < loc ∨ loc + n ≤ w.loc) →
          (Inv s → t.readSlot loc slot n = bytesOf n v) ∧ ∀ ck, ck ≠ s.cur / 16 → t.coreView ck loc slot n = s.readSlot loc slot n) ∧
    (∀ (xs : List Word) (s1 : State), s.g.handler = none ∨ s.g.frame ≠ none →
      let f := s.g.frame.getD ⟨s.g.offset, s.g.exec, s.g.nest, s.g.plane, s.g.joins⟩
      let recs := s.g.recs ++ [(1024, 64, State.groupRecord xs f.exec f.offset f.joins.length)]
      s.g.faultArea = 0 ∨ s.g.blockFailed = true ∨ (trapPending s xs true recs).writeRecs s.faultBlock recs = (s1, .ok ()) →
      let t := s.takeTrap xs
      (∀ j ∈ s.teamGroups s.g.team, (t.group j).live = false ∧ (t.group j).exited = true) ∧ (t.teamOf s.g.team).bad = true ∧
        (t.launch s.team.launch).bad = true ∧ Activity.event (.teamEnd s.g.team) ∈ t.agenda)

/-- R125: TRET restores the frame and leaves handler state; outside it, kind 0x1B. -/
def Obligations.TrapReturnRestoresFrame : Prop :=
  ∀ (s : State) (h : Off),
    (∀ f, s.g.frame = some f →
      (∃ t, exec (.tret 0) s = .next t ∧ GroupOnly s t ∧ t.iss = { s.iss with moved := true } ∧
        t.g = { s.g with exec := f.exec, nest := f.nest, plane := f.plane, joins := f.joins, latValid := 0, frame := none,
                         offset := f.offset }) ∧
      (∃ t, exec (.tret 1) s = .next t ∧ GroupOnly s t ∧ t.iss = { s.iss with moved := true } ∧
        t.g = { s.g with exec := f.exec, nest := f.nest, plane := f.plane, joins := f.joins, latValid := 0, frame := none,
                         offset := f.offset + 1 })) ∧
    (∀ i, canTrap s h → ∃ t, exec (.tret i) s = .next t ∧ TrapTaken s t h 0x1B 0 0 s.iss.mask)

/-! ### Planes, masks, allotment -/

/-- R115 to R117: PLSET, PLSETV and PLGET; the lanes of a PLSETV whose value names no plane of the launch fault, with record kind 0x06. -/
def Obligations.PlaneResults : Prop :=
  ∀ (s : State) (i : BitVec 8) (a : Operand) (n : Fin 192) (h : Off),
    let old := fun l => s.g.plane.get l 0
    (i.toNat < s.g.np → ∃ t, exec (.plset i) s = .next t ∧
      PlanesSet s t (fun l => if s.guarded.getLsbD l && s.g.pred (modeBp s.g.mode) l then i.setWidth 3 else old l)) ∧
    (s.g.np ≤ i.toNat → canTrap s h → ∃ t, exec (.plset i) s = .next t ∧ TrapTaken s t h 0x1A 0 0 s.iss.mask) ∧
    ((∀ l, s.guarded.getLsbD l = true → (s.rd a l).toNat < s.g.np) → ∃ t, exec (.plsetv a) s = .next t ∧
      PlanesSet s t (fun l => if s.guarded.getLsbD l then (s.rd a l).setWidth 3 else old l)) ∧
    ((∃ l, s.guarded.getLsbD l = true ∧ s.g.np ≤ (s.rd a l).toNat) → ∃ t, exec (.plsetv a) s = .next t ∧ GroupOnly s t ∧
      t.iss = s.iss ∧ t.g = { s.g with plane := t.g.plane, recs := t.g.recs, faults := t.g.faults } ∧
      FaultsTaken s t false ((lanesOf s.guarded).filter (fun l => decide (s.g.np ≤ (s.rd a l).toNat))) (fun _ => 6) (fun _ => 0) ∧
      ∀ l, t.g.plane.get l 0 =
        if s.guarded.getLsbD l ∧ (s.rd a l).toNat < s.g.np then (s.rd a l).setWidth 3 else old l) ∧
    (∃ t, exec (.plget (.v n)) s = .next t ∧ RegsOnly s t ∧ t.iss = s.iss ∧ t.g.s = s.g.s ∧
      VWritten s t (.v n) false s.guarded (fun l => (old l).setWidth 64))

/-- R117, R118: EXECW, EXECR and NESTR, on the live masks, or in handler state on the frame's. -/
def Obligations.MaskResults : Prop :=
  ∀ (s : State) (p : Fin 32) (n : Fin 192),
    let x := s.g.pair p.val &&& s.g.all
    (∃ t, exec (.execw (.s p)) s = .next t ∧ GroupOnly s t ∧ t.iss = s.iss ∧
      (s.g.frame = none → t.g = { s.g with exec := x }) ∧
      (∀ f, s.g.frame = some f → t.g = { s.g with frame := some { f with exec := x } })) ∧
    (∃ t, exec (.execr (.s p)) s = .next t ∧
      (s.g.frame = none → ScalarWritten s t (.s p) true (s.g.exec &&& s.g.all)) ∧
      (∀ f, s.g.frame = some f → ScalarWritten s t (.s p) true (f.exec &&& s.g.all))) ∧
    (∃ t, exec (.nestr (.v n)) s = .next t ∧ RegsOnly s t ∧ t.iss = s.iss ∧ t.g.s = s.g.s ∧
      (s.iss.mask = 0 → t = s) ∧
      (s.iss.mask ≠ 0 → s.g.frame = none → VWritten s t (.v n) false
        (s.g.exec &&& s.g.notDeferred &&& ~~~s.g.parked &&& s.g.predMask (modeGp s.g.mode)) (fun l => (s.g.nest.get l 0).setWidth 64)) ∧
      (∀ f, s.iss.mask ≠ 0 → s.g.frame = some f → VWritten s t (.v n) false
        (s.g.all &&& s.g.predMask (modeGp s.g.mode)) (fun l => (f.nest.get l 0).setWidth 64)))

/-- R84 to R87: GROW and SHRINK. Beyond the limits they trap; a GROW with room on every lane and none before it adds zeroed
registers, another waits; a SHRINK with no load under way into the released registers gives them back. -/
def Obligations.AllotmentResults : Prop :=
  ∀ (s : State) (i : BitVec 8) (h : Off),
    let n := 16 * i.toNat
    let room := s.lanesFree s.g n = true ∧ s.growBehind s.g (s.coreOf s.g.ckey).growQ = false
    (192 < s.g.allot + n → canTrap s h → ∃ t, exec (.grow i) s = .next t ∧ TrapTaken s t h 0x16 0 0 s.iss.mask) ∧
    (s.g.allot + n ≤ 192 → room → ∃ t, exec (.grow i) s = .next t ∧ GroupOnly s t ∧ t.iss = s.iss ∧
      t.g = { s.g with v := t.g.v, allot := s.g.allot + n, latValid := 0, wait := .ready } ∧
      ∀ r l, l < 64 → t.g.vr r l = if s.g.allot ≤ r ∧ r < s.g.allot + n then 0 else s.g.vr r l) ∧
    (s.g.allot + n ≤ 192 → ¬ room → ∃ t, exec (.grow i) s = .next t ∧ t.g = { s.g with wait := .grow n } ∧
      t = { s with groups := t.groups, cores := t.cores, iss := { s.iss with moved := true } } ∧
      (∀ k, k ≠ s.cur → t.group k = s.group k) ∧ (∀ k, k ≠ s.g.ckey → t.coreOf k = s.coreOf k) ∧
      t.coreOf s.g.ckey = { s.coreOf s.g.ckey with growQ := (s.coreOf s.g.ckey).growQ ++ [s.cur] }) ∧
    (s.g.allot < 16 + n → canTrap s h → ∃ t, exec (.shrink i) s = .next t ∧ TrapTaken s t h 0x16 0 0 s.iss.mask) ∧
    (16 + n ≤ s.g.allot → s.loadInto s.cur (s.g.allot - n) s.g.allot = false → ∃ t, exec (.shrink i) s = .next t ∧
      t = { s with groups := t.groups, agenda := t.agenda } ∧ (∀ k, k ≠ s.cur → t.group k = s.group k) ∧
      t.g = { s.g with allot := s.g.allot - n }) ∧
    (16 + n ≤ s.g.allot → s.loadInto s.cur (s.g.allot - n) s.g.allot = true → ∃ t, exec (.shrink i) s = .next t ∧
      GroupOnly s t ∧ t.iss = { s.iss with moved := true } ∧ t.g = { s.g with wait := .shrink n })

/-- R193, R194, R198: TIME and CNTR write an S pair, and the counter numbers. -/
def Obligations.TimeAndCounterResults : Prop :=
  ∀ (s : State) (p : Fin 32) (i : BitVec 8),
    (∃ t, exec (.time (.s p)) s = .next t ∧ ScalarWritten s t (.s p) true (s.die s.g.die).time) ∧
    (∃ t x, exec (.cntr (.s p) i) s = .next t ∧ ScalarWritten s t (.s p) true x ∧
      (i.toNat = 0 → x = BitVec.ofNat 64 ((s.die (s.g.ckey / 512)).cycle - (s.coreOf s.g.ckey).lag - (s.coreOf s.g.ckey).zeroed)) ∧
      (i.toNat ∈ [5, 6, 8, 9, 10] → x = (s.coreOf s.g.ckey).cnt.get i.toNat 0) ∧
      (i.toNat ∈ [1, 2, 3, 4, 11, 12] → x = s.g.cnt.get i.toNat 0) ∧
      (i.toNat = 7 → x = (s.fnOf s.g.fkey).cnt7) ∧
      (i.toNat = 13 → x = BitVec.ofInt 64 (((s.fnOf s.g.fkey).level : Int) - (s.fnOf s.g.fkey).debt)) ∧
      (i.toNat = 14 → x = (s.die s.g.die).temp))

/-! ### Floating instructions -/

/-- R79 for the floating relations: true where the relation holds in every element. -/
def Obligations.FloatCompareResults : Prop :=
  ∀ (i : Instr) (op : BitVec 7) (d a b : Operand) (r : Val → Val → Prop) (s : State),
    fltCompare i = some (op, d, a, b, r) → i.wf = true →
    encodeCore i = some (formA op false d.code a.code b.code) ∧
    ∃ t f, exec i s = .next t ∧ PredWritten s t d f ∧
      ∀ l, f l = true ↔ ∀ e, e < fCount s.fmt →
        r (s.fmt.value (fElem s.fmt (s.rd a l) e)) (s.fmt.value (fElem s.fmt (s.rd b l) e))

/-- R100, R101, R103: the two-source floating instructions, element by element. -/
def Obligations.FloatTwoSourceResults : Prop :=
  ∀ (i : Instr) (op : BitVec 7) (w : Bool) (d a b : Operand) (F : Fmt → Rnd → Bool → Nat → Nat → Nat → Nat) (s : State),
    fltBinary i = some (op, w, d, a, b, F) → i.wf = true →
    encodeCore i = some (formA op w d.code a.code b.code) ∧
    ∃ t x, exec i s = .next t ∧ Written s t w d false x ∧
      ∀ l e, e < fCount s.fmt → elemNat s.fmt.bits (x l) e =
        F s.fmt s.rnd s.sat (fElem s.fmt (s.rd a l) e) (fElem s.fmt (s.rd b l) e) (fElem s.fmt (s.rd d l) e) % 2 ^ s.fmt.bits

/-- R102, R104: the functions of FUN, and FCLASS, element by element; R104's class codes. What FUN's functions give is stated beside R102
(FloatFunctionSpecialOperands, IntegralRoundingIsExact). -/
def Obligations.FloatOneSourceResults : Prop :=
  (∀ (i : Instr) (op : BitVec 7) (fn : BitVec 8) (w : Bool) (d a : Operand) (F : Fmt → Rnd → Bool → Nat → Nat) (s : State),
    fltUnary i = some (op, fn, w, d, a, F) → i.wf = true →
    encodeCore i = some (formA op w d.code a.code fn) ∧
    ∃ t x, exec i s = .next t ∧ Written s t w d false x ∧
      ∀ l e, e < fCount s.fmt → elemNat s.fmt.bits (x l) e =
        F s.fmt s.rnd s.sat (fElem s.fmt (s.rd a l) e) % 2 ^ s.fmt.bits) ∧
  (∀ (f : Fmt) (x : Nat), f ∈ elementFormats → x < 2 ^ f.bits →
    let v := f.value x
    let small := |ratOf v| < (2 : ℚ) ^ (1 - (f.bias : Int))
    (v = .nan → fclassCode f x = 8) ∧ (v = .inf true → fclassCode f x = 0) ∧ (v = .inf false → fclassCode f x = 7) ∧
    ((∃ s m e, v = .fin s m e) →
      (ratOf v = 0 → fclassCode f x = if f.neg x then 3 else 4) ∧
      (ratOf v < 0 → fclassCode f x = if small then 2 else 1) ∧ (0 < ratOf v → fclassCode f x = if small then 5 else 6))) ∧
  (∀ (f : Fmt) (x : Nat), f ∈ elementFormats → x < 2 ^ f.bits →
    (f.value x = .nan → fabsBits f x = f.nan.getD 0 ∧ fnegBits f x = f.nan.getD 0) ∧
    (f.value x ≠ .nan → fabsBits f x = x % f.signW ∧ fnegBits f x = if x < f.signW then x + f.signW else x - f.signW))

/-- R102: the column of special operands; and 2^x and log₂ x of the other operands, correctly rounded wherever the numbers within a 2^(−50)
part of the value all round alike, and always where the value is a power of two or an integer (the model rounds from enclosures, log
entry 14, DESIGN CHOICE). -/
def Obligations.FloatFunctionSpecialOperands : Prop :=
  ∀ (f : Fmt) (r : Rnd) (sat : Bool) (x : Nat), f ∈ elementFormats → x < 2 ^ f.bits →
    let v := f.value x
    let nan := f.nan.getD 0
    (v = .nan → frcpBits f r sat x = nan ∧ frsqBits f r sat x = nan ∧ fsqrtBits f r sat x = nan ∧ fexp2Bits f r sat x = nan ∧
      flog2Bits f r sat x = nan ∧ fintBits f r x = nan) ∧
    (v.isZero = true → frcpBits f r sat x = roundFmt (.inf (f.neg x)) f r sat ∧
      frsqBits f r sat x = roundFmt (.inf (f.neg x)) f r sat ∧ fsqrtBits f r sat x = x ∧
      flog2Bits f r sat x = roundFmt (.inf true) f r sat ∧ fintBits f r x = x) ∧
    (∀ s, v = .inf s → frcpBits f r sat x = f.withSign s 0 ∧ fintBits f r x = x) ∧
    (v = .inf false → frsqBits f r sat x = 0 ∧ fsqrtBits f r sat x = roundFmt (.inf false) f r sat ∧
      fexp2Bits f r sat x = roundFmt (.inf false) f r sat ∧ flog2Bits f r sat x = roundFmt (.inf false) f r sat) ∧
    (v = .inf true → fexp2Bits f r sat x = 0) ∧
    (Less v (.fin false 0 0) → frsqBits f r sat x = nan ∧ fsqrtBits f r sat x = nan ∧ flog2Bits f r sat x = nan) ∧
    (ratOf v = 1 → flog2Bits f r sat x = 0) ∧
    ((∃ s m e, v = .fin s m e) →
      let q : ℝ := ((ratOf v : ℚ) : ℝ)
      (∀ n : Int, ratOf v = n → RoundsTo f r sat false ((2 : ℝ) ^ n) (fexp2Bits f r sat x)) ∧
      (∀ n : Int, ratOf v = (2 : ℚ) ^ n → RoundsTo f r sat (decide (n < 0)) (n : ℝ) (flog2Bits f r sat x)) ∧
      RoundsNear f r sat false ((2 : ℝ) ^ q) (fexp2Bits f r sat x) ∧
      (0 < ratOf v → RoundsNear f r sat (decide (ratOf v < 1)) (Real.logb 2 q) (flog2Bits f r sat x)))

/-- R92, R94: sums, products and powers of two are exact before the one rounding, the order is that of the numbers, and a
zero sum is −0 only under RDN or where both terms are −0. -/
def Obligations.ExactFloatArithmetic : Prop :=
  (∀ (r : Rnd) (a b : Bool) (m n : Nat) (e f k : Int),
    let x := Val.fin a m e
    let y := Val.fin b n f
    ratOf (x.add r y) = ratOf x + ratOf y ∧ ratOf (x.mul y) = ratOf x * ratOf y ∧ ratOf (x.scale k) = ratOf x * (2 : ℚ) ^ k ∧
    (x.add r y).isNan = false ∧ (x.mul y).isNan = false ∧ (x.mul y).sign = (a ^^ b) ∧
    (ratOf x + ratOf y = 0 → (x.add r y).sign = if m = 0 ∧ n = 0 ∧ a = b then a else decide (r = .rdn))) ∧
  (∀ x y : Val, (x.lt y = true ↔ Less x y) ∧ (x.eqv y = true ↔ Same x y)) ∧
  (∀ (r : Rnd) (a b : Bool) (m : Nat) (e : Int),
    Val.add r (.inf a) (.inf b) = (if a = b then .inf a else .nan) ∧
    Val.add r (.inf a) (.fin b m e) = .inf a ∧ Val.add r (.fin b m e) (.inf a) = .inf a ∧
    Val.mul (.inf a) (.fin b m e) = (if m = 0 then .nan else .inf (a ^^ b)) ∧
    Val.mul (.fin b m e) (.inf a) = (if m = 0 then .nan else .inf (a ^^ b)) ∧ Val.mul (.inf a) (.inf b) = .inf (a ^^ b)) ∧
  (∀ (r : Rnd) (x : Val) (k : Int), Val.add r .nan x = .nan ∧ Val.add r x .nan = .nan ∧ Val.mul .nan x = .nan ∧ Val.mul x .nan = .nan ∧
    Val.scale .nan k = .nan ∧ ∀ a, Val.scale (.inf a) k = .inf a)

/-- R92: a finite value goes to the neighbour that the mode chooses in the format's set without an upper limit, what lies beyond the
largest finite value goes by the table of overflow, and NaN gives the canonical NaN; so a value that the format holds stays as it is. -/
def Obligations.RoundingKeepsRepresentable : Prop :=
  (∀ (f : Fmt) (r : Rnd) (sat : Bool) (x : Nat), f ∈ .e2m1 :: .e3m5 :: elementFormats → x < 2 ^ f.bits →
    (∃ s m e, f.value x = .fin s m e) → roundFmt (f.value x) f r sat = x) ∧
  (∀ (f : Fmt) (r : Rnd) (sat s : Bool) (m : Nat) (e : Int), f ∈ .e2m1 :: elementFormats →
    RoundsTo f r sat s ((ratOf (.fin s m e) : ℚ) : ℝ) (roundFmt (.fin s m e) f r sat) ∧
    roundFmt (.inf s) f r sat = overflowOf f sat [] r s ∧ roundFmt .nan f r sat = f.nan.getD 0)

/-- R93, R102: FFLOOR, FCEIL, FTRUNC and FRINT give exactly the integer of their rounding mode and keep the sign; FRCP, FRSQ and FSQRT give
the exact value rounded once. -/
def Obligations.IntegralRoundingIsExact : Prop :=
  ∀ (f : Fmt) (r : Rnd) (x : Nat), f ∈ elementFormats → x < 2 ^ f.bits → (∃ s m e, f.value x = .fin s m e) →
    let q : ℝ := ((ratOf (f.value x) : ℚ) : ℝ)
    ratOf (f.value (fintBits f r x)) = (intRounded r (ratOf (f.value x)) : ℚ) ∧ f.neg (fintBits f r x) = f.neg x ∧
    ∀ sat, (q ≠ 0 → RoundsTo f r sat (f.neg x) (1 / q) (frcpBits f r sat x)) ∧
      (0 < q → RoundsTo f r sat false (1 / √q) (frsqBits f r sat x) ∧ RoundsTo f r sat false (√q) (fsqrtBits f r sat x))

/-- R105, R106: CVT in its three shapes, and the conversions to integers, to E2M1 and between equal types. -/
def Obligations.ConvertResults : Prop :=
  (∀ (w : Bool) (d a : Operand) (b : BitVec 8) (s : State),
    let T := NumType.ofCode (modeCfrom s.g.mode)
    let U := NumType.ofCode (modeCto s.g.mode)
    let one (x : Word) (e : Nat) : Nat := convert T U s.rnd s.sat (x.toNat / 2 ^ (T.bits * e) % 2 ^ T.bits) % 2 ^ U.bits
    (Instr.cvt w d a b).wf = true → badCvt s.g.mode d w b = none →
    ∃ t x, exec (.cvt w d a b) s = .next t ∧ Written s t w d false x ∧ ∀ l,
      (U.bits = T.bits → ∀ e, e < 32 / U.bits → elemNat U.bits (x l) e = one (s.rd a l) e) ∧
      (U.bits < T.bits → ∀ e, e < 16 / U.bits → elemNat U.bits (x l) e = one (s.rd a l) e ∧
        elemNat U.bits (x l) (16 / U.bits + e) = one (s.rd (Operand.ofCode b) l) e) ∧
      (T.bits < U.bits → ∀ e, e < 32 / U.bits →
        elemNat U.bits (x l) e = one ((s.rd a l).extractLsb' (16 * b.toNat) 16 |>.setWidth 32) e)) ∧
  (∀ (f : Fmt) (bits : Nat) (sg : Bool) (r : Rnd) (sat : Bool) (x : Nat), f ∈ .e2m1 :: elementFormats → bits ∈ [8, 32] →
    let v := f.value x
    let y := convert (.flt f) (.int bits sg) r sat x
    (v = .nan → y = 0) ∧ (∀ s, v = .inf s → y = wrapInt bits (heldTo bits sg (if s then -2 ^ 40 else 2 ^ 40))) ∧
    ((∃ s m e, v = .fin s m e) → y = wrapInt bits (heldTo bits sg (intRounded r (ratOf v))))) ∧
  (∀ (f : Fmt) (r : Rnd) (sat : Bool) (x : Nat), f ∈ .e2m1 :: elementFormats →
    convert (.flt f) (.flt f) r sat x = match f.value x with
      | .nan => f.nan.getD 0
      | .inf s => if sat then f.withSign s f.maxEnc else x
      | .fin _ _ _ => x) ∧
  (∀ (f g : Fmt) (r : Rnd) (sat : Bool) (x : Nat), f ≠ g → convert (.flt f) (.flt g) r sat x =
    roundFmt (f.value x) g r (sat || g == .e2m1)) ∧
  (∀ (bits : Nat) (sg : Bool) (r : Rnd) (sat : Bool) (x : Nat), bits ∈ [8, 32] → x < 2 ^ bits →
    (∀ g ∈ Fmt.e2m1 :: elementFormats, RoundsTo g r (sat || g == .e2m1) (decide (intOf bits sg x < 0)) (intOf bits sg x : ℝ)
      (convert (.int bits sg) (.flt g) r sat x)) ∧
    ∀ sh, convert (.int bits sg) (.int bits sh) r sat x = wrapInt bits (heldTo bits sh (intOf bits sg x)))

/-! ### Lane crossing -/

/-- R129 to R132: PERM, BCAST, VREAD, VWRITE, VIDX and VIDXW; the lanes whose index is no register of the allotment fault, with record kind
0x05 and the index as its address. -/
def Obligations.LaneMoves : Prop :=
  ∀ (s : State) (w : Bool) (d a b : Operand) (n : Fin 192) (m : Fin 32) (k : BitVec 8),
    let faulted (t : State) : Prop := FaultsTaken s t false ((lanesOf s.guarded).filter (fun l => decide (s.g.allot ≤ (s.rd a l).toNat)))
      (fun _ => 5) (fun l => (s.rd a l).toNat)
    ((Instr.perm w d a b).wf = true → ∃ t, exec (.perm w d a b) s = .next t ∧
      LaneWritten s t w d false (fun l => (s.rd a ((s.rd b l).toNat % s.g.width)).setWidth 64)) ∧
    ((Instr.bcast w d a k).wf = true → ∃ t, exec (.bcast w d a k) s = .next t ∧
      LaneWritten s t w d false (fun _ => (s.rd a k.toNat).setWidth 64)) ∧
    (∃ t, exec (.vread (.s m) a k) s = .next t ∧ (s.iss.mask = 0 → t = s) ∧
      (s.iss.mask ≠ 0 → ScalarWritten s t (.s m) false ((s.rd a k.toNat).setWidth 64))) ∧
    (∃ t, exec (.vwrite (.v n) a k) s = .next t ∧ RegsOnly s t ∧ t.iss = s.iss ∧ t.g.s = s.g.s ∧
      ∀ r l, l < 64 → t.g.vr r l = if r = n.val ∧ l = k.toNat ∧ s.guarded.getLsbD l then s.rd a 0 else s.g.vr r l) ∧
    ((Instr.vidx w d a).wf = true → (∀ l, s.guarded.getLsbD l = true → (s.rd a l).toNat < s.g.allot) →
      ∃ t, exec (.vidx w d a) s = .next t ∧
        LaneWritten s t w d false (fun l => (s.g.vr (s.rd a l).toNat l).setWidth 64)) ∧
    ((Instr.vidx w d a).wf = true → (∃ l, s.guarded.getLsbD l = true ∧ s.g.allot ≤ (s.rd a l).toNat) →
      ∃ t m, exec (.vidx w d a) s = .next t ∧ GroupOnly s t ∧ faulted t ∧
        t.g = { s.g with v := t.g.v, recs := t.g.recs, faults := t.g.faults } ∧
        LatchTaken s t (fun l => if (s.rd a l).toNat < s.g.allot then (s.g.vr (s.rd a l).toNat l).setWidth 64 else 0) ∧
        (∀ l, m.getLsbD l = (!w && s.guarded.getLsbD l && decide ((s.rd a l).toNat < s.g.allot))) ∧
        VWritten s t d false m (fun l => (s.g.vr (s.rd a l).toNat l).setWidth 64)) ∧
    ((∀ l, s.guarded.getLsbD l = true → (s.rd a l).toNat < s.g.allot) →
      ∃ t, exec (.vidxw d a) s = .next t ∧ RegsOnly s t ∧ t.iss = s.iss ∧ t.g.s = s.g.s ∧
        ∀ r l, l < 64 → t.g.vr r l = if s.guarded.getLsbD l ∧ (s.rd a l).toNat = r then s.rd d l else s.g.vr r l) ∧
    ((∃ l, s.guarded.getLsbD l = true ∧ s.g.allot ≤ (s.rd a l).toNat) →
      ∃ t, exec (.vidxw d a) s = .next t ∧ GroupOnly s t ∧ t.iss = s.iss ∧ faulted t ∧
        t.g = { s.g with v := t.g.v, recs := t.g.recs, faults := t.g.faults } ∧
        ∀ r l, l < 64 → t.g.vr r l =
          if s.guarded.getLsbD l ∧ (s.rd a l).toNat = r ∧ r < s.g.allot then s.rd d l else s.g.vr r l)

/-- R133: REDI and REDF over the fixed tree; lanes outside the issue mask give the identity. -/
def Obligations.Reductions : Prop :=
  (∀ (i : Instr) (fn : BitVec 8) (w : Bool) (d a : Operand) (f : Nat → Nat → Nat → Nat) (ident : Nat → Nat) (s : State) (k : Nat),
    redInteger i = some (fn, w, d, a, f, ident) → i.wf = true → s.g.width = 2 ^ k → k ≤ 6 →
    encodeCore i = some (formA 0x66 w d.code a.code fn) ∧
    ∃ t x, exec i s = .next t ∧ LaneWritten s t w d (modeItype s.g.mode == 3) x ∧
      ∀ l e, e < elemCount (modeItype s.g.mode) →
        let n := elemWidth (modeItype s.g.mode)
        elemNat n (x l) e =
          pairTree (f n) k (fun j => if s.iss.mask.getLsbD j then elemNat n (s.rd64 a j) e else ident n)) ∧
  (∀ (w : Bool) (d a : Operand) (s : State) (k : Nat), (Instr.redfadd w d a).wf = true → s.g.width = 2 ^ k → k ≤ 6 →
    let f := s.fmt
    let x (e j : Nat) : Nat := fElem f (s.rd a j) e
    (∃ t v, exec (.redfadd w d a) s = .next t ∧ LaneWritten s t w d false v ∧ ∀ l e, e < fCount f →
      elemNat f.bits (v l) e = pairTree (fun p q => roundFmt ((f.value p).add s.rnd (f.value q)) f s.rnd s.sat) k
        (fun j => if s.iss.mask.getLsbD j then x e j else f.signW) % 2 ^ f.bits) ∧
    (∀ (i : Instr) (g : Bool), i = (if g then .redfmax w d a else .redfmin w d a) →
      ∃ t v, exec i s = .next t ∧ LaneWritten s t w d false v ∧ ∀ l e, e < fCount f →
        let p := (pairTree (orOther (fminmax g f)) k (fun j => if s.iss.mask.getLsbD j then some (x e j) else none)).getD 0
        elemNat f.bits (v l) e = (if f.value p = .nan then f.nan.getD 0 else p) % 2 ^ f.bits))

/-! ### Encoding -/

/-- R45, R56, R279: words as the manual writes them out, and the instructions they hold. -/
def Obligations.DecodesSpecWords : Prop :=
  decodeCore 0x6C017F05 = .ok (.movi false (.v 1) 0x7F05) ∧ decodeCore 0x5A030102 = .ok (.imax false (.v 3) (.v 1) (.v 2)) ∧
  decodeCore 0x88F201C3 = .ok (.icmpltn (.p 2) (.v 1) (.s 3)) ∧ decodeCore 0x9CF1F2F3 = .ok (.pandn (.p 1) (.p 2) (.p 3)) ∧
  decodeCore 0xA7060203 = .ok (.ffma true (.v 6) (.v 2) (.v 3)) ∧
  decodeCore 0xAC070705 = .ok (.fexp2 false (.v 7) (.v 7)) ∧ decodeCore 0xAE090801 = .ok (.cvt false (.v 9) (.v 8) 1) ∧
  decodeCore 0x12000002 = .ok (.cIf 2) ∧ decodeCore 0xCF000100 = .ok (.redfadd true (.v 0) (.v 1)) ∧
  decodeCore 0xD405C3FE = .ok (.ldlf (.v 5) (.s 3) 0xFE) ∧ decodeCore 0xF304C603 = .ok (.axch true (.v 4) (.s 6) (.v 3)) ∧
  decodeCore 0xFA540110 = .ok (.fence 0x54 0x01 0x10) ∧
  decodeHenat 0x0C00680000000000 = .ok (.henatAdd 0 false 26 0 false) ∧
  decodeHenat 0x2400010100000000 = .ok (.henatFwd 0 false 1 false true) ∧
  decodeHenat 0x2800680400000000 = .ok (.henatFwde 0 false 26 1 false)

/-- R45 to R57: a well-formed compute-core instruction is read back from its word, with every operand. -/
def Obligations.CoreWordsRoundTrip : Prop :=
  ∀ (i : Instr) (w : Word), encodeCore i = some w → i.wf = true → decodeCore w = .ok i

/-- R46, R54 to R57: a word that decodes holds a well-formed instruction, and is the only word of it. -/
def Obligations.DecodedCoreWordIsCanonical : Prop :=
  ∀ (i : Instr) (w : Word), decodeCore w = .ok i → i.wf = true ∧ encodeCore i = some w

/-- R279 to R281: the Henat words, both ways. -/
def Obligations.HenatWordsRoundTrip : Prop :=
  (∀ (i : Instr) (w : DWord), encodeHenat i = some w → henatWf i = true → decodeHenat w = .ok i) ∧
  (∀ (i : Instr) (w : DWord), decodeHenat w = .ok i → henatWf i = true ∧ encodeHenat i = some w)

/-! ### The step and the whole machine -/

/-- R26, R27, R58, R61, R62, R64: a step of a group that is ready executes the instruction that the words at its offset decode to, and
then goes past it; where a check of R58 fails, the trap of that check is taken and nothing issues. A pop that is due comes first (R34); after
the issues of an offset the latches shift where one has made a lane result (R40). A step of an open collective executes the word of its
body; an event is executed as it stands. -/
def Obligations.StepRunsItsInstruction : Prop :=
  (∀ (s : State) (g : Group) (p : Nat) (o : Option Nat) (sp loc slot : Nat) (t : State), s.g = g →
    g.failedVa ≠ some (State.fetchAddr g p g.offset) →
    s.translate g.die g.fn (some g.ckey) (State.fetchAddr g p g.offset) 4 .fetch = (t, .ok sp loc slot o) →
    let w := BitVec.ofNat 32 (natOf (t.coreView g.ckey loc slot 4))
    s.fetchWords [p] = (t.recallLine g.ckey loc, .ok [(p, w)]) ∧
      formIssues g [(p, w)] = [(w, BitVec.twoPow 8 p, planeLanes g g.enabled p)]) ∧
  (∀ (s s1 : State) (k : Nat) (rest : List Activity) (ws : List (Nat × Word)) (x : Word × BitVec 8 × DWord)
      (more : List (Word × BitVec 8 × DWord)) (i : Instr),
    let s2 := { s1 with iss := { s1.iss with mask := x.2.2, planes := x.2.1, word := x.1 } }
    begins s k rest → (atFetch s k rest).fetchWords (fetchPlanes (s.group k)) = (s1, .ok ws) →
    formIssues s1.g ws = x :: more → (more ≠ [] → ∀ y ∈ ws, skeletonOp y.2 = false) → s1.checkIssues (x :: more) = none →
    decodeCore x.1 = .ok i → s2.handlePending i = false → s2.regPending i x.2.2 = false → s2.scalarTaken i x more = none →
    step s = match exec i (if (hReads i).isEmpty then s2 else s2.modG Group.dropLatches) with
      | .next t =>
        let u := ((t.countG 2 1).countG 3 (lanesOf x.2.2).length).issued i
        .next ((if t.iss.trapped then t.issued i
          else if t.iss.cancelled then t.startRejoin
          else if t.iss.hold then t.stash x more
          else if more = [] then u.finishOffset
          else u.modG (fun g => { g with half := some ⟨more, { u.iss with made := true }, false, false⟩ })).reachBoundary k)
      | o => o) ∧
  (∀ (t : State) (k : Nat), t.stopsAtBoundary k = false → t.reachBoundary k = t) ∧
  (∀ t : State, t.g.faults = none →
    t.finishOffset.g.offset = if t.iss.moved then t.g.offset else t.g.offset + 1) ∧
  (∀ t : State, t.g.faults = none → t.g.replays = [] → let u := t.finishOffset
    u.g.latValid = (if t.iss.res then t.g.latValid <<< 1 ||| 1 else t.g.latValid) ∧
    ∀ k l, k < 4 → l < 64 → u.g.latch k l =
      if t.iss.res = false ∨ t.g.all.getLsbD l = false then t.g.latch k l else if k = 0 then t.iss.l0.get l 0 else t.g.latch (k - 1) l) ∧
  (∀ (s : State) (k : Nat) (rest : List Activity) (j : Join) (r : List Join), let g := s.group k
    s.basin.frozen = false → s.agenda = .group k :: rest → g.live = true → g.wait = .ready → g.half = none → g.replays = [] → g.parked = 0 →
    s.stopsAtBoundary k = false → g.joins = j :: r → j.join = g.offset → r.length < 16 →
    (j.phase = false → step s = step (s.setGroup k { g with
      joins := { j with mask := g.notDeferred, phase := true } :: r, offset := j.notTaken })) ∧
    (j.phase = true → step s = step (s.setGroup k { g with joins := r }))) ∧
  (∀ (s s1 : State) (k p : Nat) (rest : List Activity) (h : Off), begins s k rest →
    (atFetch s k rest).fetchWords (fetchPlanes (s.group k)) = (s1, .error (some p)) → canTrap s1 h →
    ∃ t, step s = .next (t.reachBoundary k) ∧ TrapTaken (checkedAt s1 0 (BitVec.twoPow 8 p) 0) t h 0x17 0 0 0) ∧
  (∀ (s s1 : State) (k : Nat) (rest : List Activity), begins s k rest →
    (atFetch s k rest).fetchWords (fetchPlanes (s.group k)) = (s1, .error none) →
    step s = .next (s1.reachBoundary k) ∧ ∃ f p va, s1.g.wait = .page f p va) ∧
  (∀ (s s1 : State) (k : Nat) (rest : List Activity) (ws : List (Nat × Word)) (h : Off), begins s k rest →
    (atFetch s k rest).fetchWords (fetchPlanes (s.group k)) = (s1, .ok ws) → canTrap s1 h →
    let is := formIssues s1.g ws
    let misaligned := (∃ y ∈ ws, skeletonOp y.2 = true) ∧ 1 < is.length
    (misaligned → ∃ (t : State) (w : Word) (occ : BitVec 8), step s = .next (t.reachBoundary k) ∧
      (∀ p, p < 8 → (occ.getLsbD p = true ↔ ∃ y ∈ ws, y.1 = p)) ∧
      TrapTaken (checkedAt (s1.modLife (fun l => { l with planeFaults := satUp l.planeFaults })) w occ s1.g.enabled) t h 0x11 0 0 s1.g.enabled) ∧
    (¬ misaligned → ∀ f, s1.checkIssues is = some f → ∃ t, step s = .next (t.reachBoundary k) ∧
      TrapTaken (checkedAt s1 f.word f.planes f.mask) t h f.kind f.field f.x7 f.mask)) ∧
  (∀ (s : State) (x : Word × BitVec 8 × DWord),
    let finds (kind : Nat) (field : Nat → Prop) : Prop := ∃ f, s.checkIssues [x] = some f ∧ f.kind = kind ∧ field f.field ∧
      f.word = x.1 ∧ f.planes = x.2.1 ∧ f.mask = x.2.2
    (∀ r, decodeCore x.1 = .error r → finds r.kind (· = r.field)) ∧
    (∀ i, decodeCore x.1 = .ok i →
      (∀ r, dynIllegal s.g.mode s.g.width i = some r → finds r.kind (· = r.field)) ∧
      (dynIllegal s.g.mode s.g.width i = none →
        (∀ n, rangeField s.g.mode s.g.allot i = some n → finds 0x14 (· = n)) ∧
        (rangeField s.g.mode s.g.allot i = none →
          (∀ n, latchField s.g.mode s.g.latValid i = some n → finds 0x15 (· = n)) ∧
          (latchField s.g.mode s.g.latValid i = none → (∃ y ∈ hReads i, let h := s.g.h.get y.2 0
            s.stale h = true ∧ s.gotWord h = none) → finds 0x18 (fun _ => True)))))) ∧
  (∀ (s : State) (n : Nat) (rest : List Activity) (c : Coll) (w : DWord) (i : Instr), s.basin.frozen = false →
    s.agenda = .lock n :: rest → s.collOf n = some c → s.bodyDue c = true → c.words[c.pc]? = some w → decodeHenat w = .ok i →
    step s = exec i { s with agenda := rest, curColl := n }) ∧
  (∀ (s : State) (e : Instr) (rest : List Activity), s.basin.frozen = false → s.agenda = .event e :: rest → State.isEvent e = true →
    step s = exec e { s with agenda := rest })

/-- R308, R344: a frozen package stands still, but for package reset and the read-out; the standstill shows as a fault (log entry 47,
DESIGN CHOICE). -/
def Obligations.FrozenPackageStands : Prop :=
  (∀ (s : State) (a : Activity) (r : List Activity), s.basin.frozen = true → s.agenda = a :: r →
    a ≠ .event .packageReset → a ≠ .event .scanReadOut → step s = .fault .frozen) ∧
  (∀ s : State, s.basin.frozen = true → s.agenda = [] → step s = .fault .frozen) ∧
  (∀ (s : State) (e : Instr) (r : List Activity), e = .packageReset ∨ e = .scanReadOut → s.agenda = .event e :: r →
    step s = exec e { s with agenda := r })

/-- R160, R185, R192, R201, R221, R246, R258, R265, R292, R310, R328: what reset leaves. -/
def Obligations.ResetValues : Prop :=
  let s := State.reset
  (∀ d, (s.die d).time = 0 ∧ (s.die d).pool = 0 ∧ (s.die d).filter = [] ∧ (∀ k, ((s.die d).keys.get k {}).owner = none) ∧
    (∀ k, ((s.die d).results.get k {}).valid = false)) ∧
  (∀ k, (s.coreOf k).gen = 1 ∧ (s.coreOf k).snap = [] ∧ (s.coreOf k).score = [] ∧ (s.coreOf k).tileOwner = none ∧
    (s.coreOf k).mx = [] ∧ (s.coreOf k).nm = [] ∧ (s.coreOf k).rt = [] ∧ (∀ i, (s.coreOf k).tiles.get i 0 = 0) ∧
    (∀ i, (s.coreOf k).pred.get i 0 = 0)) ∧
  (∀ k, (s.fnOf k).cfg.enabled = false ∧ (s.fnOf k).tdi = .unlocked ∧ (s.fnOf k).cursor = none ∧ (s.fnOf k).saved = [] ∧
    (∀ c, (s.fnOf k).chains.has c = false)) ∧
  (∀ k, (s.regs.get k {}).state = .free) ∧ s.copies = [] ∧ s.packets = [] ∧
  s.basin.time = 0 ∧ s.basin.round = 0 ∧ s.basin.lines = 0 ∧ s.basin.freezeLine = false ∧ s.basin.active = false ∧
  s.basin.unlocked = false ∧ s.basin.colls = [] ∧ s.basin.pool = [] ∧ s.basin.station0.words = [] ∧ s.basin.station1.words = [] ∧
  (∀ k, (s.basin.slots.get k {}).state = 0) ∧ (∀ k, s.basin.quotas.get k {} = {}) ∧ (∀ k, s.basin.bank0.get k 0 = 0) ∧
  (∀ k, s.basin.bank1.get k 0 = 0) ∧ (∀ k, s.basin.holds.has k = false) ∧
  s.basin.contests.get 0 {} = { enabled := true, hold := false, tenant := 255, mask := 0x1FFFFFF } ∧
  (∀ k, k ≠ 0 → (s.basin.contests.get k {}).enabled = false) ∧
  (∀ k, (s.basin.links.get k {}).modules = [.x64, .x64, .x64, .x64] ∧ (s.basin.dirs.get k {}).replay = [] ∧
    (s.basin.dirs.get k {}).seq = 0 ∧ (s.basin.ports.get k {}).slot0 = .empty ∧ (s.basin.ports.get k {}).epoch = false) ∧
  (∀ k, s.reqSeq.get k 0 = 0)

/-- The invariant holds at reset. -/
def Obligations.ResetInvariant : Prop := Inv State.reset

/-- Every step keeps the canonical form of memory. -/
def Obligations.StepKeepsInvariant : Prop := ∀ s t : State, Inv s → step s = .next t → Inv t

/-! ### Engine commands, handles, the Weir -/

/-- R231 to R239, R243, R244: each engine command whose block or template passes its checks gets its handle and stands in its
queue, its ranges on the scoreboard; a COPEN goes to the Basin. -/
def Obligations.EngineCommandsAccepted : Prop :=
  ∀ (s : State) (n : Fin 8) (a b : Operand) (i : BitVec 8),
    let c := s.coreOf s.g.ckey
    let d := Operand.h n
    let r := s.blkN a
    let size := s.team.lsSize
    (engineFree s 2 0 → s.mxRoom = true → ∃ t o, exec (.mzero d i) s = .next t ∧ Accepted s t 1 n o ∧
      (t.coreOf s.g.ckey).mx = c.mx ++ [(o, .mzero (i.toNat % 8) 16)] ∧ (t.coreOf s.g.ckey).tileOwner = some s.g.team) ∧
    (∀ rs k, s.mloopPlan a = .ok (rs, k) → engineFree s 2 rs.length → s.mxRoom = true →
      ∃ t o, exec (.mloop d a) s = .next t ∧ Accepted s t 1 n o ∧ (t.coreOf s.g.ckey).mx = c.mx ++ [(o, k)] ∧
        (t.coreOf s.g.ckey).score.length = c.score.length + rs.length) ∧
    (let fm := bits (r 1) 8 4;
      let eb := (storeFmt fm).bits / 8;
      let rows := bits (r 3) 0 8;
      let cols := bits (r 3) 8 8;
      let hi := r 0 + (rows - 1) * r 2 + cols * eb;
      bits (r 1) 3 5 = 0 → bits (r 1) 12 4 = 0 → bits (r 1) 17 15 = 0 → bits (r 3) 16 16 = 0 →
      r 4 = 0 → r 5 = 0 → r 6 = 0 → r 7 = 0 → r 0 % 16 = 0 → r 2 % 16 = 0 → hi ≤ size → fm ≤ 3 → 1 ≤ rows → rows ≤ 16 →
      1 ≤ cols → cols ≤ 16 → 16 * eb ≤ r 2 → engineFree s 2 1 → s.mxRoom = true →
      ∃ t o, exec (.mstore d a) s = .next t ∧ Accepted s t 1 n o ∧
        (t.coreOf s.g.ckey).mx = c.mx ++ [(o, .mstore (bits (r 1) 0 3) (r 0) (r 2) rows cols fm (bits (r 1) 16 1 == 1))] ∧
        (t.coreOf s.g.ckey).score = c.score ++ [⟨o.handle, s.g.team, s.team.lsBase + r 0, s.team.lsBase + hi, true, 0⟩]) ∧
    (∀ fa fb, let base := s.blk a 3 ++ s.blk a 2;
      r 6 % 32 = 0 → r 6 + 32 ≤ size → s.formatAt (r 6) = some (fa, fb) → r 7 = 0 →
      r 0 % 16 = 0 → r 0 + r 1 ≤ size → base.toNat % 512 = 0 → r 5 % 16 = 0 → r 5 + 4 * r 4 ≤ size →
      (fa.blockScaled = true → fa.table % 16 = 0 ∧ fa.table + r 1 / 4 ≤ size) → r 1 % 512 = 0 → 1 ≤ r 1 → r 1 ≤ 16384 →
      1 ≤ r 4 → r 4 ≤ 4096 → engineFree s 3 (if fa.blockScaled then 3 else 2) → c.nm.length < 4 →
      ∃ t o, exec (.mvec d a) s = .next t ∧ Accepted s t 2 n o ∧
        (t.coreOf s.g.ckey).nm = c.nm ++ [(o, ⟨r 0, r 1, base, r 4, r 5, fa, fb, 0, false, none⟩)]) ∧
    (∀ q, (∀ k, 3 ≤ k → k ≤ 7 → r k = 0) → r 0 % 512 = 0 → r 1 % 512 = 0 → r 0 + r 2 ≤ size → r 1 + r 2 ≤ size → r 2 % 512 = 0 →
      1 ≤ r 2 → r 2 ≤ 32768 → s.team.ring = some q → engineFree s 5 2 → c.rt.length < 2 →
      ∃ t o, exec (.rotate d a) s = .next t ∧ (t.coreOf s.g.ckey).rt = c.rt ++ [(o, ⟨r 0, r 1, r 2, s.team.rotates, false, r 2 / 128⟩)] ∧
        Accepted s t 4 n o ∧ t.team.rotates = s.team.rotates + 1) ∧
    (∀ s1 s2 bs tm, let va := (s.rdPair a).toNat;
      let data := (s.rd b 0).toNat;
      let chan := bits va 12 2;
      let cfg := (s1.fnOf s.g.fkey).cfg;
      s.fenceHeld 1 = false → va < 2 ^ 48 → bits va 0 12 = 0 → bits va 14 2 = 0 →
      s.translate s.g.die s.g.fn (some s.g.ckey) va 1 .xst = (s1, .aperture) → bits data 0 10 < cfg.templCount →
      s1.vRead s.g.die s.g.fn (cfg.templBase + 64 * bits data 0 10) 64 = (s2, .ok bs) →
      parseTemplate bs size (bits data 10 22) = .ok tm → engineFree s 1 (tm.ranges (bits data 10 22)).length →
      (s.copies.filter (fun c => c.org.die == s.g.die && c.org.core == s.g.core && c.channel == chan && c.keeper.isNone &&
        !s.isSaved c.org.team)).length < 8 →
      ∃ t o cp, exec (.xst d a b) s = .next t ∧ Accepted s t 3 n o ∧ t.copies = s.copies ++ [cp] ∧ cp.org = o ∧ cp.channel = chan ∧
        cp.tile = bits data 10 22 ∧ cp.tmpl = some tm ∧ cp.accepted = 0 ∧ cp.bitmap = 0 ∧
        Activity.event (.copyChunkAcceptance cp.uid) ∈ t.agenda) ∧
    (let object := (s.blk a 5 ++ s.blk a 4).toNat;
      bits (r 0) 14 18 = 0 → bits (r 1) 24 8 = 0 → bits (r 2) 18 14 = 0 → bits (r 6) 5 27 = 0 → r 7 = 0 → object % 64 = 0 →
      r 3 % 256 = 0 → 256 ≤ r 3 → r 3 ≤ 67108864 → engineFree s 4 0 →
      let key := 64 * (s.g.die * 512 + s.g.core) + 24
      ∃ (t : State) (o : Origin) (x : OpenReq) (v : State), exec (.copen d a) s = .next t ∧ Accepted s t 6 n o ∧
        t = v.sendMsg s.g.die 24 false 64 (.copen x.uid) ∧ v.basin = s.basin ∧ v.opens = s.opens ++ [x] ∧
        x = { uid := x.uid, org := o, program := bits (r 0) 8 6, slot := bits (r 0) 0 8,
              parts := BitVec.ofNat 42 (bits (r 1) 0 24 + bits (r 2) 0 16 * 2 ^ 24 + bits (r 2) 16 2 * 2 ^ 40), window := r 3, object := object,
              root := bits (r 6) 0 5, arrived := false, sentAt := s.basin.time.toNat, src := s.g.die * 512 + s.g.core,
              seq := s.reqSeq.get key 0 } ∧ v.reqSeq.get key 0 = s.reqSeq.get key 0 + 1)

/-- R228, R229: HTEST, HCANCEL, HMOV, CHKTEST and CHKWAIT. -/
def Obligations.HandleInstructions : Prop :=
  ∀ (s : State) (n : Fin 8) (p : Fin 8) (m q : Fin 32),
    let h := s.g.h.get n.val 0
    let chunks := s.opBitmap h &&& s.g.pair q.val = s.g.pair q.val
    (∃ t, exec (.htest (.p p) (.h n)) s = .next t ∧ PredWritten s t (.p p) (fun _ => s.opDone h)) ∧
    (s.opDone h = true → exec (.hcancel (.h n)) s = .next s) ∧
    (s.opDone h = false → ∃ t, exec (.hcancel (.h n)) s = .next t ∧ t.groups = s.groups ∧ t.teams = s.teams ∧ t.mem = s.mem ∧
      (∀ c ∈ t.copies, c.org.handle = h → c.org.team = s.g.team → c.cancelled = true) ∧
      (∀ x ∈ (t.coreOf (s.team.die * 512 + s.team.core)).nm, x.1.handle = h → x.1.team = s.g.team → x.2.cancelled = true) ∧
      (∀ x ∈ (t.coreOf (s.team.die * 512 + s.team.core)).mx, x.1.handle = h → x.1.team = s.g.team →
        ∀ tl a b st ia ib fa fb r c k z l, x.2 = .mloop tl a b st ia ib fa fb r c k z l → z = true)) ∧
    (∃ t, exec (.hmov (.s m) (.h n)) s = .next t ∧ ScalarWritten s t (.s m) false (h.setWidth 64)) ∧
    (∃ t, exec (.hmov (.h n) (.s m)) s = .next t ∧ GroupOnly s t ∧ t.iss = s.iss ∧ t.g = { s.g with h := t.g.h } ∧
      ∀ k, t.g.h.get k 0 = if k = n.val then s.g.sr m.val else s.g.h.get k 0) ∧
    (∃ t, exec (.chktest (.p p) (.h n) (.s q)) s = .next t ∧ PredWritten s t (.p p) (fun _ => decide chunks)) ∧
    (s.opDone h = true ∨ chunks → exec (.chkwait (.h n) (.s q)) s = .next s) ∧
    (s.opDone h = false → ¬ chunks → exec (.chkwait (.h n) (.s q)) s = .next s.holdIssue)

/-- R301 to R305: WBID takes the lowest free bid slot, WRES writes the last result, the release of a WREL goes to the Basin and ends a
hold of its own die; a contest that is not open to the function is a fault of the scalar record of R159, with kind 0x02 and the contest as its
address. -/
def Obligations.WeirInstructions : Prop :=
  ∀ (s : State) (n : Fin 8) (a : Operand) (q : Fin 32) (i : BitVec 8), s.fenceHeld 6 = false →
    let c := i.toNat
    let bids := (s.die s.g.die).bids
    let fails (e : Instr) : Prop := ∃ t, exec e s = .next t ∧ GroupOnly s t ∧ t.iss = s.iss ∧
      t.g = { s.g with recs := t.g.recs, faults := t.g.faults } ∧ FaultsTaken s t true [0] (fun _ => 2) (fun _ => c)
    (∀ k, (s.contest c).enabled = true → s.contestOpen s.g.die s.g.fkey c = true → c ≠ 0 → k < 8 → bids.has k = false →
      (∀ j, j < k → bids.has j = true) → engineFree s 6 0 →
      ∃ t o, exec (.wbid (.h n) a i) s = .next t ∧ Accepted s t 5 n o ∧
        (t.die s.g.die).bids.get k ⟨0, 0, 0, o, true, true⟩ = ⟨c, s.rd a 0, o.handle, o, false, false⟩ ∧
        Activity.event (.weirBidArrival s.g.die k) ∈ t.agenda) ∧
    ((s.contest c).enabled = false ∨ s.contestOpen s.g.die s.g.fkey c = false ∨ c = 0 → fails (.wbid (.h n) a i)) ∧
    (s.contestOpen s.g.die s.g.fkey c = true → ∃ t x, exec (.wres (.s q) i) s = .next t ∧ ScalarWritten s t (.s q) true x ∧
      let r := (s.die s.g.die).results.get c {}
      x.extractLsb' 0 32 = r.key ∧ x.getLsbD 63 = r.valid ∧ x.getLsbD 62 = r.held ∧ x.extractLsb' 55 7 = 0 ∧
        x.extractLsb' 50 5 = r.die ∧ x.extractLsb' 47 3 = r.slot ∧ x.extractLsb' 32 15 = r.k) ∧
    (s.contestOpen s.g.die s.g.fkey c = false → fails (.wres (.s q) i) ∧ fails (.wrel i)) ∧
    (s.contestOpen s.g.die s.g.fkey c = true → exec (.wrel i) s = .next { s with agenda := s.agenda ++ [.release s.g.die c] }) ∧
    (∀ rest : List Activity, s.basin.frozen = false → s.agenda = .release s.g.die c :: rest →
      (∀ h, s.holdOf c = some h → h.die.toNat = s.g.die →
        ∃ t, step s = .next t ∧ t = { s with agenda := rest, basin := { s.basin with holds := t.basin.holds } } ∧
          t.holdOf c = some { h with released := true }) ∧
      ((∀ h, s.holdOf c = some h → h.die.toNat ≠ s.g.die) → step s = .next { s with agenda := rest }))

/-! ### The local store -/

/-- R136, R138 to R144: LDL takes its values at issue; of the lanes of an LDLF or LDLP that cover no common word, those whose words are full
take theirs, LDLF leaving them empty, and the others wait. A lane outside the allocation or misaligned faults alone. -/
def Obligations.LocalLoads : Prop :=
  ∀ (s : State) (d a : Operand) (i : BitVec 8), s.fenceHeld 0 = false →
    let n := modeBytes s.g.mode
    let ls := s.accessLanes d.isS
    let good := ls.filter (localPasses s a i)
    let at' := localPlace s a i
    let lo (l : Nat) : Nat := at' l / 4
    let hi (l : Nat) : Nat := (at' l + n + 3) / 4
    let part (l : Nat) : LoadPart := { lane := l, space := 0, loc := at' l, value := some (extendValue s.g.mode n (s.natAt (at' l) n)), expo := none }
    s.localBlocked (s.localGood ls a i n) n false = false →
    (∃ t, exec (.ldl d a i) s = .next t ∧ AccessOnly s t ∧ LocalFaults s t d.isS ls a i ∧ t.mem = s.mem ∧ t.empties = s.empties ∧
      t.reqs = s.reqs ∧ (good = [] → t.loads = s.loads) ∧ (good ≠ [] → LoadMade s t d.isS (regNum d) (good.map part))) ∧
    (∀ (full : Nat → Bool) (e : Instr) (k : FeKind), e = .ldlf d a i ∧ k = .ldlf ∨ e = .ldlp d a i ∧ k = .ldlp →
      s.feWaits = [] → (∀ p ∈ s.groups, p.2.wait ≠ .fullEmpty) → (∀ l ∈ good, ∀ j ∈ good, j ≠ l → hi l ≤ lo j ∨ hi j ≤ lo l) →
      (∀ l ∈ good, full l = true ↔ ∀ w, lo l ≤ w → w < hi l → w ∉ s.empties) →
      let served := good.filter full
      ∃ t, exec e s = .next t ∧ t.mem = s.mem ∧ t.reqs = s.reqs ∧ LocalFaults s t d.isS ls a i ∧
        FullEmptyMade s t k d.isS (regNum d) (served.map part) served ((good.filter (fun l => !full l)).map (fun l => (l, at' l))) ∧
        ∀ w, w ∈ t.empties ↔ w ∈ s.empties ∨ k = .ldlf ∧ ∃ l ∈ served, lo l ≤ w ∧ w < hi l)

/-- R136, R138 to R144, R147: STL stores in ascending lanes and fills the words it covers; of the lanes of an STLE that cover no common word,
those whose words are empty do the same, and the others wait; FESET fills or empties ranges of words. A lane outside the allocation or
misaligned faults alone. -/
def Obligations.LocalStores : Prop :=
  ∀ (s : State) (d a : Operand) (i : BitVec 8), s.fenceHeld 0 = false →
    let n := modeBytes s.g.mode
    let scalar := d.isS && a.isS
    let ls := s.accessLanes scalar
    let good := ls.filter (localPasses s a i)
    let at' := localPlace s a i
    let lo (l : Nat) : Nat := at' l / 4
    let hi (l : Nat) : Nat := (at' l + n + 3) / 4
    let byte (l k : Nat) : Byte := BitVec.ofNat 8 ((s.rd128 d l).toNat / 256 ^ k)
    (s.localBlocked (s.localGood ls a i n) n true = false →
      (∃ t, exec (.stl d a i) s = .next t ∧ AccessOnly s t ∧ LocalFaults s t scalar ls a i ∧ t.loads = s.loads ∧ t.reqs = s.reqs ∧
        (∀ x, (∀ l ∈ good, x < at' l ∨ at' l + n ≤ x) → t.byteAt x = s.byteAt x) ∧
        (Inv s → ∀ l ∈ good, (∀ j ∈ good, l < j → apart n (at' l) (at' j)) → ∀ k, k < n → t.byteAt (at' l + k) = byte l k) ∧
        ∀ w, w ∈ t.empties ↔ w ∈ s.empties ∧ ∀ l ∈ good, w < lo l ∨ hi l ≤ w) ∧
      (∀ empty : Nat → Bool, s.feWaits = [] → (∀ p ∈ s.groups, p.2.wait ≠ .fullEmpty) →
        (∀ l ∈ good, ∀ j ∈ good, j ≠ l → hi l ≤ lo j ∨ hi j ≤ lo l) →
        (∀ l ∈ good, empty l = true ↔ ∀ w, lo l ≤ w → w < hi l → w ∈ s.empties) →
        let served := good.filter empty
        ∃ t, exec (.stle d a i) s = .next t ∧ t.reqs = s.reqs ∧ LocalFaults s t scalar ls a i ∧
          FullEmptyMade s t .stle scalar 0 [] served ((good.filter (fun l => !empty l)).map (fun l => (l, at' l))) ∧
          (∀ x, (∀ l ∈ served, x < at' l ∨ at' l + n ≤ x) → t.byteAt x = s.byteAt x) ∧
          (Inv s → ∀ l ∈ served, ∀ k, k < n → t.byteAt (at' l + k) = byte l k) ∧
          ∀ w, w ∈ t.empties ↔ w ∈ s.empties ∧ ∀ l ∈ served, w < lo l ∨ hi l ≤ w)) ∧
    (let ms := s.accessLanes a.isS
      let x (l : Nat) : Nat := (s.rd a l).toNat
      let len (l : Nat) : Nat := (s.rd d l).toNat
      let ok (l : Nat) : Bool := decide (x l % 4 = 0) && decide (x l + 4 * len l ≤ s.team.lsSize)
      let covers (l w : Nat) : Prop := ok l = true ∧ len l ≠ 0 ∧ s.lsLoc (x l) / 4 ≤ w ∧ w < (s.lsLoc (x l) + 4 * len l + 3) / 4
      let faulted (t : State) : Prop := FaultsTaken s t a.isS (ms.filter (fun l => !ok l)) (fun l => if x l % 4 = 0 then 1 else 3) x
      (∀ l ∈ ms, ok l = true → len l ≠ 0 → s.scoreConflict s.g.ckey (s.team.lsBase + x l) (s.team.lsBase + x l + 4 * len l) true = false) →
      (∃ t, exec (.feset d a true) s = .next t ∧ AccessOnly s t ∧ faulted t ∧ t.mem = s.mem ∧
        ∀ w, w ∈ t.empties ↔ w ∈ s.empties ∧ ∀ l ∈ ms, ¬ covers l w) ∧
      (∃ t, exec (.feset d a false) s = .next t ∧ AccessOnly s t ∧ faulted t ∧ t.mem = s.mem ∧
        ∀ w, w ∈ t.empties ↔ w ∈ s.empties ∨ ∃ l ∈ ms, covers l w))

/-- R144 to R146: ALADD and ALCAS change the value at each lane's address and, with W = 0, return the old one. A lane outside the allocation
or misaligned faults alone (R136). -/
def Obligations.LocalAtomics : Prop :=
  ∀ (s : State) (w : Bool) (d a : Operand) (i : BitVec 8) (e : Instr) (f : Nat → Nat → Nat → Nat),
    (e = .aladd w d a i ∧ f = fun old x _ => old + x) ∨ (e = .alcas w d a i ∧ f = fun old x y => if old = x then y else old) →
    s.fenceHeld 0 = false →
    let n := modeBytes s.g.mode
    let ls := s.accessLanes (!w && d.isS)
    let good := ls.filter (localPasses s a i)
    let at' := localPlace s a i
    let op (l : Nat) : Nat := (if n = 8 then (s.rd64 d l).toNat else (s.rd d l).toNat) % 2 ^ (8 * n)
    s.localBlocked (s.localGood ls a i n) n true = false →
    ∃ t, exec e s = .next t ∧ AccessOnly s t ∧ LocalFaults s t (!w && d.isS) ls a i ∧ t.empties = s.empties ∧ t.reqs = s.reqs ∧
      (∀ x, (∀ l ∈ good, x < at' l ∨ at' l + n ≤ x) → t.byteAt x = s.byteAt x) ∧
      (Inv s → ∀ l ∈ good, (∀ j ∈ good, j ≠ l → apart n (at' l) (at' j)) →
        t.natAt (at' l) n = f (s.natAt (at' l) n) (op l) ((s.rdAt d l 1).toNat % 2 ^ (8 * n)) % 2 ^ (8 * n)) ∧
      (w = true ∨ good = [] → t.loads = s.loads) ∧
      (w = false → good ≠ [] → (∀ l ∈ good, ∀ j ∈ good, j ≠ l → apart n (at' l) (at' j)) →
        LoadMade s t d.isS (regNum d) (good.map (fun l =>
          { lane := l, space := 0, loc := at' l, value := some (extendValue s.g.mode n (s.natAt (at' l) n)), expo := none })))

/-! ### Global memory -/

/-- R37, R148 to R152, R156 to R158: the checks of a lane's address in their order; LDG makes one load of the lanes that translate, with the
values at their homes where the core's snapshot is empty and it has no request outstanding; where the home is another pound, it asks there
for the line and the lane waits; its other lanes fault or park, or the whole access stops; PREFG brings the lines of the lanes that translate
into the snapshot, or asks for them. That the load holds the values that stand at issue is the model's choice (log entry 24). -/
def Obligations.GlobalLoads : Prop :=
  (∀ (s : State) (va n : Nat) (acc : Acc), acc = .load ∨ acc = .store ∨ acc = .atomic →
    let x := (s.translate s.g.die s.g.fn (some s.g.ckey) va n acc).2
    let found := s.leafOf s.g.die s.g.fn (some s.g.ckey) va
    (2 ^ 48 ≤ va → x = .fault 1) ∧ (va < 2 ^ 48 → va % n ≠ 0 → x = .fault 3) ∧
    (va < 2 ^ 48 → va % n = 0 →
      (found.2 = none → x = .fault 1) ∧
      ((s.coreOf s.g.ckey).tlb = [] → (s.die s.g.die).tlb2 = [] →
        (∀ e sz, walkFrom s.mem s.g.die va [39, 30, 21] (s.fnOf s.g.fkey).cfg.root = some (e, sz) →
          e.getLsbD 0 = false ∨ pteType e = 0 ∨ pteType e = 7) → x = .fault 1) ∧
      (∀ e sz, found.2 = some (e, sz) →
        (e.getLsbD 1 = false → x = .absent s.g.fkey (va / 2 ^ sz * 2 ^ sz)) ∧
        (e.getLsbD 1 = true → pteType e ∉ admittedTypes acc ∨ lacksRight acc e ∨
          (pteType e = 1 ∨ pteType e = 2) ∧ found.1.keyOwner s.g.die (pteSlot e) ≠ some s.g.fn → x = .fault 2) ∧
        (e.getLsbD 1 = true → pteType e = 1 → ¬ lacksRight acc e → found.1.keyOwner s.g.die (pteSlot e) = some s.g.fn →
          let frame := pteFrame e / 2 ^ sz * 2 ^ sz
          x = if found.1.fencedIn (dieLoc s.g.die frame) (2 ^ sz) then .fault 4 else .ok 1 (dieLoc s.g.die (frame + va % 2 ^ sz)) (pteSlot e) none)))) ∧
  (∀ (s s1 : State) (d a b : Operand) (xs : List Lane), s.fenceHeld 0 = false →
    s.translateLanes (s.accessLanes d.isS) a b (modeBytes s.g.mode) .load = (s1, xs) →
    let n := modeBytes s.g.mode
    let ps := partsOf xs
    (xs.map (fun x => x.lane) = s.accessLanes d.isS) ∧
    (¬ goesOn s d.isS xs → ∃ t, exec (.ldg d a b) s = .next t ∧ LanesStopped s t d.isS xs) ∧
    (goesOn s d.isS xs → ∃ t, exec (.ldg d a b) s = .next t ∧ LanesLeft s t d.isS xs ∧ (ps = [] → t.loads = s.loads) ∧
      (ps ≠ [] → s.reqs = [] → s.iss.run = 0 → (s.coreOf s.g.ckey).snap = [] → (∀ p ∈ ps, p.loc % 64 + n ≤ 64) →
        (∀ p ∈ ps, ∀ q ∈ ps, p.loc / 64 = q.loc / 64 → p.slot = q.slot) →
        LoadMade s t d.isS (regNum d) (ps.map (fun p =>
          { p with value := if homePound p.loc = s.g.die ∨ homePound p.loc = s.g.ckey / 512
                     then some (extendValue s.g.mode n (natOf (s.coreView s.g.ckey p.loc p.slot n))) else none })) ∧
        ((∀ p ∈ ps, homePound p.loc = s.g.ckey / 512) → t.reqs = []) ∧
        ∀ p ∈ ps, homePound p.loc ≠ s.g.ckey / 512 → ∃ r ∈ t.reqs, r.isRead = true ∧ r.home = homePound p.loc ∧ r.srcKey = s.g.ckey ∧
          ∃ q ∈ r.parts, q.loc = p.loc / 64 * 64))) ∧
  (∀ (s s1 : State) (a b : Operand) (xs : List Lane), s.fenceHeld 0 = false →
    s.translateLanes (lanesOf s.guarded) a b (modeBytes s.g.mode) .load = (s1, xs) →
    ∃ t, exec (.prefg a b) s = .next t ∧ t.groups = s.groups ∧ t.iss = s.iss ∧ t.mem = s.mem ∧ t.loads = s.loads ∧
      ∀ p ∈ partsOf xs, (t.snapLine s.g.ckey s.g.fn p.loc).isSome = true ∨
        homePound p.loc ≠ s.g.ckey / 512 ∧ t.linePending s.g.ckey p.loc = true)

/-- R37, R152, R156, R157, R163, R176, R266: STG and the atomics send a request for the lanes of memory spaces to each pound they reach,
STG one store to the Basin for a lane of an alias window; memory does not change yet, and the publish counts go up. Their other lanes
fault or park, or the whole access stops. That the lanes of an issue that reach one pound make one request is the model's choice (log
entry 25). -/
def Obligations.GlobalStoresAndAtomics : Prop :=
  ∀ (s s1 : State) (xs : List Lane), s.g.live = true →
    let n := modeBytes s.g.mode
    let ps := partsOf xs
    let sent (t : State) (scalar : Bool) : Prop :=
      LanesLeft s t scalar xs ∧ t.loads = s.loads ∧ (ps = [] → t.reqs = s.reqs) ∧ t.aliases = s.aliases ∧
        ∀ sp, t.g.pubCount.get sp 0 = s.g.pubCount.get sp 0 + ps.countP (fun p => p.space == sp)
    (∀ (d a b : Operand), let scalar := d.isS && b.isUni
      s.translateLanes (s.accessLanes scalar) a b n .store = (s1, xs) → (∀ x ∈ xs, laneAliased x = false) → s.fenceHeld 0 = false →
      (¬ goesOn s scalar xs → ∃ t, exec (.stg d a b) s = .next t ∧ LanesStopped s t scalar xs) ∧
      (goesOn s scalar xs → ∃ t, exec (.stg d a b) s = .next t ∧ sent t scalar ∧ (ps ≠ [] → RequestsMade s t .store scalar 0 (ps.map (fun p =>
        { lane := p.lane, va := p.va, space := p.space, loc := p.loc, slot := p.slot, expo := p.expo, data := s.rd128 d p.lane, cmp := 0, old := 0,
          fwd := false }))))) ∧
    (∀ (d a b : Operand) (l va slot win off : Nat),
      s.translateLanes (s.accessLanes (d.isS && b.isUni)) a b n .store = (s1, [⟨l, va, .aliased slot win off⟩]) →
      s.fenceHeld 4 = false → s.openPending slot = false → ∃ (t v : State) (x : AliasStore), exec (.stg d a b) s = .next t ∧
        t = v.sendMsg s.g.die 24 false n (.aliasStore x.uid) ∧ t.reqs = s.reqs ∧ t.mem = s.mem ∧
        t.g = { s.g with failedVa := t.g.failedVa, pubCount := t.g.pubCount } ∧ v.aliases = s.aliases ++ [x] ∧
        x = { uid := x.uid, gkey := s.cur, team := s.g.team, die := s.g.die, tenant := (s.fnOf s.g.fkey).cfg.tenant, slot, window := win, off,
              bytes := bytesOf n (s.rd128 d l).toNat, arrived := false, relayed := false, sentAt := s.basin.time.toNat,
              replayed := s.iss.run != 0, src := s.g.ckey, seq := s.reqSeq.get (64 * s.g.ckey + 24) 0 } ∧
        v.reqSeq.get (64 * s.g.ckey + 24) 0 = s.reqSeq.get (64 * s.g.ckey + 24) 0 + 1 ∧
        t.g.pubCount.get 3 0 = s.g.pubCount.get 3 0 + 1) ∧
    (∀ (i : Instr) (code : BitVec 7) (op : AtomOp) (w : Bool) (d a b : Operand), let scalar := !w && d.isS
      atomicForm i = some (code, op, w, d, a, b) → s.translateLanes (s.accessLanes scalar) a b n .atomic = (s1, xs) → s.fenceHeld 0 = false →
      encodeCore i = some (formA code w d.code a.code b.code) ∧
      (¬ goesOn s scalar xs → ∃ t, exec i s = .next t ∧ LanesStopped s t scalar xs) ∧
      (goesOn s scalar xs → ∃ t parts, exec i s = .next t ∧ sent t scalar ∧
        (ps ≠ [] → RequestsMade s t (.atomic op (!w)) scalar (regNum d) parts) ∧
        parts.map (fun (p : Part) => { p with fwd := false }) = ps.map (fun p =>
          { lane := p.lane, va := p.va, space := p.space, loc := p.loc, slot := p.slot, expo := p.expo,
            data := if n = 8 then (s.rd64 d p.lane).setWidth 128 else (s.rd d p.lane).setWidth 128, cmp := (s.rdAt d p.lane 1).setWidth 64,
            old := 0, fwd := false })))

/-- R127, R148, R152, R162, R165, R174, R175, R183, R190: PHASE publishes, waiting for what it covers, and refreshes the core's snapshot; a
publish of die memory beyond the core shows the group's fault records to other cores, and nothing else does; FENCE records a point, or waits
for the oldest of four, and shows nothing; WAITC compares a word of its own die at once, and waits until it reaches its threshold; it asks
the home of another word, and waits for the answer; it faults, or stops its group for a page, as a scalar-class access does. What a publish at
cluster or die scope with H waits for is the model's choice (log entry 78). -/
def Obligations.PhaseFenceWaitc : Prop :=
  ∀ (s : State) (d a b : BitVec 8) (i : BitVec 2) (p q : Operand),
    let scope := (d.extractLsb' 0 3).toNat
    let st := d.extractLsb' 3 5
    let waits := i.getLsbD 0 = true ∧ 2 ≤ scope ∧ unpublished s s.cur scope st
    let system := scope = 5 ∧ st.getLsbD 4 = true
    let shows := i.getLsbD 0 = true ∧ 2 ≤ scope ∧ st.getLsbD 1 = true
    let refreshed (t : State) (r : Bool) : Prop := (t.coreOf s.g.ckey).snap =
      (if r then (s.coreOf s.g.ckey).snap.filter (fun x => !coversSpace st x.space) else (s.coreOf s.g.ckey).snap)
    (waits → ∃ t, exec (.phase d i) s = .next t ∧ GroupOnly s t ∧ t.iss = { s.iss with hold := true } ∧
      t.g = { s.g with wait := .publish scope st (i.getLsbD 1) }) ∧
    (¬ waits → ∃ t, exec (.phase d i) s = .next t ∧ t.iss = s.iss ∧ (∀ k, k ≠ s.cur → t.group k = s.group k) ∧
      t.g = { s.g with busy := if i.getLsbD 1 then s.g.busy + 32 else s.g.busy } ∧ refreshed t (i.getLsbD 1) ∧
      (shows → t.veils = s.veils.filter (fun v => !(v.gkey == s.cur && v.team == s.g.team))) ∧ (¬ shows → t.veils = s.veils) ∧
      (i.getLsbD 0 = false ∨ ¬ system → t.mem = s.mem)) ∧
    (∀ f rest, s.g.fences = f :: rest →
      (f.awaited = true → exec (.fence d a b) s = .next s.holdIssue) ∧
      (f.awaited = false → 4 ≤ s.g.fences.length → exec (.fence d a b) s =
        .next ((s.setG { s.g with fences := { f with awaited := true } :: rest }).holdIssue))) ∧
    (s.g.fences.length < 4 → (∀ f ∈ s.g.fences.head?, f.awaited = false) →
      ((∀ r ∈ s.reqs, r.gkey ≠ s.cur) → (∀ l ∈ s.loads, l.gkey ≠ s.cur) → (∀ x ∈ s.aliases, x.gkey ≠ s.cur) →
        (∀ x ∈ s.sures, ∀ u m, x.act ≠ .stored u s.cur m) →
        (∀ e ∈ s.team.ops, e.2.gkey = s.cur → e.2.pending = false) →
        ∃ t, exec (.fence d a b) s = .next t ∧ t.iss = s.iss ∧ t.groups = s.groups ∧ t.veils = s.veils ∧ refreshed t (b.getLsbD 0) ∧
          (¬ system → t.mem = s.mem)) ∧
      (∀ r ∈ s.reqs, r.gkey = s.cur → r.team = s.g.team → r.pending = true → r.isLook = false →
        (∃ x ∈ r.parts, coversSpace st x.space = true) → a.getLsbD 0 = true → 2 ≤ scope →
        ∃ t f, exec (.fence d a b) s = .next t ∧ GroupOnly s t ∧ t.iss = s.iss ∧ t.g = { s.g with fences := s.g.fences ++ [f] } ∧
          f.scope = scope ∧ f.storage = st ∧ f.later = b.setWidth 7 ∧ r.uid ∈ f.reqs)) ∧
    (∀ s1 x, let va := (s.rdPair p).toNat
      s.g.failedVa ≠ some va → s.translate s.g.die s.g.fn (some s.g.ckey) va 8 .waitc = (s1, x) →
      (∀ sp loc slot e, x = .ok sp loc slot e →
        ∃ t, exec (.waitc p q) s = .next t ∧ t.mem = s.mem ∧ t.iss = s.iss ∧ (∀ k, k ≠ s.cur → t.group k = s.group k) ∧
          t.g = { s.g with latValid := 0, failedVa := none,
                           wait := if homePound loc ≠ s.g.die ∨ s1.natSlot loc slot 8 < (s.rdPair q).toNat then .waitc loc slot (s.rdPair q)
                                   else s.g.wait } ∧
          (homePound loc ≠ s.g.die → ∃ r ∈ t.reqs, r.kind = .word ∧ r.gkey = s.cur ∧ r.home = homePound loc ∧
            r.parts.map (fun y => y.loc) = [loc])) ∧
      (∀ k, x = .fault k → ∃ t, exec (.waitc p q) s = .next t ∧ t.mem = s.mem ∧ t.iss = s.iss ∧
        (∀ j, j ≠ s.cur → t.group j = s.group j) ∧ FaultsTaken s t true [0] (fun _ => k) (fun _ => va) ∧
        t.g = { s.g with failedVa := none, recs := t.g.recs, faults := t.g.faults }) ∧
      (∀ f pg, x = .absent f pg → s.iss.made = false → ∃ t, exec (.waitc p q) s = .next t ∧ t.iss = { s.iss with hold := true } ∧
        t.g.wait = .page f pg va ∧ t.requested f pg = true))

/-! ### Henat bodies -/

/-- R277, R283: LOAD, ADD, MAX and MIN of a ready chunk, ADDA, SCALE, ROUND and COPY; what does not act goes on, and what is
not ready waits. -/
def Obligations.HenatArithmetic : Prop :=
  ∀ (s : State) (c : Coll), s.collOf s.curColl = some c →
    let mayAct (last : Bool) : Prop := last = true → c.next + 1 = c.window / 256
    let passed (i : Instr) : Prop := exec i s = .next (s.setColl s.curColl { c with pc := c.pc + 1 })
    let old (a : BitVec 3) (e : Nat) : Nat := (c.acc.get (128 * a.toNat + e) 0).toNat
    let made (i : Instr) (d : BitVec 3) (n : Nat) (f : Nat → Nat) : Prop :=
      ∃ acc : Table Word, exec i s = .next (s.setColl s.curColl { c with pc := c.pc + 1, acc := acc }) ∧
        ∀ k, acc.get k 0 =
          if 128 * d.toNat ≤ k ∧ k < 128 * d.toNat + n then BitVec.ofNat 32 (f (k - 128 * d.toNat)) else c.acc.get k 0
    (∀ i d bf p w last f, henatPort i = some (d, bf, p, w, last, f) →
      let byte (k : Nat) : Nat := (c.stage.get (stageKey w.toNat c.next p.toNat k) 0).toNat
      let count := c.counts.get (countKey w.toNat c.next p.toNat) 0
      (¬ mayAct last → passed i) ∧ (mayAct last → count ≠ 256 → exec i s = .next s) ∧
      (mayAct last → count = 256 → made i d (if bf then 128 else 64) (fun e => f (old d e) (chunkElem bf byte e)))) ∧
    (∀ i d a last f, henatAccumulator i = some (d, a, last, f) →
      (¬ mayAct last → passed i) ∧ (mayAct last → made i d 128 (fun e => f (old d e) (old a e))))

/-- R276, R284 to R287: END, MATCH, SKIPNL and FAIL; FWD, GATH and BAR leave their writes and arrives in ascending dies
(here while none of the dies has joined, or an earlier one waits for a page: those toward dies that have joined are on their way), FWDE its
packet. -/
def Obligations.HenatControlAndWrites : Prop :=
  ∀ (s : State) (c : Coll), s.collOf s.curColl = some c →
    let mayAct (last : Bool) : Prop := last = true → c.next + 1 = c.window / 256
    let passed (i : Instr) (outs : List CollOut) : Prop :=
      ∃ t fl, exec i s = .next t ∧ t.mem = s.mem ∧
        t.collOf s.curColl = some { c with pc := c.pc + 1, outs := c.outs ++ outs, flying := fl } ∧
        ∀ d, let n := (c.outs ++ outs).countP (fun o => State.outDie o == d)
          fl.get d 0 = if c.fixed = true ∧ (∃ b ∈ c.bindings, b.die = d) ∧ c.landed.get d 0 + c.flying.get d 0 < n
            then n - c.landed.get d 0 else c.flying.get d 0
    let ports (k : BitVec 2) : List Nat := (List.range 42).filter (fun p => (c.masks.getD k.toNat 0).getLsbD p)
    let count (w : BitVec 2) (p : Nat) : Nat := c.counts.get (countKey w.toNat c.next p) 0
    let put (k : BitVec 2) (bar : Bool) (bs : List Byte) : List CollOut :=
      (ports k).flatMap (fun p => .write p (256 * c.next) bs :: if bar ∧ c.next + 1 = c.window / 256 then [.arrive p c.next] else [])
    let formed (a : BitVec 3) (bf : Bool) : List Byte :=
      (List.range 256).map (formedByte bf (fun e => (c.acc.get (128 * a.toNat + e) 0).toNat))
    (c.outs = [] → c.waiting = none → ∃ t, exec .henatEnd s = .next t ∧ t.mem = s.mem ∧ t.groups = s.groups ∧
      ∃ d, t.collOf s.curColl = some d ∧ d.next = c.next + 1 ∧ d.pc = 0 ∧ d.acc = [] ∧
        (∀ w p, w < 3 → p < 64 → c.next < 2 ^ 18 → d.counts.get (countKey w c.next p) 0 = 0) ∧
        (d.next < c.window / 256 → Activity.event (.chunkBody s.curColl) ∈ t.agenda) ∧
        (c.window / 256 ≤ d.next → Activity.event (.collectiveCompletion s.curColl) ∈ t.agenda)) ∧
    (∀ k w last, (¬ mayAct last ∨ ∀ p ∈ ports k, count w p = 256) →
      exec (.henatMatch k w last) s = .next (s.setColl s.curColl { c with pc := c.pc + 1 })) ∧
    (∀ k w last, mayAct last → (∃ p ∈ ports k, count w p ≠ 256) → exec (.henatMatch k w last) s = .next s) ∧
    exec .henatSkipnl s =
      .next (s.setColl s.curColl { c with pc := if c.next + 1 = c.window / 256 then c.pc + 1 else c.pc + 2 }) ∧
    (∀ code last, mayAct last → c.bindings = [] → c.openers = [] →
      ∃ t, exec (.henatFail code last) s = .next t ∧ t.collOf s.curColl = none ∧ t.mem = s.mem) ∧
    (∀ code last, mayAct last → ∃ t, exec (.henatFail code last) s = .next t) ∧
    (c.waiting ≠ none ∨ c.bindings = [] →
      (∀ a bf k last bar, mayAct last → passed (.henatFwd a bf k last bar) (put k bar (formed a bf))) ∧
      (∀ k p w last bar, mayAct last → count w p.toNat = 256 → passed (.henatGath k p w last bar)
        (put k bar ((List.range 256).map (fun b => c.stage.get (stageKey w.toNat c.next p.toNat b) 0)))) ∧
      (∀ k last, mayAct last → passed (.henatBar k last) ((ports k).map (fun p => .arrive p c.next)))) ∧
    (∀ a bf p w last, mayAct last → ∃ t q, exec (.henatFwde a bf p w last) s = .next t ∧ t.mem = s.mem ∧
      t.collOf s.curColl = some { c with pc := c.pc + 1, fwde := c.fwde + 1 } ∧ q ∈ t.packets ∧
      q.port = p.toNat ∧ q.fwde = some (s.curColl, w.toNat, c.next) ∧ q.payload = formed a bf) ∧
    (∀ i last, (∃ a bf k bar, i = .henatFwd a bf k last bar) ∨ (∃ k p w bar, i = .henatGath k p w last bar) ∨ (∃ k, i = .henatBar k last) ∨
        (∃ a bf p w, i = .henatFwde a bf p w last) ∨ (∃ x, i = .henatFail x last) →
      ¬ mayAct last → exec i s = .next (s.setColl s.curColl { c with pc := c.pc + 1 }))

/-! ### Events: groups and accesses -/

/-- R38, R84 to R87, R138 to R140, R165, R174, R175, R190, R191: what ends a group's wait. A WAITC on a word of its own die is compared at once;
one on another word asks its home, unless that evaluates it at each write. -/
def Obligations.GroupEvents : Prop :=
  ∀ (s : State) (k : Nat),
    let g := s.group k
    let others (t : State) : Prop := ∀ j, j ≠ k → t.group j = s.group j
    (∀ loc slot thr e, g.wait = .waitc loc slot thr → e = .waitcWake k ∨ e = .waitcPoll k →
      let own := homePound loc = k / 16 / 512
      let ends := ∃ t, exec e s = .next t ∧ t.group k = { g with wait := .ready } ∧ others t ∧ t.mem = s.mem
      (own → s.natSlot loc slot 8 < thr.toNat → ∃ t, exec e s = .next t ∧ t.groups = s.groups ∧ t.mem = s.mem) ∧
      (own → thr.toNat ≤ s.natSlot loc slot 8 → ends) ∧ (¬ own → thr = 0 → ends) ∧
      (¬ own → thr ≠ 0 → ∃ t, exec e s = .next t ∧ t.groups = s.groups ∧ t.mem = s.mem ∧
        (s.evaluated k loc = false → ∃ r ∈ t.reqs, r.kind = .word ∧ r.gkey = k ∧ r.team = g.team))) ∧
    (∀ scope st refresh, g.wait = .publish scope st refresh →
      let shown := 2 ≤ scope ∧ st.getLsbD 1 = true
      (unpublished s k scope st → exec (.publishCompletion k) s = .next s) ∧
      (¬ unpublished s k scope st → ∃ t, exec (.publishCompletion k) s = .next t ∧ others t ∧
        t.group k = { g with wait := .ready, busy := if refresh then g.busy + 32 else g.busy } ∧
        (refresh = true → (t.coreOf g.ckey).snap = (s.coreOf g.ckey).snap.filter (fun x => !coversSpace st x.space)) ∧
        t.veils = (if shown then s.veils.filter (fun v => !(v.gkey == k && v.team == g.team)) else s.veils) ∧
        (¬ (scope = 5 ∧ st.getLsbD 4 = true) → t.mem = s.mem))) ∧
    (∀ i f, g.fences[i]? = some f →
      (∀ u ∈ f.reqs, (∀ r ∈ s.reqs, r.uid = u → r.pending = false) ∧ (∀ a ∈ s.aliases, a.uid ≠ u) ∧ s.storedAck u = false) →
      (∀ u ∈ f.loads, ∀ l ∈ s.loads, l.uid ≠ u) →
      (∀ h ∈ f.ops, ((s.teamOf g.team).ops.get (h.toNat % 128) {}).handle = h →
        ((s.teamOf g.team).ops.get (h.toNat % 128) {}).pending = false) →
      ∃ t, exec (.fencePointSatisfied k i) s = .next t ∧ others t ∧ t.veils = s.veils ∧
        t.group k = { g with fences := g.fences.eraseIdx i } ∧
        (f.later.getLsbD 0 = true → (t.coreOf g.ckey).snap = (s.coreOf g.ckey).snap.filter (fun x => !coversSpace f.storage x.space)) ∧
        (¬ (f.scope = 5 ∧ f.storage.getLsbD 4 = true) → t.mem = s.mem)) ∧
    (∀ n ck, g.wait = .grow n → (s.coreOf ck).growQ = [k] → s.lanesFree g n = true →
      ∃ t, exec (.growGrant ck) s = .next t ∧ others t ∧ t.mem = s.mem ∧ (t.coreOf ck).growQ = [] ∧
        t.group k = { g with v := (t.group k).v, allot := g.allot + n, latValid := 0, wait := .ready, offset := g.offset + 1 } ∧
        ∀ r l, l < 64 → (t.group k).vr r l = if g.allot ≤ r ∧ r < g.allot + n then 0 else g.vr r l) ∧
    (∀ n, g.wait = .shrink n →
      (s.loadInto k (g.allot - n) g.allot = true → exec (.shrinkRelease k) s = .next s) ∧
      (s.loadInto k (g.allot - n) g.allot = false → ∃ t, exec (.shrinkRelease k) s = .next t ∧ others t ∧ t.mem = s.mem ∧
        t.group k = { g with allot := g.allot - n, wait := .ready, offset := g.offset + 1 })) ∧
    (g.wait = .rejoin → g.waitPages = [] →
      (g.failedPages = [] → ∃ t, exec (.rejoinReplay k) s = .next t ∧ others t ∧ t.mem = s.mem ∧
        (t.group k).wait = .ready ∧ (t.group k).parked = 0 ∧ (t.group k).offset = (if g.parked = 0 then g.rejoinAt else g.parkOffset) ∧
        (t.group k).replays = ⟨g.parked, g.rejoinAt, g.latValid, g.shifts, g.latCut⟩ :: g.replays ∧ (t.group k).shifts = [] ∧
        (t.group k).latCut = false ∧ (t.group k).latValid = g.parkLatValid ∧
        (t.group k).v = g.v ∧ (t.group k).s = g.s ∧ (t.group k).recs = g.recs ∧
        ∀ j l, j < 4 → l < 64 → (t.group k).latch j l = if g.parked.getLsbD l then g.parkLat.get (64 * j + l) 0 else g.latch j l) ∧
      (∀ p, g.parkedOn = [p] → (p.fkey, p.page) ∈ g.failedPages → p.lane < 64 →
        ∃ t r, exec (.rejoinReplay k) s = .next t ∧ (t.group k).recs = g.recs ++ [(16 * p.lane, 16, r)] ∧
          r / 2 ^ 24 % 2 ^ 8 = 8 ∧ r / 2 ^ 64 = p.va ∧ (t.group k).faults.isSome = true)) ∧
    (∀ w ck, s.feWaits = [w] → w.gkey = k → g.ckey = ck → g.wait = .fullEmpty →
      let lo := w.loc / 4
      let hi := (w.loc + w.n + 3) / 4
      let free (t : State) : Prop := t.feWaits = [] ∧ t.group k = { g with wait := .ready, served := 0 }
      let part : LoadPart := { lane := w.lane, space := 0, loc := w.loc, value := some (extendValue w.mode w.n (s.natAt w.loc w.n)), expo := none }
      let load (t : State) : Prop := ∃ x : Load, t.loads = s.loads ++ [x] ∧
        x = { uid := x.uid, gkey := k, team := w.team, die := g.die, core := g.core, fn := g.fn, n := w.n, mode := w.mode, scalar := w.scalar,
              dst := w.dst, parts := [part] }
      (w.kind = .ldlp → (∀ x, lo ≤ x → x < hi → x ∉ s.empties) →
        ∃ t, exec (.fullEmptyService ck) s = .next t ∧ free t ∧ load t ∧ t.mem = s.mem ∧ t.empties = s.empties) ∧
      (w.kind = .ldlf → (∀ x, lo ≤ x → x < hi → x ∉ s.empties) →
        ∃ t, exec (.fullEmptyService ck) s = .next t ∧ free t ∧ load t ∧ t.mem = s.mem ∧
          ∀ x, x ∈ t.empties ↔ x ∈ s.empties ∨ (lo ≤ x ∧ x < hi)) ∧
      (w.kind = .stle → (∀ x, lo ≤ x → x < hi → x ∈ s.empties) → tableLoc (2 ^ 48) ≤ w.loc →
        ∃ t, exec (.fullEmptyService ck) s = .next t ∧ free t ∧ t.loads = s.loads ∧
          (∀ x, x < w.loc ∨ w.loc + w.n ≤ x → t.byteAt x = s.byteAt x) ∧
          (Inv s → ∀ i, i < w.n → t.byteAt (w.loc + i) = BitVec.ofNat 8 (w.data.toNat / 256 ^ i)) ∧
          ∀ x, x ∈ t.empties ↔ x ∈ s.empties ∧ (x < lo ∨ hi ≤ x)))

/-- R16, R142, R157, R160, R163 to R165, R176, R190, R311, R313: a load's data return to its registers, once the line of another pound that it
waits for has come; a store and an atomic are performed at their home once, in their turn, under the key slot of their page; a request of
another die stays until its answer arrives, and a duplicate of it is answered with what was recorded; the answer of another pound takes down
the group's count, and brings the old value of an atomic, a line, or the word of a WAITC. That a load without a value yet takes the bytes
that stand at its return is the model's choice (log entry 24). -/
def Obligations.AccessEvents : Prop :=
  ∀ (s : State) (u : Nat),
    let others (t : State) (k : Nat) : Prop := ∀ j, j ≠ k → t.group j = s.group j
    let put (t : State) (k : Nat) (scalar : Bool) (dst lane n : Nat) (x : BitVec 128) : Prop :=
      let m := regsOf n
      (∀ r, (t.group k).sr r = if scalar ∧ dst ≤ r ∧ r < dst + m then x.extractLsb' (32 * (r - dst)) 32 else (s.group k).sr r) ∧
      ∀ r l, l < 64 → (t.group k).vr r l =
        if ¬ scalar ∧ l = lane ∧ dst ≤ r ∧ r < dst + m then x.extractLsb' (32 * (r - dst)) 32 else (s.group k).vr r l
    (∀ l p, s.loads.find? (fun x => x.uid == u) = some l → l.parts = [p] → p.lane < 64 →
      let held := s.atomicPending l.ckey u p.loc l.n = true ∨ l.replayed = true ∧ s.runPending l.gkey l.team u = true
      let far := homePound p.loc ≠ l.die ∧ homePound p.loc ≠ l.ckey / 512
      let member := (s.group l.gkey).live = true ∧ (s.group l.gkey).team = l.team
      let returned (t : State) (v : BitVec 128) : Prop := t.mem = s.mem ∧ others t l.gkey ∧ (∀ x ∈ t.loads, x.uid ≠ u) ∧
        (¬ member → t.group l.gkey = s.group l.gkey) ∧ (member → put t l.gkey l.scalar l.dst p.lane l.n v)
      (∀ v, p.value = some v → ∃ t, exec (.loadDataReturn u) s = .next t ∧ returned t v) ∧
      (p.value = none → held → exec (.loadDataReturn u) s = .next s) ∧
      (p.value = none → ¬ held → far → s.lineHeld l.ckey l.fn p.loc = false → ∃ t, exec (.loadDataReturn u) s = .next t ∧ t.mem = s.mem ∧
        t.groups = s.groups ∧ t.loads = s.loads ∧ t.linePending l.ckey p.loc = true) ∧
      (p.value = none → ¬ held → (far → s.lineHeld l.ckey l.fn p.loc = true) → ∃ t v, exec (.loadDataReturn u) s = .next t ∧ returned t v ∧
        (s.reqs = [] → p.loc % 64 + l.n ≤ 64 →
          (s.snapLine l.ckey l.fn p.loc = none → v = extendValue l.mode l.n (natOf (s.coreView l.ckey p.loc p.slot l.n))) ∧
          ∀ x, s.snapLine l.ckey l.fn p.loc = some x → (∀ y ∈ (s.coreOf l.ckey).snap, y.line = x.line → y.fn = x.fn → y = x) →
            v = extendValue l.mode l.n (natOf ((x.bytes.drop (p.loc % 64)).take l.n))))) ∧
    (∀ r p, s.reqs.find? (fun x => x.uid == u) = some r → r.parts = [p] → p.space ≠ 5 → p.loc + r.n ≤ tableLoc 0 →
      let own := r.home = r.srcDie
      let outside (t : State) : Prop := (∀ x, x < p.loc ∨ p.loc + r.n ≤ x →
          Inv s ∨ x / 64 < p.loc / 64 ∨ (p.loc + r.n - 1) / 64 < x / 64 → t.slotByte p.slot x = s.slotByte p.slot x) ∧
        ∀ x, x / 64 < p.loc / 64 ∨ (p.loc + r.n - 1) / 64 < x / 64 → t.byteAt x = s.byteAt x
      let told (t : State) : Prop := (s.group r.gkey).live = true → (s.group r.gkey).team = r.team → (t.group r.gkey).pubCount.get p.space 0 =
        if own then (s.group r.gkey).pubCount.get p.space 0 - 1 else (s.group r.gkey).pubCount.get p.space 0
      let stays (t : State) (x : Nat) : Prop := ∃ y, t.reqs.find? (fun z => z.uid == u) = some y ∧ y.performed = true ∧
        (own ∨ y.arrived = false) ∧ y.parts.map (fun q => q.old) = [BitVec.ofNat 64 x]
      (r.performed = true → (own ∨ r.arrived = false) → exec (.requestArrival u) s = .next s) ∧
      (r.performed = true → ¬ own → r.arrived = true → ∃ t, exec (.requestArrival u) s = .next t ∧ t.mem = s.mem ∧
        t.groups = s.groups ∧ t.loads = s.loads ∧ ∃ y, t.reqs.find? (fun z => z.uid == u) = some y ∧ y.performed = true ∧
          y.arrived = false ∧ y.parts = (s.recorded r).parts) ∧
      (r.performed = false → s.reqDue r = false → exec (.requestArrival u) s = .next s) ∧
      (r.performed = false → s.reqDue r = true →
        (r.kind = .store → ∃ t, exec (.requestArrival u) s = .next t ∧ (own → ∀ x ∈ t.reqs, x.uid ≠ u) ∧
          (¬ own → ∃ y, t.reqs.find? (fun z => z.uid == u) = some y ∧ y.performed = true ∧ y.arrived = false) ∧
          OthersStand s t r.gkey ∧ t.loads = s.loads ∧ outside t ∧ told t ∧
          (Inv s → ∀ i, i < r.n → t.slotByte p.slot (p.loc + i) = BitVec.ofNat 8 (p.data.toNat / 256 ^ i))) ∧
        (∀ op ret, r.kind = .atomic op ret → ∃ t, exec (.requestArrival u) s = .next t ∧ OthersStand s t r.gkey ∧ t.loads = s.loads ∧
          outside t ∧ told t ∧ (Inv s → t.natSlot p.loc p.slot r.n =
            State.atomNew op r.mode r.n (s.natSlot p.loc p.slot r.n) (p.data.toNat % 2 ^ (8 * r.n)) p.cmp.toNat % 2 ^ (8 * r.n)) ∧
          (own → ret = false → ∀ x ∈ t.reqs, x.uid ≠ u) ∧
          (own → ret = true → Activity.event (.atomicReply u) ∈ t.agenda) ∧
          (¬ own ∨ ret = true → stays t (s.natSlot p.loc p.slot r.n))) ∧
        (r.kind = .read → ¬ own → ∃ t, exec (.requestArrival u) s = .next t ∧ t.mem = s.mem ∧ t.groups = s.groups ∧ t.loads = s.loads ∧
          ∃ y, t.reqs.find? (fun z => z.uid == u) = some y ∧ y.performed = true ∧ y.arrived = false ∧
            y.parts.map (fun q => q.data.toNat) = [natOf (s.coreView r.srcKey p.loc p.slot r.n) % 2 ^ 128]) ∧
        (r.kind = .word → ¬ own → ∃ t, exec (.requestArrival u) s = .next t ∧ t.mem = s.mem ∧ t.groups = s.groups ∧ t.loads = s.loads ∧
          stays t (s.natSlot p.loc p.slot 8)))) ∧
    (∀ r, s.reqs.find? (fun x => x.uid == u) = some r → r.performed = true → r.isRead = true →
      ∃ t, exec (.atomicReply u) s = .next t ∧ t.mem = s.mem ∧ t.groups = s.groups ∧ (∀ x ∈ t.reqs, x.uid ≠ u) ∧
        (∀ p more, r.parts = p :: more → r.stale = false → s.snapLine r.srcKey r.fn p.loc = none →
          t.lineHeld r.srcKey r.fn p.loc = true ∧
            (t.snapLine r.srcKey r.fn p.loc).map (fun x => x.bytes) = some (r.parts.flatMap (fun q => bytesOf r.n q.data.toNat))) ∧
        ∀ l ∈ s.loads, l.ckey = r.srcKey → Activity.event (.loadDataReturn l.uid) ∈ t.agenda) ∧
    (∀ r p, s.reqs.find? (fun x => x.uid == u) = some r → r.parts = [p] → r.performed = true → r.kind = .word →
      ∃ t, exec (.atomicReply u) s = .next t ∧ t.mem = s.mem ∧ others t r.gkey ∧ (∀ x ∈ t.reqs, x.uid ≠ u) ∧
        ∀ slot thr, (s.group r.gkey).team = r.team → (s.group r.gkey).wait = .waitc p.loc slot thr →
          t.group r.gkey = if thr.toNat ≤ p.old.toNat then { s.group r.gkey with wait := .ready } else s.group r.gkey) ∧
    (∀ r p, s.reqs.find? (fun x => x.uid == u) = some r → r.parts = [p] → r.performed = true → r.isLook = false → p.lane < 64 →
      ∃ t, exec (.atomicReply u) s = .next t ∧ t.mem = s.mem ∧ others t r.gkey ∧ (∀ x ∈ t.reqs, x.uid ≠ u) ∧
        ((s.group r.gkey).live = true → (s.group r.gkey).team = r.team →
          (r.ret = true → put t r.gkey r.scalar r.dst p.lane r.n (extendValue r.mode r.n p.old.toNat)) ∧
          (r.ret = false → (t.group r.gkey).v = (s.group r.gkey).v ∧ (t.group r.gkey).s = (s.group r.gkey).s) ∧
          (t.group r.gkey).pubCount.get p.space 0 = if r.home = r.srcDie then (s.group r.gkey).pubCount.get p.space 0
            else (s.group r.gkey).pubCount.get p.space 0 - 1))

/-! ### Events: launches and pre-emption -/

/-- R202 to R220: queues and their checks, selection, records and their rejection, chains, placement, the end of teams and grids, pre-emption
with its three actions. The model's choices among them: which of several ready chain nodes of a queue is chosen (log entry 70), PREEMPT's
status 3 for a misaligned result and 2 for columns that are not the function's, bits of zero fields ignored (entry 35), the order of saved
and flushed teams and what of a saved team is kept (entries 34 and 72), the groups and allotments that the costs count (entry 83). -/
def Obligations.LaunchEvents : Prop :=
  ∀ (s : State) (die fn q team : Nat),
    let k := die * 8 + fn
    let f := s.fnOf k
    let x := f.queues.get q {}
    let tm := s.teamOf team
    let header := f.cfg.queueArea + 64 * q
    let select := Instr.launchSelection die fn
    (∀ bs, (parseHeader bs).ok = true ↔ (∃ n, n ≤ 16 ∧ (parseHeader bs).entries = 2 ^ n) ∧ (parseHeader bs).base % 256 = 0 ∧
      recAt bs 6 2 = 0 ∧ recAt bs 12 4 / 4 % 2 ^ 29 = 0) ∧
    (∀ s1 bs, s.served k = true → x.stopped = false →
      (s.watchWord die fn (header + 16) (.event (.launchQueueTailWrite die fn q))).partRead (State.depReader k q) die fn header 64 = (s1, .ok bs) →
      let h := parseHeader bs
      let u := s1.noteHeader k q h
      let stops (cause : Byte) : Prop := exec (.launchQueueTailWrite die fn q) s = .next
        (((u.partPut k ((u.fnOf k).cfg.queueArea + 64 * q + 12) (bytesOf 4 (recAt bs 12 4 % 4))).faultRecord k 4 [BitVec.ofNat 8 q, cause]).post select)
      (h.enabled = true → h.ok = false → stops 1) ∧
      (h.enabled = true → h.ok = true → h.entries < (h.tail + 2 ^ 64 - h.head) % 2 ^ 64 → stops 0) ∧
      (h.enabled = false ∨ h.ok = true ∧ (h.tail + 2 ^ 64 - h.head) % 2 ^ 64 ≤ h.entries →
        exec (.launchQueueTailWrite die fn q) s = .next (u.post select)) ∧
      (h.enabled = true → ((u.fnOf k).queues.get q {}).prio = h.prio)) ∧
    (∀ s1 why, s.served k = true → x.stopped = false →
      (s.watchWord die fn (header + 16) (.event (.launchQueueTailWrite die fn q))).partRead (State.depReader k q) die fn header 64 = (s1, .bad why) →
      ∃ u : State, exec (.launchQueueTailWrite die fn q) s = .next ((u.faultRecord k 4 [BitVec.ofNat 8 q, 2]).post select) ∧ u.mem = s1.mem ∧
        ((u.fnOf k).queues.get q {}).stopped = true) ∧
    (∀ (r : LaunchRec) (c : Nat), 1 ≤ c → c ≤ 8 →
      let fails (c : Nat) : Prop := match c with
        | 1 => r.zeros = false
        | 2 => r.allot % 16 ≠ 0 ∨ r.allot < 16 ∨ 192 < r.allot
        | 3 => r.lsBytes % 768 ≠ 0 ∨ 589824 < r.lsBytes
        | 4 => ¬ (r.clusterW = 0 ↔ r.clusterH = 0) ∨ 12 < r.clusterW * r.clusterH ∨ r.gx * r.gy * r.gz % r.unit ≠ 0
        | 5 => r.gx * r.gy * r.gz = 0 ∨ 2 ^ 32 - 1 < r.gx * r.gy * r.gz
        | 6 => r.codeBase % 256 ≠ 0 ∨ r.stride % 256 ≠ 0 ∨ r.stride < 256
        | 7 => r.bound = true ∧ (r.tileBytes % 256 ≠ 0 ∨ r.tileBytes < 256 ∨ 32768 < r.tileBytes ∨ r.resultOff % 256 ≠ 0 ∨ r.aliasStride % 256 ≠ 0 ∨
            r.aliasStride < r.tileBytes ∨ r.lsBytes < r.resultOff + r.tileBytes ∨ 2 ^ 26 < (r.gx * r.gy * r.gz - 1) * r.aliasStride + r.tileBytes)
        | _ => s.everFits k r = false
      s.recordCode k r = some c ↔ fails c ∧ ∀ j, 1 ≤ j → j < c → ¬ fails j) ∧
    (∀ s1 s3 cs p h bs whole, s.served k = true → f.cursor = none → s.candidates die fn (List.range 16) = (s1, cs) →
      State.chooseQueue (s1.fnOf k).rr cs = some (q, p) →
      let s2 := s1.modFn k (fun f => { f with rr := f.rr.set p ((q + 1) % 16)
                                              queues := f.queues.set q { f.queues.get q {} with aged := 0, since := none } })
      s2.readyNode k q = none → s2.checkQueue die fn q = (s3, some h) → ((s3.fnOf k).queues.get q {}).rcd = some (bs, whole) → bs ≠ [] →
      let addr := h.base + 256 * (h.head % h.entries)
      let r := parseRecord bs
      let s4 := (s3.partPut k ((s3.fnOf k).cfg.queueArea + 64 * q + 24) (bytesOf 8 (h.head + 1))).modFn k (fun f =>
        { f with queues := f.queues.set q { f.queues.get q {} with rcd := none } })
      (s4.recordCode k r = none → whole = true → ∃ t u, exec select s = .next t ∧ t.mem = s4.mem ∧ t.groups = s4.groups ∧
        (t.fnOf k).cursor = some (u, 0) ∧ Activity.event (.teamPlacement die fn) ∈ t.agenda ∧
        (r.chainNext = 0 → t.launch u = { live := true, die := die, fn := fn, addr := addr, queue := q, chain := none, rcd := r }) ∧
        (r.chainNext ≠ 0 → ∃ c n, t.launch u = { live := true, die := die, fn := fn, addr := addr, queue := q, chain := some c, rcd := r } ∧
          (t.fnOf k).chains.get c ⟨0, 0, 0, false, false, 0, {}⟩ = n ∧ n.addr = addr ∧ n.node = 0 ∧ n.queue = q ∧ n.running = true)) ∧
      (∀ c, s4.recordCode k r = some c ∨ s4.recordCode k r = none ∧ whole = false ∧ c = 9 →
        let told := s4.faultRecord k 3 (bytesOf 8 addr ++ bytesOf 1 c)
        exec select s = .next ((if r.barrier = 0 then told else told.arriveFor k r.barrier 2 1).post select))) ∧
    (s.served k = true → ∃ t, exec (.launchQueueTailWrite die fn q) s = .next t ∧ Activity.event (.launchSelection die fn) ∈ t.agenda) ∧
    (∀ rr cs p, State.chooseQueue rr cs = some (q, p) → (q, p) ∈ cs ∧ (∀ c ∈ cs, c.2 ≤ p) ∧
      ∀ r, r < 16 → (r, p) ∈ cs → (q + 16 - rr.get p 0 % 16) % 16 ≤ (r + 16 - rr.get p 0 % 16) % 16) ∧
    (∀ s1 cs p c n, s.served k = true → f.cursor = none → s.candidates die fn (List.range 16) = (s1, cs) →
      State.chooseQueue (s1.fnOf k).rr cs = some (q, p) → s1.readyNode k q = some (c, n) →
      ∃ t u, exec (.launchSelection die fn) s = .next t ∧ (t.fnOf k).cursor = some (u, 0) ∧ (t.fnOf k).rr.get p 0 = (q + 1) % 16 ∧
        t.launch u = { live := true, die := die, fn := fn, addr := n.addr, queue := q, chain := some c, rcd := n.rcd } ∧
        Activity.event (.teamPlacement die fn) ∈ t.agenda) ∧
    (∀ since, x.since = some since → since + 65536 ≤ s.basin.time.toNat →
      ∃ t, exec (.priorityAging die fn q) s = .next t ∧ t = { s with fns := t.fns } ∧
        (t.fnOf k).queues.get q {} = { x with aged := min 3 (x.aged + 1), since := some (since + 65536) }) ∧
    (∀ c n s1 bs, f.chains.has c = true → s.served k = true → f.chains.get c ⟨0, 0, 0, false, false, 0, {}⟩ = n →
      n.ready = false → n.running = false → s.recordWhenDue die fn n.addr (16 + c) = (s1, some (bs, true)) → bs ≠ [] →
      s1.recordCode k (parseRecord bs) = none →
      ∃ t, exec (.chainNodeReady die fn c) s = .next t ∧ Activity.event (.launchSelection die fn) ∈ t.agenda ∧
        (t.fnOf k).chains.get c ⟨0, 0, 0, false, false, 0, {}⟩ = { n with ready := true, rcd := parseRecord bs }) ∧
    (∀ l i, f.cursor = some (l, i) → (∃ y ∈ f.saved, y.fresh = false ∨ (s.teamOf y.uid).launch = l) →
      exec (.teamPlacement die fn) s = .next s) ∧
    (∀ l i t1, f.cursor = some (l, i) → s.served k = true → (∀ y ∈ f.saved, y.fresh = true ∧ (s.teamOf y.uid).launch ≠ l) →
      (s.launch l).rcd.cooperative = false → s.placeUnit l i = some t1 →
      ∃ t, exec (.teamPlacement die fn) s = .next t ∧ t.groups = t1.groups ∧ t.teams = t1.teams ∧ t.mem = t1.mem ∧
        (t.launch l).placed = (t1.launch l).placed + (s.launch l).rcd.unit ∧
        (t.fnOf k).cursor = (if i + (s.launch l).rcd.unit < (s.launch l).rcd.teams then some (l, i + (s.launch l).rcd.unit) else none)) ∧
    (∀ l i core ctx octet base, (s.launch l).rcd.clusterW = 0 → (s.launch l).rcd.groups = 1 →
      s.fitUnit ((s.launch l).die * 8 + (s.launch l).fn) 0 (s.launch l).rcd.clusterH [some (s.launch l).rcd.need] =
        some [(core, [(ctx, octet)], base)] →
      let r := (s.launch l).rcd
      let ck := (s.launch l).die * 512 + core
      ∃ t1 u, s.placeUnit l i = some t1 ∧ (t1.teamOf u).live = true ∧ (t1.teamOf u).index = i ∧ (t1.teamOf u).lsBase = base ∧
        (t1.teamOf u).lsSize = r.lsBytes ∧ (t1.teamOf u).groups = [ck * 16 + ctx] ∧
        (t1.group (ck * 16 + ctx)).live = true ∧ (t1.group (ck * 16 + ctx)).offset = 0 ∧ (t1.group (ck * 16 + ctx)).latValid = 0 ∧
        (t1.group (ck * 16 + ctx)).mode = 0x0200003F ∧ (t1.group (ck * 16 + ctx)).allot = r.allot ∧
        (∀ n m, (t1.group (ck * 16 + ctx)).vr n m = 0) ∧ (t1.group (ck * 16 + ctx)).sr 0 = BitVec.ofNat 32 i ∧
        (∀ n, 4 ≤ n → (t1.group (ck * 16 + ctx)).sr n = 0) ∧
        (∀ a, localLoc ck base ≤ a → a < localLoc ck base + r.lsBytes → Memory.read t1.mem a = 0) ∧
        ∀ a, a < localLoc ck base ∨ localLoc ck base + r.lsBytes ≤ a → Memory.read t1.mem a = Memory.read s.mem a) ∧
    (tm.live = true → s.teamGroups team = [] →
      ∃ t, exec (.teamEnd team) s = .next t ∧ (t.teamOf team).live = false ∧ t.mem = s.mem ∧ t.groups = s.groups ∧
        (t.launch tm.launch).ended = (s.launch tm.launch).ended + 1 ∧ (t.launch tm.launch).bad = ((s.launch tm.launch).bad || tm.bad) ∧
        ((s.launch tm.launch).rcd.bound = true → Activity.event (.exitFiredChunk team) ∈ t.agenda)) ∧
    (∀ n c, team ∈ (s.launch tm.launch).firing → tm.bad = false → tm.die < 24 → (∀ e ∈ (s.coreOf (tm.die * 512 + tm.core)).score, e.team ≠ team) →
      s.openColl (s.fnOf (tm.die * 8 + tm.fn)).cfg.tenant (s.launch tm.launch).rcd.slot = some (n, c) →
      s.holdsSlot (s.fnOf (tm.die * 8 + tm.fn)).cfg.tenant (s.launch tm.launch).rcd.slot = true ∨ c.fixed = true ∧ c.endpoint = true →
      let r := (s.launch tm.launch).rcd
      ∃ t new, exec (.exitFiredChunk team) s = .next t ∧ t.aliases = s.aliases ++ new ∧ t.mem = s.mem ∧ new.length = r.tileBytes / 256 ∧
        team ∉ (t.launch tm.launch).firing ∧
        ∀ i (h : i < new.length), new[i].off = tm.index * r.aliasStride + 256 * i ∧ new[i].window = 0 ∧ new[i].slot = r.slot ∧
          new[i].arrived = false ∧ new[i].die = tm.die ∧ new[i].bytes = ((s.bytesAt (localLoc (tm.die * 512 + tm.core) (tm.lsBase + r.resultOff)) r.tileBytes).drop (256 * i)).take 256) ∧
    (team ∈ (s.launch tm.launch).firing → tm.bad = false → (∀ e ∈ (s.coreOf (tm.die * 512 + tm.core)).score, e.team ≠ team) →
      (∀ e, s.openColl (s.fnOf (tm.die * 8 + tm.fn)).cfg.tenant (s.launch tm.launch).rcd.slot = some e →
        s.holdsSlot (s.fnOf (tm.die * 8 + tm.fn)).cfg.tenant (s.launch tm.launch).rcd.slot = false ∧ (e.2.fixed = false ∨ e.2.endpoint = false)) →
      ∃ t, exec (.exitFiredChunk team) s = .next t ∧ t.aliases = s.aliases ∧ team ∉ (t.launch tm.launch).firing ∧ (t.launch tm.launch).bad = true) ∧
    (∀ l, (s.launch l).live = true → s.gridBusy l = false → (s.launch l).waiting = none → (s.launch l).chain = none →
      ((s.launch l).rcd.barrier = 0 ∨ (s.launch l).arrived = true →
        ∃ t, exec (.gridCompletion l) s = .next t ∧ t.launch l = { s.launch l with live := false, arrived := true } ∧ t.mem = s.mem) ∧
      (∀ s1, (s.launch l).rcd.barrier ≠ 0 → (s.launch l).arrived = false →
        s.arriveAt (s.launch l).die (s.launch l).fn (s.launch l).rcd.barrier (if (s.launch l).bad then 2 else 0) false = (s1, .ok ()) →
        ∃ t, exec (.gridCompletion l) s = .next t ∧ (t.launch l).live = false ∧ t.mem = s1.mem)) ∧
    (∀ (b8 b16 : DWord) result,
      let cols : BitVec 20 := b8.setWidth 20
      let bound := b16.toNat % 2 ^ 32
      (result % 64 ≠ 0 → exec (.preempt die fn b8 b16 result) s = .next (s.complete k result 3)) ∧
      (result % 64 = 0 → cols &&& ~~~(s.columns k) ≠ 0 → exec (.preempt die fn b8 b16 result) s = .next (s.complete k result 2)) ∧
      (result % 64 = 0 → cols &&& ~~~(s.columns k) = 0 →
        (s.unitsOn k cols = [] → ∃ t, exec (.preempt die fn b8 b16 result) s = .next t ∧ t.groups = s.groups ∧ t.mem = s.mem ∧
          (t.fnOf k).preempts.getLast? = some ⟨cols, bound, result, [], [], 0, 0, 0, 0, 0, 0⟩ ∧
          Activity.event (.preemptionCompletion die fn) ∈ t.agenda) ∧
        (∀ u, s.unitsOn k cols = [u] → (∃ x ∈ u, (s.teamOf x).live = true) →
          let drains := s.drainCost u ≤ bound
          (drains ∨ s.saveCost u ≤ bound ∨ s.canFlush u = false) →
          ∃ t, exec (.preempt die fn b8 b16 result) s = .next t ∧ t.groups = s.groups ∧ t.mem = s.mem ∧
            (t.fnOf k).preempts.getLast? = some ⟨cols, bound, result, if drains then [u] else [], if drains then [] else [u],
              0, 0, 0, if drains ∨ s.saveCost u ≤ bound then 0 else 1, 0, 0⟩) ∧
        (s.unitsOn k cols = [[team]] → tm.live = true → tm.die * 8 + tm.fn = k → bound < s.drainCost [team] → bound < s.saveCost [team] →
          (s.launch tm.launch).rcd.restartable = true →
          ∃ t, exec (.preempt die fn b8 b16 result) s = .next t ∧ (t.teamOf team).live = false ∧ (∀ g ∈ tm.groups, t.group g = {}) ∧
            (∃ y ∈ (t.fnOf k).saved, y.uid = team ∧ y.fresh = true) ∧ (∀ c ∈ t.copies, c.org.team ≠ team) ∧
            (t.fnOf k).preempts.getLast? = some ⟨cols, bound, result, [], [], 0, 0, 1, 0, 0, 0⟩))) ∧
    (∀ p, f.preempts = [p] → p.draining ≠ [] →
      (p.spent < p.bound → exec (.drainBoundExpiry die fn) s = .next s) ∧
      (p.bound ≤ p.spent → ∃ t, exec (.drainBoundExpiry die fn) s = .next t ∧
        Activity.event (.preemptionCompletion die fn) ∈ t.agenda ∧ t.groups = s.groups ∧
        (t.fnOf k).preempts =
          [{ p with draining := [], saving := p.saving ++ p.draining, missed := p.missed + p.draining.length }])) ∧
    (∀ p, f.preempts = [p] → p.draining = [] →
      (p.saving = [] → ∃ t, exec (.preemptionCompletion die fn) s = .next t ∧ (t.fnOf k).preempts = []) ∧
      (p.saving = [[team]] → tm.live = true → tm.die * 8 + tm.fn = k → s.atBoundary [team] = true →
        ∃ t, exec (.preemptionCompletion die fn) s = .next t ∧ (t.fnOf k).preempts = [] ∧ (t.teamOf team).live = false ∧
          ∃ x ∈ (t.fnOf k).saved, x.uid = team ∧ x.fresh = false)) ∧
    (∀ y rest t1, f.saved = y :: rest → y.fresh = false → (∀ z ∈ rest, z.uid ≠ y.uid) → s.served k = true → (s.launch (s.teamOf y.uid).launch).rcd.cooperative = false →
      (s.teamOf y.uid).cluster = [] → s.restoreUnits k [y] 2 = some t1 →
      ∃ t, exec (.teamRestore die fn) s = .next t ∧ t.groups = t1.groups ∧ t.teams = t1.teams ∧ t.mem = t1.mem ∧
        ∀ z ∈ (t.fnOf k).saved, z.uid ≠ y.uid)

/-! ### Events: links and the network -/

/-- R264, R270, R287, R310 to R325: reissue, replay, hold, modules, routes, fences, link keys, packets. The model's choices are: an install
that finds both slots full, the sender's own KEY_RETIRE, and FWDE packets as one numbered context (log entry 42, DEDUCED); a ROUTE_CHANGE
over a link that is down, or one that leads nowhere or closes a cycle, left undone (log entry 13, DEDUCED); the bookkeeping of flits and
reissues, and the fence of a module at x32 by its own fallback event (log entry 40, DEDUCED). -/
def Obligations.LinkAndNetworkEvents : Prop :=
  ∀ (s : State) (d : Nat) (u : Nat),
    let l := s.dirOf d
    let p := s.portDir d
    let now := s.basin.time.toNat
    ((∀ x ∈ s.outstanding, x.1 = u → s.reissueDue x.2 = false) → exec (.requestReissueTimeout u) s = .next s) ∧
    (∀ r z, (∀ x ∈ s.sures, x.uid ≠ u) → s.reqs.find? (fun x => x.uid == u) = some r → r.arrived = false → r.sentAt + 20000 ≤ now → r.sentAt < s.basin.routeTime →
      r.home ≠ r.srcDie → r.n * r.parts.length ≤ 240 → s.nextHop r.srcDie r.home false = some z →
      let k := dirNo r.srcDie z
      s.room k false = true → (s.dirOf k).waitReq = [] →
      ∃ t, exec (.requestReissueTimeout u) s = .next t ∧ t.mem = s.mem ∧ t.groups = s.groups ∧
        t.reqs.find? (fun x => x.uid == u) = some { r with sentAt := now } ∧
        t.dirOf k = { s.dirOf k with
          replay := (s.dirOf k).replay ++ [⟨(s.dirOf k).seq, ⟨r.srcDie, r.home, false, s.basin.msgs, some (.request u)⟩, 1⟩], seq := (s.dirOf k).seq + 1 } ∧
        Activity.flit k (s.dirOf k).seq 1 ∈ t.agenda) ∧
    (∀ a x b, l.replay = a ++ x :: b → (∀ y ∈ a, y.seq ≠ x.seq) →
      (x.seq = l.expect ∨ (∃ y ∈ a, y.seq = l.expect) → exec (.flitAcknowledgement d x.seq) s = .next s) ∧
      (x.seq ≠ l.expect → (∀ y ∈ a, y.seq ≠ l.expect) → ∃ t more, exec (.flitAcknowledgement d x.seq) s = .next t ∧
        (t.dirOf d).replay = b ++ more ∧ t.mem = s.mem ∧ t.groups = s.groups)) ∧
    (∀ a x b m, l.undelivered = a ++ x :: b → (∀ y ∈ a, y.seq ≠ x.seq) →
      ∃ t, exec (.flitCrcFailure d ⟨x.seq, m⟩) s = .next t ∧ t.mem = s.mem ∧ t.groups = s.groups ∧
        t.dirOf d = { l with replay := l.replay.map (fun z =>
          if ∃ y ∈ x :: b, y.seq = z.seq then { z with tries := z.tries + 1 } else z) } ∧
        (∀ y ∈ x :: b, Activity.flit d y.seq (y.tries + 1) ∈ t.agenda) ∧
        t.basin.life.replays.get (d / 2) 0 = satUp (s.basin.life.replays.get (d / 2) 0) ∧
        (d / 2 < 36 → m < 4 → (s.linkOf (d / 2)).modules[m]? = some .x64 →
          16 ≤ ((s.basin.retries.get (4 * (d / 2) + m) []).filter (fun y => decide (now < y + 1000000))).length →
          Activity.event (.moduleX32Fallback (d / 2) m) ∈ t.agenda)) ∧
    (∀ seq m, (∀ y ∈ l.undelivered, y.seq ≠ seq) → exec (.flitCrcFailure d ⟨seq, m⟩) s = .next s) ∧
    (∀ resp,
      ((l.hop resp).length ≤ 48 → exec (.holdAssert d resp) s = .next s) ∧
      (48 < (l.hop resp).length → exec (.holdAssert d resp) s =
        .next (s.setDir d (if resp then { l with holdResp := true } else { l with holdReq := true }))) ∧
      (32 ≤ (l.hop resp).length → exec (.holdRelease d resp) s = .next s) ∧
      ((l.hop resp).length < 32 → ∃ t, exec (.holdRelease d resp) s = .next t ∧ t.mem = s.mem ∧ t.groups = s.groups ∧
        (t.dirOf d).held resp = false ∧ (t.dirOf d).held (!resp) = l.held (!resp))) ∧
    (∀ link m x, let k := s.basin.links.get link {}
      (36 ≤ link → exec (.moduleX32Fallback link m) s = .next s) ∧
      (k.modules[m]? = some x → link < 36 →
        (x = .fenced → exec (.moduleX32Fallback link m) s = .next s) ∧
        (x = .x64 → ∃ t, exec (.moduleX32Fallback link m) s = .next t ∧
          t.basin.links.get link {} = { k with modules := k.modules.set m .training } ∧
          t.basin.life.x32.get link 0 = satUp32 (s.basin.life.x32.get link 0)) ∧
        (x = .x32 ∨ x = .training → ∃ t, exec (.moduleX32Fallback link m) s = .next t ∧
          (t.basin.links.get link {}).modules = k.modules.set m .fenced ∧
          ((t.basin.links.get link {}).fenced = true ↔ k.fenced = true ∨ ∀ y ∈ k.modules.set m .fenced, y = .fenced)) ∧
        (x = .training → ∃ t, exec (.moduleRetrainDone link m) s = .next t ∧
          t.basin.links.get link {} = { k with modules := k.modules.set m .x32 }))) ∧
    (∀ (e : RouteEntry) (resp final : Bool),
      let key := State.routeKey e.router e.dest resp
      let change : Instr := if resp then .routeChange [] [e] final else .routeChange [e] [] final
      let written := s.modBasin (fun b => { b with routes := b.routes.set key e.next })
      (s.basin.rerouting = false ∨ s.linkUp e.router e.next = false ∨ written.reaches e.router e.dest resp 24 = false ∨
        written.acyclic resp = false → exec change s = .next s) ∧
      (s.basin.rerouting = true → e.router < 25 → e.dest < 25 → s.linkUp e.router e.next = true →
        (e.next = e.dest ∨ s.forwards e.next = true ∧ s.linkUp e.router e.dest = false) → written.reaches e.router e.dest resp 24 = true →
        (∀ x, x < 25 → written.path x e.dest resp 24 = s.path x e.dest resp 24 ∨ written.reaches x e.dest resp 24 = true ∧
          (x = 24 ∨ e.dest = 24 ∨ written.linkUp x e.dest = true ∨ State.routeForm (written.path x e.dest resp 24) = true)) →
        written.acyclic resp = true →
        ∃ t, exec change s = .next t ∧ t.mem = s.mem ∧ t.groups = s.groups ∧ t.basin.rerouting = !final ∧
          t.basin.routes.get key 0 = e.next ∧ ∀ j, j ≠ key → t.basin.routes.get j 0 = s.basin.routes.get j 0)) ∧
    (∀ port e, (port < 24 ∧ e = .feederFence port) ∨ (24 ≤ port ∧ port < 42 ∧ e = .portFenced port) →
      ∃ t, exec e s = .next t ∧ (s.basin.colls = [] → t.mem = s.mem ∧
        (∀ i, t.basin.fencedPorts.getLsbD i = (s.basin.fencedPorts.getLsbD i || (decide (i = port)))) ∧
        (port < 24 → (t.basin.links.get (36 + port) {}).fenced = true ∧ t.linkUp port 24 = false ∧ t.linkUp 24 port = false))) ∧
    ((∀ x ∈ s.packets, x.sent ≠ 0) → s.basin.ackWait = [] →
      (p.epoch = false → p.slot0 ≠ .empty → p.slot1 = .empty →
        exec (.keyInstall d) s = .next (s.setPortDir d { p with slot1 := .active, seal1 := 0 })) ∧
      (p.epoch = true → p.slot1 ≠ .empty → p.slot0 = .empty →
        exec (.keyInstall d) s = .next (s.setPortDir d { p with slot0 := .active, seal0 := 0 })) ∧
      (p.slot0 ≠ .empty → p.slot1 ≠ .empty → exec (.keyInstall d) s = .next s) ∧
      (d % 2 = 0 → p.epoch = false → p.slot1 = .active →
        exec (.epochSwitch d) s = .next (s.setPortDir d { p with epoch := true, slot0 := .retiring })) ∧
      (d % 2 = 0 → p.epoch = true → p.slot0 = .active →
        exec (.epochSwitch d) s = .next (s.setPortDir d { p with epoch := false, slot1 := .retiring }))) ∧
    (d % 2 = 0 → p.epoch = true → p.slot0 = .retiring → exec (.keyRetire d) s = .next (s.setPortDir d { p with slot0 := .empty })) ∧
    (d % 2 = 0 → p.epoch = false → p.slot1 = .retiring → exec (.keyRetire d) s = .next (s.setPortDir d { p with slot1 := .empty })) ∧
    (d % 2 = 1 → (1024 < p.newPackets ∨ (p.newPackets ≠ 0 ∧ p.newSince + 1000000 ≤ now)) →
      (p.epoch = false → exec (.keyRetire d) s = .next (s.setPortDir d { p with epoch := true, newPackets := 0, slot0 := .empty })) ∧
      (p.epoch = true → exec (.keyRetire d) s = .next (s.setPortDir d { p with epoch := false, newPackets := 0, slot1 := .empty }))) ∧
    (∀ x, s.packets.find? (fun y => y.uid == u) = some x → x.sent ≠ 0 → x.acked = false → x.atPort = true →
      (now < x.due → exec (.retransmissionTimeout u) s = .next s) ∧
      (x.due ≤ now →
        (x.sent < 8 → s.canSeal x.port = true →
          ∃ t y, exec (.retransmissionTimeout u) s = .next t ∧ t.packets.find? (fun y => y.uid == u) = some y ∧ y.sent = x.sent + 1 ∧
            y.payload = x.payload ∧ y.due = now + min (8000 * 2 ^ x.sent) 1000000 ∧ t.mem = s.mem) ∧
        (∀ c, 8 ≤ x.sent → x.fwde = none → s.copyOf x.copy = some c → ∃ t, exec (.retransmissionTimeout u) s = .next t ∧
          t.copyOf x.copy = none ∧ ∀ y ∈ t.packets, y.copy ≠ c.uid) ∧
        (∀ c n w k, 8 ≤ x.sent → x.fwde = some (n, w, k) → s.collOf n = some c → c.bindings = [] → c.openers = [] →
          ∃ t, exec (.retransmissionTimeout u) s = .next t ∧ t.collOf n = none ∧ t.mem = s.mem))) ∧
    (∀ port ep, 24 ≤ port → port < 40 → s.basin.fencedPorts.getLsbD port = false →
      let rx := s.portDir (2 * port + 1)
      let tx := s.portDir (2 * port)
      let keyed := (if ep then rx.slot1 else rx.slot0) ≠ .empty
      let counted (t : State) : Prop := t.mem = s.mem ∧ t.packets = s.packets ∧ t.copies = s.copies ∧ t.basin.colls = s.basin.colls ∧
        t.basin.responses = s.basin.responses ∧ t.basin.inbound = s.basin.inbound ∧
        t.basin.life.replays.get (36 + port) 0 = satUp (s.basin.life.replays.get (36 + port) 0)
      (∀ e auth, (auth = false ∨ ¬ keyed) →
        ((∃ src die i o n x, e = .networkPacketArrival port src die i o n x ep auth) ∨
          (∃ psn k w c bs, e = .fwdeReceipt port k w c ⟨psn, bs, ep, auth⟩) ∨
          (∃ bs, e = .networkAck u ⟨⟨bs, ep, auth⟩, port⟩)) →
        ∃ t, exec e s = .next t ∧ counted t) ∧
      (keyed → rx.epoch = ep →
        (∀ (pkt : NetPacket) z, pkt.die < 24 → pkt.bytes.length ≤ 240 → pkt.scale = none → s.nextHop 24 pkt.die false = some z →
          let k := dirNo 24 z
          s.room k false = true → (s.dirOf k).waitReq = [] →
          ∃ t, exec (.networkPacketArrival port pkt.toPacketSource pkt.die pkt.index pkt.off pkt.read pkt.toPacketData ep true) s = .next t ∧
            t.mem = s.mem ∧
            t.dirOf k = { s.dirOf k with seq := (s.dirOf k).seq + 1, replay := (s.dirOf k).replay ++
              [⟨(s.dirOf k).seq, ⟨24, pkt.die, false, s.basin.msgs, some (.act (.packet port pkt))⟩, 1⟩] }) ∧
        (∀ psn slot w chunk bs n c, s.basin.colls.find? (fun y => y.2.slot == slot && y.2.has port) = some (n, c) →
          c.next ≤ chunk → w < 3 → 256 * chunk + 256 ≤ c.window → c.counts.get (countKey w chunk port) 0 = 0 → c.endpoint = false →
          s.basin.colls.find? (fun y => y.1 == n) = some (n, c) → psn ∉ (s.inboundOf port 1024 0).done → s.canSeal port = true →
          ∃ t e, exec (.fwdeReceipt port slot w chunk ⟨psn, bs, ep, true⟩) s = .next t ∧ t.mem = s.mem ∧ t.collOf n = some e ∧
            e.counts.get (countKey w chunk port) 0 = 256 ∧ psn ∈ (t.inboundOf port 1024 0).done ∧
            t.basin.responses = s.basin.responses ++ [.rmaAck port tx.epoch] ∧
            ∀ j, j < 256 → e.stage.get (stageKey w chunk port j) 0 = bs.getD j 0) ∧
        (∀ psn slot w chunk bs, psn ∈ (s.inboundOf port 1024 0).done → s.canSeal port = true →
          ∃ t, exec (.fwdeReceipt port slot w chunk ⟨psn, bs, ep, true⟩) s = .next t ∧ t.mem = s.mem ∧ t.basin.colls = s.basin.colls ∧
            t.basin.responses = s.basin.responses ++ [.rmaAck port tx.epoch]) ∧
        (∀ x c z bs, s.packets.find? (fun y => y.uid == u) = some x → s.packets.find? (fun y => y.uid == u && y.port == port && y.sent != 0 && !y.acked) = some x →
          x.fwde = none → x.read = false → s.copyOf x.copy = some c → c.org.die < 24 → s.nextHop 24 c.org.die true = some z →
          let k := dirNo 24 z
          s.room k true = true → (s.dirOf k).waitResp = [] →
          ∃ t, exec (.networkAck u ⟨⟨bs, ep, true⟩, port⟩) s = .next t ∧ t.mem = s.mem ∧ t.copies = s.copies ∧
            t.packets.find? (fun y => y.uid == u) = some { x with acked := true, sentAt := now } ∧
            t.dirOf k = { s.dirOf k with seq := (s.dirOf k).seq + 1, replay := (s.dirOf k).replay ++
              [⟨(s.dirOf k).seq, ⟨24, c.org.die, true, s.basin.msgs, some (.act (.netDone u))⟩, 1⟩] })) ∧
      (keyed → rx.epoch ≠ ep → ∀ data, (∀ x ∈ s.packets, x.uid ≠ u) →
        ∃ t, exec (.networkAck u ⟨⟨data, ep, true⟩, port⟩) s = .next t ∧ t.mem = s.mem ∧ t.packets = s.packets ∧
          (t.portDir (2 * port + 1)).newPackets = rx.newPackets + 1 ∧
          (rx.newPackets = 0 → (t.portDir (2 * port + 1)).newSince = now ∧
            (if ep then (t.portDir (2 * port + 1)).slot0 = .retiring else (t.portDir (2 * port + 1)).slot1 = .retiring)) ∧
          (1024 ≤ rx.newPackets → Activity.event (.keyRetire (2 * port + 1)) ∈ t.agenda))) ∧
    (∀ x c tm, s.packets.find? (fun y => y.uid == u && y.acked && !y.back) = some x → x.fwde = none → x.read = false →
      s.copyOf x.copy = some c → c.tmpl = some tm →
      let i := c.org.handle.toNat % 128
      ((s.teamOf c.org.team).ops.get i {}).handle = c.org.handle →
      (c.failed = none → (s.netDone u).mem = s.mem) ∧ (∀ y ∈ (s.netDone u).packets, y.uid ≠ u) ∧
        (((s.netDone u).teamOf c.org.team).ops.get i {}).bitmap = c.bitmap ||| laneBit x.chunk) ∧
    (∀ port (pkt : NetPacket),
      let r := s.regs.get (pkt.die * 2048 + pkt.index) {}
      let x := s.inboundOf port pkt.pkg pkt.context
      let t := s.takePacket port pkt
      (pkt.read = none → pkt.psn ∈ x.done → t.mem = s.mem ∧ t.groups = s.groups ∧ t.incrs = s.incrs ∧
        ((∃ i ∈ s.incrs, ∃ y, i.ack = some (port, y) ∧ y.pkg = pkt.pkg ∧ y.context = pkt.context ∧ y.psn = pkt.psn) → t = s)) ∧
      (pkt.psn ∉ x.done →
        (pkt.rod = true → (∃ k, k < pkt.psn ∧ k ∉ x.done) → t = s.setInbound { x with
          held := if x.held.any (fun q => q.psn == pkt.psn) then x.held else x.held ++ [pkt] }) ∧
        (pkt.rod = false ∨ (∀ k, k < pkt.psn → k ∈ x.done) →
          (s.admits pkt = false → t = s) ∧
          (s.admits pkt = true → pkt.scale = none →
            let n := pkt.read.getD pkt.bytes.length
            let found := s.exportPlaces pkt.die r (if pkt.read.isSome then .load else .store) pkt.off n
            (∀ s1 q y, found = (s1, .wait q y) → t = s1.requestPage q y (if pkt.read.isSome then .load else .store)) ∧
            (∀ s1 ps, found = (s1, .ok ps) → pkt.psn ∈ (t.inboundOf port pkt.pkg pkt.context).done ∧
              (pkt.read = none → t.mem = (s1.putPieces ps pkt.bytes).mem ∧ (r.counter ≠ 0 → ∃ i ∈ t.incrs, i.ack = some (port, pkt) ∧ i.addr = r.counter)) ∧
              (pkt.read.isSome → t.mem = s1.mem ∧ ∃ w : State, w.mem = s1.mem ∧
                t = w.answerPacket port pkt (some (ps.flatMap (fun q => s1.readSlot q.1 q.2.1 q.2.2.1)))))))))

/-! ### Events: engines and copies -/

/-- R95 to R98, R189, R195, R196, R234 to R243, R248: matrix steps, MVEC groups, rotations, the chunks of copies, tokens,
arrival counters. -/
def Obligations.EngineEvents : Prop :=
  ∀ (s : State) (ck tile : Nat) (o : Origin),
    let core := s.coreOf ck
    let done (t : State) (w : Word) : Prop :=
      let i := o.handle.toNat % 128
      ((s.teamOf o.team).ops.get i {}).handle = o.handle →
        ((t.teamOf o.team).ops.get i {}).pending = false ∧ ((t.teamOf o.team).ops.get i {}).word = w
    (∀ a b n ia ib fa fb rows cols k cancelled, s.mxHead ck tile = some (o, .mloop tile a b n ia ib fa fb rows cols k cancelled 0) →
      s.stepBlocked o a b ia ib fa fb k = false → rows ≤ 16 → cols ≤ 16 →
      let ra := s.stepRows o fa (stepAddr a ia k) (stepAddr fa.table fa.incr k) rows
      let rb := s.stepRows o fb (stepAddr b ib k) (stepAddr fb.table fb.incr k) cols
      ∃ t, exec (.matrixStep ck tile) s = .next t ∧
        (∀ i j, i < 16 → j < 16 → (t.coreOf ck).tiles.get (256 * tile + 16 * i + j) 0 =
          if i < rows ∧ j < cols then
            BitVec.ofNat 32 (roundFmt (exactSum (Fmt.f32.value (core.tiles.get (256 * tile + 16 * i + j) 0).toNat)
              (List.zipWith Val.mul (ra.getD i []) (rb.getD j []))) .f32 .rne false)
          else core.tiles.get (256 * tile + 16 * i + j) 0) ∧
        (∀ x, x / 256 ≠ tile → (t.coreOf ck).tiles.get x 0 = core.tiles.get x 0) ∧
        (k + 1 = n → done t (BitVec.ofNat 32 (n % 2 ^ 24))) ∧
        (k + 1 ≠ n → cancelled = true → done t (BitVec.ofNat 32 (2 ^ 24 + (k + 1) % 2 ^ 24))) ∧
        (k + 1 ≠ n → cancelled = false → t.mem = s.mem ∧ t.teams = s.teams ∧
          t.mxHead ck tile = some (o, .mloop tile a b n ia ib fa fb rows cols (k + 1) false 32))) ∧
    (s.mxHead ck tile = some (o, .mzero tile 0) → ∃ t, exec (.mzeroCompletion ck tile) s = .next t ∧ done t 1 ∧
      (∀ x, x / 256 = tile → (t.coreOf ck).tiles.get x 0 = 0) ∧ (∀ x, x / 256 ≠ tile → (t.coreOf ck).tiles.get x 0 = core.tiles.get x 0)) ∧
    (∀ dst pitch rows cols f sat, s.mxHead ck tile = some (o, .mstore tile dst pitch rows cols f sat) → rows ≤ 16 → cols ≤ 16 →
      let eb := (storeFmt f).bits / 8
      s.engineBlocked o dst (dst + (rows - 1) * pitch + cols * eb) true = false → 16 * eb ≤ pitch →
      ∃ t, exec (.mstoreWrite ck tile) s = .next t ∧ done t 1 ∧
        (Inv s → ∀ i j, i < rows → j < cols → t.natAt (s.orgLoc o (dst + i * pitch + j * eb)) eb =
          roundFmt (Fmt.f32.value (core.tiles.get (256 * tile + 16 * i + j) 0).toNat) (storeFmt f) .rne sat)) ∧
    (∀ c rest, core.nm = (o, c) :: rest → (∀ y ∈ rest, y.1 ≠ o) →
      (c.cancelled = true → ∃ t, exec (.mvecOutputGroup ck) s = .next t ∧ done t (BitVec.ofNat 32 (2 ^ 24 + c.done % 2 ^ 24)) ∧ (t.coreOf ck).nm = rest) ∧
      (∀ s1 l, c.cancelled = false → c.waiting = none → s.engineBlocked o c.a (c.a + c.kb) false = false → c.fa.blockScaled = false →
        s.engineBlocked o (c.result + 4 * c.done) (c.result + 4 * (c.done + min 16 (c.n - c.done))) true = false →
        s.mvecOutputs o c (rowValues c.fa (splitElems (blockFmt c.fa.type).bits (s.bytesAt (s.orgLoc o c.a) c.kb)) [])
          (min 16 (c.n - c.done)) = (s1, .ok l) →
        ∃ t, exec (.mvecOutputGroup ck) s = .next t ∧
          (Inv s → ∀ i, i < l.length → t.natAt (s.orgLoc o (c.result + 4 * (c.done + i))) 4 = l.getD i 0 % 2 ^ 32) ∧
          (c.done + min 16 (c.n - c.done) ≠ c.n → (t.coreOf ck).nm.head? = some (o, { c with done := c.done + min 16 (c.n - c.done) })) ∧
          (c.done + min 16 (c.n - c.done) = c.n → done t (BitVec.ofNat 32 (c.n % 2 ^ 24))))) ∧
    (∀ team x y, s.ringHeads team = some [x, y] → x.1.die * 512 + x.1.core ≠ y.1.die * 512 + y.1.core →
      (s.teamOf x.1.team).die = x.1.die → (s.teamOf x.1.team).core = x.1.core → (s.teamOf y.1.team).die = y.1.die →
      (s.teamOf y.1.team).core = y.1.core →
      (x.2.started = false → y.2.started = false → x.2.bytes = y.2.bytes →
        s.engineBlocked x.1 x.2.src (x.2.src + x.2.bytes) false = false → s.engineBlocked x.1 x.2.dst (x.2.dst + x.2.bytes) true = false →
        s.engineBlocked y.1 y.2.src (y.2.src + y.2.bytes) false = false → s.engineBlocked y.1 y.2.dst (y.2.dst + y.2.bytes) true = false →
        ∃ t, exec (.rotationStart team) s = .next t ∧ t.mem = s.mem ∧ t.ringHeads team = some [(x.1, { x.2 with started := true }), (y.1, { y.2 with started := true })]) ∧
      (x.2.started = true → y.2.started = true → x.2.left = 0 → y.2.left = 0 → x.2.bytes = y.2.bytes →
        (s.teamOf x.1.team).lsBase + x.2.dst + x.2.bytes ≤ 589824 → (s.teamOf y.1.team).lsBase + y.2.dst + y.2.bytes ≤ 589824 →
        ∃ t, exec (.rotationCompletion team) s = .next t ∧ (Inv s → ∀ i, i < x.2.bytes →
          t.byteAt (s.orgLoc x.1 (x.2.dst + i)) = s.byteAt (s.orgLoc y.1 (y.2.src + i)) ∧
          t.byteAt (s.orgLoc y.1 (y.2.dst + i)) = s.byteAt (s.orgLoc x.1 (x.2.src + i))))) ∧
    (∀ die,
      let x (f : Nat) : Fn := s.fnOf (die * 8 + f)
      let repay (f : Nat) : Nat := min (x f).debt (((x f).cfg.rate + 1) / 2)
      let up (f : Nat) : Nat := (x f).level + ((x f).cfg.rate - repay f)
      ∃ t, exec (.tokenTick die) s = .next t ∧ t.mem = s.mem ∧ t.groups = s.groups ∧
        (∀ f, f < 5 → t.fnOf (die * 8 + f) = { x f with level := min (up f) (x f).cfg.depth, debt := (x f).debt - repay f }) ∧
        (t.die die).pool = (List.range 5).foldl (fun n f => min 65536 (n + repay f + (up f - min (up f) (x f).cfg.depth))) (s.die die).pool) ∧
    (∀ u c tm, s.copyOf u = some c → c.tmpl = some tm →
      let k := c.org.die * 8 + c.fn
      (c.keeper = none → c.waiting = none → c.cancelled = false → s.isSaved c.org.team = false → c.accepted < tm.chunks →
        s.channelBusy c = false → s.chunkBlocked c tm c.accepted = false → tm.srcKind ≠ 2 → tm.dstKind ≠ 2 →
        (0 < (s.fnOf k).level → ∃ t, exec (.copyChunkAcceptance u) s = .next t ∧ (t.fnOf k).level = (s.fnOf k).level - 1 ∧ t.mem = s.mem ∧
          t.copyOf u = some { c with accepted := c.accepted + 1, started := c.started ++ [c.accepted] } ∧
          Activity.event (.copyChunkWrite u c.accepted) ∈ t.agenda) ∧
        ((s.fnOf k).level = 0 →
          let b := min (s.fnOf k).cfg.depth (s.die (k / 8)).pool
          (s.borrowBehind c = true → exec (.copyChunkAcceptance u) s = .next (s.post (.copyChunkAcceptance u))) ∧
          (s.borrowBehind c = false → (s.fnOf k).debt ≠ 0 ∨ b = 0 → exec (.copyChunkAcceptance u) s = .next s) ∧
          (s.borrowBehind c = false → (s.fnOf k).debt = 0 → b ≠ 0 → ∃ t, exec (.copyChunkAcceptance u) s = .next t ∧
            (t.fnOf k).level = b - 1 ∧ (t.fnOf k).debt = b ∧ (t.die (k / 8)).pool = (s.die (k / 8)).pool - b ∧ t.mem = s.mem))) ∧
      (∀ j, tm.srcKind ≠ 2 → s.isSaved c.org.team = false → j ∈ c.started → (∀ a ∈ c.flying ++ c.landed, a.chunk ≠ j) →
        (tm.dstKind = 2 → s.netRoom c.org.die = true) →
        (∀ s1 a, s.chunkPath c tm j = (s1, .ok a) → State.farChunk c.org.die a = true →
          ∃ t b, exec (.copyChunkWrite u j) s = .next t ∧ t.mem = s1.mem ∧ b.chunk = j ∧ b.src = a.src ∧ b.dst = a.dst ∧ b.scale = a.scale ∧
            (∀ p ∈ a.src ++ a.dst ++ a.scale, homePound p.1 ≠ c.org.die → ∃ q ∈ b.seqs, q.1 = homePound p.1) ∧
            t.copyOf u = some { c with flying := c.flying ++ [b], sentAt := s.basin.time.toNat }) ∧
        (∀ s1 y, s.chunkPath c tm j = (s1, y) → (∀ a, y ≠ .ok a) → c.keeper = none →
          ∃ t l r, exec (.copyChunkWrite u j) s = .next t ∧ t.mem = s1.mem ∧ t.copyOf u = some { c with keeper := some (j :: l), started := r } ∧
            Activity.event (.keeperChunk u) ∈ t.agenda ∧
            ∀ i, i ∈ l ↔ i < tm.chunks ∧ i ≠ j ∧ (c.accepted ≤ i ∨ i ∈ c.started ∧ ∀ b ∈ c.flying ++ c.landed, b.chunk ≠ i))) ∧
      (∀ a ∈ c.flying, Activity.event (.copyChunkWrite u a.chunk) ∈ (s.land (.chunk u a.chunk)).agenda ∧
        (s.land (.chunk u a.chunk)).copyOf u = some { c with
          flying := c.flying.filter (fun b => b.chunk != a.chunk), landed := c.landed ++ c.flying.filter (fun b => b.chunk == a.chunk) }) ∧
      (∀ e j s0 a c1, ((s.teamOf c.org.team).ops.get (c.org.handle.toNat % 128) {}).handle = c.org.handle → tm.srcKind ≠ 2 →
        tm.dstKind ≠ 2 → c.failed = none → s.isSaved c.org.team = false →
        (e = .copyChunkWrite u j ∧ c1 = c ∧ j ∉ c.keeper.getD [] ∨
          e = .keeperChunk u ∧ c.waiting = none ∧ (s.die c.org.die).keeperDead = false ∧ c.cancelled = false ∧ j < c.accepted ∧
            s.chunkBlocked c tm j = false ∧ (∀ b ∈ c.flying, b.chunk ≠ j) ∧ ∃ r, c.keeper = some (j :: r) ∧ c1 = { c with keeper := some r }) →
        (c.landed.find? (fun b => b.chunk == j) = some a ∧ s.chunkDue c a = true ∧ s0 = s ∨
          (∀ b ∈ c.flying ++ c.landed, b.chunk ≠ j) ∧ (e = .copyChunkWrite u j → j ∈ c.started) ∧ s.chunkPath c tm j = (s0, .ok a) ∧
            State.farChunk c.org.die a = false ∧ a.chunk = j) →
        let c2 := { c1 with started := c1.started.filter (fun k => k != j), flying := c1.flying.filter (fun b => b.chunk != j)
                            landed := c1.landed.filter (fun b => b.chunk != j) }
        let src := if tm.srcKind = 0 then s0.bytesAt (s0.orgLoc c.org (tm.srcAt c.tile j)) tm.srcBytes
          else a.src.flatMap (fun p => s0.coreView (c.org.die * 512 + c.org.core) p.1 p.2.1 p.2.2.1)
        ∃ t, exec e s = .next t ∧
          t.mem = ((((s0.recallPlaces (a.src ++ a.dst ++ a.scale)).setCopy c2).acceptChunk c2 a).chunkPut c2 tm a
            (convertChunk tm src).1 (convertChunk tm src).2).1.mem ∧
          (State.farPounds c.org.die (a.dst ++ a.scale) = [] →
            ((t.teamOf c.org.team).ops.get (c.org.handle.toNat % 128) {}).bitmap = c.bitmap ||| laneBit j) ∧
          (State.farPounds c.org.die (a.dst ++ a.scale) ≠ [] → ∃ x ∈ t.sures, x.dst = c.org.die ∧ ∃ host, x.act = .written u j host)) ∧
      (∀ j host, ((s.teamOf c.org.team).ops.get (c.org.handle.toNat % 128) {}).handle = c.org.handle →
        (((s.chunkWritten u j host).teamOf c.org.team).ops.get (c.org.handle.toNat % 128) {}).bitmap = c.bitmap ||| laneBit j)) ∧
    (∀ u i, s.incrs.find? (fun x => x.uid == u) = some i → i.waiting = none → i.host = false →
      (∀ c x, i.copy = some c → s.copyOf c = some x → x.failed = none) →
      (∀ s1 sp loc slot ex, i.home = none → loc + 8 ≤ tableLoc 0 →
        s.translate i.die i.fn none i.addr 8 (if i.copy.isSome then .atomic else .own64) = (s1, .ok sp loc slot ex) → sp ≠ 5 →
        (homePound loc = i.die → ∃ t, exec (.arrivalCounterIncrement u) s = .next t ∧ (∀ x ∈ t.incrs, x.uid ≠ u) ∧
          (Inv s → t.natSlot loc slot 8 = (s1.natSlot loc slot 8 + i.bytes) % 2 ^ 64)) ∧
        (homePound loc ≠ i.die → ∃ t, exec (.arrivalCounterIncrement u) s = .next t ∧ t.mem = s1.mem ∧
          t.incrs.find? (fun x => x.uid == u) = some { i with home := some (sp, loc, slot), expo := ex, sentAt := s.basin.time.toNat })) ∧
      (∀ sp loc slot, i.home = some (sp, loc, slot) → loc + 8 ≤ tableLoc 0 → sp ≠ 5 → (∀ x ∈ (s.countArrives u).incrs, x.uid ≠ u) ∧
        (Inv s → (s.countArrives u).natSlot loc slot 8 = (s.natSlot loc slot 8 + i.bytes) % 2 ^ 64)))

/-! ### Events: collectives and the Weir -/

/-- R1, R17, R256 to R259, R266 to R275, R281, R282, R288, R294 to R300: opens, alias stores, bodies, completion, the Basin's tables;
bids, rounds and changes of the contest table. The mask of a contest holds live dies only by R1. That a change takes effect at its boundary
though a hold has begun since it was written is the model's choice (log entry 41, DEDUCED). -/
def Obligations.BasinEvents : Prop :=
  ∀ (s : State) (u n : Nat),
    (∀ r x, s.opens.find? (fun y => y.uid == u) = some r → r.arrived = true → (∀ y ∈ s.aliases, y.gkey ≠ r.org.gkey) → (∀ y ∈ s.opens, y.org.gkey = r.org.gkey → u ≤ y.uid) →
      let tn := (s.fnOf (r.org.die * 8 + (s.teamOf r.org.team).fn)).cfg.tenant
      s.slotOf r.slot = x → s.openColl tn r.slot = none → x.tenant = tn → x.state = 1 → x.isOpen = false →
      r.parts.getLsbD r.org.die = true → r.root < 24 → r.parts.getLsbD r.root = true → s.partsLive r.parts = true →
      openable (s.programWords r.program) r.parts x.masks = true → s.basin.colls = [] → 0 < r.window →
      ∃ t c, exec (.collectiveOpen u) s = .next t ∧ (∀ y ∈ t.opens, y.uid ≠ u) ∧ t.openColl tn r.slot = some (s.basin.nextColl, c) ∧
        c.parts = r.parts ∧ c.window = r.window ∧ c.root = r.root ∧ c.words = s.programWords r.program ∧ c.next = 0 ∧ c.fixed = true ∧
        c.endpoint = false ∧ c.bindings = [⟨r.org.die, (s.teamOf r.org.team).fn, r.object⟩] ∧
        (t.slotOf r.slot).isOpen = true ∧ (t.slotOf r.slot).opened = x.opened + 1 ∧
        (r.org.die ≠ 24 → ∃ y ∈ t.sures, y.act = .opened r.slot r.org 0 ∧ y.dst = r.org.die) ∧
        Activity.event (.chunkBody s.basin.nextColl) ∈ t.agenda) ∧
    (∀ a c, s.aliases.find? (fun y => y.uid == u) = some a → s.aliasDue a = true →
      (s.openColl a.tenant a.slot = none → ∃ t, exec (.aliasStore u) s = .next t ∧ t.mem = s.mem ∧ t.basin.colls = s.basin.colls ∧ ∀ y ∈ t.aliases, y.uid ≠ u) ∧
      (let key := countKey a.window (a.off / 256) a.die;
        s.openColl a.tenant a.slot = some (n, c) → (c.endpoint = true → a.relayed = true) → c.has a.die = true → a.window ≤ 2 → a.off + a.bytes.length ≤ c.window →
        a.off % 256 + a.bytes.length ≤ 256 → c.next ≤ a.off / 256 → c.counts.get key 0 + a.bytes.length ≤ 256 →
        ∃ t d, exec (.aliasStore u) s = .next t ∧ t.mem = s.mem ∧ (∀ y ∈ t.aliases, y.uid ≠ u) ∧ t.collOf n = some d ∧
          d.counts.get key 0 = c.counts.get key 0 + a.bytes.length ∧ d.next = c.next ∧
          (∀ j, j < a.bytes.length → d.stage.get (stageKey a.window (a.off / 256) a.die (a.off % 256 + j)) 0 = a.bytes.getD j 0) ∧
          Activity.event (.chunkBody n) ∈ t.agenda) ∧
      (s.openColl a.tenant a.slot = some (n, c) → c.endpoint = true → c.has a.die = true → a.relayed = false → c.root < 24 →
        ∃ t, exec (.aliasStore u) s = .next t ∧ t.mem = s.mem ∧ t.basin.colls = s.basin.colls ∧
          t.aliases.find? (fun y => y.uid == u) = some { a with relayed := true, arrived := false })) ∧
    (∀ a, s.aliases.find? (fun y => y.uid == u) = some a → s.aliasDue a = false → exec (.aliasStore u) s = .next s) ∧
    (∀ a, s.aliases.find? (fun y => y.uid == u) = some a → s.aliasDue a = true → s.openColl a.tenant a.slot = none → a.hostFn = none → a.relayed = false →
      a.die ≠ 24 → ∃ t, exec (.aliasStore u) s = .next t ∧ t.groups = s.groups ∧ ∃ y ∈ t.sures, y.act = .stored u a.gkey a.team ∧ y.dst = a.die) ∧
    (∀ k m, (∀ j, j ≠ k → (s.storeAccepted k m).group j = s.group j) ∧ (s.storeAccepted k m).mem = s.mem ∧
      ((s.group k).live = true → (s.group k).team = m → ((s.storeAccepted k m).group k).pubCount.get 3 0 = (s.group k).pubCount.get 3 0 - 1)) ∧
    (∀ (o : Origin) w, ((s.teamOf o.team).ops.get (o.handle.toNat % 128) {}).handle = o.handle →
      (((s.completeOp o w 0).teamOf o.team).ops.get (o.handle.toNat % 128) {}).pending = false ∧
        (((s.completeOp o w 0).teamOf o.team).ops.get (o.handle.toNat % 128) {}).word = w) ∧
    (∀ c, s.collOf n = some c →
      let here := s.basin.colls.filter (fun e => s.bodyDue e.2 && !e.2.endpoint && e.2.lock == c.lock)
      (here.head? = some (n, c) → s.basin.lockBusy.has c.lock = false → c.instr = .henatEnd → c.outs = [] → c.waiting = none →
        ∃ t d, exec (.chunkBody n) s = .next t ∧ t.mem = s.mem ∧ t.collOf n = some d ∧ d.next = c.next + 1 ∧ t.basin.lockBusy.get c.lock 0 = 1) ∧
      (c.endpoint = true → s.bodyDue c = true → c.instr = .henatEnd → c.outs = [] → c.waiting = none →
        ∃ t d, exec (.chunkBody n) s = .next t ∧ t.mem = s.mem ∧ t.collOf n = some d ∧ d.next = c.next + 1 ∧ t.basin.lockBusy = s.basin.lockBusy) ∧
      (s.bodyDue c = true → c.endpoint = false → s.basin.lockBusy.has c.lock = true → exec (.chunkBody n) s = .next s) ∧
      (s.bodyDue c = false → exec (.chunkBody n) s = .next s) ∧
      (c.fixed = true → c.next = c.window / 256 → c.outs = [] → c.fwde = 0 → c.endpoint = false →
        ∃ t, exec (.collectiveCompletion n) s = .next t ∧ t.mem = s.mem ∧ t.collOf n = none ∧ (t.slotOf c.slot).isOpen = false ∧
          (t.slotOf c.slot).completed = (s.slotOf c.slot).completed + 1)) ∧
    (∀ r, s.basin.staging = some r → s.basin.reloads = [] → (∀ c ∈ s.basin.colls, c.2.endpoint = true ∨ c.2.bank = s.basin.active) →
      ∃ t, exec .reloadBankSwitch s = .next t ∧ t.basin.active = !s.basin.active ∧ t.basin.staging = none ∧
        (∀ i, i < r.image.length → (if t.basin.active then t.basin.bank1 else t.basin.bank0).get i 0 = r.image.getD i 0) ∧
        (if t.basin.active then t.basin.bank0 = s.basin.bank0 else t.basin.bank1 = s.basin.bank1)) ∧
    (∀ state tenant masks, n < 256 → masks.length = 4 → state < 4 → tenant < 64 → exec (.slotTableWrite n state tenant masks) s =
      .next (s.setSlot n { s.slotOf n with state := state, tenant := tenant, masks := masks })) ∧
    (∀ e r l pr, n < 64 → r ≤ 256 → l ≤ 256 → ((s.basin.quotas.filter (fun q => q.1 != n)).map (fun q => q.2.reserved)).sum + r ≤ 256 →
      ∃ t, exec (.tenantQuotaTableWrite n e r l pr) s = .next t ∧ t = { s with basin := { s.basin with quotas := t.basin.quotas } } ∧
        t.basin.quotas.get n {} = { s.basin.quotas.get n {} with enabled := e, reserved := r, limit := l, priority := pr }) ∧
    (∀ e : DWord, let x : Contest := ⟨e.getLsbD 63, e.getLsbD 62, e.toNat / 2 ^ 48 % 2 ^ 8, e.setWidth 25 &&& (1#1 ++ s.live)⟩
      let held := (s.holdOf n).isSome
      let changes := s.basin.contestChanges.filter (fun y => !(y.contest == n && y.whileHeld)) ++ [⟨n, x, s.basin.time.toNat, held, held⟩]
      exec (.contestTableWrite n e) s = .next { s with basin := { s.basin with contestChanges := changes } }) ∧
    (∀ x, s.basin.contestChanges.find? (fun y => y.contest == n && !y.deferred && decide (y.since + 656 ≤ s.basin.time.toNat)) = some x →
      s.basin.inRound = false → s.basin.time.toNat % 164 = 0 → s.basin.time.toNat / 164 % 4 = n / 16 →
      ∃ t, exec (.contestChangeBoundary n) s = .next t ∧ t.basin.contests.get n {} = x.entry ∧ t.basin.contestChanges = s.basin.contestChanges.erase x ∧
        ∀ d, d < 24 → x.entry.enabled = false ∨ x.entry.mask.getLsbD d = false → (∀ b ∈ (t.die d).bids, b.2.contest = n → b.2.inRound = true) ∧
          (((s.die d).bids.map Prod.fst).Nodup → ∀ b ∈ (s.die d).bids, b.2.contest = n → b.2.inRound = false →
            Activity.bidEnd d b.1 b.2.handle (BitVec.ofNat 32 (2 * 2 ^ 24 + 2 * 2 ^ 16)) ∈ t.agenda)) ∧
    (∀ d b w, (s.die d).bids.find? (fun y => y.1 == n && y.2.handle == b.handle) = some (n, b) →
      let i := b.handle.toNat % 128
      let t := s.bidEnds d n b.handle w
      (∀ y ∈ (t.die d).bids, y.1 ≠ n) ∧ (w.toNat / 2 ^ 24 ≠ 2 → t.mem = s.mem) ∧ (b.origin.handle = b.handle → ((s.teamOf b.origin.team).ops.get i {}).handle = b.handle →
        ((t.teamOf b.origin.team).ops.get i {}).pending = false ∧ ((t.teamOf b.origin.team).ops.get i {}).word = w)) ∧
    (∀ d b, (s.die d).bids.find? (fun y => y.1 == n) = some (n, b) → b.arrived = false →
      ∃ t c, exec (.weirBidArrival d n) s = .next t ∧ t.mem = s.mem ∧ (t.die d).bids.find? (fun y => y.1 == n) = some (n, c) ∧ c.arrived = true ∧
        c.contest = b.contest ∧ c.key = b.key) ∧
    (s.basin.inRound = false → s.basin.time.toNat % 164 = 0 → (∀ d, d < 24 → ((s.die d).bids.map Prod.fst).Nodup) →
      let r := s.basin.time.toNat / 164
      ∃ t, exec .weirRoundStart s = .next t ∧ t.basin.round = r ∧ t.basin.inRound = true ∧ t.mem = s.mem ∧ t.basin.holds = s.basin.holds ∧
        ∀ c d b, c < 64 → r % 4 = c / 16 → d < 24 → s.holdOf c = none → b ∈ (s.die d).bids → b.2.contest = c → b.2.arrived = true → b.2.inRound = false → s.takesPart d b.2 = true →
          ∃ p ∈ t.basin.presented, p.contest = c ∧ p.die = d ∧ p.bit = 0 ∧ bidNumber b.2.key d b.1 ≤ p.number) ∧
    (s.basin.inRound = true → 164 * (s.basin.round + 1) ≤ s.basin.time.toNat → s.basin.pool = [] →
      (∀ p ∈ s.basin.presented, p.die < 25 ∧ p.slot < 8) →
      ∃ t, exec .weirRoundEnd s = .next t ∧ t.basin.inRound = false ∧ t.basin.presented = [] ∧ t.mem = s.mem ∧
        ∀ c w, c < 64 → s.basin.round % 4 = c / 16 → s.holdOf c = none → w ∈ s.basin.presented → w.contest = c →
          (∀ p ∈ s.basin.presented, p.contest = c → p ≠ w → p.number < w.number) →
          (let r : WeirResult := ⟨w.key, true, (s.contest c).hold, BitVec.ofNat 5 w.die, BitVec.ofNat 3 w.slot, BitVec.ofNat 15 (s.basin.round / 4)⟩;
            ((s.contest c).mask.getLsbD 24 = true → (t.die 24).results.get c {} = r) ∧
            ∀ d, d < 24 → (s.contest c).mask.getLsbD d = true → s.dieLive d = true → Activity.latched d c r ∈ t.agenda ∧
              ∀ x, ((State.showResult x d c r).die d).results.get c {} = r) ∧
          (∀ d, d < 24 → ((s.die d).bids.map Prod.fst).Nodup → ∀ b ∈ (s.die d).bids, b.2.contest = c → b.2.arrived = true → b.2.inRound = true →
            Activity.bidEnd d b.1 b.2.handle (BitVec.ofNat 32 ((if d = w.die ∧ b.1 = w.slot then 2 ^ 23 else 0) + w.die * 2 ^ 18 +
              w.slot * 2 ^ 15 + s.basin.round / 4 % 2 ^ 15)) ∈ t.agenda) ∧
          ((s.contest c).hold = true → t.holdOf c = some ⟨BitVec.ofNat 5 w.die, BitVec.ofNat 3 w.slot, w.key, false⟩))

/-! ### Events: commands and interfaces -/

/-- R155, R253 to R255, R288, R329, R331, R333, R335, R336, R340, R343: the commands of the control ring, invalidations,
answers to page requests, host accesses, the TDISP requests. The model's choices are: LIFETIME with no image ends with status 4, and DIE
RESET of the own die or one that is not live with status 2 (log entry 35, DEDUCED); the error answers to START and STOP, and no answer
outside a session (log entry 44, DEDUCED); what ends an invalidation (log entry 45, DEDUCED); the error answer to a LOCK that names a slot
with an owner (log entry 76, DEDUCED); status 2 of a REVOKE by another function on an entry that is REVOKING (log entry 88, DESIGN
CHOICE). -/
def Obligations.CommandEvents : Prop :=
  ∀ (s : State) (die fn : Nat) (b8 b16 : DWord) (result : Nat),
    let k := die * 8 + fn
    let f := s.fnOf k
    let entry := b8.toNat % 2048
    let key := die * 2048 + entry
    let slot := b8.toNat % 256
    let target := b8.toNat % 8
    let other := b8.toNat % 32
    let with' (e : Instr) (st : Nat) : Prop := exec e s = .next (s.complete k result st)
    (∀ s1 st, s.vWrite (k / 8) (k % 8) result (bytesOf 8 (2 ^ 63 + st)) = (s1, .ok ()) →
      s.complete k result st = (s1.bumpDone k (s1.fnOf k).cfg.ctrlRing).signal k 2) ∧
    ((s.regs.get key {}).state ≠ .free → with' (.register die fn b8 b16 result) 1) ∧
    (∀ s1 bs r, (s.regs.get key {}).state = .free →
      s.partRead (.event (.register die fn b8 b16 result)) (k / 8) (k % 8) b16.toNat 32 = (s1, .ok bs) →
      regOf bs fn = some r → exec (.register die fn b8 b16 result) s = .next (State.complete { s1 with regs := s1.regs.set key r } k result 0)) ∧
    ((s.regs.get key {}).state = .free → with' (.revoke die fn b8 b16 result) 1) ∧
    ((s.regs.get key {}).state = .revoking → with' (.revoke die fn b8 b16 result) (if (s.regs.get key {}).owner = fn then 1 else 2)) ∧
    ((s.regs.get key {}).state = .valid →
      ((s.regs.get key {}).owner ≠ fn → with' (.revoke die fn b8 b16 result) 2) ∧
      ((s.regs.get key {}).owner = fn → ∃ t, exec (.revoke die fn b8 b16 result) s = .next t ∧ t.mem = s.mem ∧
        t.regs.get key {} = { s.regs.get key {} with state := .revoking, result := some result } ∧
        (∀ c ∈ t.cores, ∀ e ∈ c.2.tlb, ¬ (pteType e.leaf = 2 ∧ e.leaf.toNat / 2 ^ 43 % 32 = die ∧ e.leaf.toNat / 2 ^ 32 % 2048 = entry)) ∧
        Activity.event (.revocationComplete die entry) ∈ t.agenda)) ∧
    (∀ i, let r := s.regs.get (die * 2048 + i) {}
      r.state = .revoking →
      (s.inFlight (die * 2048 + i) = true → exec (.revocationComplete die i) s = .next s) ∧
      (s.inFlight (die * 2048 + i) = false → ∃ t, exec (.revocationComplete die i) s = .next t ∧
        t.regs.get (die * 2048 + i) {} = {} ∧ (r.result = none → t = { s with regs := t.regs, dies := t.dies } ∧
          (r.owner < 8 → (∀ y ∈ t.regs, y.1 / 2048 = die → y.2.owner = r.owner → y.2.state ≠ .revoking) →
            ∀ x ∈ (t.die die).keys, x.2.closing = true → x.2.owner ≠ some r.owner)))) ∧
    (let held := ((s.slotOf slot).state = 1 ∨ (s.slotOf slot).state = 2) ∧ (s.slotOf slot).tenant = f.cfg.tenant;
      ∀ n c, s.openColl f.cfg.tenant slot = some (n, c) →
        (c.openers = [] → c.bindings = [] → c.fixed = true ∨ held →
          ∃ t : State, exec (.abort die fn b8 b16 result) s = .next (t.complete k result 0) ∧ t.collOf n = none) ∧
        (c.fixed = false → ¬ held → with' (.abort die fn b8 b16 result) 2)) ∧
    (s.openColl f.cfg.tenant slot = none →
      ((s.slotOf slot).state = 1 ∨ (s.slotOf slot).state = 2 → (s.slotOf slot).tenant = f.cfg.tenant → with' (.abort die fn b8 b16 result) 1) ∧
      ((s.slotOf slot).state = 0 ∨ (s.slotOf slot).tenant ≠ f.cfg.tenant → with' (.abort die fn b8 b16 result) 2)) ∧
    (fn = 0 → (b16.toNat % 64 ≠ 0 → with' (.reload die fn b8 b16 result) 3) ∧
      ∀ x, b16.toNat % 64 = 0 → s.basin.staging = some x → exec (.reload die fn b8 b16 result) s =
        .next { s with basin := { s.basin with reloads := s.basin.reloads ++ [⟨die, b16.toNat, result, []⟩] } }) ∧
    (fn ≠ 0 → with' (.reload die fn b8 b16 result) 2 ∧ with' (.config die fn b8 b16 result) 2 ∧ with' (.lifetime die fn b8 b16 result) 2 ∧
      with' (.dieReset die fn b8 b16 result) 2) ∧
    (fn = 0 → target = 0 ∨ 4 < target → with' (.config die fn b8 b16 result) 3) ∧
    (fn = 0 → 1 ≤ target → target ≤ 4 → (s.fnOf (die * 8 + target)).tdi ≠ .unlocked →
      exec (.config die fn b8 b16 result) s = .next ((s.complete k result 1).toError (die * 8 + target))) ∧
    (∀ s1 bs c, fn = 0 → 1 ≤ target → target ≤ 4 → (s.fnOf (die * 8 + target)).tdi = .unlocked →
      s.partRead (.event (.config die fn b8 b16 result)) (k / 8) (k % 8) b16.toNat 128 = (s1, .ok bs) → cfgOf bs = some c → s1.cfgFits die target c = true →
      ∃ t : State, exec (.config die fn b8 b16 result) s = .next (t.complete k result 0) ∧ t.mem = s1.mem ∧
        (t.fnOf (die * 8 + target)).cfg = c ∧ (t.fnOf (die * 8 + target)).level = c.depth ∧ (t.fnOf (die * 8 + target)).debt = 0) ∧
    (fn = 0 → s.basin.image = none → with' (.lifetime die fn b8 b16 result) 4) ∧
    (∀ l s1, fn = 0 → s.basin.image = some l → s.hasFailed k (.event (.lifetime die fn b8 b16 result)) b16.toNat = false → s.vWrite die fn b16.toNat l.bytes = (s1, .ok ()) →
      exec (.lifetime die fn b8 b16 result) s = .next (s1.complete k result 0)) ∧
    ((∀ r ∈ f.pages, r.seq ≠ b8.toNat) → with' (.pageAnswer die fn b8 b16 result) 1) ∧
    (∀ r gk g, f.pages.find? (fun x => x.seq == b8.toNat) = some r → s.groups = [(gk, g)] → g.live = true →
      (∀ x ∈ s.fns, x.2.held = [] ∧ x.2.pageWait = [] ∧ x.2.saved = []) → s.copies = [] → s.cores = [] → s.incrs = [] → s.arrives = [] →
      s.launches = [] → s.results = [] → s.basin.colls = [] →
      ∃ t : State, exec (.pageAnswer die fn b8 b16 result) s = .next (t.complete k result 0) ∧ t.mem = s.mem ∧ r ∉ (t.fnOf k).pages ∧
        (∀ va, g.wait = .page k r.page va → (k, r.page) ∉ g.waitPages →
          t.group gk = { g with wait := .ready, failedVa := if b16.getLsbD 0 then some va else g.failedVa }) ∧
        (g.wait = .rejoin → g.waitPages = [(k, r.page)] → Activity.event (.rejoinReplay gk) ∈ t.agenda ∧
          t.group gk = { g with
            waitPages := [], failedPages := if b16.getLsbD 0 then g.failedPages ++ [(k, r.page)] else g.failedPages })) ∧
    (fn = 0 → other = die ∨ s.live.getLsbD other = false → with' (.dieReset die fn b8 b16 result) 2) ∧
    (fn = 0 → other ≠ die → s.live.getLsbD other = true →
      ((∃ i, 1 ≤ i ∧ i ≤ 4 ∧ (s.fnOf (other * 8 + i)).tdi ≠ .unlocked) → with' (.dieReset die fn b8 b16 result) 1) ∧
      ((∀ i, 1 ≤ i → i ≤ 4 → (s.fnOf (other * 8 + i)).tdi = .unlocked) →
        ∃ (t : State) (st : Nat), exec (.dieReset die fn b8 b16 result) s = .next (t.complete k result st) ∧ (st = 0 ∨ st = 4) ∧
          (∀ x ∈ t.groups, x.2.die ≠ other) ∧ (∀ x ∈ t.teams, x.2.die ≠ other) ∧ (∀ x ∈ t.fns, x.1 / 8 ≠ other) ∧
          (∀ x ∈ t.regs, x.1 / 2048 ≠ other) ∧ (st = 0 ↔ (t.die other).fenced = false))) ∧
    (∀ s1 bs, f.settling = none → s.takeEntry k f.cfg.invalRing (.event (.tlbInvalidationRequest die fn)) = (s1, .some bs) →
      ∃ t, exec (.tlbInvalidationRequest die fn) s = .next t ∧ Activity.event (.tlbInvalidationRequest die fn) ∈ t.agenda ∧
        (t.fnOf k).settling ≠ none ∧
        (recAt bs 12 4 % 2 = 1 → ∀ c ∈ t.cores, c.1 / 512 = die → ∀ e ∈ c.2.tlb, e.fn ≠ fn)) ∧
    (∀ n, f.settling = some n →
      (s.fnBusy die fn n = true → exec (.tlbInvalidationRequest die fn) s = .next s) ∧
      (s.fnBusy die fn n = false → ∃ t, exec (.tlbInvalidationRequest die fn) s = .next t ∧
        Activity.event (.tlbInvalidationRequest die fn) ∈ t.agenda ∧ ∀ x ∈ (t.fnOf k).queues, x.2.stopped = false)) ∧
    (∀ va units, (∀ c ∈ (s.invalidate die fn va units false).cores, c.1 / 512 = die → ∀ e ∈ c.2.tlb, e.fn = fn →
        (e.page + 2 ^ e.bits ≤ va ∨ va + units * 4096 ≤ e.page) ∧ va + units * 4096 ≤ e.page + 2 ^ 64) ∧
      ∀ c ∈ (s.invalidate die fn va units true).cores, c.1 / 512 = die → ∀ e ∈ c.2.tlb, e.fn ≠ fn) ∧
    (∀ (port : Nat) (stream : Option Nat) (va : DWord) (x : HostAccess),
      let e : Instr := .hostPortRequest die fn va ⟨port, stream⟩ x
      let bytes : List Byte := match x with
        | .write bs => bs
        | .read _ => []
      let keyed := ∃ y, stream = some y ∧ (port, y, k) ∈ s.basin.ide
      6 ≤ s.basin.boot → s.dieLive die = true → fn ≤ 4 → s.basin.fencedPorts.getLsbD port = false →
      (port ≠ (if f.cfg.hostPort then 41 else 40) → exec e s = .next (match x with
        | .write _ => s
        | .read _ => s.respond (.hostData die fn none))) ∧
      (port = (if f.cfg.hostPort then 41 else 40) →
        (1 ≤ fn → ¬ keyed → f.tdi = .locked ∨ f.tdi = .run → ∃ t, exec e s = .next t ∧ (t.fnOf k).tdi = .error) ∧
        (∀ z, fn = 0 ∨ keyed ∧ f.tdi = .run → die < 24 → bytes.length ≤ 240 → s.nextHop 24 die false = some z →
          let d := dirNo 24 z
          s.room d false = true → (s.dirOf d).waitReq = [] → ∃ t, exec e s = .next t ∧ t.mem = s.mem ∧
            t.dirOf d = { s.dirOf d with seq := (s.dirOf d).seq + 1, replay := (s.dirOf d).replay ++
              [⟨(s.dirOf d).seq, ⟨24, die, false, s.basin.msgs, some (.act (.host die fn va x))⟩, 1⟩] }))) ∧
    (∀ va s0 s1 bs sp loc sl ex, s.translate die fn none (BitVec.toNat va) 1 .store = (s0, .ok sp loc sl ex) →
      s0.hasFailed k (.host die fn va (.write bs)) (BitVec.toNat va) = false →
      s0.vWrite (k / 8) (k % 8) (BitVec.toNat va) bs = (s1, .ok ()) → s.hostAccess die fn va (.write bs) = s1) ∧
    (∀ va n s1 bs, s.partRead (.host die fn va (.read n)) die fn (BitVec.toNat va) n = (s1, .ok bs) →
      (s.hostAccess die fn va (.read n)).basin.responses = s1.basin.responses ++ [.hostData die fn (some bs)] ∧
        (s.hostAccess die fn va (.read n)).mem = s1.mem) ∧
    (∀ e, e = .lockInterfaceRequest die fn ∨ e = .startInterfaceRequest die fn ∨ e = .stopInterfaceRequest die fn →
      s.inSession die = false → exec e s = .next s) ∧
    (1 ≤ fn → fn ≤ 4 → s.inSession die = true →
      let free := ∀ i, f.cfg.keySlots.getLsbD i = true → s.slotOwner die i = none
      let said (t : State) : Prop := ∃ more, t.basin.responses = more ++ [.tdisp die fn true]
      let turnedAway (e : Instr) : Prop := exec e s = .next { s with basin := { s.basin with responses := s.basin.responses ++ [.tdisp die fn false] } }
      (f.tdi = .unlocked → free → ∃ t, exec (.lockInterfaceRequest die fn) s = .next t ∧ (t.fnOf k).tdi = .locked ∧ t.groups = s.groups ∧
        said t ∧ (∀ c ∈ t.cores, c.1 / 512 = die → ∀ e ∈ c.2.tlb, e.fn ≠ fn) ∧
        ∀ i, i < 64 → (t.die die).keys.get i {} = if f.cfg.keySlots.getLsbD i then ⟨some fn, ((s.die die).keys.get i {}).key + 1, false⟩
          else (s.die die).keys.get i {}) ∧
      (f.tdi ≠ .unlocked ∨ ¬ free → turnedAway (.lockInterfaceRequest die fn)) ∧
      (f.tdi = .locked → ∃ t, exec (.startInterfaceRequest die fn) s = .next t ∧ (t.fnOf k).tdi = .run ∧ t.mem = s.mem ∧ said t ∧
        Activity.control die fn ∈ t.agenda) ∧
      (f.tdi ≠ .locked → turnedAway (.startInterfaceRequest die fn)) ∧
      (f.tdi = .run ∨ f.tdi = .error → ∃ t, exec (.stopInterfaceRequest die fn) s = .next t ∧ (t.fnOf k).tdi = .unlocked ∧ said t) ∧
      (f.tdi = .unlocked ∨ f.tdi = .locked → turnedAway (.stopInterfaceRequest die fn)) ∧
      (f.tdi = .locked ∨ f.tdi = .run → ∃ t, exec (.tdiError die fn) s = .next t ∧ (t.fnOf k).tdi = .error ∧
        (∀ i, t.keyOwner die i ≠ some fn) ∧ (∀ c ∈ t.cores, c.1 / 512 = die → ∀ e ∈ c.2.tlb, e.fn ≠ fn) ∧
        ((∀ r ∈ s.regs, r.1 / 2048 = die → r.2.owner = fn → r.2.state = .free) → ∀ x ∈ (t.die die).keys, x.2.owner ≠ some fn)) ∧
      (f.tdi = .unlocked ∨ f.tdi = .error → exec (.tdiError die fn) s = .next s))

/-! ### Events: trust, failures and time -/

/-- R192, R199, R200, R308, R337 to R339, R341, R342, R344, R345: the SPDM responder, keys of the host ports, debug, errors
and failures, temperature, the lifetime record, freeze, reset, power and time. The model's choices are: which SPDM requests follow which (log
entry 43, PRESUMED); the IDE_KM error and move (log entry 44, DEDUCED); what a package reset and a loss of power leave (log entry 46, DEDUCED); the
die's own soft-error counts, and an uncorrectable error of a snapshot cache that changes nothing (log entry 53, DEDUCED). -/
def Obligations.TrustAndTimeEvents : Prop :=
  ∀ (s : State) (die : Nat),
    let b := s.basin
    let said (t : State) (r : Response) : Prop := t.basin.responses = b.responses ++ [r]
    let value (i fn : Nat) : Measured :=
      if i = 4 then .bank (if b.active then b.bank1 else b.bank0) else if i = 5 then .config (s.fnOf (die * 8 + fn)).cfg
      else if i = 6 then .unlock b.unlocked else .firmware i
    (6 ≤ b.boot → s.dieLive die = true →
      (∀ e st next r, (e, st, next, r) ∈ [(Instr.getVersion die, s.stage die, SpdmStage.version, Response.version die),
          (.getCapabilities die, .version, .capabilities, .capabilities die), (.negotiateAlgorithms die, .capabilities, .negotiated, .algorithms die),
          (.finish die, .handshake, .session, .finish die), (.endSession die, .session, .negotiated, .endSession die)] →
        (s.stage die = st → exec e s = .next ((s.setStage die next).respond r)) ∧
        (s.stage die ≠ st → exec e s = .next (s.respond (.error die)))) ∧
      (s.stage die = .negotiated ∨ s.stage die = .handshake ∨ s.stage die = .session →
        exec (.getDigests die) s = .next (s.respond (.digests die)) ∧ exec (.getCertificate die) s = .next (s.respond (.certificate die)) ∧
        (∀ i fn, 1 ≤ i → i ≤ 6 → exec (.getMeasurements die i fn false) s = .next (s.respond (.measurements die i fn (value i fn) none))) ∧
        (b.xmss < 1048576 →
          (∃ t, exec (.challenge die) s = .next t ∧ t.basin.xmss = b.xmss + 1 ∧ said t (.challengeAuth die b.xmss)) ∧
          (∀ i fn, 1 ≤ i → i ≤ 6 → ∃ t, exec (.getMeasurements die i fn true) s = .next t ∧ t.basin.xmss = b.xmss + 1 ∧
            said t (.measurements die i fn (value i fn) (some b.xmss))) ∧
          (s.stage die = .negotiated → ∃ t, exec (.keyExchange die) s = .next t ∧ t.basin.xmss = b.xmss + 1 ∧ t.stage die = .handshake ∧
            said t (.keyExchange die b.xmss))) ∧
        (1048576 ≤ b.xmss → exec (.challenge die) s = .next (s.respond (.error die))))) ∧
    (∀ port stream fn, fn ≤ 4 → s.inSession die = true →
      let k := die * 8 + fn
      let served := port = if (s.fnOf k).cfg.hostPort then 41 else 40
      (served → stream < 128 → ∃ t, exec (.ideKm ⟨port, stream⟩ k) s = .next t ∧ (port, stream, k) ∈ t.basin.ide ∧
        (∀ x ∈ t.basin.ide, x.1 = port → (x.2.1 = stream ↔ x.2.2 = k)) ∧ said t (.ideKey port stream) ∧ t.mem = s.mem) ∧
      (¬ served ∨ 128 ≤ stream → exec (.ideKm ⟨port, stream⟩ k) s = .next (s.respond (.error die)))) ∧
    (∀ v, exec (.debugUnlock v) s = .next { s with basin := { b with unlocked := b.unlocked || v } }) ∧
    exec .scanReadOut s = .next { s with scans := s.scans ++
      [⟨b, if b.unlocked then some ⟨s.dies, s.cores, s.groups, s.teams, s.fns, s.regs, s.mem⟩ else none⟩] } ∧
    (∀ u, ∃ t, exec (.softErrorCorrected (.team u)) s = .next t ∧ t = { s with dies := t.dies } ∧
      (t.die (s.teamOf u).die).softErrors.get 0 0 = satUp ((s.die (s.teamOf u).die).softErrors.get 0 0)) ∧
    (∀ ck, exec (.uncorrectableMemoryError (.cache ck)) s = .next s ∧
      ∃ t, exec (.softErrorCorrected (.cache ck)) s = .next t ∧ t = { s with dies := t.dies } ∧
        (t.die (ck / 512)).softErrors.get 1 0 = satUp ((s.die (ck / 512)).softErrors.get 1 0)) ∧
    (∀ pa, (∃ t i, exec (.softErrorCorrected (.memory die pa)) s = .next t ∧ (i = 2 * die ∨ i = 2 * die + 1) ∧ t.mem = s.mem ∧
        t.basin.life.corrected.get i 0 = satUp (b.life.corrected.get i 0)) ∧
      (∃ t i, exec (.uncorrectableMemoryError (.memory die pa)) s = .next t ∧ (i = 2 * die ∨ i = 2 * die + 1) ∧ t.mem = s.mem ∧
        dieLoc die pa / 4096 ∈ t.fencedPages ∧ t.basin.life.uncorrectable.get i 0 = satUp (b.life.uncorrectable.get i 0))) ∧
    (∀ u, (s.teamOf u).live = true → ∃ t, exec (.uncorrectableMemoryError (.team u)) s = .next t ∧ (t.teamOf u).bad = true ∧
      Activity.event (.teamEnd u) ∈ t.agenda) ∧
    (s.dieLive die = true → ∃ t, exec (.keeperFailure die) s = .next t ∧ (∀ x ∈ t.groups, x.2.die ≠ die) ∧ (∀ x ∈ t.copies, x.org.die ≠ die)) ∧
    (∀ core, ∃ t, exec (.coreFailure die core) s = .next t ∧ (t.coreOf (die * 512 + core)).fenced = true ∧
      (t.coreOf (die * 512 + core)).mx = [] ∧ (t.coreOf (die * 512 + core)).nm = [] ∧ ∀ x ∈ t.copies, x.org.die * 512 + x.org.core ≠ die * 512 + core) ∧
    (1760 < (s.die die).temp.toInt → ∃ t, exec (.thermalThrottle die) s = .next t ∧ (t.die die).throttled = true ∧ t = { s with dies := t.dies }) ∧
    ((s.die die).temp.toInt < 1600 → ∃ t, exec (.thermalThrottleEnd die) s = .next t ∧ (t.die die).throttled = false ∧ t = { s with dies := t.dies }) ∧
    (2000 ≤ (s.die die).temp.toInt → exec (.overtemperatureFreeze die) s = exec .freeze s) ∧
    (∃ t, exec .freeze s = .next t ∧ t.basin.frozen = true ∧ t.basin.freezeLine = true ∧ t.mem = s.mem ∧ t.groups = s.groups ∧
      (∀ d, (t.die d).keys = []) ∧ ∀ d, (t.portDir d).slot0 = .empty ∧ (t.portDir d).slot1 = .empty) ∧
    (∀ x : DWord, ∃ t, exec (.temperatureSample die x) s = .next t ∧ (t.die die).temp = x ∧ t.mem = s.mem ∧
      (1760 < x.toInt → die ≠ 24 → Activity.event (.thermalThrottle die) ∈ t.agenda) ∧
      (2000 ≤ x.toInt → Activity.event (.overtemperatureFreeze die) ∈ t.agenda) ∧
      (let bin := if x.toInt < 480 then 0 else min 15 (((x.toInt - 480) / 80).toNat + 1);
        t.basin.life.temps.get (16 * die + bin) 0 = satUp32 (b.life.temps.get (16 * die + bin) 0))) ∧
    (∃ t, exec .lifetimeImageWrite s = .next t ∧ t.mem = s.mem ∧ t.basin.images.get ((b.life.sequence + 1).toNat % 1024) {} = t.basin.life ∧
      let old := b.life
      (old.seconds.toNat % 600 ≠ 0 ∨ old.seconds = old.rolled → t.basin.life = { old with sequence := old.sequence + 1 }) ∧
      (old.seconds.toNat % 600 = 0 → old.seconds ≠ old.rolled → t.basin.life = { old with
          sequence := old.sequence + 1, rolled := old.seconds, flits := [], periodReplays := [], rates := t.basin.life.rates } ∧
        ∀ i j, i < 78 → j < 16 → t.basin.life.rates.get (16 * i + j) 0 =
          if j = rateBin (old.periodReplays.get i 0).toNat (old.flits.get i 0).toNat then satUp32 (old.rates.get (16 * i + j) 0)
          else old.rates.get (16 * i + j) 0)) ∧
    (∀ e, e = .packageReset ∨ e = .powerLoss → ∃ t, exec e s = .next t ∧ t.groups = [] ∧ t.teams = [] ∧ t.fns = [] ∧ t.regs = [] ∧ t.reqs = [] ∧
      t.basin.frozen = false ∧ t.basin.time = 0 ∧ t.live = s.live ∧ t.partNo = s.partNo ∧ t.basin.xmss = b.xmss ∧ t.basin.images = b.images ∧
      (∀ a, 64 * 2 ^ 48 ≤ a → Memory.read t.mem a = 0) ∧ (∀ a, 24 * 2 ^ 48 ≤ a → a < 64 * 2 ^ 48 → Memory.read t.mem a = Memory.read s.mem a) ∧
      t.basin.contests.get 0 {} = ⟨true, false, 255, 1#1 ++ s.live⟩ ∧
      (e = .powerLoss → t.basin.boot = 0 ∧ t.basin.bootFailed = none) ∧
      (e = .packageReset →
        (Config.verified s.free = false → t.basin.boot = 0 ∧ t.basin.bootFailed = some 24) ∧
        (Config.verified s.free = true →
          ((∀ d, d < 24 → s.live.getLsbD d = true → Config.verified (s.free + 1 + d) = true) → t.basin.boot = 6 ∧ t.basin.bootFailed = none) ∧
          ∀ d, d < 24 → s.live.getLsbD d = true → Config.verified (s.free + 1 + d) = false →
            (∀ j, j < d → s.live.getLsbD j = true → Config.verified (s.free + 1 + j) = true) → t.basin.boot = 2 ∧ t.basin.bootFailed = some d))) ∧
    (b.frozen = false → 4 ≤ b.boot →
      let k := min (b.lead + 1) 5
      ∃ t, exec .timeCounterTick s = .next t ∧ t.mem = s.mem ∧ t.basin.lead = k ∧
        t.basin.time = (if 3 ≤ k then b.time + 1 else b.time) ∧
        (die < 24 → s.live.getLsbD die = true →
          let on := (s.die die).released = true ∨ 3 ≤ (k : Int) + timeDelta die
          (t.die die).released = decide on ∧ (t.die die).time = if on then (s.die die).time + 1 else (s.die die).time)) ∧
    (b.frozen = true ∨ b.boot < 4 → ∃ t, exec .timeCounterTick s = .next t ∧ t.mem = s.mem ∧ t.basin.time = b.time)
end

