-- ==== Sys2Proof/Laws/Elements.lean ====
section
/-! SUPPORT. Elements of MODE.ITYPE as numbers: what an element function leaves in each (R74, R75). -/

namespace Sys2Proof.Machine

open Sys2Proof

/-- An element as a number. -/
theorem toNat_elem (w : Nat) (x : DWord) (e : Nat) : (elem w x e).toNat = elemNat w x e := by
  unfold elem elemNat
  rw [BitVec.extractLsb'_toNat, Nat.shiftRight_eq_div_pow]

theorem elemNat_lt (w : Nat) (x : DWord) (e : Nat) : elemNat w x e < 2 ^ w := Nat.mod_lt _ (by positivity)

theorem toNat_two (h l : BitVec 16) : ((h ++ l).setWidth 64 : DWord).toNat = h.toNat * 2 ^ 16 + l.toNat := by
  have h1 := h.isLt
  have h2 := l.isLt
  rw [BitVec.toNat_setWidth, BitVec.toNat_append, ← Nat.shiftLeft_add_eq_or_of_lt h2, Nat.shiftLeft_eq]
  omega

theorem toNat_four (a b c d : BitVec 8) :
    ((a ++ b ++ c ++ d).setWidth 64 : DWord).toNat = a.toNat * 2 ^ 24 + b.toNat * 2 ^ 16 + c.toNat * 2 ^ 8 + d.toNat := by
  have h1 := a.isLt
  have h2 := b.isLt
  have h3 := c.isLt
  have h4 := d.isLt
  simp only [BitVec.toNat_setWidth, BitVec.toNat_append]
  rw [← Nat.shiftLeft_add_eq_or_of_lt h4, Nat.shiftLeft_eq, ← Nat.shiftLeft_add_eq_or_of_lt h3, Nat.shiftLeft_eq,
    ← Nat.shiftLeft_add_eq_or_of_lt h2, Nat.shiftLeft_eq]
  omega

theorem elem_64 (x : DWord) : elem 64 x 0 = x := by
  apply BitVec.eq_of_toNat_eq
  rw [toNat_elem]
  unfold elemNat
  have := x.isLt
  omega

theorem elemNat_zero (w : Nat) (x : DWord) : elemNat w x 0 = x.toNat % 2 ^ w := by
  unfold elemNat
  rw [Nat.mul_zero, pow_zero, Nat.div_one]

/-- Every element of a result (R75). -/
theorem elemNat_mapElems (it : Nat) (f : IntOp) (a b c : DWord) (e : Nat) (he : e < elemCount it) :
    elemNat (elemWidth it) (mapElems it f a b c) e =
      (f (elemWidth it) (elem _ a e) (elem _ b e) (elem _ c e)).toNat := by
  match it with
  | 0 =>
    obtain rfl : e = 0 := by simp only [elemCount] at he; omega
    show elemNat 32 ((f 32 (elem 32 a 0) (elem 32 b 0) (elem 32 c 0)).setWidth 64) 0 = (f 32 (elem 32 a 0) (elem 32 b 0) (elem 32 c 0)).toNat
    generalize f 32 (elem 32 a 0) (elem 32 b 0) (elem 32 c 0) = x
    have := x.isLt
    rw [elemNat_zero, BitVec.toNat_setWidth]
    omega
  | 1 =>
    show elemNat 16 ((f 16 (elem 16 a 1) (elem 16 b 1) (elem 16 c 1) ++ f 16 (elem 16 a 0) (elem 16 b 0) (elem 16 c 0)).setWidth 64) e =
      (f 16 (elem 16 a e) (elem 16 b e) (elem 16 c e)).toNat
    unfold elemNat
    rw [toNat_two]
    have h0 := (f 16 (elem 16 a 0) (elem 16 b 0) (elem 16 c 0)).isLt
    simp only [elemCount] at he
    obtain rfl | rfl : e = 0 ∨ e = 1 := by omega
    · rw [Nat.mul_zero, pow_zero]; omega
    · have h1 := (f 16 (elem 16 a 1) (elem 16 b 1) (elem 16 c 1)).isLt
      rw [Nat.mul_one]; omega
  | 2 =>
    show elemNat 8 ((f 8 (elem 8 a 3) (elem 8 b 3) (elem 8 c 3) ++ f 8 (elem 8 a 2) (elem 8 b 2) (elem 8 c 2)
      ++ f 8 (elem 8 a 1) (elem 8 b 1) (elem 8 c 1) ++ f 8 (elem 8 a 0) (elem 8 b 0) (elem 8 c 0)).setWidth 64) e =
      (f 8 (elem 8 a e) (elem 8 b e) (elem 8 c e)).toNat
    unfold elemNat
    rw [toNat_four]
    have h0 := (f 8 (elem 8 a 0) (elem 8 b 0) (elem 8 c 0)).isLt
    have h1 := (f 8 (elem 8 a 1) (elem 8 b 1) (elem 8 c 1)).isLt
    have h2 := (f 8 (elem 8 a 2) (elem 8 b 2) (elem 8 c 2)).isLt
    have h3 := (f 8 (elem 8 a 3) (elem 8 b 3) (elem 8 c 3)).isLt
    simp only [elemCount] at he
    obtain rfl | rfl | rfl | rfl : e = 0 ∨ e = 1 ∨ e = 2 ∨ e = 3 := by omega
    · rw [Nat.mul_zero, pow_zero]; omega
    · rw [Nat.mul_one]; omega
    · rw [show 8 * 2 = 16 by rfl]; omega
    · rw [show 8 * 3 = 24 by rfl]; omega
  | n + 3 =>
    obtain rfl : e = 0 := by simp only [elemCount] at he; omega
    show elemNat 64 (f 64 a b c) 0 = (f 64 (elem 64 a 0) (elem 64 b 0) (elem 64 c 0)).toNat
    rw [elem_64, elem_64, elem_64, elemNat_zero]
    exact Nat.mod_eq_of_lt (f 64 a b c).isLt

/-- A relation over all elements (R79). -/
theorem allElems_iff (it : Nat) (r : IntRel) (a b : DWord) :
    allElems it r a b = true ↔ ∀ e, e < elemCount it → r (elemWidth it) (elem _ a e) (elem _ b e) = true := by
  match it with
  | 0 =>
    show r 32 (elem 32 a 0) (elem 32 b 0) = true ↔ ∀ e, e < 1 → r 32 (elem 32 a e) (elem 32 b e) = true
    exact ⟨fun h e he => by obtain rfl : e = 0 := by omega
                            exact h, fun h => h 0 (by omega)⟩
  | 1 =>
    show (List.range 2).all (fun e => r 16 (elem 16 a e) (elem 16 b e)) = true ↔ ∀ e, e < 2 → r 16 (elem 16 a e) (elem 16 b e) = true
    simp only [List.all_eq_true, List.mem_range]
  | 2 =>
    show (List.range 4).all (fun e => r 8 (elem 8 a e) (elem 8 b e)) = true ↔ ∀ e, e < 4 → r 8 (elem 8 a e) (elem 8 b e) = true
    simp only [List.all_eq_true, List.mem_range]
  | n + 3 =>
    show r 64 a b = true ↔ ∀ e, e < 1 → r 64 (elem 64 a e) (elem 64 b e) = true
    refine ⟨fun h e he => ?_, fun h => ?_⟩
    · obtain rfl : e = 0 := by omega
      rw [elem_64, elem_64]; exact h
    · have := h 0 (by omega)
      rwa [elem_64, elem_64] at this

/-! ### Element functions as numbers (R75) -/

/-- The signed reading of an element. -/
theorem toSigned_toNat {n : Nat} (x : BitVec n) : toSigned n x.toNat = x.toInt := by
  unfold toSigned; rw [BitVec.toInt_eq_toNat_cond]; push_cast; rfl

/-- A signed reading narrowed again. -/
theorem wrapInt_toInt {n : Nat} (x : BitVec n) : wrapInt n x.toInt = x.toNat := by
  unfold wrapInt
  rw [BitVec.toInt_eq_toNat_bmod]
  have := x.isLt
  rw [Int.bmod_emod, Int.emod_eq_of_lt (by omega) (by exact_mod_cast this), Int.toNat_natCast]

/-- An integer narrowed to a width. -/
theorem ofInt_toNat (n : Nat) (x : Int) : (BitVec.ofInt n x).toNat = wrapInt n x := by
  rw [BitVec.toNat_ofInt]; rfl

/-- The right shift with sign fill, as numbers. -/
theorem sar_num {n : Nat} (x : BitVec n) (y : Nat) : (x.sshiftRight y).toNat = signShift n x.toNat y := by
  rw [← wrapInt_toInt, BitVec.toInt_sshiftRight]
  unfold signShift
  rw [toSigned_toNat]
  split
  · rename_i h
    have hx := x.toInt_lt
    have hx' := x.le_toInt
    rw [Int.shiftRight_eq_div_pow]
    have hp : (2:Int)^n ≤ 2^y := by exact_mod_cast Nat.pow_le_pow_right (by omega) h
    have hn : 0 < n ∨ n = 0 := by omega
    split
    · have : x.toInt / ((2^y : Nat):Int) = -1 := by
        push_cast
        rcases hn with hn | rfl
        · have : (2:Int)^(n-1) ≤ 2^n := by exact_mod_cast Nat.pow_le_pow_right (by omega) (by omega)
          rw [Int.ediv_eq_iff_of_pos (by positivity)]; omega
        · have := x.isLt; simp at this; simp [BitVec.toInt, this] at *
      rw [this]; unfold wrapInt
      have : (-1:Int) % ((2^n : Nat):Int) = 2^n - 1 := by
        have h1 : (1:Int) ≤ 2^n := by exact_mod_cast Nat.one_le_two_pow
        rw [← Int.add_emod_right]
        push_cast
        rw [Int.emod_eq_of_lt] <;> omega
      rw [this]
      have h1 : (1:Nat) ≤ 2^n := Nat.one_le_two_pow
      have : ((2:Int)^n - 1) = ((2^n - 1 : Nat) : Int) := by push_cast [h1]; rfl
      exact (congrArg Int.toNat this).trans (Int.toNat_natCast _)
    · have : x.toInt / ((2^y : Nat):Int) = 0 := by
        push_cast
        rcases hn with hn | rfl
        · have : (2:Int)^(n-1) ≤ 2^n := by exact_mod_cast Nat.pow_le_pow_right (by omega) (by omega)
          rw [Int.ediv_eq_iff_of_pos (by positivity)]; omega
        · have := x.isLt; simp at this; simp [BitVec.toInt, this] at *
      rw [this]; simp [wrapInt]
  · rw [Int.shiftRight_eq_div_pow]; push_cast; rfl

/-- The high half of a product taken modulo its double width. -/
theorem high_part (a m : Int) (hm : 0 < m) : a % (m * m) / m % m = a / m % m := by
  have e : a / m = a % (m*m) / m + m * (a / (m*m)) := by
    conv_lhs => rw [← Int.emod_add_mul_ediv a (m*m), mul_assoc]
    rw [Int.add_mul_ediv_left _ _ (by omega)]
  rw [e, Int.add_mul_emod_self_left]

/-- Sign extension keeps the integer. -/
theorem signExtend_ofInt {n k : Nat} (x : BitVec n) (h : n ≤ k) : x.signExtend k = BitVec.ofInt k x.toInt := by
  apply BitVec.eq_of_toInt_eq
  rw [BitVec.toInt_signExtend_of_le h, BitVec.toInt_ofInt]
  have h1 := x.toInt_lt
  have h2 := x.le_toInt
  symm
  rcases Nat.eq_zero_or_pos n with rfl | hn
  · have : x.toInt = 0 := by rw [BitVec.eq_nil x]; rfl
    rw [this]; simp
  have h3 : (2:Int)^(n-1) ≤ 2^(k-1) := by exact_mod_cast Nat.pow_le_pow_right (by omega) (by omega)
  have h4 : (2:Int)^k = 2 * 2^(k-1) := by rw [← pow_succ']; congr 1; omega
  apply Int.bmod_eq_of_le <;> push_cast <;> rw [h4] <;> omega

/-- The high half of the signed product. -/
theorem imulh_num {n : Nat} (x y : BitVec n) :
    ((x.signExtend (2*n) * y.signExtend (2*n)).extractLsb' n n).toNat = wrapInt n (toSigned n x.toNat * toSigned n y.toNat / 2^n) := by
  rw [toSigned_toNat, toSigned_toNat, BitVec.extractLsb'_toNat, Nat.shiftRight_eq_div_pow]
  have hm : ((x.signExtend (2*n) * y.signExtend (2*n)).toNat : Int) = (x.toInt * y.toInt) % (2^n * 2^n) := by
    rw [signExtend_ofInt x (by omega), signExtend_ofInt y (by omega), ← BitVec.ofInt_mul, BitVec.toNat_ofInt,
      Int.toNat_of_nonneg (Int.emod_nonneg _ (by positivity))]
    push_cast
    rw [two_mul, pow_add]
  apply Int.natCast_inj.1
  unfold wrapInt
  rw [Int.toNat_of_nonneg (Int.emod_nonneg _ (by positivity))]
  push_cast
  rw [hm, high_part _ _ (by positivity)]

/-- The high half of the unsigned product. -/
theorem imulhn_num {n : Nat} (x y : BitVec n) :
    ((x.setWidth (2*n) * y.setWidth (2*n)).extractLsb' n n).toNat = x.toNat * y.toNat / 2^n := by
  rw [BitVec.extractLsb'_toNat, Nat.shiftRight_eq_div_pow, BitVec.toNat_mul, BitVec.toNat_setWidth, BitVec.toNat_setWidth]
  have hx := x.isLt
  have hy := y.isLt
  have h1 : x.toNat * y.toNat < 2^n * 2^n := Nat.mul_lt_mul'' hx hy
  have h2 : 2^(2*n) = 2^n * 2^n := by rw [two_mul, pow_add]
  have h3 : 2^n ≤ 2^(2*n) := Nat.pow_le_pow_right (by omega) (by omega)
  rw [Nat.mod_eq_of_lt (lt_of_lt_of_le hx h3), Nat.mod_eq_of_lt (lt_of_lt_of_le hy h3), h2, Nat.mod_eq_of_lt h1]
  exact Nat.mod_eq_of_lt (Nat.div_lt_of_lt_mul h1)

/-- The left shift, as numbers. -/
theorem shl_num {n : Nat} (x : BitVec n) (y : Nat) : (x <<< y).toNat = cutShift n y (x.toNat * 2^y % 2^n) := by
  rw [BitVec.toNat_shiftLeft, Nat.shiftLeft_eq]
  unfold cutShift
  split
  · rename_i h
    exact Nat.mod_eq_zero_of_dvd (Dvd.dvd.mul_left (pow_dvd_pow 2 h) _)
  · rfl

/-- The right shift with zero fill, as numbers. -/
theorem shr_num {n : Nat} (x : BitVec n) (y : Nat) : (x >>> y).toNat = cutShift n y (x.toNat / 2^y) := by
  rw [BitVec.toNat_ushiftRight, Nat.shiftRight_eq_div_pow]
  unfold cutShift
  split
  · rename_i h
    exact Nat.div_eq_of_lt (lt_of_lt_of_le x.isLt (Nat.pow_le_pow_right (by omega) h))
  · rfl

/-- The difference, as numbers. -/
theorem sub_num {n : Nat} (x y : BitVec n) : (x - y).toNat = wrapInt n ((x.toNat : Int) - y.toNat) := by
  unfold wrapInt
  rw [BitVec.toNat_sub]
  apply Int.natCast_inj.1
  have hp : (0:Int) < ((2^n : Nat):Int) := by positivity
  rw [Int.toNat_of_nonneg (Int.emod_nonneg _ (by omega)), ← Int.add_emod_right]
  have hy := y.isLt
  rw [Int.natCast_mod, Int.natCast_add, Int.natCast_sub (by omega)]
  congr 1; ring

end Sys2Proof.Machine
end

