-- ==== Sys2Proof/Laws/Memory.lean ====
section
/-! SUPPORT. Memory: every operation keeps the canonical form; what is read after a write. -/

namespace Sys2Proof.Machine.Memory

open Sys2Proof

/-! ### The canonical form -/

theorem wfFrom_cons (k : Nat) (x : Byte) (r : Memory) (lo : Option Nat) :
    wfFrom ((k, x) :: r) lo = true ↔ (∀ l, lo = some l → l < k) ∧ x ≠ 0 ∧ wfFrom r (some k) = true := by
  cases lo <;> simp [wfFrom, and_assoc]

/-- A lower bound can be lowered. -/
theorem wfFrom_mono (m : Memory) (lo lo' : Option Nat) (h : wfFrom m lo = true)
    (hl : ∀ l, lo' = some l → ∃ k, lo = some k ∧ l ≤ k) : wfFrom m lo' = true := by
  cases m with
  | nil => rfl
  | cons p r =>
    obtain ⟨k, x⟩ := p
    rw [wfFrom_cons] at h ⊢
    refine ⟨fun l e => ?_, h.2⟩
    obtain ⟨j, hj, le⟩ := hl l e
    exact lt_of_le_of_lt le (h.1 j hj)

theorem wfFrom_write (m : Memory) (a : Nat) (b : Byte) (lo : Option Nat) (h : wfFrom m lo = true)
    (hl : ∀ l, lo = some l → l < a) : wfFrom (write m a b) lo = true := by
  induction m generalizing lo with
  | nil =>
    unfold write
    split
    · rfl
    · rename_i hb
      exact (wfFrom_cons ..).2 ⟨hl, hb, rfl⟩
  | cons p r ih =>
    obtain ⟨k, x⟩ := p
    have h' := (wfFrom_cons k x r lo).1 h
    unfold write
    split
    · rename_i lt
      exact (wfFrom_cons ..).2 ⟨h'.1, h'.2.1, ih (some k) h'.2.2 (fun l e => by cases e; exact lt)⟩
    · split
      · rename_i e; subst e
        split
        · exact wfFrom_mono r (some k) lo h'.2.2 (fun l e => ⟨k, rfl, le_of_lt (h'.1 l e)⟩)
        · rename_i hb
          exact (wfFrom_cons ..).2 ⟨h'.1, hb, h'.2.2⟩
      · split
        · exact h
        · rename_i h1 h2 hb
          exact (wfFrom_cons ..).2 ⟨hl, hb, (wfFrom_cons ..).2 ⟨fun l e => by cases e; omega, h'.2.1, h'.2.2⟩⟩

theorem wf_nil : wf [] = true := rfl

theorem wf_write (m : Memory) (a : Nat) (b : Byte) (h : wf m = true) : wf (write m a b) = true :=
  wfFrom_write m a b none h (fun _ e => by cases e)

theorem wf_writeNat (m : Memory) (a n v : Nat) (h : wf m = true) : wf (writeNat m a n v) = true := by
  induction n generalizing m a v with
  | zero => exact h
  | succ k ih => exact ih _ _ _ (wf_write m a _ h)

theorem wf_writeBytes (m : Memory) (a : Nat) (bs : List Byte) (h : wf m = true) : wf (writeBytes m a bs) = true := by
  induction bs generalizing m a with
  | nil => exact h
  | cons b r ih => exact ih _ _ (wf_write m a b h)

theorem wfFrom_filter (m : Memory) (f : Host.Cell → Bool) (lo : Option Nat) (h : wfFrom m lo = true) :
    wfFrom (List.filter f m) lo = true := by
  induction m generalizing lo with
  | nil => rfl
  | cons p r ih =>
    obtain ⟨k, x⟩ := p
    have h' := (wfFrom_cons k x r lo).1 h
    rw [List.filter_cons]
    split
    · exact (wfFrom_cons ..).2 ⟨h'.1, h'.2.1, ih _ h'.2.2⟩
    · exact ih lo (wfFrom_mono r (some k) lo h'.2.2 (fun l e => ⟨k, rfl, le_of_lt (h'.1 l e)⟩))

/-- Taking cells away keeps the form. -/
theorem wf_filter (m : Memory) (f : Host.Cell → Bool) (h : wf m = true) : wf (List.filter f m) = true :=
  wfFrom_filter m f none h

/-- Operations that keep the form, made in turn, keep it. -/
theorem wf_foldl {β : Type} (l : List β) (f : Memory → β → Memory) (m : Memory)
    (hf : ∀ m b, wf m = true → wf (f m b) = true) (h : wf m = true) : wf (l.foldl f m) = true := by
  induction l generalizing m with
  | nil => exact h
  | cons b r ih => exact ih _ (hf m b h)

/-! ### Reads after writes -/

/-- Nothing is listed below the bound of a canonical tail. -/
theorem read_of_wfFrom (m : Memory) (k a : Nat) (h : wfFrom m (some k) = true) (le : a ≤ k) : read m a = 0 := by
  induction m generalizing k with
  | nil => rfl
  | cons p r ih =>
    obtain ⟨j, x⟩ := p
    have h' := (wfFrom_cons j x r (some k)).1 h
    have lt := h'.1 k rfl
    unfold read
    rw [if_neg (by omega)]
    exact ih j h'.2.2 (by omega)

theorem read_write_ne (m : Memory) (a c : Nat) (b : Byte) (h : c ≠ a) : read (write m a b) c = read m c := by
  induction m with
  | nil => unfold write; split <;> simp [read, Ne.symm h]
  | cons p r ih =>
    obtain ⟨k, x⟩ := p
    unfold write
    split
    · simp [read, ih]
    · split
      · rename_i e; subst e
        split <;> simp [read, Ne.symm h]
      · split
        · rfl
        · simp [read, Ne.symm h]

theorem read_write_self (m : Memory) (a : Nat) (b : Byte) (hm : wf m = true) : read (write m a b) a = b := by
  suffices H : ∀ lo, wfFrom m lo = true → read (write m a b) a = b from H none hm
  intro lo h
  clear hm
  induction m generalizing lo with
  | nil => unfold write; split <;> simp_all [read]
  | cons p r ih =>
    obtain ⟨k, x⟩ := p
    have h' := (wfFrom_cons k x r lo).1 h
    unfold write
    split
    · rename_i lt
      simp only [read]
      rw [if_neg (by omega)]
      exact ih _ h'.2.2
    · split
      · rename_i e; subst e
        split
        · rename_i hb; rw [hb]; exact read_of_wfFrom r k k h'.2.2 (le_refl k)
        · simp [read]
      · split
        · rename_i h1 h2 hb
          rw [hb]
          simp only [read]
          rw [if_neg h2]
          exact read_of_wfFrom r k a h'.2.2 (by omega)
        · simp [read]

theorem read_writeNat_out (m : Memory) (a n v c : Nat) (h : c < a ∨ a + n ≤ c) : read (writeNat m a n v) c = read m c := by
  induction n generalizing m a v with
  | zero => rfl
  | succ k ih =>
    unfold writeNat
    rw [ih _ _ _ (by omega), read_write_ne _ _ _ _ (by omega)]

theorem read_writeBytes_out (m : Memory) (a : Nat) (bs : List Byte) (c : Nat) (h : c < a ∨ a + bs.length ≤ c) :
    read (writeBytes m a bs) c = read m c := by
  induction bs generalizing m a with
  | nil => rfl
  | cons b r ih =>
    simp only [List.length_cons] at h
    unfold writeBytes
    rw [ih _ _ (by omega), read_write_ne _ _ _ _ (by omega)]

/-- Byte `i` of what has been written. -/
theorem read_writeBytes_in (m : Memory) (a : Nat) (bs : List Byte) (i : Nat) (hi : i < bs.length) (hm : wf m = true) :
    read (writeBytes m a bs) (a + i) = bs.getD i 0 := by
  induction bs generalizing m a i with
  | nil => simp at hi
  | cons b r ih =>
    unfold writeBytes
    cases i with
    | zero =>
      rw [read_writeBytes_out _ _ _ _ (by omega), Nat.add_zero, read_write_self _ _ _ hm]
      rfl
    | succ j =>
      have := ih (write m a b) (a + 1) j (by simpa using hi) (wf_write _ _ _ hm)
      rw [show a + (j + 1) = a + 1 + j by omega, this]
      rfl

/-- A number written is read back, modulo its bytes. -/
theorem readNat_writeNat (m : Memory) (a n v : Nat) (hm : wf m = true) : readNat (writeNat m a n v) a n = v % 256 ^ n := by
  induction n generalizing m a v with
  | zero => simp [readNat, Nat.mod_one]
  | succ k ih =>
    simp only [readNat, writeNat]
    rw [read_writeNat_out _ _ _ _ _ (by omega), read_write_self _ _ _ hm, ih _ _ _ (wf_write _ _ _ hm), BitVec.toNat_ofNat]
    rw [show (256 : Nat) ^ (k + 1) = 256 * 256 ^ k by ring, Nat.mod_mul]

end Sys2Proof.Machine.Memory
end

