-- ==== Sys2Proof/Laws/Table.lean ====
section
/-! SUPPORT. Tables: what is read after a record has been set or erased. -/

namespace Sys2Proof.Table

variable {α : Type}

@[simp] theorem get_nil (k : Nat) (d : α) : Table.get [] k d = d := rfl

@[simp] theorem get_set (t : Table α) (k : Nat) (x d : α) : Table.get (Table.set t k x) k d = x := by
  induction t with
  | nil => simp [Table.set, Table.get]
  | cons p r ih =>
    obtain ⟨j, y⟩ := p
    unfold Table.set
    split
    · simp [Table.get]
    · split
      · simp [Table.get]
      · simp [Table.get, *]

theorem get_set_ne (t : Table α) (k j : Nat) (x d : α) (h : j ≠ k) :
    Table.get (Table.set t k x) j d = Table.get t j d := by
  induction t with
  | nil => simp [Table.set, Table.get, Ne.symm h]
  | cons p r ih =>
    obtain ⟨i, y⟩ := p
    unfold Table.set
    split
    · rename_i e; subst e; simp [Table.get, Ne.symm h]
    · split
      · simp [Table.get, Ne.symm h]
      · simp [Table.get, ih]

theorem get_set_ite (t : Table α) (k j : Nat) (x d : α) :
    Table.get (Table.set t k x) j d = if j = k then x else Table.get t j d := by
  split
  · rename_i e; subst e; exact get_set ..
  · rename_i e; exact get_set_ne _ _ _ _ _ e

@[simp] theorem get_erase (t : Table α) (k : Nat) (d : α) : Table.get (Table.erase t k) k d = d := by
  induction t with
  | nil => rfl
  | cons p r ih =>
    obtain ⟨j, y⟩ := p
    unfold Table.erase
    split
    · exact ih
    · rename_i h; simp [Table.get, h, ih]

theorem get_erase_ne (t : Table α) (k j : Nat) (d : α) (h : j ≠ k) : Table.get (Table.erase t k) j d = Table.get t j d := by
  induction t with
  | nil => rfl
  | cons p r ih =>
    obtain ⟨i, y⟩ := p
    unfold Table.erase
    split
    · rename_i e; subst e; simp [Table.get, Ne.symm h, ih]
    · simp [Table.get, ih]

/-- Records set in turn leave alone every record that none of them names. -/
theorem get_foldl_set_ne {β : Type} (l : List β) (key : β → Nat) (val : β → α) (t : Table α) (j : Nat) (d : α)
    (h : ∀ b ∈ l, key b ≠ j) :
    Table.get (l.foldl (fun t b => Table.set t (key b) (val b)) t) j d = Table.get t j d := by
  induction l generalizing t with
  | nil => rfl
  | cons b r ih =>
    rw [List.foldl_cons, ih _ (fun c hc => h c (List.mem_cons_of_mem _ hc))]
    exact get_set_ne _ _ _ _ _ (Ne.symm (h b (List.mem_cons_self ..)))

/-- Records set in turn under distinct numbers: each reads as what was set. -/
theorem get_foldl_set {β : Type} (l : List β) (key : β → Nat) (val : β → α) (t : Table α) (b : β) (d : α)
    (hb : b ∈ l) (h : ∀ x ∈ l, ∀ y ∈ l, key x = key y → x = y) :
    Table.get (l.foldl (fun t b => Table.set t (key b) (val b)) t) (key b) d = val b := by
  induction l generalizing t with
  | nil => cases hb
  | cons c r ih =>
    rw [List.foldl_cons]
    by_cases hr : b ∈ r
    · exact ih _ hr (fun x hx y hy => h x (List.mem_cons_of_mem _ hx) y (List.mem_cons_of_mem _ hy))
    · have e : b = c := by
        rcases List.mem_cons.1 hb with e | e
        · exact e
        · exact absurd e hr
      subst e
      rw [get_foldl_set_ne]
      · exact get_set ..
      · intro x hx e
        exact hr (h x (List.mem_cons_of_mem _ hx) b (List.mem_cons_self ..) e ▸ hx)

end Sys2Proof.Table
end

