-- ==== Sys2Proof/Laws/State.lean ====
section
/-! SUPPORT. One lemma per field and update of the state, and the records read back after an update. -/

namespace Sys2Proof.Machine.State

open Sys2Proof

variable (s : State)

/-! ### setGroup -/

@[simp] theorem setGroup_live (k : Nat) (g : Group) : (s.setGroup k g).live = s.live := rfl
@[simp] theorem setGroup_partNo (k : Nat) (g : Group) : (s.setGroup k g).partNo = s.partNo := rfl
@[simp] theorem setGroup_mem (k : Nat) (g : Group) : (s.setGroup k g).mem = s.mem := rfl
@[simp] theorem setGroup_empties (k : Nat) (g : Group) : (s.setGroup k g).empties = s.empties := rfl
@[simp] theorem setGroup_tags (k : Nat) (g : Group) : (s.setGroup k g).tags = s.tags := rfl
@[simp] theorem setGroup_teams (k : Nat) (g : Group) : (s.setGroup k g).teams = s.teams := rfl
@[simp] theorem setGroup_cores (k : Nat) (g : Group) : (s.setGroup k g).cores = s.cores := rfl
@[simp] theorem setGroup_fns (k : Nat) (g : Group) : (s.setGroup k g).fns = s.fns := rfl
@[simp] theorem setGroup_launches (k : Nat) (g : Group) : (s.setGroup k g).launches = s.launches := rfl
@[simp] theorem setGroup_dies (k : Nat) (g : Group) : (s.setGroup k g).dies = s.dies := rfl
@[simp] theorem setGroup_regs (k : Nat) (g : Group) : (s.setGroup k g).regs = s.regs := rfl
@[simp] theorem setGroup_basin (k : Nat) (g : Group) : (s.setGroup k g).basin = s.basin := rfl
@[simp] theorem setGroup_fencedPages (k : Nat) (g : Group) : (s.setGroup k g).fencedPages = s.fencedPages := rfl
@[simp] theorem setGroup_scans (k : Nat) (g : Group) : (s.setGroup k g).scans = s.scans := rfl
@[simp] theorem setGroup_loads (k : Nat) (g : Group) : (s.setGroup k g).loads = s.loads := rfl
@[simp] theorem setGroup_reqs (k : Nat) (g : Group) : (s.setGroup k g).reqs = s.reqs := rfl
@[simp] theorem setGroup_veils (k : Nat) (g : Group) : (s.setGroup k g).veils = s.veils := rfl
@[simp] theorem setGroup_aliases (k : Nat) (g : Group) : (s.setGroup k g).aliases = s.aliases := rfl
@[simp] theorem setGroup_opens (k : Nat) (g : Group) : (s.setGroup k g).opens = s.opens := rfl
@[simp] theorem setGroup_feWaits (k : Nat) (g : Group) : (s.setGroup k g).feWaits = s.feWaits := rfl
@[simp] theorem setGroup_incrs (k : Nat) (g : Group) : (s.setGroup k g).incrs = s.incrs := rfl
@[simp] theorem setGroup_arrives (k : Nat) (g : Group) : (s.setGroup k g).arrives = s.arrives := rfl
@[simp] theorem setGroup_results (k : Nat) (g : Group) : (s.setGroup k g).results = s.results := rfl
@[simp] theorem setGroup_copies (k : Nat) (g : Group) : (s.setGroup k g).copies = s.copies := rfl
@[simp] theorem setGroup_packets (k : Nat) (g : Group) : (s.setGroup k g).packets = s.packets := rfl
@[simp] theorem setGroup_sures (k : Nat) (g : Group) : (s.setGroup k g).sures = s.sures := rfl
@[simp] theorem setGroup_reqSeq (k : Nat) (g : Group) : (s.setGroup k g).reqSeq = s.reqSeq := rfl
@[simp] theorem setGroup_agenda (k : Nat) (g : Group) : (s.setGroup k g).agenda = s.agenda := rfl
@[simp] theorem setGroup_cur (k : Nat) (g : Group) : (s.setGroup k g).cur = s.cur := rfl
@[simp] theorem setGroup_iss (k : Nat) (g : Group) : (s.setGroup k g).iss = s.iss := rfl
@[simp] theorem setGroup_curColl (k : Nat) (g : Group) : (s.setGroup k g).curColl = s.curColl := rfl
@[simp] theorem setGroup_free (k : Nat) (g : Group) : (s.setGroup k g).free = s.free := rfl
@[simp] theorem setGroup_nextUid (k : Nat) (g : Group) : (s.setGroup k g).nextUid = s.nextUid := rfl

/-! ### modGroup -/

@[simp] theorem modGroup_live (k : Nat) (f : Group → Group) : (s.modGroup k f).live = s.live := rfl
@[simp] theorem modGroup_partNo (k : Nat) (f : Group → Group) : (s.modGroup k f).partNo = s.partNo := rfl
@[simp] theorem modGroup_mem (k : Nat) (f : Group → Group) : (s.modGroup k f).mem = s.mem := rfl
@[simp] theorem modGroup_empties (k : Nat) (f : Group → Group) : (s.modGroup k f).empties = s.empties := rfl
@[simp] theorem modGroup_tags (k : Nat) (f : Group → Group) : (s.modGroup k f).tags = s.tags := rfl
@[simp] theorem modGroup_teams (k : Nat) (f : Group → Group) : (s.modGroup k f).teams = s.teams := rfl
@[simp] theorem modGroup_cores (k : Nat) (f : Group → Group) : (s.modGroup k f).cores = s.cores := rfl
@[simp] theorem modGroup_fns (k : Nat) (f : Group → Group) : (s.modGroup k f).fns = s.fns := rfl
@[simp] theorem modGroup_launches (k : Nat) (f : Group → Group) : (s.modGroup k f).launches = s.launches := rfl
@[simp] theorem modGroup_dies (k : Nat) (f : Group → Group) : (s.modGroup k f).dies = s.dies := rfl
@[simp] theorem modGroup_regs (k : Nat) (f : Group → Group) : (s.modGroup k f).regs = s.regs := rfl
@[simp] theorem modGroup_basin (k : Nat) (f : Group → Group) : (s.modGroup k f).basin = s.basin := rfl
@[simp] theorem modGroup_fencedPages (k : Nat) (f : Group → Group) : (s.modGroup k f).fencedPages = s.fencedPages := rfl
@[simp] theorem modGroup_scans (k : Nat) (f : Group → Group) : (s.modGroup k f).scans = s.scans := rfl
@[simp] theorem modGroup_loads (k : Nat) (f : Group → Group) : (s.modGroup k f).loads = s.loads := rfl
@[simp] theorem modGroup_reqs (k : Nat) (f : Group → Group) : (s.modGroup k f).reqs = s.reqs := rfl
@[simp] theorem modGroup_veils (k : Nat) (f : Group → Group) : (s.modGroup k f).veils = s.veils := rfl
@[simp] theorem modGroup_aliases (k : Nat) (f : Group → Group) : (s.modGroup k f).aliases = s.aliases := rfl
@[simp] theorem modGroup_opens (k : Nat) (f : Group → Group) : (s.modGroup k f).opens = s.opens := rfl
@[simp] theorem modGroup_feWaits (k : Nat) (f : Group → Group) : (s.modGroup k f).feWaits = s.feWaits := rfl
@[simp] theorem modGroup_incrs (k : Nat) (f : Group → Group) : (s.modGroup k f).incrs = s.incrs := rfl
@[simp] theorem modGroup_arrives (k : Nat) (f : Group → Group) : (s.modGroup k f).arrives = s.arrives := rfl
@[simp] theorem modGroup_results (k : Nat) (f : Group → Group) : (s.modGroup k f).results = s.results := rfl
@[simp] theorem modGroup_copies (k : Nat) (f : Group → Group) : (s.modGroup k f).copies = s.copies := rfl
@[simp] theorem modGroup_packets (k : Nat) (f : Group → Group) : (s.modGroup k f).packets = s.packets := rfl
@[simp] theorem modGroup_sures (k : Nat) (f : Group → Group) : (s.modGroup k f).sures = s.sures := rfl
@[simp] theorem modGroup_reqSeq (k : Nat) (f : Group → Group) : (s.modGroup k f).reqSeq = s.reqSeq := rfl
@[simp] theorem modGroup_agenda (k : Nat) (f : Group → Group) : (s.modGroup k f).agenda = s.agenda := rfl
@[simp] theorem modGroup_cur (k : Nat) (f : Group → Group) : (s.modGroup k f).cur = s.cur := rfl
@[simp] theorem modGroup_iss (k : Nat) (f : Group → Group) : (s.modGroup k f).iss = s.iss := rfl
@[simp] theorem modGroup_curColl (k : Nat) (f : Group → Group) : (s.modGroup k f).curColl = s.curColl := rfl
@[simp] theorem modGroup_free (k : Nat) (f : Group → Group) : (s.modGroup k f).free = s.free := rfl
@[simp] theorem modGroup_nextUid (k : Nat) (f : Group → Group) : (s.modGroup k f).nextUid = s.nextUid := rfl

/-! ### setG -/

@[simp] theorem setG_live (g : Group) : (s.setG g).live = s.live := rfl
@[simp] theorem setG_partNo (g : Group) : (s.setG g).partNo = s.partNo := rfl
@[simp] theorem setG_mem (g : Group) : (s.setG g).mem = s.mem := rfl
@[simp] theorem setG_empties (g : Group) : (s.setG g).empties = s.empties := rfl
@[simp] theorem setG_tags (g : Group) : (s.setG g).tags = s.tags := rfl
@[simp] theorem setG_teams (g : Group) : (s.setG g).teams = s.teams := rfl
@[simp] theorem setG_cores (g : Group) : (s.setG g).cores = s.cores := rfl
@[simp] theorem setG_fns (g : Group) : (s.setG g).fns = s.fns := rfl
@[simp] theorem setG_launches (g : Group) : (s.setG g).launches = s.launches := rfl
@[simp] theorem setG_dies (g : Group) : (s.setG g).dies = s.dies := rfl
@[simp] theorem setG_regs (g : Group) : (s.setG g).regs = s.regs := rfl
@[simp] theorem setG_basin (g : Group) : (s.setG g).basin = s.basin := rfl
@[simp] theorem setG_fencedPages (g : Group) : (s.setG g).fencedPages = s.fencedPages := rfl
@[simp] theorem setG_scans (g : Group) : (s.setG g).scans = s.scans := rfl
@[simp] theorem setG_loads (g : Group) : (s.setG g).loads = s.loads := rfl
@[simp] theorem setG_reqs (g : Group) : (s.setG g).reqs = s.reqs := rfl
@[simp] theorem setG_veils (g : Group) : (s.setG g).veils = s.veils := rfl
@[simp] theorem setG_aliases (g : Group) : (s.setG g).aliases = s.aliases := rfl
@[simp] theorem setG_opens (g : Group) : (s.setG g).opens = s.opens := rfl
@[simp] theorem setG_feWaits (g : Group) : (s.setG g).feWaits = s.feWaits := rfl
@[simp] theorem setG_incrs (g : Group) : (s.setG g).incrs = s.incrs := rfl
@[simp] theorem setG_arrives (g : Group) : (s.setG g).arrives = s.arrives := rfl
@[simp] theorem setG_results (g : Group) : (s.setG g).results = s.results := rfl
@[simp] theorem setG_copies (g : Group) : (s.setG g).copies = s.copies := rfl
@[simp] theorem setG_packets (g : Group) : (s.setG g).packets = s.packets := rfl
@[simp] theorem setG_sures (g : Group) : (s.setG g).sures = s.sures := rfl
@[simp] theorem setG_reqSeq (g : Group) : (s.setG g).reqSeq = s.reqSeq := rfl
@[simp] theorem setG_agenda (g : Group) : (s.setG g).agenda = s.agenda := rfl
@[simp] theorem setG_cur (g : Group) : (s.setG g).cur = s.cur := rfl
@[simp] theorem setG_iss (g : Group) : (s.setG g).iss = s.iss := rfl
@[simp] theorem setG_curColl (g : Group) : (s.setG g).curColl = s.curColl := rfl
@[simp] theorem setG_free (g : Group) : (s.setG g).free = s.free := rfl
@[simp] theorem setG_nextUid (g : Group) : (s.setG g).nextUid = s.nextUid := rfl

/-! ### modG -/

@[simp] theorem modG_live (f : Group → Group) : (s.modG f).live = s.live := rfl
@[simp] theorem modG_partNo (f : Group → Group) : (s.modG f).partNo = s.partNo := rfl
@[simp] theorem modG_mem (f : Group → Group) : (s.modG f).mem = s.mem := rfl
@[simp] theorem modG_empties (f : Group → Group) : (s.modG f).empties = s.empties := rfl
@[simp] theorem modG_tags (f : Group → Group) : (s.modG f).tags = s.tags := rfl
@[simp] theorem modG_teams (f : Group → Group) : (s.modG f).teams = s.teams := rfl
@[simp] theorem modG_cores (f : Group → Group) : (s.modG f).cores = s.cores := rfl
@[simp] theorem modG_fns (f : Group → Group) : (s.modG f).fns = s.fns := rfl
@[simp] theorem modG_launches (f : Group → Group) : (s.modG f).launches = s.launches := rfl
@[simp] theorem modG_dies (f : Group → Group) : (s.modG f).dies = s.dies := rfl
@[simp] theorem modG_regs (f : Group → Group) : (s.modG f).regs = s.regs := rfl
@[simp] theorem modG_basin (f : Group → Group) : (s.modG f).basin = s.basin := rfl
@[simp] theorem modG_fencedPages (f : Group → Group) : (s.modG f).fencedPages = s.fencedPages := rfl
@[simp] theorem modG_scans (f : Group → Group) : (s.modG f).scans = s.scans := rfl
@[simp] theorem modG_loads (f : Group → Group) : (s.modG f).loads = s.loads := rfl
@[simp] theorem modG_reqs (f : Group → Group) : (s.modG f).reqs = s.reqs := rfl
@[simp] theorem modG_veils (f : Group → Group) : (s.modG f).veils = s.veils := rfl
@[simp] theorem modG_aliases (f : Group → Group) : (s.modG f).aliases = s.aliases := rfl
@[simp] theorem modG_opens (f : Group → Group) : (s.modG f).opens = s.opens := rfl
@[simp] theorem modG_feWaits (f : Group → Group) : (s.modG f).feWaits = s.feWaits := rfl
@[simp] theorem modG_incrs (f : Group → Group) : (s.modG f).incrs = s.incrs := rfl
@[simp] theorem modG_arrives (f : Group → Group) : (s.modG f).arrives = s.arrives := rfl
@[simp] theorem modG_results (f : Group → Group) : (s.modG f).results = s.results := rfl
@[simp] theorem modG_copies (f : Group → Group) : (s.modG f).copies = s.copies := rfl
@[simp] theorem modG_packets (f : Group → Group) : (s.modG f).packets = s.packets := rfl
@[simp] theorem modG_sures (f : Group → Group) : (s.modG f).sures = s.sures := rfl
@[simp] theorem modG_reqSeq (f : Group → Group) : (s.modG f).reqSeq = s.reqSeq := rfl
@[simp] theorem modG_agenda (f : Group → Group) : (s.modG f).agenda = s.agenda := rfl
@[simp] theorem modG_cur (f : Group → Group) : (s.modG f).cur = s.cur := rfl
@[simp] theorem modG_iss (f : Group → Group) : (s.modG f).iss = s.iss := rfl
@[simp] theorem modG_curColl (f : Group → Group) : (s.modG f).curColl = s.curColl := rfl
@[simp] theorem modG_free (f : Group → Group) : (s.modG f).free = s.free := rfl
@[simp] theorem modG_nextUid (f : Group → Group) : (s.modG f).nextUid = s.nextUid := rfl

/-! ### setTeam -/

@[simp] theorem setTeam_live (k : Nat) (x : Team) : (s.setTeam k x).live = s.live := rfl
@[simp] theorem setTeam_partNo (k : Nat) (x : Team) : (s.setTeam k x).partNo = s.partNo := rfl
@[simp] theorem setTeam_mem (k : Nat) (x : Team) : (s.setTeam k x).mem = s.mem := rfl
@[simp] theorem setTeam_empties (k : Nat) (x : Team) : (s.setTeam k x).empties = s.empties := rfl
@[simp] theorem setTeam_tags (k : Nat) (x : Team) : (s.setTeam k x).tags = s.tags := rfl
@[simp] theorem setTeam_groups (k : Nat) (x : Team) : (s.setTeam k x).groups = s.groups := rfl
@[simp] theorem setTeam_cores (k : Nat) (x : Team) : (s.setTeam k x).cores = s.cores := rfl
@[simp] theorem setTeam_fns (k : Nat) (x : Team) : (s.setTeam k x).fns = s.fns := rfl
@[simp] theorem setTeam_launches (k : Nat) (x : Team) : (s.setTeam k x).launches = s.launches := rfl
@[simp] theorem setTeam_dies (k : Nat) (x : Team) : (s.setTeam k x).dies = s.dies := rfl
@[simp] theorem setTeam_regs (k : Nat) (x : Team) : (s.setTeam k x).regs = s.regs := rfl
@[simp] theorem setTeam_basin (k : Nat) (x : Team) : (s.setTeam k x).basin = s.basin := rfl
@[simp] theorem setTeam_fencedPages (k : Nat) (x : Team) : (s.setTeam k x).fencedPages = s.fencedPages := rfl
@[simp] theorem setTeam_scans (k : Nat) (x : Team) : (s.setTeam k x).scans = s.scans := rfl
@[simp] theorem setTeam_loads (k : Nat) (x : Team) : (s.setTeam k x).loads = s.loads := rfl
@[simp] theorem setTeam_reqs (k : Nat) (x : Team) : (s.setTeam k x).reqs = s.reqs := rfl
@[simp] theorem setTeam_veils (k : Nat) (x : Team) : (s.setTeam k x).veils = s.veils := rfl
@[simp] theorem setTeam_aliases (k : Nat) (x : Team) : (s.setTeam k x).aliases = s.aliases := rfl
@[simp] theorem setTeam_opens (k : Nat) (x : Team) : (s.setTeam k x).opens = s.opens := rfl
@[simp] theorem setTeam_feWaits (k : Nat) (x : Team) : (s.setTeam k x).feWaits = s.feWaits := rfl
@[simp] theorem setTeam_incrs (k : Nat) (x : Team) : (s.setTeam k x).incrs = s.incrs := rfl
@[simp] theorem setTeam_arrives (k : Nat) (x : Team) : (s.setTeam k x).arrives = s.arrives := rfl
@[simp] theorem setTeam_results (k : Nat) (x : Team) : (s.setTeam k x).results = s.results := rfl
@[simp] theorem setTeam_copies (k : Nat) (x : Team) : (s.setTeam k x).copies = s.copies := rfl
@[simp] theorem setTeam_packets (k : Nat) (x : Team) : (s.setTeam k x).packets = s.packets := rfl
@[simp] theorem setTeam_sures (k : Nat) (x : Team) : (s.setTeam k x).sures = s.sures := rfl
@[simp] theorem setTeam_reqSeq (k : Nat) (x : Team) : (s.setTeam k x).reqSeq = s.reqSeq := rfl
@[simp] theorem setTeam_agenda (k : Nat) (x : Team) : (s.setTeam k x).agenda = s.agenda := rfl
@[simp] theorem setTeam_cur (k : Nat) (x : Team) : (s.setTeam k x).cur = s.cur := rfl
@[simp] theorem setTeam_iss (k : Nat) (x : Team) : (s.setTeam k x).iss = s.iss := rfl
@[simp] theorem setTeam_curColl (k : Nat) (x : Team) : (s.setTeam k x).curColl = s.curColl := rfl
@[simp] theorem setTeam_free (k : Nat) (x : Team) : (s.setTeam k x).free = s.free := rfl
@[simp] theorem setTeam_nextUid (k : Nat) (x : Team) : (s.setTeam k x).nextUid = s.nextUid := rfl

/-! ### modTeam -/

@[simp] theorem modTeam_live (k : Nat) (f : Team → Team) : (s.modTeam k f).live = s.live := rfl
@[simp] theorem modTeam_partNo (k : Nat) (f : Team → Team) : (s.modTeam k f).partNo = s.partNo := rfl
@[simp] theorem modTeam_mem (k : Nat) (f : Team → Team) : (s.modTeam k f).mem = s.mem := rfl
@[simp] theorem modTeam_empties (k : Nat) (f : Team → Team) : (s.modTeam k f).empties = s.empties := rfl
@[simp] theorem modTeam_tags (k : Nat) (f : Team → Team) : (s.modTeam k f).tags = s.tags := rfl
@[simp] theorem modTeam_groups (k : Nat) (f : Team → Team) : (s.modTeam k f).groups = s.groups := rfl
@[simp] theorem modTeam_cores (k : Nat) (f : Team → Team) : (s.modTeam k f).cores = s.cores := rfl
@[simp] theorem modTeam_fns (k : Nat) (f : Team → Team) : (s.modTeam k f).fns = s.fns := rfl
@[simp] theorem modTeam_launches (k : Nat) (f : Team → Team) : (s.modTeam k f).launches = s.launches := rfl
@[simp] theorem modTeam_dies (k : Nat) (f : Team → Team) : (s.modTeam k f).dies = s.dies := rfl
@[simp] theorem modTeam_regs (k : Nat) (f : Team → Team) : (s.modTeam k f).regs = s.regs := rfl
@[simp] theorem modTeam_basin (k : Nat) (f : Team → Team) : (s.modTeam k f).basin = s.basin := rfl
@[simp] theorem modTeam_fencedPages (k : Nat) (f : Team → Team) : (s.modTeam k f).fencedPages = s.fencedPages := rfl
@[simp] theorem modTeam_scans (k : Nat) (f : Team → Team) : (s.modTeam k f).scans = s.scans := rfl
@[simp] theorem modTeam_loads (k : Nat) (f : Team → Team) : (s.modTeam k f).loads = s.loads := rfl
@[simp] theorem modTeam_reqs (k : Nat) (f : Team → Team) : (s.modTeam k f).reqs = s.reqs := rfl
@[simp] theorem modTeam_veils (k : Nat) (f : Team → Team) : (s.modTeam k f).veils = s.veils := rfl
@[simp] theorem modTeam_aliases (k : Nat) (f : Team → Team) : (s.modTeam k f).aliases = s.aliases := rfl
@[simp] theorem modTeam_opens (k : Nat) (f : Team → Team) : (s.modTeam k f).opens = s.opens := rfl
@[simp] theorem modTeam_feWaits (k : Nat) (f : Team → Team) : (s.modTeam k f).feWaits = s.feWaits := rfl
@[simp] theorem modTeam_incrs (k : Nat) (f : Team → Team) : (s.modTeam k f).incrs = s.incrs := rfl
@[simp] theorem modTeam_arrives (k : Nat) (f : Team → Team) : (s.modTeam k f).arrives = s.arrives := rfl
@[simp] theorem modTeam_results (k : Nat) (f : Team → Team) : (s.modTeam k f).results = s.results := rfl
@[simp] theorem modTeam_copies (k : Nat) (f : Team → Team) : (s.modTeam k f).copies = s.copies := rfl
@[simp] theorem modTeam_packets (k : Nat) (f : Team → Team) : (s.modTeam k f).packets = s.packets := rfl
@[simp] theorem modTeam_sures (k : Nat) (f : Team → Team) : (s.modTeam k f).sures = s.sures := rfl
@[simp] theorem modTeam_reqSeq (k : Nat) (f : Team → Team) : (s.modTeam k f).reqSeq = s.reqSeq := rfl
@[simp] theorem modTeam_agenda (k : Nat) (f : Team → Team) : (s.modTeam k f).agenda = s.agenda := rfl
@[simp] theorem modTeam_cur (k : Nat) (f : Team → Team) : (s.modTeam k f).cur = s.cur := rfl
@[simp] theorem modTeam_iss (k : Nat) (f : Team → Team) : (s.modTeam k f).iss = s.iss := rfl
@[simp] theorem modTeam_curColl (k : Nat) (f : Team → Team) : (s.modTeam k f).curColl = s.curColl := rfl
@[simp] theorem modTeam_free (k : Nat) (f : Team → Team) : (s.modTeam k f).free = s.free := rfl
@[simp] theorem modTeam_nextUid (k : Nat) (f : Team → Team) : (s.modTeam k f).nextUid = s.nextUid := rfl

/-! ### setCore -/

@[simp] theorem setCore_live (k : Nat) (x : Core) : (s.setCore k x).live = s.live := rfl
@[simp] theorem setCore_partNo (k : Nat) (x : Core) : (s.setCore k x).partNo = s.partNo := rfl
@[simp] theorem setCore_mem (k : Nat) (x : Core) : (s.setCore k x).mem = s.mem := rfl
@[simp] theorem setCore_empties (k : Nat) (x : Core) : (s.setCore k x).empties = s.empties := rfl
@[simp] theorem setCore_tags (k : Nat) (x : Core) : (s.setCore k x).tags = s.tags := rfl
@[simp] theorem setCore_groups (k : Nat) (x : Core) : (s.setCore k x).groups = s.groups := rfl
@[simp] theorem setCore_teams (k : Nat) (x : Core) : (s.setCore k x).teams = s.teams := rfl
@[simp] theorem setCore_fns (k : Nat) (x : Core) : (s.setCore k x).fns = s.fns := rfl
@[simp] theorem setCore_launches (k : Nat) (x : Core) : (s.setCore k x).launches = s.launches := rfl
@[simp] theorem setCore_dies (k : Nat) (x : Core) : (s.setCore k x).dies = s.dies := rfl
@[simp] theorem setCore_regs (k : Nat) (x : Core) : (s.setCore k x).regs = s.regs := rfl
@[simp] theorem setCore_basin (k : Nat) (x : Core) : (s.setCore k x).basin = s.basin := rfl
@[simp] theorem setCore_fencedPages (k : Nat) (x : Core) : (s.setCore k x).fencedPages = s.fencedPages := rfl
@[simp] theorem setCore_scans (k : Nat) (x : Core) : (s.setCore k x).scans = s.scans := rfl
@[simp] theorem setCore_loads (k : Nat) (x : Core) : (s.setCore k x).loads = s.loads := rfl
@[simp] theorem setCore_reqs (k : Nat) (x : Core) : (s.setCore k x).reqs = s.reqs := rfl
@[simp] theorem setCore_veils (k : Nat) (x : Core) : (s.setCore k x).veils = s.veils := rfl
@[simp] theorem setCore_aliases (k : Nat) (x : Core) : (s.setCore k x).aliases = s.aliases := rfl
@[simp] theorem setCore_opens (k : Nat) (x : Core) : (s.setCore k x).opens = s.opens := rfl
@[simp] theorem setCore_feWaits (k : Nat) (x : Core) : (s.setCore k x).feWaits = s.feWaits := rfl
@[simp] theorem setCore_incrs (k : Nat) (x : Core) : (s.setCore k x).incrs = s.incrs := rfl
@[simp] theorem setCore_arrives (k : Nat) (x : Core) : (s.setCore k x).arrives = s.arrives := rfl
@[simp] theorem setCore_results (k : Nat) (x : Core) : (s.setCore k x).results = s.results := rfl
@[simp] theorem setCore_copies (k : Nat) (x : Core) : (s.setCore k x).copies = s.copies := rfl
@[simp] theorem setCore_packets (k : Nat) (x : Core) : (s.setCore k x).packets = s.packets := rfl
@[simp] theorem setCore_sures (k : Nat) (x : Core) : (s.setCore k x).sures = s.sures := rfl
@[simp] theorem setCore_reqSeq (k : Nat) (x : Core) : (s.setCore k x).reqSeq = s.reqSeq := rfl
@[simp] theorem setCore_agenda (k : Nat) (x : Core) : (s.setCore k x).agenda = s.agenda := rfl
@[simp] theorem setCore_cur (k : Nat) (x : Core) : (s.setCore k x).cur = s.cur := rfl
@[simp] theorem setCore_iss (k : Nat) (x : Core) : (s.setCore k x).iss = s.iss := rfl
@[simp] theorem setCore_curColl (k : Nat) (x : Core) : (s.setCore k x).curColl = s.curColl := rfl
@[simp] theorem setCore_free (k : Nat) (x : Core) : (s.setCore k x).free = s.free := rfl
@[simp] theorem setCore_nextUid (k : Nat) (x : Core) : (s.setCore k x).nextUid = s.nextUid := rfl

/-! ### modCore -/

@[simp] theorem modCore_live (k : Nat) (f : Core → Core) : (s.modCore k f).live = s.live := rfl
@[simp] theorem modCore_partNo (k : Nat) (f : Core → Core) : (s.modCore k f).partNo = s.partNo := rfl
@[simp] theorem modCore_mem (k : Nat) (f : Core → Core) : (s.modCore k f).mem = s.mem := rfl
@[simp] theorem modCore_empties (k : Nat) (f : Core → Core) : (s.modCore k f).empties = s.empties := rfl
@[simp] theorem modCore_tags (k : Nat) (f : Core → Core) : (s.modCore k f).tags = s.tags := rfl
@[simp] theorem modCore_groups (k : Nat) (f : Core → Core) : (s.modCore k f).groups = s.groups := rfl
@[simp] theorem modCore_teams (k : Nat) (f : Core → Core) : (s.modCore k f).teams = s.teams := rfl
@[simp] theorem modCore_fns (k : Nat) (f : Core → Core) : (s.modCore k f).fns = s.fns := rfl
@[simp] theorem modCore_launches (k : Nat) (f : Core → Core) : (s.modCore k f).launches = s.launches := rfl
@[simp] theorem modCore_dies (k : Nat) (f : Core → Core) : (s.modCore k f).dies = s.dies := rfl
@[simp] theorem modCore_regs (k : Nat) (f : Core → Core) : (s.modCore k f).regs = s.regs := rfl
@[simp] theorem modCore_basin (k : Nat) (f : Core → Core) : (s.modCore k f).basin = s.basin := rfl
@[simp] theorem modCore_fencedPages (k : Nat) (f : Core → Core) : (s.modCore k f).fencedPages = s.fencedPages := rfl
@[simp] theorem modCore_scans (k : Nat) (f : Core → Core) : (s.modCore k f).scans = s.scans := rfl
@[simp] theorem modCore_loads (k : Nat) (f : Core → Core) : (s.modCore k f).loads = s.loads := rfl
@[simp] theorem modCore_reqs (k : Nat) (f : Core → Core) : (s.modCore k f).reqs = s.reqs := rfl
@[simp] theorem modCore_veils (k : Nat) (f : Core → Core) : (s.modCore k f).veils = s.veils := rfl
@[simp] theorem modCore_aliases (k : Nat) (f : Core → Core) : (s.modCore k f).aliases = s.aliases := rfl
@[simp] theorem modCore_opens (k : Nat) (f : Core → Core) : (s.modCore k f).opens = s.opens := rfl
@[simp] theorem modCore_feWaits (k : Nat) (f : Core → Core) : (s.modCore k f).feWaits = s.feWaits := rfl
@[simp] theorem modCore_incrs (k : Nat) (f : Core → Core) : (s.modCore k f).incrs = s.incrs := rfl
@[simp] theorem modCore_arrives (k : Nat) (f : Core → Core) : (s.modCore k f).arrives = s.arrives := rfl
@[simp] theorem modCore_results (k : Nat) (f : Core → Core) : (s.modCore k f).results = s.results := rfl
@[simp] theorem modCore_copies (k : Nat) (f : Core → Core) : (s.modCore k f).copies = s.copies := rfl
@[simp] theorem modCore_packets (k : Nat) (f : Core → Core) : (s.modCore k f).packets = s.packets := rfl
@[simp] theorem modCore_sures (k : Nat) (f : Core → Core) : (s.modCore k f).sures = s.sures := rfl
@[simp] theorem modCore_reqSeq (k : Nat) (f : Core → Core) : (s.modCore k f).reqSeq = s.reqSeq := rfl
@[simp] theorem modCore_agenda (k : Nat) (f : Core → Core) : (s.modCore k f).agenda = s.agenda := rfl
@[simp] theorem modCore_cur (k : Nat) (f : Core → Core) : (s.modCore k f).cur = s.cur := rfl
@[simp] theorem modCore_iss (k : Nat) (f : Core → Core) : (s.modCore k f).iss = s.iss := rfl
@[simp] theorem modCore_curColl (k : Nat) (f : Core → Core) : (s.modCore k f).curColl = s.curColl := rfl
@[simp] theorem modCore_free (k : Nat) (f : Core → Core) : (s.modCore k f).free = s.free := rfl
@[simp] theorem modCore_nextUid (k : Nat) (f : Core → Core) : (s.modCore k f).nextUid = s.nextUid := rfl

/-! ### setFn -/

@[simp] theorem setFn_live (k : Nat) (x : Fn) : (s.setFn k x).live = s.live := rfl
@[simp] theorem setFn_partNo (k : Nat) (x : Fn) : (s.setFn k x).partNo = s.partNo := rfl
@[simp] theorem setFn_mem (k : Nat) (x : Fn) : (s.setFn k x).mem = s.mem := rfl
@[simp] theorem setFn_empties (k : Nat) (x : Fn) : (s.setFn k x).empties = s.empties := rfl
@[simp] theorem setFn_tags (k : Nat) (x : Fn) : (s.setFn k x).tags = s.tags := rfl
@[simp] theorem setFn_groups (k : Nat) (x : Fn) : (s.setFn k x).groups = s.groups := rfl
@[simp] theorem setFn_teams (k : Nat) (x : Fn) : (s.setFn k x).teams = s.teams := rfl
@[simp] theorem setFn_cores (k : Nat) (x : Fn) : (s.setFn k x).cores = s.cores := rfl
@[simp] theorem setFn_launches (k : Nat) (x : Fn) : (s.setFn k x).launches = s.launches := rfl
@[simp] theorem setFn_dies (k : Nat) (x : Fn) : (s.setFn k x).dies = s.dies := rfl
@[simp] theorem setFn_regs (k : Nat) (x : Fn) : (s.setFn k x).regs = s.regs := rfl
@[simp] theorem setFn_basin (k : Nat) (x : Fn) : (s.setFn k x).basin = s.basin := rfl
@[simp] theorem setFn_fencedPages (k : Nat) (x : Fn) : (s.setFn k x).fencedPages = s.fencedPages := rfl
@[simp] theorem setFn_scans (k : Nat) (x : Fn) : (s.setFn k x).scans = s.scans := rfl
@[simp] theorem setFn_loads (k : Nat) (x : Fn) : (s.setFn k x).loads = s.loads := rfl
@[simp] theorem setFn_reqs (k : Nat) (x : Fn) : (s.setFn k x).reqs = s.reqs := rfl
@[simp] theorem setFn_veils (k : Nat) (x : Fn) : (s.setFn k x).veils = s.veils := rfl
@[simp] theorem setFn_aliases (k : Nat) (x : Fn) : (s.setFn k x).aliases = s.aliases := rfl
@[simp] theorem setFn_opens (k : Nat) (x : Fn) : (s.setFn k x).opens = s.opens := rfl
@[simp] theorem setFn_feWaits (k : Nat) (x : Fn) : (s.setFn k x).feWaits = s.feWaits := rfl
@[simp] theorem setFn_incrs (k : Nat) (x : Fn) : (s.setFn k x).incrs = s.incrs := rfl
@[simp] theorem setFn_arrives (k : Nat) (x : Fn) : (s.setFn k x).arrives = s.arrives := rfl
@[simp] theorem setFn_results (k : Nat) (x : Fn) : (s.setFn k x).results = s.results := rfl
@[simp] theorem setFn_copies (k : Nat) (x : Fn) : (s.setFn k x).copies = s.copies := rfl
@[simp] theorem setFn_packets (k : Nat) (x : Fn) : (s.setFn k x).packets = s.packets := rfl
@[simp] theorem setFn_sures (k : Nat) (x : Fn) : (s.setFn k x).sures = s.sures := rfl
@[simp] theorem setFn_reqSeq (k : Nat) (x : Fn) : (s.setFn k x).reqSeq = s.reqSeq := rfl
@[simp] theorem setFn_agenda (k : Nat) (x : Fn) : (s.setFn k x).agenda = s.agenda := rfl
@[simp] theorem setFn_cur (k : Nat) (x : Fn) : (s.setFn k x).cur = s.cur := rfl
@[simp] theorem setFn_iss (k : Nat) (x : Fn) : (s.setFn k x).iss = s.iss := rfl
@[simp] theorem setFn_curColl (k : Nat) (x : Fn) : (s.setFn k x).curColl = s.curColl := rfl
@[simp] theorem setFn_free (k : Nat) (x : Fn) : (s.setFn k x).free = s.free := rfl
@[simp] theorem setFn_nextUid (k : Nat) (x : Fn) : (s.setFn k x).nextUid = s.nextUid := rfl

/-! ### modFn -/

@[simp] theorem modFn_live (k : Nat) (f : Fn → Fn) : (s.modFn k f).live = s.live := rfl
@[simp] theorem modFn_partNo (k : Nat) (f : Fn → Fn) : (s.modFn k f).partNo = s.partNo := rfl
@[simp] theorem modFn_mem (k : Nat) (f : Fn → Fn) : (s.modFn k f).mem = s.mem := rfl
@[simp] theorem modFn_empties (k : Nat) (f : Fn → Fn) : (s.modFn k f).empties = s.empties := rfl
@[simp] theorem modFn_tags (k : Nat) (f : Fn → Fn) : (s.modFn k f).tags = s.tags := rfl
@[simp] theorem modFn_groups (k : Nat) (f : Fn → Fn) : (s.modFn k f).groups = s.groups := rfl
@[simp] theorem modFn_teams (k : Nat) (f : Fn → Fn) : (s.modFn k f).teams = s.teams := rfl
@[simp] theorem modFn_cores (k : Nat) (f : Fn → Fn) : (s.modFn k f).cores = s.cores := rfl
@[simp] theorem modFn_launches (k : Nat) (f : Fn → Fn) : (s.modFn k f).launches = s.launches := rfl
@[simp] theorem modFn_dies (k : Nat) (f : Fn → Fn) : (s.modFn k f).dies = s.dies := rfl
@[simp] theorem modFn_regs (k : Nat) (f : Fn → Fn) : (s.modFn k f).regs = s.regs := rfl
@[simp] theorem modFn_basin (k : Nat) (f : Fn → Fn) : (s.modFn k f).basin = s.basin := rfl
@[simp] theorem modFn_fencedPages (k : Nat) (f : Fn → Fn) : (s.modFn k f).fencedPages = s.fencedPages := rfl
@[simp] theorem modFn_scans (k : Nat) (f : Fn → Fn) : (s.modFn k f).scans = s.scans := rfl
@[simp] theorem modFn_loads (k : Nat) (f : Fn → Fn) : (s.modFn k f).loads = s.loads := rfl
@[simp] theorem modFn_reqs (k : Nat) (f : Fn → Fn) : (s.modFn k f).reqs = s.reqs := rfl
@[simp] theorem modFn_veils (k : Nat) (f : Fn → Fn) : (s.modFn k f).veils = s.veils := rfl
@[simp] theorem modFn_aliases (k : Nat) (f : Fn → Fn) : (s.modFn k f).aliases = s.aliases := rfl
@[simp] theorem modFn_opens (k : Nat) (f : Fn → Fn) : (s.modFn k f).opens = s.opens := rfl
@[simp] theorem modFn_feWaits (k : Nat) (f : Fn → Fn) : (s.modFn k f).feWaits = s.feWaits := rfl
@[simp] theorem modFn_incrs (k : Nat) (f : Fn → Fn) : (s.modFn k f).incrs = s.incrs := rfl
@[simp] theorem modFn_arrives (k : Nat) (f : Fn → Fn) : (s.modFn k f).arrives = s.arrives := rfl
@[simp] theorem modFn_results (k : Nat) (f : Fn → Fn) : (s.modFn k f).results = s.results := rfl
@[simp] theorem modFn_copies (k : Nat) (f : Fn → Fn) : (s.modFn k f).copies = s.copies := rfl
@[simp] theorem modFn_packets (k : Nat) (f : Fn → Fn) : (s.modFn k f).packets = s.packets := rfl
@[simp] theorem modFn_sures (k : Nat) (f : Fn → Fn) : (s.modFn k f).sures = s.sures := rfl
@[simp] theorem modFn_reqSeq (k : Nat) (f : Fn → Fn) : (s.modFn k f).reqSeq = s.reqSeq := rfl
@[simp] theorem modFn_agenda (k : Nat) (f : Fn → Fn) : (s.modFn k f).agenda = s.agenda := rfl
@[simp] theorem modFn_cur (k : Nat) (f : Fn → Fn) : (s.modFn k f).cur = s.cur := rfl
@[simp] theorem modFn_iss (k : Nat) (f : Fn → Fn) : (s.modFn k f).iss = s.iss := rfl
@[simp] theorem modFn_curColl (k : Nat) (f : Fn → Fn) : (s.modFn k f).curColl = s.curColl := rfl
@[simp] theorem modFn_free (k : Nat) (f : Fn → Fn) : (s.modFn k f).free = s.free := rfl
@[simp] theorem modFn_nextUid (k : Nat) (f : Fn → Fn) : (s.modFn k f).nextUid = s.nextUid := rfl

/-! ### setDie -/

@[simp] theorem setDie_live (k : Nat) (x : Die) : (s.setDie k x).live = s.live := rfl
@[simp] theorem setDie_partNo (k : Nat) (x : Die) : (s.setDie k x).partNo = s.partNo := rfl
@[simp] theorem setDie_mem (k : Nat) (x : Die) : (s.setDie k x).mem = s.mem := rfl
@[simp] theorem setDie_empties (k : Nat) (x : Die) : (s.setDie k x).empties = s.empties := rfl
@[simp] theorem setDie_tags (k : Nat) (x : Die) : (s.setDie k x).tags = s.tags := rfl
@[simp] theorem setDie_groups (k : Nat) (x : Die) : (s.setDie k x).groups = s.groups := rfl
@[simp] theorem setDie_teams (k : Nat) (x : Die) : (s.setDie k x).teams = s.teams := rfl
@[simp] theorem setDie_cores (k : Nat) (x : Die) : (s.setDie k x).cores = s.cores := rfl
@[simp] theorem setDie_fns (k : Nat) (x : Die) : (s.setDie k x).fns = s.fns := rfl
@[simp] theorem setDie_launches (k : Nat) (x : Die) : (s.setDie k x).launches = s.launches := rfl
@[simp] theorem setDie_regs (k : Nat) (x : Die) : (s.setDie k x).regs = s.regs := rfl
@[simp] theorem setDie_basin (k : Nat) (x : Die) : (s.setDie k x).basin = s.basin := rfl
@[simp] theorem setDie_fencedPages (k : Nat) (x : Die) : (s.setDie k x).fencedPages = s.fencedPages := rfl
@[simp] theorem setDie_scans (k : Nat) (x : Die) : (s.setDie k x).scans = s.scans := rfl
@[simp] theorem setDie_loads (k : Nat) (x : Die) : (s.setDie k x).loads = s.loads := rfl
@[simp] theorem setDie_reqs (k : Nat) (x : Die) : (s.setDie k x).reqs = s.reqs := rfl
@[simp] theorem setDie_veils (k : Nat) (x : Die) : (s.setDie k x).veils = s.veils := rfl
@[simp] theorem setDie_aliases (k : Nat) (x : Die) : (s.setDie k x).aliases = s.aliases := rfl
@[simp] theorem setDie_opens (k : Nat) (x : Die) : (s.setDie k x).opens = s.opens := rfl
@[simp] theorem setDie_feWaits (k : Nat) (x : Die) : (s.setDie k x).feWaits = s.feWaits := rfl
@[simp] theorem setDie_incrs (k : Nat) (x : Die) : (s.setDie k x).incrs = s.incrs := rfl
@[simp] theorem setDie_arrives (k : Nat) (x : Die) : (s.setDie k x).arrives = s.arrives := rfl
@[simp] theorem setDie_results (k : Nat) (x : Die) : (s.setDie k x).results = s.results := rfl
@[simp] theorem setDie_copies (k : Nat) (x : Die) : (s.setDie k x).copies = s.copies := rfl
@[simp] theorem setDie_packets (k : Nat) (x : Die) : (s.setDie k x).packets = s.packets := rfl
@[simp] theorem setDie_sures (k : Nat) (x : Die) : (s.setDie k x).sures = s.sures := rfl
@[simp] theorem setDie_reqSeq (k : Nat) (x : Die) : (s.setDie k x).reqSeq = s.reqSeq := rfl
@[simp] theorem setDie_agenda (k : Nat) (x : Die) : (s.setDie k x).agenda = s.agenda := rfl
@[simp] theorem setDie_cur (k : Nat) (x : Die) : (s.setDie k x).cur = s.cur := rfl
@[simp] theorem setDie_iss (k : Nat) (x : Die) : (s.setDie k x).iss = s.iss := rfl
@[simp] theorem setDie_curColl (k : Nat) (x : Die) : (s.setDie k x).curColl = s.curColl := rfl
@[simp] theorem setDie_free (k : Nat) (x : Die) : (s.setDie k x).free = s.free := rfl
@[simp] theorem setDie_nextUid (k : Nat) (x : Die) : (s.setDie k x).nextUid = s.nextUid := rfl

/-! ### modDie -/

@[simp] theorem modDie_live (k : Nat) (f : Die → Die) : (s.modDie k f).live = s.live := rfl
@[simp] theorem modDie_partNo (k : Nat) (f : Die → Die) : (s.modDie k f).partNo = s.partNo := rfl
@[simp] theorem modDie_mem (k : Nat) (f : Die → Die) : (s.modDie k f).mem = s.mem := rfl
@[simp] theorem modDie_empties (k : Nat) (f : Die → Die) : (s.modDie k f).empties = s.empties := rfl
@[simp] theorem modDie_tags (k : Nat) (f : Die → Die) : (s.modDie k f).tags = s.tags := rfl
@[simp] theorem modDie_groups (k : Nat) (f : Die → Die) : (s.modDie k f).groups = s.groups := rfl
@[simp] theorem modDie_teams (k : Nat) (f : Die → Die) : (s.modDie k f).teams = s.teams := rfl
@[simp] theorem modDie_cores (k : Nat) (f : Die → Die) : (s.modDie k f).cores = s.cores := rfl
@[simp] theorem modDie_fns (k : Nat) (f : Die → Die) : (s.modDie k f).fns = s.fns := rfl
@[simp] theorem modDie_launches (k : Nat) (f : Die → Die) : (s.modDie k f).launches = s.launches := rfl
@[simp] theorem modDie_regs (k : Nat) (f : Die → Die) : (s.modDie k f).regs = s.regs := rfl
@[simp] theorem modDie_basin (k : Nat) (f : Die → Die) : (s.modDie k f).basin = s.basin := rfl
@[simp] theorem modDie_fencedPages (k : Nat) (f : Die → Die) : (s.modDie k f).fencedPages = s.fencedPages := rfl
@[simp] theorem modDie_scans (k : Nat) (f : Die → Die) : (s.modDie k f).scans = s.scans := rfl
@[simp] theorem modDie_loads (k : Nat) (f : Die → Die) : (s.modDie k f).loads = s.loads := rfl
@[simp] theorem modDie_reqs (k : Nat) (f : Die → Die) : (s.modDie k f).reqs = s.reqs := rfl
@[simp] theorem modDie_veils (k : Nat) (f : Die → Die) : (s.modDie k f).veils = s.veils := rfl
@[simp] theorem modDie_aliases (k : Nat) (f : Die → Die) : (s.modDie k f).aliases = s.aliases := rfl
@[simp] theorem modDie_opens (k : Nat) (f : Die → Die) : (s.modDie k f).opens = s.opens := rfl
@[simp] theorem modDie_feWaits (k : Nat) (f : Die → Die) : (s.modDie k f).feWaits = s.feWaits := rfl
@[simp] theorem modDie_incrs (k : Nat) (f : Die → Die) : (s.modDie k f).incrs = s.incrs := rfl
@[simp] theorem modDie_arrives (k : Nat) (f : Die → Die) : (s.modDie k f).arrives = s.arrives := rfl
@[simp] theorem modDie_results (k : Nat) (f : Die → Die) : (s.modDie k f).results = s.results := rfl
@[simp] theorem modDie_copies (k : Nat) (f : Die → Die) : (s.modDie k f).copies = s.copies := rfl
@[simp] theorem modDie_packets (k : Nat) (f : Die → Die) : (s.modDie k f).packets = s.packets := rfl
@[simp] theorem modDie_sures (k : Nat) (f : Die → Die) : (s.modDie k f).sures = s.sures := rfl
@[simp] theorem modDie_reqSeq (k : Nat) (f : Die → Die) : (s.modDie k f).reqSeq = s.reqSeq := rfl
@[simp] theorem modDie_agenda (k : Nat) (f : Die → Die) : (s.modDie k f).agenda = s.agenda := rfl
@[simp] theorem modDie_cur (k : Nat) (f : Die → Die) : (s.modDie k f).cur = s.cur := rfl
@[simp] theorem modDie_iss (k : Nat) (f : Die → Die) : (s.modDie k f).iss = s.iss := rfl
@[simp] theorem modDie_curColl (k : Nat) (f : Die → Die) : (s.modDie k f).curColl = s.curColl := rfl
@[simp] theorem modDie_free (k : Nat) (f : Die → Die) : (s.modDie k f).free = s.free := rfl
@[simp] theorem modDie_nextUid (k : Nat) (f : Die → Die) : (s.modDie k f).nextUid = s.nextUid := rfl

/-! ### setLaunch -/

@[simp] theorem setLaunch_live (k : Nat) (x : Launch) : (s.setLaunch k x).live = s.live := rfl
@[simp] theorem setLaunch_partNo (k : Nat) (x : Launch) : (s.setLaunch k x).partNo = s.partNo := rfl
@[simp] theorem setLaunch_mem (k : Nat) (x : Launch) : (s.setLaunch k x).mem = s.mem := rfl
@[simp] theorem setLaunch_empties (k : Nat) (x : Launch) : (s.setLaunch k x).empties = s.empties := rfl
@[simp] theorem setLaunch_tags (k : Nat) (x : Launch) : (s.setLaunch k x).tags = s.tags := rfl
@[simp] theorem setLaunch_groups (k : Nat) (x : Launch) : (s.setLaunch k x).groups = s.groups := rfl
@[simp] theorem setLaunch_teams (k : Nat) (x : Launch) : (s.setLaunch k x).teams = s.teams := rfl
@[simp] theorem setLaunch_cores (k : Nat) (x : Launch) : (s.setLaunch k x).cores = s.cores := rfl
@[simp] theorem setLaunch_fns (k : Nat) (x : Launch) : (s.setLaunch k x).fns = s.fns := rfl
@[simp] theorem setLaunch_dies (k : Nat) (x : Launch) : (s.setLaunch k x).dies = s.dies := rfl
@[simp] theorem setLaunch_regs (k : Nat) (x : Launch) : (s.setLaunch k x).regs = s.regs := rfl
@[simp] theorem setLaunch_basin (k : Nat) (x : Launch) : (s.setLaunch k x).basin = s.basin := rfl
@[simp] theorem setLaunch_fencedPages (k : Nat) (x : Launch) : (s.setLaunch k x).fencedPages = s.fencedPages := rfl
@[simp] theorem setLaunch_scans (k : Nat) (x : Launch) : (s.setLaunch k x).scans = s.scans := rfl
@[simp] theorem setLaunch_loads (k : Nat) (x : Launch) : (s.setLaunch k x).loads = s.loads := rfl
@[simp] theorem setLaunch_reqs (k : Nat) (x : Launch) : (s.setLaunch k x).reqs = s.reqs := rfl
@[simp] theorem setLaunch_veils (k : Nat) (x : Launch) : (s.setLaunch k x).veils = s.veils := rfl
@[simp] theorem setLaunch_aliases (k : Nat) (x : Launch) : (s.setLaunch k x).aliases = s.aliases := rfl
@[simp] theorem setLaunch_opens (k : Nat) (x : Launch) : (s.setLaunch k x).opens = s.opens := rfl
@[simp] theorem setLaunch_feWaits (k : Nat) (x : Launch) : (s.setLaunch k x).feWaits = s.feWaits := rfl
@[simp] theorem setLaunch_incrs (k : Nat) (x : Launch) : (s.setLaunch k x).incrs = s.incrs := rfl
@[simp] theorem setLaunch_arrives (k : Nat) (x : Launch) : (s.setLaunch k x).arrives = s.arrives := rfl
@[simp] theorem setLaunch_results (k : Nat) (x : Launch) : (s.setLaunch k x).results = s.results := rfl
@[simp] theorem setLaunch_copies (k : Nat) (x : Launch) : (s.setLaunch k x).copies = s.copies := rfl
@[simp] theorem setLaunch_packets (k : Nat) (x : Launch) : (s.setLaunch k x).packets = s.packets := rfl
@[simp] theorem setLaunch_sures (k : Nat) (x : Launch) : (s.setLaunch k x).sures = s.sures := rfl
@[simp] theorem setLaunch_reqSeq (k : Nat) (x : Launch) : (s.setLaunch k x).reqSeq = s.reqSeq := rfl
@[simp] theorem setLaunch_agenda (k : Nat) (x : Launch) : (s.setLaunch k x).agenda = s.agenda := rfl
@[simp] theorem setLaunch_cur (k : Nat) (x : Launch) : (s.setLaunch k x).cur = s.cur := rfl
@[simp] theorem setLaunch_iss (k : Nat) (x : Launch) : (s.setLaunch k x).iss = s.iss := rfl
@[simp] theorem setLaunch_curColl (k : Nat) (x : Launch) : (s.setLaunch k x).curColl = s.curColl := rfl
@[simp] theorem setLaunch_free (k : Nat) (x : Launch) : (s.setLaunch k x).free = s.free := rfl
@[simp] theorem setLaunch_nextUid (k : Nat) (x : Launch) : (s.setLaunch k x).nextUid = s.nextUid := rfl

/-! ### modLaunch -/

@[simp] theorem modLaunch_live (k : Nat) (f : Launch → Launch) : (s.modLaunch k f).live = s.live := rfl
@[simp] theorem modLaunch_partNo (k : Nat) (f : Launch → Launch) : (s.modLaunch k f).partNo = s.partNo := rfl
@[simp] theorem modLaunch_mem (k : Nat) (f : Launch → Launch) : (s.modLaunch k f).mem = s.mem := rfl
@[simp] theorem modLaunch_empties (k : Nat) (f : Launch → Launch) : (s.modLaunch k f).empties = s.empties := rfl
@[simp] theorem modLaunch_tags (k : Nat) (f : Launch → Launch) : (s.modLaunch k f).tags = s.tags := rfl
@[simp] theorem modLaunch_groups (k : Nat) (f : Launch → Launch) : (s.modLaunch k f).groups = s.groups := rfl
@[simp] theorem modLaunch_teams (k : Nat) (f : Launch → Launch) : (s.modLaunch k f).teams = s.teams := rfl
@[simp] theorem modLaunch_cores (k : Nat) (f : Launch → Launch) : (s.modLaunch k f).cores = s.cores := rfl
@[simp] theorem modLaunch_fns (k : Nat) (f : Launch → Launch) : (s.modLaunch k f).fns = s.fns := rfl
@[simp] theorem modLaunch_dies (k : Nat) (f : Launch → Launch) : (s.modLaunch k f).dies = s.dies := rfl
@[simp] theorem modLaunch_regs (k : Nat) (f : Launch → Launch) : (s.modLaunch k f).regs = s.regs := rfl
@[simp] theorem modLaunch_basin (k : Nat) (f : Launch → Launch) : (s.modLaunch k f).basin = s.basin := rfl
@[simp] theorem modLaunch_fencedPages (k : Nat) (f : Launch → Launch) : (s.modLaunch k f).fencedPages = s.fencedPages := rfl
@[simp] theorem modLaunch_scans (k : Nat) (f : Launch → Launch) : (s.modLaunch k f).scans = s.scans := rfl
@[simp] theorem modLaunch_loads (k : Nat) (f : Launch → Launch) : (s.modLaunch k f).loads = s.loads := rfl
@[simp] theorem modLaunch_reqs (k : Nat) (f : Launch → Launch) : (s.modLaunch k f).reqs = s.reqs := rfl
@[simp] theorem modLaunch_veils (k : Nat) (f : Launch → Launch) : (s.modLaunch k f).veils = s.veils := rfl
@[simp] theorem modLaunch_aliases (k : Nat) (f : Launch → Launch) : (s.modLaunch k f).aliases = s.aliases := rfl
@[simp] theorem modLaunch_opens (k : Nat) (f : Launch → Launch) : (s.modLaunch k f).opens = s.opens := rfl
@[simp] theorem modLaunch_feWaits (k : Nat) (f : Launch → Launch) : (s.modLaunch k f).feWaits = s.feWaits := rfl
@[simp] theorem modLaunch_incrs (k : Nat) (f : Launch → Launch) : (s.modLaunch k f).incrs = s.incrs := rfl
@[simp] theorem modLaunch_arrives (k : Nat) (f : Launch → Launch) : (s.modLaunch k f).arrives = s.arrives := rfl
@[simp] theorem modLaunch_results (k : Nat) (f : Launch → Launch) : (s.modLaunch k f).results = s.results := rfl
@[simp] theorem modLaunch_copies (k : Nat) (f : Launch → Launch) : (s.modLaunch k f).copies = s.copies := rfl
@[simp] theorem modLaunch_packets (k : Nat) (f : Launch → Launch) : (s.modLaunch k f).packets = s.packets := rfl
@[simp] theorem modLaunch_sures (k : Nat) (f : Launch → Launch) : (s.modLaunch k f).sures = s.sures := rfl
@[simp] theorem modLaunch_reqSeq (k : Nat) (f : Launch → Launch) : (s.modLaunch k f).reqSeq = s.reqSeq := rfl
@[simp] theorem modLaunch_agenda (k : Nat) (f : Launch → Launch) : (s.modLaunch k f).agenda = s.agenda := rfl
@[simp] theorem modLaunch_cur (k : Nat) (f : Launch → Launch) : (s.modLaunch k f).cur = s.cur := rfl
@[simp] theorem modLaunch_iss (k : Nat) (f : Launch → Launch) : (s.modLaunch k f).iss = s.iss := rfl
@[simp] theorem modLaunch_curColl (k : Nat) (f : Launch → Launch) : (s.modLaunch k f).curColl = s.curColl := rfl
@[simp] theorem modLaunch_free (k : Nat) (f : Launch → Launch) : (s.modLaunch k f).free = s.free := rfl
@[simp] theorem modLaunch_nextUid (k : Nat) (f : Launch → Launch) : (s.modLaunch k f).nextUid = s.nextUid := rfl

/-! ### modBasin -/

@[simp] theorem modBasin_live (f : Basin → Basin) : (s.modBasin f).live = s.live := rfl
@[simp] theorem modBasin_partNo (f : Basin → Basin) : (s.modBasin f).partNo = s.partNo := rfl
@[simp] theorem modBasin_mem (f : Basin → Basin) : (s.modBasin f).mem = s.mem := rfl
@[simp] theorem modBasin_empties (f : Basin → Basin) : (s.modBasin f).empties = s.empties := rfl
@[simp] theorem modBasin_tags (f : Basin → Basin) : (s.modBasin f).tags = s.tags := rfl
@[simp] theorem modBasin_groups (f : Basin → Basin) : (s.modBasin f).groups = s.groups := rfl
@[simp] theorem modBasin_teams (f : Basin → Basin) : (s.modBasin f).teams = s.teams := rfl
@[simp] theorem modBasin_cores (f : Basin → Basin) : (s.modBasin f).cores = s.cores := rfl
@[simp] theorem modBasin_fns (f : Basin → Basin) : (s.modBasin f).fns = s.fns := rfl
@[simp] theorem modBasin_launches (f : Basin → Basin) : (s.modBasin f).launches = s.launches := rfl
@[simp] theorem modBasin_dies (f : Basin → Basin) : (s.modBasin f).dies = s.dies := rfl
@[simp] theorem modBasin_regs (f : Basin → Basin) : (s.modBasin f).regs = s.regs := rfl
@[simp] theorem modBasin_fencedPages (f : Basin → Basin) : (s.modBasin f).fencedPages = s.fencedPages := rfl
@[simp] theorem modBasin_scans (f : Basin → Basin) : (s.modBasin f).scans = s.scans := rfl
@[simp] theorem modBasin_loads (f : Basin → Basin) : (s.modBasin f).loads = s.loads := rfl
@[simp] theorem modBasin_reqs (f : Basin → Basin) : (s.modBasin f).reqs = s.reqs := rfl
@[simp] theorem modBasin_veils (f : Basin → Basin) : (s.modBasin f).veils = s.veils := rfl
@[simp] theorem modBasin_aliases (f : Basin → Basin) : (s.modBasin f).aliases = s.aliases := rfl
@[simp] theorem modBasin_opens (f : Basin → Basin) : (s.modBasin f).opens = s.opens := rfl
@[simp] theorem modBasin_feWaits (f : Basin → Basin) : (s.modBasin f).feWaits = s.feWaits := rfl
@[simp] theorem modBasin_incrs (f : Basin → Basin) : (s.modBasin f).incrs = s.incrs := rfl
@[simp] theorem modBasin_arrives (f : Basin → Basin) : (s.modBasin f).arrives = s.arrives := rfl
@[simp] theorem modBasin_results (f : Basin → Basin) : (s.modBasin f).results = s.results := rfl
@[simp] theorem modBasin_copies (f : Basin → Basin) : (s.modBasin f).copies = s.copies := rfl
@[simp] theorem modBasin_packets (f : Basin → Basin) : (s.modBasin f).packets = s.packets := rfl
@[simp] theorem modBasin_sures (f : Basin → Basin) : (s.modBasin f).sures = s.sures := rfl
@[simp] theorem modBasin_reqSeq (f : Basin → Basin) : (s.modBasin f).reqSeq = s.reqSeq := rfl
@[simp] theorem modBasin_agenda (f : Basin → Basin) : (s.modBasin f).agenda = s.agenda := rfl
@[simp] theorem modBasin_cur (f : Basin → Basin) : (s.modBasin f).cur = s.cur := rfl
@[simp] theorem modBasin_iss (f : Basin → Basin) : (s.modBasin f).iss = s.iss := rfl
@[simp] theorem modBasin_curColl (f : Basin → Basin) : (s.modBasin f).curColl = s.curColl := rfl
@[simp] theorem modBasin_free (f : Basin → Basin) : (s.modBasin f).free = s.free := rfl
@[simp] theorem modBasin_nextUid (f : Basin → Basin) : (s.modBasin f).nextUid = s.nextUid := rfl

/-! ### modLife -/

@[simp] theorem modLife_live (f : Life → Life) : (s.modLife f).live = s.live := rfl
@[simp] theorem modLife_partNo (f : Life → Life) : (s.modLife f).partNo = s.partNo := rfl
@[simp] theorem modLife_mem (f : Life → Life) : (s.modLife f).mem = s.mem := rfl
@[simp] theorem modLife_empties (f : Life → Life) : (s.modLife f).empties = s.empties := rfl
@[simp] theorem modLife_tags (f : Life → Life) : (s.modLife f).tags = s.tags := rfl
@[simp] theorem modLife_groups (f : Life → Life) : (s.modLife f).groups = s.groups := rfl
@[simp] theorem modLife_teams (f : Life → Life) : (s.modLife f).teams = s.teams := rfl
@[simp] theorem modLife_cores (f : Life → Life) : (s.modLife f).cores = s.cores := rfl
@[simp] theorem modLife_fns (f : Life → Life) : (s.modLife f).fns = s.fns := rfl
@[simp] theorem modLife_launches (f : Life → Life) : (s.modLife f).launches = s.launches := rfl
@[simp] theorem modLife_dies (f : Life → Life) : (s.modLife f).dies = s.dies := rfl
@[simp] theorem modLife_regs (f : Life → Life) : (s.modLife f).regs = s.regs := rfl
@[simp] theorem modLife_fencedPages (f : Life → Life) : (s.modLife f).fencedPages = s.fencedPages := rfl
@[simp] theorem modLife_scans (f : Life → Life) : (s.modLife f).scans = s.scans := rfl
@[simp] theorem modLife_loads (f : Life → Life) : (s.modLife f).loads = s.loads := rfl
@[simp] theorem modLife_reqs (f : Life → Life) : (s.modLife f).reqs = s.reqs := rfl
@[simp] theorem modLife_veils (f : Life → Life) : (s.modLife f).veils = s.veils := rfl
@[simp] theorem modLife_aliases (f : Life → Life) : (s.modLife f).aliases = s.aliases := rfl
@[simp] theorem modLife_opens (f : Life → Life) : (s.modLife f).opens = s.opens := rfl
@[simp] theorem modLife_feWaits (f : Life → Life) : (s.modLife f).feWaits = s.feWaits := rfl
@[simp] theorem modLife_incrs (f : Life → Life) : (s.modLife f).incrs = s.incrs := rfl
@[simp] theorem modLife_arrives (f : Life → Life) : (s.modLife f).arrives = s.arrives := rfl
@[simp] theorem modLife_results (f : Life → Life) : (s.modLife f).results = s.results := rfl
@[simp] theorem modLife_copies (f : Life → Life) : (s.modLife f).copies = s.copies := rfl
@[simp] theorem modLife_packets (f : Life → Life) : (s.modLife f).packets = s.packets := rfl
@[simp] theorem modLife_sures (f : Life → Life) : (s.modLife f).sures = s.sures := rfl
@[simp] theorem modLife_reqSeq (f : Life → Life) : (s.modLife f).reqSeq = s.reqSeq := rfl
@[simp] theorem modLife_agenda (f : Life → Life) : (s.modLife f).agenda = s.agenda := rfl
@[simp] theorem modLife_cur (f : Life → Life) : (s.modLife f).cur = s.cur := rfl
@[simp] theorem modLife_iss (f : Life → Life) : (s.modLife f).iss = s.iss := rfl
@[simp] theorem modLife_curColl (f : Life → Life) : (s.modLife f).curColl = s.curColl := rfl
@[simp] theorem modLife_free (f : Life → Life) : (s.modLife f).free = s.free := rfl
@[simp] theorem modLife_nextUid (f : Life → Life) : (s.modLife f).nextUid = s.nextUid := rfl

/-! ### post -/

@[simp] theorem post_live (e : Instr) : (s.post e).live = s.live := rfl
@[simp] theorem post_partNo (e : Instr) : (s.post e).partNo = s.partNo := rfl
@[simp] theorem post_mem (e : Instr) : (s.post e).mem = s.mem := rfl
@[simp] theorem post_empties (e : Instr) : (s.post e).empties = s.empties := rfl
@[simp] theorem post_tags (e : Instr) : (s.post e).tags = s.tags := rfl
@[simp] theorem post_groups (e : Instr) : (s.post e).groups = s.groups := rfl
@[simp] theorem post_teams (e : Instr) : (s.post e).teams = s.teams := rfl
@[simp] theorem post_cores (e : Instr) : (s.post e).cores = s.cores := rfl
@[simp] theorem post_fns (e : Instr) : (s.post e).fns = s.fns := rfl
@[simp] theorem post_launches (e : Instr) : (s.post e).launches = s.launches := rfl
@[simp] theorem post_dies (e : Instr) : (s.post e).dies = s.dies := rfl
@[simp] theorem post_regs (e : Instr) : (s.post e).regs = s.regs := rfl
@[simp] theorem post_basin (e : Instr) : (s.post e).basin = s.basin := rfl
@[simp] theorem post_fencedPages (e : Instr) : (s.post e).fencedPages = s.fencedPages := rfl
@[simp] theorem post_scans (e : Instr) : (s.post e).scans = s.scans := rfl
@[simp] theorem post_loads (e : Instr) : (s.post e).loads = s.loads := rfl
@[simp] theorem post_reqs (e : Instr) : (s.post e).reqs = s.reqs := rfl
@[simp] theorem post_veils (e : Instr) : (s.post e).veils = s.veils := rfl
@[simp] theorem post_aliases (e : Instr) : (s.post e).aliases = s.aliases := rfl
@[simp] theorem post_opens (e : Instr) : (s.post e).opens = s.opens := rfl
@[simp] theorem post_feWaits (e : Instr) : (s.post e).feWaits = s.feWaits := rfl
@[simp] theorem post_incrs (e : Instr) : (s.post e).incrs = s.incrs := rfl
@[simp] theorem post_arrives (e : Instr) : (s.post e).arrives = s.arrives := rfl
@[simp] theorem post_results (e : Instr) : (s.post e).results = s.results := rfl
@[simp] theorem post_copies (e : Instr) : (s.post e).copies = s.copies := rfl
@[simp] theorem post_packets (e : Instr) : (s.post e).packets = s.packets := rfl
@[simp] theorem post_sures (e : Instr) : (s.post e).sures = s.sures := rfl
@[simp] theorem post_reqSeq (e : Instr) : (s.post e).reqSeq = s.reqSeq := rfl
@[simp] theorem post_cur (e : Instr) : (s.post e).cur = s.cur := rfl
@[simp] theorem post_iss (e : Instr) : (s.post e).iss = s.iss := rfl
@[simp] theorem post_curColl (e : Instr) : (s.post e).curColl = s.curColl := rfl
@[simp] theorem post_free (e : Instr) : (s.post e).free = s.free := rfl
@[simp] theorem post_nextUid (e : Instr) : (s.post e).nextUid = s.nextUid := rfl

/-! ### countG -/

@[simp] theorem countG_live (n k : Nat) : (s.countG n k).live = s.live := rfl
@[simp] theorem countG_partNo (n k : Nat) : (s.countG n k).partNo = s.partNo := rfl
@[simp] theorem countG_mem (n k : Nat) : (s.countG n k).mem = s.mem := rfl
@[simp] theorem countG_empties (n k : Nat) : (s.countG n k).empties = s.empties := rfl
@[simp] theorem countG_tags (n k : Nat) : (s.countG n k).tags = s.tags := rfl
@[simp] theorem countG_teams (n k : Nat) : (s.countG n k).teams = s.teams := rfl
@[simp] theorem countG_cores (n k : Nat) : (s.countG n k).cores = s.cores := rfl
@[simp] theorem countG_fns (n k : Nat) : (s.countG n k).fns = s.fns := rfl
@[simp] theorem countG_launches (n k : Nat) : (s.countG n k).launches = s.launches := rfl
@[simp] theorem countG_dies (n k : Nat) : (s.countG n k).dies = s.dies := rfl
@[simp] theorem countG_regs (n k : Nat) : (s.countG n k).regs = s.regs := rfl
@[simp] theorem countG_basin (n k : Nat) : (s.countG n k).basin = s.basin := rfl
@[simp] theorem countG_fencedPages (n k : Nat) : (s.countG n k).fencedPages = s.fencedPages := rfl
@[simp] theorem countG_scans (n k : Nat) : (s.countG n k).scans = s.scans := rfl
@[simp] theorem countG_loads (n k : Nat) : (s.countG n k).loads = s.loads := rfl
@[simp] theorem countG_reqs (n k : Nat) : (s.countG n k).reqs = s.reqs := rfl
@[simp] theorem countG_veils (n k : Nat) : (s.countG n k).veils = s.veils := rfl
@[simp] theorem countG_aliases (n k : Nat) : (s.countG n k).aliases = s.aliases := rfl
@[simp] theorem countG_opens (n k : Nat) : (s.countG n k).opens = s.opens := rfl
@[simp] theorem countG_feWaits (n k : Nat) : (s.countG n k).feWaits = s.feWaits := rfl
@[simp] theorem countG_incrs (n k : Nat) : (s.countG n k).incrs = s.incrs := rfl
@[simp] theorem countG_arrives (n k : Nat) : (s.countG n k).arrives = s.arrives := rfl
@[simp] theorem countG_results (n k : Nat) : (s.countG n k).results = s.results := rfl
@[simp] theorem countG_copies (n k : Nat) : (s.countG n k).copies = s.copies := rfl
@[simp] theorem countG_packets (n k : Nat) : (s.countG n k).packets = s.packets := rfl
@[simp] theorem countG_sures (n k : Nat) : (s.countG n k).sures = s.sures := rfl
@[simp] theorem countG_reqSeq (n k : Nat) : (s.countG n k).reqSeq = s.reqSeq := rfl
@[simp] theorem countG_agenda (n k : Nat) : (s.countG n k).agenda = s.agenda := rfl
@[simp] theorem countG_cur (n k : Nat) : (s.countG n k).cur = s.cur := rfl
@[simp] theorem countG_iss (n k : Nat) : (s.countG n k).iss = s.iss := rfl
@[simp] theorem countG_curColl (n k : Nat) : (s.countG n k).curColl = s.curColl := rfl
@[simp] theorem countG_free (n k : Nat) : (s.countG n k).free = s.free := rfl
@[simp] theorem countG_nextUid (n k : Nat) : (s.countG n k).nextUid = s.nextUid := rfl

/-! ### countC -/

@[simp] theorem countC_live (c n k : Nat) : (s.countC c n k).live = s.live := rfl
@[simp] theorem countC_partNo (c n k : Nat) : (s.countC c n k).partNo = s.partNo := rfl
@[simp] theorem countC_mem (c n k : Nat) : (s.countC c n k).mem = s.mem := rfl
@[simp] theorem countC_empties (c n k : Nat) : (s.countC c n k).empties = s.empties := rfl
@[simp] theorem countC_tags (c n k : Nat) : (s.countC c n k).tags = s.tags := rfl
@[simp] theorem countC_groups (c n k : Nat) : (s.countC c n k).groups = s.groups := rfl
@[simp] theorem countC_teams (c n k : Nat) : (s.countC c n k).teams = s.teams := rfl
@[simp] theorem countC_fns (c n k : Nat) : (s.countC c n k).fns = s.fns := rfl
@[simp] theorem countC_launches (c n k : Nat) : (s.countC c n k).launches = s.launches := rfl
@[simp] theorem countC_dies (c n k : Nat) : (s.countC c n k).dies = s.dies := rfl
@[simp] theorem countC_regs (c n k : Nat) : (s.countC c n k).regs = s.regs := rfl
@[simp] theorem countC_basin (c n k : Nat) : (s.countC c n k).basin = s.basin := rfl
@[simp] theorem countC_fencedPages (c n k : Nat) : (s.countC c n k).fencedPages = s.fencedPages := rfl
@[simp] theorem countC_scans (c n k : Nat) : (s.countC c n k).scans = s.scans := rfl
@[simp] theorem countC_loads (c n k : Nat) : (s.countC c n k).loads = s.loads := rfl
@[simp] theorem countC_reqs (c n k : Nat) : (s.countC c n k).reqs = s.reqs := rfl
@[simp] theorem countC_veils (c n k : Nat) : (s.countC c n k).veils = s.veils := rfl
@[simp] theorem countC_aliases (c n k : Nat) : (s.countC c n k).aliases = s.aliases := rfl
@[simp] theorem countC_opens (c n k : Nat) : (s.countC c n k).opens = s.opens := rfl
@[simp] theorem countC_feWaits (c n k : Nat) : (s.countC c n k).feWaits = s.feWaits := rfl
@[simp] theorem countC_incrs (c n k : Nat) : (s.countC c n k).incrs = s.incrs := rfl
@[simp] theorem countC_arrives (c n k : Nat) : (s.countC c n k).arrives = s.arrives := rfl
@[simp] theorem countC_results (c n k : Nat) : (s.countC c n k).results = s.results := rfl
@[simp] theorem countC_copies (c n k : Nat) : (s.countC c n k).copies = s.copies := rfl
@[simp] theorem countC_packets (c n k : Nat) : (s.countC c n k).packets = s.packets := rfl
@[simp] theorem countC_sures (c n k : Nat) : (s.countC c n k).sures = s.sures := rfl
@[simp] theorem countC_reqSeq (c n k : Nat) : (s.countC c n k).reqSeq = s.reqSeq := rfl
@[simp] theorem countC_agenda (c n k : Nat) : (s.countC c n k).agenda = s.agenda := rfl
@[simp] theorem countC_cur (c n k : Nat) : (s.countC c n k).cur = s.cur := rfl
@[simp] theorem countC_iss (c n k : Nat) : (s.countC c n k).iss = s.iss := rfl
@[simp] theorem countC_curColl (c n k : Nat) : (s.countC c n k).curColl = s.curColl := rfl
@[simp] theorem countC_free (c n k : Nat) : (s.countC c n k).free = s.free := rfl
@[simp] theorem countC_nextUid (c n k : Nat) : (s.countC c n k).nextUid = s.nextUid := rfl

/-! ### holdIssue -/

@[simp] theorem holdIssue_live : (s.holdIssue).live = s.live := rfl
@[simp] theorem holdIssue_partNo : (s.holdIssue).partNo = s.partNo := rfl
@[simp] theorem holdIssue_mem : (s.holdIssue).mem = s.mem := rfl
@[simp] theorem holdIssue_empties : (s.holdIssue).empties = s.empties := rfl
@[simp] theorem holdIssue_tags : (s.holdIssue).tags = s.tags := rfl
@[simp] theorem holdIssue_groups : (s.holdIssue).groups = s.groups := rfl
@[simp] theorem holdIssue_teams : (s.holdIssue).teams = s.teams := rfl
@[simp] theorem holdIssue_cores : (s.holdIssue).cores = s.cores := rfl
@[simp] theorem holdIssue_fns : (s.holdIssue).fns = s.fns := rfl
@[simp] theorem holdIssue_launches : (s.holdIssue).launches = s.launches := rfl
@[simp] theorem holdIssue_dies : (s.holdIssue).dies = s.dies := rfl
@[simp] theorem holdIssue_regs : (s.holdIssue).regs = s.regs := rfl
@[simp] theorem holdIssue_basin : (s.holdIssue).basin = s.basin := rfl
@[simp] theorem holdIssue_fencedPages : (s.holdIssue).fencedPages = s.fencedPages := rfl
@[simp] theorem holdIssue_scans : (s.holdIssue).scans = s.scans := rfl
@[simp] theorem holdIssue_loads : (s.holdIssue).loads = s.loads := rfl
@[simp] theorem holdIssue_reqs : (s.holdIssue).reqs = s.reqs := rfl
@[simp] theorem holdIssue_veils : (s.holdIssue).veils = s.veils := rfl
@[simp] theorem holdIssue_aliases : (s.holdIssue).aliases = s.aliases := rfl
@[simp] theorem holdIssue_opens : (s.holdIssue).opens = s.opens := rfl
@[simp] theorem holdIssue_feWaits : (s.holdIssue).feWaits = s.feWaits := rfl
@[simp] theorem holdIssue_incrs : (s.holdIssue).incrs = s.incrs := rfl
@[simp] theorem holdIssue_arrives : (s.holdIssue).arrives = s.arrives := rfl
@[simp] theorem holdIssue_results : (s.holdIssue).results = s.results := rfl
@[simp] theorem holdIssue_copies : (s.holdIssue).copies = s.copies := rfl
@[simp] theorem holdIssue_packets : (s.holdIssue).packets = s.packets := rfl
@[simp] theorem holdIssue_sures : (s.holdIssue).sures = s.sures := rfl
@[simp] theorem holdIssue_reqSeq : (s.holdIssue).reqSeq = s.reqSeq := rfl
@[simp] theorem holdIssue_agenda : (s.holdIssue).agenda = s.agenda := rfl
@[simp] theorem holdIssue_cur : (s.holdIssue).cur = s.cur := rfl
@[simp] theorem holdIssue_curColl : (s.holdIssue).curColl = s.curColl := rfl
@[simp] theorem holdIssue_free : (s.holdIssue).free = s.free := rfl
@[simp] theorem holdIssue_nextUid : (s.holdIssue).nextUid = s.nextUid := rfl

/-! ### jump -/

@[simp] theorem jump_live (o : Off) : (s.jump o).live = s.live := rfl
@[simp] theorem jump_partNo (o : Off) : (s.jump o).partNo = s.partNo := rfl
@[simp] theorem jump_mem (o : Off) : (s.jump o).mem = s.mem := rfl
@[simp] theorem jump_empties (o : Off) : (s.jump o).empties = s.empties := rfl
@[simp] theorem jump_tags (o : Off) : (s.jump o).tags = s.tags := rfl
@[simp] theorem jump_teams (o : Off) : (s.jump o).teams = s.teams := rfl
@[simp] theorem jump_cores (o : Off) : (s.jump o).cores = s.cores := rfl
@[simp] theorem jump_fns (o : Off) : (s.jump o).fns = s.fns := rfl
@[simp] theorem jump_launches (o : Off) : (s.jump o).launches = s.launches := rfl
@[simp] theorem jump_dies (o : Off) : (s.jump o).dies = s.dies := rfl
@[simp] theorem jump_regs (o : Off) : (s.jump o).regs = s.regs := rfl
@[simp] theorem jump_basin (o : Off) : (s.jump o).basin = s.basin := rfl
@[simp] theorem jump_fencedPages (o : Off) : (s.jump o).fencedPages = s.fencedPages := rfl
@[simp] theorem jump_scans (o : Off) : (s.jump o).scans = s.scans := rfl
@[simp] theorem jump_loads (o : Off) : (s.jump o).loads = s.loads := rfl
@[simp] theorem jump_reqs (o : Off) : (s.jump o).reqs = s.reqs := rfl
@[simp] theorem jump_veils (o : Off) : (s.jump o).veils = s.veils := rfl
@[simp] theorem jump_aliases (o : Off) : (s.jump o).aliases = s.aliases := rfl
@[simp] theorem jump_opens (o : Off) : (s.jump o).opens = s.opens := rfl
@[simp] theorem jump_feWaits (o : Off) : (s.jump o).feWaits = s.feWaits := rfl
@[simp] theorem jump_incrs (o : Off) : (s.jump o).incrs = s.incrs := rfl
@[simp] theorem jump_arrives (o : Off) : (s.jump o).arrives = s.arrives := rfl
@[simp] theorem jump_results (o : Off) : (s.jump o).results = s.results := rfl
@[simp] theorem jump_copies (o : Off) : (s.jump o).copies = s.copies := rfl
@[simp] theorem jump_packets (o : Off) : (s.jump o).packets = s.packets := rfl
@[simp] theorem jump_sures (o : Off) : (s.jump o).sures = s.sures := rfl
@[simp] theorem jump_reqSeq (o : Off) : (s.jump o).reqSeq = s.reqSeq := rfl
@[simp] theorem jump_agenda (o : Off) : (s.jump o).agenda = s.agenda := rfl
@[simp] theorem jump_cur (o : Off) : (s.jump o).cur = s.cur := rfl
@[simp] theorem jump_curColl (o : Off) : (s.jump o).curColl = s.curColl := rfl
@[simp] theorem jump_free (o : Off) : (s.jump o).free = s.free := rfl
@[simp] theorem jump_nextUid (o : Off) : (s.jump o).nextUid = s.nextUid := rfl

/-! ### Records read back -/

@[simp] theorem group_setGroup (k : Nat) (g : Group) : (s.setGroup k g).group k = g := Table.get_set _ _ _ _
theorem group_setGroup_ne (k j : Nat) (g : Group) (h : j ≠ k) : (s.setGroup k g).group j = s.group j := Table.get_set_ne _ _ _ _ _ h
@[simp] theorem g_setG (g : Group) : (s.setG g).g = g := Table.get_set _ _ _ _
@[simp] theorem g_modG (f : Group → Group) : (s.modG f).g = f s.g := Table.get_set _ _ _ _
theorem group_setG_ne (g : Group) (j : Nat) (h : j ≠ s.cur) : (s.setG g).group j = s.group j := Table.get_set_ne _ _ _ _ _ h
theorem group_modG_ne (f : Group → Group) (j : Nat) (h : j ≠ s.cur) : (s.modG f).group j = s.group j := Table.get_set_ne _ _ _ _ _ h
@[simp] theorem teamOf_setTeam (k : Nat) (x : Team) : (s.setTeam k x).teamOf k = x := Table.get_set _ _ _ _
@[simp] theorem teamOf_modTeam (k : Nat) (f : Team → Team) : (s.modTeam k f).teamOf k = f (s.teamOf k) := Table.get_set _ _ _ _
theorem teamOf_modTeam_ne (k j : Nat) (f : Team → Team) (h : j ≠ k) : (s.modTeam k f).teamOf j = s.teamOf j := Table.get_set_ne _ _ _ _ _ h
@[simp] theorem coreOf_setCore (k : Nat) (x : Core) : (s.setCore k x).coreOf k = x := Table.get_set _ _ _ _
@[simp] theorem coreOf_modCore (k : Nat) (f : Core → Core) : (s.modCore k f).coreOf k = f (s.coreOf k) := Table.get_set _ _ _ _
theorem coreOf_modCore_ne (k j : Nat) (f : Core → Core) (h : j ≠ k) : (s.modCore k f).coreOf j = s.coreOf j := Table.get_set_ne _ _ _ _ _ h
@[simp] theorem fnOf_setFn (k : Nat) (x : Fn) : (s.setFn k x).fnOf k = x := Table.get_set _ _ _ _
@[simp] theorem fnOf_modFn (k : Nat) (f : Fn → Fn) : (s.modFn k f).fnOf k = f (s.fnOf k) := Table.get_set _ _ _ _
theorem fnOf_modFn_ne (k j : Nat) (f : Fn → Fn) (h : j ≠ k) : (s.modFn k f).fnOf j = s.fnOf j := Table.get_set_ne _ _ _ _ _ h
@[simp] theorem die_setDie (k : Nat) (x : Die) : (s.setDie k x).die k = x := Table.get_set _ _ _ _
@[simp] theorem die_modDie (k : Nat) (f : Die → Die) : (s.modDie k f).die k = f (s.die k) := Table.get_set _ _ _ _
theorem die_modDie_ne (k j : Nat) (f : Die → Die) (h : j ≠ k) : (s.modDie k f).die j = s.die j := Table.get_set_ne _ _ _ _ _ h
@[simp] theorem launch_setLaunch (k : Nat) (x : Launch) : (s.setLaunch k x).launch k = x := Table.get_set _ _ _ _
@[simp] theorem launch_modLaunch (k : Nat) (f : Launch → Launch) : (s.modLaunch k f).launch k = f (s.launch k) := Table.get_set _ _ _ _
@[simp] theorem modBasin_basin (f : Basin → Basin) : (s.modBasin f).basin = f s.basin := rfl
@[simp] theorem post_agenda (e : Instr) : (s.post e).agenda = s.agenda ++ [.event e] := rfl
@[simp] theorem holdIssue_iss : s.holdIssue.iss = { s.iss with hold := true } := rfl
@[simp] theorem holdIssue_g : s.holdIssue.g = s.g := rfl
@[simp] theorem jump_iss (o : Off) : (s.jump o).iss = { s.iss with moved := true } := rfl
@[simp] theorem jump_g (o : Off) : (s.jump o).g = { s.g with offset := o } := Table.get_set _ _ _ _
@[simp] theorem post_g (e : Instr) : (s.post e).g = s.g := rfl
@[simp] theorem modCore_g (k : Nat) (f : Core → Core) : (s.modCore k f).g = s.g := rfl
@[simp] theorem modTeam_g (k : Nat) (f : Team → Team) : (s.modTeam k f).g = s.g := rfl
@[simp] theorem modBasin_g (f : Basin → Basin) : (s.modBasin f).g = s.g := rfl

end Sys2Proof.Machine.State
end

