-- ==== Sys2Proof/Laws/Ops.lean ====
section
/-! SUPPORT. What the operations on lines, records and bytes in memory leave as it was: one lemma per field, and one for each way of
storing. -/

namespace Sys2Proof.Machine.State

open Sys2Proof

variable (s : State)

/-! ### recallLine -/

@[simp] theorem recallLine_live (ck loc : Nat) : (s.recallLine ck loc).live = s.live := rfl
@[simp] theorem recallLine_partNo (ck loc : Nat) : (s.recallLine ck loc).partNo = s.partNo := rfl
@[simp] theorem recallLine_mem (ck loc : Nat) : (s.recallLine ck loc).mem = s.mem := rfl
@[simp] theorem recallLine_empties (ck loc : Nat) : (s.recallLine ck loc).empties = s.empties := rfl
@[simp] theorem recallLine_tags (ck loc : Nat) : (s.recallLine ck loc).tags = s.tags := rfl
@[simp] theorem recallLine_groups (ck loc : Nat) : (s.recallLine ck loc).groups = s.groups := rfl
@[simp] theorem recallLine_teams (ck loc : Nat) : (s.recallLine ck loc).teams = s.teams := rfl
@[simp] theorem recallLine_fns (ck loc : Nat) : (s.recallLine ck loc).fns = s.fns := rfl
@[simp] theorem recallLine_launches (ck loc : Nat) : (s.recallLine ck loc).launches = s.launches := rfl
@[simp] theorem recallLine_dies (ck loc : Nat) : (s.recallLine ck loc).dies = s.dies := rfl
@[simp] theorem recallLine_regs (ck loc : Nat) : (s.recallLine ck loc).regs = s.regs := rfl
@[simp] theorem recallLine_basin (ck loc : Nat) : (s.recallLine ck loc).basin = s.basin := rfl
@[simp] theorem recallLine_fencedPages (ck loc : Nat) : (s.recallLine ck loc).fencedPages = s.fencedPages := rfl
@[simp] theorem recallLine_scans (ck loc : Nat) : (s.recallLine ck loc).scans = s.scans := rfl
@[simp] theorem recallLine_loads (ck loc : Nat) : (s.recallLine ck loc).loads = s.loads := rfl
@[simp] theorem recallLine_reqs (ck loc : Nat) : (s.recallLine ck loc).reqs = s.reqs := rfl
@[simp] theorem recallLine_veils (ck loc : Nat) : (s.recallLine ck loc).veils = s.veils := rfl
@[simp] theorem recallLine_aliases (ck loc : Nat) : (s.recallLine ck loc).aliases = s.aliases := rfl
@[simp] theorem recallLine_opens (ck loc : Nat) : (s.recallLine ck loc).opens = s.opens := rfl
@[simp] theorem recallLine_feWaits (ck loc : Nat) : (s.recallLine ck loc).feWaits = s.feWaits := rfl
@[simp] theorem recallLine_incrs (ck loc : Nat) : (s.recallLine ck loc).incrs = s.incrs := rfl
@[simp] theorem recallLine_arrives (ck loc : Nat) : (s.recallLine ck loc).arrives = s.arrives := rfl
@[simp] theorem recallLine_results (ck loc : Nat) : (s.recallLine ck loc).results = s.results := rfl
@[simp] theorem recallLine_copies (ck loc : Nat) : (s.recallLine ck loc).copies = s.copies := rfl
@[simp] theorem recallLine_packets (ck loc : Nat) : (s.recallLine ck loc).packets = s.packets := rfl
@[simp] theorem recallLine_sures (ck loc : Nat) : (s.recallLine ck loc).sures = s.sures := rfl
@[simp] theorem recallLine_reqSeq (ck loc : Nat) : (s.recallLine ck loc).reqSeq = s.reqSeq := rfl
@[simp] theorem recallLine_agenda (ck loc : Nat) : (s.recallLine ck loc).agenda = s.agenda := rfl
@[simp] theorem recallLine_cur (ck loc : Nat) : (s.recallLine ck loc).cur = s.cur := rfl
@[simp] theorem recallLine_iss (ck loc : Nat) : (s.recallLine ck loc).iss = s.iss := rfl
@[simp] theorem recallLine_curColl (ck loc : Nat) : (s.recallLine ck loc).curColl = s.curColl := rfl
@[simp] theorem recallLine_free (ck loc : Nat) : (s.recallLine ck loc).free = s.free := rfl
@[simp] theorem recallLine_nextUid (ck loc : Nat) : (s.recallLine ck loc).nextUid = s.nextUid := rfl

/-! ### recallAll -/

@[simp] theorem recallAll_live (loc n : Nat) : (s.recallAll loc n).live = s.live := rfl
@[simp] theorem recallAll_partNo (loc n : Nat) : (s.recallAll loc n).partNo = s.partNo := rfl
@[simp] theorem recallAll_mem (loc n : Nat) : (s.recallAll loc n).mem = s.mem := rfl
@[simp] theorem recallAll_empties (loc n : Nat) : (s.recallAll loc n).empties = s.empties := rfl
@[simp] theorem recallAll_tags (loc n : Nat) : (s.recallAll loc n).tags = s.tags := rfl
@[simp] theorem recallAll_groups (loc n : Nat) : (s.recallAll loc n).groups = s.groups := rfl
@[simp] theorem recallAll_teams (loc n : Nat) : (s.recallAll loc n).teams = s.teams := rfl
@[simp] theorem recallAll_fns (loc n : Nat) : (s.recallAll loc n).fns = s.fns := rfl
@[simp] theorem recallAll_launches (loc n : Nat) : (s.recallAll loc n).launches = s.launches := rfl
@[simp] theorem recallAll_dies (loc n : Nat) : (s.recallAll loc n).dies = s.dies := rfl
@[simp] theorem recallAll_regs (loc n : Nat) : (s.recallAll loc n).regs = s.regs := rfl
@[simp] theorem recallAll_basin (loc n : Nat) : (s.recallAll loc n).basin = s.basin := rfl
@[simp] theorem recallAll_fencedPages (loc n : Nat) : (s.recallAll loc n).fencedPages = s.fencedPages := rfl
@[simp] theorem recallAll_scans (loc n : Nat) : (s.recallAll loc n).scans = s.scans := rfl
@[simp] theorem recallAll_loads (loc n : Nat) : (s.recallAll loc n).loads = s.loads := rfl
@[simp] theorem recallAll_reqs (loc n : Nat) : (s.recallAll loc n).reqs = s.reqs := rfl
@[simp] theorem recallAll_veils (loc n : Nat) : (s.recallAll loc n).veils = s.veils := rfl
@[simp] theorem recallAll_aliases (loc n : Nat) : (s.recallAll loc n).aliases = s.aliases := rfl
@[simp] theorem recallAll_opens (loc n : Nat) : (s.recallAll loc n).opens = s.opens := rfl
@[simp] theorem recallAll_feWaits (loc n : Nat) : (s.recallAll loc n).feWaits = s.feWaits := rfl
@[simp] theorem recallAll_incrs (loc n : Nat) : (s.recallAll loc n).incrs = s.incrs := rfl
@[simp] theorem recallAll_arrives (loc n : Nat) : (s.recallAll loc n).arrives = s.arrives := rfl
@[simp] theorem recallAll_results (loc n : Nat) : (s.recallAll loc n).results = s.results := rfl
@[simp] theorem recallAll_copies (loc n : Nat) : (s.recallAll loc n).copies = s.copies := rfl
@[simp] theorem recallAll_packets (loc n : Nat) : (s.recallAll loc n).packets = s.packets := rfl
@[simp] theorem recallAll_sures (loc n : Nat) : (s.recallAll loc n).sures = s.sures := rfl
@[simp] theorem recallAll_reqSeq (loc n : Nat) : (s.recallAll loc n).reqSeq = s.reqSeq := rfl
@[simp] theorem recallAll_agenda (loc n : Nat) : (s.recallAll loc n).agenda = s.agenda := rfl
@[simp] theorem recallAll_cur (loc n : Nat) : (s.recallAll loc n).cur = s.cur := rfl
@[simp] theorem recallAll_iss (loc n : Nat) : (s.recallAll loc n).iss = s.iss := rfl
@[simp] theorem recallAll_curColl (loc n : Nat) : (s.recallAll loc n).curColl = s.curColl := rfl
@[simp] theorem recallAll_free (loc n : Nat) : (s.recallAll loc n).free = s.free := rfl
@[simp] theorem recallAll_nextUid (loc n : Nat) : (s.recallAll loc n).nextUid = s.nextUid := rfl

/-! ### snapStore -/

@[simp] theorem snapStore_live (ck loc : Nat) (bs : List Byte) : (s.snapStore ck loc bs).live = s.live := rfl
@[simp] theorem snapStore_partNo (ck loc : Nat) (bs : List Byte) : (s.snapStore ck loc bs).partNo = s.partNo := rfl
@[simp] theorem snapStore_mem (ck loc : Nat) (bs : List Byte) : (s.snapStore ck loc bs).mem = s.mem := rfl
@[simp] theorem snapStore_empties (ck loc : Nat) (bs : List Byte) : (s.snapStore ck loc bs).empties = s.empties := rfl
@[simp] theorem snapStore_tags (ck loc : Nat) (bs : List Byte) : (s.snapStore ck loc bs).tags = s.tags := rfl
@[simp] theorem snapStore_groups (ck loc : Nat) (bs : List Byte) : (s.snapStore ck loc bs).groups = s.groups := rfl
@[simp] theorem snapStore_teams (ck loc : Nat) (bs : List Byte) : (s.snapStore ck loc bs).teams = s.teams := rfl
@[simp] theorem snapStore_fns (ck loc : Nat) (bs : List Byte) : (s.snapStore ck loc bs).fns = s.fns := rfl
@[simp] theorem snapStore_launches (ck loc : Nat) (bs : List Byte) : (s.snapStore ck loc bs).launches = s.launches := rfl
@[simp] theorem snapStore_dies (ck loc : Nat) (bs : List Byte) : (s.snapStore ck loc bs).dies = s.dies := rfl
@[simp] theorem snapStore_regs (ck loc : Nat) (bs : List Byte) : (s.snapStore ck loc bs).regs = s.regs := rfl
@[simp] theorem snapStore_basin (ck loc : Nat) (bs : List Byte) : (s.snapStore ck loc bs).basin = s.basin := rfl
@[simp] theorem snapStore_fencedPages (ck loc : Nat) (bs : List Byte) : (s.snapStore ck loc bs).fencedPages = s.fencedPages := rfl
@[simp] theorem snapStore_scans (ck loc : Nat) (bs : List Byte) : (s.snapStore ck loc bs).scans = s.scans := rfl
@[simp] theorem snapStore_loads (ck loc : Nat) (bs : List Byte) : (s.snapStore ck loc bs).loads = s.loads := rfl
@[simp] theorem snapStore_reqs (ck loc : Nat) (bs : List Byte) : (s.snapStore ck loc bs).reqs = s.reqs := rfl
@[simp] theorem snapStore_veils (ck loc : Nat) (bs : List Byte) : (s.snapStore ck loc bs).veils = s.veils := rfl
@[simp] theorem snapStore_aliases (ck loc : Nat) (bs : List Byte) : (s.snapStore ck loc bs).aliases = s.aliases := rfl
@[simp] theorem snapStore_opens (ck loc : Nat) (bs : List Byte) : (s.snapStore ck loc bs).opens = s.opens := rfl
@[simp] theorem snapStore_feWaits (ck loc : Nat) (bs : List Byte) : (s.snapStore ck loc bs).feWaits = s.feWaits := rfl
@[simp] theorem snapStore_incrs (ck loc : Nat) (bs : List Byte) : (s.snapStore ck loc bs).incrs = s.incrs := rfl
@[simp] theorem snapStore_arrives (ck loc : Nat) (bs : List Byte) : (s.snapStore ck loc bs).arrives = s.arrives := rfl
@[simp] theorem snapStore_results (ck loc : Nat) (bs : List Byte) : (s.snapStore ck loc bs).results = s.results := rfl
@[simp] theorem snapStore_copies (ck loc : Nat) (bs : List Byte) : (s.snapStore ck loc bs).copies = s.copies := rfl
@[simp] theorem snapStore_packets (ck loc : Nat) (bs : List Byte) : (s.snapStore ck loc bs).packets = s.packets := rfl
@[simp] theorem snapStore_sures (ck loc : Nat) (bs : List Byte) : (s.snapStore ck loc bs).sures = s.sures := rfl
@[simp] theorem snapStore_reqSeq (ck loc : Nat) (bs : List Byte) : (s.snapStore ck loc bs).reqSeq = s.reqSeq := rfl
@[simp] theorem snapStore_agenda (ck loc : Nat) (bs : List Byte) : (s.snapStore ck loc bs).agenda = s.agenda := rfl
@[simp] theorem snapStore_cur (ck loc : Nat) (bs : List Byte) : (s.snapStore ck loc bs).cur = s.cur := rfl
@[simp] theorem snapStore_iss (ck loc : Nat) (bs : List Byte) : (s.snapStore ck loc bs).iss = s.iss := rfl
@[simp] theorem snapStore_curColl (ck loc : Nat) (bs : List Byte) : (s.snapStore ck loc bs).curColl = s.curColl := rfl
@[simp] theorem snapStore_free (ck loc : Nat) (bs : List Byte) : (s.snapStore ck loc bs).free = s.free := rfl
@[simp] theorem snapStore_nextUid (ck loc : Nat) (bs : List Byte) : (s.snapStore ck loc bs).nextUid = s.nextUid := rfl

/-! ### patchReplies -/

@[simp] theorem patchReplies_live (ck loc : Nat) (bs : List Byte) : (s.patchReplies ck loc bs).live = s.live := rfl
@[simp] theorem patchReplies_partNo (ck loc : Nat) (bs : List Byte) : (s.patchReplies ck loc bs).partNo = s.partNo := rfl
@[simp] theorem patchReplies_mem (ck loc : Nat) (bs : List Byte) : (s.patchReplies ck loc bs).mem = s.mem := rfl
@[simp] theorem patchReplies_empties (ck loc : Nat) (bs : List Byte) : (s.patchReplies ck loc bs).empties = s.empties := rfl
@[simp] theorem patchReplies_tags (ck loc : Nat) (bs : List Byte) : (s.patchReplies ck loc bs).tags = s.tags := rfl
@[simp] theorem patchReplies_groups (ck loc : Nat) (bs : List Byte) : (s.patchReplies ck loc bs).groups = s.groups := rfl
@[simp] theorem patchReplies_teams (ck loc : Nat) (bs : List Byte) : (s.patchReplies ck loc bs).teams = s.teams := rfl
@[simp] theorem patchReplies_cores (ck loc : Nat) (bs : List Byte) : (s.patchReplies ck loc bs).cores = s.cores := rfl
@[simp] theorem patchReplies_fns (ck loc : Nat) (bs : List Byte) : (s.patchReplies ck loc bs).fns = s.fns := rfl
@[simp] theorem patchReplies_launches (ck loc : Nat) (bs : List Byte) : (s.patchReplies ck loc bs).launches = s.launches := rfl
@[simp] theorem patchReplies_dies (ck loc : Nat) (bs : List Byte) : (s.patchReplies ck loc bs).dies = s.dies := rfl
@[simp] theorem patchReplies_regs (ck loc : Nat) (bs : List Byte) : (s.patchReplies ck loc bs).regs = s.regs := rfl
@[simp] theorem patchReplies_basin (ck loc : Nat) (bs : List Byte) : (s.patchReplies ck loc bs).basin = s.basin := rfl
@[simp] theorem patchReplies_fencedPages (ck loc : Nat) (bs : List Byte) : (s.patchReplies ck loc bs).fencedPages = s.fencedPages := rfl
@[simp] theorem patchReplies_scans (ck loc : Nat) (bs : List Byte) : (s.patchReplies ck loc bs).scans = s.scans := rfl
@[simp] theorem patchReplies_loads (ck loc : Nat) (bs : List Byte) : (s.patchReplies ck loc bs).loads = s.loads := rfl
@[simp] theorem patchReplies_veils (ck loc : Nat) (bs : List Byte) : (s.patchReplies ck loc bs).veils = s.veils := rfl
@[simp] theorem patchReplies_aliases (ck loc : Nat) (bs : List Byte) : (s.patchReplies ck loc bs).aliases = s.aliases := rfl
@[simp] theorem patchReplies_opens (ck loc : Nat) (bs : List Byte) : (s.patchReplies ck loc bs).opens = s.opens := rfl
@[simp] theorem patchReplies_feWaits (ck loc : Nat) (bs : List Byte) : (s.patchReplies ck loc bs).feWaits = s.feWaits := rfl
@[simp] theorem patchReplies_incrs (ck loc : Nat) (bs : List Byte) : (s.patchReplies ck loc bs).incrs = s.incrs := rfl
@[simp] theorem patchReplies_arrives (ck loc : Nat) (bs : List Byte) : (s.patchReplies ck loc bs).arrives = s.arrives := rfl
@[simp] theorem patchReplies_results (ck loc : Nat) (bs : List Byte) : (s.patchReplies ck loc bs).results = s.results := rfl
@[simp] theorem patchReplies_copies (ck loc : Nat) (bs : List Byte) : (s.patchReplies ck loc bs).copies = s.copies := rfl
@[simp] theorem patchReplies_packets (ck loc : Nat) (bs : List Byte) : (s.patchReplies ck loc bs).packets = s.packets := rfl
@[simp] theorem patchReplies_sures (ck loc : Nat) (bs : List Byte) : (s.patchReplies ck loc bs).sures = s.sures := rfl
@[simp] theorem patchReplies_reqSeq (ck loc : Nat) (bs : List Byte) : (s.patchReplies ck loc bs).reqSeq = s.reqSeq := rfl
@[simp] theorem patchReplies_agenda (ck loc : Nat) (bs : List Byte) : (s.patchReplies ck loc bs).agenda = s.agenda := rfl
@[simp] theorem patchReplies_cur (ck loc : Nat) (bs : List Byte) : (s.patchReplies ck loc bs).cur = s.cur := rfl
@[simp] theorem patchReplies_iss (ck loc : Nat) (bs : List Byte) : (s.patchReplies ck loc bs).iss = s.iss := rfl
@[simp] theorem patchReplies_curColl (ck loc : Nat) (bs : List Byte) : (s.patchReplies ck loc bs).curColl = s.curColl := rfl
@[simp] theorem patchReplies_free (ck loc : Nat) (bs : List Byte) : (s.patchReplies ck loc bs).free = s.free := rfl
@[simp] theorem patchReplies_nextUid (ck loc : Nat) (bs : List Byte) : (s.patchReplies ck loc bs).nextUid = s.nextUid := rfl

/-! ### unveil -/

@[simp] theorem unveil_live (gk team : Nat) : (s.unveil gk team).live = s.live := rfl
@[simp] theorem unveil_partNo (gk team : Nat) : (s.unveil gk team).partNo = s.partNo := rfl
@[simp] theorem unveil_mem (gk team : Nat) : (s.unveil gk team).mem = s.mem := rfl
@[simp] theorem unveil_empties (gk team : Nat) : (s.unveil gk team).empties = s.empties := rfl
@[simp] theorem unveil_tags (gk team : Nat) : (s.unveil gk team).tags = s.tags := rfl
@[simp] theorem unveil_groups (gk team : Nat) : (s.unveil gk team).groups = s.groups := rfl
@[simp] theorem unveil_teams (gk team : Nat) : (s.unveil gk team).teams = s.teams := rfl
@[simp] theorem unveil_cores (gk team : Nat) : (s.unveil gk team).cores = s.cores := rfl
@[simp] theorem unveil_fns (gk team : Nat) : (s.unveil gk team).fns = s.fns := rfl
@[simp] theorem unveil_launches (gk team : Nat) : (s.unveil gk team).launches = s.launches := rfl
@[simp] theorem unveil_dies (gk team : Nat) : (s.unveil gk team).dies = s.dies := rfl
@[simp] theorem unveil_regs (gk team : Nat) : (s.unveil gk team).regs = s.regs := rfl
@[simp] theorem unveil_basin (gk team : Nat) : (s.unveil gk team).basin = s.basin := rfl
@[simp] theorem unveil_fencedPages (gk team : Nat) : (s.unveil gk team).fencedPages = s.fencedPages := rfl
@[simp] theorem unveil_scans (gk team : Nat) : (s.unveil gk team).scans = s.scans := rfl
@[simp] theorem unveil_loads (gk team : Nat) : (s.unveil gk team).loads = s.loads := rfl
@[simp] theorem unveil_reqs (gk team : Nat) : (s.unveil gk team).reqs = s.reqs := rfl
@[simp] theorem unveil_aliases (gk team : Nat) : (s.unveil gk team).aliases = s.aliases := rfl
@[simp] theorem unveil_opens (gk team : Nat) : (s.unveil gk team).opens = s.opens := rfl
@[simp] theorem unveil_feWaits (gk team : Nat) : (s.unveil gk team).feWaits = s.feWaits := rfl
@[simp] theorem unveil_incrs (gk team : Nat) : (s.unveil gk team).incrs = s.incrs := rfl
@[simp] theorem unveil_arrives (gk team : Nat) : (s.unveil gk team).arrives = s.arrives := rfl
@[simp] theorem unveil_results (gk team : Nat) : (s.unveil gk team).results = s.results := rfl
@[simp] theorem unveil_copies (gk team : Nat) : (s.unveil gk team).copies = s.copies := rfl
@[simp] theorem unveil_packets (gk team : Nat) : (s.unveil gk team).packets = s.packets := rfl
@[simp] theorem unveil_sures (gk team : Nat) : (s.unveil gk team).sures = s.sures := rfl
@[simp] theorem unveil_reqSeq (gk team : Nat) : (s.unveil gk team).reqSeq = s.reqSeq := rfl
@[simp] theorem unveil_agenda (gk team : Nat) : (s.unveil gk team).agenda = s.agenda := rfl
@[simp] theorem unveil_cur (gk team : Nat) : (s.unveil gk team).cur = s.cur := rfl
@[simp] theorem unveil_iss (gk team : Nat) : (s.unveil gk team).iss = s.iss := rfl
@[simp] theorem unveil_curColl (gk team : Nat) : (s.unveil gk team).curColl = s.curColl := rfl
@[simp] theorem unveil_free (gk team : Nat) : (s.unveil gk team).free = s.free := rfl
@[simp] theorem unveil_nextUid (gk team : Nat) : (s.unveil gk team).nextUid = s.nextUid := rfl

/-! ### Storing bytes -/

/-- A byte goes to memory, or to the station that holds its word (R181). -/
theorem storeByte_frame (loc : Nat) (b : Byte) : ∃ m x, s.storeByte loc b = { s with mem := m, basin := x } := by
  unfold storeByte
  split
  · exact ⟨_, _, rfl⟩
  · split <;> exact ⟨_, _, rfl⟩

theorem putBytes_frame (loc : Nat) (bs : List Byte) : ∃ m x, s.putBytes loc bs = { s with mem := m, basin := x } := by
  induction bs generalizing s loc with
  | nil => exact ⟨_, _, rfl⟩
  | cons b r ih =>
    obtain ⟨m, x, h⟩ := storeByte_frame s loc b
    obtain ⟨m', x', h'⟩ := ih (s.storeByte loc b) (loc + 1)
    exact ⟨m', x', by rw [putBytes, h', h]⟩

theorem tagUnit_frame (slot u : Nat) : ∃ m x t, s.tagUnit slot u = { s with mem := m, basin := x, tags := t } := by
  unfold tagUnit
  split
  · obtain ⟨m, x, h⟩ := putBytes_frame s (64 * u) (s.readSlot (64 * u) slot 64)
    exact ⟨m, x, _, by rw [h]⟩
  · exact ⟨_, _, _, rfl⟩

theorem tagUnits_frame (loc slot n : Nat) : ∃ m x t, s.tagUnits loc slot n = { s with mem := m, basin := x, tags := t } := by
  unfold tagUnits
  split
  · generalize List.range ((loc + n - 1) / 64 - loc / 64 + 1) = l
    induction l generalizing s with
    | nil => exact ⟨_, _, _, rfl⟩
    | cons i r ih =>
      obtain ⟨m, x, t, h⟩ := tagUnit_frame s slot (loc / 64 + i)
      obtain ⟨m', x', t', h'⟩ := ih (s.tagUnit slot (loc / 64 + i))
      exact ⟨m', x', t', by rw [List.foldl_cons, h', h]⟩
  · exact ⟨_, _, _, rfl⟩

/-- Bytes stored under a key slot change memory, a station, tags and veils, and nothing else. -/
theorem storeBytes_frame (loc slot : Nat) (bs : List Byte) :
    ∃ m x t v, s.storeBytes loc slot bs = { s with mem := m, basin := x, tags := t, veils := v } := by
  obtain ⟨m, x, t, h⟩ := tagUnits_frame s loc slot bs.length
  obtain ⟨m', x', h'⟩ := putBytes_frame (s.tagUnits loc slot bs.length) loc bs
  exact ⟨m', x', t, _, by rw [storeBytes, h', h]⟩

/-! ### Messages -/

theorem loseMsgs_frame (ms : List Nat) : ∃ x, s.loseMsgs ms = { s with basin := x } := by
  unfold loseMsgs
  split <;> exact ⟨_, rfl⟩

theorem sendFlit_frame (x : Nat) (f : Flit) : ∃ b a, s.sendFlit x f = { s with basin := b, agenda := a } := by
  unfold sendFlit
  split
  · obtain ⟨b, h⟩ := loseMsgs_frame s [f.msg]
    exact ⟨b, _, h⟩
  · dsimp only
    split <;> exact ⟨_, _, rfl⟩

theorem sendFlits_frame (x : Nat) (f : Nat → Flit) (l : List Nat) :
    ∃ b a, l.foldl (fun s i => sendFlit s x (f i)) s = { s with basin := b, agenda := a } := by
  induction l generalizing s with
  | nil => exact ⟨_, _, rfl⟩
  | cons i r ih =>
    obtain ⟨b, a, h⟩ := sendFlit_frame s x (f i)
    obtain ⟨b', a', h'⟩ := ih (s.sendFlit x (f i))
    exact ⟨b', a', by rw [List.foldl_cons, h', h]⟩

/-- A message to another pound stands in flits, which come up on the agenda, and changes nothing else. -/
theorem sendMsg_frame (x y : Nat) (resp : Bool) (bytes : Nat) (p : Parcel) (h : x ≠ y) :
    ∃ b a, s.sendMsg x y resp bytes p = { s with basin := b, agenda := a } := by
  rw [sendMsg, if_neg h]
  exact sendFlits_frame (s.modBasin (fun b => { b with msgs := b.msgs + 1 })) x _ _

/-- One that is kept until it has arrived: at its own pound it comes up at once. -/
theorem sendSure_frame (x y : Nat) (resp : Bool) (bytes : Nat) (a : Activity) :
    ∃ b l u r, s.sendSure x y resp bytes a = { s with basin := b, agenda := l, nextUid := u, sures := r } := by
  unfold sendSure
  split
  · exact ⟨_, _, _, _, rfl⟩
  · rename_i h
    obtain ⟨b, l, h'⟩ := sendMsg_frame { s.fresh.2 with sures := s.fresh.2.sures ++ [⟨s.fresh.1, x, y, resp, bytes, a, s.fresh.2.basin.time.toNat⟩] }
      x y resp bytes (.sure s.fresh.1) h
    exact ⟨b, l, _, _, h'⟩

end Sys2Proof.Machine.State
end

