-- ==== Sys2Proof/Laws/Results.lean ====
section
/-! SUPPORT. What the shared ways of writing a result leave: one lemma each, in the words of `Safety`. -/

namespace Sys2Proof.Machine

open Sys2Proof

/-! ### Lane masks -/

theorem lt_of_getLsbD {w : Nat} {m : BitVec w} {l : Nat} (h : m.getLsbD l = true) : l < w := by
  by_contra hl
  rw [BitVec.getLsbD_of_ge _ _ (by omega)] at h
  exact Bool.noConfusion h

@[simp] theorem mem_lanesOf (m : DWord) (l : Nat) : l ∈ lanesOf m ↔ m.getLsbD l = true := by
  unfold lanesOf
  rw [List.mem_filter, List.mem_range]
  exact ⟨fun h => h.2, fun h => ⟨lt_of_getLsbD h, h⟩⟩

theorem lanesOf_nodup (m : DWord) : (lanesOf m).Nodup := List.Nodup.filter _ List.nodup_range

theorem lanesOf_isEmpty (m : DWord) : (lanesOf m).isEmpty = (m == 0) := by
  rw [Bool.eq_iff_iff, List.isEmpty_iff, beq_iff_eq]
  refine ⟨fun h => ?_, fun h => by subst h; rfl⟩
  apply BitVec.eq_of_getLsbD_eq
  intro i _
  have : i ∉ lanesOf m := by rw [h]; exact List.not_mem_nil
  rw [mem_lanesOf] at this
  simpa using this

theorem getLsbD_foldl_laneBit (ls : List Nat) (m : DWord) (l : Nat) (hl : l < 64) :
    (ls.foldl (fun m l => m ||| laneBit l) m).getLsbD l = (m.getLsbD l || decide (l ∈ ls)) := by
  induction ls generalizing m with
  | nil => simp
  | cons x r ih =>
    rw [List.foldl_cons, ih, BitVec.getLsbD_or, laneBit, BitVec.getLsbD_twoPow, Bool.or_assoc]
    congr 1
    by_cases h : x = l
    · subst h; simp [hl]
    · have h' : l ≠ x := fun e => h e.symm
      simp [h, h']

theorem getLsbD_maskOf (ls : List Nat) (l : Nat) : (maskOf ls).getLsbD l = (decide (l < 64) && decide (l ∈ ls)) := by
  by_cases hl : l < 64
  · unfold maskOf; rw [getLsbD_foldl_laneBit _ _ _ hl]; simp [hl]
  · rw [BitVec.getLsbD_of_ge _ _ (by omega)]; simp [hl]

/-! ### Registers -/

theorem vr_setV (g : Group) (n l r k : Nat) (x : Word) (hl : l < 64) (hk : k < 64) :
    (g.setV n l x).vr r k = if r = n ∧ k = l then x else g.vr r k := by
  unfold Group.vr Group.setV
  rw [Table.get_set_ite]
  congr 1
  apply propext
  constructor
  · intro h; constructor <;> omega
  · rintro ⟨rfl, rfl⟩; rfl

theorem sr_setS (g : Group) (n r : Nat) (x : Word) : (g.setS n x).sr r = if r = n then x else g.sr r := by
  unfold Group.sr Group.setS
  rw [Table.get_set_ite]

theorem low_eq (x : DWord) : x.setWidth 32 = x.extractLsb' 0 32 := by
  apply BitVec.eq_of_getLsbD_eq; intro i h; simp [h]

/-- What a register write in a lane can do: V and S registers alone change. -/
theorem putReg_frame (g : Group) (d : Operand) (wide : Bool) (l : Nat) (x : DWord) :
    State.putReg g d wide l x = { g with v := (State.putReg g d wide l x).v, s := (State.putReg g d wide l x).s } := by
  unfold State.putReg
  cases d <;> simp only
  · split <;> rfl
  · split <;> rfl

theorem putReg_v_s (g : Group) (n : Fin 192) (wide : Bool) (l : Nat) (x : DWord) :
    (State.putReg g (.v n) wide l x).s = g.s := by
  unfold State.putReg; simp only; split <;> rfl

theorem putReg_s_v (g : Group) (n : Fin 32) (wide : Bool) (l : Nat) (x : DWord) :
    (State.putReg g (.s n) wide l x).v = g.v := by
  unfold State.putReg; simp only; split <;> rfl

theorem vr_putReg (g : Group) (n : Fin 192) (wide : Bool) (l r k : Nat) (x : DWord) (hl : l < 64) (hk : k < 64) :
    (State.putReg g (.v n) wide l x).vr r k =
      if k ≠ l then g.vr r k
      else if r = n.val then x.extractLsb' 0 32
      else if wide ∧ r = n.val + 1 then x.extractLsb' 32 32
      else g.vr r k := by
  unfold State.putReg
  simp only
  cases wide
  · rw [if_neg (by simp), vr_setV _ _ _ _ _ _ hl hk, low_eq]
    by_cases h : k = l <;> by_cases h' : r = n.val <;> simp [h, h']
  · rw [if_pos rfl, vr_setV _ _ _ _ _ _ hl hk, vr_setV _ _ _ _ _ _ hl hk, low_eq]
    by_cases h : k = l <;> by_cases h' : r = n.val <;> by_cases h'' : r = n.val + 1 <;> simp [h, h', h'']

theorem sr_putReg (g : Group) (n : Fin 32) (wide : Bool) (l r : Nat) (x : DWord) :
    (State.putReg g (.s n) wide l x).sr r =
      if r = n.val then x.extractLsb' 0 32
      else if wide ∧ r = n.val + 1 then x.extractLsb' 32 32
      else g.sr r := by
  unfold State.putReg
  simp only
  cases wide
  · rw [if_neg (by simp), sr_setS, low_eq]; simp
  · rw [if_pos rfl, Group.setPair, sr_setS, sr_setS, low_eq]
    by_cases h' : r = n.val <;> by_cases h'' : r = n.val + 1 <;> simp [h', h'']

/-- Register writes in the lanes of a list, one after the other. -/
def putLanes (g : Group) (d : Operand) (wide : Bool) (ls : List Nat) (f : Nat → DWord) : Group :=
  ls.foldl (fun g l => State.putReg g d wide l (f l)) g

theorem putLanes_frame (g : Group) (d : Operand) (wide : Bool) (ls : List Nat) (f : Nat → DWord) :
    putLanes g d wide ls f = { g with v := (putLanes g d wide ls f).v, s := (putLanes g d wide ls f).s } := by
  unfold putLanes
  induction ls generalizing g with
  | nil => rfl
  | cons l r ih =>
    rw [List.foldl_cons, ih, putReg_frame]

theorem putLanes_v_s (g : Group) (n : Fin 192) (wide : Bool) (ls : List Nat) (f : Nat → DWord) :
    (putLanes g (.v n) wide ls f).s = g.s := by
  unfold putLanes
  induction ls generalizing g with
  | nil => rfl
  | cons l r ih => rw [List.foldl_cons, ih, putReg_v_s]

theorem vr_putLanes (g : Group) (n : Fin 192) (wide : Bool) (ls : List Nat) (f : Nat → DWord) (r k : Nat)
    (hls : ∀ l ∈ ls, l < 64) (hk : k < 64) :
    (putLanes g (.v n) wide ls f).vr r k =
      if k ∉ ls then g.vr r k
      else if r = n.val then (f k).extractLsb' 0 32
      else if wide ∧ r = n.val + 1 then (f k).extractLsb' 32 32
      else g.vr r k := by
  unfold putLanes
  induction ls generalizing g with
  | nil => simp
  | cons l t ih =>
    rw [List.foldl_cons, ih _ (fun x hx => hls x (List.mem_cons_of_mem _ hx)),
      vr_putReg _ _ _ _ _ _ _ (hls l (List.mem_cons_self ..)) hk]
    by_cases h2 : k = l
    · subst h2
      by_cases h1 : k ∈ t
      · simp only [h1, not_true, if_false, List.mem_cons, true_or, ne_eq]
        split
        · rfl
        · split <;> rfl
      · simp [h1]
    · simp [h2]

/-! ### Frames -/

theorem group_setG_cases (s : State) (g : Group) (k : Nat) : (s.setG g).group k = if k = s.cur then g else s.group k := by
  unfold State.setG State.setGroup State.group
  rw [Table.get_set_ite]

/-- A write of the acting group's record leaves the rest. -/
theorem groupOnly_setG (s : State) (g : Group) (i : Issue) : GroupOnly s { s.setG g with iss := i } :=
  ⟨rfl, fun k hk => by
    show (s.setG g).group k = _
    rw [group_setG_cases, if_neg hk], fun _ => rfl⟩

theorem setG_iss (s : State) (g : Group) : { s.setG g with iss := s.iss } = s.setG g := rfl

theorem g_setG' (s : State) (g : Group) (i : Issue) : ({ s.setG g with iss := i } : State).g = g := by
  show (s.setG g).group s.cur = g
  rw [group_setG_cases, if_pos rfl]

/-! ### Results -/

/-- A scalar-class result (R73). -/
theorem scalarResult_written (s : State) (n : Fin 32) (wide : Bool) (x : DWord) :
    ScalarWritten s (s.scalarResult (.s n) wide x) (.s n) wide x := by
  have hg : (s.scalarResult (.s n) wide x).g = State.putReg s.g (.s n) wide 0 x := g_setG' s _ s.iss
  refine ⟨⟨groupOnly_setG s _ s.iss, ?_⟩, rfl, fun r => ?_, ?_⟩
  · rw [hg]; exact putReg_frame ..
  · rw [hg]; exact sr_putReg ..
  · rw [hg]; exact putReg_s_v ..

theorem laneResult_group (s : State) (w : Bool) (d : Operand) (wide : Bool) (f : Nat → DWord) :
    (s.laneResult w d wide f).g =
      if w then s.g else putLanes s.g d wide ((lanesOf s.iss.mask).filter (fun l => s.guarded.getLsbD l)) f :=
  g_setG' s _ _

theorem guarded_mask (s : State) (l : Nat) (h : s.guarded.getLsbD l = true) : s.iss.mask.getLsbD l = true := by
  unfold State.guarded at h
  rw [BitVec.getLsbD_and, Bool.and_eq_true] at h
  exact h.1

theorem laneResult_latch (s : State) (w : Bool) (d : Operand) (wide : Bool) (f : Nat → DWord) :
    LatchTaken s (s.laneResult w d wide f) f := by
  refine ⟨?_, fun l hl => ?_⟩
  · show Issue.mk .. = _
    simp only [State.laneResult, lanesOf_isEmpty, bne]
  · show (List.foldl _ s.iss.l0 (lanesOf s.iss.mask)).get l 0 = _
    by_cases h : s.iss.mask.getLsbD l = true
    · rw [if_neg (by simp [h])]
      rw [Table.get_foldl_set (lanesOf s.iss.mask) (fun l => l)
        (fun l => if s.guarded.getLsbD l then (f l).setWidth 32 else 0) s.iss.l0 l 0 ((mem_lanesOf ..).2 h)
        (fun _ _ _ _ e => e), low_eq]
    · rw [if_pos (by simpa using h), Table.get_foldl_set_ne (lanesOf s.iss.mask) (fun l => l)]
      intro b hb e
      subst e
      exact h ((mem_lanesOf ..).1 hb)

/-- A lane result (R40, R75). -/
theorem laneResult_written (s : State) (w : Bool) (n : Fin 192) (wide : Bool) (f : Nat → DWord) :
    LaneWritten s (s.laneResult w (.v n) wide f) w (.v n) wide f := by
  have hg := laneResult_group s w (.v n) wide f
  refine ⟨⟨groupOnly_setG s _ _, ?_⟩, laneResult_latch .., ?_, fun r l hl => ?_⟩
  · rw [hg]; split
    · rfl
    · exact putLanes_frame ..
  · rw [hg]; split
    · rfl
    · exact putLanes_v_s ..
  · rw [hg]
    cases w
    · simp only [Bool.false_eq_true, if_false]
      rw [vr_putLanes _ _ _ _ _ _ _ (fun l h => lt_of_getLsbD ((mem_lanesOf ..).1 (List.mem_filter.1 h).1)) hl]
      have : (l ∉ (lanesOf s.iss.mask).filter (fun l => s.guarded.getLsbD l)) ↔ s.guarded.getLsbD l = false := by
        rw [List.mem_filter, mem_lanesOf]
        cases h : s.guarded.getLsbD l
        · simp
        · simp [guarded_mask s l h]
      simp only [this]
    · simp

/-- With W = 1 nothing but the latches takes a lane result (R54). -/
theorem laneResult_latch_only (s : State) (d : Operand) (wide : Bool) (f : Nat → DWord) :
    LaneWritten s (s.laneResult true d wide f) true d wide f := by
  have hg : (s.laneResult true d wide f).g = s.g := laneResult_group s true d wide f
  refine ⟨⟨groupOnly_setG s _ _, ?_⟩, laneResult_latch .., ?_, fun r l hl => ?_⟩
  · rw [hg]
  · rw [hg]
  · rw [hg]
    cases d <;> simp

/-- A result by class (R51), of a V or S destination. -/
theorem result_written (s : State) (w : Bool) (d : Operand) (wide : Bool) (f : Nat → DWord)
    (hd : d.isV = true ∨ d.isS = true) : Written s (s.result w d wide f) w d wide f := by
  unfold Written State.result
  cases w
  · cases d <;> simp [Operand.isV, Operand.isS] at hd
    · exact laneResult_written ..
    · exact scalarResult_written ..
  · exact laneResult_latch_only ..

theorem getLsbD_setPred (m x old : DWord) (l : Nat) :
    ((old &&& ~~~m) ||| (x &&& m)).getLsbD l = if m.getLsbD l then x.getLsbD l else old.getLsbD l := by
  by_cases hl : l < 64
  · simp only [BitVec.getLsbD_or, BitVec.getLsbD_and, BitVec.getLsbD_not, hl, decide_true, Bool.true_and]
    cases m.getLsbD l <;> simp
  · rw [BitVec.getLsbD_of_ge _ _ (by omega), BitVec.getLsbD_of_ge m _ (by omega), BitVec.getLsbD_of_ge old _ (by omega)]
    simp

/-- A predicate result (R79, R80). -/
theorem predResult_written (s : State) (d : Operand) (f : Nat → Bool) : PredWritten s (s.predResult d f) d f := by
  cases d
  case p k =>
    have hg : (s.predResult (.p k) f).g = s.g.setPred k.val s.guarded (maskOf ((lanesOf s.guarded).filter f)) :=
      g_setG' s _ s.iss
    refine ⟨groupOnly_setG s _ s.iss, rfl, ?_, fun n l => ?_⟩
    · rw [hg]; unfold Group.setPred; split <;> rfl
    · rw [hg]
      by_cases hn : n < 7 ∧ n = k.val
      · obtain ⟨h7, rfl⟩ := hn
        have e : (Operand.p k = Operand.p (Fin.ofNat 8 k.val)) := by
          congr 1; apply Fin.ext; simp [Fin.ofNat, Nat.mod_eq_of_lt k.isLt]
        unfold Group.setPred Group.pred
        rw [if_neg (by omega)]
        simp only [Table.get_set, getLsbD_setPred, getLsbD_maskOf, List.mem_filter, mem_lanesOf]
        have hne : (k.val == 7) = false := by simp; omega
        cases h : s.guarded.getLsbD l
        · simp
        · have := lt_of_getLsbD h
          simp [hne, this, h7]
      · have : ¬ (Operand.p k = Operand.p (Fin.ofNat 8 n) ∧ n < 7 ∧ s.guarded.getLsbD l = true) := by
          rintro ⟨e, h7, _⟩
          apply hn
          refine ⟨h7, ?_⟩
          injection e with e
          rw [e]; simp [Fin.ofNat]; omega
        rw [if_neg this]
        unfold Group.setPred Group.pred
        split
        · rfl
        · rename_i hk
          by_cases h7 : n = 7
          · simp [h7]
          · have hne : n ≠ k.val := by
              intro e; apply hn; exact ⟨by have := k.isLt; omega, e⟩
            simp only [Table.get_set_ne _ _ _ _ _ hne]
  all_goals exact ⟨⟨rfl, fun _ _ => rfl, fun _ => rfl⟩, rfl, rfl, fun n l => by simp [State.predResult]⟩

end Sys2Proof.Machine
end

