-- ==== Sys2Proof/Laws/Traps.lean ====
section
/-! SUPPORT. Taking a trap and returning from one: what they leave (R119 to R125). -/

namespace Sys2Proof.Machine

open Sys2Proof

theorem setG_setG (s : State) (g g' : Group) : ((s.setG g).setG g').groups = ((s.groups.set s.cur g).set s.cur g') := rfl

/-- The halves of a fetch address that X5 and X6 hold (R61). -/
theorem address_low (a : Nat) : BitVec.ofNat 32 (a % 2 ^ 48) = BitVec.ofNat 32 a := by
  apply BitVec.eq_of_toNat_eq
  simp only [BitVec.toNat_ofNat]
  omega

theorem address_high (a : Nat) : BitVec.ofNat 32 (a % 2 ^ 48 / 2 ^ 32) = BitVec.ofNat 32 (a / 2 ^ 32 % 2 ^ 16) := by
  congr 1
  omega

/-- A precise trap of a group that may enter its handler (R119 to R122). -/
theorem trapAt_taken (s : State) (h : Off) (kind field x7hi : Nat) (mask : DWord) (hc : canTrap s h) :
    TrapTaken s (s.trapAt kind field mask x7hi) h kind field x7hi mask := by
  obtain ⟨hh, hf, hr⟩ := hc
  have hg : ∀ xs : List Word, (s.takeTrap xs).g = { s.g with
      frame := some ⟨s.g.offset, s.g.exec, s.g.nest, s.g.plane, s.g.joins⟩
      x := (List.range 8).foldl (fun t i => t.set i (xs.getD i 0)) s.g.x, latValid := 0, nest := [], joins := [],
      offset := h, faults := none, pendX := [], dying := false, recs := [], replays := [], wait := .ready } := by
    intro xs
    unfold State.takeTrap
    simp only [hf, hh, Option.isSome_none, Option.isNone_some, Bool.or_self, Bool.false_eq_true, if_false, hr]
    unfold State.finishTrap
    simp only [State.g_setG, List.isEmpty_nil, if_true, Bool.false_eq_true, if_false]
    unfold State.enterHandler
    show (State.setG _ _).g = _
    simp only [State.g_setG]
  have ht : ∀ xs : List Word, ∃ a b, s.takeTrap xs =
      { (s.setG a).setG b with iss := { s.iss with moved := true, trapped := true } } := by
    intro xs
    unfold State.takeTrap
    simp only [hf, hh, Option.isSome_none, Option.isNone_some, Bool.or_self, Bool.false_eq_true, if_false, hr]
    unfold State.finishTrap
    simp only [State.g_setG, List.isEmpty_nil, if_true, Bool.false_eq_true, if_false]
    unfold State.enterHandler
    exact ⟨_, _, rfl⟩
  have hx : ∀ (xs : List Word) (t : Table Word) (n : Nat), n < 8 →
      ((List.range 8).foldl (fun t i => t.set i (xs.getD i 0)) t).get n 0 = xs.getD n 0 := by
    intro xs t n hn
    exact Table.get_foldl_set (List.range 8) (fun i => i) (fun i => xs.getD i 0) t n 0 (List.mem_range.2 hn) (fun _ _ _ _ e => e)
  refine ⟨?_, ?_, ?_, ?_⟩
  · obtain ⟨a, b, e⟩ := ht (State.trapX kind field (s.iss.word.toNat / 2 ^ 25) s.iss.word.toNat s.g.offset mask
      (State.fetchAddr s.g (State.lowPlane s.iss.planes) s.g.offset % 2 ^ 48) x7hi s.iss.planes (State.lowPlane s.iss.planes))
    show GroupOnly s (s.takeTrap _)
    rw [e]
    refine ⟨rfl, fun k hk => ?_, fun _ => rfl⟩
    show ((s.setG a).setG b).group k = _
    have hk' : k ≠ (s.setG a).cur := hk
    rw [group_setG_cases, if_neg hk', group_setG_cases, if_neg hk]
  · obtain ⟨a, b, e⟩ := ht (State.trapX kind field (s.iss.word.toNat / 2 ^ 25) s.iss.word.toNat s.g.offset mask
      (State.fetchAddr s.g (State.lowPlane s.iss.planes) s.g.offset % 2 ^ 48) x7hi s.iss.planes (State.lowPlane s.iss.planes))
    show (s.takeTrap _).iss = _
    rw [e]
  · have ex : (s.trapAt kind field mask x7hi).g.x = (List.range 8).foldl (fun t i => t.set i ((State.trapX kind field
        (s.iss.word.toNat / 2 ^ 25) s.iss.word.toNat s.g.offset mask
        (State.fetchAddr s.g (State.lowPlane s.iss.planes) s.g.offset % 2 ^ 48) x7hi s.iss.planes (State.lowPlane s.iss.planes)).getD i 0)) s.g.x := by
      show (s.takeTrap _).g.x = _
      rw [hg]
    rw [ex]
    exact hg _
  · have ex : (s.trapAt kind field mask x7hi).g.x = (List.range 8).foldl (fun t i => t.set i ((State.trapX kind field
        (s.iss.word.toNat / 2 ^ 25) s.iss.word.toNat s.g.offset mask
        (State.fetchAddr s.g (State.lowPlane s.iss.planes) s.g.offset % 2 ^ 48) x7hi s.iss.planes (State.lowPlane s.iss.planes)).getD i 0)) s.g.x := by
      show (s.takeTrap _).g.x = _
      rw [hg]
    rw [ex]
    simp only [hx _ _ _ (show 0 < 8 by omega), hx _ _ _ (show 1 < 8 by omega), hx _ _ _ (show 2 < 8 by omega),
      hx _ _ _ (show 3 < 8 by omega), hx _ _ _ (show 4 < 8 by omega), hx _ _ _ (show 5 < 8 by omega),
      hx _ _ _ (show 6 < 8 by omega), hx _ _ _ (show 7 < 8 by omega)]
    exact ⟨rfl, rfl, rfl, low_eq mask, rfl, address_low _, address_high _, rfl⟩

/-- The offset set (R107, R108). -/
theorem jump_jumped (s : State) (o : Off) : Jumped s (s.jump o) o :=
  ⟨groupOnly_setG s _ _, rfl, g_setG' s _ _⟩

/-- The offset set after a change of the acting group's record. -/
theorem setG_jump (s : State) (g : Group) (o : Off) :
    GroupOnly s ((s.setG g).jump o) ∧ ((s.setG g).jump o).iss = { s.iss with moved := true } ∧
      ((s.setG g).jump o).g = { g with offset := o } := by
  have h1 := jump_jumped (s.setG g) o
  refine ⟨⟨rfl, fun k hk => ?_, fun _ => rfl⟩, rfl, ?_⟩
  · rw [h1.1.2.1 k hk, group_setG_cases, if_neg hk]
  · rw [h1.2.2]
    show { (s.setG g).g with offset := o } = _
    simp only [State.g_setG]

end Sys2Proof.Machine
end

