-- ==== Sys2Proof/Laws/WellFormed.lean ====
section
/-! SUPPORT. What the operands of a well-formed instruction can be (R50, R51, R54). -/

namespace Sys2Proof

/-- A well-formed instruction passes each of the four checks (R61). -/
theorem wf_checks (i : Instr) (h : i.wf = true) :
    i.badCounter = false ∧ i.view.dZero = true ∧ i.view.badClass = none ∧ i.badRange = none := by
  revert h
  unfold Instr.wf Instr.illegal
  cases i.badCounter <;> cases i.view.dZero <;> cases i.view.badClass <;> cases i.badRange <;> simp

/-- No operand stands in a wrong class exactly where D's and both sources' classes are right (R50). -/
theorem badClass_none (v : View) : v.badClass = none ↔ v.dClass = true ∧ v.srcClass v.a = true ∧ v.srcClass v.b = true := by
  unfold View.badClass
  cases v.dClass <;> cases v.srcClass v.a <;> cases v.srcClass v.b <;> simp

theorem wf_srcs (i : Instr) (h : i.wf = true) : i.view.srcClass i.view.a = true ∧ i.view.srcClass i.view.b = true :=
  ((badClass_none _).mp (wf_checks i h).2.2.1).2

/-- The D field of a well-formed instruction: its class, or code 0x00 where W = 1 makes it a zero field (R54). -/
theorem wf_d (i : Instr) (h : i.wf = true) (c : OpClass) (d : Operand) (hv : i.view.d = some (c, d)) :
    c.accepts d = true ∨ (i.view.w = true ∧ i.view.readsD = false ∧ d = .v 0) := by
  have class' : i.view.dClass = true := ((badClass_none _).mp (wf_checks i h).2.2.1).1
  have zero := (wf_checks i h).2.1
  simp only [View.dClass, View.dZero, hv] at class' zero
  cases w : i.view.w <;> cases r : i.view.readsD <;> simp_all

/-- A dst field names a V or an S register (R50). -/
theorem wf_dst (i : Instr) (h : i.wf = true) (d : Operand) (hv : i.view.d = some (.dst, d)) : d.isV = true ∨ d.isS = true :=
  match wf_d i h _ d hv with
  | .inl c => by simpa [OpClass.accepts] using c
  | .inr c => .inl (c.2.2 ▸ rfl)

/-- A vdst field names a V register (R50). -/
theorem wf_vdst (i : Instr) (h : i.wf = true) (d : Operand) (hv : i.view.d = some (.vdst, d)) : d.isV = true :=
  match wf_d i h _ d hv with
  | .inl c => by simpa [OpClass.accepts] using c
  | .inr c => c.2.2 ▸ rfl

end Sys2Proof
end

