-- ==== Sys2Proof/Tests/Slice0.lean ====
section
/-! SUPPORT. Tests of the model: decoding, the checks of well-formedness, single instructions and events on small states,
and for every statement a state and operands that meet its hypotheses. -/

namespace Sys2Proof.Tests

open Sys2Proof Sys2Proof.Machine

set_option Elab.async false

/-! ### Decoding (R46, R49, R56, R279, R280): words written out from the encodings -/

def reads (ws : List (Word × Instr)) : Bool :=
  ws.all (fun p => match decodeCore p.1 with
    | .ok i => decide (i = p.2)
    | .error _ => false)

def readsHenat (ws : List (DWord × Instr)) : Bool :=
  ws.all (fun p => match decodeHenat p.1 with
    | .ok i => decide (i = p.2)
    | .error _ => false)

/-- Words of R56's map, nop to tbar, their fields at the bits of R46 with the codes of R49. -/
theorem test_decode_nop_to_tbar : reads [
    (0x00000000, .nop),
    (0x0200BEEF, .modelo 0xBEEF),
    (0x0400BEEF, .modehi 0xBEEF),
    (0x06DB0000, .moder (.s 27)),
    (0x08A5F00F, .br 0xA5F00F),
    (0x0AA5A3C6, .brx 0xA5A 0x3C6),
    (0x0CA5F00F, .call 0xA5F00F),
    (0x0E000000, .ret),
    (0x1000FD00, .jmps (.x 5)),
    (0x12A5F00F, .cIf 0xA5F00F),
    (0x14A5F00F, .cElse 0xA5F00F),
    (0x16000000, .cEndif),
    (0x18EDBEEF, .yield (.h 5) 0xBEEF),
    (0x1A00000B, .tbar 0xB)] = true := by decide +kernel

/-- Words of R56's map, trap to pcnt, their fields at the bits of R46 with the codes of R49. -/
theorem test_decode_trap_to_pcnt : reads [
    (0x1C00009A, .trap 0x9A),
    (0x1E000001, .tret 0x1),
    (0x20000000, .exit),
    (0x22000006, .plset 0x6),
    (0x2400E200, .plsetv (.l 2)),
    (0x26BF0000, .plget (.v 191)),
    (0x2800DC00, .execw (.s 28)),
    (0x2ACE0000, .execr (.s 14)),
    (0x2C400000, .nestr (.v 64)),
    (0x2E000009, .grow 0x9),
    (0x30000007, .shrink 0x7),
    (0x32F50900, .vtop (.p 5) (.v 9)),
    (0x34BFF200, .ptov (.v 191) (.p 2)),
    (0x36DFF700, .pcnt (.s 31) (.p 7))] = true := by decide +kernel

/-- Words of R56's map, wbid to ishl, their fields at the bits of R46 with the codes of R49. -/
theorem test_decode_wbid_to_ishl : reads [
    (0x38EADE2D, .wbid (.h 2) (.s 30) 0x2D),
    (0x3ADC003E, .wres (.s 28) 0x3E),
    (0x3C000021, .wrel 0x21),
    (0x3ECE000D, .cntr (.s 14) 0xD),
    (0x4100FBD1, .iadd true (.v 0) (.x 3) (.s 17)),
    (0x4205E4E5, .isub false (.v 5) .lane .zero),
    (0x4500EEE2, .imul true (.v 0) (.h 6) (.l 2)),
    (0x468309FB, .imulh false (.v 131) (.v 9) (.x 3)),
    (0x4900D1E4, .imulhn true (.v 0) (.s 17) .lane),
    (0x4ABEE5EE, .imad false (.v 190) .zero (.h 6)),
    (0x4D00E209, .iand true (.v 0) (.l 2) (.v 9)),
    (0x4E05FBD1, .ior false (.v 5) (.x 3) (.s 17)),
    (0x5100E4E5, .ixor true (.v 0) .lane .zero),
    (0x5283EEE2, .ishl false (.v 131) (.h 6) (.l 2))] = true := by decide +kernel

/-- Words of R56's map, ishr to sext16, their fields at the bits of R46 with the codes of R49. -/
theorem test_decode_ishr_to_sext16 : reads [
    (0x550009FB, .ishr true (.v 0) (.v 9) (.x 3)),
    (0x56BED1E4, .isar false (.v 190) (.s 17) .lane),
    (0x5900E5EE, .imin true (.v 0) .zero (.h 6)),
    (0x5A05E209, .imax false (.v 5) (.l 2) (.v 9)),
    (0x5D00FBD1, .iminn true (.v 0) (.x 3) (.s 17)),
    (0x5E83E4E5, .imaxn false (.v 131) .lane .zero),
    (0x6100EE00, .inot true (.v 0) (.h 6)),
    (0x60BEE201, .ineg false (.v 190) (.l 2)),
    (0x61000902, .iabs true (.v 0) (.v 9)),
    (0x6005FB03, .popc false (.v 5) (.x 3)),
    (0x6100D104, .clz true (.v 0) (.s 17)),
    (0x6083E405, .brev false (.v 131) .lane),
    (0x6100E506, .sext8 true (.v 0) .zero),
    (0x60BEEE07, .sext16 false (.v 190) (.h 6))] = true := by decide +kernel

/-- Words of R56's map, iaddi to rotate, their fields at the bits of R46 with the codes of R49. -/
theorem test_decode_iaddi_to_rotate : reads [
    (0x6300E29A, .iaddi true (.v 0) (.l 2) 0x9A),
    (0x6405091D, .ishli false (.v 5) (.v 9) 0x1D),
    (0x6700FB12, .ishri true (.v 0) (.x 3) 0x12),
    (0x6883D11E, .isari false (.v 131) (.s 17) 0x1E),
    (0x6B00E49A, .iandi true (.v 0) .lane 0x9A),
    (0x6CBEBEEF, .movi false (.v 190) 0xBEEF),
    (0x6F83BEEF, .movhi true (.v 131) 0xBEEF),
    (0x7005BEEF, .movsi false (.v 5) 0xBEEF),
    (0x72EDD800, .mloop (.h 5) (.s 24)),
    (0x74EAC800, .mvec (.h 2) (.s 8)),
    (0x76ED0005, .mzero (.h 5) 0x5),
    (0x78EAD800, .mstore (.h 2) (.s 24)),
    (0x7AEDDCEF, .xst (.h 5) (.s 28) (.h 7)),
    (0x7CEAC800, .rotate (.h 2) (.s 8))] = true := by decide +kernel

/-- Words of R56's map, copen to por, their fields at the bits of R46 with the codes of R49. -/
theorem test_decode_copen_to_por : reads [
    (0x7EEDD800, .copen (.h 5) (.s 24)),
    (0x80F5E5EE, .icmpeq (.p 5) .zero (.h 6)),
    (0x82F2E209, .icmpne (.p 2) (.l 2) (.v 9)),
    (0x84F7FBD1, .icmplt (.p 7) (.x 3) (.s 17)),
    (0x86F5E4E5, .icmple (.p 5) .lane .zero),
    (0x88F2EEE2, .icmpltn (.p 2) (.h 6) (.l 2)),
    (0x8AF709FB, .icmplen (.p 7) (.v 9) (.x 3)),
    (0x8CF5D1E4, .fcmpeq (.p 5) (.s 17) .lane),
    (0x8EF2E5EE, .fcmpne (.p 2) .zero (.h 6)),
    (0x90F7E209, .fcmplt (.p 7) (.l 2) (.v 9)),
    (0x92F5FBD1, .fcmple (.p 5) (.x 3) (.s 17)),
    (0x94F2E4E5, .fcmpun (.p 2) .lane .zero),
    (0x96F7F5F2, .pand (.p 7) (.p 5) (.p 2)),
    (0x98F7F5F2, .por (.p 7) (.p 5) (.p 2))] = true := by decide +kernel

/-- Words of R56's map, pxor to fsqrt, their fields at the bits of R46 with the codes of R49. -/
theorem test_decode_pxor_to_fsqrt : reads [
    (0x9AF7F5F2, .pxor (.p 7) (.p 5) (.p 2)),
    (0x9CF7F5F2, .pandn (.p 7) (.p 5) (.p 2)),
    (0x9F00EEE2, .sel true (.v 0) (.h 6) (.l 2)),
    (0xA08309FB, .fadd false (.v 131) (.v 9) (.x 3)),
    (0xA300D1E4, .fsub true (.v 0) (.s 17) .lane),
    (0xA4BEE5EE, .fmul false (.v 190) .zero (.h 6)),
    (0xA783E209, .ffma true (.v 131) (.l 2) (.v 9)),
    (0xA805FBD1, .fmin false (.v 5) (.x 3) (.s 17)),
    (0xAB00E4E5, .fmax true (.v 0) .lane .zero),
    (0xAC83EE00, .fabs false (.v 131) (.h 6)),
    (0xAD00E201, .fneg true (.v 0) (.l 2)),
    (0xACBE0902, .frcp false (.v 190) (.v 9)),
    (0xAD00FB03, .frsq true (.v 0) (.x 3)),
    (0xAC05D104, .fsqrt false (.v 5) (.s 17))] = true := by decide +kernel

/-- Words of R56's map, fexp2 to chkwait, their fields at the bits of R46 with the codes of R49. -/
theorem test_decode_fexp2_to_chkwait : reads [
    (0xAD00E405, .fexp2 true (.v 0) .lane),
    (0xAC83E506, .flog2 false (.v 131) .zero),
    (0xAD00EE07, .ffloor true (.v 0) (.h 6)),
    (0xACBEE208, .fceil false (.v 190) (.l 2)),
    (0xAD000909, .ftrunc true (.v 0) (.v 9)),
    (0xAC05FB0A, .frint false (.v 5) (.x 3)),
    (0xAF00D103, .cvt true (.v 0) (.s 17) 0x3),
    (0xB083E4E5, .fscale false (.v 131) .lane .zero),
    (0xB300EE00, .fclass true (.v 0) (.h 6)),
    (0xB4F7EA00, .htest (.p 7) (.h 2)),
    (0xB600ED00, .hcancel (.h 5)),
    (0xB8DBEA00, .hmov (.s 27) (.h 2)),
    (0xBAF5EDCE, .chktest (.p 5) (.h 5) (.s 14)),
    (0xBC00EADC, .chkwait (.h 2) (.s 28))] = true := by decide +kernel

/-- Words of R56's map, time to redfmax, their fields at the bits of R46 with the codes of R49. -/
theorem test_decode_time_to_redfmax : reads [
    (0xBECE0000, .time (.s 14)),
    (0xC040E209, .perm false (.v 64) (.l 2) (.v 9)),
    (0xC300FB00, .vidx true (.v 0) (.x 3)),
    (0xC4E3D100, .vidxw (.l 3) (.s 17)),
    (0xC640E425, .bcast false (.v 64) .lane 0x25),
    (0xC8DF6425, .vread (.s 31) (.v 100) 0x25),
    (0xCABFFD25, .vwrite (.v 191) (.x 5) 0x25),
    (0xCD00E300, .rediadd true (.v 0) (.l 3)),
    (0xCCBF6401, .redimax false (.v 191) (.v 100)),
    (0xCD00E302, .redimin true (.v 0) (.l 3)),
    (0xCCBF6403, .redimaxn false (.v 191) (.v 100)),
    (0xCD00E304, .rediminn true (.v 0) (.l 3)),
    (0xCEBF6400, .redfadd false (.v 191) (.v 100)),
    (0xCF00E301, .redfmax true (.v 0) (.l 3))] = true := by decide +kernel

/-- Words of R56's map, redfmin to amin, their fields at the bits of R46 with the codes of R49. -/
theorem test_decode_redfmin_to_amin : reads [
    (0xCEBF6402, .redfmin false (.v 191) (.v 100)),
    (0xD0BE4D9A, .ldl (.v 190) (.v 77) 0x9A),
    (0xD2E5CD9A, .stl .zero (.s 13) 0x9A),
    (0xD4834D9A, .ldlf (.v 131) (.v 77) 0x9A),
    (0xD6EECD9A, .stle (.h 6) (.s 13) 0x9A),
    (0xD8054D9A, .ldlp (.v 5) (.v 77) 0x9A),
    (0xDADECD00, .feset (.s 30) (.s 13) false),
    (0xDDBE4D9A, .aladd true (.v 190) (.v 77) 0x9A),
    (0xDE83CD9A, .alcas false (.v 131) (.s 13) 0x9A),
    (0xE005DC28, .ldg (.v 5) (.s 28) (.v 40)),
    (0xE2E2CEE5, .stg (.l 2) (.s 14) .zero),
    (0xE400DCC9, .prefg (.s 28) (.s 9)),
    (0xE7BECE28, .aadd true (.v 190) (.s 14) (.v 40)),
    (0xE883DCE5, .amin false (.v 131) (.s 28) .zero)] = true := by decide +kernel

/-- Words of R56's map, amax to waitc, their fields at the bits of R46 with the codes of R49. -/
theorem test_decode_amax_to_waitc : reads [
    (0xEB05CEC9, .amax true (.v 5) (.s 14) (.s 9)),
    (0xECBEDC28, .aand false (.v 190) (.s 28) (.v 40)),
    (0xEF83CEE5, .aor true (.v 131) (.s 14) .zero),
    (0xF005DCC9, .axor false (.v 5) (.s 28) (.s 9)),
    (0xF3BECE28, .axch true (.v 190) (.s 14) (.v 40)),
    (0xF483DCE5, .acas false (.v 131) (.s 28) .zero),
    (0xF705CEC9, .afadd true (.v 5) (.s 14) (.s 9)),
    (0xF89D0002, .phase 0x9D 0x2),
    (0xFAB2552A, .fence 0xB2 0x55 0x2A),
    (0xFC00DCCE, .waitc (.s 28) (.s 14))] = true := by decide +kernel

/-- Words of R280's map, the fields at the bits of R279. -/
theorem test_decode_henat : readsHenat [
    (0x0000000000000000, .henatEnd),
    (0x0400020600000000, .henatMatch 2 1 true),
    (0x0A81A40800000000, .henatLoad 5 true 41 2 false),
    (0x0D80580600000000, .henatAdd 3 false 22 1 true),
    (0x1381840000000000, .henatMax 7 true 33 0 false),
    (0x1500540A00000000, .henatMin 2 false 21 2 true),
    (0x1B50000200000000, .henatAdda 6 5 true),
    (0x1CE00000FFFFFFF0, .henatScale 1 6 0xFFFFFFF0 false),
    (0x2231000200000000, .henatRound 4 3 true true),
    (0x2460030100000000, .henatFwd 6 false 3 false true),
    (0x28519C0600000000, .henatFwde 5 true 39 1 true),
    (0x2EA0000000000000, .henatCopy 5 2 false),
    (0x30004D0B00000000, .henatGath 1 19 2 true true),
    (0x3400030200000000, .henatBar 3 true),
    (0x38000002000000C5, .henatFail 0xC5 true),
    (0x3C00000000000000, .henatSkipnl)] = true := by decide +kernel

/-! ### Well-formedness (R50, R51, R54, R55, R57, R61): a term or word for each check, which the check refuses -/

def refuses (l : List (Instr × Nat × Nat)) : Bool := l.all (fun p => decide (p.1.illegal = some ⟨p.2.1, p.2.2⟩))

def refusesWord (l : List (Word × Nat × Nat)) : Bool :=
  l.all (fun p => match decodeCore p.1 with
    | .ok _ => false
    | .error r => decide (r = ⟨p.2.1, p.2.2⟩))

def refusesHenat (l : List DWord) : Bool :=
  l.all (fun w => match decodeHenat w with
    | .ok _ => false
    | .error _ => true)

/-- R50: a code outside the class of its field, one for each class. -/
theorem test_refuses_classes : refuses [
    (.iadd false (.l 0) (.v 0) (.v 0), 5, 1), (.ptov (.s 0) (.p 1), 5, 1), (.moder (.v 0), 5, 1),
    (.iadd false (.v 0) (.p 0) (.v 0), 5, 2), (.iadd false (.v 0) (.v 0) (.rsv true), 5, 3), (.jmps (.v 1), 5, 2),
    (.rediadd false (.v 0) (.s 1), 5, 2), (.ldl (.v 0) (.l 0) 0, 5, 2), (.ldg (.v 0) (.s 2) (.l 0), 5, 3),
    (.execw (.s 3), 5, 2), (.mloop (.h 0) (.s 4), 5, 2), (.pand (.v 0) (.p 0) (.p 1), 5, 1), (.hcancel (.s 0), 5, 2),
    (.hmov (.v 0) (.h 1), 5, 1), (.hmov (.h 1) (.h 2), 5, 2), (.cntr (.s 1) 3, 5, 1)] = true := by decide +kernel

/-- R51 and R54: a source that is not uniform under an S destination; a D field that W = 1 makes a zero field. -/
theorem test_refuses_destinations : refuses [
    (.iadd false (.s 1) (.v 2) .zero, 5, 2), (.iadd false (.s 1) .zero .lane, 5, 3),
    (.iadd true (.v 1) (.v 2) .zero, 3, 1), (.ldg (.s 1) (.s 2) (.v 0), 5, 3)] = true := by decide +kernel

/-- R47, R56, R57, R194: fields beyond their ranges, each by one. -/
theorem test_refuses_ranges : refuses [
    (.cIf 0, 6, 5), (.cElse 0, 6, 5), (.tbar 16, 6, 3), (.tret 2, 6, 3), (.plset 8, 6, 3), (.mzero (.h 0) 8, 6, 3),
    (.grow 0, 6, 3), (.grow 12, 6, 3), (.shrink 0, 6, 3), (.shrink 12, 6, 3), (.wbid (.h 0) (.s 0) 64, 6, 3),
    (.wres (.s 0) 64, 6, 3), (.wrel 64, 6, 3), (.ishli false (.v 0) (.v 0) 32, 6, 3), (.ishri false (.v 0) (.v 0) 32, 6, 3),
    (.isari false (.v 0) (.v 0) 32, 6, 3), (.phase 6 1, 6, 1), (.phase 0 0, 6, 3), (.fence 6 1 1, 6, 1),
    (.fence 0 0 1, 6, 2), (.fence 0 0x80 1, 6, 2), (.fence 0 1 0, 6, 3), (.fence 0 1 0x80, 6, 3), (.cntr (.s 0) 15, 2, 3)] = true := by
  decide +kernel

/-- The last admitted value of each of those ranges is admitted. -/
theorem test_accepts_ranges : ([.cIf 1, .tbar 15, .tret 1, .plset 7, .mzero (.h 0) 7, .grow 1, .grow 11, .shrink 11,
    .wbid (.h 0) (.s 0) 63, .wrel 63, .ishli false (.v 0) (.v 0) 31, .phase 5 1, .fence 5 0x7F 0x7F, .cntr (.s 30) 14] : List Instr).all
    Instr.wf = true := by decide +kernel

/-- R46, R54, R56, R61: words of no opcode, of no function, with a zero field that is not zero, with W = 1 where it has no
meaning; the lowest kind is told. -/
theorem test_refuses_words : refusesWord [
    (0xFE000000, 1, 0), (0x38000000 + 0x02000000 * 0x1F, 5, 1), (0x60000008, 2, 3), (0xAC00000B, 2, 3), (0xCC000005, 2, 3),
    (0xCE000003, 2, 3), (0x6103E600, 3, 1), (0x00000100, 3, 2), (0x01000000, 3, 6), (0x06C00100, 3, 2), (0x85000000, 4, 6)] = true := by
  decide +kernel

/-- R60: what MODE and the width of the group forbid at issue: an odd register with a 64-bit
type, a lane number at or above the width. -/
theorem test_refuses_at_issue :
    (dynIllegal 0x0200003F 8 (.bcast false (.v 0) (.v 1) 8)).isSome = true ∧
    (dynIllegal 0x0200003F 8 (.bcast false (.v 0) (.v 1) 7)).isNone = true ∧
    (dynIllegal 0x020000FF 8 (.iadd false (.v 1) (.v 2) (.v 4))).isSome = true ∧
    (dynIllegal 0x020000FF 8 (.iadd false (.v 2) (.v 2) (.v 4))).isNone = true := by decide +kernel

/-- R280, R281: Henat words with an operation, a type, a window or a port that does not exist, or a bit that must be zero. -/
theorem test_refuses_henat : refusesHenat [0xFC00000000000000, 0x0C00680000000001, 0x0C00A80000000000, 0x0C006B0000000000,
    0x0C00680C00000000, 0x0C02680000000000] = true := by
  decide +kernel

/-! ### Small states -/

/-- The group of key 0 alone on core 0 of die 0 with its team, at work on an issue of all its eight lanes. -/
def one (g : Group) : State :=
  { State.reset with
    groups := [(0, { g with live := true, codeBase := 0x3000, stride := 256 })]
    teams := [(0, { live := true, groups := [0], lsSize := 589824, gen := 1 })]
    iss := { mask := 0xFF, planes := 1, union := 0xFF } }

/-- Beside it a second group of the team, of key 1. -/
def two (g : Group) : State :=
  { one g with
    groups := [(0, { g with live := true }), (1, { live := true, ctx := 1, index := 1, octet := 1 })]
    teams := [(0, { live := true, groups := [0, 1], lsSize := 589824, gen := 1 })] }

/-- A claim about the lanes of a mask is one about its 64 bits. -/
theorem on_lanes (m : DWord) (P : Nat → Prop) (h : ∀ l, l < 64 → m.getLsbD l = true → P l) :
    ∀ l, m.getLsbD l = true → P l := fun l hl => h l (BitVec.lt_of_getLsbD hl) hl

/-- A pair whose second part is known. -/
theorem pair_of_snd {α β : Type} (p : α × β) (y : β) (h : p.2 = y) : ∃ x, p = (x, y) := ⟨p.1, by rw [← h]⟩

/-- A group with a handler, outside handler state and without records, can trap. -/
theorem one_can_trap (g : Group) (h : Off) (a : g.handler = some h) (b : g.frame = none) (c : g.recs = []) : canTrap (one g) h :=
  ⟨a, b, c⟩

/-! ### States and operands that meet the hypotheses: compute-core instructions -/

theorem witness_IntegerTwoSourceResults :
    (∃ op w d a b f, intBinary (.imad true (.v 191) (.s 31) .lane) = some (op, w, d, a, b, f)) ∧
    (Instr.imad true (.v 191) (.s 31) .lane).wf = true ∧
    (∃ op w d a b f, intBinary (.ishl false (.s 31) (.s 0) .zero) = some (op, w, d, a, b, f)) ∧
    (Instr.ishl false (.s 31) (.s 0) .zero).wf = true :=
  ⟨⟨_, _, _, _, _, _, rfl⟩, by decide +kernel, ⟨_, _, _, _, _, _, rfl⟩, by decide +kernel⟩

theorem witness_IntegerOneSourceResults :
    (∃ fn w d a f, intUnary (.sext16 false (.v 191) (.l 3)) = some (fn, w, d, a, f)) ∧
    (Instr.sext16 false (.v 191) (.l 3)).wf = true := ⟨⟨_, _, _, _, _, rfl⟩, by decide +kernel⟩

theorem witness_IntegerImmediateResults :
    (∃ op w d a k f, intImmediate (.isari false (.s 31) (.x 7) 31) = some (op, w, d, a, k, f)) ∧
    (Instr.isari false (.s 31) (.x 7) 31).wf = true := ⟨⟨_, _, _, _, _, _, rfl⟩, by decide +kernel⟩

theorem witness_MoveImmediateResults :
    (Instr.movi false (.v 191) 0xFFFF).wf = true ∧ (Instr.movsi false (.s 31) 0x8000).wf = true ∧
    (Instr.movhi true (.v 191) 0xFFFF).wf = true := by decide +kernel

theorem witness_IntegerCompareResults :
    (∃ op d a b r, intCompare (.icmplen (.p 6) (.v 191) .zero) = some (op, d, a, b, r)) ∧
    (Instr.icmplen (.p 6) (.v 191) .zero).wf = true ∧
    (∃ op d a b r, intCompare (.icmplt (.p 7) .lane (.s 31)) = some (op, d, a, b, r)) ∧
    (Instr.icmplt (.p 7) .lane (.s 31)).wf = true :=
  ⟨⟨_, _, _, _, _, rfl⟩, by decide +kernel, ⟨_, _, _, _, _, rfl⟩, by decide +kernel⟩

theorem witness_PredicateOperationResults :
    ∃ op f, predicateOp (.pandn (.p 7) (.p 0) (.p 6)) = some (op, .p 7, .p 0, .p 6, f) := ⟨_, _, rfl⟩

/-- Lane 0 only has P6 set; MODE.BP is 6. -/
def split : State := one { p := [(6, 1)], mode := 0x02000037 }

/-- No lane has P6 set; MODE.BP is 6. -/
def none6 : State := one { mode := 0x02000037 }

theorem split_decides : branchDecision split := .inr ⟨0, by decide +kernel⟩

theorem none6_declines : ¬ branchDecision none6 := by
  rintro (h | ⟨l, h, e⟩)
  · exact absurd h (by decide +kernel)
  · exact on_lanes none6.iss.mask (fun l => none6.g.pred (modeBp none6.g.mode) l = false) (by decide +kernel) l h |>.symm.trans e
      |> fun k => Bool.noConfusion k

theorem witness_SelectResults :
    (Instr.sel true (.v 0) (.v 191) .lane).wf = true ∧
    ((Instr.sel false (.s 31) (.s 0) .zero).wf = true ∧ (Operand.s 31).isS = true) ∧ branchDecision split ∧ ¬ branchDecision none6 :=
  ⟨by decide +kernel, by decide +kernel, split_decides, none6_declines⟩

theorem witness_PredicateConversionResults :
    { one {} with iss := {} }.iss.mask = 0 ∧ (one {}).iss.mask ≠ 0 := by decide +kernel

theorem witness_NopAndModeWrites :
    let s := one { handler := some 0x40 }
    modeLegal (s.g.mode.extractLsb' 16 16 ++ (0x24FF : BitVec 16)) ∧ modeLegal ((0x0C99 : BitVec 16) ++ s.g.mode.extractLsb' 0 16) ∧
    ¬ modeLegal (s.g.mode.extractLsb' 16 16 ++ (0x2800 : BitVec 16)) ∧ ¬ modeLegal ((0x0500 : BitVec 16) ++ s.g.mode.extractLsb' 0 16) ∧
    canTrap s 0x40 :=
  ⟨by unfold modeLegal; decide +kernel, by unfold modeLegal; decide +kernel, by unfold modeLegal; decide +kernel,
    by unfold modeLegal; decide +kernel, one_can_trap _ _ rfl rfl rfl⟩

theorem witness_BranchResults : branchDecision split ∧ branchDecision (one {}) ∧ ¬ branchDecision none6 :=
  ⟨split_decides, .inl (by decide +kernel), none6_declines⟩

/-- A join stack of `n` entries. -/
def stack (n : Nat) : List Join := List.replicate n ⟨2, false, 1, 0xFFFFFF⟩

theorem witness_BrxSplitsGroup :
    let p (s : State) := s.g.pred (modeBp s.g.mode)
    (¬ ∃ l, none6.iss.mask.getLsbD l = true ∧ p none6 l = true) ∧
    ((∃ l, (one {}).iss.mask.getLsbD l = true ∧ p (one {}) l = true) ∧
      ∀ l, (one {}).iss.mask.getLsbD l = true → p (one {}) l = true) ∧
    (let s := one { p := [(6, 1)], mode := 0x02000037, joins := stack 15 };
      (∃ l, s.iss.mask.getLsbD l = true ∧ p s l = true) ∧ (¬ ∀ l, s.iss.mask.getLsbD l = true → p s l = true) ∧ s.g.joins.length < 16) ∧
    (let s := one { p := [(6, 1)], mode := 0x02000037, joins := stack 16, handler := some 0 };
      (∃ l, s.iss.mask.getLsbD l = true ∧ p s l = true) ∧ (¬ ∀ l, s.iss.mask.getLsbD l = true → p s l = true) ∧
      16 ≤ s.g.joins.length ∧ canTrap s 0) := by
  refine ⟨?_, ⟨⟨0, by decide +kernel⟩, on_lanes _ _ (by decide +kernel)⟩,
    ⟨⟨0, by decide +kernel⟩, fun h => absurd (h 7 (by decide +kernel)) (by decide +kernel), by decide +kernel⟩,
    ⟨0, by decide +kernel⟩, fun h => absurd (h 7 (by decide +kernel)) (by decide +kernel), by decide +kernel, one_can_trap _ _ rfl rfl rfl⟩
  rintro ⟨l, h, e⟩
  exact absurd (.inr ⟨l, h, e⟩) none6_declines

/-- Nest counts at the ends of their range, lane 2 on a replay's side of the mask; IF and ELSE with lanes left and without. -/
theorem witness_StructuredDivergenceResults :
    let s := one { nest := [(0, 254), (1, 1)], p := [(6, 4)], mode := 0x02000037 }
    let e := one { nest := [(0, 254), (1, 1)], exec := 3 }
    (∀ l, s.g.notDeferred.getLsbD l = true → s.g.nest.get l 0 ≠ 255) ∧ s.g.enabled ≠ 0 ∧
      (∀ l, e.g.notDeferred.getLsbD l = true → e.g.nest.get l 0 ≠ 255) ∧ e.g.enabled = 0 ∧
      (let o := one { nest := [(7, 255)] }; ∃ l, o.g.notDeferred.getLsbD l = true ∧ o.g.nest.get l 0 = 255) :=
  ⟨on_lanes _ _ (by decide +kernel), by decide +kernel, on_lanes _ _ (by decide +kernel), by decide +kernel, 7, by decide +kernel⟩

/-- A team whose operation-table entry 5 is pending under handle 0x30010005. -/
def busyTeam (pending : Bool) : Team :=
  { live := true, groups := [0], lsSize := 589824, gen := 1, opCount := 6, ops := [(5, { handle := 0x30010005, pending := pending })] }

theorem witness_YieldResults :
    (let s := one { h := [(7, 0x30010005)], handler := some 0 };
      s.stale (s.g.h.get 7 0) = true ∧ canTrap s 0) ∧
    (let s := { one { h := [(7, 0x30010005)] } with teams := [(0, busyTeam false)] };
      s.stale (s.g.h.get 7 0) = false ∧ s.opDone (s.g.h.get 7 0) = true) ∧
    (let s := { one { h := [(7, 0x30010005)] } with teams := [(0, busyTeam true)] };
      s.stale (s.g.h.get 7 0) = false ∧ s.opDone (s.g.h.get 7 0) = false) ∧
    (let s := { one { wait := .yield 0x30010005 9 } with teams := [(0, busyTeam false)] };
      (s.group 0).wait = .yield 0x30010005 9 ∧ ((s.teamOf (s.group 0).team).ops.get (Nat.mod 0x30010005 128) {}).pending = false) := by
  refine ⟨⟨by decide +kernel, one_can_trap _ _ rfl rfl rfl⟩, by decide +kernel, by decide +kernel, by decide +kernel⟩

theorem witness_TeamBarrierResults :
    (∀ k ∈ (one {}).teamGroups (one {}).g.team, ((one {}).group k).index ∈ (one {}).team.bars.get 15 [] ++ [(one {}).g.index]) ∧
    (¬ ∀ k ∈ (two {}).teamGroups (two {}).g.team, ((two {}).group k).index ∈ (two {}).team.bars.get 15 [] ++ [(two {}).g.index]) ∧
    (let s := { one { wait := .bar 15 } with teams := [(0, { live := true, groups := [0], bars := [(15, [0])] })] };
      ∀ k ∈ s.teamGroups 0, (s.group k).index ∈ (s.teamOf 0).bars.get 15 []) := by decide +kernel

theorem witness_ExitEndsGroup : ∀ k ∈ (one {}).team.groups, k ∈ (one {}).team.gone ∨ k = (one {}).cur := by decide +kernel

/-- The record of lane 63's fault. -/
def lane63 : Nat × Nat × Nat := (16 * 63, 16, 0x0000_0000_1000_0000_0100_0000_0000_3F01)

/-- Without records; with no handler, in handler state; after an offset whose lane 7 has faulted. -/
theorem witness_TrapEntersHandler :
    canTrap (one { handler := some 0xFFFFFF }) 0xFFFFFF ∧ ((0 : BitVec 8) ≠ 0 ∨ (1 : BitVec 8) ≠ 0) ∧
    (let f : Faults := ⟨0xD1000000, 5, 0x1004, 0, 0x80, 1, 0, 0, 0⟩;
      let s := one { faults := some f };
      s.g.live = true ∧ s.g.faults = some f ∧ s.g.parked = 0 ∧ s.g.replays = []) ∧
    (let s := one { handler := some 0 }; s.g.handler = some 0 ∧ s.g.frame = none ∧ s.g.recs = []) ∧
    ((one {}).g.handler = none ∧ (one {}).g.faultArea = 0) ∧ (one { blockFailed := true }).g.blockFailed = true ∧
    ((one { handler := some 0, frame := some ⟨7, 1, [], [], []⟩ }).g.frame ≠ none ∧ (one { handler := some 0, frame := some ⟨7, 1, [], [], []⟩ }).g.faultArea = 0) :=
  ⟨one_can_trap _ _ rfl rfl rfl, by decide, by decide +kernel, by decide +kernel, by decide +kernel, by decide +kernel, by decide +kernel⟩

theorem witness_TrapReturnRestoresFrame :
    (one { frame := some ⟨7, 1, [(1, 1)], [], stack 16⟩ }).g.frame = some ⟨7, 1, [(1, 1)], [], stack 16⟩ ∧
    canTrap (one { handler := some 0 }) 0 := ⟨rfl, one_can_trap _ _ rfl rfl rfl⟩

/-- Two planes; V1 holds 1 in every lane, V2 holds 2. -/
def planes2 : State :=
  one { np := 2, handler := some 0, v := (List.range 8).map (fun l => (64 + l, 1)) ++ (List.range 8).map (fun l => (128 + l, 2)) }

theorem witness_PlaneResults :
    BitVec.toNat (1 : BitVec 8) < planes2.g.np ∧ (planes2.g.np ≤ BitVec.toNat (2 : BitVec 8) ∧ canTrap planes2 0) ∧
    (∀ l, planes2.guarded.getLsbD l = true → (planes2.rd (.v 1) l).toNat < planes2.g.np) ∧
    (∃ l, planes2.guarded.getLsbD l = true ∧ planes2.g.np ≤ (planes2.rd (.v 2) l).toNat) :=
  ⟨by decide +kernel, ⟨by decide +kernel, one_can_trap _ _ rfl rfl rfl⟩, on_lanes _ _ (by decide +kernel), 7, by decide +kernel⟩

theorem witness_MaskResults :
    (one {}).g.frame = none ∧ { one {} with iss := {} }.iss.mask = 0 ∧ (one {}).iss.mask ≠ 0 ∧
    (let s := one { frame := some ⟨7, 0xF, [], [], []⟩ }; s.g.frame = some ⟨7, 0xF, [], [], []⟩ ∧ s.iss.mask ≠ 0) := by decide +kernel

/-- A group that waits for 176 registers more stands before the acting one. -/
def queued : State :=
  let s := two {}
  { s with
    groups := [(0, { live := true }), (1, { live := true, ctx := 1, index := 1, wait := .grow 176 })]
    cores := [(0, { growQ := [1] })] }

/-- A load of group 0 on die 0 into a register. -/
def read (dst : Nat) (p : LoadPart) : Load :=
  { uid := 1, gkey := 0, team := 0, die := 0, core := 0, fn := 0, n := 4, mode := 0x0200003F, scalar := false, dst, parts := [p] }

/-- A load of group 0 into V31 has not returned. -/
def loading : State :=
  { one { allot := 32 } with loads := [read 31 { lane := 0, space := 0, loc := 0, value := some 0, expo := none }] }

theorem witness_AllotmentResults :
    (192 < (one { allot := 32, handler := some 0 }).g.allot + 16 * 11 ∧ canTrap (one { allot := 32, handler := some 0 }) 0) ∧
    (let s := one {}; s.g.allot + 176 ≤ 192 ∧ s.lanesFree s.g 176 = true ∧ s.growBehind s.g (s.coreOf s.g.ckey).growQ = false) ∧
    (queued.g.allot + 16 ≤ 192 ∧ ¬ (queued.lanesFree queued.g 16 = true ∧ queued.growBehind queued.g (queued.coreOf queued.g.ckey).growQ = false)) ∧
    ((one { handler := some 0 }).g.allot < 16 + 16 ∧ canTrap (one { handler := some 0 }) 0) ∧
    (let s := one { allot := 192 }; 16 + 176 ≤ s.g.allot ∧ s.loadInto s.cur (s.g.allot - 176) s.g.allot = false) ∧
    (16 + 16 ≤ loading.g.allot ∧ loading.loadInto loading.cur (loading.g.allot - 16) loading.g.allot = true) :=
  ⟨⟨by decide +kernel, one_can_trap _ _ rfl rfl rfl⟩, by decide +kernel, by decide +kernel,
    ⟨by decide +kernel, one_can_trap _ _ rfl rfl rfl⟩, by decide +kernel, by decide +kernel⟩

theorem witness_TimeAndCounterResults : BitVec.toNat (0 : BitVec 8) = 0 ∧ BitVec.toNat (10 : BitVec 8) ∈ [5, 6, 8, 9, 10] ∧ BitVec.toNat (12 : BitVec 8) ∈ [1, 2, 3, 4, 11, 12] ∧
    BitVec.toNat (7 : BitVec 8) = 7 ∧ BitVec.toNat (13 : BitVec 8) = 13 ∧ BitVec.toNat (14 : BitVec 8) = 14 := by decide

theorem witness_FloatCompareResults :
    (∃ op d a b r, fltCompare (.fcmple (.p 6) (.v 191) (.s 31)) = some (op, d, a, b, r)) ∧
    (Instr.fcmple (.p 6) (.v 191) (.s 31)).wf = true := ⟨⟨_, _, _, _, _, rfl⟩, by decide +kernel⟩

theorem witness_FloatTwoSourceResults :
    (∃ op w d a b f, fltBinary (.ffma true (.v 191) .zero (.s 31)) = some (op, w, d, a, b, f)) ∧
    (Instr.ffma true (.v 191) .zero (.s 31)).wf = true := ⟨⟨_, _, _, _, _, _, rfl⟩, by decide +kernel⟩

/-- Each class of R104: a NaN, the infinities, the zeros, subnormal and normal numbers of both signs. -/
theorem witness_FloatOneSourceResults :
    (∃ op fn w d a f, fltUnary (.fclass false (.s 31) (.h 7)) = some (op, fn, w, d, a, f)) ∧
    (Instr.fclass false (.s 31) (.h 7)).wf = true ∧ Fmt.f16 ∈ elementFormats ∧ 0xFFFF < 2 ^ Fmt.f16.bits ∧ Fmt.f16.value 0xFFFF = .nan ∧
    Fmt.f16.value 0xFC00 = .inf true ∧ Fmt.f16.value 0x7C00 = .inf false ∧ Fmt.f16.value 0x8000 = .fin true 0 (-24) ∧
    Fmt.f16.value 0x83FF = .fin true 1023 (-24) ∧ Fmt.f16.value 0x0400 = .fin false 1024 (-24) :=
  ⟨⟨_, _, _, _, _, _, rfl⟩, by and_intros <;> decide +kernel⟩

/-- A NaN, both zeros, both infinities and a negative number of F32, 1 of E4M3. -/
theorem witness_FloatFunctionSpecialOperands :
    Fmt.f32 ∈ elementFormats ∧ Fmt.e4m3 ∈ elementFormats ∧ 0xFF800000 < 2 ^ Fmt.f32.bits ∧
    Fmt.f32.value 0x7FC00000 = .nan ∧ (Fmt.f32.value 0x80000000).isZero = true ∧ Fmt.f32.value 0x7F800000 = .inf false ∧
    Fmt.f32.value 0xFF800000 = .inf true ∧ Less (Fmt.f32.value 0xFF800000) (.fin false 0 0) ∧
    (Fmt.e4m3.value 0x38 = .fin false 8 (-3) ∧ ratOf (Fmt.e4m3.value 0x38) = 1 ∧ ratOf (Fmt.e4m3.value 0x38) = ((1 : Int) : ℚ) ∧
      ratOf (Fmt.e4m3.value 0x38) = (2 : ℚ) ^ (0 : Int) ∧ 0 < ratOf (Fmt.e4m3.value 0x38)) := by
  have h : Fmt.f32.value 0xFF800000 = .inf true := by decide +kernel
  have k : Fmt.e4m3.value 0x38 = .fin false 8 (-3) := by decide +kernel
  have one : ratOf (Fmt.e4m3.value 0x38) = 1 := by rw [k]; norm_num [ratOf]
  refine ⟨by decide, by decide, by decide +kernel, by decide +kernel, by decide +kernel, by decide +kernel, h, ?_, k, one, ?_, ?_, ?_⟩
  · rw [h]; exact rfl
  all_goals rw [one]; norm_num

theorem witness_ExactFloatArithmetic : ratOf (.fin false 3 0) + ratOf (.fin true 6 (-1)) = 0 := by norm_num [ratOf]

theorem witness_RoundingKeepsRepresentable :
    Fmt.e2m1 ∈ (Fmt.e2m1 :: Fmt.e3m5 :: elementFormats) ∧ 0xF < 2 ^ Fmt.e2m1.bits ∧ (∃ s m e, Fmt.e2m1.value 0xF = .fin s m e) ∧
    Fmt.e5m2 ∈ Fmt.e2m1 :: elementFormats :=
  ⟨by decide, by decide, ⟨true, 3, 1, by decide +kernel⟩, by decide⟩

/-- A negative number, and a positive one. -/
theorem witness_IntegralRoundingIsExact :
    Fmt.e5m2 ∈ elementFormats ∧ 0x81 < 2 ^ Fmt.e5m2.bits ∧ (∃ s m e, Fmt.e5m2.value 0x81 = .fin s m e) ∧
    ((ratOf (Fmt.e5m2.value 0x81) : ℚ) : ℝ) ≠ 0 ∧ 0 < ((ratOf (Fmt.e5m2.value 0x3C) : ℚ) : ℝ) := by
  have n : Fmt.e5m2.value 0x81 = .fin true 1 (-16) := by decide +kernel
  have p : Fmt.e5m2.value 0x3C = .fin false 4 (-2) := by decide +kernel
  refine ⟨by decide, by decide, ⟨_, _, _, n⟩, ?_, ?_⟩
  · rw [n]; norm_num [ratOf]
  · rw [p]; norm_num [ratOf]

/-- CVT of each of its shapes, the highest half of the widening one; a NaN, an infinity, a number. -/
theorem witness_ConvertResults :
    ((Instr.cvt false (.v 0) (.v 191) 0).wf = true ∧ badCvt 0x0200003F (.v 0) false 0 = none) ∧
    ((Instr.cvt false (.v 0) (.v 191) 0xBF).wf = true ∧ badCvt 0x0210003F (.v 0) false 0xBF = none) ∧
    ((Instr.cvt true (.v 0) (.v 191) 1).wf = true ∧ badCvt 0x0201003F (.v 0) true 1 = none) ∧
    Fmt.e2m1 ∈ Fmt.e2m1 :: elementFormats ∧ (8 : Nat) ∈ [8, 32] ∧ Fmt.f16.value 0x7E00 = .nan ∧ Fmt.f16.value 0xFC00 = .inf true ∧
    (∃ s m e, Fmt.f16.value 0x3C00 = .fin s m e) ∧ Fmt.f32 ≠ Fmt.e2m1 ∧ 0xFFFFFFFF < 2 ^ 32 :=
  ⟨by decide +kernel, by decide +kernel, by decide +kernel, by decide, by decide, by decide +kernel, by decide +kernel,
    ⟨false, 1024, -10, by decide +kernel⟩, by decide, by decide⟩

theorem witness_LaneMoves :
    (Instr.perm false (.v 191) (.s 31) .lane).wf = true ∧ (Instr.bcast true (.v 0) .lane 63).wf = true ∧
    ({ one {} with iss := {} }.iss.mask = 0 ∧ (one {}).iss.mask ≠ 0) ∧ (Instr.vidx false (.v 191) .lane).wf = true ∧
    (∀ l, (one {}).guarded.getLsbD l = true → ((one {}).rd .lane l).toNat < (one {}).g.allot) ∧
    (let s := one { s := [(31, 16)] }; ∃ l, s.guarded.getLsbD l = true ∧ s.g.allot ≤ (s.rd (.s 31) l).toNat) :=
  ⟨by decide +kernel, by decide +kernel, by decide +kernel, by decide +kernel, on_lanes _ _ (by decide +kernel), 7, by decide +kernel⟩

theorem witness_Reductions :
    (∃ fn w d a f ident, redInteger (.rediminn false (.v 191) (.l 3)) = some (fn, w, d, a, f, ident)) ∧
    (Instr.rediminn false (.v 191) (.l 3)).wf = true ∧ (one {}).g.width = 2 ^ 3 ∧ (one { width := 64 }).g.width = 2 ^ 6 ∧
    (Instr.redfadd true (.v 0) (.v 191)).wf = true ∧ Instr.redfmax false (.v 1) (.v 2) = (if true then .redfmax false (.v 1) (.v 2) else .redfmin false (.v 1) (.v 2)) :=
  ⟨⟨_, _, _, _, _, _, rfl⟩, by decide +kernel, by decide +kernel, by decide +kernel, by decide +kernel, rfl⟩

/-! ### Hypotheses: encodings, the step -/

theorem witness_CoreWordsRoundTrip : encodeCore (.fence 0x1D 0x7F 0x7F) = some 0xFA1D7F7F ∧ (Instr.fence 0x1D 0x7F 0x7F).wf = true := by
  decide +kernel

theorem witness_DecodedCoreWordIsCanonical : decodeCore 0xFA540110 = .ok (.fence 0x54 0x01 0x10) := by rfl

theorem witness_HenatWordsRoundTrip :
    encodeHenat (.henatFwde 7 true 39 2 true) = some 0x28719C0A00000000 ∧
    henatWf (.henatFwde 7 true 39 2 true) = true ∧ decodeHenat 0x2400010100000000 = .ok (.henatFwd 0 false 1 false true) :=
  ⟨by decide +kernel, by decide +kernel, by rfl⟩

/-! ### Hypotheses: the step and the whole machine -/

/-- Does a meaning answer a next state? -/
def answers (o : Host.Outcome State Fault Refusal) : Bool :=
  match o with
  | .next _ => true
  | _ => false

theorem answers_next (o : Host.Outcome State Fault Refusal) (h : answers o = true) : ∃ t, o = .next t := by
  cases o with
  | next t => exact ⟨t, rfl⟩
  | fault => cases h
  | refused => cases h

/-- A machine whose next step fetches a word that moves 0x7F05 to V1. -/
def stepS : State := State.reset.withFetchWord 32 0x6C017F05
/-- It at its fetch. -/
def stepS0 : State := atFetch stepS 0 []
/-- It once the word is fetched. -/
def stepS1 : State := (stepS0.fetchWords [0]).1
/-- It at the issue. -/
def stepS2 : State := { stepS1 with iss := { stepS1.iss with mask := 0xFF, planes := 1, word := 0x6C017F05 } }
/-- A machine whose next step runs FWD of accumulator 0 to set 1, `.last`, for the one chunk of a collective. -/
def stepH : State := State.reset.withFetchWord 64 0x2400010200000000

/-- The group of `stepS` with what a test gives it; its words stand at 0x3000, as `State.withFetchWord` places them. -/
def fetching (w : Nat) (g : Group) : State :=
  { State.reset.withFetchWord 32 w with groups := [(0, { g with live := true, handler := some 0x100 })] }

/-- What the fetch of a state at its offset gives. -/
def fetched (s : State) : State × Except (Option Nat) (List (Nat × Word)) := (atFetch s 0 []).fetchWords (fetchPlanes (s.group 0))

theorem fetching_begins (w : Nat) (g : Group)
    (h : (let s := fetching w g; !s.basin.frozen && s.agenda == [.group 0] && (s.group 0).live && (s.group 0).wait == .ready && (s.group 0).half == none &&
      (s.group 0).replays == [] && (s.group 0).parked == 0 && (s.group 0).joins == [] && !s.stopsAtBoundary 0) = true) :
    begins (fetching w g) 0 [] := by
  simp only [Bool.and_eq_true, Bool.not_eq_true', beq_iff_eq] at h
  obtain ⟨⟨⟨⟨⟨⟨⟨⟨a, b⟩, c⟩, d⟩, e⟩, f⟩, i⟩, j⟩, k⟩ := h
  exact ⟨a, b, c, d, e, f, i, by rw [j]; simp, k⟩

/-- The kind of the trap that a check of R58 finds. -/
def finding (s : State) (w : Word) : Option (Nat × Nat) := (s.checkIssues [(w, 1, 0xFF)]).map (fun f => (f.kind, f.field))

/-- The ordinary step: MOVI to V1, fetched and passed by every check. -/
theorem witness_StepRunsItsInstruction :
    (∃ t, stepS0.translate 0 0 (some 0) (State.fetchAddr stepS0.g 0 0) 4 .fetch = (t, .ok 1 0x3000 0 none)) ∧
    (begins stepS 0 [] ∧ (atFetch stepS 0 []).fetchWords (fetchPlanes (stepS.group 0)) = (stepS1, .ok [(0, 0x6C017F05)]) ∧
      formIssues stepS1.g [(0, 0x6C017F05)] = [(0x6C017F05, 1, 0xFF)] ∧ stepS1.checkIssues [(0x6C017F05, 1, 0xFF)] = none ∧
      decodeCore 0x6C017F05 = .ok (.movi false (.v 1) 0x7F05) ∧ stepS2.handlePending (.movi false (.v 1) 0x7F05) = false ∧
      stepS2.regPending (.movi false (.v 1) 0x7F05) 0xFF = false ∧
      stepS2.scalarTaken (.movi false (.v 1) 0x7F05) (0x6C017F05, 1, 0xFF) [] = none) ∧
    stepS.stopsAtBoundary 0 = false ∧ (one {}).g.faults = none ∧
    (∃ c, stepH.basin.frozen = false ∧ stepH.agenda = [.lock 0] ∧ stepH.collOf 0 = some c ∧ stepH.bodyDue c = true ∧
      c.words[c.pc]? = some 0x2400010200000000 ∧ decodeHenat 0x2400010200000000 = .ok (.henatFwd 0 false 1 true false)) ∧
    ({ State.reset with agenda := [.event .timeCounterTick] }.agenda = [.event .timeCounterTick] ∧ State.isEvent .timeCounterTick = true) := by
  have p : fetchPlanes (stepS.group 0) = [0] := by decide +kernel
  have o : (stepS1.checkIssues [(0x6C017F05, 1, 0xFF)]).isNone = true := by decide +kernel
  have u : (stepS2.scalarTaken (.movi false (.v 1) 0x7F05) (0x6C017F05, 1, 0xFF) []).isNone = true := by decide +kernel
  refine ⟨pair_of_snd _ _ (by decide +kernel), ⟨by unfold begins; and_intros <;> decide +kernel, by rw [p]; rfl, by decide +kernel, Option.isNone_iff_eq_none.mp o, by rfl,
    by decide +kernel, by decide +kernel, Option.isNone_iff_eq_none.mp u⟩, by decide +kernel, rfl,
    ⟨_, by decide +kernel, by decide +kernel, rfl, by decide +kernel, by decide +kernel, by rfl⟩, rfl, by decide +kernel⟩

/-- A pop that is due, in both phases of the stack's top; an offset at whose end the latches shift, and one at which they do not. -/
theorem witness_StepRunsItsInstruction_pops :
    (∀ b : Bool, let j : Join := ⟨0xF0, b, 7, 0⟩
      let s := fetching 0 { joins := j :: stack 15, codeBase := 0x3000 }
      s.basin.frozen = false ∧ s.agenda = [.group 0] ∧ (s.group 0).live = true ∧ (s.group 0).wait = .ready ∧ (s.group 0).half = none ∧
        (s.group 0).replays = [] ∧ (s.group 0).parked = 0 ∧ s.stopsAtBoundary 0 = false ∧ (s.group 0).joins = j :: stack 15 ∧
        j.join = (s.group 0).offset ∧ (stack 15).length < 16) ∧
    (let s := { one {} with iss := { (one {}).iss with res := true } }; s.g.faults = none ∧ s.g.replays = [] ∧ s.iss.res = true) ∧
    (one {}).iss.res = false := by decide +kernel

/-- Each check of R58: a fetch that faults, one whose page is serviced, planes that disagree on a TRAP, a word whose checks fail; an
illegal word, an illegal width, a register out of range, an invalid latch, a stale handle. -/
theorem witness_StepChecks :
    (let s := fetching 0 { codeBase := 0x800000000000 };
      begins s 0 [] ∧ (fetched s).2 = .error (some 0) ∧ canTrap (fetched s).1 0x100) ∧
    (let s := fetching 0 { codeBase := 0x3000 }; (fetched { s with mem := Memory.writeNat s.mem 0x2000 8 0x2E5 }).2 = .error none) ∧
    (let s := fetching 0x1C000005 { np := 2, plane := [(7, 1)], codeBase := 0x3000, stride := 256 };
      begins s 0 [] ∧ (fetched s).2 = .ok [(0, 0x1C000005), (1, 0)] ∧ canTrap (fetched s).1 0x100 ∧
        skeletonOp 0x1C000005 = true ∧ 1 < (formIssues (fetched s).1.g [(0, 0x1C000005), (1, 0)]).length) ∧
    (let s := fetching 0x6103E600 { codeBase := 0x3000 };
      begins s 0 [] ∧ (fetched s).2 = .ok [(0, 0x6103E600)] ∧ canTrap (fetched s).1 0x100 ∧ skeletonOp 0x6103E600 = false ∧
        ((fetched s).1.checkIssues (formIssues (fetched s).1.g [(0, 0x6103E600)])).isSome = true) ∧
    (∃ r, decodeCore 0x6103E600 = .error r) ∧
    (∃ r, dynIllegal 0x0200003F 8 (.cvt false (.v 0) (.v 191) 0xFF) = some r) ∧
    (decodeCore 0x6C107F05 = .ok (.movi false (.v 16) 0x7F05) ∧ dynIllegal 0x0200003F 8 (.movi false (.v 16) 0x7F05) = none ∧
      rangeField 0x0200003F 16 (.movi false (.v 16) 0x7F05) = some 1) ∧
    (dynIllegal 0x0200003F 8 (.vtop (.p 0) (.l 3)) = none ∧ rangeField 0x0200003F 16 (.vtop (.p 0) (.l 3)) = none ∧
      latchField 0x0200003F 0 (.vtop (.p 0) (.l 3)) = some 2) ∧
    (let i : Instr := .vtop (.p 0) (.h 7);
      latchField 0x0200003F 0 i = none ∧ rangeField 0x0200003F 16 i = none ∧ dynIllegal 0x0200003F 8 i = none ∧
        ∃ y ∈ hReads i, let s := one { h := [(7, 0x30010005)] }; s.stale (s.g.h.get y.2 0) = true ∧ s.gotWord (s.g.h.get y.2 0) = none) := by
  refine ⟨⟨fetching_begins _ _ (by decide +kernel), by decide +kernel, by unfold canTrap; decide +kernel⟩, by decide +kernel,
    ⟨fetching_begins _ _ (by decide +kernel), by decide +kernel, by unfold canTrap; decide +kernel, by decide +kernel, by decide +kernel⟩,
    ⟨fetching_begins _ _ (by decide +kernel), by decide +kernel, by unfold canTrap; decide +kernel, by decide +kernel, by decide +kernel⟩,
    ⟨_, by rfl⟩, ⟨_, by rfl⟩, ⟨by rfl, by decide +kernel, by decide +kernel⟩, by decide +kernel, by decide +kernel⟩

theorem witness_FrozenPackageStands :
    let s := { State.reset with basin := { State.reset.basin with frozen := true }, agenda := [.cycle 0] }
    s.basin.frozen = true ∧ s.agenda = [.cycle 0] ∧ Activity.cycle 0 ≠ .event .packageReset ∧ Activity.cycle 0 ≠ .event .scanReadOut ∧
      { s with agenda := [] }.agenda = [] ∧ { s with agenda := [.event .scanReadOut] }.agenda = [.event .scanReadOut] := by decide +kernel

/-- A step that writes memory: STL by the group of `stepS`. -/
theorem witness_StepKeepsInvariant :
    let s := State.reset.withFetchWord 32 0xD604C500
    Inv s ∧ ∃ t, step s = .next t :=
  ⟨by unfold Inv; decide +kernel, answers_next _ (by decide +kernel)⟩

/-! ### Engine commands, handles, the Weir -/

/-- S registers from S8 on. -/
def block (ws : List Word) : Table Word := ws.zipIdx.map (fun p => (8 + p.2, p.1))

/-- The bytes of a page table for the function of key 0: at virtual 0 a page of 1 GiB over the die's own memory with every
right, at 2^30 window 1 of alias slot 5, at 2^31 the copy aperture; a format block for BF16 in the local store. -/
def tables : List Host.Cell :=
  let m := [(0x1000, 8, 0x2001), (0x2000, 8, 0x2E7), (0x2008, 8, 5 * 2 ^ 40 + 2 ^ 38 + 0x24F), (0x2010, 8, 0x253)].foldl
    (fun m p => Memory.writeNat m p.1 p.2.1 p.2.2) []
  Memory.writeNat (Memory.writeNat m (localLoc 0 0x8000) 4 1) (localLoc 0 0x8010) 4 1

/-- The group of `one` with those tables and a function that may use them. -/
def paged (g : Group) : State :=
  { one g with mem := tables, fns := [(0, { cfg := { root := 0x1000, enabled := true, templBase := 0x4000, templCount := 1 } })] }

/-- The team of `paged` second in a ring of two. -/
def ringed (g : Group) : State :=
  { paged g with teams := [(0, { live := true, groups := [0], lsSize := 589824, gen := 1, ring := some 1, cluster := [7, 0] })] }

/-- A template of one chunk, byte copies from the local store to memory. -/
def templated (g : Group) : State :=
  let m := [(0x4008, 4, 0x10000), (0x4010, 4, 0x80000010 + 0x6000 + 0x60000), (0x4014, 4, 512)].foldl
    (fun m p => Memory.writeNat m p.1 p.2.1 p.2.2) tables
  { paged g with mem := m }

/-- An access of the part's own that succeeds with something of which `p` holds. -/
theorem acc_ok {α : Type} (e : State × PartAcc α) (p : State → α → Bool)
    (h : (match e with | (s, .ok x) => p s x | _ => false) = true) : ∃ s x, e = (s, .ok x) ∧ p s x = true := by
  obtain ⟨s, a⟩ := e
  cases a with
  | ok x => exact ⟨s, x, rfl, h⟩
  | wait => cases h
  | bad => cases h

/-- Does a check succeed with something of which `p` holds? -/
def checkOk {α : Type} (p : α → Bool) (e : Except Nat α) : Bool :=
  match e with
  | .ok x => p x
  | .error _ => false

theorem check_ok {α : Type} (e : Except Nat α) (p : α → Bool) (h : checkOk p e = true) : ∃ x, e = .ok x ∧ p x = true := by
  cases e with
  | ok x => exact ⟨x, rfl, h⟩
  | error => cases h

/-- A group about to issue an XST of that template on channel 3. -/
def xstS : State := templated { s := block [0x80003000, 0] }
/-- It once the aperture's address is translated. -/
def xstS1 : State := (xstS.translate 0 0 (some 0) (xstS.rdPair (.s 8)).toNat 1 .xst).1

theorem xst_template : ∃ s2 bs, xstS1.vRead 0 0 0x4000 64 = (s2, .ok bs) ∧ ∃ tm, parseTemplate bs xstS.team.lsSize 0 = .ok tm ∧
    engineFree xstS 1 (tm.ranges 0).length ∧ tm.chunks = 1 := by
  obtain ⟨s2, bs, h, e⟩ := acc_ok (xstS1.vRead 0 0 0x4000 64)
    (fun _ bs => checkOk (fun tm : Template => decide ((tm.ranges 0).length ≤ 32) && decide (tm.chunks = 1))
      (parseTemplate bs xstS.team.lsSize 0)) (by decide +kernel)
  obtain ⟨tm, h', e'⟩ := check_ok _ _ e
  simp only [Bool.and_eq_true, decide_eq_true_eq] at e'
  have z : (xstS.coreOf xstS.g.ckey).score.length = 0 := by decide +kernel
  exact ⟨s2, bs, h, tm, h', ⟨by decide +kernel, by decide +kernel, by omega⟩, e'.2⟩

theorem witness_EngineCommandsAccepted :
    (engineFree (one {}) 2 0 ∧ (one {}).mxRoom = true) ∧
    (let s := paged { s := block [0, 0x2000, 7, 4096, 0, 0, 0x8000, 0x1010] };
      (∃ rs k, s.mloopPlan (.s 8) = .ok (rs, k) ∧ engineFree s 2 rs.length) ∧ s.mxRoom = true) ∧
    (let s := one { s := block [589824 - 16 * 64, 0x00010007, 64, 0x1010, 0, 0, 0, 0] };
      let r := s.blkN (.s 8);
      bits (r 1) 3 5 = 0 ∧ bits (r 1) 12 4 = 0 ∧ bits (r 1) 17 15 = 0 ∧ bits (r 3) 16 16 = 0 ∧ r 4 = 0 ∧ r 5 = 0 ∧ r 6 = 0 ∧ r 7 = 0 ∧
      r 0 % 16 = 0 ∧ r 2 % 16 = 0 ∧
      r 0 + (bits (r 3) 0 8 - 1) * r 2 + bits (r 3) 8 8 * ((storeFmt (bits (r 1) 8 4)).bits / 8) ≤ s.team.lsSize ∧
      bits (r 1) 8 4 ≤ 3 ∧ 1 ≤ bits (r 3) 0 8 ∧ bits (r 3) 0 8 ≤ 16 ∧ 1 ≤ bits (r 3) 8 8 ∧ bits (r 3) 8 8 ≤ 16 ∧
      16 * ((storeFmt (bits (r 1) 8 4)).bits / 8) ≤ r 2 ∧ engineFree s 2 1 ∧ s.mxRoom = true) ∧
    (let s := paged { s := block [0x4000, 16384, 0, 0, 4096, 0x10000, 0x8000, 0] };
      let r := s.blkN (.s 8);
      ∃ fa fb, r 6 % 32 = 0 ∧ r 6 + 32 ≤ s.team.lsSize ∧ s.formatAt (r 6) = some (fa, fb) ∧ r 7 = 0 ∧
        r 0 % 16 = 0 ∧ r 0 + r 1 ≤ s.team.lsSize ∧ (s.blk (.s 8) 3 ++ s.blk (.s 8) 2).toNat % 512 = 0 ∧ r 5 % 16 = 0 ∧
        r 5 + 4 * r 4 ≤ s.team.lsSize ∧ (fa.blockScaled = true → fa.table % 16 = 0 ∧ fa.table + r 1 / 4 ≤ s.team.lsSize) ∧ r 1 % 512 = 0 ∧
        1 ≤ r 1 ∧ r 1 ≤ 16384 ∧ 1 ≤ r 4 ∧ r 4 ≤ 4096 ∧ engineFree s 3 (if fa.blockScaled then 3 else 2) ∧
        (s.coreOf s.g.ckey).nm.length < 4) ∧
    (let s := ringed { s := block [0, 32768, 32768] };
      let r := s.blkN (.s 8);
      (∀ k, k < 8 → 3 ≤ k → r k = 0) ∧ r 0 % 512 = 0 ∧ r 1 % 512 = 0 ∧ r 0 + r 2 ≤ s.team.lsSize ∧ r 1 + r 2 ≤ s.team.lsSize ∧ r 2 % 512 = 0 ∧
        1 ≤ r 2 ∧ r 2 ≤ 32768 ∧ s.team.ring = some 1 ∧ engineFree s 5 2 ∧ (s.coreOf s.g.ckey).rt.length < 2) ∧
    (let s := xstS;
      let va := (s.rdPair (.s 8)).toNat;
      s.copies = [] ∧ s.fenceHeld 1 = false ∧ va < 2 ^ 48 ∧ bits va 0 12 = 0 ∧ bits va 14 2 = 0 ∧
      ∃ s1, s.translate 0 0 (some 0) va 1 .xst = (s1, .aperture) ∧ bits (s.rd .zero 0).toNat 0 10 < (s1.fnOf 0).cfg.templCount ∧
        ∃ s2 bs, s1.vRead 0 0 0x4000 64 = (s2, .ok bs) ∧ ∃ tm, parseTemplate bs s.team.lsSize 0 = .ok tm ∧
          engineFree s 1 (tm.ranges 0).length ∧ tm.chunks = 1) ∧
    (let s := one { s := block [0x3FFF, 0xFFFFFF, 0x3FFFF, 67108864, 0xFFFFFFC0, 0xFFFF, 0x1F, 0] };
      let r := s.blkN (.s 8);
      bits (r 0) 14 18 = 0 ∧ bits (r 1) 24 8 = 0 ∧ bits (r 2) 18 14 = 0 ∧ bits (r 6) 5 27 = 0 ∧ r 7 = 0 ∧
        (s.blk (.s 8) 5 ++ s.blk (.s 8) 4).toNat % 64 = 0 ∧ r 3 % 256 = 0 ∧ 256 ≤ r 3 ∧ r 3 ≤ 67108864 ∧ engineFree s 4 0) := by
  refine ⟨⟨by unfold engineFree; decide +kernel, by decide +kernel⟩,
    ⟨⟨_, _, rfl, by unfold engineFree; decide +kernel⟩, by decide +kernel⟩,
    by unfold engineFree; decide +kernel, ?_, by unfold engineFree; decide +kernel, ?_, by unfold engineFree; decide +kernel⟩
  · refine ⟨⟨1, false, false, 0, 0, 0⟩, ⟨1, false, false, 0, 0, 0⟩, ?_⟩
    unfold engineFree
    decide +kernel
  · exact ⟨by decide +kernel, by decide +kernel, by decide +kernel, by decide +kernel, by decide +kernel, xstS1, Prod.ext rfl (by decide +kernel), by decide +kernel,
      xst_template⟩

theorem witness_HandleInstructions :
    (let s := { one { h := [(7, 0x30010005)] } with teams := [(0, busyTeam false)] }; s.opDone (s.g.h.get 7 0) = true) ∧
    (let s := { one { h := [(7, 0x30010005)], s := [(30, 1)] } with teams := [(0, busyTeam true)] };
      s.opDone (s.g.h.get 7 0) = false ∧ ¬ (s.opBitmap (s.g.h.get 7 0) &&& s.g.pair 30 = s.g.pair 30)) ∧
    (let s := { one { h := [(7, 0x30010005)] } with teams := [(0, busyTeam true)] };
      s.opBitmap (s.g.h.get 7 0) &&& s.g.pair 30 = s.g.pair 30) := by decide +kernel

/-- Contest 63 open to tenant 0 on die 0, with a bid in every slot of the die but the last. -/
def contested (h : Table Hold) : State :=
  let s := one {}
  let o : Origin := ⟨0, 0, 0, 0, 0, 0x50010000, 0⟩
  { s with
    basin := { s.basin with contests := [(63, { enabled := true, hold := true, tenant := 0, mask := 0x1FFFFFF })], holds := h }
    dies := [(0, { bids := (List.range 7).map (fun k => (k, ⟨63, 0, 0x50010000, o, true, false⟩)) })] }

theorem witness_WeirInstructions :
    (contested []).fenceHeld 6 = false ∧ BitVec.toNat (0 : BitVec 8) = 0 ∧
    (let s := contested [];
      (s.contest 63).enabled = true ∧ s.contestOpen 0 0 63 = true ∧ (63 : Nat) ≠ 0 ∧ (s.die 0).bids.has 7 = false ∧
        (∀ j, j < 7 → (s.die 0).bids.has j = true) ∧ engineFree s 6 0) ∧
    ((contested []).contest 62).enabled = false ∧ (contested []).contestOpen 0 0 62 = false ∧
    (let s := { contested [(63, ⟨0, 7, 1, false⟩)] with agenda := [.release 0 63] };
      s.basin.frozen = false ∧ s.agenda = [.release s.g.die 63] ∧ s.contestOpen 0 0 63 = true ∧ s.holdOf 63 = some ⟨0, 7, 1, false⟩ ∧ BitVec.toNat (0 : BitVec 5) = s.g.die) ∧
    (let s := contested [(63, ⟨1, 7, 1, false⟩)]; s.contestOpen 0 0 63 = true ∧ s.holdOf 63 = some ⟨1, 7, 1, false⟩ ∧ BitVec.toNat (1 : BitVec 5) ≠ s.g.die) := by
  unfold engineFree; decide +kernel

/-! ### The local store and memory -/

/-- Lanes 0 to 5 reach the last words of the allocation, lane 6 lies outside it, lane 7 is misaligned; V2 holds 1 in every lane. -/
def lanes8 : Table Word :=
  (List.range 6).map (fun l => (64 + l, BitVec.ofNat 32 (589800 + 4 * l))) ++ [(70, 589824), (71, 3)] ++ (List.range 8).map (fun l => (128 + l, 1))

/-- The word of lane `l` of those lanes. -/
def wordOf (l : Nat) : Nat := localLoc 0 (589800 + 4 * l) / 4

/-- A group about to access them, some of the words empty. -/
def local8 (e : List Nat) : State := { one { v := lanes8 } with empties := e }

/-- The lanes of `local8` that pass R136. -/
def good8 (s : State) : List Nat := (s.accessLanes false).filter (localPasses s (.v 1) 0)

/-- Of an access within one word, what holds of its word holds of all of its words. -/
theorem one_word (P : Nat → Prop) [Decidable (P lo)] (h : hi = lo + 1) : decide (P lo) = true ↔ ∀ w, lo ≤ w → w < hi → P w := by
  rw [decide_eq_true_iff]
  exact ⟨fun p w a b => (show w = lo by omega) ▸ p, fun p => p lo (le_refl _) (by omega)⟩

/-- Six lanes pass, of which lane 1 meets an empty word; their words differ; nothing waits. -/
theorem witness_LocalLoads :
    let s := local8 [wordOf 1]
    let lo (l : Nat) : Nat := localPlace s (.v 1) 0 l / 4
    let hi (l : Nat) : Nat := (localPlace s (.v 1) 0 l + 4 + 3) / 4
    let full (l : Nat) : Bool := decide (lo l ∉ s.empties)
    s.fenceHeld 0 = false ∧ modeBytes s.g.mode = 4 ∧ good8 s = [0, 1, 2, 3, 4, 5] ∧
      s.localBlocked (s.localGood (s.accessLanes false) (.v 1) 0 4) 4 false = false ∧ s.feWaits = [] ∧
      (∀ p ∈ s.groups, p.2.wait ≠ .fullEmpty) ∧ (∀ l ∈ good8 s, ∀ j ∈ good8 s, j ≠ l → hi l ≤ lo j ∨ hi j ≤ lo l) ∧
      (∀ l ∈ good8 s, full l = true ↔ ∀ w, lo l ≤ w → w < hi l → w ∉ s.empties) ∧
      (good8 s).map full = [true, false, true, true, true, true] ∧ { s with iss := {} }.accessLanes false = [] := by
  refine ⟨by decide +kernel, by decide +kernel, by decide +kernel, by decide +kernel, rfl, by decide +kernel, ?_, ?_, ?_, by decide +kernel⟩
  · unfold localPlace; decide +kernel
  · intro l hl
    have h : ∀ l ∈ good8 (local8 [wordOf 1]), (localPlace (local8 [wordOf 1]) (.v 1) 0 l + 4 + 3) / 4 = localPlace (local8 [wordOf 1]) (.v 1) 0 l / 4 + 1 := by
      unfold localPlace; decide +kernel
    exact one_word (fun w => w ∉ (local8 [wordOf 1]).empties) (h l hl)
  · unfold localPlace; decide +kernel

/-- The same for an STLE, whose lane 1 meets the one empty word; ranges of one word for FESET, one outside and one misaligned. -/
theorem witness_LocalStores :
    let s := local8 [wordOf 1]
    let lo (l : Nat) : Nat := localPlace s (.v 1) 0 l / 4
    let hi (l : Nat) : Nat := (localPlace s (.v 1) 0 l + 4 + 3) / 4
    let empty (l : Nat) : Bool := decide (lo l ∈ s.empties)
    s.fenceHeld 0 = false ∧ s.localBlocked (s.localGood (s.accessLanes false) (.v 1) 0 4) 4 true = false ∧ s.feWaits = [] ∧
      (∀ p ∈ s.groups, p.2.wait ≠ .fullEmpty) ∧ (∀ l ∈ good8 s, ∀ j ∈ good8 s, j ≠ l → hi l ≤ lo j ∨ hi j ≤ lo l) ∧
      (∀ l ∈ good8 s, ∀ j ∈ good8 s, l < j → apart 4 (localPlace s (.v 1) 0 l) (localPlace s (.v 1) 0 j)) ∧
      (∀ l ∈ good8 s, empty l = true ↔ ∀ w, lo l ≤ w → w < hi l → w ∈ s.empties) ∧
      (good8 s).map empty = [false, true, false, false, false, false] ∧
      (s.accessLanes (Operand.v 1).isS).map (fun l => (s.rd (.v 1) l).toNat % 4 == 0 && decide ((s.rd (.v 1) l).toNat + 4 * (s.rd (.v 2) l).toNat ≤ s.team.lsSize)) =
        [true, true, true, true, true, true, false, false] ∧
      (∀ l ∈ s.accessLanes false, s.scoreConflict s.g.ckey (s.team.lsBase + (s.rd (.v 1) l).toNat)
        (s.team.lsBase + (s.rd (.v 1) l).toNat + 4 * (s.rd (.v 2) l).toNat) true = false) := by
  refine ⟨by decide +kernel, by decide +kernel, rfl, by decide +kernel, ?_, ?_, ?_, ?_, by decide +kernel, by decide +kernel⟩
  · unfold localPlace; decide +kernel
  · unfold apart localPlace; decide +kernel
  · intro l hl
    have h : ∀ l ∈ good8 (local8 [wordOf 1]), (localPlace (local8 [wordOf 1]) (.v 1) 0 l + 4 + 3) / 4 = localPlace (local8 [wordOf 1]) (.v 1) 0 l / 4 + 1 := by
      unfold localPlace; decide +kernel
    exact one_word (fun w => w ∈ (local8 [wordOf 1]).empties) (h l hl)
  · unfold localPlace; decide +kernel

theorem witness_LocalAtomics :
    let s := local8 []
    (∃ f, (Instr.aladd false (.v 2) (.v 1) 0 = .aladd false (.v 2) (.v 1) 0 ∧ f = fun (old x _ : Nat) => old + x)) ∧
      s.fenceHeld 0 = false ∧ s.localBlocked (s.localGood (s.accessLanes false) (.v 1) 0 4) 4 true = false ∧ good8 s ≠ [] ∧
      ∀ l ∈ good8 s, ∀ j ∈ good8 s, j ≠ l → apart 4 (localPlace s (.v 1) 0 l) (localPlace s (.v 1) 0 j) := by
  refine ⟨⟨_, rfl, rfl⟩, by decide +kernel, by decide +kernel, by decide +kernel, ?_⟩
  unfold apart localPlace
  decide +kernel

/-- The tables of `paged` with more pages of 1 GiB: at 3 × 2^30 host memory, at 4 one that is not present, at 6 the die's own memory, at 7
the same without the write right, at 8 under key slot 63. -/
def wide (g : Group) : State :=
  let m := [(0x2018, 8, 0x2F7), (0x2020, 8, 0x2E5), (0x2030, 8, 0x2E7), (0x2038, 8, 0x2A7), (0x2040, 8, 63 * 2 ^ 52 + 0x2E7)].foldl
    (fun m p => Memory.writeNat m p.1 p.2.1 p.2.2) tables
  { paged g with mem := m }

/-- The group of `wide` with base addresses in S8 to S13; V1 has the offset of each lane: host memory, the own memory, an unmapped page, a
misaligned address, and on a second line; lane 7 the page that is not present, or not. -/
def offs (last : Word) (g : Group) : State :=
  wide { g with s := [(8, 0xC0000000), (10, 0x40000000), (12, 0), (13, 1)]
                v := [(64, 0), (65, 0xC0000000), (66, 0x80000000), (67, 0xC0000003), (68, 0xC0000040), (69, 0xC0000044), (70, 0xC0000048), (71, last)] }

/-- What the lanes of a global access of 4 bytes give. -/
def lanesOn (s : State) (ls : List Nat) (a b : Operand) (acc : Acc) : List (Nat × Xl) :=
  (s.translateLanes ls a b 4 acc).2.map (fun x => (x.lane, x.xl))

/-- The checks of R152 in turn: past 2^48, misaligned, not mapped, not present, of a type that admits no load, without a right, of a key
slot that is not the function's, on a fenced page, and the place of the others. -/
theorem witness_GlobalLoads_checks :
    let s := wide {}
    let found (va : Nat) := ((s.leafOf 0 0 (some 0) va).2)
    (2 ^ 48 ≤ 2 ^ 48 ∧ 2 ^ 48 - 1 < 2 ^ 48 ∧ (2 ^ 48 - 1) % 4 ≠ 0) ∧
    (found (5 * 2 ^ 30) = none ∧ (s.coreOf 0).tlb = [] ∧ (s.die 0).tlb2 = [] ∧
      ∀ e sz, walkFrom s.mem 0 (5 * 2 ^ 30) [39, 30, 21] (s.fnOf 0).cfg.root = some (e, sz) → e.getLsbD 0 = false) ∧
    found (4 * 2 ^ 30) = some (0x2E5, 30) ∧
    (found (2 * 2 ^ 30) = some (0x253, 30) ∧ pteType 0x253 ∉ admittedTypes .load) ∧
    (found (7 * 2 ^ 30) = some (0x2A7, 30) ∧ lacksRight .store 0x2A7) ∧
    (found (8 * 2 ^ 30) = some (63 * 2 ^ 52 + 0x2E7, 30) ∧ ¬ lacksRight .atomic (63 * 2 ^ 52 + 0x2E7) ∧
      (s.leafOf 0 0 (some 0) (8 * 2 ^ 30)).1.keyOwner 0 (pteSlot (63 * 2 ^ 52 + 0x2E7)) ≠ some 0) ∧
    (found 0 = some (0x2E7, 30) ∧ pteType 0x2E7 = 1 ∧ ¬ lacksRight .atomic 0x2E7 ∧ (s.leafOf 0 0 (some 0) 0).1.keyOwner 0 (pteSlot 0x2E7) = some 0 ∧
      (s.leafOf 0 0 (some 0) 0).1.fencedIn 0 (2 ^ 30) = false ∧
      ({ s with fencedPages := [0x3FFFF] }.leafOf 0 0 (some 0) 0).1.fencedIn 0 (2 ^ 30) = true) := by
  have w : walkFrom (wide {}).mem 0 (5 * 2 ^ 30) [39, 30, 21] ((wide {}).fnOf 0).cfg.root = none := by decide +kernel
  refine ⟨by decide, ⟨by decide +kernel, by decide +kernel, by decide +kernel, fun e sz h => by rw [w] at h; cases h⟩, by decide +kernel, by decide +kernel,
    ⟨by decide +kernel, by unfold lacksRight; decide⟩, ⟨by decide +kernel, by unfold lacksRight; decide, by decide +kernel⟩,
    ⟨by decide +kernel, by decide +kernel, by unfold lacksRight; decide, by decide +kernel, by decide +kernel, by decide +kernel⟩⟩

/-- Lanes in host memory, in the own memory, faulting and parking: a load that goes on, one that stops in its scalar form, and one that is
cancelled after the park offset; a scalar load, a load by no lane. -/
theorem witness_GlobalLoads :
    let s := offs 0x40000000 {}
    let xs := (s.translateLanes (s.accessLanes false) (.s 8) (.v 1) 4 .load).2
    (s.fenceHeld 0 = false ∧ s.reqs = [] ∧ s.iss.run = 0 ∧ (s.coreOf s.g.ckey).snap = [] ∧ modeBytes s.g.mode = 4) ∧
    lanesOn s (s.accessLanes false) (.s 8) (.v 1) .load = [(0, .ok 5 (hostLoc 0) 0 none), (1, .ok 1 0 0 none), (2, .fault 1), (3, .fault 3),
      (4, .ok 1 0x40 0 none), (5, .ok 1 0x44 0 none), (6, .ok 1 0x48 0 none), (7, .absent 0 (4 * 2 ^ 30))] ∧
    goesOn s false xs ∧ (partsOf xs ≠ [] ∧ (∀ p ∈ partsOf xs, p.loc % 64 + 4 ≤ 64) ∧
      (∀ p ∈ partsOf xs, ∀ q ∈ partsOf xs, p.loc / 64 = q.loc / 64 → p.slot = q.slot) ∧ (∃ p ∈ partsOf xs, homePound p.loc ≠ s.g.ckey / 512)) ∧
    (lanesOn s (s.accessLanes true) (.s 12) .zero .load = [(0, .absent 0 (4 * 2 ^ 30))] ∧
      ¬ goesOn s true (s.translateLanes (s.accessLanes true) (.s 12) .zero 4 .load).2) ∧
    (let c := offs 0x40000000 { parked := 1, parkOffset := 7 }; ¬ goesOn c false (c.translateLanes (c.accessLanes false) (.s 8) (.v 1) 4 .load).2) ∧
    goesOn s true (s.translateLanes (s.accessLanes true) (.s 14) .zero 4 .load).2 ∧ partsOf [] = [] ∧
    partsOf (s.translateLanes (lanesOf s.guarded) (.s 8) (.v 1) 4 .load).2 ≠ [] := by
  unfold goesOn
  and_intros <;> decide +kernel

/-- Stores and atomics by the same lanes; the store of an alias window; the stops of both. -/
theorem witness_GlobalStoresAndAtomics :
    let s := offs 0x40000000 {}
    let c := offs 0x40000000 { parked := 1, parkOffset := 7 }
    let xs (s : State) (acc : Acc) := (s.translateLanes (s.accessLanes false) (.s 8) (.v 1) 4 acc).2
    s.g.live = true ∧ s.fenceHeld 0 = false ∧ s.fenceHeld 4 = false ∧ s.openPending 5 = false ∧
    ((∀ x ∈ xs s .store, laneAliased x = false) ∧ goesOn s false (xs s .store) ∧ ¬ goesOn c false (xs c .store) ∧ partsOf (xs s .store) ≠ []) ∧
    lanesOn s (s.accessLanes true) (.s 10) .zero .store = [(0, .aliased 5 1 0)] ∧
    (goesOn s false (xs s .atomic) ∧ ¬ goesOn c false (xs c .atomic) ∧ partsOf (xs s .atomic) ≠ []) ∧
    ¬ goesOn s true (s.translateLanes (s.accessLanes true) (.s 12) .zero 4 .atomic).2 ∧
    (∃ code op w d a b, atomicForm (.acas false (.v 2) (.s 8) .zero) = some (code, op, w, d, a, b)) := by
  unfold goesOn
  and_intros
  all_goals first
    | exact ⟨_, _, _, _, _, _, rfl⟩
    | decide +kernel

/-- A request of group 0 on die 0 for the die `home`. -/
def request (kind : ReqKind) (n : Nat) (mode : Word) (dst : Nat) (p : Part) (performed : Bool) (home : Nat) (arrived : Bool) : Req :=
  { uid := 1, seq := 0, srcDie := 0, srcCore := 0, gkey := 0, team := 0, fn := 0, kind, n, mode, ord := false, scalar := false, dst, parts := [p],
    performed, home, arrived, sentAt := 0, replayed := false, word := 0, here := 0, planes := 1 }

/-- A store of the group of `one` that has not been performed. -/
def storing (g : Group) : State :=
  { one g with reqs := [request .store 4 0x0200003F 0 ⟨0, 0x5000, 1, 0x5000, 0, none, 7, 0, 0, false⟩ false 0 true] }

/-- A fence point on request 1, for group scope of D, whose later side is LS. -/
def point (awaited : Bool) : FencePoint := ⟨2, 2, 1, awaited, [1], [], []⟩

/-- The scope and the storage of a D field. -/
def scopeOf (d : BitVec 8) : Nat := (d.extractLsb' 0 3).toNat
def storageOf (d : BitVec 8) : BitVec 5 := d.extractLsb' 3 5

/-- PHASE at die scope over D (0x12), with an outstanding store and without; at system scope over H (0x85) with a network transfer; FENCE
with four points and with three. -/
theorem witness_PhaseFenceWaitc :
    (let s := storing { pubCount := [(1, 1)] };
      BitVec.getLsbD (1 : BitVec 2) 0 = true ∧ 2 ≤ scopeOf 0x12 ∧ unpublished s s.cur (scopeOf 0x12) (storageOf 0x12)) ∧
    (let s := one {}; ¬ (BitVec.getLsbD (3 : BitVec 2) 0 = true ∧ 2 ≤ scopeOf 0x12 ∧ unpublished s s.cur (scopeOf 0x12) (storageOf 0x12)) ∧
      ¬ (scopeOf 0x12 = 5 ∧ (storageOf 0x12).getLsbD 4 = true)) ∧
    (BitVec.getLsbD (1 : BitVec 2) 0 = true ∧ 2 ≤ scopeOf 0x12 ∧ (storageOf 0x12).getLsbD 1 = true) ∧
    (let s := one { fences := List.replicate 4 (point false) };
      s.g.fences = point false :: List.replicate 3 (point false) ∧ (point false).awaited = false ∧ 4 ≤ s.g.fences.length) ∧
    ((one { fences := point true :: List.replicate 3 (point false) }).g.fences = point true :: List.replicate 3 (point false) ∧ (point true).awaited = true) ∧
    (let s := one { fences := List.replicate 3 (point false) };
      s.g.fences.length < 4 ∧ (∀ f ∈ s.g.fences.head?, f.awaited = false) ∧ s.reqs = [] ∧ s.loads = [] ∧ s.aliases = [] ∧ s.sures = [] ∧
        ∀ e ∈ s.team.ops, e.2.gkey = s.cur → e.2.pending = false) ∧
    (let s := storing { fences := List.replicate 3 (point false) };
      ∃ r ∈ s.reqs, s.g.fences.length < 4 ∧ r.gkey = s.cur ∧ r.team = s.g.team ∧ r.pending = true ∧ r.isLook = false ∧ 2 ≤ scopeOf 0x12 ∧
        (∃ x ∈ r.parts, coversSpace (storageOf 0x12) x.space = true)) ∧
    (let s := paged { s := [(8, 0x1000), (10, 0x2001)] };
      (∃ s1, s.translate 0 0 (some 0) (s.rdPair (.s 8)).toNat 8 .waitc = (s1, .ok 1 0x1000 0 none)) ∧ s.g.failedVa ≠ some (s.rdPair (.s 8)).toNat ∧
        homePound 0x1000 = s.g.die ∧ homePound (hostLoc 0) ≠ s.g.die ∧
        ¬ s.natSlot 0x1000 0 8 < (s.rdPair (.s 10)).toNat ∧ s.natSlot 0x1000 0 8 < (s.rdPair (.s 10)).toNat + 1) ∧
    ((wide {}).translate 0 0 (some 0) (3 * 2 ^ 30) 8 .waitc).2 = .ok 5 (hostLoc 0) 0 none ∧
    ((wide {}).translate 0 0 (some 0) (2 ^ 48) 8 .waitc).2 = .fault 1 ∧
    (((wide {}).translate 0 0 (some 0) (4 * 2 ^ 30) 8 .waitc).2 = .absent 0 (4 * 2 ^ 30) ∧ (wide {}).iss.made = false) := by
  refine ⟨⟨by decide +kernel, by decide +kernel, .inl ⟨1, by decide, by decide +kernel, fun h => absurd h (by decide), by decide +kernel⟩⟩,
    ⟨?_, by decide +kernel⟩, by decide +kernel, by decide +kernel, by decide +kernel, by decide +kernel, by decide +kernel,
    ⟨pair_of_snd _ _ (by decide +kernel), by decide +kernel⟩, by decide +kernel, by decide +kernel, by decide +kernel⟩
  rintro ⟨-, -, ⟨sp, h, -, -, e⟩ | ⟨e, -⟩⟩
  · exact absurd (by revert sp; decide +kernel : ∀ sp ∈ [1, 2, 3, 5], ((one {}).group (one {}).cur).pubCount.get sp 0 = 0) fun k => e (k sp h)
  · exact absurd e (by decide +kernel)

/-- A trap of a group with a record for its fault block at 0x40000, which is written; with a handler and without. -/
def recording (h : Option Off) : State :=
  { paged { handler := h, faultArea := 0x40000, recs := [lane63] } with veils := [⟨0, 0, 0x40000 + 16 * 63 - 1, 7⟩] }

theorem witness_TrapEntersHandler_records :
    (let s := recording (some 0);
      s.g.handler = some 0 ∧ s.g.frame = none ∧ s.g.recs ≠ [] ∧ s.g.faultArea ≠ 0 ∧ s.g.blockFailed = false ∧
        (∃ s1, (trapPending s [0x10000000] false s.g.recs).writeRecs s.faultBlock s.g.recs = (s1, .ok ())) ∧ s.g.recs = [lane63] ∧
        (∃ u, (trapPending s [0x10000000] false s.g.recs).vPlaces s.g.die s.g.fn .store (pieces 2 ((s.faultBlock + lane63.1) % 2 ^ 64) lane63.2.1) =
          (u, .ok [(0x40000 + 16 * 63, 0, 16, none)])) ∧ 0x40000 + 16 * 63 + 16 ≤ tableLoc 0 ∧ s.veils = [⟨0, 0, 0x40000 + 16 * 63 - 1, 7⟩]) ∧
    (let s := recording none;
      let recs := s.g.recs ++ [(1024, 64, State.groupRecord [0x10000000] s.g.exec s.g.offset s.g.joins.length)];
      s.g.handler = none ∧ ∃ s1, (trapPending s [0x10000000] true recs).writeRecs s.faultBlock recs = (s1, .ok ())) :=
  ⟨⟨rfl, rfl, by decide +kernel, by decide +kernel, by decide +kernel, pair_of_snd _ _ (by decide +kernel), rfl, pair_of_snd _ _ (by decide +kernel),
    by decide +kernel, rfl⟩, rfl, pair_of_snd _ _ (by decide +kernel)⟩

/-! ### Henat bodies -/

/-- A collective of two chunks at its chunk `n`, whose reduce window holds `k` bytes of port 26. -/
def reducing (n k : Nat) : State :=
  let c : Coll :=
    { tenant := 0, slot := 5, endpoint := false, fixed := true, program := 0, bank := false, words := [], masks := [0x4000001, 1, 0, 0],
      parts := 1, window := 512, root := 0, lock := 0, order := 0, bindings := [], openers := [], counts := [(countKey 0 n 26, k)], next := n,
      stage := [], pc := 0, acc := [], outs := [], waiting := none, fwde := 0 }
  { State.reset with basin := { State.reset.basin with colls := [(0, c)] }, curColl := 0 }

theorem witness_HenatArithmetic :
    (∃ c, (reducing 0 256).collOf 0 = some c ∧ ¬ ((true : Bool) = true → c.next + 1 = c.window / 256)) ∧
    (∃ c, (reducing 1 255).collOf 0 = some c ∧ ((true : Bool) = true → c.next + 1 = c.window / 256) ∧ c.counts.get (countKey 0 c.next 26) 0 ≠ 256) ∧
    (∃ c, (reducing 1 256).collOf 0 = some c ∧ c.counts.get (countKey 0 c.next 26) 0 = 256) ∧
    (∃ d bf p w l f, henatPort (.henatMin 7 true 41 2 true) = some (d, bf, p, w, l, f)) ∧
    (∃ d a l f, henatAccumulator (.henatScale 7 0 0x80000000 true) = some (d, a, l, f)) :=
  ⟨⟨_, rfl, by decide +kernel⟩, ⟨_, rfl, by decide +kernel, by decide +kernel⟩, ⟨_, rfl, by decide +kernel⟩, ⟨_, _, _, _, _, _, rfl⟩, ⟨_, _, _, _, rfl⟩⟩

theorem witness_HenatControlAndWrites :
    (∃ c, (reducing 1 256).collOf 0 = some c ∧ c.outs = [] ∧ c.waiting = none ∧ c.bindings = [] ∧ c.openers = [] ∧ c.window / 256 ≤ c.next + 1 ∧
      ((true : Bool) = true → c.next + 1 = c.window / 256) ∧
      (∀ p ∈ (List.range 42).filter (fun p => (c.masks.getD 0 0).getLsbD p), p = 0 ∨ c.counts.get (countKey 0 c.next p) 0 = 256) ∧
      (∃ p ∈ (List.range 42).filter (fun p => (c.masks.getD 0 0).getLsbD p), c.counts.get (countKey 0 c.next p) 0 ≠ 256) ∧
      (∀ p ∈ (List.range 42).filter (fun p => (c.masks.getD 3 0).getLsbD p), c.counts.get (countKey 0 c.next p) 0 = 256)) ∧
    (∃ c, (reducing 0 256).collOf 0 = some c ∧ c.next + 1 < c.window / 256 ∧ ¬ ((true : Bool) = true → c.next + 1 = c.window / 256)) :=
  ⟨⟨_, rfl, by and_intros <;> decide +kernel⟩, _, rfl, by and_intros <;> decide +kernel⟩

/-! ### Events: groups, accesses, launches -/

theorem some_of {α : Type} (o : Option α) (h : o.isSome = true) : ∃ x, o = some x := Option.isSome_iff_exists.mp h

/-- A lane of group 0 that waits on the word at byte 589820 of the core's local store. -/
def waiter (k : FeKind) : FeWait := ⟨0, 0, 0, k, localLoc 0 589820, 4, 0x0200003F, false, 1, 7, 0⟩

def full (k : FeKind) (e : List Nat) : State := { one { wait := .fullEmpty } with feWaits := [waiter k], empties := e }

theorem witness_GroupEvents_publish :
    (let s := one { wait := .publish 5 0x12 true, pubCount := [(5, 1)] }; (s.group 0).wait = .publish 5 0x12 true ∧ unpublished s 0 5 0x12) ∧
    (let s := one { wait := .publish 2 0x02 true, pubCount := [(5, 1)] };
      (s.group 0).wait = .publish 2 0x02 true ∧ ¬ unpublished s 0 2 0x02) := by
  refine ⟨⟨by decide +kernel, .inl ⟨5, by decide, by decide +kernel, fun h => absurd h (by decide), by decide +kernel⟩⟩, by decide +kernel, ?_⟩
  rintro (⟨sp, h, c, -, e⟩ | ⟨e, -⟩)
  · exact absurd (by revert sp; decide +kernel : ∀ sp ∈ [1, 2, 3, 5], coversSpace 0x02 sp = true →
      ((one { wait := .publish 2 0x02 true, pubCount := [(5, 1)] }).group 0).pubCount.get sp 0 = 0) fun k => e (k sp h c)
  · exact absurd e (by decide)

theorem witness_GroupEvents :
    (homePound 0x1000 = 0 / 16 / 512 ∧ let s := one { wait := .waitc 0x1000 0 0xFFFFFFFFFFFFFFFF }; (s.group 0).wait = .waitc 0x1000 0 0xFFFFFFFFFFFFFFFF ∧
      s.natSlot 0x1000 0 8 < (0xFFFFFFFFFFFFFFFF : DWord).toNat) ∧
    (let s := one { wait := .waitc 0x1000 0 0 }; (s.group 0).wait = .waitc 0x1000 0 0 ∧ (0 : DWord).toNat ≤ s.natSlot 0x1000 0 8) ∧
    (let s (thr : DWord) := one { wait := .waitc (dieLoc 1 0x1000) 0 thr };
      homePound (dieLoc 1 0x1000) ≠ 0 / 16 / 512 ∧ ((s 0).group 0).wait = .waitc (dieLoc 1 0x1000) 0 0 ∧
        ((s 5).group 0).wait = .waitc (dieLoc 1 0x1000) 0 5 ∧ (s 5).evaluated 0 (dieLoc 1 0x1000) = false) ∧
    (let f : FencePoint := ⟨2, 2, 1, false, [1], [2], [0x30010005]⟩;
      let s := { one { fences := List.replicate 4 f } with teams := [(0, busyTeam false)] };
      (s.group 0).fences[3]? = some f ∧ (∀ u ∈ f.reqs, s.storedAck u = false) ∧ s.reqs = [] ∧ s.aliases = [] ∧ s.loads = [] ∧
        ((s.teamOf (s.group 0).team).ops.get (Nat.mod 0x30010005 128) {}).pending = false) ∧
    (let s := { one { wait := .grow 176 } with cores := [(0, { growQ := [0] })] };
      (s.group 0).wait = .grow 176 ∧ (s.coreOf 0).growQ = [0] ∧ s.lanesFree (s.group 0) 176 = true) ∧
    (let s := { loading with groups := [(0, { live := true, allot := 32, wait := .shrink 16 })] };
      (s.group 0).wait = .shrink 16 ∧ s.loadInto 0 16 32 = true ∧ { s with loads := [] }.loadInto 0 16 32 = false) ∧
    (let s := one { wait := .rejoin, parked := 1 }; (s.group 0).wait = .rejoin ∧ (s.group 0).waitPages = [] ∧ (s.group 0).failedPages = []) ∧
    (let s := one { wait := .rejoin, parked := 0x80, failedPages := [(0, 0x1000)], parkedOn := [⟨0, 0x1000, 7, 0x1004, 0, 1⟩] };
      (s.group 0).wait = .rejoin ∧ (s.group 0).waitPages = [] ∧ (s.group 0).parkedOn = [⟨0, 0x1000, 7, 0x1004, 0, 1⟩] ∧
        (0, 0x1000) ∈ (s.group 0).failedPages ∧ 7 < 64) ∧
    (let s := full .ldlp []; s.feWaits = [waiter .ldlp] ∧ (s.group 0).ckey = 0 ∧ (s.group 0).wait = .fullEmpty ∧ s.empties = []) ∧
    (let s := full .ldlf []; s.feWaits = [waiter .ldlf] ∧ (s.group 0).ckey = 0 ∧ (s.group 0).wait = .fullEmpty ∧ s.empties = []) ∧
    (let s := full .stle [localLoc 0 589820 / 4];
      s.feWaits = [waiter .stle] ∧ (s.group 0).ckey = 0 ∧ (s.group 0).wait = .fullEmpty ∧
        ((waiter .stle).loc + 4 + 3) / 4 = (waiter .stle).loc / 4 + 1 ∧ (waiter .stle).loc / 4 ∈ s.empties ∧ tableLoc (2 ^ 48) ≤ (waiter .stle).loc) := by
  decide +kernel

/-- A load into V1 of lane 63's place in memory, at the end of a line. -/
def reading : State :=
  { one { allot := 32, width := 64 } with loads := [read 1 { lane := 63, space := 1, loc := 0x503C, value := none, expo := none }] }

/-- A load of a word of host memory, whose line has been asked for, or has come. -/
def far (asked : Bool) (snap : List SnapLine) : State :=
  { one {} with
    loads := [read 1 { lane := 0, space := 5, loc := hostLoc 4, value := none, expo := none }]
    cores := [(0, { snap })]
    reqs := if asked then [request .read 64 0x0200003F 0 ⟨0, 0xC0000000, 5, hostLoc 0, 0, none, 0, 0, 0, false⟩ true 24 false] else [] }

/-- That line, in the cache. -/
def farLine : SnapLine := ⟨hostLoc 0 / 64, 0, 5, List.replicate 64 7, true⟩

/-- A request of group 0 for bytes of die 1's memory: a line's, or the word of a WAITC. -/
def looking (kind : ReqKind) (n : Nat) (performed arrived : Bool) (thr : DWord) : State :=
  { one { wait := .waitc (dieLoc 1 0x5000) 0 thr } with
    reqs := [request kind n 0x0200003F 0 ⟨0, 0x240005000, 2, dieLoc 1 0x5000, 0, none, 0, 0, 7, false⟩ performed 1 arrived] }

/-- A compare-and-swap of the group of `one`, for its own die or for die 1. -/
def swapping (performed : Bool) (home : Nat) (arrived : Bool) : State :=
  { one {} with reqs := [request (.atomic .cas true) 8 0x0300003F 2 ⟨7, 0x5000, 1, 0x5000, 0, none, 7, 0, 9, false⟩ performed home arrived] }

/-- What stands of the one request: performed, its turn has come, it is of its own die, it has arrived. -/
def standing (s : State) : List (Bool × Bool × Bool × Bool) := s.reqs.map (fun r => (r.performed, s.reqDue r, r.home == r.srcDie, r.arrived))

theorem witness_AccessEvents :
    ((loading.loads.find? (fun x => x.uid == 1)).map (fun l => l.parts.map (fun p => p.value)) = some [some 0] ∧ (loading.group 0).live = true) ∧
    (((loading.loads.map (fun l => l.parts.map (fun p => p.space))) = [[0]]) ∧ ({ loading with groups := [] }.group 0).live = false) ∧
    (let s := { swapping false 0 true with loads := [{ read 1 { lane := 0, space := 1, loc := 0x5004, value := none, expo := none } with uid := 2 }] };
      s.atomicPending 0 2 0x5004 4 = true) ∧
    (homePound (hostLoc 4) ≠ 0 ∧ (far false []).atomicPending 0 1 (hostLoc 4) 4 = false ∧ (far false []).lineHeld 0 0 (hostLoc 4) = false ∧
      (far false []).loads.map (fun l => (l.replayed, l.ckey, l.die, l.fn)) = [(false, 0, 0, 0)]) ∧
    (let s := far false [farLine];
      s.lineHeld 0 0 (hostLoc 4) = true ∧ s.reqs = [] ∧ hostLoc 4 % 64 + 4 ≤ 64 ∧ s.snapLine 0 0 (hostLoc 4) = some farLine ∧
        ∀ y ∈ (s.coreOf 0).snap, y.line = farLine.line → y.fn = farLine.fn → y = farLine) ∧
    (let s := far true [];
      (s.reqs.find? (fun x => x.uid == 1)).map (fun r => (r.performed, r.isRead, r.stale, r.srcKey, r.fn)) = some (true, true, false, 0, 0) ∧
        s.snapLine 0 0 (hostLoc 0) = none ∧ s.loads.map (fun l => (l.uid, l.ckey)) = [(1, 0)]) ∧
    (standing (looking .read 16 false true 1) = [(false, true, false, true)] ∧ dieLoc 1 0x5000 + 16 ≤ tableLoc 0) ∧
    standing (looking .word 8 false true 8) = [(false, true, false, true)] ∧ standing (looking .word 8 true true 8) = [(true, true, false, true)] ∧
    (let s (thr : DWord) := looking .word 8 true false thr;
      standing (s 8) = [(true, false, false, false)] ∧ (((s 8).group 0).wait, ((s 7).group 0).wait) = (.waitc (dieLoc 1 0x5000) 0 8, .waitc (dieLoc 1 0x5000) 0 7)) ∧
    ((reading.loads.find? (fun x => x.uid == 1)).map (fun l => l.parts.map (fun p => (p.value, p.lane))) = some [(none, 63)] ∧ reading.reqs = [] ∧
      reading.loads.map (fun l => (l.replayed, l.ckey / 512)) = [(false, homePound 0x503C)] ∧ reading.snapLine 0 0 0x503C = none ∧ 0x503C % 64 + 4 ≤ 64) ∧
    (let s := storing {};
      standing s = [(false, true, true, true)] ∧ s.reqs.map (fun r => (r.uid, r.kind, r.parts.map (fun p => (p.space, p.loc)))) = [(1, .store, [(1, 0x5000)])] ∧
        0x5000 + 4 ≤ tableLoc 0 ∧ (s.group 0).live = true ∧ (s.group 0).team = 0) ∧
    standing (swapping false 0 true) = [(false, true, true, true)] ∧ standing (swapping false 1 true) = [(false, true, false, true)] ∧
    standing (swapping false 1 false) = [(false, false, false, false)] ∧ standing (swapping true 0 true) = [(true, true, true, true)] ∧
    standing (swapping true 1 true) = [(true, true, false, true)] ∧ standing (swapping true 1 false) = [(true, false, false, false)] := by
  and_intros <;> decide +kernel

/-- A record of one team of one group, without local store: its code base, stride, allotment and grid. -/
def recordBytes : List Host.Cell :=
  [(0x8001, 8, 0x30), (0x8008, 4, 256), (0x800C, 4, 0x10000000), (0x8018, 4, 1), (0x801C, 4, 0x10001)].foldl
    (fun m p => Memory.writeNat m p.1 p.2.1 p.2.2) tables

/-- The record as it is read. -/
def plain : LaunchRec := { codeBase := 0x3000, stride := 256, widthCode := 0, deps := [] }

/-- The function of `paged` with what a test gives it. -/
def served (f : Fn) : State :=
  { State.reset with mem := recordBytes, fns := [(0, { f with cfg := { root := 0x1000, enabled := true } })], launches := [(9, { live := true, rcd := plain })] }

/-- A chain's node on queue 15. -/
def node (ready : Bool) : Chain := ⟨0x8000, 1, 15, ready, false, 0, plain⟩

/-- The result that a kernel evaluation of a search gives. -/
theorem witness_selection :
    let s := served { chains := [(63, node true)] }
    s.served 0 = true ∧ (s.fnOf 0).cursor = none ∧
    State.chooseQueue ((s.candidates 0 0 (List.range 16)).1.fnOf 0).rr (s.candidates 0 0 (List.range 16)).2 = some (15, 0) ∧
    (s.candidates 0 0 (List.range 16)).1.readyNode 0 15 = some (63, node true) := by decide +kernel

theorem witness_chain :
    let s := served { chains := [(63, node false)] }
    let r := s.recordWhenDue 0 0 0x8000 (16 + 63)
    (s.fnOf 0).chains.has 63 = true ∧ s.served 0 = true ∧ (r.2.map (fun bs => bs.2 && decide (bs.1 ≠ []) && (r.1.recordCode 0 (parseRecord bs.1)).isNone)) = some true := by
  decide +kernel

/-- The function of key 0 with queue 15's header at 0xE3C0 and words of memory that a test gives. -/
def queueing (area : Nat) (ws : List (Nat × Nat × Nat)) : State :=
  { State.reset with
    mem := ws.foldl (fun m p => Memory.writeNat m p.1 p.2.1 p.2.2) recordBytes
    fns := [(0, { cfg := { root := 0x1000, enabled := true, queueArea := area, faultQ := 0xF000 } })] }

/-- A header: record base 0x8000, entries, control word, tail; its head is 0. -/
def headerWords (entries ctl tail : Nat) : List (Nat × Nat × Nat) :=
  [(0xE3C0, 8, 0x8000), (0xE3C8, 4, entries), (0xE3CC, 4, ctl), (0xE3D0, 8, tail)]

/-- What the read of queue 15's header gives. -/
def headerOf (s : State) : State × PartAcc (List Byte) :=
  (s.watchWord 0 0 ((s.fnOf 0).cfg.queueArea + 64 * 15 + 16) (.event (.launchQueueTailWrite 0 0 15))).partRead (State.depReader 0 15) 0 0 ((s.fnOf 0).cfg.queueArea + 64 * 15) 64

/-- A header as it is read: enabled, well formed, entries, pending. -/
def headerIs (s : State) (e ok : Bool) (n k : Nat) : Prop :=
  ∃ s1 bs, headerOf s = (s1, .ok bs) ∧ ((parseHeader bs).enabled == e && (parseHeader bs).ok == ok && (parseHeader bs).entries == n &&
    ((parseHeader bs).tail + 2 ^ 64 - (parseHeader bs).head) % 2 ^ 64 == k) = true

/-- Headers: in order and at its limit of 65,536 entries, overfull by one, with a nonzero reserved bit, disabled, unreadable. -/
theorem witness_headers :
    headerIs (queueing 0xE000 (headerWords 65536 0x80000003 65536)) true true 65536 65536 ∧
    headerIs (queueing 0xE000 (headerWords 1 0x80000000 2)) true true 1 2 ∧ headerIs (queueing 0xE000 (headerWords 1 0xC0000000 1)) true false 1 1 ∧
    headerIs (queueing 0xE000 (headerWords 1 3 1)) false true 1 1 ∧ (headerOf (queueing 0x140000000 [])).2 = .bad 1 ∧
    (let s := queueing 0xE000 []; s.served 0 = true ∧ ((s.fnOf 0).queues.get 15 {}).stopped = false) := by
  and_intros
  all_goals first
    | exact acc_ok _ (fun _ bs => _) (by decide +kernel)
    | decide +kernel

/-- A queue 15 whose head record is chosen, with what a test writes into the record: what the search finds, the code by which the record is
rejected, its chain's next node. -/
def headFound (ws : List (Nat × Nat × Nat)) : Option (Nat × Nat) × Bool × Option (Option Nat × Bool × Nat × Nat) :=
  let s := queueing 0xE000 (headerWords 1 0x80000002 1 ++ ws)
  let c := s.candidates 0 0 (List.range 16)
  let chosen := State.chooseQueue (c.1.fnOf 0).rr c.2
  let s2 := c.1.modFn 0 (fun f => { f with rr := f.rr.set 2 ((15 + 1) % 16)
                                           queues := f.queues.set 15 { f.queues.get 15 {} with aged := 0, since := none } })
  let h := s2.checkQueue 0 0 15
  let s4 (h : QHdr) : State := ((s2.checkQueue 0 0 15).1.partPut 0 (((s2.checkQueue 0 0 15).1.fnOf 0).cfg.queueArea + 64 * 15 + 24)
    (bytesOf 8 (h.head + 1))).modFn 0 (fun f => { f with queues := f.queues.set 15 { f.queues.get 15 {} with rcd := none } })
  (chosen, (s2.readyNode 0 15).isNone, h.2.bind (fun x => ((h.1.fnOf 0).queues.get 15 {}).rcd.map (fun r =>
    ((s4 x).recordCode 0 (parseRecord r.1), r.2 && decide (r.1 ≠ []), (parseRecord r.1).chainNext, (parseRecord r.1).barrier))))

/-- A plain record, the first of a chain, one with a nonzero reserved field, one whose dependence word cannot be read. -/
theorem witness_heads :
    headFound [] = (some (15, 2), true, some (none, true, 0, 0)) ∧ headFound [(0x8078, 8, 0x8100)] = (some (15, 2), true, some (none, true, 0x8100, 0)) ∧
    headFound [(0x8006, 2, 1), (0x8070, 8, 0xA000)] = (some (15, 2), true, some (some 1, true, 0, 0xA000)) ∧
    headFound [(0x8030, 8, 0x140000000)] = (some (15, 2), true, some (none, false, 0, 0)) := by
  and_intros <;> exact of_decide_eq_true (by decide +kernel)

/-- A team of launch 9, bound to slot 5, whose grid is at its end. -/
def ending (bad : Bool) (firing : List Nat) (teams : Table Team) (held endpoint : Bool := false) : State :=
  { served {} with
    teams := teams
    launches := [(9, { live := true, rcd := { plain with lsBytes := 768, bound := true, slot := 5, tileBytes := 256, aliasStride := 256 }, placed := 1,
                       ended := 1, bad := bad, firing := firing })]
    basin := { (reducing 0 0).basin with
      slots := if held then [(5, { state := 1 })] else []
      colls := (reducing 0 0).basin.colls.map (fun (p : Nat × Coll) => (p.1, { p.2 with endpoint := endpoint })) } }

theorem witness_LaunchEvents :
    (served {}).served 0 = true ∧ State.chooseQueue [] [(3, 1), (15, 1), (0, 0)] = some (3, 1) ∧
    (let s := { served { queues := [(15, { since := some 0 })] } with basin := { time := 65536 } };
      ((s.fnOf 0).queues.get 15 {}).since = some 0 ∧ 0 + 65536 ≤ s.basin.time.toNat) ∧
    (let y (fresh : Bool) (u : Nat) : SavedTeam := ⟨u, [], [], [], [], none, fresh, [], [], [], [], 0, 0⟩;
      let s (y : SavedTeam) := { served { cursor := some (9, 0), saved := [y] } with teams := [(4, { launch := 9 }), (5, { launch := 8 })] };
      (((s (y false 5)).fnOf 0).saved = [y false 5] ∧ (y false 5).fresh = false) ∧
        (((s (y true 4)).fnOf 0).saved = [y true 4] ∧ ((s (y true 4)).teamOf 4).launch = 9) ∧
        (((s (y true 5)).fnOf 0).saved = [y true 5] ∧ ((s (y true 5)).teamOf 5).launch ≠ 9)) ∧
    (let s := served { cursor := some (9, 0) };
      (s.fnOf 0).cursor = some (9, 0) ∧ s.served 0 = true ∧ (s.fnOf 0).saved = [] ∧ (s.launch 9).rcd.cooperative = false ∧
        (s.placeUnit 9 0).isSome = true ∧ (s.launch 9).rcd.clusterW = 0 ∧ (s.launch 9).rcd.groups = 1 ∧
        s.fitUnit 0 0 0 [(s.launch 9).rcd.need] = some [(0, [(0, 0)], 0)]) ∧
    (let s := { one {} with teams := [(0, { live := true, groups := [0], gone := [0] })] }; (s.teamOf 0).live = true ∧ s.teamGroups 0 = []) ∧
    (let s (held endpoint : Bool) := ending false [4] [(4, { launch := 9, lsSize := 768 })] held endpoint;
      let found (s : State) := (s.openColl (s.fnOf 0).cfg.tenant (s.launch 9).rcd.slot).map (fun e => (e.1, s.holdsSlot (s.fnOf 0).cfg.tenant (s.launch 9).rcd.slot, e.2.fixed, e.2.endpoint));
      4 ∈ ((s true false).launch ((s true false).teamOf 4).launch).firing ∧ ((s true false).teamOf 4).bad = false ∧ ((s true false).teamOf 4).die < 24 ∧
        ((s true false).coreOf 0).score = [] ∧ found (s true false) = some (0, true, true, false) ∧ found (s false true) = some (0, false, true, true) ∧
        found (s false false) = some (0, false, true, false)) ∧
    (let s := ending true [] [];
      (s.launch 9).live = true ∧ s.gridBusy 9 = false ∧ (s.launch 9).waiting = none ∧ (s.launch 9).chain = none ∧ (s.launch 9).rcd.barrier = 0) ∧
    (let s := { served {} with launches := [(9, { live := true, rcd := { plain with barrier := 0x9000 }, placed := 1, ended := 1 })] };
      s.gridBusy 9 = false ∧ (s.launch 9).rcd.barrier ≠ 0 ∧ (s.launch 9).arrived = false ∧ (s.arriveAt 0 0 0x9000 0 false).2 = .ok ()) ∧
    ((0x1F : DWord).toNat % 64 ≠ 0 ∧ (0xFFFFF : BitVec 20) &&& ~~~((served {}).columns 1) ≠ 0 ∧ (0xFFFFF : BitVec 20) &&& ~~~((served {}).columns 0) = 0 ∧
      (served {}).unitsOn 0 0xFFFFF = []) ∧
    (let s := { served {} with teams := [(4, { live := true, launch := 9, groups := [0] })], groups := [(0, { live := true, team := 4 })] };
      s.unitsOn 0 0xFFFFF = [[4]] ∧ (∃ x ∈ [4], (s.teamOf x).live = true) ∧ s.drainCost [4] ≤ 500 ∧ ¬ s.drainCost [4] ≤ 499 ∧ s.canFlush [4] = false ∧
        s.saveCost [4] ≤ 1208 ∧ 499 < s.saveCost [4] ∧ s.atBoundary [4] = true ∧ (s.teamOf 4).die * 8 + (s.teamOf 4).fn = 0) ∧
    (let s := { served {} with
        teams := [(4, { live := true, launch := 9, groups := [0] })], groups := [(0, { live := true, team := 4 })]
        launches := [(9, { live := true, rcd := { plain with restartable := true } })] };
      s.unitsOn 0 0xFFFFF = [[4]] ∧ 499 < s.drainCost [4] ∧ 499 < s.saveCost [4] ∧ (s.launch (s.teamOf 4).launch).rcd.restartable = true) ∧
    (let p (d v : List (List Nat)) (n : Nat) : Preempt := ⟨0xFFFFF, 7, 0, d, v, 0, 0, 0, 0, n, 0⟩;
      let s (x : Preempt) := served { preempts := [x] };
      ((s (p [[4]] [] 6)).fnOf 0).preempts = [p [[4]] [] 6] ∧ (p [[4]] [] 6).draining ≠ [] ∧ (p [[4]] [] 6).spent < (p [[4]] [] 6).bound ∧
      (p [[4]] [] 7).bound ≤ (p [[4]] [] 7).spent ∧ ((p [] [] 0).draining = [] ∧ (p [] [] 0).saving = []) ∧ (p [] [[4]] 0).saving = [[4]]) ∧
    (let y : SavedTeam := ⟨4, [{ live := true }], [], [], [], none, false, [], [], [], [], 0, 0⟩;
      let s := { served { saved := [y] } with teams := [(4, { live := true, launch := 9, groups := [0] })] };
      (s.fnOf 0).saved = [y] ∧ s.served 0 = true ∧ (s.launch (s.teamOf y.uid).launch).rcd.cooperative = false ∧ (s.teamOf y.uid).cluster = [] ∧
        (s.restoreUnits 0 [y] 2).isSome = true) := by
  and_intros <;> decide +kernel

/-! ### Links and the network -/

/-- A packet of copy 3, chunk 0, transmitted `sent` times and due. -/
def packet (sent : Nat) : Packet := ⟨1, 3, 0, 0, false, sent, 0, false, 24, false, none, [1], none, false, true, false, 0⟩

def tmpl : Template :=
  { src := 0, dst := 0, srcKind := 0, dstKind := 2, srcType := 9, dstType := 9, scaled := false, sat := false, rnd := 0, tileBytes := 512, srcStride := 0,
    dstStride := 0, scaleDst := 0, band := 0, rod := false, flagged := false, netDie := 0, netPkg := 0, netReg := 0, counter := 0 }

/-- A copy of a template under handle 0x30010005. -/
def copy3 (t : Template) (accepted : Nat) (started : List Nat) (keeper : Option (List Nat)) : Copy :=
  { uid := 3, org := ⟨0, 0, 0, 0, 0, 0x30010005, 0⟩, fn := 0, channel := 0, tile := 0, templAddr := 0x4000, tmpl := some t, lsBase := 0,
    lsSize := 589824, accepted := accepted, started := started, flying := [], landed := [], sentAt := 0, bitmap := 0, cancelled := false, keeper := keeper,
    failed := none, waiting := none, waitAt := 0 }

/-- A machine with that copy and its team. -/
def copying (c : Copy) (ps : List Packet) : State :=
  { paged {} with teams := [(0, busyTeam true)], copies := [c], packets := ps }

/-- The package with a Basin that a test gives. -/
def basined (b : Basin) : State := { State.reset with basin := b }

/-- A port direction at port 24 with keys. -/
def port24 (d : PortDir) : State := basined { ports := [(48, d)] }

/-- A flit of sequence `n`, and link direction 71 with three of them, of which the first has been delivered. -/
def flit (n : BitVec 10) : Sent := ⟨n, ⟨23, 24, false, 0, none⟩, 1⟩
def lined (hop : Nat) : State := basined { dirs := [(71, { replay := [flit 1023, flit 0, flit 1], expect := 0, hopReq := List.replicate hop (flit 0).flit })] }

/-- A package of dies 0 and 1, whose routes are being changed, with an entry of a test for the one toward die 1. -/
def routed (e : RouteEntry) (resp : Bool) : State :=
  { basined { rerouting := true } with live := 3 }.modBasin (fun b => { b with routes := b.routes.set (State.routeKey e.router e.dest resp) e.next })

/-- A store of group 0 on its way to die 1, whose flits have been lost with a route. -/
def lost (routeTime : Nat) : State :=
  { one {} with
    reqs := [request .store 4 0x0200003F 0 ⟨0, 0x1000000000000, 1, 0x1000000005000, 0, none, 7, 0, 0, false⟩ false 1 false]
    basin := { time := 20000, routeTime := routeTime } }

/-- Reissue, acknowledgement, CRC failure, hold, modules, routes. -/
theorem witness_LinkAndNetworkEvents :
    ((lost 0).outstanding.map (fun x => (lost 0).reissueDue x.2) = [false] ∧ (lost 1).outstanding.map (fun x => (lost 1).reissueDue x.2) = [true] ∧
      (lost 1).sures = [] ∧ (lost 1).nextHop 0 1 false = some 1 ∧ (lost 1).room (dirNo 0 1) false = true ∧ ((lost 1).dirOf (dirNo 0 1)).waitReq = [] ∧ 4 * 1 ≤ 240) ∧
    (let l := (lined 0).dirOf 71;
      (l.replay = [] ++ flit 1023 :: [flit 0, flit 1] ∧ (flit 1023).seq ≠ l.expect ∧ (flit 0).seq = l.expect ∧ (∃ y ∈ [flit 1023, flit 0], y.seq = l.expect)) ∧
        (∀ y ∈ [flit 1023], y.seq ≠ (flit 0).seq) ∧ l.undelivered = [] ++ flit 0 :: [flit 1] ∧
        (∀ y ∈ l.undelivered, y.seq ≠ 1023) ∧ (∃ y ∈ l.undelivered, y.seq = (flit 0).seq)) ∧
    (let s := basined { retries := [(4 * 35 + 3, List.replicate 16 0)] };
      (s.linkOf 35).modules[3]? = some .x64 ∧ 16 ≤ ((s.basin.retries.get (4 * 35 + 3) []).filter (fun y => decide (s.basin.time.toNat < y + 1000000))).length) ∧
    ((((lined 48).dirOf 71).hop false).length ≤ 48 ∧ 48 < (((lined 49).dirOf 71).hop false).length ∧ 32 ≤ (((lined 32).dirOf 71).hop false).length ∧
      (((lined 31).dirOf 71).hop false).length < 32) ∧
    (let k (m : Module) := ((basined { links := [(35, { modules := [.fenced, .fenced, .fenced, m] })] }).basin.links.get 35 {}).modules[3]?;
      k .x64 = some .x64 ∧ k .x32 = some .x32 ∧ k .training = some .training ∧ k .fenced = some .fenced ∧ (35 : Nat) < 36) ∧
    ((basined {}).basin.rerouting = false ∧ (basined {}).linkUp 0 23 = false) ∧ (basined {}).basin.colls = [] := by
  and_intros <;> decide +kernel

/-- A route entry that stands, from die 0 to die 1; the first pair of links at a change. -/
theorem witness_RouteChange :
    let e : RouteEntry := ⟨0, 1, 1⟩
    let s := { basined { rerouting := true } with live := 3 }
    let w := routed e true
    s.basin.rerouting = true ∧ s.linkUp e.router e.next = true ∧ e.next = e.dest ∧ w.reaches e.router e.dest true 24 = true ∧
      (∀ x, x < 25 → w.path x e.dest true 24 = s.path x e.dest true 24 ∨ w.reaches x e.dest true 24 = true ∧
        (x = 24 ∨ e.dest = 24 ∨ w.linkUp x e.dest = true ∨ State.routeForm (w.path x e.dest true 24) = true)) ∧ w.acyclic true = true := by
  and_intros <;> decide +kernel

/-- Link keys: installed beside the current epoch's, switched, retired at the sender, and at the receiver by count or by time. -/
theorem witness_LinkKeys :
    ((port24 {}).packets = [] ∧ (port24 {}).basin.ackWait = []) ∧
    ((port24 { slot0 := .active }).portDir 48).slot0 ≠ .empty ∧ ((port24 { slot0 := .active }).portDir 48).slot1 = .empty ∧
    ((port24 { epoch := true, slot1 := .active }).portDir 48).slot1 ≠ .empty ∧ ((port24 { epoch := true, slot1 := .active }).portDir 48).slot0 = .empty ∧
    ((port24 { slot0 := .active, slot1 := .active }).portDir 48).slot1 = .active ∧
    ((port24 { epoch := true, slot0 := .active }).portDir 48).slot0 = .active ∧
    ((port24 { epoch := true, slot0 := .retiring }).portDir 48).slot0 = .retiring ∧ ((port24 { slot1 := .retiring }).portDir 48).slot1 = .retiring ∧
    (let s := basined { ports := [(49, { newPackets := 1025 })] }; 1024 < (s.portDir 49).newPackets ∧ (s.portDir 49).epoch = false) ∧
    (let s := basined { ports := [(49, { newPackets := 1, epoch := true })], time := 1000000 };
      (s.portDir 49).newPackets ≠ 0 ∧ (s.portDir 49).newSince + 1000000 ≤ s.basin.time.toNat ∧ (s.portDir 49).epoch = true) := by
  decide +kernel

/-- Port 39 with keys of epoch 1 both ways, and a collective of slot 5 in which it takes part. -/
def port39 : Basin := { ports := [(78, { slot1 := .active, epoch := true }), (79, { slot1 := .active, epoch := true })] }
def joined : State :=
  let s := reducing 0 0
  { s with basin := { port39 with colls := s.basin.colls.map (fun (p : Nat × Coll) => (p.1, { p.2 with parts := 0x8000000001 })) } }

/-- A packet of package 1,023, and the registration that admits it. -/
def netPacket (psn : Nat) (rod : Bool) : NetPacket := ⟨⟨1023, 7, psn, rod⟩, ⟨[1, 2], none⟩, 0, 2047, 4094, none⟩
def exporting (done : List Nat) : State :=
  { paged {} with
    basin := { port39 with inbound := [⟨39, 1023, 7, done, []⟩, ⟨39, 1024, 0, [5], []⟩] }
    regs := [(2047, { state := .valid, base := 0x9000, pages := 1, write := true, network := true, impPkg := 1023 })] }

/-- Time-outs of a packet: not due, due, for the eighth time, of a FWDE. -/
theorem witness_Timeouts :
    (let s := { copying (copy3 tmpl 1 [0] none) [packet 7] with basin := { ports := [(48, { slot0 := .active })] } };
      s.packets.find? (fun y => y.uid == 1) = some (packet 7) ∧ (packet 7).sent ≠ 0 ∧ (packet 7).acked = false ∧ (packet 7).sent < 8 ∧
        (packet 7).due ≤ s.basin.time.toNat ∧ s.canSeal (packet 7).port = true) ∧
    (State.reset.basin.time.toNat < { packet 1 with due := 8000 }.due) ∧
    (packet 7).atPort = true ∧
    (8 ≤ (packet 8).sent ∧ (packet 8).fwde = none ∧ (copying (copy3 tmpl 1 [0] none) [packet 8]).copyOf 3 = some (copy3 tmpl 1 [0] none)) ∧
    ((reducing 0 0).collOf 0).map (fun c => (c.bindings, c.openers)) = some ([], []) := by
  decide +kernel

/-- What arrives at a port: not authentic or without a key, a packet, a FWDE packet and its duplicate, an acknowledgement; and at the
target a duplicate, a packet for a missing earlier one, one that its registration does not admit, one that it does. -/
theorem witness_Arrivals :
    (let s := exporting [];
      24 ≤ 39 ∧ 39 < 40 ∧ s.basin.fencedPorts.getLsbD 39 = false ∧ (s.portDir 79).slot1 ≠ .empty ∧ (s.portDir 79).slot0 = .empty ∧ (s.portDir 79).epoch = true ∧
        s.nextHop 24 0 false = some 0 ∧ s.room (dirNo 24 0) false = true ∧ (s.dirOf (dirNo 24 0)).waitReq = [] ∧ (netPacket 0 false).bytes.length ≤ 240) ∧
    (let s := joined;
      ((s.basin.colls.find? (fun y => y.2.slot == 5 && y.2.has 39)).map Prod.fst) = some 0 ∧ s.canSeal 39 = true ∧
        (s.inboundOf 39 1024 0).done = [] ∧
        ((s.collOf 0).map (fun c => decide (c.next ≤ 1) && decide (256 * 1 + 256 ≤ c.window) && !c.endpoint && c.counts.get (countKey 2 1 39) 0 == 0)) = some true) ∧
    (5 ∈ ((exporting []).inboundOf 39 1024 0).done ∧ (exporting []).canSeal 39 = true) ∧
    (let p := { packet 1 with port := 39 };
      let s := { copying (copy3 tmpl 1 [0] none) [p] with basin := port39 };
      (s.packets.find? (fun y => y.uid == 1) = some p ∧ s.packets.find? (fun y => y.uid == 1 && y.port == 39 && y.sent != 0 && !y.acked) = some p) ∧
        s.copyOf p.copy = some (copy3 tmpl 1 [0] none) ∧ s.nextHop 24 0 true = some 0 ∧ s.room (dirNo 24 0) true = true ∧
        (s.dirOf (dirNo 24 0)).waitResp = []) ∧
    (let s := basined { ports := [(79, { slot0 := .active, slot1 := .active, newPackets := 1024 })] };
      (s.portDir 79).slot1 ≠ .empty ∧ (s.portDir 79).epoch = false ∧ s.packets = [] ∧ 1024 ≤ (s.portDir 79).newPackets ∧
        ((basined { ports := [(79, { slot1 := .active })] }).portDir 79).newPackets = 0) ∧
    (let p := { packet 1 with acked := true };
      let s := copying (copy3 tmpl 1 [0] none) [p];
      s.packets.find? (fun y => y.uid == 1 && y.acked && !y.back) = some p ∧ s.copyOf 3 = some (copy3 tmpl 1 [0] none) ∧
        ((s.teamOf 0).ops.get (Nat.mod 0x30010005 128) {}).handle = 0x30010005) ∧
    (3 ∈ ((exporting [3]).inboundOf 39 1023 7).done ∧ (netPacket 3 true).read = none) ∧
    (3 ∉ ((exporting []).inboundOf 39 1023 7).done ∧ 2 < 3 ∧ 2 ∉ ((exporting []).inboundOf 39 1023 7).done) ∧
    (exporting []).admits { netPacket 3 false with index := 2046 } = false ∧
    (let s := exporting [];
      s.admits (netPacket 3 false) = true ∧ (netPacket 3 false).scale = none ∧
        (s.exportPlaces 0 (s.regs.get 2047 {}) .store 4094 2).2 = .ok [(0x9FFE, 0, 2, none)]) ∧
    (let s := { exporting [] with incrs := [{ uid := 1, die := 0, fn := 0, addr := 0xA000, bytes := 2, copy := none, net := some 2047, host := false, waiting := none, ack := some (39, netPacket 3 false) }] };
      ∃ i ∈ s.incrs, ∃ y, i.ack = some (39, y) ∧ y.pkg = 1023 ∧ y.context = 7 ∧ y.psn = 3) ∧
    (let r : Reg := { state := .valid, base := 0x100000000, pages := 1, read := true, write := true, network := true, impPkg := 1023, counter := 0xA000 };
      let s := { wide {} with regs := [(2047, r)] };
      r.counter ≠ 0 ∧ s.admits (netPacket 3 false) = true ∧ s.admits { netPacket 3 false with bytes := [], read := some 2 } = true ∧
        (s.exportPlaces 0 r .store 4094 2).2 = .wait 0 0x100000000) := by
  and_intros
  all_goals first
    | decide +kernel
    | exact ⟨_, List.mem_singleton.mpr rfl, _, rfl, rfl, rfl, rfl⟩

/-! ### Engines and copies -/

def org3 : Origin := ⟨0, 0, 0, 0, 0, 0x30010005, 0⟩

def half1 : FormatHalf := ⟨1, false, false, 0, 0, 0⟩

/-- The core of `paged` with matrix commands and MVECs, all of the team's operation 5. -/
def engined (mx : List MxCmd) (nm : List NmCmd) : State :=
  { paged {} with teams := [(0, busyTeam true)], cores := [(0, { tileOwner := some 0, mx := mx.map (fun c => (org3, c)), nm := nm.map (fun c => (org3, c)) })] }

/-- An MVEC of one column of 256 BF16 elements at 0xC0000000. -/
def mvec1 (cancelled : Bool) : NmCmd := ⟨0x4000, 512, 0xC0000000, 1, 0x10000, half1, half1, 0, cancelled, none⟩

/-- `engined` with a page of 2 MiB there. -/
def mvecS : State :=
  let s := engined [] [mvec1 false]
  { s with mem := Memory.writeNat (Memory.writeNat s.mem 0x2018 8 0x3001) 0x3000 8 0x2E7 }

def rotate (started : Bool) (left : Nat) : RtCmd := ⟨0, 32768, 32768, 0, started, left⟩

/-- A ring of the teams 7 and 0 on cores 1 and 0, each with a ROTATE. -/
def ring2 (started : Bool) (left : Nat) : State :=
  { State.reset with
    teams := [(0, { live := true, cluster := [7, 0], ring := some 1 }), (7, { live := true, core := 1, cluster := [7, 0], ring := some 0 })]
    cores := [(0, { rt := [(org3, rotate started left)] }), (1, { rt := [({ org3 with core := 1, team := 7 }, rotate started left)] })] }

/-- Chunks that go to and from memory: kind 1 at both ends. -/
def tmplM : Template := { tmpl with srcKind := 1, dstKind := 1, src := 0x9000, dst := 0xA000 }

/-- One whose destination is not mapped, and one to host memory, at 3 × 2^30. -/
def tmplB : Template := { tmplM with dst := 0x140000000 }
def tmplH : Template := { tmplM with dst := 0xC0000000 }

/-- A copy whose one chunk has started; the tables have a page of host memory. -/
def chunking (t : Template) (flying landed : List Away) : State :=
  { wide {} with teams := [(0, busyTeam true)], copies := [{ copy3 t 1 [0] none with flying := flying, landed := landed }] }

/-- What a chunk's translation gives: how many places are far and near, or a reason. -/
def pathOf (t : Template) : Option (Bool × Nat) :=
  match ((chunking t [] []).chunkPath (copy3 t 1 [0] none) t 0).2 with
  | .ok a => some (State.farChunk 0 a, a.chunk)
  | _ => none

/-- A chunk on its way to host memory. -/
def away : Away := ⟨0, 7, [(0x9000, 0, 512, none)], [(hostLoc 0, 0, 512, none)], [], [(24, 0)]⟩

theorem chunk_path (t : Template) (b : Bool) (h : pathOf t = some (b, 0)) :
    ∃ s1 a, (chunking t [] []).chunkPath (copy3 t 1 [0] none) t 0 = (s1, .ok a) ∧ State.farChunk 0 a = b ∧ a.chunk = 0 := by
  unfold pathOf at h
  cases e : (chunking t [] []).chunkPath (copy3 t 1 [0] none) t 0 with
  | mk s1 x =>
    rw [e] at h
    cases x with
    | ok a => exact ⟨s1, a, rfl, congrArg Prod.fst (Option.some.inj h), congrArg Prod.snd (Option.some.inj h)⟩
    | _ => cases h

theorem mvec_outputs : ∃ s1 l, mvecS.mvecOutputs org3 (mvec1 false)
    (rowValues half1 (splitElems (blockFmt half1.type).bits (mvecS.bytesAt (mvecS.orgLoc org3 0x4000) 512)) []) (min 16 (1 - 0)) = (s1, .ok l) ∧
    true = true := acc_ok _ (fun _ _ => true) (by decide +kernel)

theorem witness_EngineEvents :
    (let s := engined [.mloop 7 0 0x2000 4096 16 (-16) half1 half1 16 16 4095 false 0] [];
      s.mxHead 0 7 = some (org3, .mloop 7 0 0x2000 4096 16 (-16) half1 half1 16 16 4095 false 0) ∧
        s.stepBlocked org3 0 0x2000 16 (-16) half1 half1 4095 = false ∧ (4095 + 1 = 4096) ∧
        ((s.teamOf 0).ops.get (org3.handle.toNat % 128) {}).handle = org3.handle) ∧
    (let s := engined [.mzero 7 0] []; s.mxHead 0 7 = some (org3, .mzero 7 0)) ∧
    (let s := engined [.mstore 7 0 64 16 16 0 true] [];
      s.mxHead 0 7 = some (org3, .mstore 7 0 64 16 16 0 true) ∧ s.engineBlocked org3 0 (0 + (16 - 1) * 64 + 16 * 4) true = false ∧ 16 * 4 ≤ 64) ∧
    ((engined [] [mvec1 true]).coreOf 0).nm = [(org3, mvec1 true)] ∧
    ((mvecS.coreOf 0).nm = [(org3, mvec1 false)] ∧ mvecS.engineBlocked org3 0x4000 (0x4000 + 512) false = false ∧
      mvecS.engineBlocked org3 (0x10000 + 4 * 0) (0x10000 + 4 * (0 + min 16 (1 - 0))) true = false) ∧
    (let s := ring2 false 256; s.ringHeads 0 = some [({ org3 with core := 1, team := 7 }, rotate false 256), (org3, rotate false 256)] ∧
      s.engineBlocked org3 0 32768 false = false ∧ s.engineBlocked org3 32768 65536 true = false ∧
      ((s.teamOf 7).die, (s.teamOf 7).core, (s.teamOf 0).die, (s.teamOf 0).core) = (0, 1, 0, 0)) ∧
    (let s := ring2 true 0; s.ringHeads 0 = some [({ org3 with core := 1, team := 7 }, rotate true 0), (org3, rotate true 0)] ∧
      (s.teamOf 7).lsBase + 32768 + 32768 ≤ 589824) ∧
    (let i : Incr := { uid := 1, die := 0, fn := 0, addr := 0x9000, bytes := 512, copy := none, net := none, host := false, waiting := none };
      let s (i : Incr) := { paged {} with incrs := [i] };
      ((s i).incrs.find? (fun x => x.uid == 1) = some i ∧ ((s i).translate 0 0 none 0x9000 8 .own64).2 = .ok 1 0x9000 0 none ∧
        0x9000 + 8 ≤ tableLoc 0 ∧ homePound 0x9000 = 0) ∧
        (let j := { i with copy := some 3, addr := 0x240001000 };
          let r : Reg := { state := .valid, base := 0x9000, pages := 2, read := true, write := true, atomic := true, peer := true };
          let x := { copying (copy3 tmplM 1 [0] none) [] with
            mem := [(0x2048, 8, 2 ^ 43 + 0x2EB), (dieLoc 1 0x1000, 8, 0x2001), (dieLoc 1 0x2000, 8, 0x2E7)].foldl
              (fun (m : Memory) (p : Nat × Nat × Nat) => Memory.writeNat m p.1 p.2.1 p.2.2) tables
            incrs := [j], fns := [(0, { cfg := { root := 0x1000 } }), (8, { cfg := { root := 0x1000 } })], regs := [(2048, r)] };
          x.incrs.find? (fun y => y.uid == 1) = some j ∧ (x.copyOf 3).map (fun c => c.failed) = some none ∧
            (x.translate 0 0 none j.addr 8 .atomic).2 = .ok 2 (dieLoc 1 0xA000) 0 (some 2048) ∧ homePound (dieLoc 1 0xA000) ≠ 0) ∧
        (s { i with home := some (1, 0x9000, 0) }).incrs.find? (fun x => x.uid == 1) = some { i with home := some (1, 0x9000, 0) }) := by
  and_intros <;> decide +kernel

/-- The states of these witnesses in which what is written is read back keep the canonical form of memory. -/
theorem witness_ReadBack :
    Inv (recording (some 0)) ∧ Inv (local8 [wordOf 1]) ∧ Inv (local8 []) ∧ Inv (full .stle [localLoc 0 589820 / 4]) ∧ Inv (storing {}) ∧
    Inv (swapping false 0 true) ∧ Inv (swapping false 1 true) ∧ Inv (engined [.mstore 7 0 64 16 16 0 true] []) ∧ Inv mvecS ∧ Inv (ring2 true 0) ∧
    Inv (paged {}) := by
  unfold Inv
  and_intros <;> decide +kernel

/-- A copy of 64 chunks from the local store to memory, of which 63 are accepted; its function with what a test gives it. -/
def tmplL : Template := { tmpl with dstKind := 1, tileBytes := 32768 }
def accepting (f : Fn) (pool : Nat) : State := { copying (copy3 tmplL 63 [] none) [] with fns := [(0, f)], dies := [(0, { pool := pool })] }

/-- A copy of a higher-numbered function behind one of function 0 in the agenda, with nothing in its bucket. -/
def behind : State :=
  let s := accepting {} 0
  { s with
    copies := [{ copy3 tmplL 63 [] none with fn := 1 }, { copy3 tmplL 63 [] none with uid := 4 }]
    agenda := [.event (.copyChunkAcceptance 4)] }

/-- Chunks: one for a token in the bucket, with an empty bucket behind a lower function, in debt, with a pool to borrow from; one that
leaves for the Basin, one that fails, one of the own die, one on its way, one that has arrived, one left to the Keeper. -/
theorem witness_EngineEvents_chunks :
    (let s := accepting { level := 1 } 0;
      let c := copy3 tmplL 63 [] none;
      s.copyOf 3 = some c ∧ c.accepted < tmplL.chunks ∧ s.channelBusy c = false ∧ s.isSaved 0 = false ∧ s.chunkBlocked c tmplL 63 = false ∧
        0 < (s.fnOf 0).level) ∧
    (behind.copyOf 3 = some { copy3 tmplL 63 [] none with fn := 1 } ∧ (behind.fnOf 1).level = 0 ∧ behind.borrowBehind { copy3 tmplL 63 [] none with fn := 1 } = true) ∧
    (let s := accepting { debt := 1 } 0; (s.fnOf 0).level = 0 ∧ s.borrowBehind (copy3 tmplL 63 [] none) = false ∧ (s.fnOf 0).debt ≠ 0) ∧
    (let s := accepting { cfg := { depth := 64 } } 100; (s.fnOf 0).debt = 0 ∧ min (s.fnOf 0).cfg.depth (s.die 0).pool ≠ 0) ∧
    (let s := chunking tmplH [] [];
      s.copyOf 3 = some (copy3 tmplH 1 [0] none) ∧ s.isSaved 0 = false ∧ s.netRoom 0 = true ∧ (copy3 tmplH 1 [0] none).keeper = none ∧ pathOf tmplH = some (true, 0) ∧
        pathOf tmplB = none ∧ pathOf tmplM = some (false, 0)) ∧
    (let s := chunking tmplH [away] []; s.copyOf 3 = some { copy3 tmplH 1 [0] none with flying := [away] }) ∧
    (let s := chunking tmplH [] [away];
      s.copyOf 3 = some { copy3 tmplH 1 [0] none with landed := [away] } ∧ [away].find? (fun b => b.chunk == 0) = some away ∧ s.chunkDue { copy3 tmplH 1 [0] none with landed := [away] } away = true ∧
        State.farPounds 0 (away.dst ++ away.scale) ≠ [] ∧ State.farPounds 0 { away with dst := [(0xA000, 0, 512, none)] }.dst = [] ∧
        ((s.teamOf 0).ops.get (Nat.mod 0x30010005 128) {}).handle = 0x30010005 ∧ 0 ∉ (copy3 tmplH 1 [0] none).keeper.getD []) ∧
    (let c := copy3 tmplM 1 [] (some [0]);
      let s := copying c [];
      s.copyOf 3 = some c ∧ (s.die 0).keeperDead = false ∧ c.keeper = some [0] ∧ 0 < c.accepted ∧ s.chunkBlocked c tmplM 0 = false) := by
  and_intros <;> decide +kernel

/-! ### The Basin -/

/-- A COPEN of die 0 for slot 255, whose program consists of `end`. -/
def asked : OpenReq :=
  { uid := 1, org := org3, program := 0, slot := 255, parts := 1, window := 256, object := 0, root := 0, arrived := true, sentAt := 0 }

def opening : State :=
  { State.reset with
    opens := [asked]
    basin := { slots := [(255, { state := 1 })] } }

/-- An alias store of 64 bytes for die 0's place of the reduce window of `reducing 1 0`, of which 192 bytes stand; the collective's path. -/
def stored (endpoint arrived : Bool) : State :=
  let s := reducing 1 0
  { s with
    basin := { s.basin with colls := s.basin.colls.map (fun (p : Nat × Coll) => (p.1, { p.2 with counts := [(countKey 0 1 0, 192)], endpoint := endpoint })) }
    aliases := [{ uid := 1, gkey := 0, team := 0, die := 0, tenant := 0, slot := 5, window := 0, off := 448, bytes := List.replicate 64 1, arrived,
                  relayed := false, sentAt := 0, replayed := false }] }

/-- A collective of one chunk whose body is `end`, at chunk `n`. -/
def single (n : Nat) (busy : Table Nat) (endpoint : Bool := false) : State :=
  let s := reducing 0 0
  { s with basin := { s.basin with lockBusy := busy, colls := s.basin.colls.map (fun (p : Nat × Coll) => (p.1, { p.2 with window := 256, next := n, endpoint := endpoint })) } }

/-- Contest 63 with a change written at 0 and a bid of die 23 in slot 7. -/
def contesting (arrived : Bool) (time : DWord) (inRound : Bool) : State :=
  { State.reset with
    basin := { time := time, round := 3, inRound := inRound, contests := [(63, { enabled := true, hold := true, tenant := 0, mask := 0x1FFFFFF })]
               contestChanges := [⟨63, { enabled := true, tenant := 1, mask := 1 }, 0, false, false⟩]
               presented := if inRound then [⟨63, 23, 7, 5, 0⟩] else [] }
    dies := [(23, { bids := [(7, ⟨63, 5, 0x50010000, { org3 with die := 23 }, arrived, false⟩)] })] }

theorem witness_BasinEvents :
    (let s := opening;
      s.opens.find? (fun y => y.uid == 1) = some asked ∧ s.aliases = [] ∧ (∀ y ∈ s.opens, 1 ≤ y.uid) ∧ s.openColl 0 255 = none ∧
        asked.org.die ≠ 24 ∧ s.slotOf 255 = { state := 1 } ∧ s.partsLive 1 = true ∧ openable (s.programWords 0) 1 (s.slotOf 255).masks = true ∧ s.basin.colls = [] ∧
        BitVec.getLsbD (1 : BitVec 42) 0 = true) ∧
    (let s := { stored false true with basin := {} };
      s.aliases.map (fun a => (s.aliasDue a, a.hostFn, a.relayed, a.die)) = [(true, none, false, 0)] ∧ s.openColl 0 5 = none) ∧
    (((one {}).group 0).live = true ∧ ((one {}).group 0).team = 0) ∧
    (let s := stored false true;
      s.aliases.map (fun a => s.aliasDue a) = [true] ∧ (s.openColl 0 5).map Prod.fst = some 0 ∧
        (s.collOf 0).map (fun c => !c.endpoint && c.has 0 && decide (c.next ≤ 448 / 256) && decide (c.counts.get (countKey 0 (448 / 256) 0) 0 + 64 ≤ 256)
          && decide (448 + 64 ≤ c.window) && decide (448 % 256 + 64 ≤ 256)) = some true) ∧
    (let s := stored true true;
      s.aliases.map (fun a => (s.aliasDue a, a.relayed)) = [(true, false)] ∧ (s.collOf 0).map (fun c => c.endpoint && c.has 0 && decide (c.root < 24)) = some true) ∧
    (let s := stored false false; s.aliases.map (fun a => s.aliasDue a) = [false]) ∧
    (let s := single 0 [] true; (s.collOf 0).map (fun c => c.endpoint && s.bodyDue c && c.instr == .henatEnd && c.outs.isEmpty) = some true) ∧
    (let s := single 0 [];
      ((s.basin.colls.filter (fun e => s.bodyDue e.2 && !e.2.endpoint && e.2.lock == 0)).head?.map Prod.fst) = some 0) ∧
    (let s := single 1 []; (s.collOf 0).map (fun c => s.bodyDue c) = some false) ∧
    (let s := single 0 []; (s.collOf 0).map (fun c => s.bodyDue c && !c.endpoint && c.instr == .henatEnd && c.outs.isEmpty) = some true ∧
      s.basin.lockBusy.has 0 = false) ∧
    (let s := single 0 [(0, 1)]; (s.collOf 0).map (fun c => s.bodyDue c) = some true ∧ s.basin.lockBusy.has 0 = true) ∧
    (let s := single 1 []; (s.collOf 0).map (fun c => c.fixed && c.next == c.window / 256 && c.fwde == 0) = some true) ∧
    (let s := { State.reset with basin := { staging := some ⟨0, 0, 0, [1]⟩ } };
      s.basin.staging = some ⟨0, 0, 0, [1]⟩ ∧ s.basin.reloads = [] ∧ s.basin.colls = []) ∧
    (255 < 256 ∧ [0x7FFFFF, 0x7FFFFF, 1, 0x3FFFFFFF].length = 4 ∧ 3 < 4 ∧ 63 < 64) ∧
    (let s := basined { quotas := [(0, { reserved := 255 })] };
      ((s.basin.quotas.filter (fun q => q.1 != 63)).map (fun q => q.2.reserved)).sum + 1 ≤ 256) ∧
    (contesting true 0 false).holdOf 63 = none ∧
    { contesting true 0 false with basin := { holds := [(63, ⟨0, 0, 0, false⟩)] } }.holdOf 63 ≠ none ∧
    (let s := contesting true 1148 false;
      (s.basin.contestChanges.find? (fun y => y.contest == 63 && !y.deferred && decide (y.since + 656 ≤ s.basin.time.toNat))).isSome = true ∧
        s.basin.inRound = false ∧ s.basin.time.toNat % 164 = 0 ∧ s.basin.time.toNat / 164 % 4 = 63 / 16) ∧
    (let b : Bid := ⟨63, 5, 0x30010005, org3, true, true⟩;
      let s := { State.reset with teams := [(0, busyTeam true)], dies := [(23, { bids := [(7, b)] })] };
      (s.die 23).bids.find? (fun y => y.1 == 7 && y.2.handle == b.handle) = some (7, b) ∧ b.origin.handle = b.handle ∧
        ((s.teamOf 0).ops.get (Nat.mod 0x30010005 128) {}).handle = b.handle) ∧
    (let s := contesting false 0 false; (((s.die 23).bids.find? (fun y => y.1 == 7)).map (fun b => (b.1, b.2.arrived))) = some (7, false)) ∧
    (let s := contesting true 492 false;
      s.basin.inRound = false ∧ s.basin.time.toNat % 164 = 0 ∧ (∀ d, d < 24 → ((s.die d).bids.map Prod.fst).Nodup) ∧ s.basin.time.toNat / 164 % 4 = 63 / 16 ∧
        s.holdOf 63 = none ∧ (s.die 23).bids.map (fun b => b.2.arrived && !b.2.inRound && s.takesPart 23 b.2) = [true]) ∧
    (let s := contesting true 656 true;
      s.basin.inRound = true ∧ 164 * (s.basin.round + 1) ≤ s.basin.time.toNat ∧ s.basin.pool = [] ∧ (∀ p ∈ s.basin.presented, p.die < 25 ∧ p.slot < 8) ∧
        s.basin.presented = [⟨63, 23, 7, 5, 0⟩] ∧ (s.contest 63).mask.getLsbD 23 = true ∧ (s.contest 63).mask.getLsbD 24 = true ∧ s.dieLive 23 = true ∧ (s.contest 63).hold = true) := by
  and_intros <;> decide +kernel

/-! ### Commands and interfaces -/

/-- The function of `paged` with a ring whose entries stand at 0x8040, in memory that a test gives. -/
def commanding (ws : List (Nat × Nat × Nat)) (f : Fn) : State :=
  let m := ws.foldl (fun m p => Memory.writeNat m p.1 p.2.1 p.2.2) tables
  { paged {} with mem := m, fns := [(0, { f with cfg := { root := 0x1000, enabled := true, invalRing := 0x8000, columns := 0x1F } })] }

/-- 32 bytes of a registration: 1 page at 0x9000 for peers of die 23; 128 bytes of a configuration. -/
def regWords : List (Nat × Nat × Nat) := [(0xB000, 8, 0x9000), (0xB010, 4, 1), (0xB014, 4, 0x1F0F)]
def cfgWords : List (Nat × Nat × Nat) := [(0xC000, 8, 0x1000), (0xC014, 4, 0xF8000), (0xC018, 4, 0x80000000), (0xC020, 4, 65535)]

theorem witness_CommandEvents :
    (∃ s1, (commanding [] {}).vWrite 0 0 0xD000 (bytesOf 8 (2 ^ 63 + 0xFF)) = (s1, .ok ())) ∧
    (let s := { commanding [] {} with regs := [(2047, { state := .valid, owner := 1 })] };
      (s.regs.get (0 * 2048 + BitVec.toNat (0xFFFF0FFF : DWord) % 2048) {}).state ≠ .free ∧ (s.regs.get 2047 {}).state = .valid ∧
        (s.regs.get 2047 {}).owner ≠ 0 ∧ (s.regs.get 2047 {}).owner = 1) ∧
    (let s (o : Nat) := { commanding [] {} with regs := [(2047, { state := .revoking, owner := o })] };
      ((s 0).regs.get 2047 {}).state = .revoking ∧ ((s 0).regs.get 2047 {}).owner = 0 ∧ ((s 1).regs.get 2047 {}).owner ≠ 0 ∧
        ((s 0).regs.get 2047 {}).result = none ∧ (∀ y ∈ [((2047, { owner := 0 }) : Nat × Reg)], y.2.state ≠ .revoking)) ∧
    (∃ s1 bs, (commanding regWords {}).partRead (.event (.register 0 0 0x7FF 0xB000 0xD000)) 0 0 0xB000 32 = (s1, .ok bs) ∧ (regOf bs 0).isSome = true) ∧
    (let s := { commanding [] {} with regs := [(2047, { state := .revoking, result := none })] };
      (s.regs.get 2047 {}).state = .revoking ∧ s.inFlight 2047 = false ∧
        { s with loads := [read 0 { lane := 0, space := 2, loc := 0, value := none, expo := some 2047 }] }.inFlight 2047 = true) ∧
    (((reducing 0 0).openColl ((reducing 0 0).fnOf 0).cfg.tenant 5).map (fun x => (x.2.openers, x.2.bindings, x.2.fixed))) = some ([], [], true) ∧
    (let s := { reducing 0 0 with basin := { (reducing 0 0).basin with colls := (reducing 0 0).basin.colls.map (fun (p : Nat × Coll) => (p.1, { p.2 with fixed := false })) } };
      ((s.openColl 0 5).map (fun x => x.2.fixed)) = some false ∧ (s.slotOf 5).state = 0) ∧
    ((reducing 0 0).openColl 0 255 = none ∧ (opening.slotOf 255).state = 1 ∧ (opening.slotOf 255).tenant = 0 ∧ opening.openColl 0 255 = none ∧
      ((reducing 0 0).slotOf 255).state = 0) ∧
    (basined { staging := some ⟨0, 0, 0, []⟩ }).basin.staging = some ⟨0, 0, 0, []⟩ ∧
    (∃ s1 bs, (commanding cfgWords {}).partRead (.event (.config 0 0 4 0xC000 0xD000)) 0 0 0xC000 128 = (s1, .ok bs) ∧
      ((cfgOf bs).map (fun c => s1.cfgFits 0 4 c)) = some true) ∧
    ((commanding [] {}).fnOf (0 * 8 + 4)).tdi = .unlocked ∧ State.reset.basin.image = none ∧
    ((commanding [] {}).hasFailed 0 (.event (.lifetime 0 0 0 0xD000 0xD000)) 0xD000 = false ∧
      ∃ s1, (commanding [] {}).vWrite 0 0 0xD000 ({} : Life).bytes = (s1, .ok ())) ∧
    (basined { images := [(0, {})] }).basin.image.isSome = true ∧
    (∀ r ∈ ((commanding [] {}).fnOf 0).pages, r.seq ≠ 0) ∧
    (let r : PageReq := ⟨0x5000, 1, 7⟩;
      let s := { State.reset with fns := [(0, { pages := [r] })], groups := [(0, { live := true, wait := .page 0 0x5000 0x5004 })] };
      (s.fnOf 0).pages.find? (fun x => x.seq == 7) = some r ∧ s.groups = [(0, { live := true, wait := .page 0 0x5000 0x5004 })] ∧
        (let g : Group := { live := true, wait := .rejoin, waitPages := [(0, 0x5000)] }; g.wait = .rejoin ∧ g.waitPages = [(0, r.page)]) ∧
        (∀ x ∈ s.fns, x.2.held = [] ∧ x.2.pageWait = [] ∧ x.2.saved = []) ∧ s.copies = [] ∧ s.cores = [] ∧ s.incrs = [] ∧ s.arrives = [] ∧
        s.launches = [] ∧ s.results = [] ∧ s.basin.colls = []) ∧
    (let s := { State.reset with fns := [(188, { tdi := .run })] };
      s.live.getLsbD 23 = true ∧ { s with live := 1 }.live.getLsbD 23 = false ∧ (s.fnOf (23 * 8 + 4)).tdi ≠ .unlocked ∧
        (∀ i, i ≤ 4 → 1 ≤ i → (State.reset.fnOf (23 * 8 + i)).tdi = .unlocked)) ∧
    (∃ s1 bs, (commanding [(0x8000, 8, 1), (0x8018, 4, 1), (0x8040, 4, 1)] {}).takeEntry 0 0x8000 (.event (.tlbInvalidationRequest 0 0)) = (s1, .some bs)) ∧
    (let s := { loading with fns := [(0, { settling := some 2 })] };
      (s.fnOf 0).settling = some 2 ∧ s.fnBusy 0 0 2 = true ∧ { s with loads := [] }.fnBusy 0 0 2 = false) := by
  refine ⟨pair_of_snd _ _ (by decide +kernel), by decide +kernel, by decide +kernel, acc_ok _ (fun _ bs => (regOf bs 0).isSome) (by decide +kernel),
    by decide +kernel, by decide +kernel, by decide +kernel, by decide +kernel, by decide +kernel, ?_, by decide +kernel, by decide +kernel, ⟨by decide +kernel, pair_of_snd _ _ (by decide +kernel)⟩,
    by decide +kernel, by decide +kernel, by decide +kernel, by decide +kernel, ?_, by decide +kernel⟩
  · obtain ⟨s1, bs, h, e⟩ := acc_ok ((commanding cfgWords {}).partRead (.event (.config 0 0 4 0xC000 0xD000)) 0 0 0xC000 128)
      (fun s1 bs => decide ((cfgOf bs).map (fun c => s1.cfgFits 0 4 c) = some true)) (by decide +kernel)
    exact ⟨s1, bs, h, of_decide_eq_true e⟩
  · have h : ((commanding [(0x8000, 8, 1), (0x8018, 4, 1), (0x8040, 4, 1)] {}).takeEntry 0 0x8000
        (.event (.tlbInvalidationRequest 0 0))).2 = .some (bytesOf 32 1) := by decide +kernel
    obtain ⟨s1, e⟩ := pair_of_snd _ _ h
    exact ⟨s1, _, e⟩

/-- A VF of die 23 in a TDISP state, with stream 127 of host port 41 tied to it and key slot 63 granted. -/
def hosted (t : Tdi) (keyed : Bool) : State :=
  { State.reset with
    basin := { boot := 6, spdm := [(23, .session)], ide := if keyed then [(41, 127, 188)] else [] }
    fns := [(188, { tdi := t, cfg := { hostPort := true, keySlots := 0x8000000000000000 } })] }

/-- Host accesses at the wrong port, outside a stream, in it, of the PF; the access at the die; TDISP in and outside a session, with the
granted key slot free and not. -/
theorem witness_HostAndTdisp :
    (let s := hosted .run true;
      6 ≤ s.basin.boot ∧ s.dieLive 23 = true ∧ s.basin.fencedPorts.getLsbD 41 = false ∧ 40 ≠ (if (s.fnOf 188).cfg.hostPort then 41 else 40) ∧
        41 = (if (s.fnOf 188).cfg.hostPort then 41 else 40) ∧ (41, 127, 188) ∈ s.basin.ide ∧ (s.fnOf 188).tdi = .run ∧
        s.nextHop 24 23 false = some 23 ∧ s.room (dirNo 24 23) false = true ∧ (s.dirOf (dirNo 24 23)).waitReq = []) ∧
    (let s := hosted .locked false; (¬ ∃ x, some 127 = some x ∧ (41, x, 188) ∈ s.basin.ide) ∧ (s.fnOf 188).tdi = .locked) ∧
    (((paged {}).translate 0 0 none 0xD000 1 .store).2 = .ok 1 0xD000 0 none ∧
      ((paged {}).translate 0 0 none 0xD000 1 .store).1.hasFailed 0 (.host 0 0 0xD000 (.write [1])) 0xD000 = false) ∧
    (∃ s1, (paged {}).vWrite 0 0 0xD000 [1] = (s1, .ok ())) ∧
    (∃ s1 bs, (paged {}).partRead (.host 0 0 0xD000 (.read 1)) 0 0 0xD000 1 = (s1, .ok bs)) ∧
    (State.reset.inSession 23 = false ∧ (hosted .unlocked true).inSession 23 = true) ∧
    ((hosted .unlocked true).slotOwner 23 63 = none ∧ { hosted .unlocked true with dies := [(23, { keys := [(63, ⟨some 1, 1, true⟩)] })] }.slotOwner 23 63 ≠ none ∧
      ((hosted .unlocked true).fnOf 188).cfg.keySlots.getLsbD 63 = true) ∧
    ((hosted .unlocked true).fnOf 188).tdi = .unlocked ∧ ((hosted .locked true).fnOf 188).tdi = .locked ∧ ((hosted .run true).fnOf 188).tdi = .run ∧
    ((hosted .error true).fnOf 188).tdi = .error := by
  refine ⟨by decide +kernel, ⟨?_, by decide +kernel⟩, by decide +kernel, pair_of_snd _ _ (by decide +kernel), ?_, by decide +kernel, by decide +kernel,
    by decide +kernel, by decide +kernel, by decide +kernel, by decide +kernel⟩
  · rintro ⟨x, -, h⟩
    exact absurd h (List.not_mem_nil)
  · obtain ⟨s1, bs, h, -⟩ := acc_ok ((paged {}).partRead (.host 0 0 0xD000 (.read 1)) 0 0 0xD000 1) (fun _ _ => true) (by decide +kernel)
    exact ⟨s1, bs, h⟩

/-! ### Trust, failures and time -/

/-- Whether a verification succeeds is a free value, so the cases of it are no hypothesis that a state could be shown to meet. -/
theorem witness_TrustAndTimeEvents :
    (let s (x : SpdmStage) (n : Nat) := basined { boot := 6, spdm := [(23, x)], xmss := n };
      (s .version 0).dieLive 23 = true ∧ (s .version 0).stage 23 = .version ∧ (s .version 0).stage 23 ≠ .capabilities ∧
        (s .negotiated 1048575).stage 23 = .negotiated ∧ (s .negotiated 1048575).basin.xmss < 1048576 ∧ 1048576 ≤ (s .session 1048576).basin.xmss ∧
        (s .session 0).inSession 23 = true) ∧
    (let s := hosted .unlocked false; 41 = (if (s.fnOf 188).cfg.hostPort then 41 else 40) ∧ ¬ 40 = (if (s.fnOf 188).cfg.hostPort then 41 else 40)) ∧
    ((one {}).teamOf 0).live = true ∧ State.reset.dieLive 23 = true ∧
    (let s (x : DWord) := { State.reset with dies := [(23, { temp := x })] };
      1760 < ((s 1761).die 23).temp.toInt ∧ ((s 1599).die 23).temp.toInt < 1600 ∧ 2000 ≤ ((s 2000).die 23).temp.toInt) ∧
    (let s (n m : DWord) := basined { life := { seconds := n, rolled := m } };
      (s 599 0).basin.life.seconds.toNat % 600 ≠ 0 ∧ (s 600 600).basin.life.seconds = (s 600 600).basin.life.rolled ∧
        ((s 600 0).basin.life.seconds.toNat % 600 = 0 ∧ (s 600 0).basin.life.seconds ≠ (s 600 0).basin.life.rolled)) ∧
    (let s := basined { boot := 4 }; s.basin.frozen = false ∧ 4 ≤ s.basin.boot ∧ s.live.getLsbD 23 = true) ∧
    (basined { boot := 3 }).basin.boot < 4 := by
  and_intros <;> decide +kernel

/-! ### The manual's examples, one step each -/

/-- Does a meaning answer a next state of which `p` holds? -/
def gives (o : Host.Outcome State Fault Refusal) (p : State → Bool) : Bool :=
  match o with
  | .next t => p t
  | _ => false

/-- A V register holding one value in all eight lanes. -/
def vreg (n : Nat) (x : Word) : Table Word := (List.range 8).map (fun l => (64 * n + l, x))

/-- The packed example after R78: I8x4, V1 and V2. -/
def packed : State := one { mode := 0x020000BF, v := vreg 1 0xFF807F05 ++ vreg 2 0x01828107 }

theorem test_packed_iaddi : gives (exec (.iaddi false (.v 2) (.v 1) 2) packed) (fun t => t.g.vr 2 7 == 0x01828107) = true := by decide +kernel
theorem test_packed_imax : gives (exec (.imax false (.v 3) (.v 1) (.v 2)) packed) (fun t => t.g.vr 3 0 == 0x01827F07) = true := by decide +kernel
theorem test_packed_imaxn : gives (exec (.imaxn false (.v 4) (.v 1) (.v 2)) packed) (fun t => t.g.vr 4 0 == 0xFF828107) = true := by decide +kernel
theorem test_packed_icmpne : gives (exec (.icmpne (.p 1) (.v 1) (.v 2)) packed) (fun t => t.g.pred 1 0) = true := by decide +kernel
theorem test_packed_icmplt : gives (exec (.icmplt (.p 2) (.v 1) (.v 2)) packed) (fun t => !t.g.pred 2 0) = true := by decide +kernel
theorem test_packed_movhi :
    gives (exec (.movhi false (.v 1) 0xFF80) (one { v := vreg 1 0x00007F05 })) (fun t => t.g.vr 1 0 == 0xFF807F05) = true := by decide +kernel

/-- A step of a group at its fetch, the word of the example after R62 in memory: its trap's registers. -/
theorem test_illegal_word_traps :
    gives (step { State.reset.withFetchWord 32 0x6103E600 with
        groups := [(0, { live := true, width := 16, exec := 0xFFFF, codeBase := 0x2F58, stride := 256, offset := 0x2A, handler := some 0x100 })] })
      (fun t => decide (t.g.offset = 0x100 ∧
        (List.range 8).map (fun i => t.g.x.get i 0) = [0x03000130, 0x0103E600, 0x2A, 0xFFFF, 0, 0x3000, 0, 0x100])) = true := by decide +kernel

/-- The block of R96's example: scale 0x40 and the word 0x497040F3. -/
theorem test_quantise : quantise (.fin false 1 0) ([0x3F400000, 0xC0380000, 0x3D800000, 0x3FA00000, 0, 0x40400000, 0xBEA00000, 0x3F600000].map Fmt.f32.value)
    = (0x40, [0x3, 0xF, 0x0, 0x4, 0x0, 0x7, 0x9, 0x4]) := by decide +kernel

/-- R97's example: 2^24 and the products 1, 1 and 0.75. -/
theorem test_one_rounding : dotStep 0x4B800000 [.fin false 1 0, .fin false 1 0, .fin false 3 (-1)] [.fin false 1 0, .fin false 1 0, .fin false 1 (-1)] = 0x4B800001 := by
  decide +kernel

/-- R103's example: 1.0 scaled by −150 is a tie, to +0. -/
theorem test_fscale : gives (exec (.fscale false (.v 3) (.v 3) (.s 4)) (one { v := vreg 3 0x3F800000, s := [(4, 0xFFFFFF6A)] }))
    (fun t => t.g.vr 3 0 == 0) = true := by decide +kernel

/-- The examples after R106. -/
theorem test_convert :
    convert (.flt .f32) (.int 8 true) .rne false 0x40200000 = 2 ∧ convert (.flt .f32) (.int 8 true) .rna false 0x40200000 = 3 ∧
    convert (.int 8 false) (.flt .bf16) .rne false 255 = 0x437F ∧ convert (.int 32 true) (.flt .f16) .rne false 0x7FFFFFFF = 0x7C00 ∧
    convert (.int 32 true) (.flt .f16) .rtz false 0x7FFFFFFF = 0x7BFF ∧ convert (.int 32 true) (.flt .f16) .rne true 0x7FFFFFFF = 0x7BFF ∧
    convert (.flt .e2m1) (.int 8 true) .rne false 0xB = wrapInt 8 (-2) ∧ convert (.flt .e2m1) (.int 8 true) .rtz false 0xB = wrapInt 8 (-1) := by decide +kernel

/-- R133's example: the tree gives 2.0, lane 4 keeps its V9 and has 0 in the coming L0. -/
theorem test_redfadd :
    let v := [0x4B800000, 0x3F800000, 0x3F800000, 0x3F800000, 0x42C80000, 0, 0xCB800000, 0x3F000000].zipIdx.map (fun p => (64 + p.2, p.1))
    let s := { one { v := v ++ vreg 9 7, exec := 0xEF } with iss := { mask := 0xEF, planes := 1, union := 0xEF } }
    gives (exec (.redfadd false (.v 9) (.v 1)) s) (fun t =>
      t.g.vr 9 0 == 0x40000000 && t.g.vr 9 7 == 0x40000000 && t.g.vr 9 4 == 7 && t.iss.l0.get 4 0 == 0) = true := by decide +kernel

/-- The example after R187: 3 of 4 arrived at generation 7, then one with status 0. -/
theorem test_arrive :
    let m := Memory.writeNat (Memory.writeNat (Memory.writeNat tables 0x9000 8 7) 0x9008 4 3) 0x900C 4 4
    let t := (State.arriveAt { paged {} with mem := m } 0 0 0x9000 0 false).1
    (t.natAt 0x9000 8, t.natAt 0x9008 4) = (8, 0) := by decide +kernel

/-- R197's example: the first chunk borrows 64 of the pool's 100; the next tick repays 2 and refills 2. -/
theorem test_borrow :
    let f : FnCfg := { root := 0x1000, enabled := true, rate := 4, depth := 64 }
    let c := copy3 { tmpl with dstKind := 1, tileBytes := 32768 } 0 [] none
    gives (exec (.copyChunkAcceptance 3) { copying c [] with fns := [(0, { cfg := f })], dies := [(0, { pool := 100 })] })
      (fun t => (t.fnOf 0).level == 63 && (t.fnOf 0).debt == 64 && (t.die 0).pool == 36) = true := by decide +kernel
theorem test_token_tick :
    let f : FnCfg := { root := 0x1000, enabled := true, rate := 4, depth := 64 }
    gives (exec (.tokenTick 0) { State.reset with fns := [(0, { cfg := f, level := 0, debt := 64 })], dies := [(0, { pool := 36 })] })
      (fun t => (t.fnOf 0).level == 2 && (t.fnOf 0).debt == 62 && (t.die 0).pool == 38) = true := by decide +kernel

/-- R213's example in its second core cycle: G0 and G2 are granted, G1 is refused; of two that issue in the scalar unit one is (R212). -/
theorem test_grants :
    let g (ctx width octet : Nat) (age : BitVec 13) : Group := { live := true, ctx, width, octet, age }
    let s := { State.reset with groups := [(0, g 0 32 0 8), (1, g 1 8 1 5), (2, g 2 8 5 5), (3, g 3 64 0 0)] }
    let ks := [0, 1, 2, 3].foldr (fun k l => s.byAge k l) []
    s.grants [] ks [] false = [0, 2] ∧ s.grants [0, 2] ks [] false = [0] := by decide +kernel

/-- R220's example: the costs of draining and of saving. -/
theorem test_preempt_costs :
    let g (ctx : Nat) (n : DWord) : Group := { live := true, ctx, team := 4, width := 32, allot := 64, cnt := [(1, n)] }
    let s := { State.reset with
      groups := [(0, g 0 18200), (1, g 1 19000)], teams := [(4, { live := true, launch := 9, groups := [0, 1], lsSize := 49152 })]
      launches := [(9, { rcd := { plain with expected := 20000 } })] }
    (s.drainCost [4], s.saveCost [4]) = (2300, 2224) := by decide +kernel

/-- R312: the flit that has failed and those after it are sent anew. -/
theorem test_crc_failure :
    gives (exec (.flitCrcFailure 71 ⟨0, 3⟩) (lined 0)) (fun t => decide ((t.dirOf 71).replay.map (fun x => (x.seq, x.tries)) = [(1023, 1), (0, 2), (1, 2)])) = true := by
  decide +kernel

/-- R143 in the example after R147: STL to byte 64 by six lanes, the highest lane's value stays. -/
theorem test_same_word_stores :
    let s := { one { v := vreg 2 64 ++ (List.range 8).map (fun l => (256 + l, BitVec.ofNat 32 (10 * l))) } with iss := { mask := 0x3F, planes := 1, union := 0xFF } }
    gives (exec (.stl (.v 4) (.v 2) 0) s) (fun t => t.natAt (t.lsLoc 64) 4 == 50) = true := by decide +kernel

/-- A word placed for the first step after reset runs: MOVI. -/
theorem test_first_step : gives (step (State.reset.withFetchWord 32 0x6C017F05)) (fun t => t.g.vr 1 7 == 0x7F05 && t.g.offset == 1) = true := by decide +kernel

end Sys2Proof.Tests
end

section
/-! SUPPORT. Tables as lists: what a search by number finds once a record has been set or erased, and folds that keep a relation or reach
a fact. -/

namespace Sys2Proof.Table

variable {α : Type}

theorem find?_set_self (t : Table α) (k : Nat) (x : α) : (t.set k x).find? (fun p => p.1 == k) = some (k, x) := by
  induction t with
  | nil => simp [Table.set]
  | cons p r ih =>
    obtain ⟨j, y⟩ := p
    by_cases e : j = k
    · simp [Table.set, e]
    · by_cases lt : k < j <;> simp [Table.set, e, lt, ih]

theorem find?_set_ne (t : Table α) (k j : Nat) (x : α) (h : j ≠ k) :
    (t.set k x).find? (fun p => p.1 == j) = t.find? (fun p => p.1 == j) := by
  induction t with
  | nil => simp [Table.set, h.symm]
  | cons p r ih =>
    obtain ⟨i, y⟩ := p
    by_cases e : i = k
    · subst e
      simp [Table.set, h.symm]
    · by_cases lt : k < i <;> simp [Table.set, e, lt, h.symm, List.find?_cons, ih]

/-- Of two records set under one number the later stands. -/
@[simp] theorem set_set (t : Table α) (k : Nat) (x y : α) : (t.set k x).set k y = t.set k y := by
  induction t with
  | nil => simp [Table.set]
  | cons p r ih =>
    obtain ⟨j, z⟩ := p
    by_cases e : j = k
    · simp [Table.set, e]
    · by_cases lt : k < j <;> simp [Table.set, e, lt, ih]

theorem erase_eq_filter (t : Table α) (k : Nat) : t.erase k = t.filter (fun p => p.1 != k) := by
  induction t with
  | nil => rfl
  | cons p r ih =>
    obtain ⟨j, y⟩ := p
    by_cases e : j = k <;> simp [Table.erase, e, ih]

theorem find?_erase_self (t : Table α) (k : Nat) : (t.erase k).find? (fun p => p.1 == k) = none := by
  simp [erase_eq_filter]

theorem find?_erase_ne (t : Table α) (k j : Nat) (h : j ≠ k) :
    (t.erase k).find? (fun p => p.1 == j) = t.find? (fun p => p.1 == j) := by
  rw [erase_eq_filter, List.find?_filter]
  congr 1
  funext p
  by_cases e : p.1 = j <;> simp [e, h]

/-- A listing of words that leaves the zeros out, from number `k` on. -/
def listing (ws : List DWord) (k : Nat) : Table DWord := ((ws.zipIdx k).filter (fun p => p.1 != 0)).map (fun p => (p.2, p.1))

theorem get_listing_below (ws : List DWord) (k i : Nat) (h : i < k) : Table.get (listing ws k) i 0 = 0 := by
  induction ws generalizing k with
  | nil => rfl
  | cons w r ih =>
    have tail := ih (k + 1) (by omega)
    have hk : k ≠ i := by omega
    by_cases z : w = 0 <;> simp_all [listing, Table.get]

theorem get_listing (ws : List DWord) (k i : Nat) : Table.get (listing ws k) (k + i) 0 = ws.getD i 0 := by
  induction ws generalizing k i with
  | nil => rfl
  | cons w r ih =>
    cases i with
    | zero =>
      have tail := get_listing_below r (k + 1) k (by omega)
      by_cases z : w = 0 <;> simp_all [listing, Table.get]
    | succ i =>
      have tail := ih (k + 1) i
      rw [show k + 1 + i = k + (i + 1) by omega] at tail
      by_cases z : w = 0 <;> simp_all [listing, Table.get]

end Sys2Proof.Table

namespace Sys2Proof.Machine

open Sys2Proof

/-- A relation that is reflexive and transitive holds across a fold where it holds across each step. -/
theorem foldl_rel {σ β : Type} {R : σ → σ → Prop} (refl : ∀ s, R s s) (trans : ∀ {s t u}, R s t → R t u → R s u) (f : σ → β → σ)
    (l : List β) (step : ∀ s, ∀ b ∈ l, R s (f s b)) (s : σ) : R s (l.foldl f s) := by
  induction l generalizing s with
  | nil => exact refl s
  | cons b r ih => exact trans (step s b (List.mem_cons_self ..)) (ih (fun t c hc => step t c (List.mem_cons_of_mem _ hc)) _)

/-- A fold reaches `P` where the step for `x` brings it about while `I` stands, the other steps keep `I`, and every step keeps `P`. -/
theorem foldl_reaches {σ β : Type} {I P : σ → Prop} (f : σ → β → σ) {x : β} (l : List β) (hx : x ∈ l)
    (keepI : ∀ s, ∀ b ∈ l, b ≠ x → I s → I (f s b)) (reach : ∀ s, I s → P (f s x)) (keepP : ∀ s, ∀ b ∈ l, P s → P (f s b))
    {s : σ} (h : I s) : P (l.foldl f s) := by
  induction l generalizing s with
  | nil => cases hx
  | cons b r ih =>
    have keepP' : ∀ s, ∀ c ∈ r, P s → P (f s c) := fun s c hc => keepP s c (List.mem_cons_of_mem _ hc)
    by_cases e : b = x
    · subst e
      exact List.foldlRecOn r f (reach s h) (fun t ht c hc => keepP' t c hc ht)
    · have hr : x ∈ r := (List.mem_cons.1 hx).resolve_left (Ne.symm e)
      exact ih hr (fun s c hc => keepI s c (List.mem_cons_of_mem _ hc)) keepP' (keepI s b (List.mem_cons_self ..) e h)

end Sys2Proof.Machine
end

section
/-! SUPPORT. Messages sent and activities posted: `Sends s t` says that `t` is `s` but for these. -/

namespace Sys2Proof.Machine

open Sys2Proof

/-- `t` is `s` after messages have been sent and activities posted: link directions, message numbers and the counts of flits change, and the
agenda and the messages that are kept grow at their ends. -/
structure Sends (s t : State) : Prop where
  rest : { t with basin := s.basin, agenda := s.agenda, nextUid := s.nextUid, sures := s.sures } = s
  basin : { t.basin with dirs := s.basin.dirs, msgs := s.basin.msgs, life := s.basin.life } = s.basin
  agenda : s.agenda ⊆ t.agenda
  sures : s.sures ⊆ t.sures

namespace Sends

variable {s t u : State}

theorem refl (s : State) : Sends s s := ⟨rfl, rfl, fun _ h => h, fun _ h => h⟩

theorem trans (h : Sends s t) (k : Sends t u) : Sends s u where
  rest := (congrArg (fun x : State => { x with basin := s.basin, agenda := s.agenda, nextUid := s.nextUid, sures := s.sures }) k.rest).trans h.rest
  basin := (congrArg (fun x : Basin => { x with dirs := s.basin.dirs, msgs := s.basin.msgs, life := s.basin.life }) k.basin).trans h.basin
  agenda := fun _ m => k.agenda (h.agenda m)
  sures := fun _ m => k.sures (h.sures m)

theorem fold {β : Type} {f : State → β → State} {l : List β} (h : Sends s t) (step : ∀ t b, Sends t (f t b)) : Sends s (l.foldl f t) :=
  h.trans (foldl_rel refl trans f l (fun t b _ => step t b) t)

theorem mem (h : Sends s t) : t.mem = s.mem := (congrArg State.mem h.rest :)
theorem groups (h : Sends s t) : t.groups = s.groups := (congrArg State.groups h.rest :)
theorem teams (h : Sends s t) : t.teams = s.teams := (congrArg State.teams h.rest :)
theorem dies (h : Sends s t) : t.dies = s.dies := (congrArg State.dies h.rest :)
theorem aliases (h : Sends s t) : t.aliases = s.aliases := (congrArg State.aliases h.rest :)
theorem opens (h : Sends s t) : t.opens = s.opens := (congrArg State.opens h.rest :)
theorem colls (h : Sends s t) : t.basin.colls = s.basin.colls := (congrArg Basin.colls h.basin :)
theorem slots (h : Sends s t) : t.basin.slots = s.basin.slots := (congrArg Basin.slots h.basin :)
theorem lockBusy (h : Sends s t) : t.basin.lockBusy = s.basin.lockBusy := (congrArg Basin.lockBusy h.basin :)
theorem collOf (h : Sends s t) (n : Nat) : t.collOf n = s.collOf n := by rw [State.collOf, h.colls]; rfl
theorem openColl (h : Sends s t) (tn k : Nat) : t.openColl tn k = s.openColl tn k := by rw [State.openColl, h.colls]; rfl
theorem slotOf (h : Sends s t) (k : Nat) : t.slotOf k = s.slotOf k := by rw [State.slotOf, h.slots]; rfl
theorem group (h : Sends s t) (k : Nat) : t.group k = s.group k := by rw [State.group, h.groups]; rfl

theorem post (h : Sends s t) (e : Instr) : Sends s (t.post e) :=
  h.trans ⟨rfl, rfl, List.subset_append_left .., fun _ m => m⟩

theorem ite {p : Prop} [Decidable p] {a b : State} (h : Sends s a) (k : Sends s b) : Sends s (if p then a else b) := by
  split
  · exact h
  · exact k

end Sends

namespace State

variable (s : State)

theorem post_sends (e : Instr) : Sends s (s.post e) := (Sends.refl s).post e

theorem setDir_sends (d : Nat) (l : LinkDir) : Sends s (s.setDir d l) := ⟨rfl, rfl, fun _ m => m, fun _ m => m⟩

theorem modLife_sends (f : Life → Life) : Sends s (s.modLife f) := ⟨rfl, rfl, fun _ m => m, fun _ m => m⟩

theorem agenda_sends (l : List Activity) : Sends s { s with agenda := s.agenda ++ l } :=
  ⟨rfl, rfl, List.subset_append_left .., fun _ m => m⟩

theorem launchFlit_sends (d : Nat) (f : Flit) : Sends s (s.launchFlit d f) :=
  ((s.setDir_sends d _).trans (modLife_sends _ _)).trans (agenda_sends _ _)

theorem sendFlit_sends (x : Nat) (f : Flit) : Sends s (s.sendFlit x f) := by
  unfold sendFlit
  split
  · exact Sends.ite (.refl s) ⟨rfl, rfl, fun _ m => m, fun _ m => m⟩
  · exact Sends.ite (s.launchFlit_sends ..) (s.setDir_sends ..)

/-- A message to another pound (R311). -/
theorem sendMsg_sends (x y : Nat) (resp : Bool) (bytes : Nat) (p : Parcel) (h : x ≠ y) : Sends s (s.sendMsg x y resp bytes p) := by
  rw [sendMsg, if_neg h]
  have numbered : Sends s (s.modBasin (fun b => { b with msgs := b.msgs + 1 })) := ⟨rfl, rfl, fun _ m => m, fun _ m => m⟩
  exact numbered.fold (fun t _ => t.sendFlit_sends ..)

/-- One that is kept until it has arrived (R313). -/
theorem sendSure_sends (x y : Nat) (resp : Bool) (bytes : Nat) (a : Activity) : Sends s (s.sendSure x y resp bytes a) := by
  unfold sendSure
  split
  · exact s.agenda_sends [a]
  · rename_i h
    refine Sends.trans ?_ (sendMsg_sends _ x y resp bytes _ h)
    exact ⟨rfl, rfl, fun _ m => m, List.subset_append_left ..⟩

/-- Until a message to another pound has arrived it stands among those that are kept (R16, R313). -/
theorem sendSure_kept (x y : Nat) (resp : Bool) (bytes : Nat) (a : Activity) (h : x ≠ y) :
    ∃ r ∈ (s.sendSure x y resp bytes a).sures, r.act = a ∧ r.dst = y := by
  rw [sendSure, if_neg h]
  refine ⟨_, (sendMsg_sends _ x y resp bytes _ h).sures (List.mem_append_right _ (List.mem_singleton_self _)), rfl, rfl⟩

theorem kickAliases_sends : Sends s s.kickAliases := by
  unfold kickAliases
  exact ((Sends.refl s).fold (fun t _ => t.post_sends _)).fold (fun t _ => t.post_sends _)

theorem afterOrder_sends (ck : Nat) : Sends s (s.afterOrder ck) := by
  unfold afterOrder
  have chunks := (Sends.refl s).fold (l := s.copies.filter (fun c => c.org.die * 512 + c.org.core == ck))
    (fun t c => (Sends.refl t).fold (l := c.landed) (fun t a => t.post_sends (.copyChunkWrite c.uid a.chunk)))
  exact (chunks.fold (fun t _ => t.post_sends _)).fold (fun t _ => t.post_sends _)

theorem lookRevoked_sends : Sends s s.lookRevoked := (Sends.refl s).fold (fun t _ => t.post_sends _)

theorem afterRequest_sends (ck : Nat) : Sends s (s.afterRequest ck) := by
  unfold afterRequest
  refine (((Sends.refl s).fold (fun t _ => t.post_sends _)).fold (fun t p => ?_)).trans (lookRevoked_sends _)
  refine Sends.ite (Sends.fold ?_ (fun t i => ?_)) (.refl t)
  · split
    · exact t.post_sends _
    · exact t.post_sends _
    · exact .refl t
  · split
    · exact Sends.ite (t.post_sends _) (.refl t)
    · exact .refl t

theorem checkGrid_sends (k : Nat) : Sends s (s.checkGrid k) := Sends.ite (s.post_sends _) (.refl s)

end State

end Sys2Proof.Machine
end

section
/-! SUPPORT. Collectives in the Basin: the record read back, opens, ALIAS_STORE, bodies and completion (R256, R267 to R276). -/

namespace Sys2Proof.Machine

open Sys2Proof

theorem Sends.setColl {s t : State} (h : Sends s t) (n : Nat) (c : Coll) : Sends (s.setColl n c) (t.setColl n c) where
  rest := (congrArg (fun x : State => { x with basin := (s.setColl n c).basin }) h.rest :)
  basin := (congrArg (fun b : Basin => { b with colls := b.colls.set n c }) h.basin :)
  agenda := h.agenda
  sures := h.sures

namespace State

variable (s : State)

@[simp] theorem collOf_setColl (n : Nat) (c : Coll) : (s.setColl n c).collOf n = some c := by
  show ((s.basin.colls.set n c).find? (fun p => p.1 == n)).map Prod.snd = some c
  rw [Table.find?_set_self]
  rfl

@[simp] theorem setColl_setColl (n : Nat) (c d : Coll) : (s.setColl n c).setColl n d = s.setColl n d := by
  simp [setColl, modBasin]

@[simp] theorem slotOf_setSlot (n : Nat) (x : Slot) : (s.setSlot n x).slotOf n = x := Table.get_set ..

/-! ### Writes and arrives: a collective that has none -/

theorem sendOuts_none {n : Nat} {c : Coll} (h : c.outs = []) : s.sendOuts n c = s.setColl n c := by
  simp only [sendOuts, h, List.map_nil, List.dedup_nil, List.filter_nil, List.foldl_nil]
  rw [← h]

theorem flushOuts_nil_sends {n : Nat} {c : Coll} (kept : List CollOut) (h : s.collOf n = some c) :
    Sends (s.setColl n { c with outs := kept }) (s.flushOuts n [] kept) := by
  rw [flushOuts, h]
  exact Sends.ite (post_sends _ _) (.refl _)

/-- A collective with nothing to write stands as it is, and may be looked at again. -/
theorem pushOuts_none_sends {n : Nat} {c : Coll} (h : s.collOf n = some c) (outs : c.outs = []) (wait : c.waiting = none) :
    Sends (s.setColl n c) (s.pushOuts n) := by
  have same : { c with outs := [] } = c := by rw [← outs]
  rw [pushOuts, h]
  simp only [wait, Option.isSome_none, Bool.false_eq_true, if_false, outs]
  split
  · have flushed := flushOuts_nil_sends (s.setColl n c) [] (collOf_setColl s n c)
    rw [setColl_setColl, same] at flushed
    rwa [s.sendOuts_none outs]
  · rw [← same]
    exact flushOuts_nil_sends s [] h

/-! ### The open (R270, R273) -/

/-- The path of a collective that has nothing to write is fixed: its openers are answered, and its first body comes up. -/
theorem fixPath_sends {n : Nat} {c : Coll} (h : s.collOf n = some c) (outs : c.outs = []) (wait : c.waiting = none) :
    Sends (s.setColl n { c with fixed := true, openers := [] }) (s.fixPath n) ∧
      Activity.event (.chunkBody n) ∈ (s.fixPath n).agenda ∧
      ∀ o ∈ c.openers, o.die ≠ 24 → ∃ y ∈ (s.fixPath n).sures, y.act = .opened c.slot o 0 ∧ y.dst = o.die := by
  let d : Coll := { c with fixed := true, openers := [] }
  let answered := c.openers.foldl (fun s o => s.answerOpen c.slot o 0) (s.setColl n d)
  let staged := if answered.basin.staging.isSome then answered.post .reloadBankSwitch else answered
  have answers : ∀ (t : State) (o : Origin), Sends t (t.answerOpen c.slot o 0) := fun t o => t.sendSure_sends ..
  have toStaged : Sends answered staged := Sends.ite (answered.post_sends _) (.refl _)
  have fixed : Sends (s.setColl n d) staged := ((Sends.refl _).fold answers).trans toStaged
  have holds : staged.collOf n = some d := by rw [fixed.collOf, collOf_setColl]
  have toEnd : Sends (staged.setColl n d) (s.fixPath n) := by
    rw [fixPath, h]
    exact ((pushOuts_none_sends staged holds outs wait).post _).trans (kickAliases_sends _)
  have all : Sends (s.setColl n d) (s.fixPath n) := by
    have moved := (fixed.setColl n d).trans toEnd
    rwa [setColl_setColl] at moved
  refine ⟨all, ?_, fun o ho far => ?_⟩
  · rw [fixPath, h]
    exact (kickAliases_sends _).agenda (List.mem_append_right _ (List.mem_singleton_self _))
  · have told : ∃ y ∈ answered.sures, y.act = .opened c.slot o 0 ∧ y.dst = o.die :=
      foldl_reaches (I := fun _ => True) (P := fun t => ∃ y ∈ t.sures, y.act = .opened c.slot o 0 ∧ y.dst = o.die)
        (fun t o => t.answerOpen c.slot o 0) c.openers ho
        (fun _ _ _ _ _ => trivial) (fun t _ => t.sendSure_kept _ _ _ _ _ (Ne.symm far))
        (fun t p _ ⟨y, hy, e⟩ => ⟨y, (answers t p).sures hy, e⟩) trivial
    obtain ⟨y, hy, e⟩ := told
    exact ⟨y, toEnd.sures (toStaged.sures hy), e⟩

end State

/-- The checks of a COPEN pass at the Basin, and it is the first on a slot that its tenant holds (R244, R256, R270, R282). -/
structure Opens (s : State) (r : OpenReq) (tn : Nat) : Prop where
  tenant : (s.fnOf (r.org.die * 8 + (s.teamOf r.org.team).fn)).cfg.tenant = tn
  fresh : s.openColl tn r.slot = none
  held : (s.slotOf r.slot).tenant = tn ∧ (s.slotOf r.slot).state = 1 ∧ (s.slotOf r.slot).isOpen = false
  joins : r.parts.getLsbD r.org.die = true
  root : r.root < 24 ∧ r.parts.getLsbD r.root = true
  live : s.partsLive r.parts = true
  program : openable (s.programWords r.program) r.parts (s.slotOf r.slot).masks = true

/-- What a collective is right after its open (R270, R273). -/
structure Opened (s : State) (r : OpenReq) (tn : Nat) (c : Coll) : Prop where
  tenant : c.tenant = tn
  slot : c.slot = r.slot
  request : c.parts = r.parts ∧ c.window = r.window ∧ c.root = r.root ∧ c.words = s.programWords r.program
  start : c.next = 0 ∧ c.outs = [] ∧ c.waiting = none
  path : c.endpoint = false
  bindings : c.bindings = [⟨r.org.die, (s.teamOf r.org.team).fn, r.object⟩]

namespace State

variable (s : State)

theorem openAt_fresh {r : OpenReq} {tn : Nat} (h : Opens s r tn) :
    ∃ c, Opened s r tn c ∧ c.openers = [r.org] ∧
      s.openAt r = ((s.modBasin (fun b => { b with nextColl := s.basin.nextColl + 1 })).setColl s.basin.nextColl c).takeSlot
        s.basin.nextColl false := by
  obtain ⟨rfl, fresh, ⟨tenant, state, isOpen⟩, joins, ⟨root, rootIn⟩, live, program⟩ := h
  have holds : s.holdsSlot (s.fnOf (r.org.die * 8 + (s.teamOf r.org.team).fn)).cfg.tenant r.slot = true := by
    simp [holdsSlot, state, tenant]
  simp only [openAt, joins, root, rootIn, live, fresh, holds, isOpen, program]
  exact ⟨_, ⟨rfl, rfl, ⟨rfl, rfl, rfl, rfl⟩, ⟨rfl, rfl, rfl⟩, rfl, rfl⟩, rfl, rfl⟩

theorem takeSlot_eq {n : Nat} {c : Coll} (h : s.collOf n = some c) :
    ∃ x lock, x.isOpen = true ∧ x.opened = (s.slotOf c.slot).opened + 1 ∧
      s.takeSlot n false = ((s.setSlot c.slot x).setColl n { c with lock := lock, endpoint := false }).fixPath n := by
  rw [takeSlot, h]
  exact ⟨_, _, rfl, rfl, rfl⟩

theorem dieLive_modDie (k d : Nat) (f : Die → Die) (h : ∀ x, (f x).fenced = x.fenced) : (s.modDie k f).dieLive d = s.dieLive d := by
  have fenced : ((s.modDie k f).die d).fenced = (s.die d).fenced := by
    by_cases e : d = k
    · subst e
      rw [die_modDie, h]
    · rw [die_modDie_ne _ _ _ _ e]
  rw [dieLive, fenced]
  rfl

theorem partsLive_acceptAt (m : BitVec 42) (home : Nat) (slices : List Nat) (ck : Nat) (q : BitVec 16) (olds : List DWord) :
    (s.acceptAt home slices ck q olds).partsLive m = s.partsLive m := by
  have live : ∀ p, (s.acceptAt home slices ck q olds).dieLive p = s.dieLive p := fun p => s.dieLive_modDie _ _ _ (fun _ => rfl)
  simp only [partsLive, live]
  rfl

end State

theorem Opens.acceptAt {s : State} {r : OpenReq} {tn : Nat} (h : Opens s r tn) (home : Nat) (slices : List Nat) (ck : Nat) (q : BitVec 16)
    (olds : List DWord) : Opens (s.acceptAt home slices ck q olds) r tn :=
  { h with live := (s.partsLive_acceptAt ..).trans h.live }

/-- The open of a collective on a slot that its tenant holds, where no other collective is open. -/
theorem openAt_opens {s : State} {r : OpenReq} {tn : Nat} (h : Opens s r tn) (alone : s.basin.colls = []) :
    ∃ c, Opened s r tn c ∧ c.fixed = true ∧ (s.openAt r).opens = s.opens ∧ (s.openAt r).openColl tn r.slot = some (s.basin.nextColl, c) ∧
      ((s.openAt r).slotOf r.slot).isOpen = true ∧ ((s.openAt r).slotOf r.slot).opened = (s.slotOf r.slot).opened + 1 ∧
      (r.org.die ≠ 24 → ∃ y ∈ (s.openAt r).sures, y.act = .opened r.slot r.org 0 ∧ y.dst = r.org.die) ∧
      Activity.event (.chunkBody s.basin.nextColl) ∈ (s.openAt r).agenda := by
  obtain ⟨c, ⟨tenant, slot, request, start, path, bindings⟩, openers, eq⟩ := s.openAt_fresh h
  obtain ⟨x, lock, isOpen, opened, eq'⟩ := State.takeSlot_eq ((s.modBasin (fun b => { b with nextColl := s.basin.nextColl + 1 })).setColl
    s.basin.nextColl c) (State.collOf_setColl ..)
  obtain ⟨sends, body, told⟩ := State.fixPath_sends _ (State.collOf_setColl _ s.basin.nextColl { c with lock := lock, endpoint := false })
    start.2.1 start.2.2
  rw [State.setColl_setColl] at sends
  rw [← eq', ← eq] at sends body told
  refine ⟨{ c with lock := lock, endpoint := false, fixed := true, openers := [] }, ⟨tenant, slot, request, start, rfl, bindings⟩, rfl,
    ?_, ?_, ?_, ?_, ?_, body⟩
  · exact sends.opens
  · rw [sends.openColl]
    show List.find? _ (((s.basin.colls.set s.basin.nextColl c)).set _ _) = _
    simp [alone, Table.set, tenant, slot]
  · rw [sends.slotOf, ← slot]
    exact (congrArg Slot.isOpen (State.slotOf_setSlot _ c.slot x)).trans isOpen
  · rw [sends.slotOf, ← slot]
    exact (congrArg Slot.opened (State.slotOf_setSlot _ c.slot x)).trans opened
  · rw [← slot]
    exact told r.org (by simp [openers])

/-- COLLECTIVE_OPEN of a COPEN that has arrived and follows no access of its group (R227, R270). -/
theorem execCollectiveOpen_due {s : State} {u : Nat} {r : OpenReq} (found : s.opens.find? (fun y => y.uid == u) = some r)
    (arrived : r.arrived = true) (aliases : ∀ y ∈ s.aliases, y.gkey ≠ r.org.gkey) (opens : ∀ y ∈ s.opens, y.org.gkey = r.org.gkey → u ≤ y.uid) :
    execCollectiveOpen u s = .next
      ((State.acceptAt { s with opens := s.opens.filter (fun o => o.uid != u) } 24 [0] r.src r.seq []).openAt r).kickAliases := by
  have none1 : (s.aliases.any fun a => decide (a.uid < u) && (a.gkey == r.org.gkey && a.team == r.org.team)) = false := by
    simp only [List.any_eq_false]
    intro a ha
    simp [aliases a ha]
  have none2 : (s.opens.any fun o => decide (o.uid < u) && (o.org.gkey == r.org.gkey && o.org.team == r.org.team)) = false := by
    simp only [List.any_eq_false]
    intro o ho
    by_cases e : o.org.gkey = r.org.gkey
    · simp [Nat.not_lt.2 (opens o ho e)]
    · simp [e]
  simp only [execCollectiveOpen, found, arrived, none1, none2]
  rfl

end Sys2Proof.Machine
end

section
/-! SUPPORT. Alias stores, bodies and completion of a collective (R266 to R276). -/

namespace Sys2Proof.Machine

open Sys2Proof

namespace State

variable (s : State)

/-! ### Alias stores (R266 to R269) -/

/-- The state in which an ALIAS_STORE reaches its collective: it is no longer on its way, and its sequence has been accepted (R310). -/
def aliasTaken (u : Nat) (a : AliasStore) : State :=
  let s := { s with aliases := s.aliases.filter (fun x => x.uid != u) }
  if a.hostFn.isSome then s else s.acceptAt 24 [0] a.src a.seq []

theorem aliasTaken_frame (u : Nat) (a : AliasStore) :
    (s.aliasTaken u a).mem = s.mem ∧ (s.aliasTaken u a).basin = s.basin ∧ (s.aliasTaken u a).groups = s.groups ∧
      (s.aliasTaken u a).aliases = s.aliases.filter (fun x => x.uid != u) := by
  unfold aliasTaken
  split <;> exact ⟨rfl, rfl, rfl, rfl⟩

theorem chunkLost_frame (a : AliasStore) :
    (s.chunkLost a).mem = s.mem ∧ (s.chunkLost a).basin = s.basin ∧ (s.chunkLost a).groups = s.groups ∧
      (s.chunkLost a).aliases = s.aliases := by
  unfold chunkLost
  split <;> exact ⟨rfl, rfl, rfl, rfl⟩

theorem takeStore_discards {a : AliasStore} (h : s.openColl a.tenant a.slot = none) : s.takeStore a = s.chunkLost a := by
  rw [takeStore, h]

end State

/-- The bytes of a store staged for a port: each stands at its place (R266). -/
theorem stage_get (bs : List Byte) (win chunk port off : Nat) (stage : Table Byte) {j : Nat} (h : j < bs.length) :
    Table.get (bs.zipIdx.foldl (fun t p => t.set (stageKey win chunk port (off + p.2)) p.1) stage) (stageKey win chunk port (off + j)) 0 =
      bs.getD j 0 := by
  have here : (bs[j], j) ∈ bs.zipIdx := List.mk_mem_zipIdx_iff_getElem?.2 (List.getElem?_eq_getElem h)
  have apart : ∀ x ∈ bs.zipIdx, ∀ y ∈ bs.zipIdx, stageKey win chunk port (off + x.2) = stageKey win chunk port (off + y.2) → x = y := by
    intro ⟨x, i⟩ hx ⟨y, k⟩ hy e
    obtain rfl : i = k := by simp only [stageKey] at e; omega
    simpa using (List.mk_mem_zipIdx_iff_getElem?.1 hx).symm.trans (List.mk_mem_zipIdx_iff_getElem?.1 hy)
  have got := Table.get_foldl_set bs.zipIdx (fun p => stageKey win chunk port (off + p.2)) (fun p => p.1) stage (bs[j], j) 0 here apart
  rw [List.getD_eq_getElem bs 0 h]
  exact got

/-- A store that its collective accepts is counted and staged (R267). -/
theorem takeStore_counts {s : State} {a : AliasStore} {n : Nat} {c : Coll} (found : s.openColl a.tenant a.slot = some (n, c))
    (has : c.has a.die = true) (fits : c.accepts a.die a.window a.off a.bytes.length = true) :
    ∃ d : Coll, s.takeStore a = (s.setColl n d).post (.chunkBody n) ∧ d.next = c.next ∧
      d.counts = c.counts.set (countKey a.window (a.off / 256) a.die) (c.counts.get (countKey a.window (a.off / 256) a.die) 0 + a.bytes.length) ∧
      d.stage = a.bytes.zipIdx.foldl (fun t p => t.set (stageKey a.window (a.off / 256) a.die (a.off % 256 + p.2)) p.1) c.stage := by
  have parts := fits
  simp only [Coll.accepts, Bool.and_eq_true, decide_eq_true_eq] at parts
  obtain ⟨⟨⟨window, inside⟩, ahead⟩, count⟩ := parts
  simp only [State.takeStore, found, has, fits, Bool.not_true, Bool.false_eq_true, if_false, if_true, State.stageBytes,
    Bool.or_eq_true, decide_eq_true_eq]
  rw [if_neg (by omega), if_neg (by omega)]
  exact ⟨_, rfl, rfl, rfl, rfl⟩

/-- ALIAS_STORE of a store that may be performed and is not to be relayed: what it does at its collective stands, its die is told, and what
waits on it comes up. -/
theorem execAliasStore_direct {s : State} {u : Nat} {a : AliasStore} (found : s.aliases.find? (fun y => y.uid == u) = some a)
    (due : s.aliasDue a = true)
    (direct : ∀ n c, s.openColl a.tenant a.slot = some (n, c) → c.endpoint = true → c.has a.die = true → a.relayed = true) :
    ∃ t, execAliasStore u s = .next t ∧ Sends ((s.aliasTaken u a).takeStore a) t ∧
      (a.hostFn = none → a.relayed = false → a.die ≠ 24 → ∃ y ∈ t.sures, y.act = .stored u a.gkey a.team ∧ y.dst = a.die) := by
  obtain ⟨t, ht⟩ : ∃ t, t = ((s.aliasTaken u a).takeStore a).kickAliases.afterOrder (a.gkey / 16) := ⟨_, rfl⟩
  have toT : Sends ((s.aliasTaken u a).takeStore a) t := ht ▸ (State.kickAliases_sends _).trans (State.afterOrder_sends _ _)
  refine ⟨if a.hostFn.isSome then t else t.sendSure ((s.aliasTaken u a).storedFrom a) a.die true 0 (.stored u a.gkey a.team), ?_, ?_, ?_⟩
  · rw [ht]
    cases isOpen : s.openColl a.tenant a.slot with
    | none => simp [execAliasStore, found, due, isOpen, State.aliasTaken]
    | some p =>
      have straight : (!a.relayed && (p.2.endpoint && p.2.has a.die)) = false := by
        have here := direct p.1 p.2 isOpen
        grind
      simp only [execAliasStore, found, due, isOpen, straight, State.aliasTaken, Bool.not_true, Bool.false_eq_true, if_false]
  · exact toT.trans (Sends.ite (.refl _) (t.sendSure_sends ..))
  · intro own straight far
    rw [own]
    have home : (s.aliasTaken u a).storedFrom a = 24 := by rw [State.storedFrom, straight]; rfl
    rw [home]
    exact t.sendSure_kept _ _ _ _ _ (Ne.symm far)

/-- The Basin relays a store of an endpoint collective toward its root die (R290). -/
theorem execAliasStore_relays {s : State} {u n : Nat} {a : AliasStore} {c : Coll} (found : s.aliases.find? (fun y => y.uid == u) = some a)
    (due : s.aliasDue a = true) (isOpen : s.openColl a.tenant a.slot = some (n, c)) (path : c.endpoint = true) (has : c.has a.die = true)
    (first : a.relayed = false) (root : c.root < 24) :
    ∃ t, execAliasStore u s = .next t ∧ t.mem = s.mem ∧ t.basin.colls = s.basin.colls ∧
      t.aliases.find? (fun y => y.uid == u) = some { a with relayed := true, arrived := false } := by
  let mark (x : AliasStore) : AliasStore := if x.uid = u then { x with relayed := true, arrived := false } else x
  have sends := State.sendMsg_sends { s with aliases := s.aliases.map mark } 24 c.root false a.bytes.length (.aliasStore u) (by omega)
  refine ⟨_, ?_, sends.mem, sends.colls, ?_⟩
  · simp only [execAliasStore, found, due, isOpen, path, has, first]
    rfl
  · rw [sends.aliases]
    show (s.aliases.map mark).find? _ = _
    have same : (fun y => y.uid == u) ∘ mark = fun y => y.uid == u := by
      funext y
      simp only [Function.comp, mark]
      split <;> rfl
    have number : a.uid = u := by simpa using List.find?_some found
    rw [List.find?_map, same, found]
    simp [mark, number]

theorem execAliasStore_waits {s : State} {u : Nat} {a : AliasStore} (found : s.aliases.find? (fun y => y.uid == u) = some a)
    (due : s.aliasDue a = false) : execAliasStore u s = .next s := by
  simp [execAliasStore, found, due]

/-! ### The answer at the die (R162, R267) -/

/-- A group of its team in its context has a count fewer outstanding; no other group changes. -/
theorem storeAccepted_groups (s : State) (k m : Nat) :
    (∀ j, j ≠ k → (s.storeAccepted k m).group j = s.group j) ∧ (s.storeAccepted k m).mem = s.mem ∧
      ((s.group k).live = true → (s.group k).team = m →
        ((s.storeAccepted k m).group k).pubCount.get 3 0 = (s.group k).pubCount.get 3 0 - 1) := by
  have sends : Sends (s.pubAdd k m 3 false) (s.storeAccepted k m) :=
    (((s.pubAdd k m 3 false).checkGrid_sends _).trans (State.afterRequest_sends _ _)).trans (State.afterOrder_sends _ _)
  have frame : (∀ j, j ≠ k → (s.pubAdd k m 3 false).group j = s.group j) ∧ (s.pubAdd k m 3 false).mem = s.mem := by
    unfold State.pubAdd State.modMember
    split
    · exact ⟨fun j h => State.group_setGroup_ne _ _ _ _ h, rfl⟩
    · dsimp only
      split <;> exact ⟨fun _ _ => rfl, rfl⟩
  refine ⟨fun j h => (sends.group j).trans (frame.1 j h), sends.mem.trans frame.2, fun live team => ?_⟩
  rw [sends.group, State.pubAdd, State.modMember, if_pos (by simp [live, team]), State.modGroup, State.group_setGroup]
  exact Table.get_set ..

/-! ### Bodies (R276) -/

/-- A body that ends leaves its collective at the next chunk. -/
theorem endBody_sends (s : State) (n : Nat) {c : Coll} (outs : c.outs = []) (wait : c.waiting = none) :
    ∃ d : Coll, d.next = c.next + 1 ∧ Sends (s.setColl n d) (s.endBody n c) := by
  let mine (k : Nat) : Bool := k / 64 % 2 ^ 18 == c.next
  let d : Coll := { c with counts := c.counts.filter (fun p => !mine p.1), stage := c.stage.filter (fun p => !mine (p.1 / 256))
                           next := c.next + 1, pc := 0, acc := [] }
  have pushed := State.pushOuts_none_sends _ (State.collOf_setColl s n d) outs wait
  rw [State.setColl_setColl] at pushed
  have kicked := pushed.trans (State.kickAliases_sends _)
  exact ⟨d, rfl, Sends.ite (kicked.post _) (kicked.post _)⟩

theorem execHenatEnd_eq {s : State} {c : Coll} (h : s.collOf s.curColl = some c) : execHenatEnd s = .next (s.endBody s.curColl c) := by
  rw [execHenatEnd, State.withColl, h]

theorem runBody_end {s : State} {n : Nat} {c : Coll} (found : s.collOf n = some c) (instr : c.instr = .henatEnd) (outs : c.outs = [])
    (wait : c.waiting = none) (fuel : Nat) :
    ∃ t d, s.runBody n (fuel + 1) = (t, 1) ∧ d.next = c.next + 1 ∧ Sends ({ s with curColl := n }.setColl n d) t := by
  obtain ⟨d, next, sends⟩ := endBody_sends { s with curColl := n } n outs wait
  have ran : nextOr s (henatExec c.instr { s with curColl := n }) = ({ s with curColl := n } : State).endBody n c := by
    rw [instr]
    exact congrArg (nextOr s) (execHenatEnd_eq (s := { s with curColl := n }) found)
  have after : (({ s with curColl := n } : State).endBody n c).collOf n = some d := by rw [sends.collOf, State.collOf_setColl]
  refine ⟨_, d, ?_, next, sends⟩
  rw [State.runBody, found]
  simp only [ran, after]
  rw [if_pos (by simp [next])]

/-- The first body of a free lock that can proceed runs, and its lock is busy (R276). -/
theorem execChunkBody_locked {s : State} {n : Nat} {c : Coll} (found : s.collOf n = some c)
    (first : (s.basin.colls.filter (fun e => s.bodyDue e.2 && !e.2.endpoint && e.2.lock == c.lock)).head? = some (n, c))
    (free : s.basin.lockBusy.has c.lock = false) (instr : c.instr = .henatEnd) (outs : c.outs = []) (wait : c.waiting = none) :
    ∃ t d, execChunkBody n s = .next t ∧ t.mem = s.mem ∧ t.collOf n = some d ∧ d.next = c.next + 1 ∧ t.basin.lockBusy.get c.lock 0 = 1 := by
  obtain ⟨t, d, ran, next, sends⟩ := runBody_end found instr outs wait 65
  obtain ⟨rest, order⟩ := List.head?_eq_some_iff.1 first
  have member : (n, c) ∈ s.basin.colls.filter (fun e => s.bodyDue e.2 && !e.2.endpoint && e.2.lock == c.lock) := by simp [order]
  simp only [List.mem_filter, Bool.and_eq_true, Bool.not_eq_true'] at member
  obtain ⟨-, ⟨due, path⟩, -⟩ := member
  have body : s.lockBody c.lock = some (t, 1) := by simp [State.lockBody, order, ran]
  refine ⟨t.holdLock c.lock 1, d, ?_, sends.mem, ?_, next, ?_⟩
  · simp [execChunkBody, found, due, path, free, body]
  · show t.collOf n = some d
    rw [sends.collOf, State.collOf_setColl]
  · exact Table.get_set ..

/-- A body on the endpoint path takes no lock (R289). -/
theorem execChunkBody_endpoint {s : State} {n : Nat} {c : Coll} (found : s.collOf n = some c) (path : c.endpoint = true)
    (due : s.bodyDue c = true) (instr : c.instr = .henatEnd) (outs : c.outs = []) (wait : c.waiting = none) :
    ∃ t d, execChunkBody n s = .next t ∧ t.mem = s.mem ∧ t.collOf n = some d ∧ d.next = c.next + 1 ∧ t.basin.lockBusy = s.basin.lockBusy := by
  obtain ⟨t, d, ran, next, sends⟩ := runBody_end found instr outs wait 65
  refine ⟨t, d, ?_, sends.mem, ?_, next, sends.lockBusy⟩
  · simp [execChunkBody, found, due, path, ran]
  · rw [sends.collOf, State.collOf_setColl]

/-! ### Completion (R274) -/

theorem fillPool_eq (s : State) (fuel : Nat) : ∃ p w, s.fillPool fuel = s.modBasin (fun b => { b with pool := p, poolWait := w }) := by
  induction fuel generalizing s with
  | zero => exact ⟨_, _, rfl⟩
  | succ k ih =>
    unfold State.fillPool
    split
    · obtain ⟨p, w, e⟩ := ih (s.modBasin _)
      exact ⟨p, w, e⟩
    · exact ⟨_, _, rfl⟩

/-- The entry of a slot whose collective has completed (R256, R274). -/
def closedSlot (x : Slot) : Slot :=
  let x := { x with isOpen := false, completed := x.completed + 1 }
  if x.state = 2 then { x with state := 0, tenant := 0 } else x

theorem closedSlot_closed (x : Slot) : (closedSlot x).isOpen = false ∧ (closedSlot x).completed = x.completed + 1 := by
  unfold closedSlot
  dsimp only
  split <;> exact ⟨rfl, rfl⟩

/-- A collective on the switch path that has done everything: its record goes, and its slot is no longer open. -/
theorem endColl_sends (s : State) (n : Nat) {c : Coll} (fixed : c.fixed = true) (path : c.endpoint = false) :
    ∃ t : State, t.mem = s.mem ∧ t.basin.colls = s.basin.colls.erase n ∧
      Sends (t.setSlot c.slot (closedSlot (s.slotOf c.slot))) (s.endColl n c true) := by
  obtain ⟨p, w, filled⟩ := fillPool_eq (s.modBasin (fun b => { b with
    colls := b.colls.erase n, pool := b.pool.filter (fun p => p.2.coll != n), poolWait := b.poolWait.filter (fun p => p.coll != n) })) 8
  let gone : State := { s with
    basin := { s.basin with colls := s.basin.colls.erase n, pool := p, poolWait := w }
    packets := s.packets.filter (fun p => match p.fwde with | some (k, _, _) => k != n | none => true) }
  let asked := gone.basin.colls.foldl (fun s p => if s.waitsEntry p.1 p.2 then s.post (.collectiveCompletion p.1) else s) gone
  have asks : Sends gone asked := (Sends.refl gone).fold (fun t p => Sends.ite (t.post_sends _) (.refl t))
  have slot : s.slotOf c.slot = asked.slotOf c.slot := (asks.slotOf c.slot).symm
  refine ⟨asked, asks.mem, asks.colls, ?_⟩
  rw [slot]
  simp only [State.endColl, filled, path, fixed, Bool.not_true, Bool.or_self, Bool.false_eq_true, if_false, if_true]
  exact Sends.ite (State.post_sends _ _) (.refl _)

theorem execCollectiveCompletion_done {s : State} {n : Nat} {c : Coll} (found : s.collOf n = some c) (fixed : c.fixed = true)
    (last : c.next = c.window / 256) (outs : c.outs = []) (fwde : c.fwde = 0) (path : c.endpoint = false) :
    ∃ t, execCollectiveCompletion n s = .next t ∧ t.mem = s.mem ∧ t.collOf n = none ∧ (t.slotOf c.slot).isOpen = false ∧
      (t.slotOf c.slot).completed = (s.slotOf c.slot).completed + 1 := by
  obtain ⟨t, mem, colls, ended⟩ := endColl_sends s n fixed path
  obtain ⟨isOpen, completed⟩ := closedSlot_closed (s.slotOf c.slot)
  have sends := ended.trans (State.kickAliases_sends _)
  have slot : (s.endColl n c true).kickAliases.slotOf c.slot = closedSlot (s.slotOf c.slot) := by rw [sends.slotOf, State.slotOf_setSlot]
  have finished : c.over = true := by simp [Coll.over, Coll.chunks, fixed, last, outs, fwde]
  refine ⟨_, ?_, sends.mem.trans mem, ?_, slot ▸ isOpen, slot ▸ completed⟩
  · simp [execCollectiveCompletion, found, State.waitsEntry, fixed, finished]
  · rw [sends.collOf]
    show Option.map _ (List.find? _ t.basin.colls) = none
    rw [colls, Table.find?_erase_self]
    rfl

end Sys2Proof.Machine
end

section
/-! SUPPORT. What the part's own accesses to memory, and the records it writes, leave as they were: the teams, the bids, and the Basin but for
what its lines and stations hold. -/

namespace Sys2Proof.Machine

open Sys2Proof

/-- The teams, every die's bids, and the Basin's tables stand in `t` as in `s`. -/
structure Undisturbed (s t : State) : Prop where
  teams : t.teams = s.teams
  bids : ∀ d, (t.die d).bids = (s.die d).bids
  basin : { t.basin with dirs := s.basin.dirs, msgs := s.basin.msgs, life := s.basin.life, station0 := s.basin.station0
                         station1 := s.basin.station1 } = s.basin

namespace Undisturbed

variable {s t u : State}

theorem refl (s : State) : Undisturbed s s := ⟨rfl, fun _ => rfl, rfl⟩

theorem trans (h : Undisturbed s t) (k : Undisturbed t u) : Undisturbed s u where
  teams := k.teams.trans h.teams
  bids d := (k.bids d).trans (h.bids d)
  basin := (congrArg (fun x : Basin => { x with dirs := s.basin.dirs, msgs := s.basin.msgs, life := s.basin.life, station0 := s.basin.station0
                                                station1 := s.basin.station1 }) k.basin).trans h.basin

theorem fold {β : Type} {f : State → β → State} {l : List β} (h : Undisturbed s t) (step : ∀ t b, Undisturbed t (f t b)) :
    Undisturbed s (l.foldl f t) :=
  h.trans (foldl_rel refl trans f l (fun t b _ => step t b) t)

theorem ite {p : Prop} [Decidable p] {a b : State} (h : Undisturbed s a) (k : Undisturbed s b) : Undisturbed s (if p then a else b) := by
  split
  · exact h
  · exact k

theorem ite_fst {α : Type} {p : Prop} [Decidable p] {a b : State × α} (h : Undisturbed s a.1) (k : Undisturbed s b.1) :
    Undisturbed s (if p then a else b).1 := by
  split
  · exact h
  · exact k

/-- What keeps the three things as they are disturbs none of them. -/
theorem of_eq (h : t.teams = s.teams) (k : t.dies = s.dies) (l : t.basin = s.basin) : Undisturbed s t :=
  ⟨h, fun d => by rw [State.die, k]; rfl, by rw [l]⟩

theorem of_sends (h : Sends s t) : Undisturbed s t :=
  ⟨h.teams, fun d => by rw [State.die, h.dies]; rfl,
    (congrArg (fun x : Basin => { x with station0 := s.basin.station0, station1 := s.basin.station1 }) h.basin :)⟩

theorem modDie (h : Undisturbed s t) (k : Nat) (f : Die → Die) (keep : ∀ x, (f x).bids = x.bids) : Undisturbed s (t.modDie k f) :=
  h.trans ⟨rfl, fun d => by
    by_cases e : d = k
    · subst e
      rw [State.die_modDie, keep]
    · rw [State.die_modDie_ne _ _ _ _ e], rfl⟩

theorem modFn (h : Undisturbed s t) (k : Nat) (f : Fn → Fn) : Undisturbed s (t.modFn k f) := h.trans (of_eq rfl rfl rfl)
theorem modCore (h : Undisturbed s t) (k : Nat) (f : Core → Core) : Undisturbed s (t.modCore k f) := h.trans (of_eq rfl rfl rfl)

theorem staging (h : Undisturbed s t) : t.basin.staging = s.basin.staging := (congrArg Basin.staging h.basin :)
theorem reloads (h : Undisturbed s t) : t.basin.reloads = s.basin.reloads := (congrArg Basin.reloads h.basin :)
theorem active (h : Undisturbed s t) : t.basin.active = s.basin.active := (congrArg Basin.active h.basin :)
theorem bank0 (h : Undisturbed s t) : t.basin.bank0 = s.basin.bank0 := (congrArg Basin.bank0 h.basin :)
theorem bank1 (h : Undisturbed s t) : t.basin.bank1 = s.basin.bank1 := (congrArg Basin.bank1 h.basin :)

end Undisturbed

namespace State

variable (s : State)

/-! ### Translation (R152 to R155) -/

theorem recallAll_undisturbed (loc n : Nat) : Undisturbed s (s.recallAll loc n) := .of_eq rfl rfl rfl

/-- What a core does where a core asks. -/
theorem atCore_undisturbed (core : Option Nat) (f : Nat → State) (h : ∀ ck, Undisturbed s (f ck)) :
    Undisturbed s (match core with
      | some ck => f ck
      | none => s) := by
  cases core
  · exact .refl s
  · exact h _

theorem countC_undisturbed (ck n k : Nat) : Undisturbed s (s.countC ck n k) := .of_eq rfl rfl rfl

theorem keepLeaf_undisturbed (core : Option Nat) (e : TlbEntry) :
    Undisturbed s (match core with
      | some ck => s.modCore ck (fun c => { c with tlb := tlbPut c.tlb 32 e })
      | none => s) :=
  s.atCore_undisturbed core _ (fun _ => (Undisturbed.refl s).modCore ..)

theorem leafOf_undisturbed (d fn : Nat) (core : Option Nat) (va : Nat) : Undisturbed s (s.leafOf d fn core va).1 := by
  have missed := s.atCore_undisturbed core _ (fun ck => s.countC_undisturbed ck 6 1)
  have walked (l : List Nat) := (missed.modFn (d * 8 + fn) (fun f => { f with cnt7 := f.cnt7 + 1 })).fold (l := l)
    (fun t a => t.recallAll_undisturbed a 8)
  unfold leafOf
  dsimp only
  split
  · dsimp only
    exact (Undisturbed.refl s).modCore ..
  · split
    · exact missed.trans (keepLeaf_undisturbed ..)
    · split
      · exact walked _
      · split
        · exact walked _
        · split
          · refine Undisturbed.trans ?_ (keepLeaf_undisturbed ..)
            exact (walked _).modDie _ _ (fun _ => rfl)
          · exact walked _

theorem translatePeer_undisturbed (d fn : Nat) (acc : Acc) (e : DWord) (sz va : Nat) : Undisturbed s (s.translatePeer d fn acc e sz va).1 := by
  have leaf := s.leafOf_undisturbed
  unfold translatePeer
  dsimp only
  refine Undisturbed.ite_fst (.refl s) ?_
  split
  · exact leaf ..
  · split
    · exact leaf ..
    · split
      · exact leaf ..
      · split <;> exact leaf ..

theorem translate_undisturbed (d fn : Nat) (core : Option Nat) (va n : Nat) (acc : Acc) :
    Undisturbed s (s.translate d fn core va n acc).1 := by
  have leaf := s.leafOf_undisturbed d fn core va
  unfold translate
  dsimp only
  split
  · exact .refl s
  · split
    · exact .refl s
    · split
      · exact leaf
      · split
        · exact leaf
        · split
          · exact leaf
          · split
            · split <;> exact leaf
            · exact leaf.trans (translatePeer_undisturbed ..)
            · exact leaf
            · exact leaf
            · exact leaf
            · exact leaf

/-- The result of a step that disturbs nothing, whatever it answers. -/
theorem undisturbed_of_fst {α : Type} {s t : State} {x : α} {p : State × α} (h : Undisturbed s p.1) (e : p = (t, x)) : Undisturbed s t := by
  rw [e] at h
  exact h

theorem vPlaces_undisturbed (d fn : Nat) (acc : Acc) (ps : List (Nat × Nat)) : Undisturbed s (s.vPlaces d fn acc ps).1 := by
  induction ps generalizing s with
  | nil => exact .refl s
  | cons p r ih =>
    have first := s.translate_undisturbed d fn none p.1 1 acc
    unfold vPlaces
    split
    · rename_i t sp loc slot expo e
      have here := (undisturbed_of_fst first e).trans (t.recallAll_undisturbed loc p.2)
      split <;> exact here.trans (undisturbed_of_fst (ih _) ‹_›)
    all_goals exact undisturbed_of_fst first ‹_›

/-! ### Bytes, messages and watched words (R181, R191, R311, R340) -/

theorem storeByte_undisturbed (loc : Nat) (b : Byte) : Undisturbed s (s.storeByte loc b) := by
  unfold storeByte
  split
  · exact ⟨rfl, fun _ => rfl, rfl⟩
  · split <;> exact ⟨rfl, fun _ => rfl, rfl⟩

theorem putBytes_undisturbed (loc : Nat) (bs : List Byte) : Undisturbed s (s.putBytes loc bs) := by
  induction bs generalizing s loc with
  | nil => exact .refl s
  | cons b r ih => exact (s.storeByte_undisturbed loc b).trans (ih ..)

theorem tagUnit_undisturbed (slot u : Nat) : Undisturbed s (s.tagUnit slot u) :=
  (Undisturbed.ite (s.putBytes_undisturbed ..) (.refl s)).trans (.of_eq rfl rfl rfl)

theorem storeBytes_undisturbed (loc slot : Nat) (bs : List Byte) : Undisturbed s (s.storeBytes loc slot bs) := by
  have tagged : Undisturbed s (s.tagUnits loc slot bs.length) :=
    Undisturbed.ite ((Undisturbed.refl s).fold (fun t _ => t.tagUnit_undisturbed ..)) (.refl s)
  exact (tagged.trans (putBytes_undisturbed ..)).trans (.of_eq rfl rfl rfl)

theorem putPieces_undisturbed (l : List (Nat × Nat × Nat × Option Nat)) (bs : List Byte) : Undisturbed s (s.putPieces l bs) := by
  induction l generalizing s bs with
  | nil => exact .refl s
  | cons p r ih => exact (s.storeBytes_undisturbed ..).trans (ih ..)

theorem farPounds_ne {d : Nat} {l : List (Nat × Nat × Nat × Option Nat)} {h : Nat × Nat} (m : h ∈ farPounds d l) : h.1 ≠ d := by
  simp only [farPounds, List.mem_map, List.mem_dedup, List.mem_filter] at m
  obtain ⟨x, ⟨-, far⟩, rfl⟩ := m
  simpa using far

theorem partFlits_undisturbed (d : Nat) (write : Bool) (l : List (Nat × Nat × Nat × Option Nat)) :
    Undisturbed s (s.partFlits d write l) := by
  refine foldl_rel .refl .trans _ _ (fun t h m => ?_) s
  have far := farPounds_ne m
  exact (Undisturbed.of_sends (t.sendMsg_sends _ _ _ _ _ (Ne.symm far))).trans (.of_sends (sendMsg_sends _ _ _ _ _ _ far))

theorem unwatch_undisturbed (loc gk : Nat) : Undisturbed s (s.unwatch loc gk) :=
  Undisturbed.ite ((Undisturbed.refl s).modDie _ _ (fun _ => rfl)) (.refl s)

theorem freeDep_undisturbed (fkey : Nat) (w : DepWatch) : Undisturbed s (s.freeDep fkey w) :=
  Undisturbed.ite (.refl s) (s.unwatch_undisturbed ..)

theorem meetDeps_undisturbed (loc n : Nat) : Undisturbed s (s.meetDeps loc n) := by
  unfold meetDeps
  refine Undisturbed.fold (.of_eq rfl rfl rfl) (fun t x => ?_)
  exact (t.freeDep_undisturbed ..).trans (.of_sends (sendSure_sends ..))

theorem wakeAt_undisturbed (loc n : Nat) : Undisturbed s (s.wakeAt loc n) := by
  unfold wakeAt
  refine Undisturbed.fold ((Undisturbed.of_sends (s.agenda_sends _)).trans (meetDeps_undisturbed ..)) (fun t p => ?_)
  split
  · refine Undisturbed.ite (Undisturbed.trans ?_ (.of_sends (sendSure_sends ..))) (.refl t)
    exact .of_eq rfl rfl rfl
  · exact .refl t

theorem postIncr_undisturbed (k n : Nat) (net : Bool) (ack : Option (Nat × NetPacket)) : Undisturbed s (s.postIncr k n net ack) :=
  Undisturbed.ite (.refl s) (.of_eq rfl rfl rfl)

theorem vWrite_undisturbed (d fn va : Nat) (bs : List Byte) : Undisturbed s (s.vWrite d fn va bs).1 := by
  have places := s.vPlaces_undisturbed d fn .store (pieces (bs.length / 4096 + 2) va bs.length)
  unfold vWrite
  split
  · rename_i t l e
    refine Undisturbed.fold (((undisturbed_of_fst places e).trans (t.partFlits_undisturbed ..)).trans (putPieces_undisturbed ..))
      (fun t p => Undisturbed.trans ?_ (wakeAt_undisturbed ..))
    split
    · exact t.postIncr_undisturbed ..
    · exact .refl t
  all_goals exact undisturbed_of_fst places ‹_›

theorem vRead_undisturbed (d fn va n : Nat) : Undisturbed s (s.vRead d fn va n).1 := by
  have places := s.vPlaces_undisturbed d fn .load (pieces (n / 4096 + 2) va n)
  unfold vRead
  split
  · exact (undisturbed_of_fst places ‹_›).trans (partFlits_undisturbed ..)
  all_goals exact undisturbed_of_fst places ‹_›

/-! ### Rings and records (R156, R332 to R335) -/

theorem signal_undisturbed (fkey v : Nat) : Undisturbed s (s.signal fkey v) := .of_eq rfl rfl rfl
theorem holdWrite_undisturbed (fkey : Nat) (w : HeldWrite) (f p : Nat) : Undisturbed s (s.holdWrite fkey w f p) := .of_eq rfl rfl rfl

theorem putRecord_undisturbed (fkey v : Nat) (bs : List Byte) : Undisturbed s (s.putRecord fkey v bs).1 := by
  have header := s.vRead_undisturbed (fkey / 8) (fkey % 8) (s.ringOf fkey v) 64
  unfold putRecord
  dsimp only
  split
  · rename_i t hb e
    have read := undisturbed_of_fst header e
    split
    · exact read.trans (vWrite_undisturbed ..)
    · have entry := read.trans (t.vWrite_undisturbed (fkey / 8) (fkey % 8)
        (s.ringOf fkey v + 64 + bs.length * ((ringHdr hb).tail % (ringHdr hb).entries)) bs)
      split
      · exact ((undisturbed_of_fst entry ‹_›).trans (vWrite_undisturbed ..)).trans (signal_undisturbed ..)
      all_goals exact undisturbed_of_fst entry ‹_›
  all_goals exact undisturbed_of_fst header ‹_›

theorem postOrHold_undisturbed (fkey v : Nat) (bs : List Byte) : Undisturbed s (s.postOrHold fkey v bs).1 := by
  have put := s.putRecord_undisturbed fkey v bs
  unfold postOrHold
  split
  · exact s.holdWrite_undisturbed ..
  · split
    · exact (undisturbed_of_fst put ‹_›).trans (holdWrite_undisturbed ..)
    · exact undisturbed_of_fst put ‹_›

theorem newRequest_undisturbed (fkey page : Nat) (acc : Acc) : Undisturbed s (s.newRequest fkey page acc).1 := .of_eq rfl rfl rfl

theorem requestPage_undisturbed (fkey page : Nat) (acc : Acc) : Undisturbed s (s.requestPage fkey page acc) := by
  unfold requestPage
  split
  · exact .refl s
  · have asked := (s.newRequest_undisturbed fkey page acc).trans
      (postOrHold_undisturbed _ fkey 1 (s.newRequest fkey page acc).2)
    dsimp only
    split
    · exact undisturbed_of_fst asked ‹_›
    · have here := undisturbed_of_fst asked ‹_›
      exact Undisturbed.ite here ((here.trans (newRequest_undisturbed ..)).trans (postOrHold_undisturbed ..))

theorem faultRecord_undisturbed (fkey kind : Nat) (bs : List Byte) : Undisturbed s (s.faultRecord fkey kind bs) := by
  have posted := s.postOrHold_undisturbed fkey 0 (bs.take 32 ++ bytesOf (32 - bs.length) 0 ++ bytesOf 4 kind ++ bytesOf 28 0)
  unfold faultRecord
  split
  · exact (undisturbed_of_fst posted ‹_›).trans (requestPage_undisturbed ..)
  · exact undisturbed_of_fst posted ‹_›

theorem partPut_undisturbed (fkey addr : Nat) (bs : List Byte) : Undisturbed s (s.partPut fkey addr bs) := by
  have wrote := s.vWrite_undisturbed (fkey / 8) (fkey % 8) addr bs
  unfold partPut
  split
  · exact ((undisturbed_of_fst wrote ‹_›).trans (holdWrite_undisturbed ..)).trans (requestPage_undisturbed ..)
  · exact undisturbed_of_fst wrote (by assumption)

theorem bumpDone_undisturbed (fkey ring : Nat) : Undisturbed s (s.bumpDone fkey ring) := by
  have read := s.vRead_undisturbed (fkey / 8) (fkey % 8) (ring + 16) 8
  unfold bumpDone
  split
  · exact (undisturbed_of_fst read ‹_›).trans (partPut_undisturbed ..)
  · exact ((undisturbed_of_fst read ‹_›).trans (holdWrite_undisturbed ..)).trans (requestPage_undisturbed ..)
  · exact undisturbed_of_fst read ‹_›

/-- The completion of a command (R333). -/
theorem complete_undisturbed (fkey addr status : Nat) : Undisturbed s (s.complete fkey addr status) := by
  have wrote := s.vWrite_undisturbed (fkey / 8) (fkey % 8) addr (bytesOf 8 (2 ^ 63 + status))
  unfold complete writeResult
  split
  · exact ((undisturbed_of_fst wrote ‹_›).trans (requestPage_undisturbed ..)).trans (.of_eq rfl rfl rfl)
  · exact ((undisturbed_of_fst wrote (by assumption)).trans (bumpDone_undisturbed ..)).trans (signal_undisturbed ..)

/-- The report of a failure (R226). -/
theorem reportFailure_undisturbed (o : Origin) (word : Word) (addr : Nat) : Undisturbed s (s.reportFailure o word addr) := by
  unfold reportFailure
  extract_lets team group fkey kept inBlock mine
  have block (t : State) (g : Group) (place level : Nat) : Undisturbed t (inBlock t g place level) := by
    have wrote := t.vWrite_undisturbed g.die g.fn ((g.faultArea.toNat + 2048 * (16 * team.index + g.index) + place) % 2 ^ 64)
      (engineRecord o word addr team.index level)
    refine Undisturbed.ite (t.faultRecord_undisturbed ..) ?_
    dsimp only
    split
    · exact undisturbed_of_fst wrote ‹_›
    · exact ((undisturbed_of_fst wrote ‹_›).trans (holdWrite_undisturbed ..)).trans (requestPage_undisturbed ..)
    · exact (undisturbed_of_fst wrote ‹_›).trans (faultRecord_undisturbed ..)
  clear_value inBlock mine
  split
  · exact block ..
  · refine Undisturbed.ite (block ..) (Undisturbed.ite ?_ (faultRecord_undisturbed ..))
    refine Undisturbed.trans ?_ (faultRecord_undisturbed ..)
    exact .of_eq rfl rfl rfl

end State

end Sys2Proof.Machine
end

section
/-! SUPPORT. Completion of an operation (R224, R226, R302), and the bank switch (R288). -/

namespace Sys2Proof.Machine

open Sys2Proof

namespace State

variable (s : State)

theorem kickPlace_sends (fkey : Nat) : Sends s (s.kickPlace fkey) := by
  have restored : Sends s (if (s.fnOf fkey).saved.isEmpty then s else s.post (.teamRestore (fkey / 8) (fkey % 8))) :=
    Sends.ite (.refl s) (s.post_sends _)
  exact Sends.ite (restored.post _) restored

theorem kickRoom_sends (ck : Nat) : Sends s (s.kickRoom ck) := by
  unfold kickRoom
  exact ((Sends.refl s).fold (fun t _ => Sends.ite (t.post_sends _) (.refl t))).fold (fun t _ => t.kickPlace_sends _)

theorem kickCore_sends (ck : Nat) : Sends s (s.kickCore ck) := by
  unfold kickCore
  refine Sends.trans ?_ (kickRoom_sends _ ck)
  refine Sends.fold (Sends.fold (Sends.fold ?_ (fun t c => t.post_sends _)) (fun t p => t.post_sends _)) (fun t p => ?_)
  · have heads : Sends s _ := (Sends.refl s).fold (l := List.range 8) (f := fun s t => match s.mxHead ck t with
      | some (_, .mloop ..) => s.post (.matrixStep ck t)
      | some (_, .mzero ..) => s.post (.mzeroCompletion ck t)
      | some (_, .mstore ..) => s.post (.mstoreWrite ck t)
      | none => s) (fun t k => by
        split
        · exact t.post_sends _
        · exact t.post_sends _
        · exact t.post_sends _
        · exact .refl t)
    exact Sends.ite heads (heads.post _)
  · refine Sends.ite ?_ (.refl t)
    split
    · exact t.post_sends _
    · exact .refl t

theorem wakeYield_sends (team : Nat) (h : Word) : Sends s (s.wakeYield team h) := by
  refine (Sends.refl s).fold (fun t k => ?_)
  split
  · exact Sends.ite (t.post_sends _) (.refl t)
  · exact .refl t

end State

/-- Neither the memory nor what `Undisturbed` names has changed. -/
structure Untouched (s t : State) : Prop where
  rest : Undisturbed s t
  mem : t.mem = s.mem

namespace Untouched

variable {s t u : State}

theorem refl (s : State) : Untouched s s := ⟨.refl s, rfl⟩
theorem trans (h : Untouched s t) (k : Untouched t u) : Untouched s u := ⟨h.rest.trans k.rest, k.mem.trans h.mem⟩
theorem of_sends (h : Sends s t) : Untouched s t := ⟨.of_sends h, h.mem⟩
theorem of_eq (h : t.teams = s.teams) (k : t.dies = s.dies) (l : t.basin = s.basin) (m : t.mem = s.mem) : Untouched s t :=
  ⟨.of_eq h k l, m⟩
theorem ite {p : Prop} [Decidable p] {a b : State} (h : Untouched s a) (k : Untouched s b) : Untouched s (if p then a else b) := by
  split
  · exact h
  · exact k

end Untouched

namespace State

variable (s : State)

theorem tellReaders_untouched (team : Nat) (h word : Word) : Untouched s (s.tellReaders team h word) := by
  unfold tellReaders
  extract_lets tell told fkey
  have groups : Untouched s told := foldl_rel .refl .trans _ _ (fun t k _ => .of_eq rfl rfl rfl rfl) s
  exact Untouched.ite (groups.trans (.of_eq rfl rfl rfl rfl)) groups

theorem dropEntries_untouched (ck team : Nat) (h : Word) (pick : ScoreEntry → Bool) : Untouched s (s.dropEntries ck team h pick) := by
  unfold dropEntries
  extract_lets own t away kept
  have saved : Untouched s kept := Untouched.ite (.of_eq rfl rfl rfl rfl) (.refl s)
  clear_value kept
  refine Untouched.ite (saved.trans (Untouched.trans ?_ (.of_sends (kickCore_sends _ ck)))) saved
  exact .of_eq rfl rfl rfl rfl

/-- The team's entry of an operation that completes (R224). -/
def finishOp (t : Team) (h word : Word) : Team :=
  let e := t.ops.get (h.toNat % 128) {}
  if e.handle == h then { t with ops := t.ops.set (h.toNat % 128) { e with word := word, pending := false } } else t

theorem finishOp_entry (t : Team) (h word : Word) (current : (t.ops.get (h.toNat % 128) {}).handle = h) :
    ((finishOp t h word).ops.get (h.toNat % 128) {}).pending = false ∧ ((finishOp t h word).ops.get (h.toNat % 128) {}).word = word := by
  unfold finishOp
  dsimp only
  rw [if_pos (beq_iff_eq.2 current), Table.get_set]
  exact ⟨rfl, rfl⟩

/-- An operation's completion: its entry in its team's table, and what disturbs nothing of it; memory changes only where a failure is
reported. -/
theorem completeOp_undisturbed (o : Origin) (word : Word) (addr : Nat) :
    Undisturbed (s.modTeam o.team (fun t => finishOp t o.handle word)) (s.completeOp o word addr) ∧
      (word.toNat / 2 ^ 24 ≠ 2 → (s.completeOp o word addr).mem = s.mem) := by
  let entered := s.modTeam o.team (fun t => finishOp t o.handle word)
  let told := ((entered.tellReaders o.team o.handle word).dropScore (o.die * 512 + o.core) o.team o.handle).wakeYield o.team o.handle
  have tells : Untouched entered told :=
    ((entered.tellReaders_untouched ..).trans (dropEntries_untouched ..)).trans (.of_sends (wakeYield_sends ..))
  have eq : ∃ k, s.completeOp o word addr = (if word.toNat / 2 ^ 24 == 2 then told.reportFailure o word addr else told).checkGrid k := ⟨_, rfl⟩
  obtain ⟨k, eq⟩ := eq
  rw [eq]
  constructor
  · refine Undisturbed.trans ?_ (.of_sends (checkGrid_sends _ k))
    exact Undisturbed.ite (tells.rest.trans (reportFailure_undisturbed ..)) tells.rest
  · intro good
    rw [(checkGrid_sends _ k).mem, if_neg (by simpa using good)]
    exact tells.mem

/-- The completion word stands at the operation's handle (R223, R224). -/
theorem completeOp_entry (o : Origin) (word : Word) (addr : Nat)
    (current : ((s.teamOf o.team).ops.get (o.handle.toNat % 128) {}).handle = o.handle) :
    (((s.completeOp o word addr).teamOf o.team).ops.get (o.handle.toNat % 128) {}).pending = false ∧
      (((s.completeOp o word addr).teamOf o.team).ops.get (o.handle.toNat % 128) {}).word = word := by
  have teams := (s.completeOp_undisturbed o word addr).1.teams
  have entry : (s.completeOp o word addr).teamOf o.team = finishOp (s.teamOf o.team) o.handle word := by
    rw [teamOf, teams]
    exact teamOf_modTeam s o.team (fun t => finishOp t o.handle word)
  rw [entry]
  exact finishOp_entry _ _ _ current

/-- The completion of a bid at its die: its slot is free, and its handle complete (R302, R303). -/
theorem bidEnds_completes {d n : Nat} {b : Bid} (w : Word)
    (found : (s.die d).bids.find? (fun y => y.1 == n && y.2.handle == b.handle) = some (n, b)) :
    (∀ y ∈ ((s.bidEnds d n b.handle w).die d).bids, y.1 ≠ n) ∧ (w.toNat / 2 ^ 24 ≠ 2 → (s.bidEnds d n b.handle w).mem = s.mem) ∧
      (b.origin.handle = b.handle → ((s.teamOf b.origin.team).ops.get (b.handle.toNat % 128) {}).handle = b.handle →
        (((s.bidEnds d n b.handle w).teamOf b.origin.team).ops.get (b.handle.toNat % 128) {}).pending = false ∧
          (((s.bidEnds d n b.handle w).teamOf b.origin.team).ops.get (b.handle.toNat % 128) {}).word = w) := by
  let freed := s.modDie d (fun x => { x with bids := x.bids.erase n })
  have eq : s.bidEnds d n b.handle w = freed.completeOp b.origin w 0 := by rw [bidEnds, found]
  obtain ⟨rest, mem⟩ := freed.completeOp_undisturbed b.origin w 0
  rw [eq]
  refine ⟨fun y hy => ?_, mem, fun same current => ?_⟩
  · rw [rest.bids d] at hy
    have erased : y ∈ (s.die d).bids.erase n := by
      have here : (freed.die d).bids = (s.die d).bids.erase n := congrArg Die.bids (die_modDie s d _)
      rw [← here]
      exact hy
    rw [Table.erase_eq_filter, List.mem_filter] at erased
    simpa using erased.2
  · rw [← same] at current ⊢
    exact freed.completeOp_entry b.origin w 0 current

end State

/-! ### The control store (R288) -/

/-- RELOAD_BANK_SWITCH, where no open collective is bound to the inactive bank and no further RELOAD waits. -/
theorem execReloadBankSwitch_switches {s : State} {r : Reload} (staged : s.basin.staging = some r) (alone : s.basin.reloads = [])
    (unbound : ∀ c ∈ s.basin.colls, c.2.endpoint = true ∨ c.2.bank = s.basin.active) :
    ∃ t, execReloadBankSwitch s = .next t ∧ t.basin.active = !s.basin.active ∧ t.basin.staging = none ∧
      (∀ i, i < r.image.length → (if t.basin.active then t.basin.bank1 else t.basin.bank0).get i 0 = r.image.getD i 0) ∧
      (if t.basin.active then t.basin.bank0 = s.basin.bank0 else t.basin.bank1 = s.basin.bank1) := by
  let switched := s.modBasin (fun b => { b with
    bank0 := if !s.basin.active then b.bank0 else Table.listing r.image 0
    bank1 := if !s.basin.active then Table.listing r.image 0 else b.bank1, active := !s.basin.active, staging := none })
  have free : (s.basin.colls.any fun c => !c.2.endpoint && c.2.bank == !s.basin.active) = false := by
    rw [List.any_eq_false]
    intro c hc
    rcases unbound c hc with e | e <;> simp [e]
  have done := switched.complete_undisturbed (r.die * 8) r.result 0
  have none : (switched.complete (r.die * 8) r.result 0).basin.reloads = [] := done.reloads.trans alone
  refine ⟨switched.complete (r.die * 8) r.result 0, ?_, done.active, done.staging, fun i _ => ?_, ?_⟩
  · have stop : (switched.complete (r.die * 8) r.result 0).stageReload
        ((switched.complete (r.die * 8) r.result 0).basin.reloads.length + 1) = switched.complete (r.die * 8) r.result 0 := by
      rw [State.stageReload, none]
      split <;> trivial
    simp only [execReloadBankSwitch, staged, free, Bool.false_eq_true, if_false]
    exact congrArg _ stop
  · have word := Table.get_listing r.image 0 i
    rw [done.active, done.bank0, done.bank1]
    cases e : s.basin.active <;> simpa [switched, e] using word
  · rw [done.active, done.bank0, done.bank1]
    cases e : s.basin.active <;> simp [switched, e]

end Sys2Proof.Machine
end

section
/-! SUPPORT. The Weir: bids, rounds and the changes of the contest table (R258, R259, R294 to R300). -/

namespace Sys2Proof.Machine

open Sys2Proof

/-- A fold over a list without repetitions reaches `P` where the step for `x` brings it about while `I` stands, and the other steps keep
both. -/
theorem foldl_once {σ β : Type} {I P : σ → Prop} (f : σ → β → σ) {x : β} {l : List β} (hx : x ∈ l) (nodup : l.Nodup)
    (keepI : ∀ s b, b ≠ x → I s → I (f s b)) (reach : ∀ s, I s → P (f s x)) (keepP : ∀ s b, b ≠ x → P s → P (f s b))
    {s : σ} (h : I s) : P (l.foldl f s) := by
  obtain ⟨before, after, rfl⟩ := List.append_of_mem hx
  have apart : ∀ b, b ∈ before ∨ b ∈ after → b ≠ x := by
    rintro b hb rfl
    have := List.nodup_middle.1 nodup
    simp_all
  rw [List.foldl_append, List.foldl_cons]
  have start : I (before.foldl f s) := List.foldlRecOn before f h (fun t ht b hb => keepI t b (apart b (.inl hb)) ht)
  exact List.foldlRecOn after f (reach _ start) (fun t ht b hb => keepP t b (apart b (.inr hb)) ht)

/-- In a table without repetitions a search by number finds the record that stands there. -/
theorem find?_of_nodup {α : Type} {l : Table α} {p : Nat × α} (nodup : (l.map Prod.fst).Nodup) (h : p ∈ l) :
    l.find? (fun y => y.1 == p.1) = some p := by
  induction l with
  | nil => cases h
  | cons q r ih =>
    obtain ⟨fresh, rest⟩ := List.nodup_cons.1 (List.map_cons ▸ nodup)
    rcases List.mem_cons.1 h with rfl | h
    · simp
    · have ne : q.1 ≠ p.1 := fun e => fresh (e ▸ List.mem_map_of_mem h)
      simp [ne, ih rest h]

/-- The greatest of numbers is found where it stands. -/
theorem foldl_max_eq {α : Type} (f : α → Nat) {l : List α} {w : α} (hw : w ∈ l) (top : ∀ p ∈ l, f p ≤ f w) :
    l.foldl (fun m p => max m (f p)) 0 = f w := by
  have bound (r : List α) (m : Nat) (h : ∀ p ∈ r, f p ≤ f w) (hm : m ≤ f w) (reached : m = f w ∨ w ∈ r) :
      r.foldl (fun m p => max m (f p)) m = f w := by
    induction r generalizing m with
    | nil => simpa using reached
    | cons q r ih =>
      have hq := h q (List.mem_cons_self ..)
      refine ih (max m (f q)) (fun p hp => h p (List.mem_cons_of_mem _ hp)) (by omega) ?_
      rcases reached with e | e
      · left; omega
      · rcases List.mem_cons.1 e with rfl | e
        · left; omega
        · exact .inr e
  exact bound l 0 top (Nat.zero_le _) (.inr hw)

/-! ### Bids of a die -/

/-- A bid that is in the round, or is one of those marked. -/
def marked (m : Nat → Bool) (p : Nat × Bid) : Nat × Bid := (p.1, { p.2 with inRound := p.2.inRound || m p.1 })

theorem marked_marked (m m' : Nat → Bool) (p : Nat × Bid) : marked m' (marked m p) = marked (fun k => m k || m' k) p := by
  simp [marked, Bool.or_assoc]

theorem marked_inRound (m : Nat → Bool) {p : Nat × Bid} (h : p.2.inRound = true) : marked m p = p := by
  obtain ⟨k, contest, key, handle, origin, arrived, inRound⟩ := p
  obtain rfl : inRound = true := h
  rfl

theorem map_marked_none (l : Table Bid) : l.map (marked (fun _ => false)) = l := by
  have same : marked (fun _ => false) = id := funext (fun p => by simp [marked])
  rw [same, List.map_id]

theorem map_fst_marked (m : Nat → Bool) (l : Table Bid) : (l.map (marked m)).map Prod.fst = l.map Prod.fst := by
  rw [List.map_map]
  rfl

namespace State

variable (s : State)

theorem bids_modBid (d k : Nat) (f : Bid → Bid) :
    ((s.modBid d k f).die d).bids = (s.die d).bids.map (fun p => if p.1 = k then (p.1, f p.2) else p) :=
  congrArg Die.bids (die_modDie s d _)

theorem die_modBid_ne {d e : Nat} (h : e ≠ d) (k : Nat) (f : Bid → Bid) : (s.modBid d k f).die e = s.die e := die_modDie_ne s d e _ h

/-- Nothing of a die but its bids changes. -/
theorem die_modBid_rest (d e k : Nat) (f : Bid → Bid) :
    { (s.modBid d k f).die e with bids := (s.die e).bids } = s.die e := by
  by_cases h : e = d
  · subst h
    rw [modBid, die_modDie]
  · rw [die_modBid_ne s h]

theorem fenced_modBid (d e k : Nat) (f : Bid → Bid) : ((s.modBid d k f).die e).fenced = (s.die e).fenced :=
  (congrArg Die.fenced (s.die_modBid_rest d e k f) :)

theorem results_modBid (d e k : Nat) (f : Bid → Bid) : ((s.modBid d k f).die e).results = (s.die e).results :=
  (congrArg Die.results (s.die_modBid_rest d e k f) :)

theorem bids_mark (d e k : Nat) : ∃ m, ((s.modBid d k (fun b => { b with inRound := true })).die e).bids = (s.die e).bids.map (marked m) := by
  by_cases h : e = d
  · subst h
    refine ⟨fun j => j == k, ?_⟩
    rw [bids_modBid]
    refine List.map_congr_left (fun p _ => ?_)
    by_cases hk : p.1 = k
    · simp [marked, hk]
    · have unmarked : (p.1 == k) = false := beq_false_of_ne hk
      simp [marked, hk, unmarked]
  · refine ⟨fun _ => false, ?_⟩
    rw [die_modBid_ne s h, map_marked_none]

/-- A bid that stands in its slot is done with: it enters no further round, and its completion crosses back (R17, R299). -/
theorem endBid_eq {d k : Nat} {p : Nat × Bid} (w : Word) (found : (s.die d).bids.find? (fun b => b.1 == k) = some p) :
    s.endBid d k w = { s.modBid d k (fun b => { b with inRound := true }) with agenda := s.agenda ++ [.bidEnd d k p.2.handle w] } := by
  rw [endBid, found]
  rfl

/-- One that stands nowhere changes nothing. -/
theorem endBid_none {d k : Nat} (w : Word) (absent : (s.die d).bids.find? (fun b => b.1 == k) = none) : s.endBid d k w = s := by
  rw [endBid, absent]

theorem endBid_basin (d k : Nat) (w : Word) : (s.endBid d k w).basin = s.basin := by
  cases e : (s.die d).bids.find? (fun b => b.1 == k) with
  | none => rw [endBid_none s w e]
  | some p => rw [endBid_eq s w e]; rfl

end State

/-! ### What the end of a round leaves of a contest -/

/-- `t` is `s` after steps of a round's end, or of a boundary, that leave contest `c` as it was: its hold and its results stand, bids at most
come into the round, and the agenda grows. -/
structure Leaves (c : Nat) (s t : State) : Prop where
  mem : t.mem = s.mem
  live : t.live = s.live
  basin : { t.basin with life := s.basin.life, holds := s.basin.holds, contestChanges := s.basin.contestChanges } = s.basin
  fenced : ∀ d, (t.die d).fenced = (s.die d).fenced
  bids : ∀ d, ∃ m, (t.die d).bids = (s.die d).bids.map (marked m)
  agenda : s.agenda ⊆ t.agenda
  hold : t.holdOf c = s.holdOf c
  results : ∀ d, (t.die d).results.get c {} = (s.die d).results.get c {}

namespace Leaves

variable {c : Nat} {s t u : State}

theorem bids_same {d e : Die} (h : d.bids = e.bids) : ∃ m, d.bids = e.bids.map (marked m) :=
  ⟨fun _ => false, by rw [h, map_marked_none]⟩

theorem refl (c : Nat) (s : State) : Leaves c s s :=
  ⟨rfl, rfl, rfl, fun _ => rfl, fun _ => bids_same rfl, fun _ h => h, rfl, fun _ => rfl⟩

theorem trans (h : Leaves c s t) (k : Leaves c t u) : Leaves c s u where
  mem := k.mem.trans h.mem
  live := k.live.trans h.live
  basin := (congrArg (fun b : Basin => { b with life := s.basin.life, holds := s.basin.holds, contestChanges := s.basin.contestChanges })
    k.basin).trans h.basin
  fenced d := (k.fenced d).trans (h.fenced d)
  bids d := by
    obtain ⟨m, e⟩ := h.bids d
    obtain ⟨m', e'⟩ := k.bids d
    refine ⟨fun j => m j || m' j, ?_⟩
    rw [e', e, List.map_map]
    exact List.map_congr_left (fun p _ => marked_marked m m' p)
  agenda := fun _ m => k.agenda (h.agenda m)
  hold := k.hold.trans h.hold
  results d := (k.results d).trans (h.results d)

theorem fold {β : Type} {f : State → β → State} {l : List β} (h : Leaves c s t) (step : ∀ t b, Leaves c t (f t b)) :
    Leaves c s (l.foldl f t) :=
  h.trans (foldl_rel (refl c) trans f l (fun t b _ => step t b) t)

/-- Where no die, no hold and no memory changes, and of the Basin at most its counts and the changes of the contest table. -/
theorem of_eq (mem : t.mem = s.mem) (live : t.live = s.live) (dies : t.dies = s.dies) (agenda : t.agenda = s.agenda)
    (holds : t.basin.holds = s.basin.holds)
    (basin : { t.basin with life := s.basin.life, holds := s.basin.holds, contestChanges := s.basin.contestChanges } = s.basin) :
    Leaves c s t := by
  have die (d : Nat) : t.die d = s.die d := by rw [State.die, dies]; rfl
  refine ⟨mem, live, basin, fun d => by rw [die], fun d => bids_same (by rw [die]), by rw [agenda]; exact fun _ h => h, ?_, fun d => by rw [die]⟩
  rw [State.holdOf, holds]
  rfl

theorem pool (h : Leaves c s t) : t.basin.pool = s.basin.pool := (congrArg Basin.pool h.basin :)
theorem presented (h : Leaves c s t) : t.basin.presented = s.basin.presented := (congrArg Basin.presented h.basin :)
theorem contests (h : Leaves c s t) : t.basin.contests = s.basin.contests := (congrArg Basin.contests h.basin :)
theorem contest (h : Leaves c s t) (k : Nat) : t.contest k = s.contest k := by rw [State.contest, h.contests]; rfl
theorem dieLive (h : Leaves c s t) (d : Nat) : t.dieLive d = s.dieLive d := by rw [State.dieLive, h.live, h.fenced]; rfl

theorem nodup (h : Leaves c s t) {d : Nat} (k : ((s.die d).bids.map Prod.fst).Nodup) : ((t.die d).bids.map Prod.fst).Nodup := by
  obtain ⟨m, e⟩ := h.bids d
  rwa [e, map_fst_marked]

/-- A bid keeps its slot, and what it is but for its part in the round. -/
theorem bid (h : Leaves c s t) {d : Nat} {b : Nat × Bid} (k : b ∈ (s.die d).bids) : ∃ m, marked m b ∈ (t.die d).bids := by
  obtain ⟨m, e⟩ := h.bids d
  exact ⟨m, e ▸ List.mem_map_of_mem k⟩

theorem bid_inRound (h : Leaves c s t) {d : Nat} {b : Nat × Bid} (k : b ∈ (s.die d).bids) (r : b.2.inRound = true) : b ∈ (t.die d).bids := by
  obtain ⟨m, e⟩ := h.bid k
  rwa [marked_inRound m r] at e

theorem of_bid (h : Leaves c s t) {d : Nat} {b : Nat × Bid} (k : b ∈ (t.die d).bids) : ∃ m, ∃ a ∈ (s.die d).bids, b = marked m a := by
  obtain ⟨m, e⟩ := h.bids d
  rw [e, List.mem_map] at k
  obtain ⟨a, ha, rfl⟩ := k
  exact ⟨m, a, ha, rfl⟩

end Leaves

namespace State

variable (s : State)

theorem endBid_leaves (c d k : Nat) (w : Word) : Leaves c s (s.endBid d k w) := by
  cases e : (s.die d).bids.find? (fun b => b.1 == k) with
  | none => rw [endBid_none s w e]; exact .refl c s
  | some p =>
    rw [endBid_eq s w e]
    exact ⟨rfl, rfl, rfl, fun j => s.fenced_modBid d j k (fun b => { b with inRound := true }), fun j => s.bids_mark d j k,
      List.subset_append_left .., rfl,
      fun j => congrArg (fun r : Table WeirResult => r.get c {}) (s.results_modBid d j k (fun b => { b with inRound := true }))⟩

theorem countRound_leaves (c : Nat) (o : Origin) : Leaves c s (s.countRound o) := by
  unfold countRound
  dsimp only
  split <;> exact .of_eq rfl rfl rfl rfl rfl rfl

/-- A bid of a contest whose round ends: one in the round completes, another counts it. -/
theorem finishBid_leaves (c d : Nat) (w : Word) (b : Nat × Bid) :
    Leaves c s (if b.2.inRound then s.endBid d b.1 w else s.countRound b.2.origin) := by
  split
  · exact s.endBid_leaves c _ _ _
  · exact s.countRound_leaves c _

theorem finishBids_leaves (c c' die slot k : Nat) (held : Bool) : Leaves c s (s.finishBids c' die slot k held) :=
  (Leaves.refl c s).fold (fun t _ => (Leaves.refl c t).fold (fun u b => u.finishBid_leaves c _ _ b))

/-- A bid of the contest that is in the round completes, with the winner's number (R302). -/
theorem finishBids_completes (c die slot k d : Nat) {b : Nat × Bid} (hd : d < 24) (nodup : ((s.die d).bids.map Prod.fst).Nodup)
    (here : b ∈ (s.die d).bids) (mine : b.2.contest = c) (arrived : b.2.arrived = true) (inRound : b.2.inRound = true) :
    Activity.bidEnd d b.1 b.2.handle (BitVec.ofNat 32 ((if d = die ∧ b.1 = slot then 2 ^ 23 else 0) + die * 2 ^ 18 + slot * 2 ^ 15 + k % 2 ^ 15)) ∈
      (s.finishBids c die slot k false).agenda := by
  refine foldl_reaches (I := fun t => Leaves c s t) (P := fun t => Activity.bidEnd d b.1 b.2.handle _ ∈ t.agenda) _ (List.range 24)
    (List.mem_range.2 hd) (fun t _ _ _ h => h.fold (fun u b => u.finishBid_leaves c _ _ b)) (fun t h => ?_)
    (fun t _ _ h => ((Leaves.refl c t).fold (fun u b => u.finishBid_leaves c _ _ b)).agenda h) (.refl c s)
  refine foldl_reaches (I := fun u => Leaves c s u) (P := fun u => Activity.bidEnd d b.1 b.2.handle _ ∈ u.agenda) (x := b) _ _ ?_
    (fun u e _ _ h => h.trans (u.finishBid_leaves c _ _ e)) (fun u h => ?_) (fun u e _ h => (u.finishBid_leaves c _ _ e).agenda h) h
  · exact List.mem_filter.2 ⟨h.bid_inRound here inRound, by simp [mine, arrived]⟩
  · rw [if_pos inRound, endBid_eq u _ (find?_of_nodup (h.nodup nodup) (h.bid_inRound here inRound))]
    refine List.mem_append_right _ ?_
    simp

end State

end Sys2Proof.Machine
end

section
/-! SUPPORT. The end of a round (R299, R300), and the boundary at which the contest table changes (R259). -/

namespace Sys2Proof.Machine

open Sys2Proof

namespace State

variable (s : State)

/-! ### Results and holds -/

/-- The latch of a participant shows the result that has come to it (R299). -/
theorem showResult_shows (d c : Nat) (r : WeirResult) : ((s.showResult d c r).die d).results.get c {} = r := by
  rw [showResult, die_modDie]
  exact Table.get_set ..

/-- A result latched for another contest. -/
theorem latchResult_leaves {c c' : Nat} (ne : c ≠ c') (r : WeirResult) : Leaves c s (s.latchResult c' r) := by
  have shown : Leaves c s (s.showResult 24 c' r) := by
    have rest : ∀ d, ((s.showResult 24 c' r).die d).fenced = (s.die d).fenced ∧ ((s.showResult 24 c' r).die d).bids = (s.die d).bids ∧
        ((s.showResult 24 c' r).die d).results.get c {} = (s.die d).results.get c {} := by
      intro d
      by_cases e : d = 24
      · subst e
        rw [showResult, die_modDie]
        exact ⟨rfl, rfl, Table.get_set_ne _ _ _ _ _ ne⟩
      · rw [showResult, die_modDie_ne _ _ _ _ e]
        exact ⟨rfl, rfl, rfl⟩
    exact ⟨rfl, rfl, rfl, fun d => (rest d).1, fun d => Leaves.bids_same (rest d).2.1, fun _ h => h, rfl, fun d => (rest d).2.2⟩
  have told (t : State) (l : List Activity) : Leaves c t { t with agenda := t.agenda ++ l } :=
    ⟨rfl, rfl, rfl, fun _ => rfl, fun _ => Leaves.bids_same rfl, List.subset_append_left .., rfl, fun _ => rfl⟩
  unfold latchResult
  dsimp only
  split
  · exact shown.trans (told _ _)
  · exact told s _

/-- The Basin shows a result at once, and every live die of the contest's mask is told (R17, R299). -/
theorem latchResult_shows (c : Nat) (r : WeirResult) :
    ((s.contest c).mask.getLsbD 24 = true → ((s.latchResult c r).die 24).results.get c {} = r) ∧
      (∀ d, d < 24 → (s.contest c).mask.getLsbD d = true → s.dieLive d = true → Activity.latched d c r ∈ (s.latchResult c r).agenda) ∧
      (∀ d, ((s.latchResult c r).die d).bids = (s.die d).bids) ∧ (s.latchResult c r).basin = s.basin := by
  have bids : ∀ d, ((s.showResult 24 c r).die d).bids = (s.die d).bids := by
    intro d
    by_cases e : d = 24
    · subst e
      rw [showResult, die_modDie]
    · rw [showResult, die_modDie_ne _ _ _ _ e]
  unfold latchResult
  dsimp only
  refine ⟨fun basin => ?_, fun d hd inMask live => ?_, fun d => ?_, ?_⟩
  · rw [if_pos basin]
    exact s.showResult_shows 24 c r
  · refine List.mem_append_right _ (List.mem_map.2 ⟨d, List.mem_filter.2 ⟨List.mem_range.2 hd, ?_⟩, rfl⟩)
    rw [inMask, live]
    rfl
  · split
    · exact bids d
    · rfl
  · split <;> rfl

theorem holdOf_modHolds {c c' : Nat} (ne : c ≠ c') (h : Hold) :
    (s.modBasin (fun b => { b with holds := b.holds.set c' h })).holdOf c = s.holdOf c :=
  congrArg (Option.map Prod.snd) (Table.find?_set_ne s.basin.holds c' c h ne)

theorem setHold_leaves {c c' : Nat} (ne : c ≠ c') (h : Hold) : Leaves c s (s.modBasin (fun b => { b with holds := b.holds.set c' h })) :=
  ⟨rfl, rfl, rfl, fun _ => rfl, fun _ => Leaves.bids_same rfl, fun _ m => m, s.holdOf_modHolds ne h, fun _ => rfl⟩

theorem dropHold_leaves {c c' : Nat} (ne : c ≠ c') (f : Basin → List ContestChange) :
    Leaves c s (s.modBasin (fun b => { b with holds := b.holds.erase c', contestChanges := f b })) :=
  ⟨rfl, rfl, rfl, fun _ => rfl, fun _ => Leaves.bids_same rfl, fun _ m => m,
    congrArg (Option.map Prod.snd) (Table.find?_erase_ne s.basin.holds c' c ne), fun _ => rfl⟩

/-- With no pool request there is none that wins. -/
theorem poolWon_none (slot : Nat) (h : s.basin.pool = []) : s.poolWon slot = s := by
  rw [poolWon, h]
  rfl

/-- The end of another contest's round. -/
theorem endContest_leaves {c c' : Nat} (ne : c ≠ c') (k : Nat) (pool : s.basin.pool = []) : Leaves c s (s.endContest c' k) := by
  unfold endContest
  split
  · rename_i h _
    have done := (s.latchResult_leaves ne ⟨h.key, true, true, h.die, h.slot, BitVec.ofNat 15 k⟩).trans
      (finishBids_leaves _ c c' h.die.toNat h.slot.toNat k true)
    dsimp only
    split
    · exact done.trans (dropHold_leaves _ ne _)
    · exact done
  · split
    · exact s.finishBids_leaves ..
    · rename_i w _
      have latched := s.latchResult_leaves ne
        ⟨w.key, true, (s.contest c').hold, BitVec.ofNat 5 w.die, BitVec.ofNat 3 w.slot, BitVec.ofNat 15 k⟩
      have done : Leaves c s _ := Leaves.trans (u := State.finishBids (if (s.contest c').hold then _ else _) c' w.die w.slot k false)
        (by
          split
          · exact latched.trans (setHold_leaves _ ne ⟨BitVec.ofNat 5 w.die, BitVec.ofNat 3 w.slot, w.key, false⟩)
          · exact latched)
        (finishBids_leaves ..)
      dsimp only
      split
      · rw [poolWon_none _ _ (done.pool.trans pool)]
        exact done
      · exact done

end State

/-- What stands once a contest's round has ended with a winner: the result where it is shown and toward where it is sent, the bids that
end, and the hold (R299, R300, R302). -/
structure Won (s : State) (c : Nat) (w : Presented) (t : State) : Prop where
  basin : (s.contest c).mask.getLsbD 24 = true → (t.die 24).results.get c {} =
    ⟨w.key, true, (s.contest c).hold, BitVec.ofNat 5 w.die, BitVec.ofNat 3 w.slot, BitVec.ofNat 15 (s.basin.round / 4)⟩
  dies : ∀ d, d < 24 → (s.contest c).mask.getLsbD d = true → s.dieLive d = true → Activity.latched d c
    ⟨w.key, true, (s.contest c).hold, BitVec.ofNat 5 w.die, BitVec.ofNat 3 w.slot, BitVec.ofNat 15 (s.basin.round / 4)⟩ ∈ t.agenda
  ends : ∀ d, d < 24 → ((s.die d).bids.map Prod.fst).Nodup → ∀ b ∈ (s.die d).bids, b.2.contest = c → b.2.arrived = true → b.2.inRound = true →
    Activity.bidEnd d b.1 b.2.handle (BitVec.ofNat 32 ((if d = w.die ∧ b.1 = w.slot then 2 ^ 23 else 0) + w.die * 2 ^ 18 +
      w.slot * 2 ^ 15 + s.basin.round / 4 % 2 ^ 15)) ∈ t.agenda
  hold : (s.contest c).hold = true → t.holdOf c = some ⟨BitVec.ofNat 5 w.die, BitVec.ofNat 3 w.slot, w.key, false⟩

theorem Won.leaves {s t u : State} {c : Nat} {w : Presented} (h : Won s c w t) (k : Leaves c t u) : Won s c w u :=
  ⟨fun m => (k.results 24).trans (h.basin m), fun d hd m l => k.agenda (h.dies d hd m l),
    fun d hd n b hb e a r => k.agenda (h.ends d hd n b hb e a r), fun m => k.hold.trans (h.hold m)⟩

/-- The greatest number presented wins its contest's round, where the contest is not held. -/
theorem endContest_won {s t : State} {c : Nat} {w : Presented} (left : Leaves c s t) (pool : s.basin.pool = []) (free : s.holdOf c = none)
    (here : w ∈ s.basin.presented) (mine : w.contest = c) (top : ∀ p ∈ s.basin.presented, p.contest = c → p ≠ w → p.number < w.number) :
    Won s c w (t.endContest c (s.basin.round / 4)) := by
  have inLine : w ∈ t.basin.presented.filter (fun p => p.contest == c) := by simp [left.presented, here, mine]
  have below : ∀ p ∈ t.basin.presented.filter (fun p => p.contest == c), p ≠ w → p.number < w.number := by
    intro p hp ne
    rw [left.presented, List.mem_filter] at hp
    exact top p hp.1 (by simpa using hp.2) ne
  have line : t.lineNumber c = w.number := foldl_max_eq Presented.number inLine (fun p hp => by
    by_cases e : p = w
    · rw [e]
    · exact (below p hp e).le)
  have winner : (t.basin.presented.filter (fun p => p.contest == c)).find? (fun p => p.number == t.lineNumber c) = some w := by
    cases found : (t.basin.presented.filter (fun p => p.contest == c)).find? (fun p => p.number == t.lineNumber c) with
    | none => exact absurd (List.find?_eq_none.1 found w inLine) (by simp [line])
    | some p =>
      have number : p.number = w.number := by simpa [line] using List.find?_some found
      by_cases e : p = w
      · rw [e]
      · exact absurd number (below p (List.mem_of_find?_eq_some found) e).ne
  let r : WeirResult := ⟨w.key, true, (s.contest c).hold, BitVec.ofNat 5 w.die, BitVec.ofNat 3 w.slot, BitVec.ofNat 15 (s.basin.round / 4)⟩
  obtain ⟨basin, dies, bids, same⟩ := t.latchResult_shows c r
  let held := if (s.contest c).hold then
      (t.latchResult c r).modBasin (fun b => { b with holds := b.holds.set c ⟨BitVec.ofNat 5 w.die, BitVec.ofNat 3 w.slot, w.key, false⟩ })
    else t.latchResult c r
  have heldDies : held.dies = (t.latchResult c r).dies ∧ held.agenda = (t.latchResult c r).agenda ∧ held.basin.pool = [] := by
    have empty : (t.latchResult c r).basin.pool = [] := by rw [same, left.pool, pool]
    unfold held
    split
    · exact ⟨rfl, rfl, empty⟩
    · exact ⟨rfl, rfl, empty⟩
  have die (d : Nat) : held.die d = (t.latchResult c r).die d := by rw [State.die, heldDies.1]; rfl
  have finish := held.finishBids_leaves c c w.die w.slot (s.basin.round / 4) false
  have eq : t.endContest c (s.basin.round / 4) = held.finishBids c w.die w.slot (s.basin.round / 4) false := by
    have none : t.holdOf c = none := left.hold.trans free
    have won := State.poolWon_none (held.finishBids c w.die w.slot (s.basin.round / 4) false) w.slot (finish.pool.trans heldDies.2.2)
    rw [State.endContest, none]
    dsimp only
    rw [winner]
    dsimp only
    rw [left.contest]
    split
    · exact won
    · rfl
  rw [eq]
  refine ⟨fun m => ?_, fun d hd m l => ?_, fun d hd nodup b hb e a i => ?_, fun m => ?_⟩
  · rw [finish.results, die]
    exact basin (by rwa [left.contest])
  · refine finish.agenda ?_
    rw [heldDies.2.1]
    exact dies d hd (by rwa [left.contest]) (by rwa [left.dieLive])
  · have same : (held.die d).bids = (t.die d).bids := by rw [die, bids]
    exact held.finishBids_completes c w.die w.slot _ d hd (by rw [same]; exact left.nodup nodup) (by rw [same]; exact left.bid_inRound hb i) e a i
  · rw [finish.hold]
    unfold held
    rw [if_pos m]
    exact congrArg (Option.map Prod.snd) (Table.find?_set_self ..)

/-- WEIR_ROUND_END with no pool request (R299). -/
theorem execWeirRoundEnd_won {s : State} (inRound : s.basin.inRound = true) (due : 164 * (s.basin.round + 1) ≤ s.basin.time.toNat)
    (pool : s.basin.pool = []) :
    ∃ t, execWeirRoundEnd s = .next t ∧ t.basin.inRound = false ∧ t.basin.presented = [] ∧ t.mem = s.mem ∧
      ∀ c w, c < 64 → s.basin.round % 4 = c / 16 → s.holdOf c = none → w ∈ s.basin.presented → w.contest = c →
        (∀ p ∈ s.basin.presented, p.contest = c → p ≠ w → p.number < w.number) → Won s c w t := by
  let ended := ((List.range 64).filter (roundOf s.basin.round)).foldl (fun s' c => s'.endContest c (s.basin.round / 4)) s
  let aged := if roundOf s.basin.round 0 then ended.agePool else ended
  let closed := aged.modBasin (fun b => { b with inRound := false, presented := [], lines := 0 })
  have agedRest : aged.mem = ended.mem ∧ aged.dies = ended.dies ∧ aged.agenda = ended.agenda ∧ aged.basin.holds = ended.basin.holds := by
    unfold aged
    split <;> exact ⟨rfl, rfl, rfl, rfl⟩
  obtain ⟨mem, dies, agenda, holds⟩ := agedRest
  have poolStays : ∀ {t : State} (c : Nat), t.basin.pool = [] → (t.endContest c (s.basin.round / 4)).basin.pool = [] := fun {t} c h =>
    (t.endContest_leaves (c := c + 1) (c' := c) (by omega) _ h).pool.trans h
  have kept : ended.basin.pool = [] ∧ ended.mem = s.mem :=
    List.foldlRecOn (motive := fun t : State => t.basin.pool = [] ∧ t.mem = s.mem) _ _ ⟨pool, rfl⟩ (fun t ht c _ =>
      ⟨poolStays c ht.1, (t.endContest_leaves (c := c + 1) (c' := c) (by omega) _ ht.1).mem.trans ht.2⟩)
  refine ⟨closed, ?_, rfl, rfl, mem.trans kept.2, fun c w hc turn free here mine top => ?_⟩
  · rw [execWeirRoundEnd, if_neg (by simp [inRound]; omega)]
  · have won : ended.basin.pool = [] ∧ Won s c w ended :=
      foldl_once (I := fun t => t.basin.pool = [] ∧ Leaves c s t) (P := fun t => t.basin.pool = [] ∧ Won s c w t) (x := c) _
        (List.mem_filter.2 ⟨List.mem_range.2 hc, by simpa [roundOf] using turn⟩) (List.nodup_range.filter _)
        (fun t b ne h => ⟨poolStays b h.1, h.2.trans (t.endContest_leaves (Ne.symm ne) _ h.1)⟩)
        (fun t h => ⟨poolStays c h.1, endContest_won h.2 pool free here mine top⟩)
        (fun t b ne h => ⟨poolStays b h.1, h.2.leaves (t.endContest_leaves (Ne.symm ne) _ h.1)⟩) ⟨pool, .refl c s⟩
    have die (d : Nat) : closed.die d = ended.die d := by
      show Table.get aged.dies d {} = _
      rw [dies]
      rfl
    obtain ⟨basin, told, ends, hold⟩ := won.2
    refine ⟨fun m => by rw [die]; exact basin m, fun d hd m l => ?_, fun d hd n b hb e a i => ?_, fun m => ?_⟩
    · show _ ∈ aged.agenda
      rw [agenda]
      exact told d hd m l
    · show _ ∈ aged.agenda
      rw [agenda]
      exact ends d hd n b hb e a i
    · rw [← hold m]
      exact congrArg (fun h : Table Hold => (h.find? (fun p => p.1 == c)).map Prod.snd) holds

/-! ### The boundary (R259) -/

/-- Bids of a die that are done with: all those of the contest are in the round or done with, and each one's completion crosses back. -/
theorem endBids_done {s : State} (c d : Nat) (w : Word) {l : List (Nat × Bid)}
    (all : ∀ b, b ∈ l ↔ b ∈ (s.die d).bids ∧ b.2.contest = c ∧ b.2.inRound = false) :
    let t := l.foldl (fun s b => s.endBid d b.1 w) s
    (∀ b ∈ (t.die d).bids, b.2.contest = c → b.2.inRound = true) ∧
      (((s.die d).bids.map Prod.fst).Nodup → ∀ b ∈ l, Activity.bidEnd d b.1 b.2.handle w ∈ t.agenda) := by
  have step : ∀ t (b : Nat × Bid), Leaves c t (t.endBid d b.1 w) := fun t b => t.endBid_leaves c d b.1 w
  have fold : Leaves c s (l.foldl (fun s b => s.endBid d b.1 w) s) := (Leaves.refl c s).fold step
  refine ⟨fun b hb mine => ?_, fun nodup b hb => ?_⟩
  · obtain ⟨m, a, ha, rfl⟩ := fold.of_bid hb
    cases e : a.2.inRound with
    | true => simp [marked, e]
    | false =>
      have marks : ∀ y ∈ ((l.foldl (fun s b => s.endBid d b.1 w) s).die d).bids, y.1 = a.1 → y.2.inRound = true := by
        refine foldl_reaches (I := fun t => Leaves c s t) (P := fun t => ∀ y ∈ (t.die d).bids, y.1 = a.1 → y.2.inRound = true) _ l
          ((all a).2 ⟨ha, mine, e⟩) (fun t b _ _ h => h.trans (step t b)) (fun t h y hy slot => ?_) (fun t b _ h y hy slot => ?_) (.refl c s)
        · obtain ⟨m', inT⟩ := h.bid ha
          cases found : (t.die d).bids.find? (fun y => y.1 == a.1) with
          | none => exact absurd (List.find?_eq_none.1 found _ inT) (by simp [marked])
          | some p =>
            rw [State.endBid_eq t w found] at hy
            change y ∈ ((t.modBid d a.1 (fun b => { b with inRound := true })).die d).bids at hy
            rw [State.bids_modBid, List.mem_map] at hy
            obtain ⟨z, -, rfl⟩ := hy
            split at slot
            · rw [if_pos ‹_›]
            · exact absurd slot ‹_›
        · obtain ⟨m', z, hz, rfl⟩ := (step t b).of_bid hy
          simp [marked, h z hz slot]
      exact marks _ hb rfl
  · refine foldl_reaches (I := fun t => Leaves c s t) (P := fun t => Activity.bidEnd d b.1 b.2.handle w ∈ t.agenda) _ l hb
      (fun t e _ _ h => h.trans (step t e)) (fun t h => ?_) (fun t e _ h => (step t e).agenda h) (.refl c s)
    obtain ⟨m, inT⟩ := h.bid ((all b).1 hb).1
    have found : (t.die d).bids.find? (fun y => y.1 == b.1) = some (marked m b) :=
      find?_of_nodup (p := marked m b) (h.nodup nodup) inT
    rw [State.endBid_eq t w found]
    exact List.mem_append_right _ (List.mem_singleton_self _)

theorem State.die_endBid_ne (s : State) {d e : Nat} (h : e ≠ d) (k : Nat) (w : Word) : (s.endBid d k w).die e = s.die e := by
  cases found : (s.die d).bids.find? (fun b => b.1 == k) with
  | none => rw [s.endBid_none w found]
  | some p =>
    rw [s.endBid_eq w found]
    exact s.die_modBid_ne h k (fun b => { b with inRound := true })

/-- Bids that a change of a contest's entry ends at a die (R307). -/
theorem endBids_leaves (s : State) (c d : Nat) (w : Word) (l : List (Nat × Bid)) :
    Leaves c s (l.foldl (fun s b => s.endBid d b.1 w) s) ∧ (l.foldl (fun s b => s.endBid d b.1 w) s).basin = s.basin ∧
      ∀ e, e ≠ d → (l.foldl (fun s b => s.endBid d b.1 w) s).die e = s.die e :=
  List.foldlRecOn (motive := fun t : State => Leaves c s t ∧ t.basin = s.basin ∧ ∀ e, e ≠ d → t.die e = s.die e) l _
    ⟨.refl c s, rfl, fun _ _ => rfl⟩ (fun t ⟨left, basin, dies⟩ b _ =>
      ⟨left.trans (t.endBid_leaves c d b.1 w), (t.endBid_basin d b.1 w).trans basin, fun e h => (t.die_endBid_ne h b.1 w).trans (dies e h)⟩)

/-- What a change of contest `n` does at a die: where its entry disables the contest or leaves the die out, the bids there are done with. -/
def leaveContest (x : ContestChange) (n : Nat) (s : State) (d : Nat) : State :=
  if x.entry.enabled && x.entry.mask.getLsbD d then s
  else ((s.die d).bids.filter (fun b => b.2.contest == n && !b.2.inRound)).foldl (fun s b => s.endBid d b.1 (State.failWord 2 0)) s

theorem leaveContest_leaves (x : ContestChange) (n : Nat) (s : State) (d : Nat) :
    Leaves n s (leaveContest x n s d) ∧ (leaveContest x n s d).basin = s.basin ∧ ∀ e, e ≠ d → (leaveContest x n s d).die e = s.die e := by
  unfold leaveContest
  split
  · exact ⟨.refl n s, rfl, fun _ _ => rfl⟩
  · exact endBids_leaves ..

theorem leaveContest_ends {x : ContestChange} {d : Nat} (n : Nat) (s : State) (out : x.entry.enabled = false ∨ x.entry.mask.getLsbD d = false) :
    (∀ b ∈ ((leaveContest x n s d).die d).bids, b.2.contest = n → b.2.inRound = true) ∧
      (((s.die d).bids.map Prod.fst).Nodup → ∀ b ∈ (s.die d).bids, b.2.contest = n → b.2.inRound = false →
        Activity.bidEnd d b.1 b.2.handle (State.failWord 2 0) ∈ (leaveContest x n s d).agenda) := by
  have no : ¬ (x.entry.enabled && x.entry.mask.getLsbD d) = true := by rcases out with e | e <;> simp [e]
  have mem : ∀ b, b ∈ (s.die d).bids.filter (fun b => b.2.contest == n && !b.2.inRound) ↔
      b ∈ (s.die d).bids ∧ b.2.contest = n ∧ b.2.inRound = false := fun b => by simp
  have done := endBids_done n d (State.failWord 2 0) mem
  rw [leaveContest, if_neg no]
  exact ⟨done.1, fun nodup b hb mine still => done.2 nodup b ((mem b).2 ⟨hb, mine, still⟩)⟩

/-- CONTEST_CHANGE_BOUNDARY of a change whose boundary has come (R259, R307). -/
theorem execContestChangeBoundary_takes {s : State} {n : Nat} {x : ContestChange}
    (found : s.basin.contestChanges.find? (fun y => y.contest == n && !y.deferred && decide (y.since + 656 ≤ s.basin.time.toNat)) = some x)
    (idle : s.basin.inRound = false) (tick : s.basin.time.toNat % 164 = 0) (turn : s.basin.time.toNat / 164 % 4 = n / 16) :
    ∃ t, execContestChangeBoundary n s = .next t ∧ t.basin.contests.get n {} = x.entry ∧ t.basin.contestChanges = s.basin.contestChanges.erase x ∧
      ∀ d, d < 24 → x.entry.enabled = false ∨ x.entry.mask.getLsbD d = false → (∀ b ∈ (t.die d).bids, b.2.contest = n → b.2.inRound = true) ∧
        (((s.die d).bids.map Prod.fst).Nodup → ∀ b ∈ (s.die d).bids, b.2.contest = n → b.2.inRound = false →
          Activity.bidEnd d b.1 b.2.handle (State.failWord 2 0) ∈ t.agenda) := by
  let entered := s.modBasin (fun b => { b with contestChanges := b.contestChanges.erase x, contests := b.contests.set n x.entry })
  let left := (List.range 24).foldl (leaveContest x n) entered
  have basin : left.basin = entered.basin :=
    List.foldlRecOn (motive := fun t : State => t.basin = entered.basin) _ _ rfl (fun t h d _ => (leaveContest_leaves x n t d).2.1.trans h)
  refine ⟨left, ?_, ?_, ?_, fun d hd out => ?_⟩
  · rw [execContestChangeBoundary]
    dsimp only
    rw [found]
    dsimp only
    rw [if_neg (by simp [idle, tick, turn, roundOf])]
    rfl
  · rw [basin]
    exact Table.get_set ..
  · rw [basin]
    rfl
  · refine foldl_once (I := fun t : State => t.die d = s.die d)
      (P := fun t : State => (∀ b ∈ (t.die d).bids, b.2.contest = n → b.2.inRound = true) ∧
        (((s.die d).bids.map Prod.fst).Nodup → ∀ b ∈ (s.die d).bids, b.2.contest = n → b.2.inRound = false →
          Activity.bidEnd d b.1 b.2.handle (State.failWord 2 0) ∈ t.agenda))
      (leaveContest x n) (List.mem_range.2 hd) List.nodup_range (fun t e ne h => ((leaveContest_leaves x n t e).2.2 d (Ne.symm ne)).trans h)
      (fun t h => h ▸ leaveContest_ends n t out) (fun t e ne h => ⟨?_, fun nodup b hb mine still => ?_⟩) rfl
    · rw [(leaveContest_leaves x n t e).2.2 d (Ne.symm ne)]
      exact h.1
    · exact (leaveContest_leaves x n t e).1.agenda (h.2 nodup b hb mine still)

end Sys2Proof.Machine
end

section
/-! SUPPORT. A bid's arrival (R298, R302), the start of a round (R294, R296), and the tables that the firmware writes (R256 to R258). -/

namespace Sys2Proof.Machine

open Sys2Proof

/-! ### Arrival -/

/-- The first bid in a slot of a die has arrived, for a contest and with a key. -/
def BidStands (s : State) (d n c : Nat) (key : Word) : Prop :=
  ∃ b : Bid, (s.die d).bids.find? (fun y => y.1 == n) = some (n, b) ∧ b.arrived = true ∧ b.contest = c ∧ b.key = key

/-- A change of bids that keeps what `BidStands` says of each. -/
theorem BidStands.modBid {s : State} {d n c : Nat} {key : Word} (h : BidStands s d n c key) (e k : Nat) (f : Bid → Bid)
    (keep : ∀ b, (f b).arrived = b.arrived ∧ (f b).contest = b.contest ∧ (f b).key = b.key) : BidStands (s.modBid e k f) d n c key := by
  obtain ⟨b, found, arrived, contest, key⟩ := h
  by_cases same : d = e
  · subst same
    have slots : (fun y : Nat × Bid => y.1 == n) ∘ (fun p : Nat × Bid => if p.1 = k then (p.1, f p.2) else p) = fun y => y.1 == n := by
      funext p
      simp only [Function.comp]
      split <;> rfl
    unfold BidStands
    rw [s.bids_modBid, List.find?_map, slots, found]
    obtain ⟨a, c', k'⟩ := keep b
    by_cases hk : n = k
    · exact ⟨f b, by simp [hk], a.trans arrived, c'.trans contest, k'.trans key⟩
    · exact ⟨b, by simp [hk], arrived, contest, key⟩
  · exact ⟨b, by rw [s.die_modBid_ne same]; exact found, arrived, contest, key⟩

theorem BidStands.enterRound {s : State} {d n c : Nat} {key : Word} (h : BidStands s d n c key) (e k : Nat) (b : Bid) (bit : Nat) :
    BidStands (s.enterRound e k b bit) d n c key := h.modBid e k (fun b => { b with inRound := true }) (fun _ => ⟨rfl, rfl, rfl⟩)

theorem BidStands.lateEntry {s : State} {d n c : Nat} {key : Word} (h : BidStands s d n c key) (e k : Nat) (b : Bid) :
    BidStands (s.lateEntry e k b) d n c key := by
  unfold State.lateEntry
  dsimp only
  split
  · exact h
  · split
    · exact h.enterRound ..
    · rename_i p _
      split
      · have dropped : BidStands (s.modBasin (fun x => { x with presented := x.presented.filter (fun q => q != p) })) d n c key := h
        have back := dropped.modBid e p.slot (fun b => { b with inRound := false }) (fun _ => ⟨rfl, rfl, rfl⟩)
        exact back.enterRound e k b _
      · exact h

theorem lateEntry_mem (s : State) (d k : Nat) (b : Bid) : (s.lateEntry d k b).mem = s.mem := by
  unfold State.lateEntry
  dsimp only
  split
  · rfl
  · split
    · rfl
    · split <;> rfl

/-- WEIR_BID_ARRIVAL of a bid on its way (R302). -/
theorem execWeirBidArrival_arrives {s : State} {d n : Nat} {b : Bid} (found : (s.die d).bids.find? (fun y => y.1 == n) = some (n, b))
    (away : b.arrived = false) :
    ∃ t, execWeirBidArrival d n s = .next t ∧ t.mem = s.mem ∧ BidStands t d n b.contest b.key := by
  refine ⟨(s.modBid d n (fun b => { b with arrived := true })).lateEntry d n b, ?_, lateEntry_mem .., BidStands.lateEntry ?_ ..⟩
  · rw [execWeirBidArrival, found]
    dsimp only
    rw [away]
    rfl
  · have slots : (fun y : Nat × Bid => y.1 == n) ∘
        (fun p : Nat × Bid => if p.1 = n then (p.1, { p.2 with arrived := true }) else p) = fun y => y.1 == n := by
      funext p
      simp only [Function.comp]
      split <;> rfl
    refine ⟨{ b with arrived := true }, ?_, rfl, rfl, rfl⟩
    rw [s.bids_modBid, List.find?_map, slots, found]
    simp

/-! ### The start of a round -/

/-- `t` is `s` after dies have presented bids: those presented stand on, and nothing that decides which bid takes part has changed. -/
structure Presents (s t : State) : Prop where
  rest : { t with dies := s.dies, basin := s.basin } = s
  basin : { t.basin with presented := s.basin.presented, lines := s.basin.lines } = s.basin
  fenced : ∀ d, (t.die d).fenced = (s.die d).fenced
  presented : s.basin.presented ⊆ t.basin.presented

namespace Presents

variable {s t u : State}

theorem refl (s : State) : Presents s s := ⟨rfl, rfl, fun _ => rfl, fun _ h => h⟩

theorem trans (h : Presents s t) (k : Presents t u) : Presents s u where
  rest := (congrArg (fun x : State => { x with dies := s.dies, basin := s.basin }) k.rest).trans h.rest
  basin := (congrArg (fun x : Basin => { x with presented := s.basin.presented, lines := s.basin.lines }) k.basin).trans h.basin
  fenced d := (k.fenced d).trans (h.fenced d)
  presented := fun _ m => k.presented (h.presented m)

theorem fold {β : Type} {f : State → β → State} {l : List β} (h : Presents s t) (step : ∀ t b, Presents t (f t b)) : Presents s (l.foldl f t) :=
  h.trans (foldl_rel refl trans f l (fun t b _ => step t b) t)

theorem mem (h : Presents s t) : t.mem = s.mem := (congrArg State.mem h.rest :)
theorem round (h : Presents s t) : t.basin.round = s.basin.round := (congrArg Basin.round h.basin :)
theorem inRound (h : Presents s t) : t.basin.inRound = s.basin.inRound := (congrArg Basin.inRound h.basin :)
theorem holds (h : Presents s t) : t.basin.holds = s.basin.holds := (congrArg Basin.holds h.basin :)
theorem contests (h : Presents s t) : t.basin.contests = s.basin.contests := (congrArg Basin.contests h.basin :)
theorem holdOf (h : Presents s t) (c : Nat) : t.holdOf c = s.holdOf c := by rw [State.holdOf, h.holds]; rfl

theorem takesPart (h : Presents s t) (d : Nat) (b : Bid) : t.takesPart d b = s.takesPart d b := by
  have live : t.live = s.live := (congrArg State.live h.rest :)
  have teams : t.teams = s.teams := (congrArg State.teams h.rest :)
  have fns : t.fns = s.fns := (congrArg State.fns h.rest :)
  simp only [State.takesPart, State.dieLive, State.contestOpen, State.contest, State.teamOf, State.fnOf, h.fenced, h.contests, live, teams, fns]

end Presents

namespace State

variable (s : State)

theorem enterRound_presents (d k : Nat) (b : Bid) (bit : Nat) : Presents s (s.enterRound d k b bit) :=
  ⟨rfl, rfl, fun e => s.fenced_modBid d e k (fun b => { b with inRound := true }), List.subset_append_left ..⟩

theorem dieStart_presents (c d : Nat) : Presents s (s.dieStart c d) := by
  unfold dieStart
  split
  · refine ⟨rfl, rfl, fun e => ?_, fun _ h => h⟩
    by_cases h : e = d
    · subst h
      rw [die_modDie]
    · rw [die_modDie_ne _ _ _ _ h]
  · split
    · exact s.enterRound_presents ..
    · exact .refl s

theorem poolStart_presents : Presents s s.poolStart := by
  unfold poolStart
  split
  · exact .refl s
  · exact ⟨rfl, rfl, fun _ => rfl, List.subset_append_left ..⟩

theorem showLines_presents : Presents s s.showLines := ⟨rfl, rfl, fun _ => rfl, fun _ h => h⟩

end State

/-- The greater of the best bid so far and a further one (R296). -/
def betterBid (d : Nat) (m : Option (Nat × Bid)) (b : Nat × Bid) : Option (Nat × Bid) :=
  match m with
  | none => some b
  | some x => if bidNumber x.2.key d x.1 < bidNumber b.2.key d b.1 then some b else some x

/-- What comes of the comparison stood in the list or at its start. -/
theorem betterBid_mem (d : Nat) (l : List (Nat × Bid)) (m : Option (Nat × Bid)) {x : Nat × Bid} (h : l.foldl (betterBid d) m = some x) :
    x ∈ l ∨ m = some x := by
  induction l generalizing m with
  | nil => exact .inr h
  | cons b r ih =>
    rcases ih _ h with e | e
    · exact .inl (List.mem_cons_of_mem _ e)
    · unfold betterBid at e
      split at e
      · obtain rfl := Option.some.inj e
        exact .inl (List.mem_cons_self ..)
      · split at e
        · obtain rfl := Option.some.inj e
          exact .inl (List.mem_cons_self ..)
        · exact .inr e

/-- It is no less than any that stood there. -/
theorem betterBid_ge (d : Nat) (l : List (Nat × Bid)) (m : Option (Nat × Bid)) {b : Nat × Bid} (h : b ∈ l ∨ m = some b) :
    ∃ x, l.foldl (betterBid d) m = some x ∧ bidNumber b.2.key d b.1 ≤ bidNumber x.2.key d x.1 := by
  induction l generalizing m b with
  | nil => exact ⟨b, by simpa using h, le_rfl⟩
  | cons a r ih =>
    have step : ∃ y, (y ∈ r ∨ betterBid d m a = some y) ∧ bidNumber b.2.key d b.1 ≤ bidNumber y.2.key d y.1 := by
      rcases h with e | rfl
      · rcases List.mem_cons.1 e with rfl | e
        · unfold betterBid
          split
          · exact ⟨b, .inr rfl, le_rfl⟩
          · rename_i x
            split
            · exact ⟨b, .inr rfl, le_rfl⟩
            · exact ⟨x, .inr rfl, by omega⟩
        · exact ⟨b, .inl e, le_rfl⟩
      · unfold betterBid
        dsimp only
        split
        · exact ⟨a, .inr rfl, by omega⟩
        · exact ⟨b, .inr rfl, le_rfl⟩
    obtain ⟨y, hy, le⟩ := step
    obtain ⟨x, found, le'⟩ := ih _ hy
    exact ⟨x, found, le.trans le'⟩

/-- A bid of a die that waits to be presented, in a slot of its own. -/
structure Pending (s : State) (d : Nat) (b : Nat × Bid) : Prop where
  nodup : ((s.die d).bids.map Prod.fst).Nodup
  here : b ∈ (s.die d).bids
  waits : b.2.inRound = false

theorem Pending.of_die {s t : State} {d : Nat} {b : Nat × Bid} (h : Pending s d b) (e : t.die d = s.die d) : Pending t d b :=
  ⟨e ▸ h.nodup, e ▸ h.here, h.waits⟩

/-- A change of other bids of its die leaves a waiting bid as it is. -/
theorem Pending.map {s t : State} {d : Nat} {b : Nat × Bid} (h : Pending s d b) (f : Nat × Bid → Nat × Bid) (slot : ∀ p, (f p).1 = p.1)
    (same : f b = b) (e : (t.die d).bids = (s.die d).bids.map f) : Pending t d b := by
  refine ⟨?_, e ▸ same ▸ List.mem_map_of_mem h.here, h.waits⟩
  have slots : Prod.fst ∘ f = Prod.fst := funext slot
  rw [e, List.map_map, slots]
  exact h.nodup

namespace State

variable (s : State)

theorem bestBid_eq (d c : Nat) : s.bestBid d c =
    ((s.die d).bids.filter (fun b => b.2.contest == c && b.2.arrived && !b.2.inRound && s.takesPart d b.2)).foldl (betterBid d) none := rfl

/-- Neither another contest nor another die takes a bid up. -/
theorem dieStart_pending {c c' d d' : Nat} {b : Nat × Bid} (h : Pending s d b) (mine : b.2.contest = c) (ne : d' ≠ d ∨ c' ≠ c) :
    Pending (s.dieStart c' d') d b := by
  by_cases same : d = d'
  · subst same
    have other : b.2.contest ≠ c' := fun e => (ne.resolve_left (fun x => x rfl)) (e.symm.trans mine)
    unfold dieStart
    split
    · refine h.map (fun p => if p.2.contest = c' && p.2.arrived && s.takesPart d p.2 then (p.1, { p.2 with inRound := true }) else p)
        (fun p => ?_) (by simp [other]) (congrArg Die.bids (die_modDie s d _))
      split <;> rfl
    · split
      · rename_i k x best
        have inBids := betterBid_mem d _ none best
        simp only [List.mem_filter, Bool.and_eq_true, beq_iff_eq, reduceCtorEq, or_false] at inBids
        obtain ⟨there, ⟨⟨theirs, -⟩, -⟩, -⟩ := inBids
        have apart : b.1 ≠ k := by
          intro e
          have one := find?_of_nodup h.nodup h.here
          have two := find?_of_nodup h.nodup there
          rw [e, two] at one
          obtain rfl := Option.some.inj one
          exact other theirs
        have entered : ((s.enterRound d k x 0).die d).bids =
            (s.die d).bids.map (fun p => if p.1 = k then (p.1, { p.2 with inRound := true }) else p) :=
          s.bids_modBid d k (fun b => { b with inRound := true })
        refine h.map _ (fun p => ?_) (by simp [apart]) entered
        split <;> rfl
      · exact h
  · have untouched : (s.dieStart c' d').die d = s.die d := by
      unfold dieStart
      split
      · exact die_modDie_ne _ _ _ _ same
      · split
        · rename_i k _ _
          exact s.die_modBid_ne same k (fun b => { b with inRound := true })
        · rfl
    exact h.of_die untouched

/-- A bid of die `d` on a contest, at least as great as a number, is presented from the round's first bit. -/
def Presented (c d m : Nat) (s : State) : Prop :=
  ∃ p ∈ s.basin.presented, p.contest = c ∧ p.die = d ∧ p.bit = 0 ∧ m ≤ p.number

theorem Presented.keep {s t : State} {c d m : Nat} (h : Presented c d m s) (k : Presents s t) : Presented c d m t := by
  obtain ⟨p, hp, e⟩ := h
  exact ⟨p, k.presented hp, e⟩

/-- A die presents the greatest of its bids that take part (R296). -/
theorem dieStart_best {c d : Nat} {b : Nat × Bid} (h : Pending s d b) (mine : b.2.contest = c) (arrived : b.2.arrived = true)
    (part : s.takesPart d b.2 = true) (free : s.holdOf c = none) :
    Presented c d (bidNumber b.2.key d b.1) (s.dieStart c d) := by
  have eligible : b ∈ (s.die d).bids.filter (fun b => b.2.contest == c && b.2.arrived && !b.2.inRound && s.takesPart d b.2) := by
    simp [h.here, mine, arrived, h.waits, part]
  obtain ⟨x, best, le⟩ := betterBid_ge d _ none (.inl eligible)
  have inBids := betterBid_mem d _ none best
  simp only [List.mem_filter, Bool.and_eq_true, beq_iff_eq, reduceCtorEq, or_false] at inBids
  obtain ⟨-, ⟨⟨theirs, -⟩, -⟩, -⟩ := inBids
  rw [← s.bestBid_eq] at best
  refine ⟨⟨x.2.contest, d, x.1, x.2.key, 0⟩, ?_, theirs, rfl, rfl, le⟩
  rw [dieStart, free, best]
  exact List.mem_append_right _ (List.mem_singleton_self _)

/-- The start of a contest's round at every die. -/
def contestStart (s : State) (c : Nat) : State := (List.range 24).foldl (fun t d => t.dieStart c d) s

/-- The Basin as a round begins: nothing is presented. -/
def roundBegun (s : State) (r : Nat) : State := s.modBasin (fun b => { b with round := r, inRound := true, presented := [] })

/-- The round has begun on each of its contests. -/
def roundStarted (s : State) (r : Nat) : State := ((List.range 64).filter (roundOf r)).foldl contestStart (s.roundBegun r)

/-- The pool's bids, where they take part, and the lines. -/
def roundShown (s : State) (r : Nat) : State := if roundOf r 0 then (s.roundStarted r).poolStart.showLines else s.roundStarted r

theorem contestStart_presents (c : Nat) : Presents s (s.contestStart c) := (Presents.refl s).fold (fun t d => t.dieStart_presents c d)

theorem roundStarted_presents (r : Nat) : Presents (s.roundBegun r) (s.roundStarted r) :=
  (Presents.refl _).fold (fun t c => t.contestStart_presents c)

theorem roundShown_presents (r : Nat) : Presents (s.roundStarted r) (s.roundShown r) := by
  unfold roundShown
  split
  · exact (poolStart_presents _).trans (showLines_presents _)
  · exact .refl _

/-- A die has presented by the end of its contest's start. -/
theorem contestStart_best {c d : Nat} {b : Nat × Bid} (h : Pending s d b) (hd : d < 24) (mine : b.2.contest = c) (arrived : b.2.arrived = true)
    (part : s.takesPart d b.2 = true) (free : s.holdOf c = none) : Presented c d (bidNumber b.2.key d b.1) (s.contestStart c) :=
  foldl_reaches (I := fun t => Presents s t ∧ Pending t d b) (P := Presented c d (bidNumber b.2.key d b.1))
    (fun t d => t.dieStart c d) _ (List.mem_range.2 hd)
    (fun t d' _ ne k => ⟨k.1.trans (t.dieStart_presents c d'), t.dieStart_pending k.2 mine (.inl ne)⟩)
    (fun t k => t.dieStart_best k.2 mine arrived ((k.1.takesPart d b.2).trans part) ((k.1.holdOf c).trans free))
    (fun t d' _ k => k.keep (t.dieStart_presents c d')) ⟨.refl s, h⟩

/-- Each contest of the round has started once the round has. -/
theorem roundStarted_best {r c d : Nat} {b : Nat × Bid} (h : Pending s d b) (hc : c < 64) (turn : r % 4 = c / 16) (hd : d < 24)
    (mine : b.2.contest = c) (arrived : b.2.arrived = true) (part : s.takesPart d b.2 = true) (free : s.holdOf c = none) :
    Presented c d (bidNumber b.2.key d b.1) (s.roundStarted r) :=
  foldl_reaches (I := fun t => Presents (s.roundBegun r) t ∧ Pending t d b) (P := Presented c d (bidNumber b.2.key d b.1))
    contestStart _ (List.mem_filter.2 ⟨List.mem_range.2 hc, by simpa [roundOf] using turn⟩)
    (fun t c' _ ne k => ⟨k.1.trans (t.contestStart_presents c'), List.foldlRecOn (motive := fun t => Pending t d b) _ _ k.2
      (fun t k _ _ => t.dieStart_pending k mine (.inr ne))⟩)
    (fun t k => t.contestStart_best k.2 hd mine arrived ((k.1.takesPart d b.2).trans part) ((k.1.holdOf c).trans free))
    (fun t c' _ k => k.keep (t.contestStart_presents c')) ⟨.refl _, h.of_die rfl⟩

end State

/-- WEIR_ROUND_START (R294, R296). -/
theorem execWeirRoundStart_eq {s : State} (idle : s.basin.inRound = false) (tick : s.basin.time.toNat % 164 = 0) :
    execWeirRoundStart s = .next (s.roundShown (s.basin.time.toNat / 164)) := by
  unfold execWeirRoundStart
  dsimp only
  rw [if_neg (by simp only [idle, tick]; decide)]
  rfl

theorem execWeirRoundStart_presents {s : State} (idle : s.basin.inRound = false) (tick : s.basin.time.toNat % 164 = 0)
    (nodup : ∀ d, d < 24 → ((s.die d).bids.map Prod.fst).Nodup) :
    ∃ t, execWeirRoundStart s = .next t ∧ t.basin.round = s.basin.time.toNat / 164 ∧ t.basin.inRound = true ∧ t.mem = s.mem ∧
      t.basin.holds = s.basin.holds ∧
      ∀ c d (b : Nat × Bid), c < 64 → s.basin.time.toNat / 164 % 4 = c / 16 → d < 24 → s.holdOf c = none → b ∈ (s.die d).bids →
        b.2.contest = c → b.2.arrived = true → b.2.inRound = false → s.takesPart d b.2 = true →
        ∃ p ∈ t.basin.presented, p.contest = c ∧ p.die = d ∧ p.bit = 0 ∧ bidNumber b.2.key d b.1 ≤ p.number := by
  have shown := s.roundShown_presents (s.basin.time.toNat / 164)
  have all := (s.roundStarted_presents _).trans shown
  exact ⟨_, execWeirRoundStart_eq idle tick, all.round, all.inRound, all.mem, all.holds,
    fun c d b hc turn hd free here mine arrived waits part =>
      (s.roundStarted_best ⟨nodup d hd, here, waits⟩ hc turn hd mine arrived part free).keep shown⟩

/-! ### Tables (R256, R257) -/

theorem execSlotTableWrite_eq {s : State} {n state tenant : Nat} {masks : List (BitVec 42)} (hn : n < 256) (four : masks.length = 4)
    (hs : state < 4) (ht : tenant < 64) :
    execSlotTableWrite n state tenant masks s = .next (s.setSlot n { s.slotOf n with state := state, tenant := tenant, masks := masks }) := by
  rw [execSlotTableWrite, if_neg (by simp [four]; omega), Nat.mod_eq_of_lt hs, Nat.mod_eq_of_lt ht]

theorem execTenantQuotaTableWrite_eq {s : State} {n r l : Nat} (e : Bool) (pr : BitVec 8) (hn : n < 64) (hr : r ≤ 256) (hl : l ≤ 256)
    (room : ((s.basin.quotas.filter (fun q => q.1 != n)).map (fun q => q.2.reserved)).sum + r ≤ 256) :
    execTenantQuotaTableWrite n e r l pr s = .next (s.modBasin (fun b => { b with
      quotas := b.quotas.set n { b.quotas.get n {} with enabled := e, reserved := r, limit := l, priority := pr } })) := by
  have others : (s.basin.quotas.filter (fun q => q.1 != n)).foldl (fun n q => n + q.2.reserved) 0 =
      ((s.basin.quotas.filter (fun q => q.1 != n)).map (fun q => q.2.reserved)).sum := by
    rw [List.sum_eq_foldl, List.foldl_map]
  rw [execTenantQuotaTableWrite]
  dsimp only
  rw [others, if_neg (by simp; omega)]

end Sys2Proof.Machine
end

section
/-! The obligation: the events of the Basin and the Weir. -/

namespace Sys2Proof.Machine

open Sys2Proof

/-- COLLECTIVE_OPEN of the first COPEN on a slot that its tenant holds (R256, R267, R270). -/
theorem execCollectiveOpen_opens {s : State} {u : Nat} {r : OpenReq} {tn : Nat} (found : s.opens.find? (fun y => y.uid == u) = some r)
    (arrived : r.arrived = true) (aliases : ∀ y ∈ s.aliases, y.gkey ≠ r.org.gkey)
    (opens : ∀ y ∈ s.opens, y.org.gkey = r.org.gkey → u ≤ y.uid) (h : Opens s r tn) (alone : s.basin.colls = []) :
    ∃ t c, execCollectiveOpen u s = .next t ∧ (∀ y ∈ t.opens, y.uid ≠ u) ∧ t.openColl tn r.slot = some (s.basin.nextColl, c) ∧
      Opened s r tn c ∧ c.fixed = true ∧ (t.slotOf r.slot).isOpen = true ∧ (t.slotOf r.slot).opened = (s.slotOf r.slot).opened + 1 ∧
      (r.org.die ≠ 24 → ∃ y ∈ t.sures, y.act = .opened r.slot r.org 0 ∧ y.dst = r.org.die) ∧
      Activity.event (.chunkBody s.basin.nextColl) ∈ t.agenda := by
  let taken : State := { s with opens := s.opens.filter (fun o => o.uid != u) }
  have passes : Opens taken r tn := { h with }
  obtain ⟨c, opened, fixed, rest, coll, isOpen, counted, told, body⟩ := openAt_opens (passes.acceptAt 24 [0] r.src r.seq []) alone
  have kick := ((State.acceptAt taken 24 [0] r.src r.seq []).openAt r).kickAliases_sends
  refine ⟨_, c, execCollectiveOpen_due found arrived aliases opens, ?_, (kick.openColl ..).trans coll, { opened with }, fixed,
    (congrArg Slot.isOpen (kick.slotOf _)).trans isOpen, (congrArg Slot.opened (kick.slotOf _)).trans counted, fun far => ?_,
    kick.agenda body⟩
  · rw [kick.opens, rest]
    intro y hy
    simpa using (List.mem_filter.1 hy).2
  · obtain ⟨y, hy, e⟩ := told far
    exact ⟨y, kick.sures hy, e⟩

/-- ALIAS_STORE with no collective open on its slot: the store is discarded (R268), and its die is answered all the same. -/
theorem execAliasStore_discards {s : State} {u : Nat} {a : AliasStore} (found : s.aliases.find? (fun y => y.uid == u) = some a)
    (due : s.aliasDue a = true) (none : s.openColl a.tenant a.slot = none) :
    ∃ t, execAliasStore u s = .next t ∧ t.mem = s.mem ∧ t.basin.colls = s.basin.colls ∧ (∀ y ∈ t.aliases, y.uid ≠ u) ∧
      t.groups = s.groups ∧
      (a.hostFn = .none → a.relayed = false → a.die ≠ 24 → ∃ y ∈ t.sures, y.act = .stored u a.gkey a.team ∧ y.dst = a.die) := by
  obtain ⟨t, ran, sends, told⟩ := execAliasStore_direct found due (fun n c h => by rw [none] at h; cases h)
  obtain ⟨mem, basin, groups, aliases⟩ := s.aliasTaken_frame u a
  obtain ⟨mem', basin', groups', aliases'⟩ := (s.aliasTaken u a).chunkLost_frame a
  have closed : (s.aliasTaken u a).openColl a.tenant a.slot = .none := by rw [State.openColl, basin]; exact none
  rw [State.takeStore_discards _ closed] at sends
  refine ⟨t, ran, sends.mem.trans (mem'.trans mem), by rw [sends.colls, basin', basin], fun y hy => ?_, by rw [sends.groups, groups', groups], told⟩
  rw [sends.aliases, aliases', aliases] at hy
  simpa using (List.mem_filter.1 hy).2

/-- ALIAS_STORE that its collective accepts: the bytes are counted and stand at their places (R266, R267). -/
theorem execAliasStore_stages {s : State} {u n : Nat} {a : AliasStore} {c : Coll} (found : s.aliases.find? (fun y => y.uid == u) = some a)
    (due : s.aliasDue a = true) (isOpen : s.openColl a.tenant a.slot = some (n, c)) (path : c.endpoint = true → a.relayed = true)
    (has : c.has a.die = true) (fits : c.accepts a.die a.window a.off a.bytes.length = true) :
    ∃ t d, execAliasStore u s = .next t ∧ t.mem = s.mem ∧ (∀ y ∈ t.aliases, y.uid ≠ u) ∧ t.collOf n = some d ∧
      d.counts.get (countKey a.window (a.off / 256) a.die) 0 = c.counts.get (countKey a.window (a.off / 256) a.die) 0 + a.bytes.length ∧
      d.next = c.next ∧
      (∀ j, j < a.bytes.length → d.stage.get (stageKey a.window (a.off / 256) a.die (a.off % 256 + j)) 0 = a.bytes.getD j 0) ∧
      Activity.event (.chunkBody n) ∈ t.agenda := by
  obtain ⟨t, ran, sends, -⟩ := execAliasStore_direct found due
    (fun m e h endpoint _ => by obtain ⟨-, rfl⟩ := Prod.mk.inj (Option.some.inj (isOpen.symm.trans h)); exact path endpoint)
  obtain ⟨mem, basin, -, aliases⟩ := s.aliasTaken_frame u a
  have there : (s.aliasTaken u a).openColl a.tenant a.slot = some (n, c) := by rw [State.openColl, basin]; exact isOpen
  obtain ⟨d, taken, next, counts, stage⟩ := takeStore_counts there has fits
  rw [taken] at sends
  refine ⟨t, d, ran, sends.mem.trans mem, fun y hy => ?_, (sends.collOf n).trans (State.collOf_setColl ..), ?_, next, fun j hj => ?_,
    sends.agenda (List.mem_append_right _ (List.mem_singleton_self _))⟩
  · rw [sends.aliases] at hy
    have left : y ∈ (s.aliasTaken u a).aliases := hy
    rw [aliases] at left
    simpa using (List.mem_filter.1 left).2
  · rw [counts, Table.get_set]
  · rw [stage]
    exact stage_get _ _ _ _ _ _ hj

/-- CHUNK_BODY on the switch path waits for its lock (R276). -/
theorem execChunkBody_busy {s : State} {n : Nat} {c : Coll} (found : s.collOf n = some c) (due : s.bodyDue c = true) (path : c.endpoint = false)
    (busy : s.basin.lockBusy.has c.lock = true) : execChunkBody n s = .next s := by
  simp [execChunkBody, found, due, path, busy]

theorem execChunkBody_waits {s : State} {n : Nat} {c : Coll} (found : s.collOf n = some c) (due : s.bodyDue c = false) :
    execChunkBody n s = .next s := by
  simp [execChunkBody, found, due]

/-- Settles O58: each event by the lemma on it, in the order of the statement. -/
theorem basinEvents : Obligations.BasinEvents := by
  unfold Obligations.BasinEvents
  intro s u n
  refine ⟨?opens, ?stores, ?early, ?answers, fun k m => storeAccepted_groups s k m, fun o w => s.completeOp_entry o w 0, ?bodies,
    fun r => execReloadBankSwitch_switches, fun state tenant masks hn four hs ht => execSlotTableWrite_eq hn four hs ht, ?quotas,
    fun e => rfl, fun x => execContestChangeBoundary_takes, fun d b w => s.bidEnds_completes w, ?arrivals, ?rounds, ?winners⟩
  case opens =>
    intro r x found arrived aliases opens tn slot fresh tenant state closed joins root rootIn live program alone _
    subst slot
    obtain ⟨t, c, ran, gone, coll, ⟨-, -, ⟨parts, window, root, words⟩, start, path, bindings⟩, fixed, isOpen, counted, told, body⟩ :=
      execCollectiveOpen_opens found arrived aliases opens ⟨rfl, fresh, ⟨tenant, state, closed⟩, joins, ⟨root, rootIn⟩, live, program⟩ alone
    exact ⟨t, c, ran, gone, coll, parts, window, root, words, start.1, fixed, path, bindings, isOpen, counted, told, body⟩
  case stores =>
    intro a c found due
    refine ⟨fun none => ?_, fun isOpen path has window inside _ ahead room => ?_, fun isOpen path has first root =>
      execAliasStore_relays found due isOpen path has first root⟩
    · obtain ⟨t, ran, mem, colls, gone, -, -⟩ := execAliasStore_discards found due none
      exact ⟨t, ran, mem, colls, gone⟩
    · exact execAliasStore_stages found due isOpen path has (by simp [Coll.accepts, window, inside, ahead, room])
  case early => exact fun a found due => execAliasStore_waits found due
  case answers =>
    intro a found due none own straight far
    obtain ⟨t, ran, -, -, -, groups, told⟩ := execAliasStore_discards found due none
    exact ⟨t, ran, groups, told own straight far⟩
  case bodies =>
    exact fun c found => ⟨execChunkBody_locked found, execChunkBody_endpoint found, execChunkBody_busy found, execChunkBody_waits found,
      execCollectiveCompletion_done found⟩
  case quotas =>
    exact fun e r l pr hn hr hl room => ⟨_, execTenantQuotaTableWrite_eq e pr hn hr hl room, rfl, Table.get_set ..⟩
  case arrivals =>
    intro d b found away
    obtain ⟨t, ran, mem, c, there, arrived, contest, key⟩ := execWeirBidArrival_arrives found away
    exact ⟨t, c, ran, mem, there, arrived, contest, key⟩
  case rounds =>
    intro idle tick nodup
    obtain ⟨t, ran, round, inRound, mem, holds, presents⟩ := execWeirRoundStart_presents idle tick nodup
    exact ⟨t, ran, round, inRound, mem, holds, presents⟩
  case winners =>
    intro inRound due pool _
    obtain ⟨t, ran, idle, presented, mem, won⟩ := execWeirRoundEnd_won inRound due pool
    refine ⟨t, ran, idle, presented, mem, fun c w hc turn free there mine greatest => ?_⟩
    obtain ⟨basin, dies, ends, hold⟩ := won c w hc turn free there mine greatest
    exact ⟨⟨basin, fun d hd takes live => ⟨dies d hd takes live, fun x => x.showResult_shows d c _⟩⟩, ends, hold⟩

end Sys2Proof.Machine
end

section
/-! SUPPORT. The element functions of R75 to R77 as functions of numbers, at every width. -/

namespace Sys2Proof.Machine

open Sys2Proof

/-- An element function gives the numbers of a table's function, at every width. -/
def Computes (g : IntOp) (f : Nat → Nat → Nat → Nat → Nat) : Prop :=
  ∀ (n : Nat) (x y c : BitVec n), (g n x y c).toNat = f n x.toNat y.toNat c.toNat

/-! ### Two sources (R75) -/

theorem opAdd_computes : Computes opAdd (fun n x y _ => (x + y) % 2 ^ n) := fun _ _ _ _ => BitVec.toNat_add ..
theorem opSub_computes : Computes opSub (fun n x y _ => wrapInt n ((x : Int) - y)) := fun _ x y _ => sub_num x y
theorem opMul_computes : Computes opMul (fun n x y _ => x * y % 2 ^ n) := fun _ _ _ _ => BitVec.toNat_mul ..
theorem opMulh_computes : Computes opMulh (fun n x y _ => wrapInt n (toSigned n x * toSigned n y / 2 ^ n)) := fun _ x y _ => imulh_num x y
theorem opMulhn_computes : Computes opMulhn (fun n x y _ => x * y / 2 ^ n) := fun _ x y _ => imulhn_num x y
theorem opAnd_computes : Computes opAnd (fun _ x y _ => x &&& y) := fun _ _ _ _ => BitVec.toNat_and ..
theorem opOr_computes : Computes opOr (fun _ x y _ => x ||| y) := fun _ _ _ _ => BitVec.toNat_or ..
theorem opXor_computes : Computes opXor (fun _ x y _ => x ^^^ y) := fun _ _ _ _ => BitVec.toNat_xor ..
theorem opShl_computes : Computes opShl (fun n x y _ => cutShift n y (x * 2 ^ y % 2 ^ n)) := fun _ x y _ => shl_num x y.toNat
theorem opShr_computes : Computes opShr (fun n x y _ => cutShift n y (x / 2 ^ y)) := fun _ x y _ => shr_num x y.toNat
theorem opSar_computes : Computes opSar (fun n x y _ => signShift n x y) := fun _ x y _ => sar_num x y.toNat

theorem opMad_computes : Computes opMad (fun n x y c => (c + x * y) % 2 ^ n) := by
  intro n x y c
  rw [opMad, BitVec.toNat_add, BitVec.toNat_mul, Nat.add_mod_mod]

theorem sle_iff_toSigned {n : Nat} (x y : BitVec n) : x.sle y = true ↔ toSigned n x.toNat ≤ toSigned n y.toNat := by
  rw [BitVec.sle_iff_toInt_le, toSigned_toNat, toSigned_toNat]

theorem opMin_computes : Computes opMin (fun n x y _ => if toSigned n x ≤ toSigned n y then x else y) := by
  intro n x y _
  simp only [opMin, sle_iff_toSigned]
  split <;> rfl

/-- Where the elements are equal either of them is the greater. -/
theorem opMax_computes : Computes opMax (fun n x y _ => if toSigned n x ≤ toSigned n y then y else x) := by
  intro n x y _
  simp only [opMax, BitVec.sle_iff_toInt_le, toSigned_toNat]
  split <;> split
  · rw [BitVec.eq_of_toInt_eq (by omega : x.toInt = y.toInt)]
  · rfl
  · rfl
  · omega

theorem opMinn_computes : Computes opMinn (fun _ x y _ => min x y) := by
  intro n x y _
  simp only [opMinn, BitVec.ule_eq_decide, decide_eq_true_eq]
  split <;> omega

theorem opMaxn_computes : Computes opMaxn (fun _ x y _ => max x y) := by
  intro n x y _
  simp only [opMaxn, BitVec.ule_eq_decide, decide_eq_true_eq]
  split <;> omega

/-! ### One source (R77) -/

theorem opNot_computes : Computes opNot (fun n x _ _ => 2 ^ n - 1 - x) := fun _ _ _ _ => BitVec.toNat_not

theorem neg_num {n : Nat} (x : BitVec n) : (0 - x).toNat = wrapInt n (-(x.toNat : Int)) := by
  rw [sub_num]; simp

theorem opNeg_computes : Computes opNeg (fun n x _ _ => wrapInt n (-(x : Int))) := fun _ x _ _ => neg_num x

/-- The sign bit is set exactly in the elements whose signed reading is below zero. -/
theorem opAbs_computes : Computes opAbs (fun n x _ _ => if toSigned n x < 0 then wrapInt n (-(x : Int)) else x) := by
  intro n x _ _
  simp only [opAbs, toSigned_toNat, BitVec.msb_eq_toInt, decide_eq_true_eq]
  split
  · exact neg_num x
  · rfl

theorem opPopc_computes : Computes opPopc (fun n x _ _ => ((List.range n).filter (fun k => x.testBit k)).length) := by
  intro n x _ _
  have bound : (List.range n).countP (fun i => x.getLsbD i) < 2 ^ n :=
    lt_of_le_of_lt (List.countP_le_length.trans_eq List.length_range) Nat.lt_two_pow_self
  rw [opPopc, BitVec.toNat_ofNat, Nat.mod_eq_of_lt bound, List.countP_eq_length_filter]
  rfl

theorem opClz_computes : Computes opClz (fun n x _ _ => leadingZeros n x) := by
  intro n x _ _
  have bound : n - bitLen x.toNat < 2 ^ n := lt_of_le_of_lt (Nat.sub_le ..) Nat.lt_two_pow_self
  dsimp only [opClz]
  rw [BitVec.toNat_ofNat, Nat.mod_eq_of_lt bound]
  unfold bitLen leadingZeros
  split <;> omega

/-- An element is the sum of the weights of its bits. -/
theorem toNat_eq_sum_bits {n : Nat} (x : BitVec n) : x.toNat = ((List.range n).map (fun k => if x.getLsbD k then 2 ^ k else 0)).sum := by
  have low : ∀ k, x.toNat % 2 ^ k = ((List.range k).map (fun j => if x.getLsbD j then 2 ^ j else 0)).sum := by
    intro k
    induction k with
    | zero => simp [Nat.mod_one]
    | succ k ih =>
      rw [List.range_succ, List.map_append, List.sum_append, ← ih, Nat.mod_pow_succ, List.map_singleton, ← BitVec.testBit_toNat, Nat.testBit_eq_decide_div_mod_eq]
      rcases Nat.mod_two_eq_zero_or_one (x.toNat / 2 ^ k) with h | h <;> simp [h]
  rw [← low, Nat.mod_eq_of_lt x.isLt]

/-- A sum over 0 to n - 1 taken from the other end. -/
theorem sum_range_reflect (f : Nat → Nat) (n : Nat) : ((List.range n).map (fun k => f (n - 1 - k))).sum = ((List.range n).map f).sum :=
  Finset.sum_range_reflect f n

/-- Bit k of the element stands at n - 1 - k, so that the sum of the weights is the one taken from the other end. -/
theorem opBrev_computes :
    Computes opBrev (fun n x _ _ => ((List.range n).map (fun k => if x.testBit k then 2 ^ (n - 1 - k) else 0)).sum) := by
  intro n x _ _
  dsimp only [opBrev]
  rw [toNat_eq_sum_bits, ← sum_range_reflect]
  congr 1
  refine List.map_congr_left fun k hk => ?_
  have hk : k < n := List.mem_range.1 hk
  rw [BitVec.getLsbD_reverse, BitVec.getMsbD_eq_getLsbD, show n - 1 - (n - 1 - k) = k by omega, decide_eq_true (by omega : n - 1 - k < n)]
  rfl

theorem sext_num (k : Nat) {n : Nat} (x : BitVec n) :
    (if n ≤ k then x else (x.setWidth k).signExtend n).toNat = sextNat k n x.toNat := by
  unfold sextNat
  split
  · rfl
  · rename_i h
    rw [signExtend_ofInt _ (by omega), ofInt_toNat, ← toSigned_toNat, BitVec.toNat_setWidth]

theorem opSext8_computes : Computes opSext8 (fun n x _ _ => sextNat 8 n x) := fun _ x _ _ => sext_num 8 x
theorem opSext16_computes : Computes opSext16 (fun n x _ _ => sextNat 16 n x) := fun _ x _ _ => sext_num 16 x

/-! ### Immediates (R76) -/

theorem addImmediate_computes (k : BitVec 8) :
    Computes (fun n x _ c => opAdd n x (k.signExtend n) c) (fun n x _ _ => wrapInt n ((x : Int) + k.toInt)) := by
  intro n x _ _
  dsimp only [opAdd]
  rw [← ofInt_toNat, BitVec.ofInt_add, BitVec.ofInt_natCast, BitVec.ofNat_toNat, BitVec.setWidth_eq, BitVec.signExtend]

/-- Bits of the immediate at or above the width meet none of the element. -/
theorem andImmediate_computes (k : BitVec 8) : Computes (fun n x _ c => opAnd n x (k.setWidth n) c) (fun _ x _ _ => x &&& k.toNat) := by
  intro n x _ _
  dsimp only [opAnd]
  rw [BitVec.toNat_and, BitVec.toNat_setWidth]
  apply Nat.eq_of_testBit_eq
  intro i
  rw [Nat.testBit_and, Nat.testBit_and, Nat.testBit_mod_two_pow]
  by_cases h : i < n
  · simp [h]
  · rw [BitVec.testBit_toNat, BitVec.getLsbD_of_ge x i (by omega), Bool.false_and, Bool.false_and]

theorem shlImmediate_computes (k : BitVec 8) :
    Computes (fun _ x _ _ => x <<< k.toNat) (fun n x _ _ => cutShift n k.toNat (x * 2 ^ k.toNat % 2 ^ n)) := fun _ x _ _ => shl_num x k.toNat

theorem shrImmediate_computes (k : BitVec 8) :
    Computes (fun _ x _ _ => x >>> k.toNat) (fun n x _ _ => cutShift n k.toNat (x / 2 ^ k.toNat)) := fun _ x _ _ => shr_num x k.toNat

theorem sarImmediate_computes (k : BitVec 8) :
    Computes (fun _ x _ _ => x.sshiftRight k.toNat) (fun n x _ _ => signShift n x k.toNat) := fun _ x _ _ => sar_num x k.toNat

end Sys2Proof.Machine
end

section
/-! The obligations: the integer instructions. -/

namespace Sys2Proof.Machine

open Sys2Proof

/-- An instruction of R75: its result by class, and every element of it, from what its element function computes. -/
theorem intOp_results {i : Instr} {s : State} {w : Bool} {d a b : Operand} {g : IntOp} {f : Nat → Nat → Nat → Nat → Nat} (num : Computes g f)
    (ran : exec i s = .next (s.intOp w d a b g)) (hd : d.isV = true ∨ d.isS = true) :
    ∃ t x, exec i s = .next t ∧ Written s t w d (modeItype s.g.mode == 3) x ∧
      ∀ l e, e < elemCount (modeItype s.g.mode) →
        let n := elemWidth (modeItype s.g.mode)
        elemNat n (x l) e = f n (elemNat n (s.rd64 a l) e) (elemNat n (s.rd64 b l) e) (elemNat n (s.rd64 d l) e) :=
  ⟨_, _, ran, result_written s w d _ _ hd, fun l e he => by
    intro n
    rw [State.itype, elemNat_mapElems _ _ _ _ _ _ he, num, toNat_elem, toNat_elem, toNat_elem]⟩

/-- A function of one source, of IUN or of a shift by an immediate: its result by class, and every element of it. -/
theorem intUn_results {i : Instr} {s : State} {w : Bool} {d a : Operand} {g : IntOp} {f : Nat → Nat → Nat}
    (num : Computes g (fun n x _ _ => f n x)) (ran : exec i s = .next (s.intUn w d a g)) (hd : d.isV = true ∨ d.isS = true) :
    ∃ t x, exec i s = .next t ∧ Written s t w d (modeItype s.g.mode == 3) x ∧
      ∀ l e, e < elemCount (modeItype s.g.mode) →
        let n := elemWidth (modeItype s.g.mode)
        elemNat n (x l) e = f n (elemNat n (s.rd64 a l) e) :=
  ⟨_, _, ran, result_written s w d _ _ hd, fun l e he => by
    intro n
    rw [State.itype, elemNat_mapElems _ _ _ _ _ _ he, num, toNat_elem]⟩

/-- Every element of the immediate operand is the immediate (R76). -/
theorem elem_immElems {it e : Nat} (k : (w : Nat) → BitVec w) (he : e < elemCount it) :
    elem (elemWidth it) (immElems it k) e = k (elemWidth it) :=
  BitVec.eq_of_toNat_eq (by rw [toNat_elem, immElems, elemNat_mapElems _ _ _ _ _ _ he])

/-- A form whose second source is an immediate (R76): its result by class, and every element of it. -/
theorem intImm_results {i : Instr} {s : State} {w : Bool} {d a : Operand} {g : IntOp} {k : (w : Nat) → BitVec w} {f : Nat → Nat → Nat}
    (num : Computes (fun n x _ c => g n x (k n) c) (fun n x _ _ => f n x)) (ran : exec i s = .next (s.intImm w d a g k))
    (hd : d.isV = true ∨ d.isS = true) :
    ∃ t x, exec i s = .next t ∧ Written s t w d (modeItype s.g.mode == 3) x ∧
      ∀ l e, e < elemCount (modeItype s.g.mode) →
        let n := elemWidth (modeItype s.g.mode)
        elemNat n (x l) e = f n (elemNat n (s.rd64 a l) e) :=
  ⟨_, _, ran, result_written s w d _ _ hd, fun l e he => by
    intro n
    rw [State.itype, elemNat_mapElems _ _ _ _ _ _ he, elem_immElems k he, num n _ 0, toNat_elem]⟩

/-- An instruction of R75's table: its word, its dst field, and its element function. -/
theorem intBinary_form {i : Instr} {op : BitVec 7} {w : Bool} {d a b : Operand} {f : Nat → Nat → Nat → Nat → Nat}
    (h : intBinary i = some (op, w, d, a, b, f)) :
    encodeCore i = some (formA op w d.code a.code b.code) ∧ i.view.d = some (.dst, d) ∧
      ∃ g, Computes g f ∧ ∀ s, exec i s = .next (s.intOp w d a b g) := by
  cases i <;> cases h
  case iadd => exact ⟨rfl, rfl, _, opAdd_computes, fun _ => rfl⟩
  case isub => exact ⟨rfl, rfl, _, opSub_computes, fun _ => rfl⟩
  case imul => exact ⟨rfl, rfl, _, opMul_computes, fun _ => rfl⟩
  case imulh => exact ⟨rfl, rfl, _, opMulh_computes, fun _ => rfl⟩
  case imulhn => exact ⟨rfl, rfl, _, opMulhn_computes, fun _ => rfl⟩
  case imad => exact ⟨rfl, rfl, _, opMad_computes, fun _ => rfl⟩
  case iand => exact ⟨rfl, rfl, _, opAnd_computes, fun _ => rfl⟩
  case ior => exact ⟨rfl, rfl, _, opOr_computes, fun _ => rfl⟩
  case ixor => exact ⟨rfl, rfl, _, opXor_computes, fun _ => rfl⟩
  case ishl => exact ⟨rfl, rfl, _, opShl_computes, fun _ => rfl⟩
  case ishr => exact ⟨rfl, rfl, _, opShr_computes, fun _ => rfl⟩
  case isar => exact ⟨rfl, rfl, _, opSar_computes, fun _ => rfl⟩
  case imin => exact ⟨rfl, rfl, _, opMin_computes, fun _ => rfl⟩
  case imax => exact ⟨rfl, rfl, _, opMax_computes, fun _ => rfl⟩
  case iminn => exact ⟨rfl, rfl, _, opMinn_computes, fun _ => rfl⟩
  case imaxn => exact ⟨rfl, rfl, _, opMaxn_computes, fun _ => rfl⟩

/-- Settles O1, by R75's table. -/
theorem integerTwoSourceResults : Obligations.IntegerTwoSourceResults := by
  intro i op w d a b f s shape wf
  obtain ⟨word, dst, g, num, ran⟩ := intBinary_form shape
  exact ⟨word, intOp_results num (ran s) (wf_dst i wf d dst)⟩

/-- A function of R77's table: its word, its dst field, and its element function. -/
theorem intUnary_form {i : Instr} {fn : BitVec 8} {w : Bool} {d a : Operand} {f : Nat → Nat → Nat}
    (h : intUnary i = some (fn, w, d, a, f)) :
    encodeCore i = some (formA 0x30 w d.code a.code fn) ∧ i.view.d = some (.dst, d) ∧
      ∃ g, Computes g (fun n x _ _ => f n x) ∧ ∀ s, exec i s = .next (s.intUn w d a g) := by
  cases i <;> cases h
  case inot => exact ⟨rfl, rfl, _, opNot_computes, fun _ => rfl⟩
  case ineg => exact ⟨rfl, rfl, _, opNeg_computes, fun _ => rfl⟩
  case iabs => exact ⟨rfl, rfl, _, opAbs_computes, fun _ => rfl⟩
  case popc => exact ⟨rfl, rfl, _, opPopc_computes, fun _ => rfl⟩
  case clz => exact ⟨rfl, rfl, _, opClz_computes, fun _ => rfl⟩
  case brev => exact ⟨rfl, rfl, _, opBrev_computes, fun _ => rfl⟩
  case sext8 => exact ⟨rfl, rfl, _, opSext8_computes, fun _ => rfl⟩
  case sext16 => exact ⟨rfl, rfl, _, opSext16_computes, fun _ => rfl⟩

/-- Settles O2, by R77's table. -/
theorem integerOneSourceResults : Obligations.IntegerOneSourceResults := by
  intro i fn w d a f s shape wf
  obtain ⟨word, dst, g, num, ran⟩ := intUnary_form shape
  exact ⟨word, intUn_results num (ran s) (wf_dst i wf d dst)⟩

/-- A form of R76's table: its word, its dst field, and its element function. The sum and the conjunction take the immediate as an
operand, the shifts as a count. -/
theorem intImmediate_form {i : Instr} {op : BitVec 7} {w : Bool} {d a : Operand} {k : BitVec 8} {f : Nat → Nat → Nat}
    (h : intImmediate i = some (op, w, d, a, k, f)) :
    encodeCore i = some (formA op w d.code a.code k) ∧ i.view.d = some (.dst, d) ∧
      ((∃ g, Computes g (fun n x _ _ => f n x) ∧ ∀ s, exec i s = .next (s.intUn w d a g)) ∨
        ∃ g imm, Computes (fun n x _ c => g n x (imm n) c) (fun n x _ _ => f n x) ∧ ∀ s, exec i s = .next (s.intImm w d a g imm)) := by
  cases i <;> cases h
  case iaddi => exact ⟨rfl, rfl, .inr ⟨_, _, addImmediate_computes k, fun _ => rfl⟩⟩
  case ishli => exact ⟨rfl, rfl, .inl ⟨_, shlImmediate_computes k, fun _ => rfl⟩⟩
  case ishri => exact ⟨rfl, rfl, .inl ⟨_, shrImmediate_computes k, fun _ => rfl⟩⟩
  case isari => exact ⟨rfl, rfl, .inl ⟨_, sarImmediate_computes k, fun _ => rfl⟩⟩
  case iandi => exact ⟨rfl, rfl, .inr ⟨_, _, andImmediate_computes k, fun _ => rfl⟩⟩

/-- Settles O3, by R76's table. -/
theorem integerImmediateResults : Obligations.IntegerImmediateResults := by
  intro i op w d a k f s shape wf
  obtain ⟨word, dst, ⟨g, num, ran⟩ | ⟨g, imm, num, ran⟩⟩ := intImmediate_form shape
  · exact ⟨word, intUn_results num (ran s) (wf_dst i wf d dst)⟩
  · exact ⟨word, intImm_results num (ran s) (wf_dst i wf d dst)⟩

end Sys2Proof.Machine
end

section
/-! The obligations: predicate conversions, BRX, the team barrier, and the masks. -/

namespace Sys2Proof.Machine

open Sys2Proof

/-! ### VTOP, PTOV and PCNT (R82, R83) -/

/-- A predicate read as a source is 1 or 0 (R49), and so not 0 exactly where it is true. -/
theorem rd_pred_ne_zero (s : State) (p : Fin 8) (l : Nat) : (s.rd (.p p) l != 0) = s.g.pred p.val l := by
  simp only [State.rd]
  cases s.g.pred p.val l <;> rfl

theorem countP_lanesOf (m : DWord) (f : Nat → Bool) :
    (lanesOf m).countP f = ((List.range 64).filter (fun l => m.getLsbD l && f l)).length := by
  rw [lanesOf, List.countP_filter, List.countP_eq_length_filter]
  simp only [Bool.and_comm]

/-- Settles O8. -/
theorem predicateConversionResults : Obligations.PredicateConversionResults := by
  intro s p n m a
  refine ⟨⟨_, rfl, ?_⟩, ⟨_, rfl, ?_⟩, ?_⟩
  · have := predResult_written s (.p p) (fun l => s.rd a l != 0)
    simpa only [bne, beq_eq_decide, decide_not] using this
  · simp only [← rd_pred_ne_zero]
    exact laneResult_written s false n false _
  · change ∃ t, execPcnt (.s m) (.p p) s = .next t ∧ _
    unfold execPcnt
    by_cases none : s.iss.mask = 0
    · exact ⟨s, if_pos none, fun _ => rfl, fun some => absurd none some⟩
    · refine ⟨_, if_neg none, fun zero => absurd zero none, fun _ => ?_⟩
      simp only [rd_pred_ne_zero, countP_lanesOf]
      exact scalarResult_written s m false _

/-! ### BRX (R33, R109) -/

/-- In the lanes there are, the mask of a predicate has its bits. -/
theorem getLsbD_predMask (g : Group) (n : Nat) {l : Nat} (hl : l < 64) : (g.predMask n).getLsbD l = g.pred n l := by
  unfold Group.predMask Group.pred
  split
  · rename_i h
    rw [BitVec.getLsbD_allOnes, decide_eq_true hl, h]; rfl
  · rename_i h
    rw [beq_eq_false_iff_ne.2 h, Bool.false_or]

theorem getLsbD_and_predMask (m : DWord) (g : Group) (n l : Nat) : (m &&& g.predMask n).getLsbD l = (m.getLsbD l && g.pred n l) := by
  by_cases hl : l < 64
  · rw [BitVec.getLsbD_and, getLsbD_predMask g n hl]
  · rw [BitVec.getLsbD_of_ge _ _ (by omega), BitVec.getLsbD_of_ge m _ (by omega), Bool.false_and]

theorem getLsbD_and_not_predMask (m : DWord) (g : Group) (n l : Nat) :
    (m &&& ~~~g.predMask n).getLsbD l = (m.getLsbD l && !g.pred n l) := by
  by_cases hl : l < 64
  · rw [BitVec.getLsbD_and, BitVec.getLsbD_not, getLsbD_predMask g n hl, decide_eq_true hl, Bool.true_and]
  · rw [BitVec.getLsbD_of_ge _ _ (by omega), BitVec.getLsbD_of_ge m _ (by omega), Bool.false_and]

theorem eq_zero_iff_getLsbD (m : DWord) : m = 0 ↔ ∀ l, m.getLsbD l = false := by
  refine ⟨fun h l => by simp [h], fun h => BitVec.eq_of_getLsbD_eq fun l _ => ?_⟩
  rw [h]; simp

/-- No lane of the issue has the predicate exactly where the lanes taken are none. -/
theorem taken_ne_zero_iff (m : DWord) (g : Group) (n : Nat) :
    m &&& g.predMask n ≠ 0 ↔ ∃ l, m.getLsbD l = true ∧ g.pred n l = true := by
  simp only [ne_eq, eq_zero_iff_getLsbD, getLsbD_and_predMask, not_forall, Bool.not_eq_false, Bool.and_eq_true]

/-- Every lane of the issue has the predicate exactly where the lanes not taken are none. -/
theorem rest_eq_zero_iff (m : DWord) (g : Group) (n : Nat) :
    m &&& ~~~g.predMask n = 0 ↔ ∀ l, m.getLsbD l = true → g.pred n l = true := by
  simp only [eq_zero_iff_getLsbD, getLsbD_and_not_predMask]
  refine forall_congr' fun l => ?_
  cases m.getLsbD l <;> simp

/-- Settles O12: the branches of BRX, by the lanes taken and the lanes not taken. -/
theorem brxSplitsGroup : Obligations.BrxSplitsGroup := by
  intro s T V h p
  simp only [← taken_ne_zero_iff, ← rest_eq_zero_iff, p]
  refine ⟨fun none => ?_, fun some every => ?_, fun some rest room => ?_, fun some rest full can => ?_⟩
  · exact if_pos (not_not.1 none)
  · exact ⟨_, (if_neg some).trans (if_pos every), jump_jumped ..⟩
  · refine ⟨_, s.iss.mask &&& ~~~s.g.predMask (modeBp s.g.mode), (if_neg some).trans ((if_neg rest).trans (if_neg (by omega))), ?_⟩
    obtain ⟨only, iss, g⟩ := setG_jump s { s.g with joins := ⟨s.iss.mask &&& ~~~s.g.predMask (modeBp s.g.mode), false, s.g.offset + 1,
      s.g.offset + V.signExtend 24⟩ :: s.g.joins } (s.g.offset + T.signExtend 24)
    exact ⟨only, iss, fun l => getLsbD_and_not_predMask .., g⟩
  · exact ⟨_, (if_neg some).trans ((if_neg rest).trans (if_pos full)), trapAt_taken s h 0x13 0 0 s.iss.mask can⟩

/-! ### The team barrier (R44) -/

/-- A team that has been saved since its only group reached barrier 0: it is not live and lists no group, and it keeps the arrivals that its
restore is to find. -/
def savedAtBarrier : State := { State.reset with teams := [(0, { live := false, groups := [], bars := [(0, [0])] })] }

/-- Refutes O15: at a team that is not live the completion event leaves the arrivals as they are, though every group of its (empty) list
has arrived. -/
theorem not_teamBarrierResults : ¬ Obligations.TeamBarrierResults := by
  intro h
  obtain ⟨t, ran, -, empty, -⟩ := (h savedAtBarrier 0 0 0).2 (by decide)
  obtain rfl : savedAtBarrier = t := Host.Outcome.next.inj ran
  exact absurd empty (by decide)

/-! ### EXECW, EXECR and NESTR (R117, R118) -/

theorem modG_only (s : State) (f : Group → Group) : GroupOnly s (s.modG f) := groupOnly_setG s (f s.g) s.iss

/-- A write of V registers without a lane result, in the lanes of a mask. -/
theorem plainWrite_written (s : State) (n : Fin 192) (m : DWord) (f : Nat → Word) :
    RegsOnly s (s.plainWrite (.v n) m f) ∧ (s.plainWrite (.v n) m f).iss = s.iss ∧ (s.plainWrite (.v n) m f).g.s = s.g.s ∧
      VWritten s (s.plainWrite (.v n) m f) (.v n) false m (fun l => (f l).setWidth 64) := by
  have hg : (s.plainWrite (.v n) m f).g = putLanes s.g (.v n) false (lanesOf m) (fun l => (f l).setWidth 64) := g_setG' s _ s.iss
  refine ⟨⟨groupOnly_setG s _ s.iss, by rw [hg]; exact putLanes_frame ..⟩, rfl, by rw [hg]; exact putLanes_v_s .., fun r l hl => ?_⟩
  rw [hg, vr_putLanes _ _ _ _ _ _ _ (fun l h => lt_of_getLsbD ((mem_lanesOf ..).1 h)) hl]
  simp only [mem_lanesOf, Bool.not_eq_true]

/-- A nest counter in a register. -/
theorem counter_setWidth (x : BitVec 8) : (x.setWidth 32).setWidth 64 = x.setWidth 64 := by
  apply BitVec.eq_of_toNat_eq
  have := x.isLt
  simp only [BitVec.toNat_setWidth]
  omega

/-- Settles O20. -/
theorem maskResults : Obligations.MaskResults := by
  intro s p n x
  refine ⟨⟨_, rfl, modG_only s _, rfl, fun none => ?_, fun f some => ?_⟩, ⟨_, rfl, fun none => ?_, fun f some => ?_⟩, ?_⟩
  · rw [State.g_modG]
    split
    · cases none.symm.trans ‹_›
    · rfl
  · rw [State.g_modG]
    split
    · cases some.symm.trans ‹_›; rfl
    · cases some.symm.trans ‹_›
  · rw [none]; exact scalarResult_written s p true _
  · rw [some]; exact scalarResult_written s p true _
  · have wrote (m : DWord) (f : Table (BitVec 8)) := plainWrite_written s n m (fun l => (f.get l 0).setWidth 32)
    simp only [counter_setWidth] at wrote
    change ∃ t, execNestr (.v n) s = .next t ∧ _
    unfold execNestr
    by_cases zero : s.iss.mask = 0
    · exact ⟨s, if_pos zero, ⟨⟨rfl, fun _ _ => rfl, fun _ => rfl⟩, rfl⟩, rfl, rfl, fun _ => rfl, fun h => absurd zero h, fun _ h => absurd zero h⟩
    · dsimp only
      rw [if_neg zero, State.nestrLanes]
      cases frame : s.g.frame with
      | none =>
        obtain ⟨only, iss, sr, vr⟩ := wrote (s.g.exec &&& s.g.notDeferred &&& ~~~s.g.parked &&& s.g.predMask (modeGp s.g.mode)) s.g.nest
        exact ⟨_, rfl, only, iss, sr, fun h => absurd h zero, fun _ _ => vr, fun _ _ h => nomatch h⟩
      | some f =>
        obtain ⟨only, iss, sr, vr⟩ := wrote (s.g.all &&& s.g.predMask (modeGp s.g.mode)) f.nest
        refine ⟨_, rfl, only, iss, sr, fun h => absurd h zero, fun _ h => (nomatch h), fun f' _ h => ?_⟩
        obtain rfl := Option.some.inj h
        exact vr

end Sys2Proof.Machine
end

section
/-! The obligation of STG and the atomics: a W = 1 atomic marks a line that its core still waits for, so that the requests that were there
do not stand as they were. -/

namespace Sys2Proof.Machine

open Sys2Proof

/-- Function 0 of die 0 maps page 0 through a peer window (R253) to page 0 of die 1, with every right; a group of core 0 issues in lane 0. -/
def peerWindow : State := { State.reset with
  groups := [(0, { live := true })]
  cores := [(0, { tlb := [{ fn := 0, page := 0, bits := 12, leaf := 0x0800000000EB }] })]
  dies := [(1, { tlb2 := [{ fn := 0, page := 0, bits := 12, leaf := 0xE7 }] })]
  regs := [(2048, { state := .valid, pages := 1, read := true, write := true, atomic := true, peer := true })]
  iss := { mask := 1 } }

/-- The group has loaded from the page, and its core waits for the line. -/
def lineAsked : State :=
  peerWindow.sendRead 0 0 0 0 { lane := 0, space := 2, loc := dieLoc 1 0, value := none, expo := some 2048 }

/-- The AADD of the same line with W = 1. -/
def aaddOfLine : Instr := .aadd true (.v 0) (.s 0) .zero

/-- Its lanes with their translations. -/
def lanesOfLine : State × List Lane :=
  lineAsked.translateLanes (lineAsked.accessLanes false) (.s 0) .zero (modeBytes lineAsked.g.mode) .atomic

theorem lanesOfLine_present : lanesOfLine.2.map lanePage = [none] := by decide +kernel

theorem lanesOfLine_parts : (partsOf lanesOfLine.2).map (fun p => p.loc) = [dieLoc 1 0] := by decide +kernel

/-- Refutes O49: the request for the line is marked, as lines that come for it are none that later loads may take. -/
theorem not_globalStoresAndAtomics : ¬ Obligations.GlobalStoresAndAtomics := by
  intro h
  obtain ⟨-, -, atomics⟩ := h lineAsked lanesOfLine.1 lanesOfLine.2 (by decide +kernel)
  obtain ⟨-, -, made⟩ := atomics aaddOfLine 0x73 .add true (.v 0) (.s 0) .zero rfl (Prod.mk.eta (p := lanesOfLine)).symm (by decide +kernel)
  have present : ∀ x ∈ lanesOfLine.2, lanePage x = none := fun x hx => by
    simpa [lanesOfLine_present] using List.mem_map_of_mem (f := lanePage) hx
  obtain ⟨t, parts, ran, -, requests, -⟩ := made (.inl present)
  obtain ⟨rs, kept, -⟩ := requests (fun none => by simpa [none] using lanesOfLine_parts)
  obtain rfl := Host.Outcome.next.inj ran
  have marked : ((lineAsked.globalAtomic .add true false (.v 0) (.s 0) .zero).reqs.take 1).map (fun r : Req => r.stale) = [true] := by
    decide +kernel
  have before : lineAsked.reqs.map (fun r : Req => r.stale) = [false] := by decide +kernel
  have length : lineAsked.reqs.length = 1 := by decide +kernel
  change (lineAsked.globalAtomic .add true false (.v 0) (.s 0) .zero).reqs = _ at kept
  rw [kept, ← length, List.take_left, before] at marked
  exact absurd marked (by decide)

end Sys2Proof.Machine
end

section
/-! SUPPORT. Bytes read back after bytes have been stored: in memory, and in the host words that the stations hold (R181). -/

namespace Sys2Proof

theorem Table.has_set {α : Type} (t : Table α) (k j : Nat) (x : α) : (t.set k x).has j = (k == j || t.has j) := by
  induction t with
  | nil => rfl
  | cons p r ih =>
    obtain ⟨i, y⟩ := p
    unfold Table.set
    split
    · rename_i e
      subst e
      simp only [Table.has]
      cases i == j <;> rfl
    · split
      · rfl
      · simp only [Table.has, ih]
        cases i == j <;> cases k == j <;> rfl

namespace Machine

theorem length_bytesOf (n v : Nat) : (bytesOf n v).length = n := by
  induction n generalizing v with
  | zero => rfl
  | succ k ih => rw [bytesOf, List.length_cons, ih]

theorem getD_bytesOf {n i : Nat} (v : Nat) (h : i < n) : (bytesOf n v).getD i 0 = BitVec.ofNat 8 (v / 256 ^ i) := by
  induction n generalizing v i with
  | zero => omega
  | succ k ih =>
    cases i with
    | zero => simp [bytesOf]
    | succ i => rw [bytesOf, List.getD_cons_succ, ih _ (by omega), Nat.div_div_eq_div_mul, pow_succ, Nat.mul_comm]

namespace State

theorem getLsbD_byteMask (k : Nat) : (0xFF#64).getLsbD k = decide (k < 8) := by
  rw [show (0xFF#64) = BitVec.ofNat 64 (2 ^ 8 - 1) from rfl, BitVec.getLsbD_ofNat, Nat.testBit_two_pow_sub_one]
  by_cases h : k < 8 <;> simp [h]
  omega

/-- The bits of a word one of whose bytes has been replaced. -/
theorem getLsbD_setByte (w : DWord) (i : Nat) (b : Byte) {m : Nat} (hm : m < 64) :
    (setByte w i b).getLsbD m = if 8 * i ≤ m ∧ m < 8 * i + 8 then b.getLsbD (m - 8 * i) else w.getLsbD m := by
  simp only [setByte, BitVec.getLsbD_or, BitVec.getLsbD_and, BitVec.getLsbD_not, BitVec.getLsbD_shiftLeft, getLsbD_byteMask,
    BitVec.getLsbD_setWidth, hm, decide_true, Bool.true_and]
  by_cases lo : 8 * i ≤ m
  · by_cases hi : m < 8 * i + 8
    · simp [lo, hi, show ¬ m < 8 * i by omega, show m - 8 * i < 8 by omega, show m - 8 * i < 64 by omega]
    · simp [hi, show ¬ m - 8 * i < 8 by omega, BitVec.getLsbD_of_ge b (m - 8 * i) (by omega)]
  · simp [lo, show m < 8 * i by omega]

theorem byteOf_setByte (w : DWord) {i j : Nat} (b : Byte) (hi : i < 8) (hj : j < 8) :
    byteOf (setByte w i b) j = if j = i then b else byteOf w j := by
  apply BitVec.eq_of_getLsbD_eq
  intro n hn
  rw [byteOf, BitVec.getLsbD_extractLsb', getLsbD_setByte w i b (by omega), decide_eq_true hn, Bool.true_and]
  by_cases e : j = i
  · subst e
    rw [if_pos rfl, if_pos (by omega), Nat.add_sub_cancel_left]
  · rw [if_neg e, if_neg (by omega), byteOf, BitVec.getLsbD_extractLsb', decide_eq_true hn, Bool.true_and]

/-- The byte at a place outside the device tables: in a station, or in memory. -/
def heldByte (t u : Station) (m : Memory) (a : Nat) : Byte :=
  if t.words.has (a / 8) then byteOf (t.words.get (a / 8) 0) (a % 8)
  else if u.words.has (a / 8) then byteOf (u.words.get (a / 8) 0) (a % 8)
  else Memory.read m a

/-- A station with a byte of a word that it holds replaced. -/
def putByte (t : Station) (loc : Nat) (b : Byte) : Station :=
  { words := t.words.set (loc / 8) (setByte (t.words.get (loc / 8) 0) (loc % 8) b) }

theorem has_putByte {t : Station} {loc : Nat} (held : t.words.has (loc / 8) = true) (b : Byte) (a : Nat) :
    (putByte t loc b).words.has (a / 8) = t.words.has (a / 8) := by
  rw [putByte, Table.has_set]
  by_cases e : loc / 8 = a / 8
  · rw [← e, held, Bool.or_true]
  · rw [beq_eq_false_iff_ne.2 e, Bool.false_or]

theorem byteOf_putByte (t : Station) (loc a : Nat) (b : Byte) :
    byteOf ((putByte t loc b).words.get (a / 8) 0) (a % 8) = if a = loc then b else byteOf (t.words.get (a / 8) 0) (a % 8) := by
  rw [putByte, Table.get_set_ite]
  by_cases e : a / 8 = loc / 8
  · rw [if_pos e, byteOf_setByte _ _ (by omega) (by omega), e]
    congr 1
    exact propext ⟨fun h => by omega, fun h => by rw [h]⟩
  · rw [if_neg e, if_neg (fun h => e (by rw [h]))]

/-- What stands at every place after a byte has been put in the station or the memory that holds its place. -/
theorem heldByte_put (t u : Station) {m : Memory} (loc : Nat) (b : Byte) {a : Nat} (h : a ≠ loc ∨ Memory.wf m = true) :
    (if t.words.has (loc / 8) then heldByte (putByte t loc b) u m a
      else if u.words.has (loc / 8) then heldByte t (putByte u loc b) m a
      else heldByte t u (Memory.write m loc b) a) = if a = loc then b else heldByte t u m a := by
  unfold heldByte
  split
  · rename_i held
    rw [has_putByte held, byteOf_putByte]
    by_cases e : a = loc
    · simp [e, held]
    · rw [if_neg e, if_neg e]
  · rename_i out
    split
    · rename_i held
      rw [has_putByte held, byteOf_putByte]
      by_cases e : a = loc
      · simp [e, out, held]
      · rw [if_neg e, if_neg e]
    · rename_i out'
      by_cases e : a = loc
      · rw [e, if_neg out, if_neg out', if_pos rfl, Memory.read_write_self _ _ _ (h.resolve_left (fun ne => ne e))]
      · rw [if_neg e, Memory.read_write_ne _ _ _ _ e]

variable (s : State)

/-- A byte stored stands at its place, outside the device tables, and every other byte as before. -/
theorem byteAt_storeByte (loc a : Nat) (b : Byte) (h : a ≠ loc ∨ Inv s ∧ a / 2 ^ 48 ≠ 33) :
    (s.storeByte loc b).byteAt a = if a = loc then b else s.byteAt a := by
  have held := heldByte_put s.basin.station0 s.basin.station1 (m := s.mem) loc b (a := a) (h.imp_right And.left)
  by_cases table : a / 2 ^ 48 = 33
  · have ne : a ≠ loc := h.resolve_right (fun h => h.2 table)
    rw [if_neg ne]
    unfold storeByte
    split
    · simp only [byteAt, if_pos table]; rfl
    · split <;> simp only [byteAt, if_pos table] <;> rfl
  · have here (t : State) : t.byteAt a = heldByte t.basin.station0 t.basin.station1 t.mem a := if_neg table
    rw [here s, ← held, here]
    unfold storeByte
    split
    · rfl
    · split <;> rfl

theorem storeByte_inv (h : Inv s) (loc : Nat) (b : Byte) : Inv (s.storeByte loc b) := by
  unfold storeByte
  split
  · exact h
  · split
    · exact h
    · exact Memory.wf_write _ _ _ h

theorem byteAt_putBytes_out (loc : Nat) (bs : List Byte) {a : Nat} (h : a < loc ∨ loc + bs.length ≤ a) :
    (s.putBytes loc bs).byteAt a = s.byteAt a := by
  induction bs generalizing s loc with
  | nil => rfl
  | cons b r ih =>
    rw [List.length_cons] at h
    rw [putBytes, ih _ _ (by omega), byteAt_storeByte _ _ _ _ (.inl (by omega)), if_neg (by omega)]

theorem byteAt_putBytes_in (inv : Inv s) (loc : Nat) (bs : List Byte) {i : Nat} (hi : i < bs.length) (out : tableLoc (2 ^ 48) ≤ loc) :
    (s.putBytes loc bs).byteAt (loc + i) = bs.getD i 0 := by
  induction bs generalizing s loc i with
  | nil => exact absurd hi (by simp)
  | cons b r ih =>
    rw [putBytes]
    cases i with
    | zero =>
      rw [byteAt_putBytes_out _ _ _ (.inl (by omega)), byteAt_storeByte _ _ _ _ (.inr ⟨inv, by unfold tableLoc at out; omega⟩)]
      exact if_pos rfl
    | succ i =>
      rw [show loc + (i + 1) = loc + 1 + i by omega, List.getD_cons_succ]
      exact ih _ (s.storeByte_inv inv loc b) (loc + 1) (by simpa using hi) (by omega)

/-- Beyond die memory bytes have no key slot (R340). -/
theorem storeBytes_beyond {loc : Nat} (slot : Nat) (bs : List Byte) (h : hostLoc 0 ≤ loc) (a : Nat) :
    (s.storeBytes loc slot bs).byteAt a = (s.putBytes loc bs).byteAt a := by
  have tags : s.tagUnits loc slot bs.length = s := if_neg (by simp [Nat.not_lt.2 h])
  rw [storeBytes, tags]
  rfl

end State
end Machine
end Sys2Proof
end

section
/-! SUPPORT. What ends a group's wait (R84 to R87, R138 to R140, R165, R174, R175, R190, R191). -/

namespace Sys2Proof.Machine

open Sys2Proof

namespace State

variable (s : State)

variable {s} in
theorem group_of_groups {t : State} (h : t.groups = s.groups) (j : Nat) : t.group j = s.group j := by rw [group, h]; rfl

variable {s} in
theorem coreOf_of_cores {t : State} (h : t.cores = s.cores) (j : Nat) : t.coreOf j = s.coreOf j := by rw [coreOf, h]; rfl

/-! ### WAITC (R190, R191) -/

theorem unwatch_groups (loc k : Nat) : (s.unwatch loc k).groups = s.groups ∧ (s.unwatch loc k).mem = s.mem := by
  unfold unwatch
  dsimp only
  split <;> exact ⟨rfl, rfl⟩

/-- A waiting group that goes on, its watch entry given back. -/
def endWait (loc k : Nat) : State := (s.modGroup k (fun g => { g with wait := .ready })).unwatch loc k

theorem endWait_ends {t : State} (groups : t.groups = s.groups) (mem : t.mem = s.mem) (loc k : Nat) :
    (t.endWait loc k).group k = { s.group k with wait := .ready } ∧ (∀ j, j ≠ k → (t.endWait loc k).group j = s.group j) ∧
      (t.endWait loc k).mem = s.mem := by
  have same := group_of_groups groups
  obtain ⟨kept, mem'⟩ := (t.modGroup k (fun g => { g with wait := .ready })).unwatch_groups loc k
  have read (j : Nat) : (t.endWait loc k).group j = (t.modGroup k (fun g => { g with wait := .ready })).group j := by
    rw [group, endWait, kept]; rfl
  refine ⟨?_, fun j hj => ?_, mem'.trans mem⟩
  · rw [read, modGroup, group_setGroup, same]
  · rw [read, modGroup, group_setGroup_ne _ _ _ _ hj, same]

/-- The request of a core that only reads, as it is made (R311, R313). -/
def lookReq (kind : ReqKind) (ck gk team fn n home : Nat) (parts : List Part) : Req where
  uid := s.nextUid
  seq := s.reqSeq.get (64 * (ck / 512 * 512 + ck % 512) + home) 0
  srcDie := ck / 512
  srcCore := ck % 512
  gkey := gk
  team := team
  fn := fn
  kind := kind
  n := n
  mode := 0
  ord := false
  scalar := false
  dst := 0
  parts := parts
  performed := false
  home := home
  arrived := false
  sentAt := s.basin.time.toNat
  replayed := false
  word := 0
  here := 0
  planes := 0

/-- The state with such a request, before its message is sent. -/
def looking (kind : ReqKind) (ck gk team fn n home : Nat) (parts : List Part) : State :=
  let key := 64 * (ck / 512 * 512 + ck % 512) + home
  { s with
    reqs := s.reqs ++ [s.lookReq kind ck gk team fn n home parts]
    reqSeq := s.reqSeq.set key (s.reqSeq.get key 0 + 1)
    nextUid := s.nextUid + 1 }

theorem sendLook_sends (kind : ReqKind) {ck : Nat} (gk team fn n : Nat) {home : Nat} (parts : List Part) (far : home ≠ ck / 512) :
    Sends (s.looking kind ck gk team fn n home parts) (s.sendLook kind ck gk team fn n home parts) :=
  sendMsg_sends (s.looking kind ck gk team fn n home parts) _ _ _ _ _ (Ne.symm far)

theorem Sends.reqs {s t : State} (h : Sends s t) : t.reqs = s.reqs := (congrArg State.reqs h.rest :)

/-- A read of a WAITC's word on its way to another pound (R190). -/
theorem sendWord_asks {k : Nat} (team fn : Nat) {p : LoadPart} (far : homePound p.loc ≠ k / 16 / 512) :
    (s.sendWord k team fn p).groups = s.groups ∧ (s.sendWord k team fn p).mem = s.mem ∧
      ∃ r ∈ (s.sendWord k team fn p).reqs, r.kind = .word ∧ r.gkey = k ∧ r.team = team := by
  have sent := s.sendLook_sends .word k team fn 8 [lookPart p p.loc] far
  refine ⟨sent.groups, sent.mem, s.lookReq .word (k / 16) k team fn 8 (homePound p.loc) [lookPart p p.loc], ?_, rfl, rfl, rfl⟩
  rw [sendWord, Sends.reqs sent]
  exact List.mem_append_right _ (List.mem_singleton_self _)

variable {s}

theorem waitcEval_eq {k loc slot : Nat} {thr : DWord} (h : (s.group k).wait = .waitc loc slot thr) :
    s.waitcEval k =
      if homePound loc = k / 16 / 512 then
        if s.natSlot loc slot 8 < thr.toNat then s.recallLine (k / 16) loc else (s.recallLine (k / 16) loc).endWait loc k
      else if thr = 0 then s.endWait loc k
      else if s.evaluated k loc || s.reqs.any (fun r => r.kind == .word && r.gkey == k && r.team == (s.group k).team) then s
      else s.sendWord k (s.group k).team (s.group k).fn { lane := 0, space := 0, loc, value := none, expo := none, slot } := by
  unfold waitcEval
  dsimp only
  rw [h]
  rfl

end State

/-- WAITC_WAKE and WAITC_POLL on a word of the own die, which is compared at once, and on one of another pound. -/
theorem execWaitc_events (s : State) {k loc slot : Nat} {thr : DWord} {e : Instr} (h : (s.group k).wait = .waitc loc slot thr)
    (he : e = .waitcWake k ∨ e = .waitcPoll k) :
    let own := homePound loc = k / 16 / 512
    let ends := ∃ t, exec e s = .next t ∧ t.group k = { s.group k with wait := .ready } ∧ (∀ j, j ≠ k → t.group j = s.group j) ∧ t.mem = s.mem
    (own → s.natSlot loc slot 8 < thr.toNat → ∃ t, exec e s = .next t ∧ t.groups = s.groups ∧ t.mem = s.mem) ∧
    (own → thr.toNat ≤ s.natSlot loc slot 8 → ends) ∧ (¬ own → thr = 0 → ends) ∧
    (¬ own → thr ≠ 0 → ∃ t, exec e s = .next t ∧ t.groups = s.groups ∧ t.mem = s.mem ∧
      (s.evaluated k loc = false → ∃ r ∈ t.reqs, r.kind = .word ∧ r.gkey = k ∧ r.team = (s.group k).team)) := by
  have ran : exec e s = .next (s.waitcEval k) := by rcases he with rfl | rfl <;> rfl
  rw [State.waitcEval_eq h] at ran
  refine ⟨fun own below => ?_, fun own reached => ?_, fun far met => ?_, fun far waits => ?_⟩
  · rw [if_pos own, if_pos below] at ran
    exact ⟨_, ran, rfl, rfl⟩
  · rw [if_pos own, if_neg (by omega)] at ran
    exact ⟨_, ran, s.endWait_ends (t := s.recallLine (k / 16) loc) rfl rfl loc k⟩
  · rw [if_neg far, if_pos met] at ran
    exact ⟨_, ran, s.endWait_ends rfl rfl loc k⟩
  · rw [if_neg far, if_neg waits] at ran
    split at ran
    · rename_i known
      refine ⟨s, ran, rfl, rfl, fun new => ?_⟩
      rw [new, Bool.false_or, List.any_eq_true] at known
      simpa only [Bool.and_eq_true, beq_iff_eq, and_assoc] using known
    · obtain ⟨groups, mem, asked⟩ := s.sendWord_asks (s.group k).team (s.group k).fn
        (p := { lane := 0, space := 0, loc, value := none, expo := none, slot }) far
      exact ⟨_, ran, groups, mem, fun _ => asked⟩

namespace State

variable (s : State)

/-! ### Publishes and fence points (R162, R165, R174, R175) -/

/-- A station's words written back, where the storage set and the scope ask for it (R181). -/
theorem stationEnd_leaves (k scope : Nat) (st : BitVec 5) :
    let t := s.stationEnd k scope st
    t.groups = s.groups ∧ t.cores = s.cores ∧ t.veils = s.veils ∧ (¬ (scope = 5 ∧ st.getLsbD 4 = true) → t.mem = s.mem) := by
  unfold stationEnd
  by_cases h : scope = 5 ∧ st.getLsbD 4 = true
  · rw [if_pos (by simpa using h)]
    unfold writeBack
    dsimp only
    split
    · exact ⟨rfl, rfl, rfl, fun no => absurd h no⟩
    · exact ⟨rfl, rfl, rfl, fun no => absurd h no⟩
  · rw [if_neg (by simpa using h)]
    exact ⟨rfl, rfl, rfl, fun _ => rfl⟩

/-- A copy has bytes that have not reached their port, or have not been acknowledged (R162). -/
theorem netBusy_iff (c : Copy) (acked : Bool) :
    s.netBusy c acked = true ↔ ∀ m, c.tmpl = some m → m.dstKind = 2 ∧ (acked = true ∨ offPort s c m) := by
  unfold netBusy
  cases tmpl : c.tmpl with
  | none => simp
  | some m => simp [offPort, or_assoc]

/-- A publish is complete exactly where nothing that it covers has been left (R165). -/
theorem published_iff (k scope : Nat) (st : BitVec 5) : s.published k scope st = true ↔ ¬ unpublished s k scope st := by
  have counts : ([1, 2, 3, 5].all fun sp => !coversSpace st sp || (sp == 3 && !aliasWaits scope) || (s.group k).pubCount.get sp 0 == 0) = true ↔
      ¬ ∃ sp ∈ [1, 2, 3, 5], coversSpace st sp = true ∧ (sp = 3 → 4 ≤ scope) ∧ (s.group k).pubCount.get sp 0 ≠ 0 := by
    rw [List.all_eq_true, not_exists]
    refine forall_congr' fun sp => ?_
    rw [not_and]
    refine imp_congr_right fun _ => ?_
    cases coversSpace st sp <;> by_cases three : sp = 3 <;> simp [three, aliasWaits, or_iff_not_imp_left]
  have copies : (!(decide (4 ≤ scope) && st.getLsbD 4 &&
        s.copies.any fun c => c.org.gkey == k && c.org.team == (s.group k).team && s.netBusy c (scope == 5))) = true ↔
      ¬ (4 ≤ scope ∧ st.getLsbD 4 = true ∧ ∃ c ∈ s.copies, c.org.gkey = k ∧ c.org.team = (s.group k).team ∧
        ∀ m, c.tmpl = some m → m.dstKind = 2 ∧ (scope = 5 ∨ offPort s c m)) := by
    rw [Bool.not_eq_true', ← Bool.not_eq_true]
    simp only [Bool.and_eq_true, decide_eq_true_eq, List.any_eq_true, netBusy_iff, beq_iff_eq, and_assoc]
  rw [published, unpublished, not_or, ← counts, ← copies, ← Bool.and_eq_true]

/-- What a publish that is complete leaves (R127, R181). -/
theorem publishEnd_leaves (k scope : Nat) (st : BitVec 5) :
    let t := s.publishEnd k scope st
    t.groups = s.groups ∧ t.cores = s.cores ∧ (¬ (scope = 5 ∧ st.getLsbD 4 = true) → t.mem = s.mem) ∧
      t.veils = if 2 ≤ scope ∧ st.getLsbD 1 = true then s.veils.filter (fun v => !(v.gkey == k && v.team == (s.group k).team)) else s.veils := by
  unfold publishEnd
  by_cases h : 2 ≤ scope ∧ st.getLsbD 1 = true
  · obtain ⟨groups, cores, veils, mem⟩ := (s.unveil k (s.group k).team).stationEnd_leaves k scope st
    rw [if_pos (by simpa using h), if_pos h]
    exact ⟨groups, cores, mem, veils⟩
  · obtain ⟨groups, cores, veils, mem⟩ := s.stationEnd_leaves k scope st
    rw [if_neg (by simpa using h), if_neg h]
    exact ⟨groups, cores, mem, veils⟩

/-- The lines that a refresh leaves (R162, R174). -/
theorem refresh_snap (ck : Nat) (st : BitVec 5) :
    ((s.refresh ck st).coreOf ck).snap = (s.coreOf ck).snap.filter (fun x => !coversSpace st x.space) :=
  congrArg Core.snap (coreOf_modCore (s.staleLines ck (fun p => coversSpace st p.space)) ck _)

/-- What a group's refresh leaves (R162, R174). -/
theorem refreshFor_leaves (k : Nat) (st : BitVec 5) :
    let t := s.refreshFor k st
    t.group k = { s.group k with busy := (s.group k).busy + 32 } ∧ (∀ j, j ≠ k → t.group j = s.group j) ∧
      (t.coreOf (s.group k).ckey).snap = (s.coreOf (s.group k).ckey).snap.filter (fun x => !coversSpace st x.space) ∧
      t.veils = s.veils ∧ t.mem = s.mem :=
  ⟨group_setGroup .., fun _ hj => group_setGroup_ne _ _ _ _ hj, refresh_snap .., rfl, rfl⟩

end State

/-- PUBLISH_COMPLETION. -/
theorem execPublishCompletion_event (s : State) {k scope : Nat} {st : BitVec 5} {refresh : Bool}
    (h : (s.group k).wait = .publish scope st refresh) :
    let shown := 2 ≤ scope ∧ st.getLsbD 1 = true
    (unpublished s k scope st → exec (.publishCompletion k) s = .next s) ∧
    (¬ unpublished s k scope st → ∃ t, exec (.publishCompletion k) s = .next t ∧ (∀ j, j ≠ k → t.group j = s.group j) ∧
      t.group k = { s.group k with wait := .ready, busy := if refresh then (s.group k).busy + 32 else (s.group k).busy } ∧
      (refresh = true → (t.coreOf (s.group k).ckey).snap = (s.coreOf (s.group k).ckey).snap.filter (fun x => !coversSpace st x.space)) ∧
      t.veils = (if shown then s.veils.filter (fun v => !(v.gkey == k && v.team == (s.group k).team)) else s.veils) ∧
      (¬ (scope = 5 ∧ st.getLsbD 4 = true) → t.mem = s.mem)) := by
  have ran : exec (.publishCompletion k) s = if !s.published k scope st then .next s
      else .next (if refresh then State.refreshFor ((s.setGroup k { s.group k with wait := .ready }).publishEnd k scope st) k st
        else (s.setGroup k { s.group k with wait := .ready }).publishEnd k scope st) := by
    change execPublishCompletion k s = _
    unfold execPublishCompletion
    dsimp only
    rw [h]
  refine ⟨fun left => ?_, fun done => ?_⟩
  · rw [ran, if_pos]
    rwa [Bool.not_eq_true', ← Bool.not_eq_true, s.published_iff, not_not]
  · rw [(s.published_iff k scope st).2 done] at ran
    have ready : (s.setGroup k { s.group k with wait := .ready }).group k = { s.group k with wait := .ready } := State.group_setGroup ..
    have rest (j : Nat) (hj : j ≠ k) : (s.setGroup k { s.group k with wait := .ready }).group j = s.group j := State.group_setGroup_ne _ _ _ _ hj
    have left := (s.setGroup k { s.group k with wait := .ready }).publishEnd_leaves k scope st
    rw [ready] at left
    generalize (s.setGroup k { s.group k with wait := .ready }).publishEnd k scope st = t at ran left
    obtain ⟨groups, cores, mem, veils⟩ := left
    have mine : t.group k = { s.group k with wait := .ready } := (State.group_of_groups groups k).trans ready
    have others (j : Nat) (hj : j ≠ k) : t.group j = s.group j := (State.group_of_groups groups j).trans (rest j hj)
    cases refresh
    · exact ⟨t, ran, others, mine, fun no => (nomatch no), veils, mem⟩
    · obtain ⟨mine', others', snap, veils', mem'⟩ := t.refreshFor_leaves k st
      rw [mine] at mine' snap
      refine ⟨_, ran, fun j hj => (others' j hj).trans (others j hj), mine', fun _ => snap.trans ?_, veils'.trans veils, fun h => mem'.trans (mem h)⟩
      exact congrArg (fun c : Core => c.snap.filter _) (State.coreOf_of_cores cores (s.group k).ckey)

end Sys2Proof.Machine
end

section
/-! SUPPORT. Fence points, GROW and SHRINK, and the rejoin as events (R38, R84 to R87, R175). -/

namespace Sys2Proof.Table

/-- The records that a filter of their numbers keeps. -/
theorem get_filter {α : Type} (p : Nat → Bool) (t : Table α) (k : Nat) (d : α) :
    Table.get (t.filter (fun e => p e.1)) k d = if p k then Table.get t k d else d := by
  induction t with
  | nil => rw [List.filter_nil]; exact (ite_self d).symm
  | cons e r ih =>
    obtain ⟨j, x⟩ := e
    rw [List.filter_cons]
    by_cases kept : p j = true
    · rw [if_pos kept]
      by_cases same : j = k
      · subst same
        rw [if_pos kept]
        simp [Table.get]
      · simp only [Table.get, if_neg same]
        exact ih
    · rw [if_neg kept, ih]
      by_cases same : j = k
      · subst same
        rw [if_neg kept, if_neg kept]
      · simp only [Table.get, if_neg same]

end Sys2Proof.Table

namespace Sys2Proof.Machine

open Sys2Proof

namespace State

variable (s : State)

theorem checkGrow_sends (ck : Nat) : Sends s (s.checkGrow ck) := Sends.ite (.refl s) (s.post_sends _)

/-- A fence point has nothing left where its requests, loads and operations are done (R175). -/
theorem pointDone_of {g : Group} {f : FencePoint}
    (reqs : ∀ u ∈ f.reqs, (∀ r ∈ s.reqs, r.uid = u → r.pending = false) ∧ (∀ a ∈ s.aliases, a.uid ≠ u) ∧ s.storedAck u = false)
    (loads : ∀ u ∈ f.loads, ∀ l ∈ s.loads, l.uid ≠ u)
    (ops : ∀ h ∈ f.ops, ((s.teamOf g.team).ops.get (h.toNat % 128) {}).handle = h →
      ((s.teamOf g.team).ops.get (h.toNat % 128) {}).pending = false) : s.pointDone g f = true := by
  have reqs' : f.reqs.all (fun u => !s.reqs.any (fun r => r.uid == u && r.pending) && !s.aliases.any (fun a => a.uid == u) && !s.storedAck u) = true := by
    rw [List.all_eq_true]
    intro u hu
    obtain ⟨done, answered, stored⟩ := reqs u hu
    have noReq : s.reqs.any (fun r => r.uid == u && r.pending) = false := by
      rw [List.any_eq_false]
      intro r hr both
      rw [Bool.and_eq_true, beq_iff_eq] at both
      rw [done r hr both.1] at both
      exact absurd both.2 Bool.false_ne_true
    have noAlias : s.aliases.any (fun a => a.uid == u) = false := by
      rw [List.any_eq_false]
      intro a ha
      simpa using answered a ha
    rw [noReq, noAlias, stored]
    rfl
  have loads' : f.loads.all (fun u => !s.loads.any (fun l => l.uid == u)) = true := by
    simpa using loads
  have ops' : (f.ops.all fun h => !(((s.teamOf g.team).ops.get (h.toNat % 128) {}).handle == h && ((s.teamOf g.team).ops.get (h.toNat % 128) {}).pending)) = true := by
    rw [List.all_eq_true]
    intro h hh
    rw [Bool.not_eq_true', Bool.and_eq_false_imp, beq_iff_eq]
    exact ops h hh
  rw [pointDone, reqs', loads', Bool.true_and]
  exact ops'

end State

/-- FENCE_POINT_SATISFIED. -/
theorem execFencePointSatisfied_event (s : State) {k i : Nat} {f : FencePoint} (point : (s.group k).fences[i]? = some f)
    (done : s.pointDone (s.group k) f = true) :
    ∃ t, exec (.fencePointSatisfied k i) s = .next t ∧ (∀ j, j ≠ k → t.group j = s.group j) ∧ t.veils = s.veils ∧
      t.group k = { s.group k with fences := (s.group k).fences.eraseIdx i } ∧
      (f.later.getLsbD 0 = true →
        (t.coreOf (s.group k).ckey).snap = (s.coreOf (s.group k).ckey).snap.filter (fun x => !coversSpace f.storage x.space)) ∧
      (¬ (f.scope = 5 ∧ f.storage.getLsbD 4 = true) → t.mem = s.mem) := by
  have mine : (s.setGroup k { s.group k with fences := (s.group k).fences.eraseIdx i }).group k =
      { s.group k with fences := (s.group k).fences.eraseIdx i } := State.group_setGroup ..
  have others (j : Nat) (hj : j ≠ k) := s.group_setGroup_ne k j { s.group k with fences := (s.group k).fences.eraseIdx i } hj
  have ran : exec (.fencePointSatisfied k i) s = .next
      (let t := (s.setGroup k { s.group k with fences := (s.group k).fences.eraseIdx i }).stationEnd k f.scope f.storage
        if f.later.getLsbD 0 then t.refresh (s.group k).ckey f.storage else t) := by
    change execFencePointSatisfied k i s = _
    unfold execFencePointSatisfied
    dsimp only
    rw [point]
    dsimp only
    rw [done]
    rfl
  dsimp only at ran
  have left := (s.setGroup k { s.group k with fences := (s.group k).fences.eraseIdx i }).stationEnd_leaves k f.scope f.storage
  generalize (s.setGroup k { s.group k with fences := (s.group k).fences.eraseIdx i }).stationEnd k f.scope f.storage = t at ran left
  obtain ⟨groups, cores, veils, mem⟩ := left
  have group (j : Nat) := State.group_of_groups groups j
  split at ran
  · refine ⟨_, ran, fun j hj => (group j).trans (others j hj), veils, (group k).trans mine, fun _ => ?_, mem⟩
    rw [State.refresh_snap, State.coreOf_of_cores cores]
    rfl
  · rename_i keep
    exact ⟨_, ran, fun j hj => (group j).trans (others j hj), veils, (group k).trans mine, fun h => absurd h keep, mem⟩

/-! ### GROW and SHRINK (R84 to R87) -/

theorem Group.vr_zeroRegs (g : Group) (lo n r : Nat) {l : Nat} (hl : l < 64) :
    (State.zeroRegs g lo n).vr r l = if lo ≤ r ∧ r < lo + n then 0 else g.vr r l := by
  have read := Table.get_filter (fun x => !(decide (64 * lo ≤ x) && decide (x < 64 * (lo + n)))) g.v (64 * r + l) (0 : Word)
  refine read.trans ?_
  by_cases h : lo ≤ r ∧ r < lo + n
  · rw [if_pos h, if_neg (by simp; omega)]
  · rw [if_neg h, if_pos (by simp; omega)]
    rfl

/-- GROW_GRANT of the one waiting GROW of a core, which fits. -/
theorem execGrowGrant_event (s : State) {k n ck : Nat} (waits : (s.group k).wait = .grow n) (queue : (s.coreOf ck).growQ = [k])
    (room : s.lanesFree (s.group k) n = true) :
    let g := s.group k
    ∃ t, exec (.growGrant ck) s = .next t ∧ (∀ j, j ≠ k → t.group j = s.group j) ∧ t.mem = s.mem ∧ (t.coreOf ck).growQ = [] ∧
      t.group k = { g with v := (t.group k).v, allot := g.allot + n, latValid := 0, wait := .ready, offset := g.offset + 1 } ∧
      ∀ r l, l < 64 → (t.group k).vr r l = if g.allot ≤ r ∧ r < g.allot + n then 0 else g.vr r l := by
  intro g
  have ran : exec (.growGrant ck) s = .next
      (((s.doGrow k n).modGroup k (fun g => g.advance 1)).modCore ck (fun c => { c with growQ := [] })) := by
    change execGrowGrant ck s = _
    unfold execGrowGrant
    rw [queue, List.foldl_cons, List.foldl_nil]
    dsimp only
    rw [waits]
    dsimp only
    rw [room]
    rfl
  have mine : (((s.doGrow k n).modGroup k (fun g => g.advance 1)).modCore ck (fun c => { c with growQ := [] })).group k =
      ({ State.zeroRegs g g.allot n with allot := g.allot + n, latValid := 0, wait := .ready } : Group).advance 1 := by
    refine (State.group_setGroup ..).trans (congrArg (fun g : Group => g.advance 1) ?_)
    exact State.group_setGroup ..
  refine ⟨_, ran, fun j hj => ?_, rfl, ?_, ?_, fun r l hl => ?_⟩
  · exact (State.group_setGroup_ne _ _ _ _ hj).trans (State.group_setGroup_ne _ _ _ _ hj)
  · exact congrArg Core.growQ (State.coreOf_modCore ..)
  · rw [mine]
    rfl
  · rw [mine]
    exact g.vr_zeroRegs g.allot n r hl

/-- SHRINK_RELEASE. -/
theorem execShrinkRelease_event (s : State) {k n : Nat} (waits : (s.group k).wait = .shrink n) :
    let g := s.group k
    (s.loadInto k (g.allot - n) g.allot = true → exec (.shrinkRelease k) s = .next s) ∧
    (s.loadInto k (g.allot - n) g.allot = false → ∃ t, exec (.shrinkRelease k) s = .next t ∧ (∀ j, j ≠ k → t.group j = s.group j) ∧
      t.mem = s.mem ∧ t.group k = { g with allot := g.allot - n, wait := .ready, offset := g.offset + 1 }) := by
  intro g
  have ran : exec (.shrinkRelease k) s = if s.loadInto k (g.allot - n) g.allot then .next s else .next
      (((s.setGroup k { g with allot := g.allot - n, wait := .ready, offset := g.offset + 1 }).checkGrow g.ckey).kickPlace g.fkey) := by
    change execShrinkRelease k s = _
    unfold execShrinkRelease
    dsimp only
    rw [waits]
  refine ⟨fun busy => ?_, fun free => ?_⟩
  · rw [ran, if_pos busy]
  · rw [free] at ran
    have kicked := ((s.setGroup k { g with allot := g.allot - n, wait := .ready, offset := g.offset + 1 }).checkGrow_sends g.ckey).trans
      (State.kickPlace_sends _ g.fkey)
    exact ⟨_, ran, fun j hj => (kicked.group j).trans (State.group_setGroup_ne _ _ _ _ hj), kicked.mem, (kicked.group k).trans (State.group_setGroup ..)⟩

/-! ### The rejoin (R38) -/

/-- Latch elements taken over from a park, for some lanes. -/
def mergeLatches (lanes : List Nat) (from_ lat : Table Word) : Table Word :=
  (List.range 4).foldl (fun t k => lanes.foldl (fun t l => t.set (64 * k + l) (from_.get (64 * k + l) 0)) t) lat

/-- One latch taken over leaves the latch elements of the park in the lanes named, and the others as they stood. -/
theorem get_mergeLatch (lanes : List Nat) (from_ lat : Table Word) (k : Nat) {j l : Nat} (bound : ∀ x ∈ lanes, x < 64) (hl : l < 64) :
    Table.get (lanes.foldl (fun t l => Table.set t (64 * k + l) (from_.get (64 * k + l) 0)) lat) (64 * j + l) 0 =
      if j = k ∧ l ∈ lanes then from_.get (64 * j + l) 0 else lat.get (64 * j + l) 0 := by
  by_cases h : j = k ∧ l ∈ lanes
  · obtain ⟨rfl, mem⟩ := h
    rw [if_pos ⟨rfl, mem⟩]
    exact Table.get_foldl_set lanes (fun l => 64 * j + l) (fun l => from_.get (64 * j + l) 0) lat l 0 mem (fun x _ y _ e => by omega)
  · rw [if_neg h]
    refine Table.get_foldl_set_ne lanes (fun l => 64 * k + l) _ lat _ 0 (fun x hx e => h ?_)
    have := bound x hx
    obtain rfl : x = l := by omega
    exact ⟨by omega, hx⟩

theorem get_mergeLatches (lanes : List Nat) (from_ lat : Table Word) {j l : Nat} (bound : ∀ x ∈ lanes, x < 64) (hj : j < 4) (hl : l < 64) :
    Table.get (mergeLatches lanes from_ lat) (64 * j + l) 0 = if l ∈ lanes then from_.get (64 * j + l) 0 else lat.get (64 * j + l) 0 := by
  have four : List.range 4 = [0, 1, 2, 3] := rfl
  simp only [mergeLatches, four, List.foldl_cons, List.foldl_nil, get_mergeLatch _ _ _ _ bound hl]
  by_cases mem : l ∈ lanes
  · obtain rfl | rfl | rfl | rfl : j = 0 ∨ j = 1 ∨ j = 2 ∨ j = 3 := by omega
    all_goals simp [mem]
  · simp [mem]

/-- The group that its replay begins with, for the lanes whose pages came. -/
def Group.rejoined (g : Group) (rest : DWord) : Group :=
  { g with
    wait := .ready, failedPages := [], parkedOn := [], parked := 0
    lat := mergeLatches (lanesOf rest) g.parkLat g.lat
    latValid := g.parkLatValid, parkLat := [], shifts := [], latCut := false
    replays := ⟨rest, g.rejoinAt, g.latValid, g.shifts, g.latCut⟩ :: g.replays
    offset := if rest = 0 then g.rejoinAt else g.parkOffset }

/-- The issue that a parked lane whose page did not come faults with. -/
def Group.failedIssue (g : Group) (p : ParkedLane) : Issue :=
  { word := p.word, planes := p.planes, here := g.parkOffset, mask := laneBit p.lane, run := g.replays.length }

theorem Group.accessFault_recs (g : Group) (i : Issue) (lane kind addr : Nat) :
    (g.accessFault i false lane kind addr).recs =
      g.recs ++ [(16 * lane, 16, State.laneRecord kind (i.word.toNat / 2 ^ 25) lane (g.plane.get lane 0).toNat i.here.toNat addr)] ∧
      (g.accessFault i false lane kind addr).faults.isSome = true := by
  unfold Group.accessFault Group.noteFault
  dsimp only
  split <;> exact ⟨rfl, rfl⟩

/-- The kind and the address of a record. -/
theorem laneRecord_fields (w : Word) {kind lane : Nat} (hk : kind < 256) (hl : lane < 256) (plane : BitVec 3) (off : Off) (addr : Nat) :
    let r := State.laneRecord kind (w.toNat / 2 ^ 25) lane plane.toNat off.toNat addr
    r / 2 ^ 24 % 2 ^ 8 = kind ∧ r / 2 ^ 64 = addr := by
  have op := w.isLt
  have pl := plane.isLt
  have of := off.isLt
  unfold State.laneRecord
  dsimp only
  constructor <;> omega

theorem execRejoinReplay_eq (s : State) {k : Nat} (waits : (s.group k).wait = .rejoin) (pages : (s.group k).waitPages = []) :
    let g := s.group k
    let bad := g.parkedOn.filter (fun p => g.failedPages.contains (p.fkey, p.page))
    exec (.rejoinReplay k) s = .next { bad.foldl (fun s p => State.laneFault { s with iss := g.failedIssue p } p.lane 8 p.va)
      (({ s with cur := k } : State).setG (g.rejoined (g.parked &&& ~~~(maskOf (bad.map (fun p => p.lane)))))) with iss := {} } := by
  change execRejoinReplay k s = _
  unfold execRejoinReplay
  dsimp only
  rw [if_neg (by rw [waits, pages]; decide)]
  rfl

theorem and_not_noLanes (m : DWord) : m &&& ~~~(maskOf []) = m := by
  change m &&& ~~~(0#64) = m
  rw [BitVec.not_zero, BitVec.and_allOnes]

/-- REJOIN_REPLAY of a group whose pages all came. -/
theorem execRejoinReplay_event (s : State) {k : Nat} (waits : (s.group k).wait = .rejoin) (pages : (s.group k).waitPages = [])
    (came : (s.group k).failedPages = []) :
    ∃ t, exec (.rejoinReplay k) s = .next t ∧ (∀ j, j ≠ k → t.group j = s.group j) ∧ t.mem = s.mem ∧
      t.group k = (s.group k).rejoined (s.group k).parked := by
  have ran := execRejoinReplay_eq s waits pages
  have none : (s.group k).parkedOn.filter (fun p => (s.group k).failedPages.contains (p.fkey, p.page)) = [] := by
    rw [came]
    exact List.filter_eq_nil_iff.2 (fun p _ => Bool.false_ne_true)
  dsimp only at ran
  rw [none] at ran
  have all : (s.group k).parked &&& ~~~(maskOf (([] : List ParkedLane).map (fun p => p.lane))) = (s.group k).parked := and_not_noLanes _
  rw [all] at ran
  exact ⟨_, ran, fun j hj => State.group_setGroup_ne _ _ _ _ hj, rfl, State.group_setGroup ..⟩

/-- REJOIN_REPLAY of the one parked lane of a group, whose page did not come. -/
theorem execRejoinReplay_failed (s : State) {k : Nat} {p : ParkedLane} (waits : (s.group k).wait = .rejoin)
    (pages : (s.group k).waitPages = []) (lane : (s.group k).parkedOn = [p]) (failed : (p.fkey, p.page) ∈ (s.group k).failedPages)
    (hl : p.lane < 64) :
    ∃ t r, exec (.rejoinReplay k) s = .next t ∧ (t.group k).recs = (s.group k).recs ++ [(16 * p.lane, 16, r)] ∧
      r / 2 ^ 24 % 2 ^ 8 = 8 ∧ r / 2 ^ 64 = p.va ∧ (t.group k).faults.isSome = true := by
  have ran := execRejoinReplay_eq s waits pages
  have one : (s.group k).parkedOn.filter (fun p => (s.group k).failedPages.contains (p.fkey, p.page)) = [p] := by
    rw [lane, List.filter_cons, if_pos (by simpa using failed), List.filter_nil]
  dsimp only at ran
  rw [one, List.foldl_cons, List.foldl_nil] at ran
  generalize (s.group k).parked &&& ~~~(maskOf ([p].map (fun p => p.lane))) = rest at ran
  obtain ⟨recs, faults⟩ := ((s.group k).rejoined rest).accessFault_recs { (s.group k).failedIssue p with seq := s.nextUid } p.lane 8 p.va
  obtain ⟨kind, addr⟩ := laneRecord_fields p.word (kind := 8) (lane := p.lane) (by omega) (by omega) (((s.group k).rejoined rest).plane.get p.lane 0)
    (s.group k).parkOffset p.va
  have mine := State.g_modG { ({ s with cur := k } : State).setG ((s.group k).rejoined rest) with iss := (s.group k).failedIssue p }
    (fun g => g.accessFault { (s.group k).failedIssue p with seq := s.nextUid } false p.lane 8 p.va)
  have mid : State.g { ({ s with cur := k } : State).setG ((s.group k).rejoined rest) with iss := (s.group k).failedIssue p } =
      (s.group k).rejoined rest := State.g_setG _ _
  rw [mid] at mine
  exact ⟨_, _, ran, (congrArg Group.recs mine).trans recs, kind, addr, (congrArg (fun g : Group => g.faults.isSome) mine).trans faults⟩

end Sys2Proof.Machine
end

section
/-! SUPPORT. The full/empty service (R138 to R140), and what ends a group's wait. -/

namespace Sys2Proof.Machine

open Sys2Proof

namespace Empties

theorem mem_insert (e : List Nat) (w x : Nat) : x ∈ insert e w ↔ x = w ∨ x ∈ e := by
  induction e with
  | nil => simp [insert]
  | cons k r ih =>
    rw [insert]
    split
    · simp only [List.mem_cons, ih]
      exact or_left_comm
    · split
      · rename_i same
        subst same
        simp
      · simp

theorem mem_drain (e : List Nat) (lo n x : Nat) : x ∈ drain e lo n ↔ x ∈ e ∨ lo ≤ x ∧ x < lo + n := by
  induction n generalizing e lo with
  | zero => rw [drain]; exact ⟨.inl, fun h => h.resolve_right (by omega)⟩
  | succ k ih =>
    rw [drain, ih, mem_insert]
    by_cases h : x ∈ e
    · simp [h]
    · simp only [h, or_false, false_or]
      omega

theorem mem_fill (e : List Nat) (lo hi x : Nat) : x ∈ fill e lo hi ↔ x ∈ e ∧ (x < lo ∨ hi ≤ x) := by
  rw [fill, List.mem_filter]
  refine and_congr_right fun _ => ?_
  simp only [Bool.not_eq_true', Bool.and_eq_false_iff, decide_eq_false_iff_not, Nat.not_le, Nat.not_lt]

end Empties

/-- A group whose waiting lanes have all been served. -/
def Group.feDone (g : Group) : Group := { g with wait := .ready, served := 0 }

namespace State

variable {s : State}

theorem coveredAre_iff (full : Bool) (loc n : Nat) : s.coveredAre full loc n = true ↔
    ∀ x, loc / 4 ≤ x → x < (loc + n + 3) / 4 → s.empties.contains x ≠ full := by
  rw [coveredAre, List.all_eq_true]
  constructor
  · intro h x lo hi
    have at_ := h (x - loc / 4) (List.mem_range.2 (by omega))
    rw [show loc / 4 + (x - loc / 4) = x by omega] at at_
    simpa using at_
  · intro h i hi
    rw [List.mem_range] at hi
    simpa using h (loc / 4 + i) (by omega) (by omega)

/-- A waiting lane that is served stands in no queue any more, and its group knows it. -/
def feTaken (s : State) (w : FeWait) : State :=
  ({ s with feWaits := s.feWaits.filter (fun x => x != w) }).modGroup w.gkey (fun g => { g with served := g.served ||| laneBit w.lane })

theorem serveOne_stle {w : FeWait} (kind : w.kind = .stle) (empty : s.coveredAre false w.loc w.n = true) :
    s.serveOne w = ((s.feTaken w).storeNat w.loc 0 w.n w.data.toNat).setFull w.loc w.n := by
  unfold serveOne
  dsimp only
  rw [kind, empty]
  rfl

/-- The load of a served LDLP or LDLF. -/
def feLoad (s : State) (w : FeWait) : Load where
  uid := s.nextUid
  gkey := w.gkey
  team := w.team
  die := (s.group w.gkey).die
  core := (s.group w.gkey).core
  fn := (s.group w.gkey).fn
  n := w.n
  mode := w.mode
  scalar := w.scalar
  dst := w.dst
  parts := [{ lane := w.lane, space := 0, loc := w.loc, value := some (extendValue w.mode w.n (s.natAt w.loc w.n)), expo := none }]

theorem serveOne_ldlp {w : FeWait} (kind : w.kind = .ldlp) (full : s.coveredAre true w.loc w.n = true) :
    s.serveOne w = ({ s.feTaken w with nextUid := s.nextUid + 1, loads := s.loads ++ [(s.feTaken w).feLoad w] }).post (.loadDataReturn s.nextUid) := by
  unfold serveOne
  dsimp only
  rw [kind]
  dsimp only
  rw [full]
  rfl

theorem serveOne_ldlf {w : FeWait} (kind : w.kind = .ldlf) (full : s.coveredAre true w.loc w.n = true) :
    s.serveOne w = ({ (s.feTaken w).setEmpty w.loc w.n with
      nextUid := s.nextUid + 1, loads := s.loads ++ [(s.feTaken w).feLoad w] }).post (.loadDataReturn s.nextUid) := by
  unfold serveOne
  dsimp only
  rw [kind]
  dsimp only
  rw [full]
  rfl

/-- One waiting lane, served at once. -/
theorem serveAll_one {w : FeWait} (queue : s.feWaits = [w]) (served : (s.serveOne w).feWaits = []) :
    s.serveAll (s.group w.gkey).ckey (s.feWaits.length + 1) = s.serveOne w := by
  have pass : s.servePass (s.group w.gkey).ckey [w] [] = s.serveOne w := by
    unfold servePass
    dsimp only
    rw [if_neg (by simp)]
    split <;> rfl
  have again : (s.serveOne w).serveAll (s.group w.gkey).ckey 1 = s.serveOne w := by
    unfold serveAll
    dsimp only
    rw [served]
    exact if_pos (congrArg List.length served)
  rw [queue, List.length_singleton, serveAll]
  rw [queue, pass, served]
  exact (if_neg Nat.zero_ne_one).trans again

/-- The step of `releaseFe` for one entry of the groups' table. -/
def releaseOne (s : State) (p : Nat × Group) : State :=
  if p.2.wait = .fullEmpty && !s.feWaits.any (fun w => w.gkey == p.1) then s.setGroup p.1 (s.group p.1).feDone else s

theorem releaseFe_eq : s.releaseFe = s.groups.foldl releaseOne s := rfl

theorem releaseOne_frame (p : Nat × Group) : ∃ gs, s.releaseOne p = { s with groups := gs } := by
  unfold releaseOne
  split <;> exact ⟨_, rfl⟩

theorem releaseFe_frame : ∃ gs, s.releaseFe = { s with groups := gs } :=
  foldl_rel (R := fun s t : State => ∃ gs, t = { s with groups := gs }) (fun _ => ⟨_, rfl⟩)
    (fun ⟨_, h⟩ ⟨gs, h'⟩ => ⟨gs, by rw [h', h]⟩) releaseOne s.groups (fun t p _ => t.releaseOne_frame p) s

theorem releaseOne_group (p : Nat × Group) (k : Nat) :
    (s.releaseOne p).group k = s.group k ∨ (s.releaseOne p).group k = (s.group k).feDone := by
  unfold releaseOne
  split
  · by_cases e : k = p.1
    · subst e
      exact .inr (group_setGroup ..)
    · exact .inl (group_setGroup_ne _ _ _ _ e)
  · exact .inl rfl

/-- A group that waits stands in the table of groups. -/
theorem exists_entry {k : Nat} (h : (s.group k).wait = .fullEmpty) : ∃ x, (k, x) ∈ s.groups ∧ x.wait = .fullEmpty := by
  unfold group at h
  generalize s.groups = t at h ⊢
  induction t with
  | nil => cases h
  | cons e r ih =>
    obtain ⟨j, x⟩ := e
    unfold Table.get at h
    split at h
    · rename_i same
      subst same
      exact ⟨x, List.mem_cons_self .., h⟩
    · obtain ⟨y, mem, wait⟩ := ih h
      exact ⟨y, List.mem_cons_of_mem _ mem, wait⟩

theorem releaseFe_group {k : Nat} (h : (s.group k).wait = .fullEmpty) (served : s.feWaits = []) :
    s.releaseFe.group k = (s.group k).feDone := by
  obtain ⟨x, entry, waits⟩ := exists_entry h
  have keep (t : State) (p : Nat × Group) : t.feWaits = [] → (t.releaseOne p).feWaits = [] := by
    obtain ⟨gs, e⟩ := t.releaseOne_frame p
    rw [e]
    exact id
  rw [releaseFe_eq]
  refine foldl_reaches (I := fun t => t.feWaits = [] ∧ (t.group k = s.group k ∨ t.group k = (s.group k).feDone))
    (P := fun t => t.group k = (s.group k).feDone) releaseOne s.groups entry
    (fun t p _ _ ⟨queue, mine⟩ => ⟨keep t p queue, ?_⟩) (fun t ⟨queue, mine⟩ => ?_) (fun t p _ done => ?_) ⟨served, .inl rfl⟩
  · rcases t.releaseOne_group p k with e | e <;> rcases mine with m | m <;> rw [e, m]
    · exact .inl rfl
    · exact .inr rfl
    · exact .inr rfl
    · exact .inr rfl
  · have set : t.releaseOne (k, x) = t.setGroup k (t.group k).feDone := if_pos (by rw [queue, waits]; rfl)
    rw [set, group_setGroup]
    rcases mine with m | m <;> rw [m]
    rfl
  · rcases t.releaseOne_group p k with e | e <;> rw [e, done]
    rfl

end State

theorem hostLoc_le {loc : Nat} (beyond : tableLoc (2 ^ 48) ≤ loc) : hostLoc 0 ≤ loc := by
  unfold tableLoc at beyond
  unfold hostLoc
  omega

namespace State

variable {s : State} {w : FeWait}

/-- The one waiting lane of a core is served: it stands in no queue, its group goes on, and the rest is as the service left it. -/
theorem fullEmptyService_one {t : State} (queue : s.feWaits = [w]) (waits : (s.group w.gkey).wait = .fullEmpty) (ran : s.serveOne w = t)
    (groups : t.groups = (s.feTaken w).groups) (empty : t.feWaits = []) :
    ∃ gs, exec (.fullEmptyService (s.group w.gkey).ckey) s = .next { t with groups := gs } ∧
      State.group { t with groups := gs } w.gkey = { s.group w.gkey with wait := .ready, served := 0 } := by
  have served : (s.serveOne w).feWaits = [] := by rw [ran, empty]
  have step : exec (.fullEmptyService (s.group w.gkey).ckey) s = .next t.releaseFe := by
    change Host.Outcome.next (s.serveAll (s.group w.gkey).ckey (s.feWaits.length + 1)).releaseFe = _
    rw [serveAll_one queue served, ran]
  have mine : t.group w.gkey = { s.group w.gkey with served := (s.group w.gkey).served ||| laneBit w.lane } := by
    rw [group_of_groups groups]
    exact group_setGroup ..
  have done := t.releaseFe_group (k := w.gkey) (by rw [mine]; exact waits) empty
  obtain ⟨gs, e⟩ := t.releaseFe_frame
  rw [mine] at done
  rw [e] at done step
  exact ⟨gs, step, done⟩

theorem feTaken_queue (queue : s.feWaits = [w]) : (s.feTaken w).feWaits = [] := by
  change s.feWaits.filter (fun x => x != w) = []
  rw [queue]
  simp

/-- A number stored beyond die memory and the host's leaves the other bytes as they stood. -/
theorem byteAt_storeNat_out {loc n v x : Nat} (s : State) (beyond : tableLoc (2 ^ 48) ≤ loc) (hx : x < loc ∨ loc + n ≤ x) :
    (s.storeNat loc 0 n v).byteAt x = s.byteAt x :=
  (s.storeBytes_beyond 0 _ (hostLoc_le beyond) x).trans (byteAt_putBytes_out _ _ _ (by rw [length_bytesOf]; exact hx))

theorem byteAt_storeNat_in {loc n v i : Nat} (s : State) (inv : Inv s) (beyond : tableLoc (2 ^ 48) ≤ loc) (hi : i < n) :
    (s.storeNat loc 0 n v).byteAt (loc + i) = BitVec.ofNat 8 (v / 256 ^ i) := by
  refine (s.storeBytes_beyond 0 _ (hostLoc_le beyond) _).trans ?_
  rw [byteAt_putBytes_in _ inv _ _ (by rw [length_bytesOf]; exact hi) beyond]
  exact getD_bytesOf _ hi

/-- The load of a lane that has been taken from its queue is one of its group. -/
theorem feLoad_feTaken : (s.feTaken w).feLoad w = s.feLoad w := by
  have mine : (s.feTaken w).group w.gkey = { s.group w.gkey with served := (s.group w.gkey).served ||| laneBit w.lane } := group_setGroup ..
  unfold feLoad
  rw [mine]
  rfl

end State

/-- FULL_EMPTY_SERVICE of an LDLP whose words are full. -/
theorem execFullEmptyService_ldlp {s : State} {w : FeWait} (queue : s.feWaits = [w]) (waits : (s.group w.gkey).wait = .fullEmpty)
    (kind : w.kind = .ldlp) (full : ∀ x, w.loc / 4 ≤ x → x < (w.loc + w.n + 3) / 4 → x ∉ s.empties) :
    ∃ t, exec (.fullEmptyService (s.group w.gkey).ckey) s = .next t ∧
      (t.feWaits = [] ∧ t.group w.gkey = { s.group w.gkey with wait := .ready, served := 0 }) ∧
      t.loads = s.loads ++ [s.feLoad w] ∧ t.mem = s.mem ∧ t.empties = s.empties := by
  have ready : s.coveredAre true w.loc w.n = true := (State.coveredAre_iff ..).2 (fun x lo hi => by simpa using full x lo hi)
  obtain ⟨gs, ran, mine⟩ := State.fullEmptyService_one queue waits (State.serveOne_ldlp kind ready) rfl (State.feTaken_queue queue)
  exact ⟨_, ran, ⟨State.feTaken_queue queue, mine⟩, congrArg (s.loads ++ [·]) State.feLoad_feTaken, rfl, rfl⟩

/-- FULL_EMPTY_SERVICE of an LDLF whose words are full: they are empty afterwards. -/
theorem execFullEmptyService_ldlf {s : State} {w : FeWait} (queue : s.feWaits = [w]) (waits : (s.group w.gkey).wait = .fullEmpty)
    (kind : w.kind = .ldlf) (full : ∀ x, w.loc / 4 ≤ x → x < (w.loc + w.n + 3) / 4 → x ∉ s.empties) :
    ∃ t, exec (.fullEmptyService (s.group w.gkey).ckey) s = .next t ∧
      (t.feWaits = [] ∧ t.group w.gkey = { s.group w.gkey with wait := .ready, served := 0 }) ∧
      t.loads = s.loads ++ [s.feLoad w] ∧ t.mem = s.mem ∧
      ∀ x, x ∈ t.empties ↔ x ∈ s.empties ∨ w.loc / 4 ≤ x ∧ x < (w.loc + w.n + 3) / 4 := by
  have ready : s.coveredAre true w.loc w.n = true := (State.coveredAre_iff ..).2 (fun x lo hi => by simpa using full x lo hi)
  obtain ⟨gs, ran, mine⟩ := State.fullEmptyService_one queue waits (State.serveOne_ldlf kind ready) rfl (State.feTaken_queue queue)
  refine ⟨_, ran, ⟨State.feTaken_queue queue, mine⟩, congrArg (s.loads ++ [·]) State.feLoad_feTaken, rfl, fun x => ?_⟩
  refine (Empties.mem_drain s.empties _ _ x).trans (or_congr_right (and_congr_right fun _ => ?_))
  omega

/-- FULL_EMPTY_SERVICE of an STLE whose words are empty: its bytes stand there, and the words are full. -/
theorem execFullEmptyService_stle {s : State} {w : FeWait} (queue : s.feWaits = [w]) (waits : (s.group w.gkey).wait = .fullEmpty)
    (kind : w.kind = .stle) (empty : ∀ x, w.loc / 4 ≤ x → x < (w.loc + w.n + 3) / 4 → x ∈ s.empties) (beyond : tableLoc (2 ^ 48) ≤ w.loc) :
    ∃ t, exec (.fullEmptyService (s.group w.gkey).ckey) s = .next t ∧
      (t.feWaits = [] ∧ t.group w.gkey = { s.group w.gkey with wait := .ready, served := 0 }) ∧ t.loads = s.loads ∧
      (∀ x, x < w.loc ∨ w.loc + w.n ≤ x → t.byteAt x = s.byteAt x) ∧
      (Inv s → ∀ i, i < w.n → t.byteAt (w.loc + i) = BitVec.ofNat 8 (w.data.toNat / 256 ^ i)) ∧
      ∀ x, x ∈ t.empties ↔ x ∈ s.empties ∧ (x < w.loc / 4 ∨ (w.loc + w.n + 3) / 4 ≤ x) := by
  have ready : s.coveredAre false w.loc w.n = true := (State.coveredAre_iff ..).2 (fun x lo hi => by simpa using empty x lo hi)
  have out (x : Nat) (hx : x < w.loc ∨ w.loc + w.n ≤ x) := (s.feTaken w).byteAt_storeNat_out (v := w.data.toNat) beyond hx
  have in_ (inv : Inv s) (i : Nat) (hi : i < w.n) := (s.feTaken w).byteAt_storeNat_in inv (v := w.data.toNat) beyond hi
  obtain ⟨m, b, tags, veils, stored⟩ := (s.feTaken w).storeBytes_frame w.loc 0 (bytesOf w.n w.data.toNat)
  have ran := State.serveOne_stle kind ready
  rw [State.storeNat] at ran out in_
  generalize (s.feTaken w).storeBytes w.loc 0 (bytesOf w.n w.data.toNat) = u at ran out in_ stored
  have groups : u.groups = (s.feTaken w).groups := by rw [stored]
  have waiting : u.feWaits = [] := by rw [stored]; exact State.feTaken_queue queue
  have loads : u.loads = s.loads := by rw [stored]; rfl
  have empties : u.empties = s.empties := by rw [stored]; rfl
  obtain ⟨gs, ran, mine⟩ := State.fullEmptyService_one queue waits ran groups waiting
  refine ⟨_, ran, ⟨waiting, mine⟩, loads, out, in_, fun x => ?_⟩
  rw [← empties]
  exact Empties.mem_fill u.empties _ _ x

/-- Settles O53: each event by the equation of its executor. -/
theorem groupEvents : Obligations.GroupEvents := by
  intro s k g others
  refine ⟨?_, ?_, ?_, ?_, ?_, ?_, ?_⟩
  · exact fun loc slot thr e waits he => execWaitc_events s waits he
  · exact fun scope st refresh waits => execPublishCompletion_event s waits
  · exact fun i f point reqs loads ops => execFencePointSatisfied_event s point (s.pointDone_of reqs loads ops)
  · exact fun n ck waits queue room => execGrowGrant_event s waits queue room
  · exact fun n waits => execShrinkRelease_event s waits
  · refine fun waits pages => ⟨fun came => ?_, fun p lane failed hl => execRejoinReplay_failed s waits pages lane failed hl⟩
    obtain ⟨t, ran, rest, mem, mine⟩ := execRejoinReplay_event s waits pages came
    refine ⟨t, ran, rest, mem, ?_⟩
    rw [mine]
    refine ⟨rfl, rfl, rfl, rfl, rfl, rfl, rfl, rfl, rfl, rfl, fun j l hj hl => ?_⟩
    refine (get_mergeLatches (lanesOf g.parked) g.parkLat g.lat (fun x hx => lt_of_getLsbD ((mem_lanesOf _ _).1 hx)) hj hl).trans ?_
    simp only [mem_lanesOf]
    rfl
  · rintro w ck queue rfl rfl waits
    refine ⟨fun kind full => ?_, fun kind full => ?_, fun kind empty beyond => ?_⟩
    · obtain ⟨t, ran, free, loads, rest⟩ := execFullEmptyService_ldlp queue waits kind full
      exact ⟨t, ran, free, ⟨s.feLoad w, loads, rfl⟩, rest⟩
    · obtain ⟨t, ran, free, loads, rest⟩ := execFullEmptyService_ldlf queue waits kind full
      exact ⟨t, ran, free, ⟨s.feLoad w, loads, rfl⟩, rest⟩
    · exact execFullEmptyService_stle queue waits kind empty beyond

end Sys2Proof.Machine
end

section
/-! SUPPORT. What a translation, and the part's own accesses to memory, leave as they were: `Translates` and the weaker `PartWork`
(R152 to R156, R191, R332 to R335). -/

namespace Sys2Proof.Table

/-- A record of a table whose records have all been changed by their numbers. -/
theorem get_mapRecords {α : Type} (f : Nat → α → α) (t : Table α) (k : Nat) (d : α) (h : f k d = d) :
    Table.get (t.map (fun p => (p.1, f p.1 p.2))) k d = f k (Table.get t k d) := by
  induction t with
  | nil => exact h.symm
  | cons e r ih =>
    obtain ⟨j, x⟩ := e
    rw [List.map_cons, Table.get, Table.get]
    by_cases same : j = k
    · rw [if_pos same, if_pos same, same]
    · rw [if_neg same, if_neg same, ih]

end Sys2Proof.Table

namespace Sys2Proof.Machine

open Sys2Proof

/-- `t` is `s` after translations: of the buffers, counters and acquired lines of cores, functions and dies some may differ; no line of a
snapshot, no page request and no memory key does. -/
structure Translates (s t : State) : Prop where
  rest : { t with cores := s.cores, fns := s.fns, dies := s.dies } = s
  snap : ∀ k, (t.coreOf k).snap = (s.coreOf k).snap
  pages : ∀ k, (t.fnOf k).pages = (s.fnOf k).pages
  keys : ∀ d, (t.die d).keys = (s.die d).keys

namespace Translates

variable {s t u : State}

theorem refl (s : State) : Translates s s := ⟨rfl, fun _ => rfl, fun _ => rfl, fun _ => rfl⟩

theorem trans (h : Translates s t) (k : Translates t u) : Translates s u where
  rest := (congrArg (fun x : State => { x with cores := s.cores, fns := s.fns, dies := s.dies }) k.rest).trans h.rest
  snap c := (k.snap c).trans (h.snap c)
  pages c := (k.pages c).trans (h.pages c)
  keys d := (k.keys d).trans (h.keys d)

theorem fold {β : Type} {f : State → β → State} {l : List β} (h : Translates s t) (step : ∀ t b, Translates t (f t b)) :
    Translates s (l.foldl f t) :=
  h.trans (foldl_rel refl trans f l (fun t b _ => step t b) t)

theorem ite_fst {α : Type} {p : Prop} [Decidable p] {a b : State × α} (h : Translates s a.1) (k : Translates s b.1) :
    Translates s (if p then a else b).1 := by
  split
  · exact h
  · exact k

theorem modCore (s : State) (k : Nat) (f : Core → Core) (keep : ∀ c, (f c).snap = c.snap) : Translates s (s.modCore k f) :=
  ⟨rfl, fun c => by
    by_cases e : c = k
    · subst e
      rw [State.coreOf_modCore, keep]
    · rw [State.coreOf_modCore_ne _ _ _ _ e], fun _ => rfl, fun _ => rfl⟩

theorem modFn (s : State) (k : Nat) (f : Fn → Fn) (keep : ∀ c, (f c).pages = c.pages) : Translates s (s.modFn k f) :=
  ⟨rfl, fun _ => rfl, fun c => by
    by_cases e : c = k
    · subst e
      rw [State.fnOf_modFn, keep]
    · rw [State.fnOf_modFn_ne _ _ _ _ e], fun _ => rfl⟩

theorem modDie (s : State) (k : Nat) (f : Die → Die) (keep : ∀ x, (f x).keys = x.keys) : Translates s (s.modDie k f) :=
  ⟨rfl, fun _ => rfl, fun _ => rfl, fun d => by
    by_cases e : d = k
    · subst e
      rw [State.die_modDie, keep]
    · rw [State.die_modDie_ne _ _ _ _ e]⟩

/-- Every core keeps its snapshot where its record is changed by its number. -/
theorem mapCores (s : State) (f : Nat → Core → Core) (keep : ∀ k c, (f k c).snap = c.snap) (fresh : ∀ k, f k {} = {}) :
    Translates s { s with cores := s.cores.map (fun p => (p.1, f p.1 p.2)) } :=
  ⟨rfl, fun k => (congrArg Core.snap (Table.get_mapRecords f s.cores k {} (fresh k))).trans (keep ..), fun _ => rfl, fun _ => rfl⟩

theorem of_fst {α : Type} {x : α} {p : State × α} (h : Translates s p.1) (e : p = (t, x)) : Translates s t := by
  rw [e] at h
  exact h

theorem cur (h : Translates s t) : t.cur = s.cur := (congrArg State.cur h.rest :)
theorem iss (h : Translates s t) : t.iss = s.iss := (congrArg State.iss h.rest :)
theorem groups (h : Translates s t) : t.groups = s.groups := (congrArg State.groups h.rest :)
theorem mem (h : Translates s t) : t.mem = s.mem := (congrArg State.mem h.rest :)
theorem loads (h : Translates s t) : t.loads = s.loads := (congrArg State.loads h.rest :)
theorem reqs (h : Translates s t) : t.reqs = s.reqs := (congrArg State.reqs h.rest :)
theorem aliases (h : Translates s t) : t.aliases = s.aliases := (congrArg State.aliases h.rest :)
theorem g (h : Translates s t) : t.g = s.g := by rw [State.g, h.cur]; exact State.group_of_groups h.groups _

end Translates

namespace State

variable (s : State)

theorem recallAll_translates (loc n : Nat) : Translates s (s.recallAll loc n) :=
  Translates.mapCores s (fun _ c => { c with atomLines := c.atomLines.filter (fun l => decide (256 * l + 256 ≤ loc) || decide (loc + n ≤ 256 * l)) })
    (fun _ _ => rfl) (fun _ => rfl)

theorem recallLine_translates (ck loc : Nat) : Translates s (s.recallLine ck loc) := by
  have changed : s.recallLine ck loc = { s with cores := s.cores.map (fun p => (p.1,
      if p.1 = ck then p.2 else { p.2 with atomLines := p.2.atomLines.filter (· != loc / 256) })) } := by
    unfold recallLine
    congr 2
    funext p
    split <;> rfl
  rw [changed]
  exact Translates.mapCores s (fun k c => if k = ck then c else { c with atomLines := c.atomLines.filter (· != loc / 256) })
    (fun _ _ => by split <;> rfl) (fun _ => by split <;> rfl)

theorem countC_translates (ck n k : Nat) : Translates s (s.countC ck n k) := Translates.modCore _ _ _ (fun _ => rfl)

/-- What a core does where a core asks. -/
theorem atCore_translates (core : Option Nat) (f : Nat → State) (h : ∀ ck, Translates s (f ck)) :
    Translates s (match core with
      | some ck => f ck
      | none => s) := by
  cases core
  · exact .refl s
  · exact h _

theorem keepLeaf_translates (core : Option Nat) (e : TlbEntry) :
    Translates s (match core with
      | some ck => s.modCore ck (fun c => { c with tlb := tlbPut c.tlb 32 e })
      | none => s) :=
  s.atCore_translates core _ (fun _ => Translates.modCore _ _ _ (fun _ => rfl))

theorem leafOf_translates (d fn : Nat) (core : Option Nat) (va : Nat) : Translates s (s.leafOf d fn core va).1 := by
  have missed := s.atCore_translates core _ (fun ck => s.countC_translates ck 6 1)
  have walked (l : List Nat) := (missed.trans (Translates.modFn _ (d * 8 + fn) (fun f => { f with cnt7 := f.cnt7 + 1 }) (fun _ => rfl))).fold
    (l := l) (fun t a => t.recallAll_translates a 8)
  unfold leafOf
  dsimp only
  split
  · dsimp only
    exact Translates.modCore _ _ _ (fun _ => rfl)
  · split
    · exact missed.trans (keepLeaf_translates ..)
    · split
      · exact walked _
      · split
        · exact walked _
        · split
          · refine Translates.trans ?_ (keepLeaf_translates ..)
            exact (walked _).trans (.modDie _ _ _ (fun _ => rfl))
          · exact walked _

theorem translatePeer_translates (d fn : Nat) (acc : Acc) (e : DWord) (sz va : Nat) : Translates s (s.translatePeer d fn acc e sz va).1 := by
  have leaf := s.leafOf_translates
  unfold translatePeer
  dsimp only
  refine Translates.ite_fst (.refl s) ?_
  split
  · exact leaf ..
  · split
    · exact leaf ..
    · split
      · exact leaf ..
      · split <;> exact leaf ..

theorem translate_translates (d fn : Nat) (core : Option Nat) (va n : Nat) (acc : Acc) : Translates s (s.translate d fn core va n acc).1 := by
  have leaf := s.leafOf_translates d fn core va
  unfold translate
  dsimp only
  split
  · exact .refl s
  · split
    · exact .refl s
    · split
      · exact leaf
      · split
        · exact leaf
        · split
          · exact leaf
          · split
            · split <;> exact leaf
            · exact leaf.trans (translatePeer_translates ..)
            all_goals exact leaf

theorem vPlaces_translates (d fn : Nat) (acc : Acc) (ps : List (Nat × Nat)) : Translates s (s.vPlaces d fn acc ps).1 := by
  induction ps generalizing s with
  | nil => exact .refl s
  | cons p r ih =>
    have first := s.translate_translates d fn none p.1 1 acc
    unfold vPlaces
    split
    · rename_i t sp loc slot expo e
      have here := (first.of_fst e).trans (t.recallAll_translates loc p.2)
      split <;> exact here.trans ((ih _).of_fst ‹_›)
    all_goals exact first.of_fst ‹_›

end State

/-! ### The part's own accesses -/

/-- A group stands, where a WAITC whose word reaches its threshold counts as satisfied (R191). -/
def Satisfied (g g' : Group) : Prop := g' = g ∨ ∃ w slot thr, g.wait = .waitc w slot thr ∧ g' = { g with wait := .waitc w slot 0 }

theorem Satisfied.trans {a b c : Group} (h : Satisfied a b) (k : Satisfied b c) : Satisfied a c := by
  rcases h with rfl | ⟨w, slot, thr, waits, rfl⟩
  · exact k
  · rcases k with rfl | ⟨w', slot', thr', waits', rfl⟩
    · exact .inr ⟨w, slot, thr, waits, rfl⟩
    · obtain ⟨rfl, rfl, -⟩ := Wait.waitc.inj waits'
      exact .inr ⟨w, slot, thr, waits, rfl⟩

/-- Nothing but its wait may differ. -/
theorem Satisfied.same {g g' : Group} (h : Satisfied g g') : g' = { g with wait := g'.wait } := by
  rcases h with rfl | ⟨w, slot, thr, -, rfl⟩ <;> rfl

/-- `t` is `s` after accesses of the part's own: memory and what stands for it, messages and activities change, page requests are added,
and a WAITC whose word reaches its threshold counts as satisfied. -/
structure PartWork (s t : State) : Prop where
  rest : { t with mem := s.mem, groups := s.groups, cores := s.cores, fns := s.fns, dies := s.dies, basin := s.basin, tags := s.tags
                  veils := s.veils, incrs := s.incrs, agenda := s.agenda, nextUid := s.nextUid, sures := s.sures } = s
  groups : ∀ k, Satisfied (s.group k) (t.group k)
  pages : ∀ f p, s.requested f p = true → t.requested f p = true
  agenda : s.agenda ⊆ t.agenda

namespace PartWork

variable {s t u : State}

theorem refl (s : State) : PartWork s s := ⟨rfl, fun _ => .inl rfl, fun _ _ h => h, fun _ h => h⟩

theorem trans (h : PartWork s t) (k : PartWork t u) : PartWork s u where
  rest := (congrArg (fun x : State => { x with mem := s.mem, groups := s.groups, cores := s.cores, fns := s.fns, dies := s.dies, basin := s.basin, tags := s.tags, veils := s.veils, incrs := s.incrs, agenda := s.agenda, nextUid := s.nextUid, sures := s.sures }) k.rest).trans h.rest
  groups j := (h.groups j).trans (k.groups j)
  pages f p m := k.pages f p (h.pages f p m)
  agenda _ m := k.agenda (h.agenda m)

theorem fold {β : Type} {f : State → β → State} {l : List β} (h : PartWork s t) (step : ∀ t b, PartWork t (f t b)) :
    PartWork s (l.foldl f t) :=
  h.trans (foldl_rel refl trans f l (fun t b _ => step t b) t)

theorem ite {p : Prop} [Decidable p] {a b : State} (h : PartWork s a) (k : PartWork s b) : PartWork s (if p then a else b) := by
  split
  · exact h
  · exact k

theorem of_fst {α : Type} {x : α} {p : State × α} (h : PartWork s p.1) (e : p = (t, x)) : PartWork s t := by
  rw [e] at h
  exact h

theorem of_sends (h : Sends s t) : PartWork s t where
  rest := (congrArg (fun x : State => { x with mem := s.mem, groups := s.groups, cores := s.cores, fns := s.fns, dies := s.dies, tags := s.tags, veils := s.veils, incrs := s.incrs }) h.rest :)
  groups k := .inl (h.group k)
  pages f p m := by
    have fns : t.fns = s.fns := (congrArg State.fns h.rest :)
    rw [State.requested, State.fnOf, fns]
    exact m
  agenda := h.agenda

theorem of_translates (h : Translates s t) : PartWork s t where
  rest := (congrArg (fun x : State => { x with mem := s.mem, groups := s.groups, basin := s.basin, tags := s.tags, veils := s.veils, incrs := s.incrs, agenda := s.agenda, nextUid := s.nextUid, sures := s.sures }) h.rest :)
  groups k := .inl (State.group_of_groups h.groups k)
  pages f p m := by
    rw [State.requested, h.pages]
    exact m
  agenda _ m := by
    have kept : t.agenda = s.agenda := (congrArg State.agenda h.rest :)
    rw [kept]
    exact m

/-- A function's record changed, but no page request taken back. -/
theorem modFn (s : State) (k : Nat) (f : Fn → Fn) (keep : ∀ x, x.pages ⊆ (f x).pages) : PartWork s (s.modFn k f) where
  rest := rfl
  groups _ := .inl rfl
  pages j p m := by
    by_cases e : j = k
    · subst e
      rw [State.requested, State.fnOf_modFn]
      obtain ⟨x, mem, hit⟩ := List.any_eq_true.1 m
      exact List.any_eq_true.2 ⟨x, keep _ mem, hit⟩
    · rw [State.requested, State.fnOf_modFn_ne _ _ _ _ e]
      exact m
  agenda _ m := m

theorem cur (h : PartWork s t) : t.cur = s.cur := (congrArg State.cur h.rest :)
theorem iss (h : PartWork s t) : t.iss = s.iss := (congrArg State.iss h.rest :)
theorem loads (h : PartWork s t) : t.loads = s.loads := (congrArg State.loads h.rest :)
theorem reqs (h : PartWork s t) : t.reqs = s.reqs := (congrArg State.reqs h.rest :)
theorem aliases (h : PartWork s t) : t.aliases = s.aliases := (congrArg State.aliases h.rest :)
theorem g (h : PartWork s t) : Satisfied s.g t.g := by rw [State.g, State.g, h.cur]; exact h.groups _

end PartWork

namespace State

variable (s : State)

theorem storeBytes_partWork (loc slot : Nat) (bs : List Byte) : PartWork s (s.storeBytes loc slot bs) := by
  obtain ⟨m, x, t, v, e⟩ := s.storeBytes_frame loc slot bs
  rw [e]
  exact ⟨rfl, fun _ => .inl rfl, fun _ _ h => h, fun _ h => h⟩

theorem putPieces_partWork (l : List (Nat × Nat × Nat × Option Nat)) (bs : List Byte) : PartWork s (s.putPieces l bs) := by
  induction l generalizing s bs with
  | nil => exact .refl s
  | cons p r ih => exact (s.storeBytes_partWork ..).trans (ih ..)

theorem partFlits_partWork (d : Nat) (write : Bool) (l : List (Nat × Nat × Nat × Option Nat)) : PartWork s (s.partFlits d write l) := by
  refine foldl_rel .refl .trans _ _ (fun t h m => ?_) s
  have far := farPounds_ne m
  exact .of_sends ((t.sendMsg_sends _ _ _ _ _ (Ne.symm far)).trans (sendMsg_sends _ _ _ _ _ _ far))

theorem unwatch_partWork (loc gk : Nat) : PartWork s (s.unwatch loc gk) :=
  PartWork.ite (.of_translates (.modDie _ _ _ (fun _ => rfl))) (.refl s)

theorem freeDep_partWork (fkey : Nat) (w : DepWatch) : PartWork s (s.freeDep fkey w) :=
  PartWork.ite (.refl s) (s.unwatch_partWork ..)

theorem meetDeps_partWork (loc n : Nat) : PartWork s (s.meetDeps loc n) := by
  have met : PartWork s { s with
      fns := s.fns.map (fun p => (p.1, { p.2 with deps := p.2.deps.map (fun w => if s.depMet p.1 loc n w then { w with met := true } else w) })) } := by
    refine ⟨rfl, fun _ => .inl rfl, fun f p m => ?_, fun _ h => h⟩
    have kept := congrArg Fn.pages (Table.get_mapRecords
      (fun k (x : Fn) => { x with deps := x.deps.map (fun w => if s.depMet k loc n w then { w with met := true } else w) }) s.fns f {} rfl)
    exact (congrArg (fun l : List PageReq => l.any (fun x => x.page == p)) kept).trans m
  exact met.fold (fun t x => (t.freeDep_partWork ..).trans (.of_sends (sendSure_sends ..)))

/-- A WAITC counts as satisfied. -/
theorem satisfy_partWork {k w slot : Nat} {thr : DWord} (waits : (s.group k).wait = .waitc w slot thr) :
    PartWork s (s.modGroup k (fun g => { g with wait := .waitc w slot 0 })) where
  rest := rfl
  groups j := by
    by_cases e : j = k
    · subst e
      exact .inr ⟨w, slot, thr, waits, group_setGroup ..⟩
    · exact .inl (group_setGroup_ne _ _ _ _ e)
  pages _ _ h := h
  agenda _ h := h

theorem wakeAt_partWork (loc n : Nat) : PartWork s (s.wakeAt loc n) := by
  unfold wakeAt
  refine PartWork.fold ((PartWork.of_sends (s.agenda_sends _)).trans (meetDeps_partWork ..)) (fun t p => ?_)
  split
  · rename_i w slot thr waits
    exact PartWork.ite ((t.satisfy_partWork waits).trans (.of_sends (sendSure_sends ..))) (.refl t)
  · exact .refl t

theorem postIncr_partWork (k n : Nat) (net : Bool) (ack : Option (Nat × NetPacket)) : PartWork s (s.postIncr k n net ack) :=
  PartWork.ite (.refl s) ⟨rfl, fun _ => .inl rfl, fun _ _ h => h, List.subset_append_left ..⟩

theorem vWrite_partWork (d fn va : Nat) (bs : List Byte) : PartWork s (s.vWrite d fn va bs).1 := by
  have places := PartWork.of_translates (s.vPlaces_translates d fn .store (pieces (bs.length / 4096 + 2) va bs.length))
  unfold vWrite
  split
  · rename_i t l e
    refine PartWork.fold (((places.of_fst e).trans (t.partFlits_partWork ..)).trans (putPieces_partWork ..))
      (fun t p => PartWork.trans ?_ (wakeAt_partWork ..))
    split
    · exact t.postIncr_partWork ..
    · exact .refl t
  all_goals exact places.of_fst ‹_›

theorem vRead_partWork (d fn va n : Nat) : PartWork s (s.vRead d fn va n).1 := by
  have places := PartWork.of_translates (s.vPlaces_translates d fn .load (pieces (n / 4096 + 2) va n))
  unfold vRead
  split
  · exact (places.of_fst ‹_›).trans (partFlits_partWork ..)
  all_goals exact places.of_fst ‹_›

theorem signal_partWork (fkey v : Nat) : PartWork s (s.signal fkey v) := .modFn _ _ _ (fun _ => List.Subset.refl _)
theorem holdWrite_partWork (fkey : Nat) (w : HeldWrite) (f p : Nat) : PartWork s (s.holdWrite fkey w f p) :=
  .modFn _ _ _ (fun _ => List.Subset.refl _)

theorem putRecord_partWork (fkey v : Nat) (bs : List Byte) : PartWork s (s.putRecord fkey v bs).1 := by
  have header := s.vRead_partWork (fkey / 8) (fkey % 8) (s.ringOf fkey v) 64
  unfold putRecord
  dsimp only
  split
  · rename_i t hb e
    have read := header.of_fst e
    split
    · exact read.trans (vWrite_partWork ..)
    · have entry := read.trans (t.vWrite_partWork (fkey / 8) (fkey % 8)
        (s.ringOf fkey v + 64 + bs.length * ((ringHdr hb).tail % (ringHdr hb).entries)) bs)
      split
      · exact ((entry.of_fst ‹_›).trans (vWrite_partWork ..)).trans (signal_partWork ..)
      all_goals exact entry.of_fst ‹_›
  all_goals exact header.of_fst ‹_›

theorem postOrHold_partWork (fkey v : Nat) (bs : List Byte) : PartWork s (s.postOrHold fkey v bs).1 := by
  have put := s.putRecord_partWork fkey v bs
  unfold postOrHold
  split
  · exact s.holdWrite_partWork ..
  · split
    · exact (put.of_fst ‹_›).trans (holdWrite_partWork ..)
    · exact put.of_fst ‹_›

theorem newRequest_partWork (fkey page : Nat) (acc : Acc) : PartWork s (s.newRequest fkey page acc).1 :=
  .modFn s fkey (fun f => { f with pages := f.pages ++ [⟨page, acc.request, f.pageSeq⟩], pageSeq := (f.pageSeq + 1) % 2 ^ 64 })
    (fun _ => List.subset_append_left ..)

theorem newRequest_requested (fkey page : Nat) (acc : Acc) : (s.newRequest fkey page acc).1.requested fkey page = true := by
  have new := fnOf_setFn s fkey { s.fnOf fkey with
    pages := (s.fnOf fkey).pages ++ [⟨page, acc.request, (s.fnOf fkey).pageSeq⟩], pageSeq := ((s.fnOf fkey).pageSeq + 1) % 2 ^ 64 }
  refine (congrArg (fun x : Fn => x.pages.any (fun p => p.page == page)) new).trans ?_
  simp

/-- A page's service requested: the part's own work, after which it has been requested. -/
theorem requestPage_partWork (fkey page : Nat) (acc : Acc) :
    PartWork s (s.requestPage fkey page acc) ∧ (s.requestPage fkey page acc).requested fkey page = true := by
  unfold requestPage
  split
  · exact ⟨.refl s, by assumption⟩
  · have made := s.newRequest_partWork fkey page acc
    have here := s.newRequest_requested fkey page acc
    have posted := postOrHold_partWork (s.newRequest fkey page acc).1 fkey 1 (s.newRequest fkey page acc).2
    dsimp only
    split
    · have now := posted.of_fst ‹_›
      exact ⟨made.trans now, now.pages _ _ here⟩
    · have now := posted.of_fst ‹_›
      split
      · exact ⟨made.trans now, now.pages _ _ here⟩
      · exact ⟨made.trans (now.trans ((newRequest_partWork ..).trans (postOrHold_partWork ..))),
          PartWork.pages ((newRequest_partWork ..).trans (postOrHold_partWork ..)) _ _ (now.pages _ _ here)⟩

theorem faultRecord_partWork (fkey kind : Nat) (bs : List Byte) : PartWork s (s.faultRecord fkey kind bs) := by
  have posted := s.postOrHold_partWork fkey 0 (bs.take 32 ++ bytesOf (32 - bs.length) 0 ++ bytesOf 4 kind ++ bytesOf 28 0)
  unfold faultRecord
  split
  · exact (posted.of_fst ‹_›).trans (requestPage_partWork ..).1
  · exact posted.of_fst ‹_›

end State

end Sys2Proof.Machine
end

section
/-! SUPPORT. The nest counters (R31, R32, R110): what IF, ELSE and ENDIF make of them, and that a trap keeps them in its frame. -/

namespace Sys2Proof.Machine

open Sys2Proof

theorem Group.nest_mapNest (g : Group) (f : Nat → BitVec 8 → BitVec 8) (l : Nat) :
    (g.mapNest f).nest.get l 0 = if g.notDeferred.getLsbD l = true then f l (g.nest.get l 0) else g.nest.get l 0 := by
  by_cases h : g.notDeferred.getLsbD l = true
  · rw [if_pos h]
    exact Table.get_foldl_set (lanesOf g.notDeferred) (fun l => l) (fun l => f l (g.nest.get l 0)) g.nest l 0 ((mem_lanesOf _ _).2 h)
      (fun _ _ _ _ e => e)
  · rw [if_neg h]
    exact Table.get_foldl_set_ne (lanesOf g.notDeferred) (fun l => l) _ g.nest l 0 (fun x hx e => h (e ▸ (mem_lanesOf _ _).1 hx))

/-- What IF and ELSE leave of a group once its counters have changed (R110). -/
theorem skipIfNone_nested (s : State) (f : BitVec 24) (h : Nat → BitVec 8 → BitVec 8) :
    let t := (s.setG (s.g.mapNest h)).skipIfNone f
    GroupOnly s t ∧ t.g = { s.g with nest := t.g.nest, offset := t.g.offset } ∧
      ((t.g.enabled = 0 → t.g.offset = s.g.offset + f ∧ t.iss = { s.iss with moved := true }) ∧
        (t.g.enabled ≠ 0 → t.g.offset = s.g.offset ∧ t.iss = s.iss)) ∧ t.g.nest = (s.g.mapNest h).nest := by
  have set : (s.setG (s.g.mapNest h)).g = s.g.mapNest h := State.g_setG ..
  unfold State.skipIfNone
  rw [set]
  dsimp only
  split
  · rename_i dead
    obtain ⟨only, iss, mine⟩ := setG_jump s (s.g.mapNest h) ((s.g.mapNest h).offset + f)
    rw [mine]
    exact ⟨only, rfl, ⟨fun _ => ⟨rfl, iss⟩, fun live => absurd dead live⟩, rfl⟩
  · rename_i live
    rw [set]
    exact ⟨groupOnly_setG s _ s.iss, rfl, ⟨fun dead => absurd dead live, fun _ => ⟨rfl, rfl⟩⟩, rfl⟩

theorem nestOverflow_mem (g : Group) (l : Nat) : l ∈ nestOverflow g ↔ g.notDeferred.getLsbD l = true ∧ g.nest.get l 0 = 255 := by
  rw [nestOverflow, List.mem_filter, mem_lanesOf, beq_iff_eq]

/-- IF where no counter overflows. -/
theorem execCIf_counts (s : State) (f : BitVec 24) (room : ∀ l, s.g.notDeferred.getLsbD l = true → s.g.nest.get l 0 ≠ 255) :
    exec (.cIf f) s = .next ((s.setG (s.g.mapNest (fun l n =>
      if n = 0 then (if (s.g.liveExec &&& s.g.predMask (modeBp s.g.mode)).getLsbD l then 0 else 1) else n + 1))).skipIfNone f) := by
  have none : nestOverflow s.g = [] := by
    rw [List.eq_nil_iff_forall_not_mem]
    exact fun l mem => room l ((nestOverflow_mem s.g l).1 mem).1 ((nestOverflow_mem s.g l).1 mem).2
  change execCIf f s = _
  unfold execCIf
  dsimp only
  rw [none]
  rfl

/-- The record of a lane whose counter an IF would take past 255 (R32). -/
def nestRecord (s : State) (l : Nat) : Nat × Nat × Nat :=
  (16 * l, 16, State.laneRecord 7 (s.iss.word.toNat / 2 ^ 25) l (s.g.plane.get l 0).toNat s.g.offset.toNat 0)

/-- IF where a counter overflows. -/
theorem execCIf_overflows (s : State) (f : BitVec 24) (past : ∃ l, s.g.notDeferred.getLsbD l = true ∧ s.g.nest.get l 0 = 255) :
    exec (.cIf f) s = .next ((s.setG { s.g with recs := s.g.recs ++ (nestOverflow s.g).map (nestRecord s) }).trapAt 0x12 0
      (maskOf (nestOverflow s.g)) 0) := by
  obtain ⟨l, hl⟩ := past
  have some : (nestOverflow s.g).isEmpty = false := by
    rw [List.isEmpty_eq_false_iff]
    exact List.ne_nil_of_mem ((nestOverflow_mem s.g l).2 hl)
  change execCIf f s = _
  unfold execCIf
  dsimp only
  rw [some]
  rfl

/-- The fields of a record of an overflow: offset, kind and lane. -/
theorem nestRecord_fields (w : Word) {l : Nat} (hl : l < 64) (plane : BitVec 3) (off : Off) :
    let r := State.laneRecord 7 (w.toNat / 2 ^ 25) l plane.toNat off.toNat 0
    r / 2 ^ 32 = off.toNat ∧ r / 2 ^ 24 % 2 ^ 8 = 7 ∧ r / 2 ^ 8 % 2 ^ 8 = l := by
  have op := w.isLt
  have pl := plane.isLt
  have of := off.isLt
  unfold State.laneRecord
  dsimp only
  refine ⟨?_, ?_, ?_⟩ <;> omega

/-! ### A trap and the nest counters -/

/-- The acting group is the same, and every group's nest counters stand. -/
structure NestsKept (s t : State) : Prop where
  cur : t.cur = s.cur
  nest : ∀ k, (t.group k).nest = (s.group k).nest

namespace NestsKept

variable {s t u : State}

theorem refl (s : State) : NestsKept s s := ⟨rfl, fun _ => rfl⟩

theorem trans (h : NestsKept s t) (k : NestsKept t u) : NestsKept s u :=
  ⟨k.cur.trans h.cur, fun j => (k.nest j).trans (h.nest j)⟩

theorem of_groups (cur : t.cur = s.cur) (groups : t.groups = s.groups) : NestsKept s t :=
  ⟨cur, fun k => congrArg Group.nest (State.group_of_groups groups k)⟩

theorem of_partWork (h : PartWork s t) : NestsKept s t :=
  ⟨h.cur, fun k => by rw [(h.groups k).same]⟩

theorem modGroup (s : State) (k : Nat) (f : Group → Group) (keep : (f (s.group k)).nest = (s.group k).nest) : NestsKept s (s.modGroup k f) :=
  ⟨rfl, fun j => by
    by_cases e : j = k
    · subst e
      rw [State.modGroup, State.group_setGroup, keep]
    · rw [State.modGroup, State.group_setGroup_ne _ _ _ _ e]⟩

theorem setG (s : State) {g : Group} (keep : g.nest = s.g.nest) : NestsKept s (s.setG g) :=
  modGroup s s.cur (fun _ => g) keep

theorem fold {β : Type} {f : State → β → State} {l : List β} (h : NestsKept s t) (step : ∀ t b, NestsKept t (f t b)) :
    NestsKept s (l.foldl f t) :=
  h.trans (foldl_rel refl trans f l (fun t b _ => step t b) t)

theorem g (h : NestsKept s t) : t.g.nest = s.g.nest := by
  rw [State.g, h.cur]
  exact h.nest _

end NestsKept

namespace State

variable (s : State)

/-- A piece of a record as it is put in its place, before the write counts (R127, R164). -/
def shownPiece (s : State) (loc slot n : Nat) (b : List Byte) (expo : Option Nat) : State :=
  let stored := ((s.storeBytes loc slot b).snapStore s.g.ckey loc b).patchReplies s.g.ckey loc b
  { stored with
    reqs := stored.reqs.map (fun (q : Req) =>
      if q.gkey = stored.cur && q.team = stored.g.team && !q.performed && q.kind == ReqKind.store then coverReq q loc b else q)
    veils := if expo.isSome then stored.veils
      else stored.veils ++ (s.coreView (2 ^ 16) loc slot n).zipIdx.map (fun x => (⟨s.cur, s.g.team, loc + x.2, x.1⟩ : Veil)) }

/-- The write of a piece counts where the piece is exported (R189). -/
def pieceCounted (s : State) (n : Nat) (expo : Option Nat) : State :=
  match expo with
  | some k => s.postIncr k n false
  | none => s

theorem putShown_cons (loc slot n : Nat) (expo : Option Nat) (r : List (Nat × Nat × Nat × Option Nat)) (bs : List Byte) :
    s.putShown ((loc, slot, n, expo) :: r) bs =
      (((s.shownPiece loc slot n (bs.take n) expo).pieceCounted n expo).wakeAt loc n).putShown r (bs.drop n) := by
  cases expo <;> rfl

theorem pieceCounted_partWork (n : Nat) (expo : Option Nat) : PartWork s (s.pieceCounted n expo) := by
  cases expo
  · exact .refl s
  · exact s.postIncr_partWork ..

theorem putShown_nests (l : List (Nat × Nat × Nat × Option Nat)) (bs : List Byte) : NestsKept s (s.putShown l bs) := by
  induction l generalizing s bs with
  | nil => exact .refl s
  | cons p r ih =>
    obtain ⟨loc, slot, n, expo⟩ := p
    have stored : NestsKept s (s.storeBytes loc slot (bs.take n)) := .of_partWork (storeBytes_partWork ..)
    have shown : NestsKept s (s.shownPiece loc slot n (bs.take n) expo) := stored.trans (.of_groups rfl rfl)
    have woken := (pieceCounted_partWork (s.shownPiece loc slot n (bs.take n) expo) n expo).trans (wakeAt_partWork _ loc n)
    rw [putShown_cons]
    exact (shown.trans (.of_partWork woken)).trans (ih _ _)

theorem writeRecs_nests (base : Nat) (rs : List (Nat × Nat × Nat)) : NestsKept s (s.writeRecs base rs).1 := by
  induction rs generalizing s with
  | nil => exact .refl s
  | cons x r ih =>
    obtain ⟨o, n, v⟩ := x
    have places := PartWork.of_translates (s.vPlaces_translates s.g.die s.g.fn .store (pieces 2 ((base + o) % 2 ^ 64) n))
    unfold writeRecs
    split
    · have placed := NestsKept.of_partWork (places.of_fst ‹_›)
      exact ((placed.trans (.of_partWork (partFlits_partWork ..))).trans (putShown_nests ..)).trans (ih _)
    all_goals exact .of_partWork (places.of_fst ‹_›)

theorem stopWatching_nests (gk : Nat) : NestsKept s (s.stopWatching gk) := by
  unfold stopWatching
  split
  · exact .of_partWork (unwatch_partWork ..)
  · exact .refl s

theorem killTeam_nests (t : Nat) : NestsKept s (s.killTeam t) := by
  unfold killTeam
  refine NestsKept.trans ((NestsKept.refl s).fold (l := s.teamGroups t) (fun u k => (u.stopWatching_nests k).trans (.modGroup _ k
    (fun g => { g with live := false, exited := true, wait := .ready, recs := [], pendX := [] }) rfl))) (.of_groups rfl rfl)

theorem unwritableBlock_nests : NestsKept s s.unwritableBlock :=
  (s.killTeam_nests _).trans (.of_partWork (faultRecord_partWork ..))

/-- The nest counters of the acting group stand in it, or in its frame. -/
def nestSaved (t : State) : Prop := t.g.nest = s.g.nest ∨ ∃ fr, t.g.frame = some fr ∧ fr.nest = s.g.nest

theorem nestSaved_of_kept {s t : State} (h : NestsKept s t) : s.nestSaved t := .inl h.g

theorem enterHandler_saved (xs : List Word) (h : Off) : s.nestSaved (s.enterHandler xs h) := by
  unfold enterHandler
  refine .inr ⟨⟨s.g.offset, s.g.exec, s.g.nest, s.g.plane, s.g.joins⟩, ?_, rfl⟩
  rw [g_setG]

/-- The end of a trap once its records are written (R127). -/
theorem trapReady_saved (dying : Bool) (handler : Option Off) (team : Nat) (xs : List Word) :
    s.nestSaved (if dying then s.killTeam team else match handler with
      | some h => s.enterHandler xs h
      | none => s.killTeam team) := by
  cases dying
  · cases handler
    · exact nestSaved_of_kept (s.killTeam_nests team)
    · exact s.enterHandler_saved _ _
  · exact nestSaved_of_kept (s.killTeam_nests team)

theorem nestSaved_trans {s t u : State} (h : NestsKept s t) (k : t.nestSaved u) : s.nestSaved u := by
  rw [nestSaved, h.g] at k
  exact k

theorem finishTrap_saved : s.nestSaved s.finishTrap := by
  unfold finishTrap
  dsimp only
  split
  · exact s.trapReady_saved s.g.dying s.g.handler s.g.team s.g.pendX
  · split
    · exact nestSaved_of_kept s.unwritableBlock_nests
    · have wrote := s.writeRecs_nests s.faultBlock s.g.recs
      split
      · rename_i t _ e
        rw [e] at wrote
        have cleared : NestsKept t (t.modG (fun g => { g with recs := [], wait := .ready })) := .setG _ rfl
        exact nestSaved_trans (wrote.trans cleared) (trapReady_saved _ s.g.dying s.g.handler s.g.team s.g.pendX)
      · rename_i t f p e
        rw [e] at wrote
        have waits : NestsKept t (t.modG (fun g => { g with wait := .faultBlock f p })) := .setG _ rfl
        exact nestSaved_of_kept ((wrote.trans waits).trans (.of_partWork (requestPage_partWork ..).1))
      · rename_i e
        rw [e] at wrote
        exact nestSaved_of_kept (wrote.trans (unwritableBlock_nests _))

/-- A trap keeps the nest counters of the acting group, in it or in its frame (R123). -/
theorem takeTrap_saved (xs : List Word) : s.nestSaved (s.takeTrap xs) := by
  unfold takeTrap
  dsimp only
  have saved (g : Group) (keep : g.nest = s.g.nest) : s.nestSaved { (s.setG g).finishTrap with iss := { s.iss with moved := true, trapped := true } } :=
    nestSaved_trans (.setG s keep) (s.setG g).finishTrap_saved
  exact saved _ rfl

theorem trapAt_saved (kind field : Nat) (mask : DWord) (x7hi : Nat) : s.nestSaved (s.trapAt kind field mask x7hi) := s.takeTrap_saved _

end State

/-- ENDIF's counter: one down, where it is not zero. -/
theorem count_down (b : Bool) (n : BitVec 8) :
    (if b = true then (if n = 0 then 0 else n - 1) else n) = if b = false ∨ n = 0 then n else n - 1 := by
  cases b
  · rfl
  · by_cases zero : n = 0
    · subst zero
      rfl
    · rw [if_pos rfl, if_neg zero, if_neg (by simpa using zero)]

/-- Settles O13: the counters by `nest_mapNest`; the overflow by its records, and what the trap keeps. -/
theorem structuredDivergenceResults : Obligations.StructuredDivergenceResults := by
  intro s f
  refine ⟨fun room => ?_, fun past => ?_, ?_, ?_⟩
  · obtain ⟨only, mine, skips, nest⟩ := skipIfNone_nested s f (fun l n =>
      if n = 0 then (if (s.g.liveExec &&& s.g.predMask (modeBp s.g.mode)).getLsbD l then 0 else 1) else n + 1)
    refine ⟨_, execCIf_counts s f room, only, mine, skips, fun l => ?_⟩
    rw [nest, Group.nest_mapNest, getLsbD_and_predMask]
    cases s.g.notDeferred.getLsbD l <;> rfl
  · refine ⟨maskOf (nestOverflow s.g), (nestOverflow s.g).map (nestRecord s), execCIf_overflows s f past, fun l hl => ?_, fun l hl => ?_, fun x hx => ?_, ?_⟩
    · rw [getLsbD_maskOf, decide_eq_true hl, Bool.true_and, Bool.eq_iff_iff, decide_eq_true_iff, nestOverflow_mem, Bool.and_eq_true, decide_eq_true_iff]
    · rw [getLsbD_maskOf, decide_eq_true hl, Bool.true_and, decide_eq_true_iff]
      constructor
      · rintro ⟨r, mem⟩
        obtain ⟨j, hj, e⟩ := List.mem_map.1 mem
        have same : 16 * j = 16 * l := congrArg Prod.fst e
        rwa [show l = j by omega]
      · exact fun mem => ⟨_, List.mem_map_of_mem mem⟩
    · obtain ⟨l, hl, rfl⟩ := List.mem_map.1 hx
      have lane : l < 64 := lt_of_getLsbD ((nestOverflow_mem s.g l).1 hl).1
      exact ⟨l, _, rfl, lane, nestRecord_fields s.iss.word lane (s.g.plane.get l 0) s.g.offset⟩
    · exact State.nestSaved_trans (NestsKept.setG s (g := { s.g with recs := s.g.recs ++ (nestOverflow s.g).map (nestRecord s) }) rfl)
        (State.trapAt_saved _ 0x12 0 (maskOf (nestOverflow s.g)) 0)
  · obtain ⟨only, mine, skips, nest⟩ := skipIfNone_nested s f (fun _ n => if n = 0 then 1 else if n = 1 then 0 else n)
    refine ⟨_, rfl, only, mine, skips, fun l => ?_⟩
    rw [nest, Group.nest_mapNest]
    cases s.g.notDeferred.getLsbD l <;> rfl
  · have mine : (s.setG (s.g.mapNest (fun _ n => if n = 0 then 0 else n - 1))).g = s.g.mapNest (fun _ n => if n = 0 then 0 else n - 1) :=
      State.g_setG ..
    refine ⟨_, rfl, groupOnly_setG s _ s.iss, rfl, ?_, fun l => ?_⟩
    · rw [mine]
      rfl
    · rw [mine, Group.nest_mapNest]
      exact count_down _ _

end Sys2Proof.Machine
end

section
/-! SUPPORT. Faults of lanes, and the lanes of a global access that do not take part (R37, R39, R152, R156, R159). -/

namespace Sys2Proof.Machine

open Sys2Proof

/-- A fault of an access to be recorded: lane, kind and address. -/
structure LaneFault where
  lane : Nat
  kind : Nat
  addr : Nat

namespace Group

/-- The faults of an issue recorded one after the other. -/
def faultAll (g : Group) (i : Issue) (scalar : Bool) (l : List LaneFault) : Group :=
  l.foldl (fun g x => g.accessFault i scalar x.lane x.kind x.addr) g

/-- The record of a fault. -/
def faultRec (g : Group) (i : Issue) (scalar : Bool) (x : LaneFault) : Nat × Nat × Nat :=
  (if scalar then 1088 else 16 * x.lane, 16, State.laneRecord x.kind (i.word.toNat / 2 ^ 25) (if scalar then 0xFF else x.lane)
    (if scalar then State.lowPlane i.planes else (g.plane.get x.lane 0).toNat) i.here.toNat x.addr)

/-- Nothing but records and faults differs, and the record stands behind the others. -/
theorem accessFault_eq (g : Group) (i : Issue) (scalar : Bool) (lane kind addr : Nat) :
    g.accessFault i scalar lane kind addr = { g with
      recs := g.recs ++ [g.faultRec i scalar ⟨lane, kind, addr⟩], faults := (g.accessFault i scalar lane kind addr).faults } := by
  unfold Group.accessFault Group.noteFault
  dsimp only
  split <;> rfl

theorem faultAll_eq (g : Group) (i : Issue) (scalar : Bool) (l : List LaneFault) :
    g.faultAll i scalar l = { g with recs := g.recs ++ l.map (g.faultRec i scalar), faults := (g.faultAll i scalar l).faults } := by
  induction l generalizing g with
  | nil =>
    rw [List.map_nil, List.append_nil]
    rfl
  | cons x r ih =>
    have first := g.accessFault_eq i scalar x.lane x.kind x.addr
    have rest := ih (g.accessFault i scalar x.lane x.kind x.addr)
    change (g.accessFault i scalar x.lane x.kind x.addr).faultAll i scalar r = { g with recs := _, faults := ((g.accessFault i scalar x.lane x.kind x.addr).faultAll i scalar r).faults }
    rw [rest]
    generalize ((g.accessFault i scalar x.lane x.kind x.addr).faultAll i scalar r).faults = f
    generalize g.accessFault i scalar x.lane x.kind x.addr = h at first
    rw [List.map_cons, List.append_cons, first]
    rfl

end Group

/-- A gathered fault is one of an issue. -/
def Faults.ofIssue (f : Faults) (i : Issue) : Prop := f.word = i.word ∧ f.here = i.here ∧ f.planes = i.planes

theorem Faults.ofIssue_ite {p : Prop} [Decidable p] {a b : Faults} {i : Issue} (ha : a.ofIssue i) (hb : b.ofIssue i) :
    (if p then a else b).ofIssue i := by
  split
  · exact ha
  · exact hb

/-- What the faults gathered by a group are after one more of an issue. -/
theorem Group.accessFault_faults (g : Group) (i : Issue) (scalar : Bool) (lane kind addr : Nat) :
    ∃ f, (g.accessFault i scalar lane kind addr).faults = some f ∧
      (∀ b, b < 64 → f.lanes.getLsbD b = ((!scalar && lane == b) || g.faults.any (fun f => f.lanes.getLsbD b))) ∧
      ((∀ f0, g.faults = some f0 → f0.ofIssue i) → f.ofIssue i) ∧
      (g.faults = none → scalar = true → f.addr = BitVec.ofNat 64 addr) := by
  have bit (b : Nat) (hb : b < 64) : (if scalar then 0 else laneBit lane).getLsbD b = (!scalar && lane == b) := by
    cases scalar
    · rw [if_neg Bool.false_ne_true, laneBit, BitVec.getLsbD_twoPow, Bool.not_false, Bool.true_and, Bool.eq_iff_iff, Bool.and_eq_true,
        decide_eq_true_iff, decide_eq_true_iff, beq_iff_eq]
      exact ⟨And.right, fun e => ⟨e ▸ hb, e⟩⟩
    · rw [if_pos rfl]
      exact BitVec.getLsbD_zero
  unfold Group.accessFault Group.noteFault
  dsimp only
  split
  · rename_i none
    refine ⟨_, rfl, fun b hb => ?_, fun _ => ⟨rfl, rfl, rfl⟩, fun _ one => ?_⟩
    · rw [none, Option.any_none, Bool.or_false]
      exact bit b hb
    · rw [if_pos one]
  · rename_i f0 before
    refine ⟨_, rfl, fun b hb => ?_, fun same => ?_, fun none => nomatch before.symm.trans none⟩
    · rw [before, Option.any_some, BitVec.getLsbD_or, bit b hb, Bool.or_comm]
    · have old := same f0 before
      refine ⟨(Faults.ofIssue_ite ?_ old).1, (Faults.ofIssue_ite ?_ old).2.1, by rw [old.2.2, BitVec.or_self]⟩
      · exact ⟨rfl, rfl, rfl⟩
      · exact ⟨rfl, rfl, rfl⟩

/-- What they are after the faults of several lanes. -/
theorem Group.faultAll_faults (g : Group) (i : Issue) (scalar : Bool) (l : List LaneFault) (some' : l ≠ []) :
    ∃ f, (g.faultAll i scalar l).faults = some f ∧
      (∀ b, b < 64 → f.lanes.getLsbD b = ((!scalar && (l.map (fun x => x.lane)).contains b) || g.faults.any (fun f => f.lanes.getLsbD b))) ∧
      ((∀ f0, g.faults = some f0 → f0.ofIssue i) → f.ofIssue i) ∧
      (g.faults = none → scalar = true → ∀ x, l = [x] → f.addr = BitVec.ofNat 64 x.addr) := by
  induction l generalizing g with
  | nil => exact absurd rfl some'
  | cons x r ih =>
    obtain ⟨f, now, lanes, mine, addr⟩ := g.accessFault_faults i scalar x.lane x.kind x.addr
    by_cases last : r = []
    · subst last
      refine ⟨f, now, fun b hb => ?_, mine, fun none one y e => ?_⟩
      · rw [lanes b hb]
        rw [List.map_cons, List.map_nil, List.contains_cons, List.contains_nil, Bool.or_false, BEq.comm]
      · obtain rfl := (List.cons.inj e).1
        exact addr none one
    · obtain ⟨f', then_, lanes', mine', -⟩ := ih (g.accessFault i scalar x.lane x.kind x.addr) last
      refine ⟨f', then_, fun b hb => ?_, fun same => mine' (fun f0 e => ?_), fun _ _ y e => absurd (List.cons.inj e).2 last⟩
      · rw [lanes' b hb, now, Option.any_some, lanes b hb, List.map_cons, List.contains_cons]
        cases scalar <;> cases (r.map (fun x => x.lane)).contains b <;> simp [BEq.comm]
      · obtain rfl := Option.some.inj (now.symm.trans e)
        exact mine same

/-- The faults of an issue as `FaultsTaken` states them, recorded by a group with the records and faults that it had. -/
theorem faultsTaken_of {s t : State} {g : Group} {scalar : Bool} {l : List LaneFault} {kind addr : Nat → Nat}
    (named : ∀ x ∈ l, kind x.lane = x.kind ∧ addr x.lane = x.addr) (recs : g.recs = s.g.recs) (faults : g.faults = s.g.faults)
    (plane : g.plane = s.g.plane) (left : t.g = g.faultAll s.iss scalar l) : FaultsTaken s t scalar (l.map (fun x => x.lane)) kind addr := by
  refine ⟨?_, fun none => ?_, fun some' => ?_⟩
  · rw [left, Group.faultAll_eq, List.map_map, recs]
    refine congrArg (s.g.recs ++ ·) (List.map_congr_left fun x mem => ?_)
    obtain ⟨k, a⟩ := named x mem
    dsimp only [Function.comp]
    rw [k, a, ← plane]
    rfl
  · rw [left, List.map_eq_nil_iff.1 none]
    exact faults
  · obtain ⟨f, now, lanes, mine, first⟩ := g.faultAll_faults s.iss scalar l (fun none => some' (by rw [none]; rfl))
    rw [faults] at lanes mine first
    rw [← left] at now
    refine ⟨f, now, lanes, fun none => ?_⟩
    obtain ⟨word, here, planes⟩ := mine (fun f0 e => nomatch none.symm.trans e)
    refine ⟨word, here, planes, fun one j e => ?_⟩
    obtain ⟨x, rfl⟩ := List.length_eq_one_iff.1 ((List.length_map (fun x : LaneFault => x.lane)).symm.trans (congrArg List.length e))
    obtain rfl : x.lane = j := (List.cons.inj e).1
    rw [(named x (List.mem_singleton_self _)).2]
    exact first none one x rfl

end Sys2Proof.Machine
end

section
/-! SUPPORT. The lanes of a global access: those that stop it, and those that do not take part (R37, R39, R152, R156, R159). -/

namespace Sys2Proof.Machine

open Sys2Proof

/-- The fault of a lane that fails a check. -/
def laneFaultOf (x : Lane) : Option LaneFault := (laneKind x).map (fun k => ⟨x.lane, k, x.va⟩)

theorem laneFaults_lanes (xs : List Lane) :
    (xs.filterMap laneFaultOf).map (fun x => x.lane) = (xs.filter (fun x => (laneKind x).isSome)).map (fun x => x.lane) := by
  induction xs with
  | nil => rfl
  | cons x r ih =>
    rw [List.filterMap_cons, List.filter_cons, laneFaultOf]
    cases laneKind x
    · exact ih
    · exact congrArg (x.lane :: ·) ih

/-- A lane found by its number, where no two lanes have the same. -/
theorem find?_lane {xs : List Lane} (distinct : (xs.map (fun x => x.lane)).Nodup) {x : Lane} (mem : x ∈ xs) :
    xs.find? (fun y => y.lane == x.lane) = some x := by
  induction xs with
  | nil => cases mem
  | cons y r ih =>
    rw [List.map_cons, List.nodup_cons] at distinct
    rcases List.mem_cons.1 mem with rfl | there
    · exact List.find?_cons_of_pos (beq_self_eq_true x.lane)
    · rw [List.find?_cons_of_neg]
      · exact ih distinct.2 there
      · rw [beq_iff_eq]
        exact fun e => distinct.1 (e ▸ List.mem_map_of_mem there)

theorem laneFaults_named {xs : List Lane} (distinct : (xs.map (fun x => x.lane)).Nodup) :
    ∀ f ∈ xs.filterMap laneFaultOf, ((xs.find? (fun x => x.lane == f.lane)).bind laneKind).getD 0 = f.kind ∧
      ((xs.find? (fun x => x.lane == f.lane)).map (fun x => x.va)).getD 0 = f.addr := by
  intro f mem
  obtain ⟨x, hx, e⟩ := List.mem_filterMap.1 mem
  obtain ⟨k, kind, rfl⟩ := Option.map_eq_some_iff.1 e
  rw [find?_lane distinct hx, Option.bind_some, kind]
  exact ⟨rfl, rfl⟩

namespace State

variable (s : State)

theorem translateLanes_lanes {ls : List Nat} {a b : Operand} {n : Nat} {acc : Acc} {s1 : State} {xs : List Lane}
    (h : s.translateLanes ls a b n acc = (s1, xs)) : Translates s s1 ∧ xs.map (fun x => x.lane) = ls := by
  induction ls generalizing s xs with
  | nil =>
    obtain ⟨rfl, rfl⟩ := Prod.mk.inj h
    exact ⟨.refl s, rfl⟩
  | cons l r ih =>
    have first := s.translate_translates s.g.die s.g.fn (some s.g.ckey) (s.globalAddr a b l) n acc
    unfold translateLanes at h
    dsimp only at h
    obtain ⟨rfl, rfl⟩ := Prod.mk.inj h
    obtain ⟨rest, lanes⟩ := ih (s.translate s.g.die s.g.fn (some s.g.ckey) (s.globalAddr a b l) n acc).1 rfl
    exact ⟨first.trans rest, congrArg (l :: ·) lanes⟩

/-- One lane's fault, where it fails a check. -/
theorem faultLanes_acts (scalar : Bool) (xs : List Lane) :
    let t := xs.foldl (fun s x => match x.xl with
      | .fault k => s.accessFault scalar x.lane k x.va
      | .aperture => s.accessFault scalar x.lane 2 x.va
      | _ => s) s
    t = { s with groups := t.groups } ∧ (∀ k, k ≠ s.cur → t.group k = s.group k) ∧ t.g = s.g.faultAll s.iss scalar (xs.filterMap laneFaultOf) := by
  induction xs generalizing s with
  | nil => exact ⟨rfl, fun _ _ => rfl, rfl⟩
  | cons x r ih =>
    have faulted (k : Nat) (hk : laneKind x = some k) : let u := s.accessFault scalar x.lane k x.va
        let t := r.foldl (fun s x => match x.xl with
          | .fault k => s.accessFault scalar x.lane k x.va
          | .aperture => s.accessFault scalar x.lane 2 x.va
          | _ => s) u
        t = { s with groups := t.groups } ∧ (∀ k, k ≠ s.cur → t.group k = s.group k) ∧
          t.g = s.g.faultAll s.iss scalar ((x :: r).filterMap laneFaultOf) := by
      obtain ⟨frame, others, mine⟩ := ih (s.accessFault scalar x.lane k x.va)
      have here : (s.accessFault scalar x.lane k x.va).g = s.g.accessFault s.iss scalar x.lane k x.va := g_modG ..
      refine ⟨frame.trans rfl, fun j hj => (others j hj).trans (group_modG_ne _ _ _ hj), mine.trans ?_⟩
      rw [here, List.filterMap_cons, laneFaultOf, hk]
      rfl
    rw [List.foldl_cons]
    obtain ⟨lane, va, xl⟩ := x
    cases xl with
    | fault k => exact faulted k rfl
    | aperture => exact faulted 2 rfl
    | _ => exact ih s

/-! ### Lanes on pages that are not present -/

theorem absentLanes_mem {xs : List Lane} {q : ParkedLane} (h : q ∈ s.absentLanes xs) :
    ∃ x ∈ xs, lanePage x = some (q.fkey, q.page) ∧ x.lane = q.lane := by
  obtain ⟨x, hx, e⟩ := List.mem_filterMap.1 h
  obtain ⟨lane, va, xl⟩ := x
  refine ⟨_, hx, ?_⟩
  cases xl with
  | absent f p =>
    obtain rfl := Option.some.inj e
    exact ⟨rfl, rfl⟩
  | _ => cases e

theorem mem_absentLanes {xs : List Lane} {x : Lane} (hx : x ∈ xs) {f p : Nat} (page : lanePage x = some (f, p)) :
    ⟨f, p, x.lane, x.va, s.iss.word, s.iss.planes⟩ ∈ s.absentLanes xs := by
  refine List.mem_filterMap.2 ⟨x, hx, ?_⟩
  obtain ⟨lane, va, xl⟩ := x
  cases xl with
  | absent f p =>
    obtain ⟨rfl, rfl⟩ := Prod.mk.inj (Option.some.inj page)
    rfl
  | _ => cases page

theorem absentLanes_cons {x : Lane} {xs : List Lane} {f p : Nat} (page : lanePage x = some (f, p)) :
    s.absentLanes (x :: xs) = ⟨f, p, x.lane, x.va, s.iss.word, s.iss.planes⟩ :: s.absentLanes xs := by
  obtain ⟨lane, va, xl⟩ := x
  cases xl with
  | absent f p =>
    obtain ⟨rfl, rfl⟩ := Prod.mk.inj (Option.some.inj page)
    rfl
  | _ => cases page

theorem absentLanes_eq_nil {xs : List Lane} : s.absentLanes xs = [] ↔ ∀ x ∈ xs, lanePage x = none := by
  constructor
  · intro none x hx
    by_contra some'
    obtain ⟨⟨f, p⟩, page⟩ := Option.ne_none_iff_exists'.1 some'
    have mem := s.mem_absentLanes hx page
    rw [none] at mem
    cases mem
  · intro none
    rw [List.eq_nil_iff_forall_not_mem]
    intro q mem
    obtain ⟨x, hx, page, -⟩ := s.absentLanes_mem mem
    exact nomatch (none x hx).symm.trans page

theorem absentLanes_lanes (xs : List Lane) :
    (s.absentLanes xs).map (fun q => q.lane) = (xs.filter (fun x => (lanePage x).isSome)).map (fun x => x.lane) := by
  induction xs with
  | nil => rfl
  | cons x r ih =>
    obtain ⟨lane, va, xl⟩ := x
    cases xl with
    | absent f p => exact congrArg (lane :: ·) ih
    | _ => exact ih

theorem requestAll_partWork (ps : List ParkedLane) (acc : Acc) :
    PartWork s (s.requestAll ps acc) ∧ ∀ p ∈ ps, (s.requestAll ps acc).requested p.fkey p.page = true := by
  induction ps generalizing s with
  | nil => exact ⟨.refl s, fun _ h => nomatch h⟩
  | cons q r ih =>
    obtain ⟨first, asked⟩ := s.requestPage_partWork q.fkey q.page acc
    obtain ⟨rest, more⟩ := ih (s.requestPage q.fkey q.page acc)
    refine ⟨first.trans rest, fun p mem => ?_⟩
    rcases List.mem_cons.1 mem with rfl | there
    · exact rest.pages _ _ asked
    · exact more p there

/-- An access goes on where none of its lanes is on an absent page, or those that are may park (R37, R159). -/
theorem absentStop_none {scalar : Bool} {xs : List Lane} {acc : Acc} (goes : goesOn s scalar xs) : s.absentStop scalar xs acc = none := by
  unfold absentStop
  split
  · rfl
  · rename_i q r some'
    have parks : scalar = false ∧ (s.g.parked = 0 ∨ s.g.parkOffset = s.g.offset) := by
      refine goes.resolve_left (fun none => ?_)
      rw [(s.absentLanes_eq_nil).2 none] at some'
      cases some'
    obtain ⟨rfl, park⟩ := parks
    rw [if_neg Bool.false_ne_true, if_neg]
    rw [Bool.and_eq_true, bne_iff_ne, bne_iff_ne]
    exact fun ⟨parked, elsewhere⟩ => park.elim parked elsewhere

/-- The waiting pages with those that are new to them. -/
theorem mem_addPages {α : Type} [BEq α] [LawfulBEq α] (old new : List α) {x : α} (h : x ∈ new) :
    x ∈ old ++ new.filter (fun q => !old.contains q) := by
  by_cases had : x ∈ old
  · exact List.mem_append_left _ had
  · exact List.mem_append_right _ (List.mem_filter.2 ⟨h, by simpa using had⟩)

/-- What an access that stops keeps, whatever its group then waits for. -/
theorem stopped_keeps {u : State} (work : PartWork s u) {f : Group → Group}
    (keep : ∀ g, (f g).recs = g.recs ∧ (f g).faults = g.faults ∧ (f g).parked = g.parked) (i : Issue) :
    let t : State := { u.modG f with iss := i }
    t.g = f u.g ∧ t.loads = s.loads ∧ t.reqs = s.reqs ∧ t.aliases = s.aliases ∧ t.g.recs = s.g.recs ∧ t.g.faults = s.g.faults ∧
      t.g.parked = s.g.parked := by
  have mine : State.g { u.modG f with iss := i } = f u.g := g_modG ..
  obtain ⟨recs, faults, parked⟩ := keep u.g
  refine ⟨mine, work.loads, work.reqs, work.aliases, ?_, ?_, ?_⟩
  · rw [mine, recs, work.g.same]
  · rw [mine, faults, work.g.same]
  · rw [mine, parked, work.g.same]

/-- An access that does not go on stops (R37, R159). -/
theorem absentStop_some {scalar : Bool} {xs : List Lane} {acc : Acc} (stops : ¬ goesOn s scalar xs) :
    ∃ t, s.absentStop scalar xs acc = some t ∧ LanesStopped s t scalar xs := by
  obtain ⟨absent, cannot⟩ := not_or.1 stops
  rw [← s.absentLanes_eq_nil] at absent
  unfold absentStop
  split
  · rename_i none
    exact absurd none absent
  · rename_i q r some'
    cases scalar
    · have away : s.g.parked ≠ 0 ∧ s.g.parkOffset ≠ s.g.offset := by
        rw [not_and, not_or] at cannot
        exact cannot rfl
      obtain ⟨asked, all⟩ := s.requestAll_partWork (q :: r) acc
      rw [if_neg Bool.false_ne_true, if_pos (by rw [Bool.and_eq_true, bne_iff_ne, bne_iff_ne]; exact away)]
      obtain ⟨mine, loads, reqs, aliases, recs, faults, parked⟩ := s.stopped_keeps asked
        (f := fun g => { g with waitPages := g.waitPages ++ ((q :: r).map (fun q => (q.fkey, q.page))).filter (fun q => !g.waitPages.contains q) })
        (fun _ => ⟨rfl, rfl, rfl⟩) { (s.requestAll (q :: r) acc).iss with cancelled := true, hold := true }
      refine ⟨_, rfl, loads, reqs, aliases, recs, faults, parked, fun no => (nomatch no), fun _ => ⟨?_, fun x hx f p page => ?_⟩⟩
      · exact congrArg (fun i : Issue => { i with hold := true, cancelled := true }) asked.iss
      · have mem := s.mem_absentLanes hx page
        rw [some'] at mem
        refine ⟨?_, all _ mem⟩
        refine (congrArg (fun g : Group => (f, p) ∈ g.waitPages) mine).mpr ?_
        exact mem_addPages _ _ (List.mem_map_of_mem (f := fun q : ParkedLane => (q.fkey, q.page)) mem)
    · obtain ⟨asked, requested⟩ := s.requestPage_partWork q.fkey q.page acc
      rw [if_pos rfl]
      obtain ⟨mine, loads, reqs, aliases, recs, faults, parked⟩ := s.stopped_keeps asked
        (f := fun g => { g with wait := .page q.fkey q.page q.va }) (fun _ => ⟨rfl, rfl, rfl⟩) { (s.requestPage q.fkey q.page acc).iss with hold := true }
      refine ⟨_, rfl, loads, reqs, aliases, recs, faults, parked, fun _ f p page => ?_, fun no => (nomatch no)⟩
      obtain ⟨rfl, rfl⟩ : q.fkey = f ∧ q.page = p := by
        cases xs with
        | nil => cases page
        | cons x xs =>
          have first := s.absentLanes_cons (xs := xs) page
          rw [some'] at first
          obtain rfl := (List.cons.inj first).1
          exact ⟨rfl, rfl⟩
      exact ⟨congrArg (fun i : Issue => { i with hold := true }) asked.iss, requested, q.va, congrArg Group.wait mine⟩

/-- The acting group's record once an episode of parking has been counted. -/
theorem counted_g (g : Group) (f : Life → Life) :
    (((s.setG g).countG 11 1).modLife f).g = { g with cnt := g.cnt.set 11 (g.cnt.get 11 0 + BitVec.ofNat 64 1) } := by
  have counted := (s.setG g).g_modG (fun g => { g with cnt := g.cnt.set 11 (g.cnt.get 11 0 + BitVec.ofNat 64 1) })
  rw [g_setG] at counted
  exact counted

/-- What parking leaves of the acting group (R37, R39). -/
theorem park_parks {ls : List ParkedLane} (some' : ls ≠ []) :
    let t := s.park ls
    t = { s with groups := t.groups, basin := t.basin } ∧
      t.g = { s.g with
        parked := s.g.parked ||| maskOf (ls.map (fun p => p.lane)), parkedOn := s.g.parkedOn ++ ls
        waitPages := s.g.waitPages ++ (ls.map (fun p => (p.fkey, p.page))).filter (fun p => !s.g.waitPages.contains p)
        parkOffset := if s.g.parked = 0 then s.g.offset else s.g.parkOffset
        parkLat := if s.g.parked = 0 then s.g.lat else s.g.parkLat
        parkLatValid := t.g.parkLatValid, shifts := t.g.shifts, rangeStart := t.g.rangeStart, rangeSeq := t.g.rangeSeq, cnt := t.g.cnt } := by
  unfold park
  rw [if_neg (by simpa using some')]
  by_cases first : s.g.parked = 0
  · have first' : (s.g.parked == 0) = true := by rw [first]; rfl
    dsimp only
    rw [first', if_pos rfl, if_pos first, if_pos first]
    refine ⟨rfl, ?_⟩
    rw [counted_g]
    rfl
  · have first' : (s.g.parked == 0) = false := by simpa using first
    dsimp only
    rw [first', if_neg Bool.false_ne_true, if_neg Bool.false_ne_true, if_neg first, if_neg first]
    refine ⟨rfl, ?_⟩
    rw [g_setG]

end State

/-- Whose accesses a group makes, and of what width. -/
def Group.owns (g : Group) : Nat × Nat × Nat × Nat × Word := (g.team, g.die, g.core, g.fn, g.mode)

/-- A state before the faults of a global access are recorded: its lanes on absent pages have parked (R37, R39, R156). -/
structure LanesParked (s v : State) (xs : List Lane) : Prop where
  iss : v.iss = s.iss
  cur : v.cur = s.cur
  loads : v.loads = s.loads
  reqs : v.reqs = s.reqs
  aliases : v.aliases = s.aliases
  agenda : s.agenda ⊆ v.agenda
  recs : v.g.recs = s.g.recs
  faults : v.g.faults = s.g.faults
  plane : v.g.plane = s.g.plane
  owns : v.g.owns = s.g.owns
  none : xs.filter (fun x => (lanePage x).isSome) = [] → v.mem = s.mem ∧ (∀ k, k ≠ s.cur → v.group k = s.group k) ∧
    v.g = { s.g with failedVa := v.g.failedVa }
  some' : xs.filter (fun x => (lanePage x).isSome) ≠ [] →
    (∀ l, l < 64 → v.g.parked.getLsbD l =
      (s.g.parked.getLsbD l || ((xs.filter (fun x => (lanePage x).isSome)).map (fun x => x.lane)).contains l)) ∧
    v.g.parkOffset = (if s.g.parked = 0 then s.g.offset else s.g.parkOffset) ∧
    v.g.parkLat = (if s.g.parked = 0 then s.g.lat else s.g.parkLat) ∧ v.g.lat = s.g.lat ∧ v.g.v = s.g.v ∧ v.g.s = s.g.s ∧
    ∀ x ∈ xs, ∀ f p, lanePage x = some (f, p) → (f, p) ∈ v.g.waitPages ∧ v.requested f p = true

namespace LanesParked

variable {s v t : State} {xs : List Lane}

/-- The faults recorded, the access has left its lanes. -/
theorem left (h : LanesParked s v xs) {scalar : Bool} (distinct : (xs.map (fun x => x.lane)).Nodup)
    (frame : t = { v with groups := t.groups }) (others : ∀ k, k ≠ v.cur → t.group k = v.group k)
    (mine : t.g = v.g.faultAll v.iss scalar (xs.filterMap laneFaultOf)) :
    LanesLeft s t scalar xs ∧ t.cur = s.cur ∧ t.loads = s.loads ∧ t.reqs = s.reqs ∧ t.aliases = s.aliases ∧ s.agenda ⊆ t.agenda ∧
      t.g.owns = s.g.owns := by
  rw [h.iss] at mine
  have kept : t.g = { v.g with recs := t.g.recs, faults := t.g.faults } := by
    rw [mine, Group.faultAll_eq]
  have iss : t.iss = v.iss := (congrArg State.iss frame :)
  have cur : t.cur = v.cur := (congrArg State.cur frame :)
  have mem : t.mem = v.mem := (congrArg State.mem frame :)
  have loads : t.loads = v.loads := (congrArg State.loads frame :)
  have reqs : t.reqs = v.reqs := (congrArg State.reqs frame :)
  have aliases : t.aliases = v.aliases := (congrArg State.aliases frame :)
  have agenda : t.agenda = v.agenda := (congrArg State.agenda frame :)
  have fns : t.fns = v.fns := (congrArg State.fns frame :)
  have owns : t.g.owns = v.g.owns := by rw [kept]; rfl
  refine ⟨⟨iss.trans h.iss, ?_, fun none => ?_, fun some' => ?_⟩, cur.trans h.cur, loads.trans h.loads, reqs.trans h.reqs,
    aliases.trans h.aliases, fun _ m => agenda ▸ h.agenda m, owns.trans h.owns⟩
  · rw [← laneFaults_lanes]
    exact faultsTaken_of (laneFaults_named distinct) h.recs h.faults h.plane mine
  · obtain ⟨mem', others', mine'⟩ := h.none none
    refine ⟨mem.trans mem', fun k hk => (others k (h.cur ▸ hk)).trans (others' k hk), ?_⟩
    rw [kept, mine']
  · obtain ⟨parked, offset, lat, latNow, v', s', pages⟩ := h.some' some'
    have requested (f p : Nat) : t.requested f p = v.requested f p := by rw [State.requested, State.fnOf, fns]; rfl
    have field {α : Type} (f : Group → α) (same : ∀ (g : Group) r x, f { g with recs := r, faults := x } = f g) : f t.g = f v.g := by
      rw [kept, same]
    rw [field Group.parkOffset (fun _ _ _ => rfl), field Group.parkLat (fun _ _ _ => rfl), field Group.lat (fun _ _ _ => rfl),
      field Group.v (fun _ _ _ => rfl), field Group.s (fun _ _ _ => rfl), field Group.waitPages (fun _ _ _ => rfl),
      field Group.parked (fun _ _ _ => rfl)]
    simp only [requested]
    exact ⟨parked, offset, lat, latNow, v', s', pages⟩

end LanesParked

namespace State

variable (s : State)

/-- The lanes that do not take part, before their faults are recorded. -/
def parkedLanes (scalar : Bool) (ls : List Lane) (acc : Acc) : State :=
  if scalar then s.modG (fun g => { g with failedVa := none }) else (s.requestAll (s.absentLanes ls) acc).park (s.absentLanes ls)

theorem parkedLanes_parked {scalar : Bool} {xs : List Lane} {acc : Acc} (goes : goesOn s scalar xs) :
    LanesParked s (s.parkedLanes scalar xs acc) xs := by
  have lanes := s.absentLanes_lanes xs
  cases scalar
  · by_cases none : s.absentLanes xs = []
    · have same : s.parkedLanes false xs acc = s := by
        unfold parkedLanes
        rw [none]
        rfl
      rw [same]
      rw [none, List.map_nil] at lanes
      have empty := List.map_eq_nil_iff.1 lanes.symm
      exact ⟨rfl, rfl, rfl, rfl, rfl, fun _ m => m, rfl, rfl, rfl, rfl, fun _ => ⟨rfl, fun _ _ => rfl, rfl⟩, fun some' => absurd empty some'⟩
    · obtain ⟨asked, all⟩ := s.requestAll_partWork (s.absentLanes xs) acc
      obtain ⟨frame, mine⟩ := (s.requestAll (s.absentLanes xs) acc).park_parks none
      change LanesParked s ((s.requestAll (s.absentLanes xs) acc).park (s.absentLanes xs)) xs
      generalize (s.requestAll (s.absentLanes xs) acc).park (s.absentLanes xs) = v at frame mine
      generalize s.requestAll (s.absentLanes xs) acc = u at frame mine asked all
      have iss : v.iss = u.iss := (congrArg State.iss frame :)
      have cur : v.cur = u.cur := (congrArg State.cur frame :)
      have loads : v.loads = u.loads := (congrArg State.loads frame :)
      have reqs : v.reqs = u.reqs := (congrArg State.reqs frame :)
      have aliases : v.aliases = u.aliases := (congrArg State.aliases frame :)
      have agenda : v.agenda = u.agenda := (congrArg State.agenda frame :)
      have fns : v.fns = u.fns := (congrArg State.fns frame :)
      have requested (f p : Nat) : v.requested f p = u.requested f p := by rw [State.requested, State.fnOf, fns]; rfl
      have g := asked.g.same
      rw [g] at mine
      have filled : xs.filter (fun x => (lanePage x).isSome) ≠ [] := fun empty => none (List.map_eq_nil_iff.1 (by rw [lanes, empty]; rfl))
      refine ⟨iss.trans asked.iss, cur.trans asked.cur, loads.trans asked.loads, reqs.trans asked.reqs, aliases.trans asked.aliases,
        fun _ m => agenda ▸ asked.agenda m, ?_, ?_, ?_, ?_, fun empty => absurd empty filled, fun _ => ?_⟩
      · rw [mine]
      · rw [mine]
      · rw [mine]
      · rw [mine]
        rfl
      · rw [mine]
        refine ⟨fun l hl => ?_, rfl, rfl, rfl, rfl, rfl, fun x hx f p page => ?_⟩
        · rw [BitVec.getLsbD_or, getLsbD_maskOf, decide_eq_true hl, Bool.true_and, lanes, List.contains_eq_mem]
        · have mem := s.mem_absentLanes hx page
          exact ⟨mem_addPages _ _ (List.mem_map_of_mem (f := fun q : ParkedLane => (q.fkey, q.page)) mem), (requested f p).trans (all _ mem)⟩
  · have absent : ∀ x ∈ xs, lanePage x = none := goes.resolve_right (fun h => nomatch h.1)
    have empty : xs.filter (fun x => (lanePage x).isSome) = [] := List.filter_eq_nil_iff.2 (fun x hx => by rw [absent x hx]; exact Bool.false_ne_true)
    change LanesParked s (s.modG (fun g => { g with failedVa := none })) xs
    have mine := s.g_modG (fun g => { g with failedVa := none })
    refine ⟨rfl, rfl, rfl, rfl, rfl, fun _ m => m, ?_, ?_, ?_, ?_, fun _ => ⟨rfl, fun k hk => group_modG_ne _ _ _ hk, ?_⟩, fun some' => absurd empty some'⟩
    all_goals rw [mine]
    rfl

/-- What the lanes that do not take part leave. -/
theorem otherLanes_left {scalar : Bool} {xs : List Lane} {acc : Acc} (goes : goesOn s scalar xs) (distinct : (xs.map (fun x => x.lane)).Nodup) :
    let t := s.otherLanes scalar xs acc
    LanesLeft s t scalar xs ∧ t.cur = s.cur ∧ t.loads = s.loads ∧ t.reqs = s.reqs ∧ t.aliases = s.aliases ∧ s.agenda ⊆ t.agenda ∧
      t.g.owns = s.g.owns := by
  obtain ⟨frame, others, mine⟩ := (s.parkedLanes scalar xs acc).faultLanes_acts scalar xs
  exact (s.parkedLanes_parked goes).left distinct frame others mine

end State

end Sys2Proof.Machine
end

section
/-! SUPPORT. The snapshot cache and reads of lines (R157 to R160, R164, R168). -/

namespace Sys2Proof.Machine

open Sys2Proof

/-- `t` is `s` after lines have been looked for: snapshots and what cores keep may differ, requests and messages are added. -/
structure Reads (s t : State) : Prop where
  rest : { t with cores := s.cores, reqs := s.reqs, reqSeq := s.reqSeq, basin := s.basin, agenda := s.agenda, nextUid := s.nextUid
                  sures := s.sures } = s
  basin : { t.basin with dirs := s.basin.dirs, msgs := s.basin.msgs, life := s.basin.life } = s.basin
  agenda : s.agenda ⊆ t.agenda

namespace Reads

variable {s t u : State}

theorem refl (s : State) : Reads s s := ⟨rfl, rfl, fun _ h => h⟩

theorem trans (h : Reads s t) (k : Reads t u) : Reads s u where
  rest := (congrArg (fun x : State => { x with cores := s.cores, reqs := s.reqs, reqSeq := s.reqSeq, basin := s.basin, agenda := s.agenda, nextUid := s.nextUid, sures := s.sures }) k.rest).trans h.rest
  basin := (congrArg (fun x : Basin => { x with dirs := s.basin.dirs, msgs := s.basin.msgs, life := s.basin.life }) k.basin).trans h.basin
  agenda _ m := k.agenda (h.agenda m)

theorem of_sends (h : Sends s t) : Reads s t :=
  ⟨(congrArg (fun x : State => { x with cores := s.cores, reqs := s.reqs, reqSeq := s.reqSeq }) h.rest :), h.basin, h.agenda⟩

theorem setCore (s : State) (k : Nat) (c : Core) : Reads s (s.setCore k c) := ⟨rfl, rfl, fun _ h => h⟩

theorem cur (h : Reads s t) : t.cur = s.cur := (congrArg State.cur h.rest :)
theorem iss (h : Reads s t) : t.iss = s.iss := (congrArg State.iss h.rest :)
theorem groups (h : Reads s t) : t.groups = s.groups := (congrArg State.groups h.rest :)
theorem mem (h : Reads s t) : t.mem = s.mem := (congrArg State.mem h.rest :)
theorem loads (h : Reads s t) : t.loads = s.loads := (congrArg State.loads h.rest :)
theorem aliases (h : Reads s t) : t.aliases = s.aliases := (congrArg State.aliases h.rest :)
theorem fns (h : Reads s t) : t.fns = s.fns := (congrArg State.fns h.rest :)
theorem g (h : Reads s t) : t.g = s.g := by rw [State.g, h.cur]; exact State.group_of_groups h.groups _

end Reads

namespace State

variable {s t : State}

/-! ### What cores see of a place -/

theorem byteAt_congr (mem : t.mem = s.mem) (live : t.live = s.live) (partNo : t.partNo = s.partNo) (boot : t.basin.boot = s.basin.boot)
    (station0 : t.basin.station0 = s.basin.station0) (station1 : t.basin.station1 = s.basin.station1) (a : Nat) : t.byteAt a = s.byteAt a := by
  unfold byteAt tableByte
  rw [mem, live, partNo, boot, station0, station1]

theorem coreView_congr (veils : t.veils = s.veils) (tags : t.tags = s.tags) (keys : ∀ d, (t.die d).keys = (s.die d).keys)
    (bytes : ∀ a, t.byteAt a = s.byteAt a) (ck loc slot n : Nat) : t.coreView ck loc slot n = s.coreView ck loc slot n := by
  have byte (a : Nat) : t.slotByte slot a = s.slotByte slot a := by
    unfold slotByte
    simp only [tags, keys, bytes]
  unfold coreView
  simp only [veils, byte]

theorem coreView_translates (h : Translates s t) (ck loc slot n : Nat) : t.coreView ck loc slot n = s.coreView ck loc slot n := by
  have basin : t.basin = s.basin := (congrArg State.basin h.rest :)
  have live : t.live = s.live := (congrArg State.live h.rest :)
  have partNo : t.partNo = s.partNo := (congrArg State.partNo h.rest :)
  have veils : t.veils = s.veils := (congrArg State.veils h.rest :)
  have tags : t.tags = s.tags := (congrArg State.tags h.rest :)
  exact coreView_congr veils tags h.keys (byteAt_congr h.mem live partNo (by rw [basin]) (by rw [basin]) (by rw [basin])) ck loc slot n

theorem coreView_reads (h : Reads s t) (ck loc slot n : Nat) : t.coreView ck loc slot n = s.coreView ck loc slot n := by
  have dies : t.dies = s.dies := (congrArg State.dies h.rest :)
  have live : t.live = s.live := (congrArg State.live h.rest :)
  have partNo : t.partNo = s.partNo := (congrArg State.partNo h.rest :)
  have veils : t.veils = s.veils := (congrArg State.veils h.rest :)
  have tags : t.tags = s.tags := (congrArg State.tags h.rest :)
  have boot : t.basin.boot = s.basin.boot := (congrArg Basin.boot h.basin :)
  have station0 : t.basin.station0 = s.basin.station0 := (congrArg Basin.station0 h.basin :)
  have station1 : t.basin.station1 = s.basin.station1 := (congrArg Basin.station1 h.basin :)
  exact coreView_congr veils tags (fun d => by rw [die, dies]; rfl) (byteAt_congr h.mem live partNo boot station0 station1) ck loc slot n

/-- Bytes of a place as a part of its line. -/
theorem coreView_line (s : State) (ck slot : Nat) {loc n : Nat} (inside : loc % 64 + n ≤ 64) :
    ((s.coreView ck (loc / 64 * 64) slot 64).drop (loc % 64)).take n = s.coreView ck loc slot n := by
  apply List.ext_getElem
  · simp only [coreView, List.length_take, List.length_drop, List.length_map, List.length_range]
    omega
  · intro i _ _
    simp only [coreView, List.getElem_take, List.getElem_drop, List.getElem_map, List.getElem_range]
    rw [show loc / 64 * 64 + (loc % 64 + i) = loc + i by omega]

/-! ### Lines of a snapshot -/

theorem snapLine_isSome {ck fn loc : Nat} : (s.snapLine ck fn loc).isSome = true ↔ ∃ x ∈ (s.coreOf ck).snap, x.line = loc / 64 ∧ x.fn = fn := by
  rw [snapLine, List.find?_isSome]
  simp only [Bool.and_eq_true, beq_iff_eq]

theorem snapLine_some {ck fn loc : Nat} {x : SnapLine} (h : s.snapLine ck fn loc = some x) :
    x ∈ (s.coreOf ck).snap ∧ x.line = loc / 64 ∧ x.fn = fn := by
  refine ⟨List.mem_of_find?_eq_some h, ?_⟩
  have named := List.find?_some h
  simpa only [Bool.and_eq_true, beq_iff_eq] using named

/-- An eviction keeps a line's bytes for the core's loads. -/
theorem exists_mem_evict {l : List SnapLine} {x : SnapLine} (h : x ∈ l) : ∃ y ∈ evict l, y.line = x.line ∧ y.fn = x.fn := by
  unfold evict
  split
  · exact ⟨x, h, rfl, rfl⟩
  · split
    · rename_i z _
      by_cases e : x = z
      · subst e
        exact ⟨_, List.mem_append_right _ (List.mem_singleton_self _), rfl, rfl⟩
      · exact ⟨x, List.mem_append_left _ (List.mem_filter.2 ⟨h, by simpa using e⟩), rfl, rfl⟩
    · exact ⟨x, h, rfl, rfl⟩

theorem evict_of_few {l : List SnapLine} (few : l.length < snapLines) : evict l = l := by
  unfold evict
  exact if_pos (lt_of_le_of_lt List.countP_le_length few)

/-- The lines of a core after one has come into its cache. -/
theorem holdLine_snap (ck fn loc space : Nat) (bytes : List Byte) : ((s.holdLine ck fn loc space bytes).coreOf ck).snap =
    evict ((s.coreOf ck).snap.filter (fun x => some x != s.snapLine ck fn loc)) ++
      [(s.snapLine ck fn loc).elim { line := loc / 64, fn, space, bytes, held := true } (fun x => { x with held := true })] := by
  refine (congrArg Core.snap (coreOf_modCore ..)).trans ?_
  cases s.snapLine ck fn loc <;> rfl

theorem holdLine_line {ck fn loc space : Nat} {bytes : List Byte} :
    ∃ x, (s.snapLine ck fn loc).elim { line := loc / 64, fn, space, bytes, held := true } (fun x => { x with held := true }) = (x : SnapLine) ∧
      x.line = loc / 64 ∧ x.fn = fn ∧ x.held = true := by
  cases found : s.snapLine ck fn loc with
  | none => exact ⟨_, rfl, rfl, rfl, rfl⟩
  | some y =>
    obtain ⟨-, line, fn'⟩ := snapLine_some found
    exact ⟨_, rfl, line, fn', rfl⟩

/-- A line that comes into a cache stands there, and each that stood there still does. -/
theorem holdLine_keeps (ck fn loc space : Nat) (bytes : List Byte) (fn' loc' : Nat)
    (h : (s.snapLine ck fn' loc').isSome = true ∨ loc' / 64 = loc / 64 ∧ fn' = fn) :
    ((s.holdLine ck fn loc space bytes).snapLine ck fn' loc').isSome = true := by
  rw [snapLine_isSome, holdLine_snap]
  obtain ⟨l, e, line, owner, -⟩ := holdLine_line (s := s) (ck := ck) (fn := fn) (loc := loc) (space := space) (bytes := bytes)
  rw [e]
  have new : l ∈ evict ((s.coreOf ck).snap.filter (fun x => some x != s.snapLine ck fn loc)) ++ [l] :=
    List.mem_append_right _ (List.mem_singleton_self _)
  rcases h with had | ⟨same, rfl⟩
  · obtain ⟨x, mem, line', owner'⟩ := snapLine_isSome.1 had
    by_cases old : s.snapLine ck fn loc = some x
    · obtain ⟨-, line'', owner''⟩ := snapLine_some old
      exact ⟨l, new, by rw [line, ← line'', line'], by rw [owner, ← owner'', owner']⟩
    · obtain ⟨y, mem', line'', owner''⟩ := exists_mem_evict (List.mem_filter.2 ⟨mem, by simpa using Ne.symm old⟩ :
        x ∈ (s.coreOf ck).snap.filter (fun x => some x != s.snapLine ck fn loc))
      exact ⟨y, List.mem_append_left _ mem', by rw [line'', line'], by rw [owner'', owner']⟩
  · exact ⟨l, new, by rw [line, same], owner⟩

/-! ### Reads of lines of other pounds -/

/-- A request is a core's for the line of a place. -/
structure ReadOf (ck : Nat) (r : Req) (p : LoadPart) : Prop where
  kind : r.kind = .read
  home : r.home = homePound p.loc
  src : r.srcKey = ck
  stale : r.stale = false
  parts : r.parts = (List.range 4).map (fun i => lookPart p (p.loc / 64 * 64 + 16 * i))

namespace ReadOf

variable {ck : Nat} {r : Req} {p : LoadPart}

/-- Its first part stands at the line's first byte. -/
theorem first (h : ReadOf ck r p) : ∃ q ∈ r.parts, q.loc = p.loc / 64 * 64 := by
  rw [h.parts]
  exact ⟨lookPart p (p.loc / 64 * 64 + 16 * 0), List.mem_map_of_mem (List.mem_range.2 (by omega)), rfl⟩

theorem line (h : ReadOf ck r p) : ∀ q ∈ r.parts, q.loc / 64 = p.loc / 64 := by
  rw [h.parts]
  intro q mem
  obtain ⟨i, hi, rfl⟩ := List.mem_map.1 mem
  rw [List.mem_range] at hi
  change (p.loc / 64 * 64 + 16 * i) / 64 = p.loc / 64
  omega

end ReadOf

theorem sendRead_sends (s : State) {ck : Nat} (gk team fn : Nat) {p : LoadPart} (far : homePound p.loc ≠ ck / 512) :
    Reads s (s.sendRead ck gk team fn p) ∧ (s.sendRead ck gk team fn p).cores = s.cores ∧
      ∃ r, (s.sendRead ck gk team fn p).reqs = s.reqs ++ [r] ∧ ReadOf ck r p := by
  have sent := s.sendLook_sends .read gk team fn 16 ((List.range 4).map (fun i => lookPart p (p.loc / 64 * 64 + 16 * i))) far
  have looks : Reads s (s.looking .read ck gk team fn 16 (homePound p.loc) ((List.range 4).map (fun i => lookPart p (p.loc / 64 * 64 + 16 * i)))) :=
    ⟨rfl, rfl, fun _ m => m⟩
  refine ⟨looks.trans (.of_sends sent), (congrArg State.cores sent.rest :), _, State.Sends.reqs sent, rfl, rfl, ?_, rfl, rfl⟩
  change ck / 512 * 512 + ck % 512 = ck
  omega

theorem linePending_iff {ck loc : Nat} : s.linePending ck loc = true ↔
    ∃ r ∈ s.reqs, r.isRead = true ∧ r.stale = false ∧ r.srcKey = ck ∧ ∃ p ∈ r.parts, p.loc / 64 = loc / 64 := by
  rw [linePending, List.any_eq_true]
  simp only [Bool.and_eq_true, Bool.not_eq_true', beq_iff_eq, List.any_eq_true, and_assoc]

theorem ReadOf.pending {ck : Nat} {r : Req} {p : LoadPart} (h : ReadOf ck r p) (mem : r ∈ s.reqs) {loc : Nat} (same : p.loc / 64 = loc / 64) :
    s.linePending ck loc = true := by
  obtain ⟨q, hq, place⟩ := h.first
  refine linePending_iff.2 ⟨r, mem, ?_, h.stale, h.src, q, hq, (h.line q hq).trans same⟩
  rw [Req.isRead, h.kind]
  rfl

end State

end Sys2Proof.Machine
end

section
/-! SUPPORT. What the lanes of a load read (R157 to R160, R164, R168). -/

namespace Sys2Proof.Machine

open Sys2Proof

theorem homePound_line {x y : Nat} (h : x / 64 = y / 64) : homePound x = homePound y := by
  unfold homePound
  omega

namespace State

variable {s u : State}

theorem recallLine_reads (s : State) (ck loc : Nat) : Reads s (s.recallLine ck loc) := ⟨rfl, rfl, fun _ m => m⟩

theorem snapLine_congr {t : State} {ck : Nat} (h : (t.coreOf ck).snap = (s.coreOf ck).snap) (fn loc : Nat) :
    t.snapLine ck fn loc = s.snapLine ck fn loc := by
  rw [snapLine, h]
  rfl

theorem lineHeld_congr {t : State} {ck : Nat} (h : (t.coreOf ck).snap = (s.coreOf ck).snap) (fn loc : Nat) :
    t.lineHeld ck fn loc = s.lineHeld ck fn loc := by
  rw [lineHeld, snapLine_congr h]
  rfl

/-- A line of the core's own die that is touched: it is held already, or comes from its home. -/
theorem touchLine_own (s : State) {ck : Nat} (gk team fn : Nat) {p : LoadPart} (own : homePound p.loc = ck / 512) :
    let t := s.touchLine ck gk team fn p
    Reads s t ∧ t.reqs = s.reqs ∧
      (s.lineHeld ck fn p.loc = true ∧ (t.coreOf ck).snap = (s.coreOf ck).snap ∨
        s.lineHeld ck fn p.loc = false ∧ (t.coreOf ck).snap = evict ((s.coreOf ck).snap.filter (fun x => some x != s.snapLine ck fn p.loc)) ++
          [(s.snapLine ck fn p.loc).elim { line := p.loc / 64, fn, space := p.space, bytes := s.coreView ck (p.loc / 64 * 64) p.slot 64, held := true }
            (fun x => { x with held := true })]) := by
  have recalled := s.recallLine_translates ck p.loc
  have same := lineHeld_congr (recalled.snap ck) fn p.loc
  have reads := s.recallLine_reads ck p.loc
  unfold touchLine fillLine
  dsimp only
  rw [if_pos own, same, if_pos own]
  cases held : s.lineHeld ck fn p.loc with
  | true => exact ⟨reads, rfl, .inl ⟨rfl, recalled.snap ck⟩⟩
  | false =>
    have counted := recalled.trans ((s.recallLine ck p.loc).countC_translates ck 5 1)
    refine ⟨(reads.trans (.setCore ..)).trans (.setCore ..), rfl, .inr ⟨rfl, ?_⟩⟩
    rw [if_neg Bool.false_ne_true, holdLine_snap, counted.snap ck, snapLine_congr (counted.snap ck), coreView_translates recalled]

/-- A line of another pound that is touched: it is held, it is on its way, or it is asked for. -/
theorem touchLine_far (s : State) {ck : Nat} (gk team fn : Nat) {p : LoadPart} (far : homePound p.loc ≠ ck / 512) :
    let t := s.touchLine ck gk team fn p
    Reads s t ∧ (t.coreOf ck).snap = (s.coreOf ck).snap ∧
      (t.reqs = s.reqs ∧ (s.lineHeld ck fn p.loc = true ∨ s.linePending ck p.loc = true) ∨ ∃ r, t.reqs = s.reqs ++ [r] ∧ ReadOf ck r p) := by
  unfold touchLine fillLine
  dsimp only
  rw [if_neg far, if_neg far]
  cases held : s.lineHeld ck fn p.loc with
  | true => exact ⟨.refl s, rfl, .inl ⟨rfl, .inl rfl⟩⟩
  | false =>
    cases pending : s.linePending ck p.loc with
    | true => exact ⟨.refl s, rfl, .inl ⟨rfl, .inr rfl⟩⟩
    | false =>
      rw [if_neg Bool.false_ne_true, if_neg Bool.false_ne_true]
      have counted := s.countC_translates ck 5 1
      obtain ⟨reads, cores, asked⟩ := (s.countC ck 5 1).sendRead_sends gk team fn far
      exact ⟨Reads.trans (.setCore ..) reads, (congrArg Core.snap (coreOf_of_cores cores ck)).trans (counted.snap ck), .inr asked⟩

theorem touchLine_reads (s : State) (ck gk team fn : Nat) (p : LoadPart) : Reads s (s.touchLine ck gk team fn p) := by
  by_cases own : homePound p.loc = ck / 512
  · exact (s.touchLine_own gk team fn own).1
  · exact (s.touchLine_far gk team fn own).1

/-! ### Lines looked for from an empty snapshot -/

/-- The lines that a core has looked for since its snapshot was empty, for places among `ps`: of its own die they are held with the bytes of
their home, of other pounds they are asked for. -/
structure LinesRead (s : State) (ck fn : Nat) (ps : List LoadPart) (u : State) (room : Nat) : Prop where
  reads : Reads s u
  snap : ∀ x ∈ (u.coreOf ck).snap, x.held = true ∧ x.fn = fn ∧ ∃ p ∈ ps, homePound p.loc = ck / 512 ∧ x.line = p.loc / 64 ∧
    x.bytes = s.coreView ck (p.loc / 64 * 64) p.slot 64
  few : (u.coreOf ck).snap.length + room ≤ 64
  reqs : ∀ r ∈ u.reqs, ∃ p ∈ ps, homePound p.loc ≠ ck / 512 ∧ ReadOf ck r p

namespace LinesRead

variable {ck fn room : Nat} {ps : List LoadPart} {p : LoadPart}

/-- A line found is held. -/
theorem held (h : LinesRead s ck fn ps u room) {x : SnapLine} {loc : Nat} (found : u.snapLine ck fn loc = some x) : u.lineHeld ck fn loc = true := by
  rw [lineHeld, found]
  exact (h.snap x (snapLine_some found).1).1

/-- No line of another pound is found. -/
theorem none_far (h : LinesRead s ck fn ps u room) {loc : Nat} (far : homePound loc ≠ ck / 512) : u.snapLine ck fn loc = none := by
  cases found : u.snapLine ck fn loc with
  | none => rfl
  | some x =>
    obtain ⟨mem, line, -⟩ := snapLine_some found
    obtain ⟨-, -, q, -, own, line', -⟩ := h.snap x mem
    exact absurd ((homePound_line (line.symm.trans line')).trans own) far

theorem lessRoom (h : LinesRead s ck fn ps u (room + 1)) : LinesRead s ck fn ps u room :=
  ⟨h.reads, h.snap, by have := h.few; omega, h.reqs⟩

/-- A place of the own die is looked for. -/
theorem own (h : LinesRead s ck fn ps u (room + 1)) (mem : p ∈ ps) (own : homePound p.loc = ck / 512) (gk team : Nat) :
    LinesRead s ck fn ps (u.touchLine ck gk team fn p) room ∧ ((u.touchLine ck gk team fn p).snapLine ck fn p.loc).isSome = true := by
  obtain ⟨reads, reqs, snap⟩ := u.touchLine_own gk team fn own
  have few := h.few
  rcases snap with ⟨held, same⟩ | ⟨missing, new⟩
  · refine ⟨⟨h.reads.trans reads, ?_, ?_, ?_⟩, ?_⟩
    · rw [same]
      exact h.snap
    · rw [same]
      omega
    · rw [reqs]
      exact h.reqs
    · rw [snapLine_congr same]
      cases found : u.snapLine ck fn p.loc with
      | none =>
        rw [lineHeld, found] at held
        cases held
      | some x => rfl
  · have none : u.snapLine ck fn p.loc = none := by
      cases found : u.snapLine ck fn p.loc with
      | none => rfl
      | some x => exact absurd (h.held found) (by rw [missing]; exact Bool.false_ne_true)
    have all : (u.coreOf ck).snap.filter (fun x => some x != (Option.none : Option SnapLine)) = (u.coreOf ck).snap :=
      List.filter_eq_self.2 (fun _ _ => rfl)
    rw [none, all, evict_of_few (by unfold snapLines; omega), Option.elim_none, coreView_reads h.reads] at new
    refine ⟨⟨h.reads.trans reads, ?_, ?_, ?_⟩, ?_⟩
    · rw [new]
      intro x hx
      rcases List.mem_append.1 hx with old | new
      · exact h.snap x old
      · obtain rfl := List.mem_singleton.1 new
        exact ⟨rfl, rfl, p, mem, own, rfl, rfl⟩
    · rw [new, List.length_append, List.length_singleton]
      omega
    · rw [reqs]
      exact h.reqs
    · rw [snapLine_isSome, new]
      exact ⟨_, List.mem_append_right _ (List.mem_singleton_self _), rfl, rfl⟩

/-- A place of another pound is looked for. -/
theorem far (h : LinesRead s ck fn ps u (room + 1)) (mem : p ∈ ps) (far : homePound p.loc ≠ ck / 512) (gk team : Nat) :
    let t := u.touchLine ck gk team fn p
    LinesRead s ck fn ps t room ∧ u.reqs ⊆ t.reqs ∧ ∃ r ∈ t.reqs, ∃ q ∈ ps, q.loc / 64 = p.loc / 64 ∧ ReadOf ck r q := by
  dsimp only
  obtain ⟨reads, snap, reqs⟩ := u.touchLine_far gk team fn far
  have few := h.few
  have lines (asked : ∀ r ∈ (u.touchLine ck gk team fn p).reqs, ∃ p ∈ ps, homePound p.loc ≠ ck / 512 ∧ ReadOf ck r p) :
      LinesRead s ck fn ps (u.touchLine ck gk team fn p) room := by
    refine ⟨h.reads.trans reads, ?_, ?_, asked⟩
    · rw [snap]
      exact h.snap
    · rw [snap]
      omega
  rcases reqs with ⟨same, known⟩ | ⟨r, new, asked⟩
  · rw [same] at lines
    refine ⟨lines h.reqs, fun _ m => same ▸ m, ?_⟩
    have pending := known.resolve_left (by rw [lineHeld, h.none_far far]; exact Bool.false_ne_true)
    obtain ⟨r, hr, -, -, -, q, hq, line⟩ := linePending_iff.1 pending
    obtain ⟨p', hp', -, read⟩ := h.reqs r hr
    exact ⟨r, same ▸ hr, p', hp', (read.line q hq).symm.trans line, read⟩
  · rw [new] at lines ⊢
    refine ⟨lines (fun x hx => ?_), List.subset_append_left .., r, List.mem_append_right _ (List.mem_singleton_self _), p, mem, rfl, asked⟩
    rcases List.mem_append.1 hx with old | new
    · exact h.reqs x old
    · obtain rfl := List.mem_singleton.1 new
      exact ⟨p, mem, far, asked⟩

/-- No store and no atomic is outstanding. -/
theorem kind (h : LinesRead s ck fn ps u room) : ∀ r ∈ u.reqs, r.kind = .read := by
  intro r hr
  obtain ⟨_, _, _, read⟩ := h.reqs r hr
  exact read.kind

theorem not_atomicPending (h : LinesRead s ck fn ps u room) (uid loc n : Nat) : u.atomicPending ck uid loc n = false := by
  rw [atomicPending, List.any_eq_false]
  intro r hr
  rw [Req.isAtomic, h.kind r hr]
  simp

end LinesRead

/-- The value of a load where no store of its core is outstanding. -/
theorem loadValue_of_reads (reads : ∀ r ∈ s.reqs, r.kind = .read) (ck fn uid loc slot n : Nat) :
    s.loadValue ck fn uid loc slot n = natOf ((s.snapLine ck fn loc).elim (s.coreView ck loc slot n) (fun x => (x.bytes.drop (loc % 64)).take n)) := by
  have mine : s.reqs.filter (fun r => r.ofCore ck && !r.performed && decide (r.uid < uid) && r.kind == ReqKind.store) = [] := by
    rw [List.filter_eq_nil_iff]
    intro r hr
    rw [reads r hr]
    simp
  have latest (l : List Byte) : l.zipIdx.map (fun p => latestByte [] (loc + p.2) p.1) = l := List.zipIdx_map_fst 0 l
  unfold loadValue
  dsimp only
  rw [mine, List.flatMap_nil, latest]
  cases s.snapLine ck fn loc <;> rfl

/-- What a load takes of a place whose line is held: the bytes of the home. -/
theorem LinesRead.value_own {ck fn room n : Nat} {ps : List LoadPart} {p : LoadPart} (h : LinesRead s ck fn ps u room)
    (found : (u.snapLine ck fn p.loc).isSome = true) (inside : p.loc % 64 + n ≤ 64)
    (slots : ∀ q ∈ ps, q.loc / 64 = p.loc / 64 → q.slot = p.slot) (uid : Nat) :
    u.loadValue ck fn uid p.loc p.slot n = natOf (s.coreView ck p.loc p.slot n) := by
  obtain ⟨x, line⟩ := Option.isSome_iff_exists.1 found
  obtain ⟨hx, number, -⟩ := snapLine_some line
  obtain ⟨-, -, q, hq, -, number', bytes⟩ := h.snap x hx
  have same : q.loc / 64 = p.loc / 64 := number'.symm.trans number
  rw [loadValue_of_reads h.kind, line, Option.elim_some, bytes, same, slots q hq same, coreView_line s ck p.slot inside]

/-- What a load takes of a place of another pound that it reads at once. -/
theorem LinesRead.value_far {ck fn room n : Nat} {ps : List LoadPart} {loc : Nat} (h : LinesRead s ck fn ps u room)
    (far : homePound loc ≠ ck / 512) (slot uid : Nat) : u.loadValue ck fn uid loc slot n = natOf (s.coreView ck loc slot n) := by
  rw [loadValue_of_reads h.kind, h.none_far far, Option.elim_none, coreView_reads h.reads]

/-- The part that a load takes of a place, where nothing stands between it and the home. -/
def takenPart (s : State) (n : Nat) (p : LoadPart) : LoadPart :=
  { p with value := if homePound p.loc = s.g.die ∨ homePound p.loc = s.g.ckey / 512
             then some (extendValue s.g.mode n (natOf (s.coreView s.g.ckey p.loc p.slot n))) else none }

/-- One lane's place read, where neither an atomic nor an earlier run holds it back. -/
theorem readParts_ok {n lane va sp loc slot : Nat} {expo : Option Nat} {r : List Lane}
    (free : u.atomicPending u.g.ckey u.nextUid loc n = false) (run : u.iss.run = 0) :
    let p : LoadPart := { lane, space := sp, loc, value := none, expo, slot, va }
    let t := u.touchLine u.g.ckey u.cur u.g.team u.g.fn p
    u.readParts n (⟨lane, va, .ok sp loc slot expo⟩ :: r) = ((t.readParts n r).1, { p with
      value := if homePound loc == t.g.die || t.lineHeld u.g.ckey t.g.fn loc
        then some (extendValue t.g.mode n (t.loadValue u.g.ckey t.g.fn t.nextUid loc slot n)) else none } :: (t.readParts n r).2) := by
  intro p t
  have go : (u.atomicPending u.g.ckey u.nextUid loc n || (u.iss.run != 0 && u.runPending u.cur u.g.team u.nextUid)) = false := by
    rw [free, run]
    rfl
  rw [readParts]
  dsimp only
  rw [go]
  rfl

theorem readParts_skip {n : Nat} {x : Lane} {r : List Lane} (none : partsOf [x] = []) : u.readParts n (x :: r) = u.readParts n r := by
  obtain ⟨lane, va, xl⟩ := x
  cases xl with
  | ok sp loc slot expo => cases none
  | _ => rfl

/-- The lanes' places read from an empty snapshot with no request outstanding: each part holds what its home holds, and the lines of other
pounds are asked for. -/
theorem readParts_taken {s : State} {n : Nat} {ps : List LoadPart} (run : s.iss.run = 0) (inside : ∀ p ∈ ps, p.loc % 64 + n ≤ 64)
    (slots : ∀ p ∈ ps, ∀ q ∈ ps, p.loc / 64 = q.loc / 64 → p.slot = q.slot) (xs : List Lane) {u : State}
    (h : LinesRead s s.g.ckey s.g.fn ps u xs.length) (among : ∀ p ∈ partsOf xs, p ∈ ps) :
    let r := u.readParts n xs
    LinesRead s s.g.ckey s.g.fn ps r.1 0 ∧ r.2 = (partsOf xs).map (s.takenPart n) ∧ u.reqs ⊆ r.1.reqs ∧
      ∀ p ∈ partsOf xs, homePound p.loc ≠ s.g.ckey / 512 → ∃ x ∈ r.1.reqs, ∃ q ∈ ps, q.loc / 64 = p.loc / 64 ∧ ReadOf s.g.ckey x q := by
  induction xs generalizing u with
  | nil => exact ⟨h, rfl, fun _ m => m, fun _ m => nomatch m⟩
  | cons x r ih =>
    by_cases empty : partsOf [x] = []
    · have same : partsOf (x :: r) = partsOf r := by
        change (partsOf ([x] ++ r)) = _
        rw [partsOf, List.filterMap_append]
        exact congrArg (· ++ partsOf r) empty
      rw [readParts_skip empty, same]
      exact ih h.lessRoom (same ▸ among)
    · obtain ⟨lane, va, xl⟩ := x
      cases xl with
      | ok sp loc slot expo =>
        have g := h.reads.g
        have free : u.atomicPending u.g.ckey u.nextUid loc n = false := by
          rw [g]
          exact h.not_atomicPending ..
        have here : (⟨lane, sp, loc, none, expo, slot, va⟩ : LoadPart) ∈ ps := among _ (List.mem_cons_self ..)
        have later : ∀ p ∈ partsOf r, p ∈ ps := fun p m => among p (List.mem_cons_of_mem _ m)
        dsimp only
        rw [readParts_ok free (by rw [h.reads.iss]; exact run), g]
        dsimp only
        have all : partsOf (⟨lane, va, .ok sp loc slot expo⟩ :: r) = ⟨lane, sp, loc, none, expo, slot, va⟩ :: partsOf r := rfl
        rw [all, List.map_cons]
        by_cases own : homePound loc = s.g.ckey / 512
        · obtain ⟨next, found⟩ := h.own here own u.cur s.g.team
          obtain ⟨done, parts, kept, asked⟩ := ih next later
          have reqs : (u.touchLine s.g.ckey u.cur s.g.team s.g.fn ⟨lane, sp, loc, none, expo, slot, va⟩).reqs = u.reqs :=
            (u.touchLine_own u.cur s.g.team s.g.fn own).2.1
          obtain ⟨x, line⟩ := Option.isSome_iff_exists.1 found
          have held := next.held line
          refine ⟨done, ?_, fun _ m => kept (reqs.symm ▸ m), fun p m far => ?_⟩
          · rw [parts, next.reads.g, held, Bool.or_true, if_pos rfl,
              next.value_own found (inside _ here) (fun q hq e => slots q hq _ here e)]
            refine congrArg (· :: (partsOf r).map (s.takenPart n)) ?_
            rw [takenPart, if_pos (.inr own)]
          · rcases List.mem_cons.1 m with rfl | m
            · exact absurd own far
            · exact asked p m far
        · obtain ⟨next, grown, new⟩ := h.far here own u.cur s.g.team
          obtain ⟨done, parts, kept, asked⟩ := ih next later
          have missing : (u.touchLine s.g.ckey u.cur s.g.team s.g.fn ⟨lane, sp, loc, none, expo, slot, va⟩).lineHeld s.g.ckey s.g.fn loc = false := by
            rw [lineHeld, next.none_far own]
            rfl
          refine ⟨done, ?_, fun _ m => kept (grown m), fun p m far => ?_⟩
          · rw [parts, next.reads.g, missing, Bool.or_false, next.value_far own]
            refine congrArg (· :: (partsOf r).map (s.takenPart n)) ?_
            rw [takenPart]
            simp only [own, or_false, beq_iff_eq]
          · rcases List.mem_cons.1 m with rfl | m
            · obtain ⟨x, hx, found⟩ := new
              exact ⟨x, kept hx, found⟩
            · exact asked p m far
      | _ => exact absurd rfl empty

/-- Places read, whatever the snapshot holds. -/
theorem readParts_reads (n : Nat) (xs : List Lane) (u : State) :
    Reads u (u.readParts n xs).1 ∧ (partsOf xs = [] → (u.readParts n xs).2 = []) := by
  induction xs generalizing u with
  | nil => exact ⟨.refl u, fun _ => rfl⟩
  | cons x r ih =>
    by_cases empty : partsOf [x] = []
    · rw [readParts_skip empty]
      refine ⟨(ih u).1, fun none => (ih u).2 ?_⟩
      have split : partsOf (x :: r) = partsOf [x] ++ partsOf r := List.filterMap_append (l := [x])
      rw [split, empty] at none
      exact none
    · obtain ⟨lane, va, xl⟩ := x
      cases xl with
      | ok sp loc slot expo =>
        refine ⟨?_, fun none => nomatch none⟩
        rw [readParts]
        dsimp only
        split
        · exact (ih u).1
        · exact (u.touchLine_reads ..).trans (ih _).1
      | _ => exact absurd rfl empty

end State

end Sys2Proof.Machine
end

section
/-! SUPPORT. The checks of an address (R148 to R152), and global loads. -/

namespace Sys2Proof.Machine

open Sys2Proof

namespace State

variable (s : State)

theorem recallMany (l : List Nat) :
    (l.foldl (fun s a => s.recallAll a 8) s).mem = s.mem ∧ (l.foldl (fun s a => s.recallAll a 8) s).fns = s.fns :=
  foldl_rel (R := fun a b : State => b.mem = a.mem ∧ b.fns = a.fns) (fun _ => ⟨rfl, rfl⟩)
    (fun h k => ⟨k.1.trans h.1, k.2.trans h.2⟩) (fun s a => s.recallAll a 8) l (fun _ _ _ => ⟨rfl, rfl⟩) s

/-- No leaf is found where the tables have none that is valid, and no buffer holds one (R152, R153). -/
theorem leafOf_none {d fn ck va : Nat} (tlb : (s.coreOf ck).tlb = []) (tlb2 : (s.die d).tlb2 = [])
    (invalid : ∀ e sz, walkFrom s.mem d va [39, 30, 21] (s.fnOf (d * 8 + fn)).cfg.root = some (e, sz) → pteInvalid e sz = true) :
    (s.leafOf d fn (some ck) va).2 = none := by
  have root : (((s.countC ck 6 1).modFn (d * 8 + fn) (fun f => { f with cnt7 := f.cnt7 + 1 })).fnOf (d * 8 + fn)).cfg.root =
      (s.fnOf (d * 8 + fn)).cfg.root := by
    rw [fnOf_modFn]
    rfl
  have walk (l : List Nat) := ((s.countC ck 6 1).modFn (d * 8 + fn) (fun f => { f with cnt7 := f.cnt7 + 1 })).recallMany l
  have tlb2' : ((s.countC ck 6 1).die d).tlb2 = [] := tlb2
  unfold leafOf
  dsimp only
  rw [tlb]
  dsimp only [tlbHit, List.find?_nil]
  rw [tlb2']
  dsimp only [List.find?_nil]
  rw [(walk _).1, fnOf, (walk _).2]
  change (match walkFrom s.mem d va [39, 30, 21] (((s.countC ck 6 1).modFn (d * 8 + fn) (fun f => { f with cnt7 := f.cnt7 + 1 })).fnOf (d * 8 + fn)).cfg.root with
    | none => _
    | some (e, sz) => _ : State × Option (DWord × Nat)).2 = none
  rw [root]
  split
  · rfl
  · rename_i e sz found
    rw [if_pos (invalid e sz found)]

/-! ### The checks of an address, in their order (R152) -/

section

variable {s : State} {d fn va n : Nat} {core : Option Nat} {acc : Acc}

theorem translate_beyond (h : 2 ^ 48 ≤ va) : (s.translate d fn core va n acc).2 = .fault 1 := by
  rw [translate, if_pos h]

theorem translate_misaligned (inside : va < 2 ^ 48) (h : va % n ≠ 0) : (s.translate d fn core va n acc).2 = .fault 3 := by
  rw [translate, if_neg (Nat.not_le.2 inside), if_pos h]

theorem translate_missing (inside : va < 2 ^ 48) (aligned : va % n = 0) (h : (s.leafOf d fn core va).2 = none) :
    (s.translate d fn core va n acc).2 = .fault 1 := by
  rw [translate, if_neg (Nat.not_le.2 inside), if_neg (not_not.2 aligned)]
  dsimp only
  rw [h]

theorem translate_absent (inside : va < 2 ^ 48) (aligned : va % n = 0) {e : DWord} {sz : Nat} (found : (s.leafOf d fn core va).2 = some (e, sz))
    (h : e.getLsbD 1 = false) : (s.translate d fn core va n acc).2 = .absent (d * 8 + fn) (va / 2 ^ sz * 2 ^ sz) := by
  rw [translate, if_neg (Nat.not_le.2 inside), if_neg (not_not.2 aligned)]
  dsimp only
  rw [found]
  dsimp only
  rw [h]
  rfl

theorem translate_refused (inside : va < 2 ^ 48) (aligned : va % n = 0) {e : DWord} {sz : Nat} (found : (s.leafOf d fn core va).2 = some (e, sz))
    (here : e.getLsbD 1 = true)
    (h : (!acc.admits (pteType e) || !acc.rights e || ((pteType e == 1 || pteType e == 2) &&
      (s.leafOf d fn core va).1.keyOwner d (pteSlot e) != some fn)) = true) : (s.translate d fn core va n acc).2 = .fault 2 := by
  rw [translate, if_neg (Nat.not_le.2 inside), if_neg (not_not.2 aligned)]
  dsimp only
  rw [found]
  dsimp only
  rw [here, if_neg (by decide), if_pos h]

theorem translate_memory (inside : va < 2 ^ 48) (aligned : va % n = 0) {e : DWord} {sz : Nat} (found : (s.leafOf d fn core va).2 = some (e, sz))
    (here : e.getLsbD 1 = true) (type : pteType e = 1) (admits : acc.admits 1 = true) (rights : acc.rights e = true)
    (owner : (s.leafOf d fn core va).1.keyOwner d (pteSlot e) = some fn) :
    let frame := pteFrame e / 2 ^ sz * 2 ^ sz
    (s.translate d fn core va n acc).2 = if (s.leafOf d fn core va).1.fencedIn (dieLoc d frame) (2 ^ sz) then .fault 4
      else .ok 1 (dieLoc d (frame + va % 2 ^ sz)) (pteSlot e) none := by
  rw [translate, if_neg (Nat.not_le.2 inside), if_neg (not_not.2 aligned)]
  dsimp only
  rw [found]
  dsimp only
  rw [here, type, admits, rights, owner, if_neg (by decide), if_neg (by simp)]
  exact apply_ite Prod.snd _ _ _

end

end State

/-- An access lacks a right exactly where the leaf does not give it. -/
theorem rights_eq_false {acc : Acc} {e : DWord} : acc.rights e = false ↔ lacksRight acc e := by
  cases acc
  case atomic | own64 =>
    simp only [Acc.rights, lacksRight, Bool.and_eq_false_iff, or_assoc]
  all_goals exact Iff.rfl

theorem admits_eq {acc : Acc} (h : acc = .load ∨ acc = .store ∨ acc = .atomic) (t : Nat) : acc.admits t = decide (t ∈ admittedTypes acc) := by
  rcases h with rfl | rfl | rfl <;> rw [Bool.eq_iff_iff] <;> simp [Acc.admits, admittedTypes, or_assoc]

/-- The checks of an address of a group's access, in their order (R148 to R152). -/
theorem translate_checks (s : State) (va n : Nat) (acc : Acc) (kind : acc = .load ∨ acc = .store ∨ acc = .atomic) :
    let x := (s.translate s.g.die s.g.fn (some s.g.ckey) va n acc).2
    let found := s.leafOf s.g.die s.g.fn (some s.g.ckey) va
    (2 ^ 48 ≤ va → x = .fault 1) ∧ (va < 2 ^ 48 → va % n ≠ 0 → x = .fault 3) ∧
    (va < 2 ^ 48 → va % n = 0 →
      (found.2 = none → x = .fault 1) ∧
      ((s.coreOf s.g.ckey).tlb = [] → (s.die s.g.die).tlb2 = [] →
        (∀ e sz, walkFrom s.mem s.g.die va [39, 30, 21] (s.fnOf s.g.fkey).cfg.root = some (e, sz) →
          e.getLsbD 0 = false ∨ pteType e = 0 ∨ pteType e = 7) → x = .fault 1) ∧
      (∀ e sz, found.2 = some (e, sz) →
        (e.getLsbD 1 = false → x = .absent s.g.fkey (va / 2 ^ sz * 2 ^ sz)) ∧
        (e.getLsbD 1 = true → pteType e ∉ admittedTypes acc ∨ lacksRight acc e ∨
          (pteType e = 1 ∨ pteType e = 2) ∧ found.1.keyOwner s.g.die (pteSlot e) ≠ some s.g.fn → x = .fault 2) ∧
        (e.getLsbD 1 = true → pteType e = 1 → ¬ lacksRight acc e → found.1.keyOwner s.g.die (pteSlot e) = some s.g.fn →
          let frame := pteFrame e / 2 ^ sz * 2 ^ sz
          x = if found.1.fencedIn (dieLoc s.g.die frame) (2 ^ sz) then .fault 4 else .ok 1 (dieLoc s.g.die (frame + va % 2 ^ sz)) (pteSlot e) none))) := by
  refine ⟨State.translate_beyond, State.translate_misaligned, fun inside aligned => ⟨State.translate_missing inside aligned, ?_, ?_⟩⟩
  · intro tlb tlb2 invalid
    refine State.translate_missing inside aligned (s.leafOf_none tlb tlb2 (fun e sz found => ?_))
    unfold pteInvalid
    rcases invalid e sz found with h | h | h <;> rw [h] <;> simp
  · intro e sz found
    refine ⟨State.translate_absent inside aligned found, fun here refused => State.translate_refused inside aligned found here ?_,
      fun here type right owner => State.translate_memory inside aligned found here type ?_ ?_ owner⟩
    · rw [admits_eq kind]
      rcases refused with type | right | ⟨type, owner⟩
      · rw [decide_eq_false type]
        rfl
      · rw [rights_eq_false.2 right, Bool.not_false, Bool.or_true, Bool.true_or]
      · have memory : (pteType e == 1 || pteType e == 2) = true := by simpa using type
        rw [memory, bne_iff_ne.2 owner, Bool.true_and, Bool.or_true]
    · rcases kind with rfl | rfl | rfl <;> rfl
    · rw [← Bool.not_eq_false, rights_eq_false]
      exact right

/-! ### LDG and PREFG (R157, R158) -/

/-- What a global access leaves of its lanes, said of the state before its translations and its reads, and of the state once its load stands. -/
theorem LanesLeft.transport {s u w t : State} {scalar : Bool} {xs : List Lane} (h : LanesLeft u w scalar xs) (iss : u.iss = s.iss)
    (cur : u.cur = s.cur) (mem : u.mem = s.mem) (groups : u.groups = s.groups) (iss' : t.iss = w.iss) (cur' : t.cur = w.cur)
    (mem' : t.mem = w.mem) (groups' : t.groups = w.groups) (fns' : t.fns = w.fns) : LanesLeft s t scalar xs := by
  have group := State.group_of_groups groups
  have group' := State.group_of_groups groups'
  have g : u.g = s.g := by rw [State.g, cur]; exact group _
  have g' : t.g = w.g := by rw [State.g, cur']; exact group' _
  have requested (f p : Nat) : t.requested f p = w.requested f p := by rw [State.requested, State.fnOf, fns']; rfl
  unfold LanesLeft FaultsTaken at h ⊢
  simp only [iss, cur, mem, group, g] at h
  simp only [iss', mem', group', g', requested]
  exact h

namespace State

variable (s : State)

/-- What a load that is made leaves as it was. -/
theorem addLoad_frame (scalar : Bool) (dst n : Nat) (parts : List LoadPart) :
    let t := s.addLoad scalar dst n parts
    t = { s with loads := t.loads, agenda := t.agenda, nextUid := t.nextUid } := by
  unfold addLoad
  split <;> rfl

/-- A load of the group whose access it is. -/
theorem addLoad_made {w : State} (scalar : Bool) (dst : Nat) {parts : List LoadPart} (some' : parts ≠ []) (cur : w.cur = s.cur)
    (iss : w.iss = s.iss) (loads : w.loads = s.loads) (owns : w.g.owns = s.g.owns) :
    LoadMade s (w.addLoad scalar dst (modeBytes s.g.mode) parts) scalar dst parts := by
  obtain ⟨team, die, core, fn, mode⟩ : w.g.team = s.g.team ∧ w.g.die = s.g.die ∧ w.g.core = s.g.core ∧ w.g.fn = s.g.fn ∧ w.g.mode = s.g.mode := by
    simpa only [Group.owns, Prod.mk.injEq] using owns
  unfold addLoad
  rw [if_neg (by simpa using some')]
  refine ⟨w.nextUid, ?_, List.mem_append_right _ (List.mem_singleton_self _)⟩
  rw [← cur, ← team, ← die, ← core, ← fn, ← mode, ← iss, ← loads]
  rfl

end State

/-- LDG whose lanes do not let it go on. -/
theorem execLdg_stops {s s1 : State} {d a b : Operand} {xs : List Lane} (free : s.fenceHeld 0 = false)
    (lanes : s.translateLanes (s.accessLanes d.isS) a b (modeBytes s.g.mode) .load = (s1, xs)) (stops : ¬ goesOn s d.isS xs) :
    ∃ t, exec (.ldg d a b) s = .next t ∧ LanesStopped s t d.isS xs := by
  obtain ⟨translates, -⟩ := s.translateLanes_lanes lanes
  have g := translates.g
  have stops1 : ¬ goesOn s1 d.isS xs := by
    unfold goesOn at stops ⊢
    rw [g]
    exact stops
  obtain ⟨t, stopped, left⟩ := s1.absentStop_some (acc := .load) stops1
  have free1 : s1.fenceHeld 0 = false := by
    rw [State.fenceHeld, g]
    exact free
  refine ⟨t, ?_, ?_⟩
  · change Host.Outcome.next (s.globalLoad d.isS d a b) = _
    unfold State.globalLoad
    dsimp only
    rw [lanes]
    dsimp only
    rw [free1, if_neg Bool.false_ne_true, stopped]
  · unfold LanesStopped at left ⊢
    rw [translates.loads, translates.reqs, translates.aliases, g, translates.iss] at left
    exact left

/-- LDG whose lanes let it go on. -/
theorem execLdg_goes {s s1 : State} {d a b : Operand} {xs : List Lane} (free : s.fenceHeld 0 = false)
    (lanes : s.translateLanes (s.accessLanes d.isS) a b (modeBytes s.g.mode) .load = (s1, xs)) (goes : goesOn s d.isS xs) :
    exec (.ldg d a b) s = .next (((s1.readParts (modeBytes s.g.mode) xs).1.otherLanes d.isS xs .load).addLoad d.isS (regNum d)
      (modeBytes s.g.mode) (s1.readParts (modeBytes s.g.mode) xs).2) := by
  obtain ⟨translates, -⟩ := s.translateLanes_lanes lanes
  have g := translates.g
  have goes1 : goesOn s1 d.isS xs := by
    unfold goesOn at goes ⊢
    rw [g]
    exact goes
  have free1 : s1.fenceHeld 0 = false := by
    rw [State.fenceHeld, g]
    exact free
  change Host.Outcome.next (s.globalLoad d.isS d a b) = _
  unfold State.globalLoad
  dsimp only
  rw [lanes]
  dsimp only
  rw [free1, if_neg Bool.false_ne_true, State.absentStop_none s1 goes1]

theorem accessLanes_nodup (s : State) (scalar : Bool) : (s.accessLanes scalar).Nodup := by
  cases scalar
  · exact lanesOf_nodup _
  · exact List.nodup_singleton 0

theorem accessLanes_length (s : State) (scalar : Bool) : (s.accessLanes scalar).length ≤ 64 := by
  cases scalar
  · exact (List.length_filter_le _ _).trans (le_of_eq List.length_range)
  · exact Nat.le_of_ble_eq_true rfl

/-- LDG of any lanes (R37, R148 to R152, R156, R157). -/
theorem execLdg_lanes {s s1 : State} {d a b : Operand} {xs : List Lane} (free : s.fenceHeld 0 = false)
    (lanes : s.translateLanes (s.accessLanes d.isS) a b (modeBytes s.g.mode) .load = (s1, xs)) :
    let n := modeBytes s.g.mode
    let ps := partsOf xs
    (xs.map (fun x => x.lane) = s.accessLanes d.isS) ∧
    (¬ goesOn s d.isS xs → ∃ t, exec (.ldg d a b) s = .next t ∧ LanesStopped s t d.isS xs) ∧
    (goesOn s d.isS xs → ∃ t, exec (.ldg d a b) s = .next t ∧ LanesLeft s t d.isS xs ∧ (ps = [] → t.loads = s.loads) ∧
      (ps ≠ [] → s.reqs = [] → s.iss.run = 0 → (s.coreOf s.g.ckey).snap = [] → (∀ p ∈ ps, p.loc % 64 + n ≤ 64) →
        (∀ p ∈ ps, ∀ q ∈ ps, p.loc / 64 = q.loc / 64 → p.slot = q.slot) →
        LoadMade s t d.isS (regNum d) (ps.map (fun p =>
          { p with value := if homePound p.loc = s.g.die ∨ homePound p.loc = s.g.ckey / 512
                     then some (extendValue s.g.mode n (natOf (s.coreView s.g.ckey p.loc p.slot n))) else none })) ∧
        ((∀ p ∈ ps, homePound p.loc = s.g.ckey / 512) → t.reqs = []) ∧
        ∀ p ∈ ps, homePound p.loc ≠ s.g.ckey / 512 → ∃ r ∈ t.reqs, r.isRead = true ∧ r.home = homePound p.loc ∧ r.srcKey = s.g.ckey ∧
          ∃ q ∈ r.parts, q.loc = p.loc / 64 * 64)) := by
  obtain ⟨translates, numbers⟩ := s.translateLanes_lanes lanes
  refine ⟨numbers, execLdg_stops free lanes, fun goes => ⟨_, execLdg_goes free lanes goes, ?_⟩⟩
  obtain ⟨reads, noParts⟩ := s1.readParts_reads (modeBytes s.g.mode) xs
  have iss := reads.iss.trans translates.iss
  have cur := reads.cur.trans translates.cur
  have groups := reads.groups.trans translates.groups
  have g := reads.g.trans translates.g
  have distinct : (xs.map (fun x => x.lane)).Nodup := numbers ▸ accessLanes_nodup s d.isS
  have goes' : goesOn (s1.readParts (modeBytes s.g.mode) xs).1 d.isS xs := by
    unfold goesOn at goes ⊢
    rw [g]
    exact goes
  obtain ⟨left, cur', loads', reqs', -, -, owns'⟩ :=
    (s1.readParts (modeBytes s.g.mode) xs).1.otherLanes_left (acc := .load) goes' distinct
  have frame := ((s1.readParts (modeBytes s.g.mode) xs).1.otherLanes d.isS xs .load).addLoad_frame d.isS (regNum d)
    (modeBytes s.g.mode) (s1.readParts (modeBytes s.g.mode) xs).2
  refine ⟨LanesLeft.transport left iss cur (reads.mem.trans translates.mem) groups (congrArg State.iss frame :) (congrArg State.cur frame :)
    (congrArg State.mem frame :) (congrArg State.groups frame :) (congrArg State.fns frame :), fun none => ?_, ?_⟩
  · rw [noParts none]
    exact loads'.trans (reads.loads.trans translates.loads)
  · intro some' noReqs run empty inside slots
    have g1 := translates.g
    have empty1 : (s1.coreOf s1.g.ckey).snap = [] := by rw [g1, translates.snap, empty]
    have noReqs1 : s1.reqs = [] := translates.reqs.trans noReqs
    have few : xs.length ≤ 64 := by
      rw [← List.length_map (fun x : Lane => x.lane), numbers]
      exact accessLanes_length s d.isS
    have start : State.LinesRead s1 s1.g.ckey s1.g.fn (partsOf xs) s1 xs.length := by
      refine ⟨.refl s1, ?_, ?_, ?_⟩
      · rw [empty1]
        exact fun _ m => nomatch m
      · rw [empty1, List.length_nil, Nat.zero_add]
        exact few
      · rw [noReqs1]
        exact fun _ m => nomatch m
    obtain ⟨done, parts, -, asked⟩ := State.readParts_taken (by rw [translates.iss]; exact run) inside slots xs start (fun _ m => m)
    have same : (partsOf xs).map (s1.takenPart (modeBytes s.g.mode)) = (partsOf xs).map (fun p =>
        { p with value := if homePound p.loc = s.g.die ∨ homePound p.loc = s.g.ckey / 512
                   then some (extendValue s.g.mode (modeBytes s.g.mode) (natOf (s.coreView s.g.ckey p.loc p.slot (modeBytes s.g.mode)))) else none }) := by
      refine List.map_congr_left fun p _ => ?_
      rw [State.takenPart, g1, State.coreView_translates translates]
    rw [g1] at done asked
    rw [same] at parts
    have reqs : (((s1.readParts (modeBytes s.g.mode) xs).1.otherLanes d.isS xs .load).addLoad d.isS (regNum d) (modeBytes s.g.mode)
        (s1.readParts (modeBytes s.g.mode) xs).2).reqs = (s1.readParts (modeBytes s.g.mode) xs).1.reqs :=
      (congrArg State.reqs frame :).trans reqs'
    rw [reqs]
    refine ⟨?_, fun own => ?_, fun p m far => ?_⟩
    · rw [parts]
      refine s.addLoad_made d.isS (regNum d) (fun none => some' (List.map_eq_nil_iff.1 none)) (cur'.trans cur) (left.1.trans iss)
        (loads'.trans (reads.loads.trans translates.loads)) ?_
      rw [owns', g]
    · rw [List.eq_nil_iff_forall_not_mem]
      intro r hr
      obtain ⟨p, m, far, -⟩ := done.reqs r hr
      exact far (own p m)
    · obtain ⟨r, hr, q, -, line, read⟩ := asked p m far
      obtain ⟨x, hx, place⟩ := read.first
      refine ⟨r, hr, ?_, read.home.trans (homePound_line line), read.src, x, hx, place.trans (by rw [line])⟩
      rw [Req.isRead, read.kind]
      rfl

/-! A prefetch brings the lines of its lanes. -/

/-- A core's line of a place is there for its loads, or on its way from another pound. -/
def State.lineServed (s : State) (ck fn loc : Nat) : Prop :=
  (s.snapLine ck fn loc).isSome = true ∨ homePound loc ≠ ck / 512 ∧ s.linePending ck loc = true

/-- A request more takes no line back. -/
theorem State.linePending_mono {s t : State} {ck loc : Nat} (more : s.reqs ⊆ t.reqs) (h : s.linePending ck loc = true) :
    t.linePending ck loc = true := by
  obtain ⟨r, mem, rest⟩ := State.linePending_iff.1 h
  exact State.linePending_iff.2 ⟨r, more mem, rest⟩

theorem State.touchLine_served (s : State) (ck gk team fn : Nat) (p : LoadPart) :
    (s.touchLine ck gk team fn p).lineServed ck fn p.loc ∧
      ∀ loc, s.lineServed ck fn loc → (s.touchLine ck gk team fn p).lineServed ck fn loc := by
  by_cases own : homePound p.loc = ck / 512
  · obtain ⟨-, reqs, lines⟩ := s.touchLine_own gk team fn own
    have pending (loc : Nat) : s.linePending ck loc = true → (s.touchLine ck gk team fn p).linePending ck loc = true :=
      State.linePending_mono (fun _ m => reqs.symm ▸ m)
    rcases lines with ⟨held, same⟩ | ⟨-, new⟩
    · have found := State.snapLine_congr same fn
      refine ⟨.inl ?_, fun loc h => h.imp (fun had => by rw [found]; exact had) (fun way => ⟨way.1, pending loc way.2⟩)⟩
      rw [found]
      exact Option.isSome_of_any held
    · have keeps (loc : Nat) (h : (s.snapLine ck fn loc).isSome = true ∨ loc / 64 = p.loc / 64 ∧ fn = fn) :
          ((s.touchLine ck gk team fn p).snapLine ck fn loc).isSome = true := by
        have kept := s.holdLine_keeps ck fn p.loc p.space (s.coreView ck (p.loc / 64 * 64) p.slot 64) fn loc h
        rw [State.snapLine_isSome, new, ← State.holdLine_snap, ← State.snapLine_isSome]
        exact kept
      exact ⟨.inl (keeps _ (.inr ⟨rfl, rfl⟩)), fun loc h => h.imp (fun had => keeps loc (.inl had)) (fun way => ⟨way.1, pending loc way.2⟩)⟩
  · obtain ⟨-, snap, reqs⟩ := s.touchLine_far gk team fn own
    have found := State.snapLine_congr snap fn
    rcases reqs with ⟨same, known⟩ | ⟨r, more, read⟩
    · have pending (loc : Nat) : s.linePending ck loc = true → (s.touchLine ck gk team fn p).linePending ck loc = true :=
        State.linePending_mono (fun _ m => same.symm ▸ m)
      refine ⟨known.imp (fun held => ?_) (fun way => ⟨own, pending _ way⟩),
        fun loc h => h.imp (fun had => by rw [found]; exact had) (fun way => ⟨way.1, pending loc way.2⟩)⟩
      rw [found]
      exact Option.isSome_of_any held
    · have pending (loc : Nat) : s.linePending ck loc = true → (s.touchLine ck gk team fn p).linePending ck loc = true :=
        State.linePending_mono (fun _ m => more.symm ▸ List.mem_append_left _ m)
      refine ⟨.inr ⟨own, read.pending (more.symm ▸ List.mem_append_right _ (List.mem_singleton_self _)) rfl⟩,
        fun loc h => h.imp (fun had => by rw [found]; exact had) (fun way => ⟨way.1, pending loc way.2⟩)⟩

/-- The line of a lane that translates is looked for. -/
def State.touchLane (s : State) (x : Lane) : State :=
  match x.xl with
  | .ok sp loc slot expo => s.touchLine s.g.ckey s.cur s.g.team s.g.fn { lane := x.lane, space := sp, loc, value := none, expo, slot, va := x.va }
  | _ => s

theorem State.touchLane_served (s : State) (x : Lane) : Reads s (s.touchLane x) ∧
    (∀ p ∈ partsOf [x], (s.touchLane x).lineServed s.g.ckey s.g.fn p.loc) ∧
      ∀ loc, s.lineServed s.g.ckey s.g.fn loc → (s.touchLane x).lineServed s.g.ckey s.g.fn loc := by
  obtain ⟨lane, va, xl⟩ := x
  cases xl with
  | ok sp loc slot expo =>
    obtain ⟨here, kept⟩ := s.touchLine_served s.g.ckey s.cur s.g.team s.g.fn ⟨lane, sp, loc, none, expo, slot, va⟩
    refine ⟨s.touchLine_reads .., fun p m => ?_, kept⟩
    obtain rfl := List.mem_singleton.1 m
    exact here
  | _ => exact ⟨.refl s, fun _ m => (nomatch m), fun _ h => h⟩

theorem State.touchLanes_served (s : State) (xs : List Lane) : Reads s (xs.foldl State.touchLane s) ∧
    (∀ p ∈ partsOf xs, (xs.foldl State.touchLane s).lineServed s.g.ckey s.g.fn p.loc) ∧
      ∀ loc, s.lineServed s.g.ckey s.g.fn loc → (xs.foldl State.touchLane s).lineServed s.g.ckey s.g.fn loc := by
  induction xs generalizing s with
  | nil => exact ⟨.refl s, fun _ m => (nomatch m), fun _ h => h⟩
  | cons x r ih =>
    obtain ⟨reads, here, kept⟩ := s.touchLane_served x
    obtain ⟨reads', later, kept'⟩ := ih (s.touchLane x)
    rw [reads.g] at later kept'
    refine ⟨reads.trans reads', fun p m => ?_, fun loc h => kept' loc (kept loc h)⟩
    have split : partsOf (x :: r) = partsOf [x] ++ partsOf r := List.filterMap_append (l := [x])
    rw [split] at m
    rcases List.mem_append.1 m with first | rest
    · exact kept' _ (here p first)
    · exact later p rest

/-- PREFG of any lanes (R158). -/
theorem execPrefg_lanes {s s1 : State} {a b : Operand} {xs : List Lane} (free : s.fenceHeld 0 = false)
    (lanes : s.translateLanes (lanesOf s.guarded) a b (modeBytes s.g.mode) .load = (s1, xs)) :
    ∃ t, exec (.prefg a b) s = .next t ∧ t.groups = s.groups ∧ t.iss = s.iss ∧ t.mem = s.mem ∧ t.loads = s.loads ∧
      ∀ p ∈ partsOf xs, t.lineServed s.g.ckey s.g.fn p.loc := by
  obtain ⟨translates, -⟩ := s.translateLanes_lanes lanes
  obtain ⟨reads, served, -⟩ := s1.touchLanes_served xs
  rw [translates.g] at served
  refine ⟨_, ?_, reads.groups.trans translates.groups, reads.iss.trans translates.iss, reads.mem.trans translates.mem,
    reads.loads.trans translates.loads, served⟩
  change execPrefg a b s = _
  unfold execPrefg
  rw [free, if_neg Bool.false_ne_true]
  dsimp only
  rw [lanes]
  rfl

/-- Settles O48: the checks of one address, the lanes of an LDG, and those of a PREFG. -/
theorem globalLoads : Obligations.GlobalLoads :=
  ⟨translate_checks, fun _ _ _ _ _ _ free lanes => execLdg_lanes free lanes, fun _ _ _ _ _ free lanes => execPrefg_lanes free lanes⟩

end Sys2Proof.Machine
end

section
/-! SUPPORT. One step of a group (R25 to R27, R34, R40, R58, R64): its turn, the fetch, the pops, and what the end of an offset leaves. -/

namespace Sys2Proof.Machine

open Sys2Proof

/-- What comes of a group's turn once the boundary that it may have reached is seen to (R219). -/
def turnEnds (k : Nat) (r : Res) : Res :=
  match r with
  | .next t => .next (t.reachBoundary k)
  | o => o

namespace State

variable {s s1 : State}

theorem step_act {a : Activity} {rest : List Activity} (frozen : s.basin.frozen = false) (agenda : s.agenda = a :: rest) :
    step s = State.act { s with agenda := rest } a := by
  unfold step advanceOne
  rw [agenda]
  dsimp only
  rw [frozen]
  rfl

/-- A ready group between two offsets takes its turn. -/
theorem step_turn {k : Nat} {rest : List Activity} (frozen : s.basin.frozen = false) (agenda : s.agenda = .group k :: rest)
    (live : (s.group k).live = true) (ready : (s.group k).wait = .ready) (stays : s.stopsAtBoundary k = false) :
    step s = turnEnds k (State.groupTurn { s with agenda := rest, cur := k }) := by
  rw [step_act frozen agenda]
  change State.groupStep { s with agenda := rest } k = _
  have live' : (State.g { s with agenda := rest, cur := k }).live = true := live
  have ready' : (State.g { s with agenda := rest, cur := k }).wait = .ready := ready
  have stays' : State.stopsAtBoundary { s with agenda := rest, cur := k } k = false := stays
  unfold groupStep
  dsimp only
  rw [live', ready', if_neg (by decide), stays', Bool.and_false, if_neg Bool.false_ne_true]
  rfl

/-- In a forward run with no lane parked a turn is the pops that are due, and one offset. -/
theorem groupTurn_forward (half : s.g.half = none) (replays : s.g.replays = []) (parked : s.g.parked = 0) :
    s.groupTurn = (s.pops 33).issueOffset := by
  unfold groupTurn
  dsimp only
  rw [half]
  dsimp only
  rw [replays]
  dsimp only
  rw [parked, if_neg]
  simp

/-! ### Pops (R34) -/

theorem pops_none (h : ∀ j ∈ s.g.joins.head?, j.join ≠ s.g.offset) (fuel : Nat) : s.pops fuel = s := by
  cases fuel with
  | zero => rfl
  | succ n =>
    unfold pops
    dsimp only
    split
    · rfl
    · rename_i j r joins
      exact if_pos (h j (by rw [joins]; rfl))

/-- The pops that the entries of a join stack may still make. -/
def popsLeft (l : List Join) : Nat := (l.map (fun j => if j.phase then 1 else 2)).sum

theorem popsLeft_le (l : List Join) : popsLeft l ≤ 2 * l.length := by
  induction l with
  | nil => exact le_refl 0
  | cons j r ih =>
    rw [popsLeft, List.map_cons, List.sum_cons, List.length_cons]
    have two : (if j.phase then 1 else 2) ≤ 2 := by split <;> omega
    unfold popsLeft at ih
    omega

/-- One more pop of the fuel makes no difference where there are enough. -/
theorem pops_enough (fuel : Nat) {s : State} (h : popsLeft s.g.joins ≤ fuel) : s.pops (fuel + 1) = s.pops fuel := by
  induction fuel generalizing s with
  | zero =>
    refine pops_none (fun j mem => ?_) 1
    exfalso
    cases joins : s.g.joins with
    | nil =>
      rw [joins] at mem
      cases mem
    | cons x r =>
      rw [joins, popsLeft, List.map_cons, List.sum_cons] at h
      have one : 1 ≤ (if x.phase then 1 else 2) := by split <;> omega
      omega
  | succ n ih =>
    rw [pops, pops.eq_def s (n + 1)]
    dsimp only
    cases joins : s.g.joins with
    | nil => rfl
    | cons j r =>
      rw [joins, popsLeft, List.map_cons, List.sum_cons] at h
      dsimp only
      split
      · rfl
      · split
        · rename_i one
          rw [if_pos one] at h
          refine ih ?_
          rw [g_setG, popsLeft]
          dsimp only
          omega
        · rename_i two
          rw [if_neg two] at h
          refine ih ?_
          rw [g_setG, popsLeft]
          dsimp only
          rw [List.map_cons, List.sum_cons, if_pos rfl]
          omega

/-- A pop that is due. -/
theorem pops_due {j : Join} {r : List Join} (joins : s.g.joins = j :: r) (due : j.join = s.g.offset) (n : Nat) :
    s.pops (n + 1) = if j.phase then (s.setG { s.g with joins := r }).pops n
      else (s.setG { s.g with joins := { j with mask := s.g.notDeferred, phase := true } :: r, offset := j.notTaken }).pops n := by
  rw [pops]
  dsimp only
  rw [joins]
  dsimp only
  rw [if_neg (not_not.2 due)]

/-! ### The fetch (R25, R26, R58, R64) -/

/-- The state in which a group in its forward run fetches. -/
def fetching (s : State) : State :=
  { s.modG (fun g => { g with stalled := false }) with iss := { ({} : Issue) with here := s.g.offset, union := s.g.enabled } }

theorem fetching_g (s : State) : s.fetching.g = { s.g with stalled := false } := g_modG s (fun g => { g with stalled := false })

/-- The words fetched with that of one more plane in front. -/
def addWord (ck p loc slot : Nat) (x : State × Except (Option Nat) (List (Nat × Word))) : State × Except (Option Nat) (List (Nat × Word)) :=
  match x.2 with
  | .ok l => (x.1, .ok ((p, BitVec.ofNat 32 (natOf (x.1.coreView ck loc slot 4))) :: l))
  | .error e => (x.1, .error e)

theorem fetchWords_cons_ok {p : Nat} {r : List Nat} {t : State} {sp loc slot : Nat} {o : Option Nat}
    (fresh : s.g.failedVa ≠ some (fetchAddr s.g p s.g.offset))
    (found : s.translate s.g.die s.g.fn (some s.g.ckey) (fetchAddr s.g p s.g.offset) 4 .fetch = (t, .ok sp loc slot o)) :
    s.fetchWords (p :: r) = addWord s.g.ckey p loc slot ((t.recallLine s.g.ckey loc).fetchWords r) := by
  rw [fetchWords]
  rw [if_neg fresh, found]
  dsimp only
  rcases (t.recallLine s.g.ckey loc).fetchWords r with ⟨u, e | l⟩ <;> rfl

/-- How a fetch ends: with the words, translations made; at a fault; or at a page that its group then waits for. -/
def FetchEnds (s : State) (x : State × Except (Option Nat) (List (Nat × Word))) : Prop :=
  match x.2 with
  | .ok _ => Translates s x.1
  | .error (some _) => x.1.g.parked = s.g.parked
  | .error none => ∃ f p va, x.1.g.wait = .page f p va

theorem fetchWords_ends (ps : List Nat) (s : State) : FetchEnds s (s.fetchWords ps) := by
  induction ps generalizing s with
  | nil => exact Translates.refl s
  | cons p r ih =>
    have looked := s.translate_translates s.g.die s.g.fn (some s.g.ckey) (fetchAddr s.g p s.g.offset) 4 .fetch
    by_cases failed : s.g.failedVa = some (fetchAddr s.g p s.g.offset)
    · rw [fetchWords, if_pos failed]
      exact (congrArg Group.parked (s.g_modG (fun g => { g with failedVa := none })) :)
    · cases found : s.translate s.g.die s.g.fn (some s.g.ckey) (fetchAddr s.g p s.g.offset) 4 .fetch with
      | mk t x =>
        have here := looked.of_fst found
        cases x with
        | ok sp loc slot o =>
          rw [fetchWords_cons_ok failed found]
          have recalled := here.trans (t.recallLine_translates s.g.ckey loc)
          have rest := ih (t.recallLine s.g.ckey loc)
          generalize (t.recallLine s.g.ckey loc).fetchWords r = y at rest ⊢
          obtain ⟨u, (_ | q) | l⟩ := y
          · exact rest
          · exact Eq.trans rest (congrArg Group.parked recalled.g)
          · exact recalled.trans rest
        | absent f pg =>
          rw [fetchWords, if_neg failed, found]
          exact ⟨f, pg, _, congrArg Group.wait
            ((t.requestPage f pg .fetch).g_modG (fun g => { g with wait := .page f pg (fetchAddr s.g p s.g.offset) }))⟩
        | _ =>
          rw [fetchWords, if_neg failed, found]
          exact congrArg Group.parked here.g

theorem fetchWords_ok {ps : List Nat} {ws : List (Nat × Word)} (h : s.fetchWords ps = (s1, .ok ws)) : Translates s s1 := by
  have ends := fetchWords_ends ps s
  rw [h] at ends
  exact ends

theorem fetchWords_fault {ps : List Nat} {p : Nat} (h : s.fetchWords ps = (s1, .error (some p))) : s1.g.parked = s.g.parked := by
  have ends := fetchWords_ends ps s
  rw [h] at ends
  exact ends

theorem fetchWords_page {ps : List Nat} (h : s.fetchWords ps = (s1, .error none)) : ∃ f p va, s1.g.wait = .page f p va := by
  have ends := fetchWords_ends ps s
  rw [h] at ends
  exact ends

end State

end Sys2Proof.Machine
end

section
/-! SUPPORT. One offset (R26, R58, R121): the traps of its checks, its issues, and its end. -/

namespace Sys2Proof.Machine

open Sys2Proof

namespace State

variable {s s1 : State}

/-- The trap of a check, with no lane parked. -/
theorem trapOrRejoin_taken {h : Off} (f : Failing) (parked : s.g.parked = 0) (can : canTrap s h) :
    TrapTaken (checkedAt s f.word f.planes f.mask) (s.trapOrRejoin f) h f.kind f.field f.x7 f.mask := by
  have trap : s.trapOrRejoin f = (checkedAt s f.word f.planes f.mask).trapAt f.kind f.field f.mask f.x7 := by
    unfold trapOrRejoin
    rw [parked, if_neg (by decide)]
    rfl
  rw [trap]
  exact trapAt_taken _ h f.kind f.field f.x7 f.mask can

/-- The words that an offset fetches in a forward run. -/
def fetched (s : State) : State × Except (Option Nat) (List (Nat × Word)) := s.fetching.fetchWords (fetchPlanes s.g)

/-- What comes of an offset once its words are there. -/
def checked (s : State) (ws : List (Nat × Word)) : Res :=
  let is := formIssues s.g ws
  if ws.any (fun p => skeletonOp p.2) && 1 < is.length then
    .next ((s.modLife (fun l => { l with planeFaults := satUp l.planeFaults })).trapOrRejoin
      ⟨0x11, 0, 0, (ws.headD (0, 0)).2, ws.foldl (fun m p => m ||| BitVec.twoPow 8 p.1) 0, s.g.enabled⟩)
  else match s.checkIssues is with
    | some f => .next (s.trapOrRejoin f)
    | none => s.runIssues is

/-- An offset in a forward run. -/
theorem issueOffset_eq (replays : s.g.replays = []) :
    (∀ p, s.fetched = (s1, .error (some p)) → s.issueOffset = .next (s1.trapOrRejoin ⟨0x17, 0, 0, 0, BitVec.twoPow 8 p, 0⟩)) ∧
    (s.fetched = (s1, .error none) → s.issueOffset = .next s1) ∧
    (∀ ws, s.fetched = (s1, .ok ws) → s1.g.parked = 0 → s.issueOffset = s1.checked ws) := by
  have start : ({ s.modG (fun g => { g with stalled := false }) with
      iss := { ({} : Issue) with here := s.g.offset, union := s.g.enabled, run := s.g.replays.length } } : State) = s.fetching := by
    rw [replays]
    rfl
  have planes : fetchPlanes s.fetching.g = fetchPlanes s.g := by
    rw [fetching_g]
    rfl
  unfold fetched
  refine ⟨fun p h => ?_, fun h => ?_, fun ws h parked => ?_⟩
  · unfold issueOffset
    dsimp only
    rw [start, planes, h]
  · unfold issueOffset
    dsimp only
    rw [start, planes, h]
  · unfold issueOffset
    dsimp only
    rw [start, planes, h]
    dsimp only
    rw [parked]
    unfold checked
    dsimp only
    by_cases differ : (ws.any (fun p => skeletonOp p.2) && decide (1 < (formIssues s1.g ws).length)) = true
    · rw [if_pos differ, if_pos differ]
      rfl
    · rw [if_neg differ, if_neg differ]
      cases s1.checkIssues (formIssues s1.g ws) with
      | some f => rfl
      | none => exact if_pos rfl

/-! ### The issues (R26, R212) -/

/-- What an issue that has been made leaves, or its wait. -/
def afterIssue (i : Instr) (x : Word × BitVec 8 × DWord) (more : List (Word × BitVec 8 × DWord)) (t : State) : State :=
  let u := ((t.countG 2 1).countG 3 (lanesOf x.2.2).length).issued i
  if t.iss.trapped then t.issued i
  else if t.iss.cancelled then t.startRejoin
  else if t.iss.hold then t.stash x more
  else if more = [] then u.finishOffset
  else u.modG (fun g => { g with half := some ⟨more, { u.iss with made := true }, false, false⟩ })

def issueEnds (i : Instr) (x : Word × BitVec 8 × DWord) (more : List (Word × BitVec 8 × DWord)) (r : Res) : Res :=
  match r with
  | .next t => .next (afterIssue i x more t)
  | o => o

/-- The first issue of an offset runs its instruction. -/
theorem runIssues_runs {x : Word × BitVec 8 × DWord} {more : List (Word × BitVec 8 × DWord)} {i : Instr} (made : s.iss.made = false)
    (decoded : decodeCore x.1 = .ok i) :
    let s2 : State := { s with iss := { s.iss with mask := x.2.2, planes := x.2.1, word := x.1 } }
    s2.handlePending i = false → s2.regPending i x.2.2 = false → s2.scalarTaken i x more = none →
    s.runIssues (x :: more) = issueEnds i x more (exec i (if (hReads i).isEmpty then s2 else s2.modG Group.dropLatches)) := by
  intro s2 handle reg scalar
  have made' : (if (hReads i).isEmpty then s2 else s2.modG Group.dropLatches).iss.made = false := by
    split <;> exact made
  rw [runIssues]
  dsimp only
  rw [decoded]
  dsimp only
  rw [handle, reg, Bool.false_or, if_neg Bool.false_ne_true, scalar]
  dsimp only
  generalize (if (hReads i).isEmpty then s2 else s2.modG Group.dropLatches) = s3 at made' ⊢
  rw [made']
  cases exec i s3 with
  | next t =>
    dsimp only [issueEnds, afterIssue]
    rw [Bool.not_false, Bool.and_true]
    simp only [apply_ite Host.Outcome.next, List.isEmpty_iff]
  | _ => rfl

/-! ### The checks (R58) -/

/-- A check of R58 that finds an issue at fault. -/
def Finds (s : State) (x : Word × BitVec 8 × DWord) (kind : Nat) (field : Nat → Prop) : Prop :=
  ∃ f, s.checkIssues [x] = some f ∧ f.kind = kind ∧ field f.field ∧ f.word = x.1 ∧ f.planes = x.2.1 ∧ f.mask = x.2.2

theorem finds_undecoded {x : Word × BitVec 8 × DWord} {r : Reject} (h : decodeCore x.1 = .error r) : Finds s x r.kind (· = r.field) := by
  refine ⟨⟨r.kind, r.field, illegalX7 s.g.mode r.kind x.1, x.1, x.2.1, x.2.2⟩, ?_, rfl, rfl, rfl, rfl, rfl⟩
  simp only [checkIssues, List.findSome?_cons, List.findSome?_nil, h]

section

variable {x : Word × BitVec 8 × DWord} {i : Instr} (decoded : decodeCore x.1 = .ok i)

include decoded

theorem finds_illegal {r : Reject} (h : dynIllegal s.g.mode s.g.width i = some r) : Finds s x r.kind (· = r.field) := by
  refine ⟨⟨r.kind, r.field, illegalX7 s.g.mode r.kind x.1, x.1, x.2.1, x.2.2⟩, ?_, rfl, rfl, rfl, rfl, rfl⟩
  simp only [checkIssues, List.findSome?_cons, List.findSome?_nil, decoded, h, Option.map_some]

variable (legal : dynIllegal s.g.mode s.g.width i = none)

include legal

theorem finds_range {n : Nat} (h : rangeField s.g.mode s.g.allot i = some n) : Finds s x 0x14 (· = n) := by
  refine ⟨⟨0x14, n, 0, x.1, x.2.1, x.2.2⟩, ?_, rfl, rfl, rfl, rfl, rfl⟩
  simp only [checkIssues, List.findSome?_cons, List.findSome?_nil, decoded, legal, h, Option.map_some, Option.map_none]

variable (inRange : rangeField s.g.mode s.g.allot i = none)

include inRange

theorem finds_latch {n : Nat} (h : latchField s.g.mode s.g.latValid i = some n) : Finds s x 0x15 (· = n) := by
  refine ⟨⟨0x15, n, 0, x.1, x.2.1, x.2.2⟩, ?_, rfl, rfl, rfl, rfl, rfl⟩
  simp only [checkIssues, List.findSome?_cons, List.findSome?_nil, decoded, legal, inRange, h, Option.map_some, Option.map_none]

theorem finds_stale (valid : latchField s.g.mode s.g.latValid i = none)
    (h : ∃ y ∈ hReads i, let v := s.g.h.get y.2 0; s.stale v = true ∧ s.gotWord v = none) : Finds s x 0x18 (fun _ => True) := by
  obtain ⟨y, mem, stale, missing⟩ := h
  have named : (s.staleField i).isSome = true := by
    unfold staleField
    rw [Option.isSome_map, List.find?_isSome]
    refine ⟨y, List.mem_append_left _ mem, ?_⟩
    dsimp only
    rw [stale, missing]
    rfl
  obtain ⟨n, field⟩ := Option.isSome_iff_exists.1 named
  refine ⟨⟨0x18, n, 0, x.1, x.2.1, x.2.2⟩, ?_, rfl, trivial, rfl, rfl, rfl⟩
  simp only [checkIssues, List.findSome?_cons, List.findSome?_nil, decoded, legal, inRange, valid, field, Option.map_some, Option.map_none]

end

/-! ### The end of an offset (R40, R119) -/

/-- The latches of one lane shifted: each takes the one before it, L0 what the offset has made. -/
def shiftLane (g : Group) (l0 : Table Word) (t : Table Word) (l : Nat) : Table Word :=
  (((t.set (192 + l) (g.latch 2 l)).set (128 + l) (g.latch 1 l)).set (64 + l) (g.latch 0 l)).set l (l0.get l 0)

/-- What a latch that has shifted holds. -/
def shifted (g : Group) (l0 : Table Word) (k l : Nat) : Word := if k = 0 then l0.get l 0 else g.latch (k - 1) l

theorem get_shiftLane (g : Group) (l0 t : Table Word) {m k l : Nat} (hm : m < 64) (hk : k < 4) (hl : l < 64) :
    Table.get (shiftLane g l0 t m) (64 * k + l) 0 = if l = m then shifted g l0 k l else t.get (64 * k + l) 0 := by
  unfold shiftLane
  by_cases same : l = m
  · subst same
    rw [if_pos rfl]
    obtain rfl | rfl | rfl | rfl : k = 0 ∨ k = 1 ∨ k = 2 ∨ k = 3 := by omega
    · rw [show 64 * 0 + l = l by omega, Table.get_set]
      rfl
    · rw [Table.get_set_ne _ _ _ _ _ (by omega), show 64 * 1 + l = 64 + l by omega, Table.get_set]
      rfl
    · rw [Table.get_set_ne _ _ _ _ _ (by omega), Table.get_set_ne _ _ _ _ _ (by omega), show 64 * 2 + l = 128 + l by omega, Table.get_set]
      rfl
    · rw [Table.get_set_ne _ _ _ _ _ (by omega), Table.get_set_ne _ _ _ _ _ (by omega), Table.get_set_ne _ _ _ _ _ (by omega),
        show 64 * 3 + l = 192 + l by omega, Table.get_set]
      rfl
  · rw [if_neg same, Table.get_set_ne _ _ _ _ _ (by omega), Table.get_set_ne _ _ _ _ _ (by omega), Table.get_set_ne _ _ _ _ _ (by omega),
      Table.get_set_ne _ _ _ _ _ (by omega)]

theorem get_shiftLanes (g : Group) (l0 : Table Word) {k l : Nat} (hk : k < 4) (hl : l < 64) (ls : List Nat) (bound : ∀ m ∈ ls, m < 64)
    (t : Table Word) :
    Table.get (ls.foldl (shiftLane g l0) t) (64 * k + l) 0 = if l ∈ ls then shifted g l0 k l else t.get (64 * k + l) 0 := by
  induction ls generalizing t with
  | nil => rw [List.foldl_nil, if_neg List.not_mem_nil]
  | cons m r ih =>
    rw [List.foldl_cons, ih (fun x hx => bound x (List.mem_cons_of_mem _ hx)), get_shiftLane g l0 t (bound m (List.mem_cons_self ..)) hk hl]
    by_cases later : l ∈ r
    · rw [if_pos later, if_pos (List.mem_cons_of_mem _ later)]
    · rw [if_neg later]
      by_cases same : l = m
      · rw [if_pos same, if_pos (same ▸ List.mem_cons_self ..)]
      · rw [if_neg same, if_neg (fun mem => (List.mem_cons.1 mem).elim same later)]

theorem shiftLatches_g (s : State) (replays : s.g.replays = []) :
    s.shiftLatches.g = { s.g with lat := (lanesOf s.g.all).foldl (shiftLane s.g s.iss.l0) s.g.lat, latValid := s.g.latValid <<< 1 ||| 1 } := by
  unfold shiftLatches
  dsimp only
  rw [replays]
  exact g_setG ..

/-- The group's record once the shift of an offset has been noted. -/
theorem shiftOffset_g (s : State) (replays : s.g.replays = []) : s.shiftOffset.g = { s.g with
    lat := (lanesOf s.g.all).foldl (shiftLane s.g s.iss.l0) s.g.lat, latValid := s.g.latValid <<< 1 ||| 1, shifts := s.shiftOffset.g.shifts } := by
  have here := s.shiftLatches_g replays
  unfold shiftOffset
  dsimp only
  split
  · rw [here]
  · have noted := s.shiftLatches.g_modG (fun g => { g with shifts := g.shifts ++ [s.shiftLatches.iss.here] })
    rw [noted, here]

/-- An offset that has counted, its latches shifted where one of its issues has made a lane result. -/
def shiftedOffset (s : State) : State := if (s.countG 1 1).shiftsHere then (s.countG 1 1).shiftOffset else s.countG 1 1

theorem countG_one_g (s : State) : (s.countG 1 1).g = { s.g with cnt := s.g.cnt.set 1 (s.g.cnt.get 1 0 + BitVec.ofNat 64 1) } :=
  s.g_modG (fun g => { g with cnt := g.cnt.set 1 (g.cnt.get 1 0 + BitVec.ofNat 64 1) })

theorem shiftLatches_keeps (s : State) : s.shiftLatches.g.offset = s.g.offset ∧ s.shiftLatches.g.faults = s.g.faults := by
  unfold shiftLatches
  dsimp only
  rw [g_setG]
  exact ⟨rfl, rfl⟩

theorem shiftOffset_keeps (s : State) : s.shiftOffset.iss = s.iss ∧ s.shiftOffset.g.offset = s.g.offset ∧ s.shiftOffset.g.faults = s.g.faults := by
  obtain ⟨offset, faults⟩ := s.shiftLatches_keeps
  unfold shiftOffset
  dsimp only
  split
  · exact ⟨rfl, offset, faults⟩
  · have noted := s.shiftLatches.g_modG (fun g => { g with shifts := g.shifts ++ [s.shiftLatches.iss.here] })
    rw [noted]
    exact ⟨rfl, offset, faults⟩

theorem shiftedOffset_keeps (s : State) :
    s.shiftedOffset.iss = s.iss ∧ s.shiftedOffset.g.offset = s.g.offset ∧ s.shiftedOffset.g.faults = s.g.faults := by
  have counted := s.countG_one_g
  unfold shiftedOffset
  split
  · obtain ⟨iss, offset, faults⟩ := (s.countG 1 1).shiftOffset_keeps
    rw [counted] at offset faults
    exact ⟨iss, offset, faults⟩
  · rw [counted]
    exact ⟨rfl, rfl, rfl⟩

/-- The end of an offset at which no lane has faulted. -/
theorem finishOffset_g (s : State) (faults : s.g.faults = none) :
    s.finishOffset.g = if s.iss.moved then s.shiftedOffset.g else s.shiftedOffset.g.advance 1 := by
  obtain ⟨iss, -, faults'⟩ := s.shiftedOffset_keeps
  have advanced := s.shiftedOffset.g_modG (fun g => g.advance 1)
  have ends (u : State) (none : u.g.faults = none) : (!u.g.live || u.g.faults.isNone || !u.g.replays.isEmpty) = true := by
    rw [none]
    simp
  change (let u := if s.shiftedOffset.iss.moved then s.shiftedOffset else s.shiftedOffset.modG (fun g => g.advance 1)
    if !u.g.live || u.g.faults.isNone || !u.g.replays.isEmpty then u
    else if u.g.parked != 0 then u.startRejoin
    else (u.modG (fun g => { g with offset := u.iss.here })).takeLaneTrap).g = _
  dsimp only
  rw [iss]
  cases s.iss.moved
  · rw [if_neg Bool.false_ne_true, if_pos (ends _ (by rw [advanced]; exact faults'.trans faults)), if_neg Bool.false_ne_true, advanced]
  · rw [if_pos rfl, if_pos (ends _ (faults'.trans faults)), if_pos rfl]

/-- Where the end of an offset leaves the group. -/
theorem finishOffset_offset (s : State) (faults : s.g.faults = none) :
    s.finishOffset.g.offset = if s.iss.moved then s.g.offset else s.g.offset + 1 := by
  obtain ⟨-, offset, -⟩ := s.shiftedOffset_keeps
  rw [s.finishOffset_g faults, ← offset]
  split <;> rfl

/-- What the latches hold after an offset of a forward run (R40). -/
theorem finishOffset_latches (s : State) (faults : s.g.faults = none) (replays : s.g.replays = []) :
    s.finishOffset.g.latValid = (if s.iss.res then s.g.latValid <<< 1 ||| 1 else s.g.latValid) ∧
    ∀ k l, k < 4 → l < 64 → s.finishOffset.g.latch k l =
      if s.iss.res = false ∨ s.g.all.getLsbD l = false then s.g.latch k l else if k = 0 then s.iss.l0.get l 0 else s.g.latch (k - 1) l := by
  have counted := s.countG_one_g
  have none : (s.countG 1 1).g.replays = [] := by
    rw [counted]
    exact replays
  have here : (s.countG 1 1).shiftsHere = s.iss.res := by
    unfold shiftsHere
    rw [none]
    exact Bool.or_false _
  have moved := (s.countG 1 1).shiftOffset_g none
  have latches : s.finishOffset.g.latValid = s.shiftedOffset.g.latValid ∧ s.finishOffset.g.lat = s.shiftedOffset.g.lat := by
    rw [s.finishOffset_g faults]
    split <;> exact ⟨rfl, rfl⟩
  unfold Group.latch
  rw [latches.1, latches.2]
  unfold shiftedOffset
  rw [here]
  cases s.iss.res
  · rw [if_neg Bool.false_ne_true, if_neg Bool.false_ne_true, counted]
    refine ⟨rfl, fun k l hk hl => ?_⟩
    rw [if_pos (.inl rfl)]
  · rw [if_pos rfl, if_pos rfl, moved, counted]
    refine ⟨rfl, fun k l hk hl => ?_⟩
    refine (get_shiftLanes _ _ hk hl _ (fun m hm => lt_of_getLsbD ((mem_lanesOf _ _).1 hm)) _).trans ?_
    change (if l ∈ lanesOf s.g.all then shifted s.g s.iss.l0 k l else s.g.latch k l) = _
    by_cases lane : s.g.all.getLsbD l = true
    · rw [if_pos ((mem_lanesOf _ _).2 lane), if_neg (by rw [lane]; simp)]
      rfl
    · rw [if_neg (fun mem => lane ((mem_lanesOf _ _).1 mem)), if_pos (.inr (Bool.eq_false_iff.2 lane))]
      rfl

end State

end Sys2Proof.Machine
end

section
/-! SUPPORT. A step runs the instruction at the group's offset (R25 to R27, R34, R40, R58, R61, R62, R64, R276). -/

namespace Sys2Proof.Machine

open Sys2Proof

namespace State

variable {s s1 : State}

/-- A group that begins an offset fetches its words first. -/
theorem step_begins {k : Nat} {rest : List Activity} (h : begins s k rest) :
    ∃ u : State, u.g.replays = [] ∧ u.g.parked = 0 ∧ u.fetching = atFetch s k rest ∧
      u.fetched = (atFetch s k rest).fetchWords (fetchPlanes (s.group k)) ∧
      step s = turnEnds k u.issueOffset := by
  obtain ⟨frozen, agenda, live, ready, half, replays, parked, pops, stays⟩ := h
  refine ⟨{ s with agenda := rest, cur := k }, replays, parked, rfl, rfl, ?_⟩
  rw [step_turn frozen agenda live ready stays, groupTurn_forward (s := { s with agenda := rest, cur := k }) half replays parked,
    pops_none (s := { s with agenda := rest, cur := k }) pops]

theorem atFetch_parked {k : Nat} {rest : List Activity} (h : begins s k rest) : (atFetch s k rest).g.parked = 0 := by
  obtain ⟨u, -, parked, same, -⟩ := step_begins h
  rw [← same, fetching_g]
  exact parked

/-- The fetch of one plane (R25). -/
theorem fetchWords_one {p : Nat} {t : State} {sp loc slot : Nat} {o : Option Nat} (fresh : s.g.failedVa ≠ some (fetchAddr s.g p s.g.offset))
    (found : s.translate s.g.die s.g.fn (some s.g.ckey) (fetchAddr s.g p s.g.offset) 4 .fetch = (t, .ok sp loc slot o)) :
    s.fetchWords [p] = (t.recallLine s.g.ckey loc, .ok [(p, BitVec.ofNat 32 (natOf (t.coreView s.g.ckey loc slot 4)))]) := by
  rw [fetchWords_cons_ok fresh found, ← coreView_translates (t.recallLine_translates s.g.ckey loc)]
  rfl

/-- The words of an offset whose planes agree on it, or whose instruction is none of the skeleton's. -/
theorem checked_runs {ws : List (Nat × Word)} {is : List (Word × BitVec 8 × DWord)} (formed : formIssues s.g ws = is)
    (agree : ¬ ((∃ y ∈ ws, skeletonOp y.2 = true) ∧ 1 < is.length)) :
    (∀ f, s.checkIssues is = some f → s.checked ws = .next (s.trapOrRejoin f)) ∧
      (s.checkIssues is = none → s.checked ws = s.runIssues is) := by
  have same : ¬ (ws.any (fun p => skeletonOp p.2) && decide (1 < is.length)) = true := by
    rwa [Bool.and_eq_true, List.any_eq_true, decide_eq_true_iff]
  unfold checked
  dsimp only
  rw [formed, if_neg same]
  exact ⟨fun f found => by rw [found], fun passes => by rw [passes]⟩

/-- The planes that stand in a mask of planes. -/
theorem planesMask_iff (ws : List (Nat × Word)) (m : BitVec 8) {p : Nat} (hp : p < 8) :
    (ws.foldl (fun m y => m ||| BitVec.twoPow 8 y.1) m).getLsbD p = true ↔ m.getLsbD p = true ∨ ∃ y ∈ ws, y.1 = p := by
  induction ws generalizing m with
  | nil => simp
  | cons y r ih =>
    rw [List.foldl_cons, ih, BitVec.getLsbD_or, BitVec.getLsbD_twoPow, Bool.or_eq_true, Bool.and_eq_true, decide_eq_true_iff, decide_eq_true_iff,
      List.exists_mem_cons_iff]
    constructor
    · rintro ((before | ⟨-, here⟩) | later)
      · exact .inl before
      · exact .inr (.inl here)
      · exact .inr (.inr later)
    · rintro (before | here | later)
      · exact .inl (.inl before)
      · exact .inl (.inr ⟨here ▸ hp, here⟩)
      · exact .inr later

/-- A fetch that is complete leaves the group and its issue as they were. -/
theorem fetched_ok {k : Nat} {rest : List Activity} {ws : List (Nat × Word)} (h : begins s k rest)
    (words : (atFetch s k rest).fetchWords (fetchPlanes (s.group k)) = (s1, .ok ws)) :
    s1.g.parked = 0 ∧ s1.iss.made = false ∧ step s = turnEnds k (s1.checked ws) := by
  have same := fetchWords_ok words
  obtain ⟨u, replays, -, -, fetched, steps⟩ := step_begins h
  have parked : s1.g.parked = 0 := by
    rw [same.g]
    exact atFetch_parked h
  refine ⟨parked, ?_, ?_⟩
  · rw [same.iss]
    rfl
  · rw [steps, (issueOffset_eq replays).2.2 ws (fetched.trans words) parked]

/-- The planes disagree on an instruction of the skeleton (R27). -/
theorem step_planesDisagree {k : Nat} {rest : List Activity} {ws : List (Nat × Word)} {h : Off} (start : begins s k rest)
    (words : (atFetch s k rest).fetchWords (fetchPlanes (s.group k)) = (s1, .ok ws)) (can : canTrap s1 h)
    (differ : (∃ y ∈ ws, skeletonOp y.2 = true) ∧ 1 < (formIssues s1.g ws).length) :
    ∃ (t : State) (w : Word) (occ : BitVec 8), step s = .next (t.reachBoundary k) ∧
      (∀ p, p < 8 → (occ.getLsbD p = true ↔ ∃ y ∈ ws, y.1 = p)) ∧
      TrapTaken (checkedAt (s1.modLife (fun l => { l with planeFaults := satUp l.planeFaults })) w occ s1.g.enabled) t h 0x11 0 0 s1.g.enabled := by
  obtain ⟨parked, -, steps⟩ := fetched_ok start words
  have any : (ws.any (fun p => skeletonOp p.2) && decide (1 < (formIssues s1.g ws).length)) = true := by
    rwa [Bool.and_eq_true, List.any_eq_true, decide_eq_true_iff]
  let f : Failing := ⟨0x11, 0, 0, (ws.headD (0, 0)).2, ws.foldl (fun m p => m ||| BitVec.twoPow 8 p.1) 0, s1.g.enabled⟩
  refine ⟨(s1.modLife (fun l => { l with planeFaults := satUp l.planeFaults })).trapOrRejoin f, f.word, f.planes, ?_, fun p hp => ?_,
    trapOrRejoin_taken f parked can⟩
  · rw [steps]
    unfold checked
    dsimp only
    rw [if_pos any]
    rfl
  · rw [planesMask_iff ws 0 hp]
    simp

theorem trapOrRejoin_step {k : Nat} {h : Off} (f : Failing) (parked : s1.g.parked = 0) (can : canTrap s1 h)
    (steps : step s = turnEnds k (.next (s1.trapOrRejoin f))) :
    ∃ t, step s = .next (t.reachBoundary k) ∧ TrapTaken (checkedAt s1 f.word f.planes f.mask) t h f.kind f.field f.x7 f.mask :=
  ⟨_, steps, trapOrRejoin_taken f parked can⟩

/-- The run of an offset whose words pass the checks (R26, R58). -/
theorem step_runs {k : Nat} {rest : List Activity} {ws : List (Nat × Word)} {x : Word × BitVec 8 × DWord} {more : List (Word × BitVec 8 × DWord)}
    {i : Instr} (start : begins s k rest) (words : (atFetch s k rest).fetchWords (fetchPlanes (s.group k)) = (s1, .ok ws))
    (formed : formIssues s1.g ws = x :: more) (agree : more ≠ [] → ∀ y ∈ ws, skeletonOp y.2 = false)
    (passes : s1.checkIssues (x :: more) = none) (decoded : decodeCore x.1 = .ok i) :
    let s2 : State := { s1 with iss := { s1.iss with mask := x.2.2, planes := x.2.1, word := x.1 } }
    s2.handlePending i = false → s2.regPending i x.2.2 = false → s2.scalarTaken i x more = none →
    step s = turnEnds k (issueEnds i x more (exec i (if (hReads i).isEmpty then s2 else s2.modG Group.dropLatches))) := by
  intro s2 handle reg scalar
  obtain ⟨-, made, steps⟩ := fetched_ok start words
  have same : ¬ ((∃ y ∈ ws, skeletonOp y.2 = true) ∧ 1 < (x :: more).length) := by
    rintro ⟨⟨y, mem, skeleton⟩, two⟩
    have some : more ≠ [] := by
      rintro rfl
      exact absurd two (Nat.lt_irrefl 1)
    rw [agree some y mem] at skeleton
    exact Bool.false_ne_true skeleton
  rw [steps, (checked_runs formed same).2 passes, runIssues_runs made decoded handle reg scalar]

/-! ### Pops -/

/-- A group's record is set while it stands first on the agenda, ready and between two offsets. -/
theorem step_setGroup {k : Nat} {rest : List Activity} (g : Group) (frozen : s.basin.frozen = false) (agenda : s.agenda = .group k :: rest)
    (live : g.live = true) (ready : g.wait = .ready) (half : g.half = none) (replays : g.replays = []) (parked : g.parked = 0)
    (stays : (s.setGroup k g).stopsAtBoundary k = false) :
    step (s.setGroup k g) = turnEnds k ((State.setG { s with agenda := rest, cur := k } g).pops 33).issueOffset := by
  have here : (s.setGroup k g).group k = g := s.group_setGroup k g
  have acts : (State.g (State.setG { s with agenda := rest, cur := k } g)) = g := g_setG ..
  have turn := step_turn (s := s.setGroup k g) frozen agenda (by rw [here]; exact live) (by rw [here]; exact ready) stays
  change _ = turnEnds k (State.groupTurn (State.setG { s with agenda := rest, cur := k } g)) at turn
  rw [turn, groupTurn_forward (by rw [acts]; exact half) (by rw [acts]; exact replays) (by rw [acts]; exact parked)]

end State

end Sys2Proof.Machine
end

section
/-! SUPPORT. The pops that a step makes first (R34), and O37. -/

namespace Sys2Proof.Machine

open Sys2Proof

namespace State

variable {s s1 : State}

section

variable {k : Nat} {rest : List Activity} (frozen : s.basin.frozen = false) (agenda : s.agenda = .group k :: rest)
  (live : (s.group k).live = true) (ready : (s.group k).wait = .ready) (half : (s.group k).half = none) (replays : (s.group k).replays = [])
  (parked : (s.group k).parked = 0) (stays : s.stopsAtBoundary k = false)

include frozen agenda live ready half replays parked stays

/-- The turn of the group with another join stack and at another offset, where its pops take no more than 32. -/
theorem step_popped {g : Group} (kept : g = { s.group k with joins := g.joins, offset := g.offset }) (few : popsLeft g.joins ≤ 32) :
    step (s.setGroup k g) = turnEnds k ((State.setG { s with agenda := rest, cur := k } g).pops 32).issueOffset := by
  have acts : (State.setG { s with agenda := rest, cur := k } g).g = g := g_setG ..
  have stays' : (s.setGroup k g).stopsAtBoundary k = false := by
    rw [← stays]
    unfold stopsAtBoundary
    rw [s.group_setGroup k g, kept]
    rfl
  rw [step_setGroup g frozen agenda ((congrArg Group.live kept).trans live) ((congrArg Group.wait kept).trans ready)
    ((congrArg Group.half kept).trans half) ((congrArg Group.replays kept).trans replays) ((congrArg Group.parked kept).trans parked) stays',
    pops_enough 32 (by rw [acts]; exact few)]

/-- A group whose top join entry is due pops it first: phase 0 goes to the lanes not taken, phase 1 is removed (R34). -/
theorem step_pops {j : Join} {r : List Join} (joins : (s.group k).joins = j :: r) (due : j.join = (s.group k).offset) (room : r.length < 16) :
    (j.phase = false → step s = step (s.setGroup k { s.group k with
      joins := { j with mask := (s.group k).notDeferred, phase := true } :: r, offset := j.notTaken })) ∧
    (j.phase = true → step s = step (s.setGroup k { s.group k with joins := r })) := by
  have turn := step_turn frozen agenda live ready stays
  have pops := pops_due (s := { s with agenda := rest, cur := k }) joins due 32
  have popped {g : Group} := step_popped (g := g) frozen agenda live ready half replays parked stays
  rw [groupTurn_forward (s := { s with agenda := rest, cur := k }) half replays parked] at turn
  have few := popsLeft_le r
  constructor <;> intro phase
  · have one : popsLeft ({ j with mask := (s.group k).notDeferred, phase := true } :: r) ≤ 32 := by
      rw [popsLeft, List.map_cons, List.sum_cons, if_pos rfl]
      unfold popsLeft at few
      omega
    rw [turn, pops, if_neg (by rw [phase]; decide)]
    exact (popped rfl one).symm
  · rw [turn, pops, if_pos phase]
    exact (popped rfl (by dsimp only; omega)).symm

end

/-- A step of a collective executes the word that its body stands at (R276). -/
theorem step_lock {n : Nat} {rest : List Activity} {c : Coll} {w : DWord} {i : Instr} (frozen : s.basin.frozen = false)
    (agenda : s.agenda = .lock n :: rest) (coll : s.collOf n = some c) (due : s.bodyDue c = true) (word : c.words[c.pc]? = some w)
    (decoded : decodeHenat w = .ok i) : step s = exec i { s with agenda := rest, curColl := n } := by
  have body : c.instr = i := by
    unfold Coll.instr
    rw [List.getD_eq_getElem?_getD, word, Option.getD_some, decoded]
  have coll' : State.collOf { s with agenda := rest } n = some c := coll
  have due' : State.bodyDue { s with agenda := rest } c = true := due
  rw [step_act frozen agenda]
  change State.lockStep { s with agenda := rest } n = _
  unfold lockStep
  rw [coll']
  dsimp only
  rw [if_pos due', body]

theorem step_event {e : Instr} {rest : List Activity} (frozen : s.basin.frozen = false) (agenda : s.agenda = .event e :: rest)
    (event : isEvent e = true) : step s = exec e { s with agenda := rest } := by
  rw [step_act frozen agenda]
  exact if_pos event

theorem reachBoundary_stays {k : Nat} (h : s.stopsAtBoundary k = false) : s.reachBoundary k = s := by
  unfold reachBoundary
  dsimp only
  rw [h, Bool.false_and, if_neg Bool.false_ne_true]

/-- The fetch of an offset faults (R64). -/
theorem step_fetchFaults {k p : Nat} {rest : List Activity} {h : Off} (start : begins s k rest)
    (words : (atFetch s k rest).fetchWords (fetchPlanes (s.group k)) = (s1, .error (some p))) (can : canTrap s1 h) :
    ∃ t, step s = .next (t.reachBoundary k) ∧ TrapTaken (checkedAt s1 0 (BitVec.twoPow 8 p) 0) t h 0x17 0 0 0 := by
  obtain ⟨u, replays, -, -, fetched, steps⟩ := step_begins start
  have parked : s1.g.parked = 0 := (fetchWords_fault words).trans (atFetch_parked start)
  rw [(issueOffset_eq replays).1 p (fetched.trans words)] at steps
  exact trapOrRejoin_step ⟨0x17, 0, 0, 0, BitVec.twoPow 8 p, 0⟩ parked can steps

theorem step_fetchWaits {k : Nat} {rest : List Activity} (start : begins s k rest)
    (words : (atFetch s k rest).fetchWords (fetchPlanes (s.group k)) = (s1, .error none)) : step s = .next (s1.reachBoundary k) := by
  obtain ⟨u, replays, -, -, fetched, steps⟩ := step_begins start
  rw [steps, (issueOffset_eq replays).2.1 (fetched.trans words)]
  rfl

/-- A check of R58 finds an issue at fault, its planes agreeing. -/
theorem step_checkFails {k : Nat} {rest : List Activity} {ws : List (Nat × Word)} {h : Off} (start : begins s k rest)
    (words : (atFetch s k rest).fetchWords (fetchPlanes (s.group k)) = (s1, .ok ws)) (can : canTrap s1 h)
    (agree : ¬ ((∃ y ∈ ws, skeletonOp y.2 = true) ∧ 1 < (formIssues s1.g ws).length)) {f : Failing}
    (found : s1.checkIssues (formIssues s1.g ws) = some f) :
    ∃ t, step s = .next (t.reachBoundary k) ∧ TrapTaken (checkedAt s1 f.word f.planes f.mask) t h f.kind f.field f.x7 f.mask := by
  obtain ⟨parked, -, steps⟩ := fetched_ok start words
  rw [(checked_runs rfl agree).1 f found] at steps
  exact trapOrRejoin_step f parked can steps

end State

/-- Settles O37: the turn of a group is its pops and one offset, the offset the fetch, the checks in their order and the issues. -/
theorem stepRunsItsInstruction : Obligations.StepRunsItsInstruction := by
  unfold Obligations.StepRunsItsInstruction
  refine ⟨?_, ?_, fun t k stays => State.reachBoundary_stays stays, fun t => t.finishOffset_offset, fun t => t.finishOffset_latches,
    ?_, ?_, ?_, ?_, ?_, ?_, ?_⟩
  · rintro s g p o sp loc slot t rfl fresh found
    exact ⟨State.fetchWords_one fresh found, rfl⟩
  · intro s s1 k rest ws x more i s2 start words formed agree passes decoded handle reg scalar
    rw [State.step_runs start words formed agree passes decoded handle reg scalar]
    cases exec i (if (hReads i).isEmpty then s2 else s2.modG Group.dropLatches) <;> rfl
  · intro s k rest j r g frozen agenda live ready half replays parked stays joins due room
    exact State.step_pops frozen agenda live ready half replays parked stays joins due room
  · intro s s1 k p rest h start words can
    exact State.step_fetchFaults start words can
  · intro s s1 k rest start words
    exact ⟨State.step_fetchWaits start words, State.fetchWords_page words⟩
  · intro s s1 k rest ws h start words can is misaligned
    exact ⟨State.step_planesDisagree start words can, fun agree f found => State.step_checkFails start words can agree found⟩
  · intro s x finds
    refine ⟨fun r => State.finds_undecoded, fun i decoded => ⟨fun r => State.finds_illegal decoded, fun legal =>
      ⟨fun n => State.finds_range decoded legal, fun inRange => ⟨fun n => State.finds_latch decoded legal inRange,
        State.finds_stale decoded legal inRange⟩⟩⟩⟩
  · intro s n rest c w i frozen agenda coll due word decoded
    exact State.step_lock frozen agenda coll due word decoded
  · intro s e rest frozen agenda event
    exact State.step_event frozen agenda event

end Sys2Proof.Machine
end

section
/-! SUPPORT. Compute-core words: operand codes, the fields of a word by its format, the bits that the opcode map fixes (R45 to R57). -/

namespace Sys2Proof

/-! ### Operand codes (R49) -/

/-- The code of an operand names it. -/
@[simp] theorem Operand.ofCode_code (o : Operand) : Operand.ofCode o.code = o := by
  cases o with
  | v n =>
    have c : (BitVec.ofNat 8 n.val).toNat = n.val := by rw [BitVec.toNat_ofNat]; omega
    simp only [Operand.code, Operand.ofCode, c, n.isLt, dif_pos]
  | s n => revert n; decide
  | l n => revert n; decide
  | lane => rfl
  | zero => rfl
  | h n => revert n; decide
  | p n => revert n; decide
  | x n => revert n; decide
  | rsv b => revert b; decide

/-- Every code is the code of the operand that it names. -/
@[simp] theorem Operand.code_ofCode (c : BitVec 8) : (Operand.ofCode c).code = c := by
  apply BitVec.eq_of_toNat_eq
  have := c.isLt
  unfold Operand.ofCode
  split_ifs with v s l lane zero rsv h p
  · simp only [Operand.code, BitVec.toNat_ofNat]; omega
  · simp only [Operand.code, BitVec.toNat_ofNat, Fin.ofNat]; omega
  · simp only [Operand.code, BitVec.toNat_ofNat, Fin.ofNat]; omega
  · exact lane.symm
  · exact zero.symm
  · obtain e | e : c.toNat = 0xE6 ∨ c.toNat = 0xE7 := by omega
    · rw [e]; rfl
    · rw [e]; rfl
  · simp only [Operand.code, BitVec.toNat_ofNat, Fin.ofNat]; omega
  · simp only [Operand.code, BitVec.toNat_ofNat, Fin.ofNat]; omega
  · simp only [Operand.code, BitVec.toNat_ofNat, Fin.ofNat]; omega

theorem Operand.code_eq_zero {o : Operand} : o.code = 0 ↔ o = .v 0 :=
  ⟨fun h => by rw [← ofCode_code o, h]; rfl, fun h => by rw [h]; rfl⟩

/-- Every code stands for an operand. -/
theorem Operand.exists_code (c : BitVec 8) : ∃ o : Operand, c = o.code := ⟨_, (code_ofCode c).symm⟩

/-! ### Parts of a word -/

section
variable {n : Nat} (x : BitVec n)

theorem append_bytes16 : x.extractLsb' 8 8 ++ x.extractLsb' 0 8 = x.extractLsb' 0 16 :=
  BitVec.extractLsb'_append_extractLsb'_eq_extractLsb' rfl

theorem append_bytes24 : x.extractLsb' 16 8 ++ x.extractLsb' 8 8 ++ x.extractLsb' 0 8 = x.extractLsb' 0 24 := by
  have high : x.extractLsb' 16 8 ++ x.extractLsb' 8 8 = x.extractLsb' 8 16 := BitVec.extractLsb'_append_extractLsb'_eq_extractLsb' rfl
  rw [high]
  exact BitVec.extractLsb'_append_extractLsb'_eq_extractLsb' rfl

/-- Bits within the low part of a word, taken from that part. -/
theorem extractLsb'_low {m s k : Nat} (h : s + k ≤ m) : (x.extractLsb' 0 m).extractLsb' s k = x.extractLsb' s k := by
  apply BitVec.eq_of_getLsbD_eq
  intro i hi
  have : s + i < m := by omega
  simp [this]

end

theorem toNat_append_assoc {l m n : Nat} (x : BitVec l) (y : BitVec m) (z : BitVec n) :
    (x ++ (y ++ z)).toNat = (x ++ y ++ z).toNat := by
  rw [BitVec.append_assoc, BitVec.toNat_cast]

section
variable (b : BitVec 8)

theorem bit_zero : (if b.getLsbD 0 then 1 else 0) = b % 2 := by
  apply BitVec.eq_of_toNat_eq
  rw [BitVec.toNat_umod, BitVec.getLsbD, Nat.testBit_zero]
  by_cases h : b.toNat % 2 = 1
  · simp [h]
  · have : b.toNat % 2 = 0 := by omega
    simp [this]

theorem low_two : (b.extractLsb' 0 2).setWidth 8 = b % 4 := by
  apply BitVec.eq_of_toNat_eq
  simp only [BitVec.toNat_setWidth, BitVec.extractLsb'_toNat, Nat.shiftRight_zero, BitVec.toNat_umod, BitVec.ofNat_eq_ofNat,
    BitVec.toNat_ofNat, Nat.reducePow, Nat.reduceMod]
  omega

variable {b}

theorem above_one : b.extractLsb' 1 7 = 0 ↔ b = b % 2 := by
  have := b.isLt
  simp only [← BitVec.toNat_inj, BitVec.toNat_umod, BitVec.extractLsb'_toNat, Nat.shiftRight_eq_div_pow, BitVec.ofNat_eq_ofNat,
    BitVec.toNat_ofNat, Nat.reducePow, Nat.reduceMod]
  omega

theorem above_two : b.extractLsb' 2 6 = 0 ↔ b = b % 4 := by
  have := b.isLt
  simp only [← BitVec.toNat_inj, BitVec.toNat_umod, BitVec.extractLsb'_toNat, Nat.shiftRight_eq_div_pow, BitVec.ofNat_eq_ofNat,
    BitVec.toNat_ofNat, Nat.reducePow, Nat.reduceMod]
  omega

end

/-! ### The fields of a word (R45) -/

section
variable (op : BitVec 7) (w : Bool) (d a b : BitVec 8)

@[simp] theorem opcodeOf_formA : opcodeOf (formA op w d a b) = op := by
  unfold opcodeOf formA
  iterate 4 rw [BitVec.extractLsb'_append_eq_of_le (by decide)]
  exact BitVec.extractLsb'_eq_self

@[simp] theorem wBit_formA : wBit (formA op w d a b) = w := by
  unfold wBit formA
  iterate 3 rw [BitVec.getLsbD_append, if_neg (by decide)]
  rw [BitVec.getLsbD_append, if_pos (by decide)]
  cases w <;> rfl

@[simp] theorem fieldD_formA : (formA op w d a b).extractLsb' 16 8 = d := by
  unfold formA
  iterate 2 rw [BitVec.extractLsb'_append_eq_of_le (by decide)]
  exact BitVec.extractLsb'_append_eq_right

@[simp] theorem fieldA_formA : (formA op w d a b).extractLsb' 8 8 = a := by
  unfold formA
  rw [BitVec.extractLsb'_append_eq_of_le (by decide)]
  exact BitVec.extractLsb'_append_eq_right

@[simp] theorem fieldB_formA : (formA op w d a b).extractLsb' 0 8 = b := BitVec.extractLsb'_append_eq_right

@[simp] theorem opdD_formA : opd (formA op w d a b) 16 = Operand.ofCode d := congrArg _ (fieldD_formA ..)
@[simp] theorem opdA_formA : opd (formA op w d a b) 8 = Operand.ofCode a := congrArg _ (fieldA_formA ..)
@[simp] theorem opdB_formA : opd (formA op w d a b) 0 = Operand.ofCode b := congrArg _ (fieldB_formA ..)
@[simp] theorem imm8_formA : imm8 (formA op w d a b) = b := fieldB_formA ..

/-- imm16 stands in the fields A and B. -/
@[simp] theorem imm16_formA : (formA op w d a b).extractLsb' 0 16 = a ++ b := by
  rw [← append_bytes16, fieldA_formA, fieldB_formA]

/-- The offset of 24 bits stands in the fields D, A and B. -/
@[simp] theorem offset_formA : (formA op w d a b).extractLsb' 0 24 = d ++ a ++ b := by
  rw [← append_bytes24, fieldD_formA, fieldA_formA, fieldB_formA]

/-- BRX's offset of the lanes that take the branch. -/
@[simp] theorem taken_formA : (formA op w d a b).extractLsb' 12 12 = (d ++ a ++ b).extractLsb' 12 12 := by
  rw [← offset_formA op w d a b, extractLsb'_low _ (by decide)]

/-- BRX's offset of the lanes that do not. -/
@[simp] theorem notTaken_formA : (formA op w d a b).extractLsb' 0 12 = (d ++ a ++ b).extractLsb' 0 12 := by
  rw [← offset_formA op w d a b, extractLsb'_low _ (by decide)]

/-- FESET's bit (R147). -/
@[simp] theorem bit0_formA : (formA op w d a b).getLsbD 0 = b.getLsbD 0 := by
  rw [formA, BitVec.getLsbD_append, if_pos (by decide)]

@[simp] theorem above1_formA : (formA op w d a b).extractLsb' 1 7 = b.extractLsb' 1 7 := by
  rw [← extractLsb'_low _ (show 1 + 7 ≤ 8 by decide), fieldB_formA]

/-- PHASE's hints (R174). -/
@[simp] theorem low2_formA : (formA op w d a b).extractLsb' 0 2 = b.extractLsb' 0 2 := by
  rw [← extractLsb'_low _ (show 0 + 2 ≤ 8 by decide), fieldB_formA]

@[simp] theorem above2_formA : (formA op w d a b).extractLsb' 2 6 = b.extractLsb' 2 6 := by
  rw [← extractLsb'_low _ (show 2 + 6 ≤ 8 by decide), fieldB_formA]

@[simp] theorem fieldNonzero_d : fieldNonzero (formA op w d a b) 1 = (d != 0) := by
  rw [fieldNonzero, fieldD_formA]

@[simp] theorem fieldNonzero_a : fieldNonzero (formA op w d a b) 2 = (a != 0) := by
  rw [fieldNonzero, fieldA_formA]

@[simp] theorem fieldNonzero_b : fieldNonzero (formA op w d a b) 3 = (b != 0) := by
  rw [fieldNonzero, fieldB_formA]

/-! Every word has the fields of format A; formats K, J and X put longer ones over them. -/

theorem formA_fields (w : Word) :
    formA (opcodeOf w) (wBit w) (w.extractLsb' 16 8) (w.extractLsb' 8 8) (w.extractLsb' 0 8) = w := by
  have bit : BitVec.ofBool (wBit w) = w.extractLsb' 24 1 := by
    apply BitVec.eq_of_getLsbD_eq
    intro i hi
    obtain rfl : i = 0 := by omega
    simp [wBit]
  have opW : w.extractLsb' 25 7 ++ w.extractLsb' 24 1 = w.extractLsb' 24 8 := BitVec.extractLsb'_append_extractLsb'_eq_extractLsb' rfl
  have withD : w.extractLsb' 24 8 ++ w.extractLsb' 16 8 = w.extractLsb' 16 16 := BitVec.extractLsb'_append_extractLsb'_eq_extractLsb' rfl
  have withA : w.extractLsb' 16 16 ++ w.extractLsb' 8 8 = w.extractLsb' 8 24 := BitVec.extractLsb'_append_extractLsb'_eq_extractLsb' rfl
  have withB : w.extractLsb' 8 24 ++ w.extractLsb' 0 8 = w.extractLsb' 0 32 := BitVec.extractLsb'_append_extractLsb'_eq_extractLsb' rfl
  unfold formA opcodeOf
  rw [bit, opW, withD, withA, withB, BitVec.extractLsb'_eq_self]

theorem formK_append : formK op w d (a ++ b) = formA op w d a b := BitVec.eq_of_toNat_eq (toNat_append_assoc ..)

theorem formJ_append : formJ op (d ++ a ++ b) = formA op false d a b := by
  apply BitVec.eq_of_toNat_eq
  calc (op ++ 0#1 ++ (d ++ a ++ b)).toNat = (op ++ 0#1 ++ (d ++ a) ++ b).toNat := toNat_append_assoc ..
    _ = (op ++ 0#1 ++ d ++ a ++ b).toNat := by rw [BitVec.toNat_append, toNat_append_assoc, ← BitVec.toNat_append]

theorem formX_append (t v : BitVec 12) : formX op t v = formJ op (t ++ v) := (BitVec.eq_of_toNat_eq (toNat_append_assoc ..)).symm

theorem formK_fields (k : BitVec 16) : formK op w d k = formA op w d (k.extractLsb' 8 8) (k.extractLsb' 0 8) := by
  rw [← formK_append, append_bytes16, BitVec.extractLsb'_eq_self]

theorem formJ_fields (k : BitVec 24) :
    formJ op k = formA op false (k.extractLsb' 16 8) (k.extractLsb' 8 8) (k.extractLsb' 0 8) := by
  rw [← formJ_append, append_bytes24, BitVec.extractLsb'_eq_self]

theorem formX_halves (x : BitVec 24) : formX op (x.extractLsb' 12 12) (x.extractLsb' 0 12) = formJ op x := by
  have halves : x.extractLsb' 12 12 ++ x.extractLsb' 0 12 = x.extractLsb' 0 24 := BitVec.extractLsb'_append_extractLsb'_eq_extractLsb' rfl
  rw [formX_append, halves, BitVec.extractLsb'_eq_self]

end

/-! ### The bits that the opcode map fixes (R46, R54) -/

/-- What a field may hold: zero where the opcode map has a zero field, else the code. -/
def Shape.field (sh : Shape) (f : Nat) (c : BitVec 8) : BitVec 8 := if f ∈ sh.zeros then 0 else c

theorem Shape.eq_field (sh : Shape) (f : Nat) (c x : BitVec 8) : c = sh.field f x ↔ if f ∈ sh.zeros then c = 0 else c = x := by
  unfold Shape.field
  split <;> rfl

/-- The bits of the B field that the opcode uses: FESET has one (R147) and PHASE two (R174). -/
def lowBits (op : BitVec 7) (b : BitVec 8) : BitVec 8 := if op = 0x6D then b % 2 else if op = 0x7C then b % 4 else b

theorem lowBits_zero (op : BitVec 7) : lowBits op 0 = 0 := by
  unfold lowBits
  split_ifs <;> rfl

theorem eq_lowBits (op : BitVec 7) (b : BitVec 8) : b = lowBits op b ↔ (op = 0x6D → b = b % 2) ∧ (op = 0x7C → b = b % 4) := by
  unfold lowBits
  split_ifs with feset phase
  · subst feset; simp
  · subst phase; simp
  · exact iff_of_true rfl ⟨fun e => absurd e feset, fun e => absurd e phase⟩

/-- The fields hold nothing but what the opcode map admits: `checks_formA` says that these are the checks of kinds 0x03 and 0x04. -/
structure FieldsFixed (op : BitVec 7) (w : Bool) (d a b : BitVec 8) : Prop where
  wBit : w = ((shapeOf op).wOk && w)
  dField : d = (shapeOf op).field 1 d
  aField : a = (shapeOf op).field 2 a
  bField : b = (shapeOf op).field 3 (lowBits op b)
  suppressed : w = true → readsDOpcode op = false → d = 0

theorem FieldsFixed.word {op : BitVec 7} {w : Bool} {d a b : BitVec 8} (f : FieldsFixed op w d a b) :
    formA op ((shapeOf op).wOk && w) ((shapeOf op).field 1 d) ((shapeOf op).field 2 a) ((shapeOf op).field 3 (lowBits op b)) =
      formA op w d a b := by
  rw [← f.wBit, ← f.dField, ← f.aField, ← f.bField]

theorem wOk_bit24 (op : BitVec 7) : (shapeOf op).wOk = true → (shapeOf op).bit24Zero = false := by
  revert op; decide

theorem ite_some_eq_none {α : Type} {p : Prop} [Decidable p] {x : α} {r : Option α} :
    (if p then some x else r) = none ↔ ¬ p ∧ r = none := by
  by_cases h : p <;> simp [h]

section
variable {op : BitVec 7} {w : Bool} {d a b : BitVec 8}

/-- The checks of kinds 0x03 and 0x04, field by field. -/
theorem badZero_badW_formA : badZero (formA op w d a b) = none ∧ badW (formA op w d a b) = false ↔
    (1 ∈ (shapeOf op).zeros ∨ ((shapeOf op).wOk = true ∧ w = true) ∧ readsDOpcode op = false → d = 0) ∧
    (2 ∈ (shapeOf op).zeros → a = 0) ∧ (3 ∈ (shapeOf op).zeros → b = 0) ∧
    (op = 0x6D → b = b % 2) ∧ (op = 0x7C → b = b % 4) ∧
    (w = true → (shapeOf op).wOk = true ∧ (shapeOf op).bit24Zero = false) := by
  simp only [badZero, badW, opcodeOf_formA, wBit_formA, fieldNonzero_d, fieldNonzero_a, fieldNonzero_b, ite_some_eq_none,
    ← above_one, ← above_two]
  cases w <;> cases (shapeOf op).wOk <;> cases (shapeOf op).bit24Zero <;> simp

theorem checks_formA : badZero (formA op w d a b) = none ∧ badW (formA op w d a b) = false ↔ FieldsFixed op w d a b := by
  rw [badZero_badW_formA]
  constructor
  · rintro ⟨dZero, aZero, bZero, feset, phase, wZero⟩
    refine ⟨?_, ?_, ?_, ?_, fun hw r => dZero (.inr ⟨⟨(wZero hw).1, hw⟩, r⟩)⟩
    · cases w
      · exact (Bool.and_false _).symm
      · rw [(wZero rfl).1]; rfl
    · rw [Shape.eq_field]
      split
      · exact dZero (.inl ‹_›)
      · rfl
    · rw [Shape.eq_field]
      split
      · exact aZero ‹_›
      · rfl
    · rw [Shape.eq_field]
      split
      · exact bZero ‹_›
      · exact (eq_lowBits op b).2 ⟨feset, phase⟩
  · rintro ⟨wBit, dField, aField, bField, suppressed⟩
    rw [Shape.eq_field] at dField aField bField
    have low : b = lowBits op b := by
      split at bField
      · rw [bField, lowBits_zero]
      · exact bField
    obtain ⟨feset, phase⟩ := (eq_lowBits op b).1 low
    refine ⟨?_, fun zero => ?_, fun zero => ?_, feset, phase, fun hw => ?_⟩
    · rintro (zero | ⟨⟨-, hw⟩, r⟩)
      · rwa [if_pos zero] at dField
      · exact suppressed hw r
    · rwa [if_pos zero] at aField
    · rwa [if_pos zero] at bField
    · have ok : (shapeOf op).wOk = true := by simpa [hw] using wBit.symm
      exact ⟨ok, wOk_bit24 op ok⟩

end

/-- A word decodes exactly where it parses, to a well-formed instruction, and its zero fields and its W bit are right (R61). -/
theorem decodeCore_eq_ok {w : Word} {i : Instr} :
    decodeCore w = .ok i ↔ parse w = .ok i ∧ i.wf = true ∧ badZero w = none ∧ badW w = false := by
  unfold decodeCore Instr.wf
  cases parse w with
  | error r => simp
  | ok j =>
    constructor
    · intro h
      dsimp only at h
      split at h
      · cases h
      · cases z : badZero w <;> cases x : badW w <;> simp only [z, x, Bool.false_eq_true, if_false, if_true, reduceCtorEq] at h
        split at h
        · cases h
        · cases h
          simp_all
    · rintro ⟨e, wf, z, x⟩
      cases e
      rw [Option.isNone_iff_eq_none] at wf
      simp [wf, z, x]

end Sys2Proof
end

section
/-! The obligations: the words of compute-core instructions, both ways. -/

namespace Sys2Proof

/-! ### From the word to the instruction -/

section
variable {w : Bool} {d a : Operand} {b : BitVec 8} {i : Instr}

theorem encode_parseIun (h : parseIun (formA 0x30 w d.code a.code b) = .ok i) :
    encodeCore i = some (formA 0x30 w d.code a.code b) := by
  simp only [parseIun, wBit_formA, opdD_formA, opdA_formA, imm8_formA, Operand.ofCode_code] at h
  split at h
  case h_9 => cases h
  all_goals cases h; rfl

theorem encode_parseFun (h : parseFun (formA 0x56 w d.code a.code b) = .ok i) :
    encodeCore i = some (formA 0x56 w d.code a.code b) := by
  simp only [parseFun, wBit_formA, opdD_formA, opdA_formA, imm8_formA, Operand.ofCode_code] at h
  split at h
  case h_12 => cases h
  all_goals cases h; rfl

theorem encode_parseRedi (h : parseRedi (formA 0x66 w d.code a.code b) = .ok i) :
    encodeCore i = some (formA 0x66 w d.code a.code b) := by
  simp only [parseRedi, wBit_formA, opdD_formA, opdA_formA, imm8_formA, Operand.ofCode_code] at h
  split at h
  case h_6 => cases h
  all_goals cases h; rfl

theorem encode_parseRedf (h : parseRedf (formA 0x67 w d.code a.code b) = .ok i) :
    encodeCore i = some (formA 0x67 w d.code a.code b) := by
  simp only [parseRedf, wBit_formA, opdD_formA, opdA_formA, imm8_formA, Operand.ofCode_code] at h
  split at h
  case h_4 => cases h
  all_goals cases h; rfl

end

/-- What a word parses to has that word, where the word's fields hold nothing more than the opcode map admits. The case `h_n` is the row
of opcode n - 1. -/
theorem encode_parse {op : BitVec 7} {w : Bool} {d a b : BitVec 8} {i : Instr} (h : parse (formA op w d a b) = .ok i)
    (fixed : FieldsFixed op w d a b) : encodeCore i = some (formA op w d a b) := by
  have word := fixed.word
  obtain ⟨D, rfl⟩ := Operand.exists_code d
  obtain ⟨A, rfl⟩ := Operand.exists_code a
  obtain ⟨B, rfl⟩ := Operand.exists_code b
  simp only [parse, opcodeOf_formA, wBit_formA, fieldD_formA, fieldA_formA, opdD_formA, opdA_formA, opdB_formA, imm8_formA,
    imm16_formA, offset_formA, taken_formA, notTaken_formA, bit0_formA, low2_formA, Operand.ofCode_code] at h
  split at h
  -- format K
  case h_2 | h_3 | h_13 | h_55 | h_56 | h_57 =>
    cases h
    exact congrArg some ((formK_append ..).trans word)
  -- formats J and C
  case h_5 | h_7 | h_10 | h_11 =>
    cases h
    exact congrArg some ((formJ_append ..).trans word)
  -- format X
  case h_6 =>
    cases h
    exact congrArg some ((formX_halves ..).trans ((formJ_append ..).trans word))
  -- opcodes with functions
  case h_49 => exact encode_parseIun h
  case h_87 => exact encode_parseFun h
  case h_103 => exact encode_parseRedi h
  case h_104 => exact encode_parseRedf h
  -- FESET and PHASE
  case h_110 =>
    cases h
    exact congrArg some ((congrArg (formA 0x6D false D.code A.code) (bit_zero _)).trans word)
  case h_125 =>
    cases h
    exact congrArg some ((congrArg (formA 0x7C false D.code 0) (low_two _)).trans word)
  -- opcode 0x7F
  case h_128 => cases h
  -- formats A, I, F, C and N
  all_goals
    cases h
    exact congrArg some word

/-- Settles O35: the word is put together again from the fields that it was parsed into. -/
theorem decodedCoreWordIsCanonical : Obligations.DecodedCoreWordIsCanonical := by
  intro i w decoded
  obtain ⟨parsed, wf, zero, noW⟩ := decodeCore_eq_ok.1 decoded
  rw [← formA_fields w] at parsed zero noW
  have word := encode_parse parsed (checks_formA.1 ⟨zero, noW⟩)
  rw [formA_fields] at word
  exact ⟨wf, word⟩

/-! ### From the instruction to the word -/

section
variable (w : Bool) (d a b : BitVec 8)

theorem parse_function30 : parse (formA 0x30 w d a b) = parseIun (formA 0x30 w d a b) := by
  rw [parse, opcodeOf_formA]; rfl

theorem parse_function56 : parse (formA 0x56 w d a b) = parseFun (formA 0x56 w d a b) := by
  rw [parse, opcodeOf_formA]; rfl

theorem parse_function66 : parse (formA 0x66 w d a b) = parseRedi (formA 0x66 w d a b) := by
  rw [parse, opcodeOf_formA]; rfl

theorem parse_function67 : parse (formA 0x67 w d a b) = parseRedf (formA 0x67 w d a b) := by
  rw [parse, opcodeOf_formA]; rfl

end

/-- An instruction is what its word parses to: row by row of the opcode map, by the format of the row. -/
theorem parse_encode {i : Instr} {w : Word} (h : encodeCore i = some w) : parse w = .ok i := by
  cases i <;> cases h
  case nop | ret | cEndif | exit =>
    rw [parse, opcodeOf_formA]; rfl
  case modelo | modehi | yield | movi | movhi | movsi =>
    rw [formK_fields, parse, opcodeOf_formA]
    refine congrArg Except.ok ?_
    simp only [wBit_formA, opdD_formA, imm16_formA, Operand.ofCode_code, append_bytes16, BitVec.extractLsb'_eq_self]
  case br | call | cIf | cElse =>
    rw [formJ_fields, parse, opcodeOf_formA]
    refine congrArg Except.ok ?_
    simp only [offset_formA, append_bytes24, BitVec.extractLsb'_eq_self]
  case brx t v =>
    rw [formX_append, formJ_fields, parse, opcodeOf_formA]
    refine congrArg Except.ok ?_
    rw [taken_formA, notTaken_formA, append_bytes24, BitVec.extractLsb'_eq_self, BitVec.extractLsb'_append_eq_left,
      BitVec.extractLsb'_append_eq_right]
  case inot | ineg | iabs | popc | clz | brev | sext8 | sext16 =>
    rw [parse_function30, parseIun, imm8_formA]
    refine congrArg Except.ok ?_
    simp only [wBit_formA, opdD_formA, opdA_formA, Operand.ofCode_code]
  case fabs | fneg | frcp | frsq | fsqrt | fexp2 | flog2 | ffloor | fceil | ftrunc | frint =>
    rw [parse_function56, parseFun, imm8_formA]
    refine congrArg Except.ok ?_
    simp only [wBit_formA, opdD_formA, opdA_formA, Operand.ofCode_code]
  case rediadd | redimax | redimin | redimaxn | rediminn =>
    rw [parse_function66, parseRedi, imm8_formA]
    refine congrArg Except.ok ?_
    simp only [wBit_formA, opdD_formA, opdA_formA, Operand.ofCode_code]
  case redfadd | redfmax | redfmin =>
    rw [parse_function67, parseRedf, imm8_formA]
    refine congrArg Except.ok ?_
    simp only [wBit_formA, opdD_formA, opdA_formA, Operand.ofCode_code]
  case feset d a s =>
    have bit : (if s then 1 else 0 : BitVec 8).getLsbD 0 = s := by revert s; decide
    rw [parse, opcodeOf_formA]
    refine congrArg Except.ok ?_
    rw [opdD_formA, opdA_formA, bit0_formA, bit, Operand.ofCode_code, Operand.ofCode_code]
  case phase d k =>
    have hints : (k.setWidth 8).extractLsb' 0 2 = k := by revert k; decide
    rw [parse, opcodeOf_formA]
    refine congrArg Except.ok ?_
    rw [fieldD_formA, low2_formA, hints]
  all_goals
    rw [parse, opcodeOf_formA]
    refine congrArg Except.ok ?_
    simp only [wBit_formA, fieldD_formA, fieldA_formA, opdD_formA, opdA_formA, opdB_formA, imm8_formA, Operand.ofCode_code]

/-- With W = 1 the D field of an instruction that does not read it is zero (R54). -/
theorem View.d_zero {v : View} (z : v.dZero = true) (w : v.w = true) (r : v.readsD = false) {c : OpClass} {d : Operand}
    (h : v.d = some (c, d)) : d.code = 0 := by
  rw [Operand.code_eq_zero]
  simpa [View.dZero, w, r, h] using z

/-- The word of an instruction whose D field is right holds nothing but what the opcode map admits. Rows without W come last. -/
theorem fieldsFixed_encode {i : Instr} {w : Word} (h : encodeCore i = some w) (z : i.view.dZero = true) :
    ∃ op x d a b, w = formA op x d a b ∧ FieldsFixed op x d a b := by
  cases i <;> cases h
  case modelo | modehi | yield =>
    exact ⟨_, _, _, _, _, formK_fields .., rfl, rfl, rfl, rfl, nofun⟩
  case movi | movsi =>
    exact ⟨_, _, _, _, _, formK_fields .., rfl, rfl, rfl, rfl, fun w _ => View.d_zero z w rfl rfl⟩
  case movhi =>
    exact ⟨_, _, _, _, _, formK_fields .., rfl, rfl, rfl, rfl, fun _ r => absurd r (by decide)⟩
  case br | call | cIf | cElse =>
    exact ⟨_, _, _, _, _, formJ_fields .., rfl, rfl, rfl, rfl, nofun⟩
  case brx =>
    exact ⟨_, _, _, _, _, (formX_append ..).trans (formJ_fields ..), rfl, rfl, rfl, rfl, nofun⟩
  case imad | ffma | aladd | alcas | aadd | amin | amax | aand | aor | axor | axch | acas | afadd =>
    exact ⟨_, _, _, _, _, rfl, rfl, rfl, rfl, rfl, fun _ r => absurd r (by decide)⟩
  case iadd | isub | imul | imulh | imulhn | iand | ior | ixor | ishl | ishr | isar | imin | imax | iminn | imaxn
      | inot | ineg | iabs | popc | clz | brev | sext8 | sext16 | iaddi | ishli | ishri | isari | iandi | sel
      | fadd | fsub | fmul | fmin | fmax | fabs | fneg | frcp | frsq | fsqrt | fexp2 | flog2 | ffloor | fceil | ftrunc | frint
      | cvt | fscale | fclass | perm | vidx | bcast
      | rediadd | redimax | redimin | redimaxn | rediminn | redfadd | redfmax | redfmin =>
    exact ⟨_, _, _, _, _, rfl, rfl, rfl, rfl, rfl, fun w _ => View.d_zero z w rfl rfl⟩
  case feset d a s =>
    have bit : (if s then 1 else 0 : BitVec 8) = lowBits 0x6D (if s then 1 else 0) := by cases s <;> rfl
    exact ⟨_, _, _, _, _, rfl, rfl, rfl, rfl, bit, nofun⟩
  case phase d k =>
    have hints : k.setWidth 8 = lowBits 0x7C (k.setWidth 8) := by clear z; revert k; decide
    exact ⟨_, _, _, _, _, rfl, rfl, rfl, rfl, hints, nofun⟩
  all_goals
    exact ⟨_, _, _, _, _, rfl, rfl, rfl, rfl, rfl, nofun⟩

/-- Settles O34: the word of an instruction parses to it, and the checks of the word are those of the instruction. -/
theorem coreWordsRoundTrip : Obligations.CoreWordsRoundTrip := by
  intro i w encoded wf
  obtain ⟨-, z, -, -⟩ := wf_checks i wf
  obtain ⟨op, x, d, a, b, rfl, fixed⟩ := fieldsFixed_encode encoded z
  exact decodeCore_eq_ok.2 ⟨parse_encode encoded, wf, checks_formA.2 fixed⟩

/-- Settles O33, by decoding each word. -/
theorem decodesSpecWords : Obligations.DecodesSpecWords := by
  unfold Obligations.DecodesSpecWords
  refine ⟨?_, ?_, ?_, ?_, ?_, ?_, ?_, ?_, ?_, ?_, ?_, ?_, ?_, ?_, ?_⟩ <;> rfl

end Sys2Proof
end

section
/-! The obligations: SEL, YIELD, and the writes of MODE. -/

namespace Sys2Proof.Machine

open Sys2Proof

/-! ### SEL (R81) -/

/-- The branch decision over the issue's lanes (R107). -/
theorem branchTaken_iff (s : State) : s.branchTaken s.iss.mask = true ↔ branchDecision s := by
  unfold State.branchTaken branchDecision
  rw [Bool.or_eq_true, beq_iff_eq, bne_iff_ne, taken_ne_zero_iff]

/-- The operand that SEL takes, by its decision, as the value of its element type (R81). -/
def selPick (s : State) (a b : Operand) (t : Bool) (l : Nat) : DWord :=
  if s.itype = 3 then s.rd64 (if t then a else b) l else (s.rd (if t then a else b) l).setWidth 64

theorem selPick_eq (s : State) (a b : Operand) (t : Bool) (l : Nat) :
    selPick s a b t l =
      let pick (o : Operand) (l : Nat) : DWord := if modeItype s.g.mode = 3 then s.rd64 o l else (s.rd o l).setWidth 64
      if t then pick a l else pick b l := by
  cases t <;> rfl

/-- SEL by class: one decision for a scalar-class form, else one in each lane. -/
theorem exec_sel (w : Bool) (d a b : Operand) (s : State) :
    exec (.sel w d a b) s = .next (s.result w d (s.itype == 3)
      (fun l => selPick s a b (if !w && d.isS then s.branchTaken s.iss.mask else s.g.pred (modeBp s.g.mode) l) l)) := by
  change execSel w d a b s = _
  unfold execSel State.result
  cases !w && d.isS <;> rfl

/-- Settles O7: the result of SEL, written by its class. -/
theorem selectResults : Obligations.SelectResults := by
  intro w d a b s wf
  refine ⟨_, _, exec_sel w d a b s, result_written s w d _ _ (wf_dst _ wf d rfl), ?_, ?_⟩
  · intro vector l
    have : (!w && d.isS) = false := by
      rcases vector with rfl | h
      · rfl
      · rw [h, Bool.and_false]
    simp only [this, selPick_eq, Bool.false_eq_true, if_false]
  · rintro ⟨rfl, h⟩
    have : (!false && d.isS) = true := by rw [h]; rfl
    simp only [this, if_true, selPick_eq, ← branchTaken_iff]
    exact ⟨fun t => if_pos t, fun t => if_neg t⟩

/-! ### MODE (R59, R71) -/

theorem modeReserved_iff (m : Word) : modeReserved m = true ↔ ¬ modeLegal m := by
  have := m.isLt
  have top : m.toNat / 2 ^ 28 % 2 ^ 4 = m.toNat / 2 ^ 28 := Nat.mod_eq_of_lt (by omega)
  unfold modeReserved modeLegal modeMw modeCto modeCfrom modeRnd modeFtype modeField
  rw [top]
  simp only [Bool.or_eq_true, bne_iff_ne, decide_eq_true_eq]
  omega

/-- A legal value of MODE is written; a reserved one traps (R59). -/
theorem writeMode_legal {s : State} {m : Word} (k : BitVec 16) (legal : modeLegal m) :
    GroupOnly s (s.writeMode m k) ∧ (s.writeMode m k).iss = s.iss ∧ (s.writeMode m k).g = { s.g with mode := m } := by
  unfold State.writeMode
  rw [if_neg (by rw [modeReserved_iff]; exact not_not.2 legal)]
  exact ⟨modG_only s _, rfl, State.g_modG ..⟩

theorem writeMode_reserved {s : State} {m : Word} {h : Off} (k : BitVec 16) (reserved : ¬ modeLegal m) (can : canTrap s h) :
    TrapTaken s (s.writeMode m k) h 7 4 k.toNat s.iss.mask := by
  unfold State.writeMode
  rw [if_pos ((modeReserved_iff m).2 reserved)]
  exact trapAt_taken s h 7 4 k.toNat s.iss.mask can

/-- Settles O9: a MODE write by the legality of the new value. -/
theorem nopAndModeWrites : Obligations.NopAndModeWrites := by
  intro s k h
  refine ⟨rfl, fun legal => ⟨_, rfl, writeMode_legal k legal⟩, fun legal => ⟨_, rfl, writeMode_legal k legal⟩, ?_, ?_⟩
  · exact fun reserved can => ⟨_, rfl, writeMode_reserved k reserved can⟩
  · exact fun reserved can => ⟨_, rfl, writeMode_reserved k reserved can⟩

/-! ### YIELD (R112, R223) -/

/-- The completion of an operation does not turn on the acting group's latches. -/
theorem opDone_dropLatches (s : State) (v : Word) : (s.modG Group.dropLatches).opDone v = s.opDone v := by
  unfold State.opDone State.opEntry State.team
  rw [State.g_modG]
  rfl

/-- Two changes of the acting group's record are one. -/
theorem modG_modG (s : State) (f f' : Group → Group) : (s.modG f).modG f' = s.modG (fun g => f' (f g)) := by
  unfold State.modG
  rw [State.g_setG]
  unfold State.setG State.setGroup
  rw [Table.set_set]

/-- Settles O14: YIELD by its three cases, then the resumption. -/
theorem yieldResults : Obligations.YieldResults := by
  intro s n k h v cont
  refine ⟨fun stale can => ?_, fun fresh done => ?_, fun fresh pending => ?_, fun gk v cont waits reused => ?_⟩
  · exact ⟨_, if_pos stale, trapAt_taken s h 0x18 1 0 s.iss.mask can⟩
  · have ran : exec (.yield (.h n) k) s = .next ((s.modG Group.dropLatches).jump cont) :=
      (if_neg (Bool.eq_false_iff.1 fresh)).trans (if_pos ((opDone_dropLatches ..).trans done))
    exact ⟨_, ran, setG_jump s s.g.dropLatches cont⟩
  · have ran : exec (.yield (.h n) k) s =
        .next (((s.modG Group.dropLatches).modG (fun g => { g with wait := .yield v cont })).jump (s.modG Group.dropLatches).g.offset) :=
      (if_neg (Bool.eq_false_iff.1 fresh)).trans (if_neg (Bool.eq_false_iff.1 ((opDone_dropLatches ..).trans pending)))
    rw [modG_modG, State.g_modG] at ran
    exact ⟨_, ran, setG_jump s { s.g with latValid := 0, wait := .yield v cont } s.g.offset⟩
  · have ran : exec (.yieldResume gk) s = .next (s.setGroup gk { s.group gk with wait := .ready, offset := cont }) := by
      change execYieldResume gk s = _
      unfold execYieldResume
      simp only [waits]
      refine if_neg ?_
      rw [Bool.and_eq_true, beq_iff_eq]
      rintro ⟨same, pending⟩
      rcases reused with other | complete
      · exact other same
      · exact absurd pending (Bool.eq_false_iff.1 complete)
    refine ⟨_, ran, rfl, fun j other => ?_, ?_⟩
    · exact s.group_setGroup_ne gk j _ other
    · exact s.group_setGroup gk _

end Sys2Proof.Machine
end

section
/-! SUPPORT. Rounding (R92): the integer that a mode chooses, and the step of a format's set that `roundFmt` delivers. -/

namespace Sys2Proof.Machine

open Sys2Proof

/-! ### Rounding to an integer -/

/-- Between `k` and `k + 1` a mode chooses `n`, by the remainder, the parity or the sign (R92). -/
def ModeChooses (r : Rnd) (neg : Bool) (x : ℚ) (k n : Nat) : Prop :=
  match r with
  | .rne => if x - k = 1 / 2 then n % 2 = 0 else (n = k ↔ x - k < 1 / 2)
  | .rna => n = k ↔ x - k < 1 / 2
  | .rtz => n = k
  | .rup => n = k ↔ neg = true
  | .rdn => n = k ↔ neg = false

/-- The integer that a rounding mode chooses for a magnitude `x` of a number of sign `neg`. -/
def ChoosesInt (r : Rnd) (neg : Bool) (x : ℚ) (n : Nat) : Prop :=
  (n : ℚ) = x ∨ ∃ k : Nat, (k : ℚ) < x ∧ x < k + 1 ∧ (n = k ∨ n = k + 1) ∧ ModeChooses r neg x k n

/-- `roundsUp` moves away from zero where the mode says so; `d` of `p` is twice the discarded part. -/
theorem modeChooses_roundsUp (r : Rnd) (neg : Bool) {x : ℚ} {k d p : Nat} (near : x - k < 1 / 2 ↔ d < p) (tie : x - k = 1 / 2 ↔ d = p)
    (some : d ≠ 0) : ModeChooses r neg x k
      (if roundsUp r neg (k % 2 == 1) (if d = 0 then 0 else if d < p then 1 else if d = p then 2 else 3) then k + 1 else k) := by
  simp only [ModeChooses, near, tie]
  rw [if_neg some]
  rcases lt_trichotomy d p with lt | eq | gt
  · cases r <;> cases neg <;> simp [roundsUp, lt, lt.ne]
  · rcases Nat.mod_two_eq_zero_or_one k with even | odd
    · cases r <;> cases neg <;> simp [roundsUp, eq, even]
    · have next : (k + 1) % 2 = 0 := by omega
      cases r <;> cases neg <;> simp [roundsUp, eq, odd, next]
  · cases r <;> cases neg <;> simp [roundsUp, gt.not_gt, gt.ne']

/-- The quotient and what is discarded of it choose the integer. -/
theorem shiftRound_chooses (r : Rnd) (neg : Bool) (m sh : Nat) : ChoosesInt r neg (m / 2 ^ sh) (shiftRound r neg m sh) := by
  have unit : (0 : ℚ) < 2 ^ sh := by positivity
  have whole : (m : ℚ) = 2 ^ sh * (m / 2 ^ sh : Nat) + (m % 2 ^ sh : Nat) := by exact_mod_cast (Nat.div_add_mod m (2 ^ sh)).symm
  have below : ((m % 2 ^ sh : Nat) : ℚ) < 2 ^ sh := by exact_mod_cast Nat.mod_lt m (by positivity)
  have parts : (m : ℚ) / 2 ^ sh = (m / 2 ^ sh : Nat) + (m % 2 ^ sh : Nat) / 2 ^ sh := by
    rw [eq_comm, eq_div_iff unit.ne', add_mul, div_mul_cancel₀ _ unit.ne', mul_comm]
    exact whole.symm
  unfold shiftRound
  dsimp only
  generalize m / 2 ^ sh = q at *
  generalize m % 2 ^ sh = d at *
  rcases Nat.eq_zero_or_pos d with rfl | pos
  · left
    rw [parts]
    cases r <;> simp [roundsUp]
  · right
    have pos' : (0 : ℚ) < d := by exact_mod_cast pos
    have some : (0 : ℚ) < d / 2 ^ sh := by positivity
    have less : (d : ℚ) / 2 ^ sh < 1 := by rwa [div_lt_one unit]
    refine ⟨q, by rw [parts]; linarith, by rw [parts]; linarith, (ite_eq_or_eq _ _ _).symm, modeChooses_roundsUp r neg ?_ ?_ (by omega)⟩
    · rw [parts, add_sub_cancel_left, div_lt_div_iff₀ unit two_pos, one_mul, mul_comm]
      exact_mod_cast Iff.rfl
    · rw [parts, add_sub_cancel_left, div_eq_div_iff unit.ne' two_ne_zero, one_mul, mul_comm]
      exact_mod_cast Iff.rfl

theorem lt_two_pow_bitLen (m : Nat) : m < 2 ^ bitLen m := by
  unfold bitLen
  split
  · omega
  · exact Nat.lt_log2_self

theorem two_pow_bitLen_le {m : Nat} (pos : m ≠ 0) : 2 ^ bitLen m ≤ 2 * m := by
  unfold bitLen
  rw [if_neg pos, pow_succ, mul_comm]
  exact Nat.mul_le_mul_left 2 (Nat.log2_self_le pos)

/-- Below one half but for zero, all magnitudes go to the same integer. -/
theorem choosesInt_small {r : Rnd} {neg : Bool} {x y : ℚ} {n : Nat} (hx : 0 < x ∧ x < 1 / 2) (hy : 0 < y ∧ y < 1 / 2)
    (h : ChoosesInt r neg x n) : ChoosesInt r neg y n := by
  rcases h with exact | ⟨k, below, above, ends, mode⟩
  · have one : (n : ℚ) < 1 := by linarith
    have zero : n = 0 := Nat.lt_one_iff.1 (by exact_mod_cast one)
    rw [zero] at exact
    exact absurd exact (by push_cast; linarith)
  · have one : (k : ℚ) < 1 := by linarith
    obtain rfl : k = 0 := Nat.lt_one_iff.1 (by exact_mod_cast one)
    refine .inr ⟨0, by push_cast; linarith, by push_cast; linarith, ends, ?_⟩
    simp only [ModeChooses, Nat.cast_zero, sub_zero, hx.2, hx.2.ne, hy.2, hy.2.ne, if_false] at mode ⊢
    exact mode

/-- `quantum` chooses the multiple of the unit, unless its shift up is cut. -/
theorem quantum_chooses (r : Rnd) (neg : Bool) (m : Nat) {e q : Int} (uncut : e - q ≤ 4096) :
    ChoosesInt r neg (m * 2 ^ (e - q)) (quantum r neg m e q) := by
  unfold quantum
  by_cases zero : m = 0
  · left
    simp [zero]
  rw [if_neg zero]
  by_cases up : q ≤ e
  · left
    have shift : ((e - q).toNat : Int) = e - q := Int.toNat_of_nonneg (by omega)
    rw [if_pos up, min_eq_left (by omega), ← shift, zpow_natCast, Int.toNat_natCast]
    push_cast
    rfl
  rw [if_neg up]
  have shift : ((q - e).toNat : Int) = q - e := Int.toNat_of_nonneg (by omega)
  have down : (m : ℚ) * 2 ^ (e - q) = m / 2 ^ (q - e).toNat := by
    rw [← neg_sub, zpow_neg, ← shift, zpow_natCast, Int.toNat_natCast, div_eq_mul_inv]
  rw [down]
  split
  · rename_i tiny
    have small (a b : Nat) (h : 2 * a < 2 ^ b) : (a : ℚ) / 2 ^ b < 1 / 2 := by
      rw [div_lt_div_iff₀ (by positivity) two_pos, one_mul, mul_comm]
      exact_mod_cast h
    have bound : 2 * m < 2 ^ (q - e).toNat :=
      calc 2 * m < 2 ^ (bitLen m + 1) := by have := lt_two_pow_bitLen m; omega
        _ ≤ 2 ^ (q - e).toNat := Nat.pow_le_pow_right two_pos (by omega)
    have pos : (0 : ℚ) < m := by exact_mod_cast Nat.pos_of_ne_zero zero
    have bare := shiftRound_chooses r neg 1 8
    exact choosesInt_small ⟨by positivity, small 1 8 (by decide)⟩ ⟨by positivity, small m _ bound⟩ bare
  · exact shiftRound_chooses r neg m _

/-! ### Rounded integers -/

theorem intRounded_int (r : Rnd) (z : Int) : intRounded r (z : ℚ) = z := by
  cases r with
  | rne => simp [intRounded]
  | rtz => simp [intRounded]
  | rup => exact Int.ceil_intCast z
  | rdn => exact Int.floor_intCast z
  | rna =>
    unfold intRounded
    dsimp only
    split
    · rw [Int.ceil_eq_iff]; constructor <;> linarith
    · rw [Int.floor_eq_iff]; constructor <;> linarith

section
variable {x : ℚ} {n k : Nat} (below : (k : ℚ) < x) (above : x < k + 1)
include below above

theorem floor_between : ⌊x⌋ = k ∧ ⌊-x⌋ = -(k + 1) :=
  ⟨Int.floor_eq_iff.2 ⟨by push_cast; linarith, by push_cast; linarith⟩,
    Int.floor_eq_iff.2 ⟨by push_cast; linarith, by push_cast; linarith⟩⟩

theorem ceil_between : ⌈x⌉ = k + 1 ∧ ⌈-x⌉ = -k :=
  ⟨Int.ceil_eq_iff.2 ⟨by push_cast; linarith, by push_cast; linarith⟩,
    Int.ceil_eq_iff.2 ⟨by push_cast; linarith, by push_cast; linarith⟩⟩

omit above in
theorem half_away_near (near : x - k < 1 / 2) : ⌊x + 1 / 2⌋ = k ∧ ⌈-x - 1 / 2⌉ = -k :=
  ⟨Int.floor_eq_iff.2 ⟨by push_cast; linarith, by push_cast; linarith⟩,
    Int.ceil_eq_iff.2 ⟨by push_cast; linarith, by push_cast; linarith⟩⟩

theorem half_away_far (far : ¬ x - k < 1 / 2) : ⌊x + 1 / 2⌋ = k + 1 ∧ ⌈-x - 1 / 2⌉ = -(k + 1) :=
  ⟨Int.floor_eq_iff.2 ⟨by push_cast; linarith, by push_cast; linarith⟩,
    Int.ceil_eq_iff.2 ⟨by push_cast; linarith, by push_cast; linarith⟩⟩

variable (ends : n = k ∨ n = k + 1)
include ends

omit below above in
/-- RNE takes the lower integer below the middle, and in the middle where that one is even. -/
theorem lower_of_rne {neg : Bool} (mode : ModeChooses .rne neg x k n) : n = k ↔ x - k < 1 / 2 ∨ (x - k = 1 / 2 ∧ k % 2 = 0) := by
  unfold ModeChooses at mode
  dsimp only at mode
  split_ifs at mode with tie
  · simp only [tie, lt_irrefl, false_or, true_and]
    omega
  · rw [or_iff_left (fun h => tie h.1)]
    exact mode

omit below above in
/-- Of a negative number RNE asks the same of the integer below, which is the upper one of the magnitude. -/
theorem upper_of_rne {neg : Bool} (mode : ModeChooses .rne neg x k n) :
    (-x - ((-(k + 1) : Int) : ℚ) < 1 / 2 ∨ (-x - ((-(k + 1) : Int) : ℚ) = 1 / 2 ∧ ¬ k % 2 = 0)) ↔ ¬ n = k := by
  rw [lower_of_rne ends mode]
  push_cast
  constructor
  · rintro (near | ⟨tie, odd⟩)
    · rintro (near' | ⟨tie', -⟩) <;> linarith
    · rintro (near' | ⟨-, even⟩)
      · linarith
      · exact odd even
  · intro h
    push Not at h
    obtain ⟨far, odd⟩ := h
    rcases far.lt_or_eq with lt | eq
    · exact .inl (by linarith)
    · exact .inr ⟨by linarith, odd eq.symm⟩

/-- A number between two integers is rounded to the one that the mode chooses for its magnitude. -/
theorem intRounded_between {r : Rnd} :
    (ModeChooses r false x k n → intRounded r x = n) ∧ (ModeChooses r true x k n → intRounded r (-x) = -n) := by
  have nonneg : (0 : ℚ) ≤ k := k.cast_nonneg
  obtain ⟨floor, floor'⟩ := floor_between below above
  obtain ⟨ceil, ceil'⟩ := ceil_between below above
  cases r with
  | rtz =>
    refine ⟨fun mode => ?_, fun mode => ?_⟩
    · rw [intRounded, if_neg (by linarith), floor, show n = k from mode]
    · rw [intRounded, if_pos (by linarith), ceil', show n = k from mode]
  | rup =>
    refine ⟨fun mode => ?_, fun mode => ?_⟩
    · have up : n = k + 1 := ends.resolve_left (by simpa [ModeChooses] using mode)
      exact ceil.trans (by rw [up]; push_cast; rfl)
    · have down : n = k := by simpa [ModeChooses] using mode
      exact ceil'.trans (by rw [down])
  | rdn =>
    refine ⟨fun mode => ?_, fun mode => ?_⟩
    · have down : n = k := by simpa [ModeChooses] using mode
      exact floor.trans (by rw [down])
    · have up : n = k + 1 := ends.resolve_left (by simpa [ModeChooses] using mode)
      exact floor'.trans (by rw [up]; push_cast; rfl)
  | rne =>
    have even : (k : Int) % 2 = 0 ↔ k % 2 = 0 := by omega
    have odd : -((k : Int) + 1) % 2 = 0 ↔ ¬ k % 2 = 0 := by omega
    refine ⟨fun mode => ?_, fun mode => ?_⟩
    · simp only [intRounded, floor, Int.cast_natCast, even, ← lower_of_rne ends mode]
      split
      · rename_i h; rw [h]
      · rename_i h; rw [ends.resolve_left h]; push_cast; rfl
    · simp only [intRounded, floor', odd, upper_of_rne ends mode]
      split
      · rename_i h; rw [ends.resolve_left h]; push_cast; rfl
      · rename_i h; rw [not_not.1 h]; ring
  | rna =>
    refine ⟨fun mode => ?_, fun mode => ?_⟩
    · rw [intRounded, if_neg (by linarith)]
      by_cases near : x - k < 1 / 2
      · rw [(half_away_near below near).1, mode.2 near]
      · rw [(half_away_far below above near).1, ends.resolve_left (fun e => near (mode.1 e))]; push_cast; rfl
    · rw [intRounded, if_pos (by linarith)]
      by_cases near : x - k < 1 / 2
      · rw [(half_away_near below near).2, mode.2 near]
      · rw [(half_away_far below above near).2, ends.resolve_left (fun e => near (mode.1 e))]; push_cast; rfl

end

/-- A signed number is rounded to the integer that the mode chooses for its magnitude, with the sign. -/
theorem intRounded_of_chooses {r : Rnd} {neg : Bool} {x : ℚ} {n : Nat} (h : ChoosesInt r neg x n) :
    intRounded r (if neg then -x else x) = if neg then -(n : Int) else n := by
  rcases h with exact | ⟨k, below, above, ends, mode⟩
  · rw [← exact]
    cases neg
    · exact intRounded_int r n
    · simpa using intRounded_int r (-n)
  · cases neg
    · exact (intRounded_between below above ends).1 mode
    · exact (intRounded_between below above ends).2 mode

/-! ### The steps of a format -/

/-- Within a binade, the steps of a format's set are the multiples of its unit. The top of a binade is the bottom of the next. -/
theorem stepOf_binade {f : Fmt} {b k : Nat} (upper : k ≤ 2 ^ (f.man + 1)) (lower : b = 0 ∨ 2 ^ f.man ≤ k) :
    stepOf f (b * 2 ^ f.man + k) = k * (2 : ℚ) ^ ((b : Int) + 1 - f.bias - f.man) := by
  have pos : 0 < 2 ^ f.man := by positivity
  rw [pow_succ] at upper
  unfold stepOf
  rcases lt_or_ge k (2 ^ f.man) with small | normal
  · obtain rfl : b = 0 := lower.resolve_right (by omega)
    rw [zero_mul, zero_add, if_pos small, Nat.cast_zero, zero_add]
  have above : ¬ b * 2 ^ f.man + k < 2 ^ f.man := by omega
  rw [if_neg above]
  rcases upper.lt_or_eq with inside | top
  · have index : b * 2 ^ f.man + k = (k - 2 ^ f.man) + 2 ^ f.man * (b + 1) := by
      rw [mul_add, mul_comm b]; omega
    rw [index, Nat.add_mul_mod_self_left, Nat.add_mul_div_left _ _ pos, Nat.mod_eq_of_lt (by omega), Nat.div_eq_of_lt (by omega),
      Nat.add_sub_cancel' normal, zero_add, Nat.cast_add, Nat.cast_one]
  · have index : b * 2 ^ f.man + k = 2 ^ f.man * (b + 2) := by
      rw [mul_add, mul_comm b]; omega
    rw [index, Nat.mul_mod_right, Nat.mul_div_cancel_left _ pos, add_zero, top]
    have next : ((b + 2 : Nat) : Int) - f.bias - f.man = ((b : Int) + 1 - f.bias - f.man) + 1 := by push_cast; ring
    rw [next, zpow_add_one₀ two_ne_zero]
    push_cast
    ring

/-- A signed number of magnitude `x` units goes to the step that the mode chooses for its magnitude, counted from an even step. -/
theorem chooses_of_chooses {f : Fmt} {r : Rnd} {neg : Bool} {x u : ℚ} {base n : Nat} (unit : 0 < u) (nonneg : 0 ≤ x)
    (even : base % 2 = 0) (at_n : stepOf f (base + n) = n * u)
    (at_k : ∀ k : Nat, (k : ℚ) < x → x < k + 1 → stepOf f (base + k) = k * u ∧ stepOf f (base + (k + 1)) = (k + 1 : Nat) * u)
    (h : ChoosesInt r neg x n) : Chooses f r (((if neg then -(x * u) else x * u : ℚ)) : ℝ) (base + n) := by
  have magnitude : |(((if neg then -(x * u) else x * u : ℚ)) : ℝ)| = ((x * u : ℚ) : ℝ) := by
    have : 0 ≤ x * u := mul_nonneg nonneg unit.le
    rw [← Rat.cast_abs]
    cases neg
    · simp only [Bool.false_eq_true, if_false, abs_of_nonneg this]
    · simp only [if_true, abs_neg, abs_of_nonneg this]
  unfold Chooses
  simp only [magnitude, ← Rat.cast_sub, Rat.cast_lt, Rat.cast_inj, Rat.cast_lt_zero, Rat.cast_pos]
  rcases h with exact | ⟨k, below, above, ends, mode⟩
  · left
    rw [at_n, exact]
  · right
    obtain ⟨low, high⟩ := at_k k below above
    have pos : 0 < x * u := mul_pos (lt_of_le_of_lt k.cast_nonneg below) unit
    have near : x * u - k * u < (k + 1 : Nat) * u - x * u ↔ x - k < 1 / 2 := by
      push_cast
      constructor <;> intro h <;> nlinarith
    have tie : x * u - k * u = (k + 1 : Nat) * u - x * u ↔ x - k = 1 / 2 := by
      push_cast
      constructor <;> intro h <;> nlinarith
    have parity : (base + n) % 2 = n % 2 := by omega
    have same : base + n = base + k ↔ n = k := by omega
    have negative : (if neg then -(x * u) else x * u) < 0 ↔ neg = true := by
      cases neg
      · simpa using pos.le
      · simpa using pos
    have positive : 0 < (if neg then -(x * u) else x * u) ↔ neg = false := by
      cases neg
      · simpa using pos
      · simpa using pos.le
    refine ⟨base + k, ?_, ?_, ?_, ?_⟩
    · rw [low]; exact mul_lt_mul_of_pos_right below unit
    · rw [add_assoc, high]; push_cast; exact mul_lt_mul_of_pos_right above unit
    · omega
    · rw [add_assoc, low, high]
      simp only [near, tie, parity, same, negative, positive]
      exact mode

/-! ### `roundFmt` (R92) -/

/-- The table of overflow (R92), for a format that has a NaN or is E2M1. -/
theorem overflow_eq {f : Fmt} (e2m1 : f.nan.isNone = true ↔ f = .e2m1) (neg : Bool) (r : Rnd) (sat : Bool) :
    f.overflow neg false r sat = overflowOf f sat [(.rtz, false), (.rtz, true), (.rup, true), (.rdn, false)] r neg := by
  unfold Fmt.overflow overflowOf
  simp only [← e2m1]
  cases r <;> cases neg <;> simp

theorem choosesInt_le {r : Rnd} {neg : Bool} {x : ℚ} {n u : Nat} (h : ChoosesInt r neg x n) (bound : x ≤ u) : n ≤ u := by
  rcases h with exact | ⟨k, below, -, ends, -⟩
  · rw [← exact] at bound
    exact_mod_cast bound
  · have : k < u := by exact_mod_cast below.trans_le bound
    omega

theorem le_choosesInt {r : Rnd} {neg : Bool} {x : ℚ} {n l : Nat} (h : ChoosesInt r neg x n) (bound : (l : ℚ) ≤ x) : l ≤ n := by
  rcases h with exact | ⟨k, -, above, ends, -⟩
  · rw [← exact] at bound
    exact_mod_cast bound
  · have : l < k + 1 := by exact_mod_cast bound.trans_lt above
    omega

theorem ratOf_fin (neg : Bool) (m : Nat) (e : Int) : ratOf (.fin neg m e) = if neg then -(m * (2 : ℚ) ^ e) else m * (2 : ℚ) ^ e := by
  cases neg <;> simp [ratOf]

/-- A magnitude in units of the last place of its binade: no more of them than a mantissa and its first bit hold. -/
theorem magnitude_lt (m : Nat) {e q : Int} {man : Nat} (unit : e + bitLen m - 1 - man ≤ q) :
    (m : ℚ) * 2 ^ (e - q) < (2 ^ (man + 1) : Nat) := by
  have top : (m : ℚ) < 2 ^ (bitLen m : Int) := by exact_mod_cast lt_two_pow_bitLen m
  calc (m : ℚ) * 2 ^ (e - q) < 2 ^ (bitLen m : Int) * 2 ^ (e - q) := mul_lt_mul_of_pos_right top (zpow_pos two_pos _)
    _ = 2 ^ ((bitLen m : Int) + (e - q)) := (zpow_add₀ two_ne_zero ..).symm
    _ ≤ 2 ^ ((man + 1 : Nat) : Int) := zpow_le_zpow_right₀ one_le_two (by push_cast; omega)
    _ = (2 ^ (man + 1) : Nat) := by rw [zpow_natCast]; push_cast; rfl

theorem le_magnitude {m : Nat} (pos : m ≠ 0) {e q : Int} {man : Nat} (unit : q = e + bitLen m - 1 - man) :
    ((2 ^ man : Nat) : ℚ) ≤ m * 2 ^ (e - q) := by
  have bottom : (2 : ℚ) ^ (bitLen m : Int) ≤ 2 * m := by exact_mod_cast two_pow_bitLen_le pos
  have scaled : (2 : ℚ) ^ (bitLen m : Int) * 2 ^ (e - q) ≤ 2 * m * 2 ^ (e - q) :=
    mul_le_mul_of_nonneg_right bottom (zpow_pos two_pos _).le
  have exponent : (bitLen m : Int) + (e - q) = (man : Int) + 1 := by omega
  rw [← zpow_add₀ two_ne_zero, exponent, zpow_add_one₀ two_ne_zero, zpow_natCast] at scaled
  push_cast
  linarith

/-- Binade `b`, of unit 2^q, has the step that the mode chooses for a magnitude. Its first step is 2^man units, but for the binade at 0. -/
theorem chooses_quantum {f : Fmt} (mantissa : 1 ≤ f.man) (small : f.man ≤ 4000) (r : Rnd) (neg : Bool) {m b : Nat} (pos : m ≠ 0)
    {e q : Int} (hq : q = max (e + bitLen m - 1 - f.man) (1 - (f.bias : Int) - f.man)) (hb : (b : Int) = q + f.man + f.bias - 1) :
    Chooses f r ((ratOf (.fin neg m e) : ℚ) : ℝ) (b * 2 ^ f.man + quantum r neg m e q) ∧
      (b = 0 ∨ 2 ^ f.man ≤ quantum r neg m e q) := by
  have unit : (b : Int) + 1 - f.bias - f.man = q := by omega
  have upper := magnitude_lt m (show e + bitLen m - 1 - f.man ≤ q by omega)
  have lower : b = 0 ∨ ((2 ^ f.man : Nat) : ℚ) ≤ m * 2 ^ (e - q) := by
    rcases Nat.eq_zero_or_pos b with none | some
    · exact .inl none
    · exact .inr (le_magnitude pos (by omega))
  have chosen := quantum_chooses r neg m (show e - q ≤ 4096 by omega)
  have n_lower := lower.imp id (le_choosesInt chosen)
  have even : b * 2 ^ f.man % 2 = 0 := Nat.mod_eq_zero_of_dvd (Dvd.dvd.mul_left (dvd_pow_self 2 (by omega)) b)
  have at_n : stepOf f (b * 2 ^ f.man + quantum r neg m e q) = quantum r neg m e q * (2 : ℚ) ^ q := by
    rw [stepOf_binade (choosesInt_le chosen upper.le) n_lower, unit]
  have at_k (k : Nat) (below : (k : ℚ) < m * 2 ^ (e - q)) (above : (m : ℚ) * 2 ^ (e - q) < k + 1) :
      stepOf f (b * 2 ^ f.man + k) = k * (2 : ℚ) ^ q ∧ stepOf f (b * 2 ^ f.man + (k + 1)) = (k + 1 : Nat) * (2 : ℚ) ^ q := by
    have k_upper : k < 2 ^ (f.man + 1) := by exact_mod_cast below.trans upper
    have k_lower : b = 0 ∨ 2 ^ f.man ≤ k := lower.imp id (fun h => Nat.lt_succ_iff.1 (by exact_mod_cast h.trans_lt above))
    rw [stepOf_binade k_upper.le k_lower, stepOf_binade k_upper (k_lower.imp id (by omega)), unit]
    exact ⟨rfl, rfl⟩
  have step := chooses_of_chooses (zpow_pos two_pos q) (mul_nonneg m.cast_nonneg (zpow_pos two_pos _).le) even at_n at_k chosen
  rw [mul_assoc, ← zpow_add₀ two_ne_zero, sub_add_cancel, ← ratOf_fin] at step
  exact ⟨step, n_lower⟩

/-- A finite value goes to the step that its mode chooses, or beyond the largest finite value by the table of overflow (R92). -/
theorem roundFmt_roundsTo {f : Fmt} (mantissa : 1 ≤ f.man) (small : f.man ≤ 4000) (e2m1 : f.nan.isNone = true ↔ f = .e2m1) (r : Rnd)
    (sat neg : Bool) (m : Nat) (e : Int) :
    RoundsTo f r sat neg ((ratOf (.fin neg m e) : ℚ) : ℝ) (roundFmt (.fin neg m e) f r sat) := by
  by_cases zero : m = 0
  · subst zero
    refine ⟨0, .inl ?_, ?_⟩
    · simp [stepOf, ratOf_fin]
    · simp [roundFmt, quantum, delivered]
  obtain ⟨q, hq⟩ : ∃ q, q = max (e + bitLen m - 1 - f.man) (1 - (f.bias : Int) - f.man) := ⟨_, rfl⟩
  obtain ⟨b, hb⟩ : ∃ b : Nat, (b : Int) = q + f.man + f.bias - 1 := ⟨(q + f.man + f.bias - 1).toNat, by omega⟩
  obtain ⟨step, lower⟩ := chooses_quantum mantissa small r neg zero hq hb
  refine ⟨_, step, ?_⟩
  unfold roundFmt delivered
  dsimp only
  rw [← hq, ← hb, Int.toNat_natCast, overflow_eq e2m1]
  generalize quantum r neg m e q = n at *
  by_cases none : n = 0
  · have pos : 0 < 2 ^ f.man := by positivity
    have base : b = 0 := lower.resolve_right (by omega)
    simp [none, base]
  · by_cases beyond : f.maxEnc < b * 2 ^ f.man + n
    · simp [none, beyond, beyond.not_ge]
    · simp [none, beyond, not_lt.1 beyond]

end Sys2Proof.Machine
end

section
/-! The obligation of CVT (R105, R106). -/

namespace Sys2Proof.Machine

open Sys2Proof

/-! ### Elements of a register -/

theorem packElems_lt (bits : Nat) (l : List Nat) : packElems bits l < 2 ^ (bits * l.length) := by
  induction l with
  | nil => simp [packElems]
  | cons x r ih =>
    have low : x % 2 ^ bits < 2 ^ bits := Nat.mod_lt _ (by positivity)
    rw [packElems, List.length_cons, Nat.mul_succ, pow_add, mul_comm (2 ^ (bits * r.length))]
    calc x % 2 ^ bits + 2 ^ bits * packElems bits r < 2 ^ bits * (packElems bits r + 1) := by rw [mul_add]; omega
      _ ≤ 2 ^ bits * 2 ^ (bits * r.length) := Nat.mul_le_mul_left _ ih

/-- Element `e` of a packed list is the list's, and zero beyond it. -/
theorem packElems_div (bits : Nat) (l : List Nat) (e : Nat) :
    packElems bits l / 2 ^ (bits * e) % 2 ^ bits = l.getD e 0 % 2 ^ bits := by
  induction l generalizing e with
  | nil => simp [packElems]
  | cons x r ih =>
    have pos : 0 < 2 ^ bits := by positivity
    cases e with
    | zero => simp [packElems]
    | succ e =>
      rw [Nat.mul_succ, Nat.add_comm, pow_add, ← Nat.div_div_eq_div_mul, packElems, Nat.add_mul_div_left _ _ pos,
        Nat.div_eq_of_lt (Nat.mod_lt _ pos), zero_add, ih, List.getD_cons_succ]

theorem elemNat_packElems {bits : Nat} {l : List Nat} (fits : bits * l.length ≤ 64) (e : Nat) :
    elemNat bits (BitVec.ofNat 64 (packElems bits l)) e = l.getD e 0 % 2 ^ bits := by
  unfold elemNat
  rw [BitVec.toNat_ofNat, Nat.mod_eq_of_lt ((packElems_lt bits l).trans_le (Nat.pow_le_pow_right two_pos fits)), packElems_div]

/-! ### Conversions (R106) -/

theorem clampInt_eq (bits : Nat) (sg : Bool) (v : Int) : clampInt bits sg v = wrapInt bits (heldTo bits sg v) := by
  unfold clampInt wrapInt heldTo
  cases sg <;> simp [min_comm]

/-- No exponent of the formats is so great that `quantum` cuts its shift up. -/
theorem value_exponent {f : Fmt} (hf : f ∈ .e2m1 :: elementFormats) {x m : Nat} {s : Bool} {e : Int}
    (h : f.value x = .fin s m e) : e ≤ 4096 := by
  have top : ∀ f ∈ Fmt.e2m1 :: elementFormats, f.maxEnc / 2 ^ f.man ≤ 4096 := by decide
  unfold Fmt.value at h
  dsimp only at h
  split at h
  · rename_i finite
    have bound := (Nat.div_le_div_right finite).trans (top f hf)
    split at h
    · cases h; omega
    · cases h; omega
  · split at h <;> cases h

/-- `Val.toInt` rounds the magnitude, and the sign goes with it (R92). -/
theorem intRounded_fin {r : Rnd} {s : Bool} {m : Nat} {e : Int} (uncut : e ≤ 4096) :
    intRounded r (ratOf (.fin s m e)) = if s then -(Val.toInt r s m e : Int) else Val.toInt r s m e := by
  have chosen := quantum_chooses r s m (show e - 0 ≤ 4096 by omega)
  rw [sub_zero] at chosen
  rw [ratOf_fin]
  exact intRounded_of_chooses chosen

section
variable {f : Fmt} {x : Nat} (bits : Nat) (sg : Bool) (r : Rnd) (sat : Bool)

theorem convert_nan_int (nan : f.value x = .nan) : convert (.flt f) (.int bits sg) r sat x = 0 := by
  simp only [convert, NumType.value, nan]

theorem convert_inf_int {s : Bool} (inf : f.value x = .inf s) :
    convert (.flt f) (.int bits sg) r sat x = wrapInt bits (heldTo bits sg (if s then -2 ^ 40 else 2 ^ 40)) := by
  simp only [convert, NumType.value, inf, clampInt_eq]
  rfl

theorem convert_fin_int (hf : f ∈ .e2m1 :: elementFormats) {s : Bool} {m : Nat} {e : Int} (fin : f.value x = .fin s m e) :
    convert (.flt f) (.int bits sg) r sat x = wrapInt bits (heldTo bits sg (intRounded r (ratOf (f.value x)))) := by
  simp only [convert, NumType.value, fin, clampInt_eq, intRounded_fin (value_exponent hf fin)]

end

/-- To a float of another type goes the value, rounded once, and in E2M1 held to the largest one. -/
theorem convert_to_flt {t : NumType} {g : Fmt} (other : t ≠ .flt g) (r : Rnd) (sat : Bool) (x : Nat) :
    convert t (.flt g) r sat x = roundFmt (t.value x) g r (sat || g == .e2m1) := by
  unfold convert
  dsimp only
  rw [if_neg other]
  by_cases h : g = .e2m1
  · rw [if_pos h, h]; simp
  · rw [if_neg h, beq_false_of_ne h, Bool.or_false]

/-- The value of an integer (R90), with its sign apart. -/
theorem value_int {bits : Nat} {x : Nat} (bound : x < 2 ^ bits) (sg : Bool) :
    ∃ s m, (NumType.int bits sg).value x = .fin s m 0 ∧ (if s then -(m : Int) else m) = intOf bits sg x ∧
      s = decide (intOf bits sg x < 0) := by
  unfold NumType.value intOf
  dsimp only
  rw [Nat.mod_eq_of_lt bound]
  have bound' : (x : Int) < 2 ^ bits := by exact_mod_cast bound
  by_cases high : sg = true ∧ 2 ^ (bits - 1) ≤ x
  · refine ⟨true, 2 ^ bits - x, ?_, ?_, ?_⟩
    · rw [if_pos (by simpa using high)]
    · rw [if_pos rfl, if_pos high]; push_cast [bound.le]; ring
    · rw [if_pos high, eq_comm, decide_eq_true_iff]; omega
  · refine ⟨false, x, ?_, ?_, ?_⟩
    · rw [if_neg (by simpa using high)]
    · rw [if_neg high]; rfl
    · rw [if_neg high, eq_comm, decide_eq_false_iff_not]; omega

theorem toInt_whole (r : Rnd) (s : Bool) (m : Nat) : Val.toInt r s m 0 = m := by
  unfold Val.toInt quantum
  by_cases zero : m = 0 <;> simp [zero]

theorem formats_round : ∀ f ∈ Fmt.e2m1 :: elementFormats, 1 ≤ f.man ∧ f.man ≤ 4000 ∧ (f.nan.isNone = true ↔ f = .e2m1) := by
  decide

/-- An integer goes to a float as its value, rounded once. -/
theorem convert_int_flt {bits : Nat} {x : Nat} (bound : x < 2 ^ bits) (sg : Bool) (r : Rnd) (sat : Bool) {g : Fmt}
    (hg : g ∈ .e2m1 :: elementFormats) :
    RoundsTo g r (sat || g == .e2m1) (decide (intOf bits sg x < 0)) (intOf bits sg x : ℝ) (convert (.int bits sg) (.flt g) r sat x) := by
  obtain ⟨s, m, value, int, sign⟩ := value_int bound sg
  obtain ⟨mantissa, small, e2m1⟩ := formats_round g hg
  rw [convert_to_flt (by simp), value, ← sign, ← int]
  have rounds := roundFmt_roundsTo mantissa small e2m1 r (sat || g == .e2m1) s m 0
  rw [ratOf_fin, zpow_zero, mul_one] at rounds
  cases s <;> simpa using rounds

theorem convert_int_int {bits : Nat} {x : Nat} (bound : x < 2 ^ bits) (sg sh : Bool) (r : Rnd) (sat : Bool) :
    convert (.int bits sg) (.int bits sh) r sat x = wrapInt bits (heldTo bits sh (intOf bits sg x)) := by
  obtain ⟨s, m, value, int, -⟩ := value_int bound sg
  simp only [convert, value, clampInt_eq, toInt_whole, int]

/-! ### The shapes of CVT (R105) -/

theorem ofCode_bits (n : Nat) : (NumType.ofCode n).bits ∈ [32, 16, 8, 4] := by
  unfold NumType.ofCode
  split <;> decide

/-- The shapes that R60 admits: the same width, half of it, and twice it with a half of A named in B. -/
theorem badCvt_none {m : Word} {d : Operand} {w : Bool} {b : BitVec 8} (h : badCvt m d w b = none) :
    let t := (NumType.ofCode (modeCfrom m)).bits
    let u := (NumType.ofCode (modeCto m)).bits
    u = t ∨ 2 * u = t ∨ (2 * t = u ∧ b.toNat ≤ 1) := by
  have ht := ofCode_bits (modeCfrom m)
  have hu := ofCode_bits (modeCto m)
  unfold badCvt at h
  dsimp only at h ⊢
  generalize (NumType.ofCode (modeCfrom m)).bits = t at *
  generalize (NumType.ofCode (modeCto m)).bits = u at *
  simp only [List.mem_cons, List.not_mem_nil, or_false, Bool.or_eq_true, decide_eq_true_eq] at ht hu h
  split_ifs at h <;> omega

/-- The first `n` elements of a width in a number. -/
def unpack (bits n x : Nat) : List Nat := (List.range n).map (fun e => x / 2 ^ (bits * e) % 2 ^ bits)

theorem length_unpack (bits n x : Nat) : (unpack bits n x).length = n := by
  rw [unpack, List.length_map, List.length_range]

theorem getD_map_unpack (g : Nat → Nat) {bits n x e : Nat} (h : e < n) :
    ((unpack bits n x).map g).getD e 0 = g (x / 2 ^ (bits * e) % 2 ^ bits) := by
  rw [unpack, List.map_map, List.getD_eq_getElem _ _ (by simpa using h), List.getElem_map, List.getElem_range]
  rfl

section
variable {s : State} {t u : NumType} (source : NumType.ofCode (modeCfrom s.g.mode) = t) (target : NumType.ofCode (modeCto s.g.mode) = u)
  (a : Operand) (b : BitVec 8) (l : Nat)
include source target

theorem cvtSources_same (same : u.bits = t.bits) : cvtSources s a b l = unpack t.bits (32 / t.bits) (s.rd a l).toNat := by
  unfold cvtSources
  dsimp only
  rw [source, target, if_neg same.not_lt, if_neg same.not_gt]
  rfl

theorem cvtSources_narrow (narrow : u.bits < t.bits) :
    cvtSources s a b l =
      unpack t.bits (32 / t.bits) (s.rd a l).toNat ++ unpack t.bits (32 / t.bits) (s.rd (Operand.ofCode b) l).toNat := by
  unfold cvtSources
  dsimp only
  rw [source, target, if_pos narrow]
  rfl

/-- The source of a widening is the half of A that B names. -/
theorem cvtSources_wide (wide : t.bits < u.bits) (half : b.toNat ≤ 1) :
    cvtSources s a b l = unpack t.bits (16 / t.bits) (((s.rd a l).extractLsb' (16 * b.toNat) 16).setWidth 32).toNat := by
  have low : (((s.rd a l).extractLsb' (16 * b.toNat) 16).setWidth 32).toNat =
      if b = 0 then (s.rd a l).toNat % 2 ^ 16 else (s.rd a l).toNat / 2 ^ 16 := by
    have lt := (s.rd a l).isLt
    rw [BitVec.toNat_setWidth, BitVec.extractLsb'_toNat, Nat.shiftRight_eq_div_pow]
    by_cases zero : b = 0
    · subst zero
      simp only [if_true, BitVec.ofNat_eq_ofNat, BitVec.toNat_ofNat, Nat.zero_mod, Nat.mul_zero, pow_zero]
      omega
    · have one : b.toNat = 1 := by
        have : b.toNat ≠ 0 := fun h => zero (BitVec.eq_of_toNat_eq h)
        omega
      rw [if_neg zero, one]
      omega
  unfold cvtSources
  dsimp only
  rw [source, target, if_neg wide.not_gt, if_pos wide, low]
  rfl

end

/-- The result of CVT in a lane: `exec` of a CVT writes it by class. -/
def cvtResult (s : State) (a : Operand) (b : BitVec 8) (l : Nat) : DWord :=
  BitVec.ofNat 64 (packElems (NumType.ofCode (modeCto s.g.mode)).bits ((cvtSources s a b l).map
    (convert (NumType.ofCode (modeCfrom s.g.mode)) (NumType.ofCode (modeCto s.g.mode)) s.rnd s.sat)))

/-- The places of R105: element by element at the same width, A and then B in a narrowing, the half of A that B names in a widening. -/
theorem cvtResult_elem (s : State) (a : Operand) {b : BitVec 8} {d : Operand} {w : Bool} (shape : badCvt s.g.mode d w b = none) (l : Nat) :
    let T := NumType.ofCode (modeCfrom s.g.mode)
    let U := NumType.ofCode (modeCto s.g.mode)
    let one (x : Word) (e : Nat) : Nat := convert T U s.rnd s.sat (x.toNat / 2 ^ (T.bits * e) % 2 ^ T.bits) % 2 ^ U.bits
    (U.bits = T.bits → ∀ e, e < 32 / U.bits → elemNat U.bits (cvtResult s a b l) e = one (s.rd a l) e) ∧
    (U.bits < T.bits → ∀ e, e < 16 / U.bits → elemNat U.bits (cvtResult s a b l) e = one (s.rd a l) e ∧
      elemNat U.bits (cvtResult s a b l) (16 / U.bits + e) = one (s.rd (Operand.ofCode b) l) e) ∧
    (T.bits < U.bits → ∀ e, e < 32 / U.bits →
      elemNat U.bits (cvtResult s a b l) e = one ((s.rd a l).extractLsb' (16 * b.toNat) 16 |>.setWidth 32) e) := by
  have widths := badCvt_none shape
  have ht := ofCode_bits (modeCfrom s.g.mode)
  have hu := ofCode_bits (modeCto s.g.mode)
  unfold cvtResult
  generalize source : NumType.ofCode (modeCfrom s.g.mode) = t at *
  generalize target : NumType.ofCode (modeCto s.g.mode) = u at *
  simp only [List.mem_cons, List.not_mem_nil, or_false] at ht hu
  dsimp only at widths ⊢
  refine ⟨fun same e he => ?_, fun narrow e he => ?_, fun wide e he => ?_⟩
  · rw [cvtSources_same source target a b l same]
    have fits : u.bits * (32 / t.bits) ≤ 64 := by rw [same]; exact (Nat.mul_div_le 32 _).trans (by omega)
    rw [elemNat_packElems (by simpa [length_unpack] using fits), getD_map_unpack _ (same ▸ he)]
  · have twice : 2 * u.bits = t.bits := by omega
    have count : 32 / t.bits = 16 / u.bits := by rw [← twice, ← Nat.div_div_eq_div_mul]
    rw [cvtSources_narrow source target a b l narrow, List.map_append, count]
    have fits : u.bits * (16 / u.bits + 16 / u.bits) ≤ 64 := by
      have := Nat.mul_div_le 16 u.bits
      rw [mul_add]; omega
    rw [elemNat_packElems (by simpa [length_unpack] using fits), elemNat_packElems (by simpa [length_unpack] using fits),
      List.getD_append _ _ _ _ (by simpa [length_unpack] using he), List.getD_append_right _ _ _ _ (by simp [length_unpack]),
      List.length_map, length_unpack, Nat.add_sub_cancel_left, getD_map_unpack _ he, getD_map_unpack _ he]
    exact ⟨rfl, rfl⟩
  · have twice : 2 * t.bits = u.bits := by omega
    have half : b.toNat ≤ 1 := by omega
    have count : 32 / u.bits = 16 / t.bits := by rw [← twice, ← Nat.div_div_eq_div_mul]
    rw [cvtSources_wide source target a b l wide half]
    have fits : u.bits * (16 / t.bits) ≤ 64 := by rw [← count]; exact (Nat.mul_div_le 32 _).trans (by omega)
    rw [elemNat_packElems (by simpa [length_unpack] using fits), getD_map_unpack _ (count ▸ he)]

/-- Settles O30: the places of CVT, then the conversions by the types that they go between. -/
theorem convertResults : Obligations.ConvertResults := by
  refine ⟨fun w d a b s => ?_, fun f bits sg r sat x hf _ => ?_, fun f r sat x _ => if_pos rfl,
    fun f g r sat x other => convert_to_flt (by simpa using other) r sat x,
    fun bits sg r sat x _ bound => ⟨fun g hg => convert_int_flt bound sg r sat hg, fun sh => convert_int_int bound sg sh r sat⟩⟩
  · intro T U one wf shape
    exact ⟨_, cvtResult s a b, rfl, result_written s w d false _ (wf_dst _ wf d rfl), fun l => cvtResult_elem s a shape l⟩
  · exact ⟨fun nan => convert_nan_int bits sg r sat nan, fun s inf => convert_inf_int bits sg r sat inf,
      fun ⟨s, m, e, fin⟩ => convert_fin_int bits sg r sat hf fin⟩

end Sys2Proof.Machine
end

section
/-! SUPPORT. Sums, products and comparisons of exact values as rationals (R79, R92, R94), and the obligation of exact arithmetic. -/

namespace Sys2Proof.Machine

open Sys2Proof

/-! ### Finite values in a common unit -/

/-- The signed magnitude of ± m × 2^e in units of 2^b, as `Val.add` and `Val.lt` take it; exact where b ≤ e (`aligned_ratOf`). -/
def aligned (s : Bool) (m : Nat) (e b : Int) : Int := (if s then -1 else 1) * ((m * 2 ^ (e - b).toNat : Nat) : Int)

theorem aligned_ratOf (s : Bool) (m : Nat) {e b : Int} (h : b ≤ e) : (aligned s m e b : ℚ) * 2 ^ b = ratOf (.fin s m e) := by
  have unit : (2 : ℚ) ^ (e - b).toNat * 2 ^ b = 2 ^ e := by
    rw [← zpow_natCast, Int.toNat_of_nonneg (by omega), ← zpow_add₀ two_ne_zero, sub_add_cancel]
  unfold aligned ratOf
  push_cast
  rw [← unit]
  ring

/-- An integer number of units, with its sign apart. -/
theorem ratOf_units (k b : Int) : ratOf (.fin (decide (k < 0)) k.natAbs b) = k * (2 : ℚ) ^ b := by
  rw [ratOf_fin]
  by_cases neg : k < 0
  · have magnitude : (k.natAbs : ℚ) = -k := by rw [Nat.cast_natAbs, abs_of_neg neg, Int.cast_neg]
    rw [decide_eq_true neg, if_pos rfl, magnitude, neg_mul, neg_neg]
  · have magnitude : (k.natAbs : ℚ) = k := by rw [Nat.cast_natAbs, abs_of_nonneg (not_lt.1 neg)]
    rw [decide_eq_false neg, magnitude]
    rfl

theorem ratOf_zero (s : Bool) (b : Int) : ratOf (.fin s 0 b) = 0 := by simp [ratOf]

/-! ### Operations on finite values (R94) -/

section
variable (r : Rnd) (s t : Bool) (m n : Nat) (e f : Int)

/-- The sum in the lesser of the two units. -/
theorem add_fin :
    Val.add r (.fin s m e) (.fin t n f) =
      let b := min e f
      let k := aligned s m e b + aligned t n f b
      if k = 0 then (if m = 0 && n = 0 && s == t then .fin s 0 b else .fin (r == .rdn) 0 b)
      else .fin (decide (k < 0)) k.natAbs b := rfl

theorem aligned_add_ratOf :
    ((aligned s m e (min e f) + aligned t n f (min e f) : Int) : ℚ) * 2 ^ min e f = ratOf (.fin s m e) + ratOf (.fin t n f) := by
  rw [Int.cast_add, add_mul, aligned_ratOf s m (min_le_left e f), aligned_ratOf t n (min_le_right e f)]

theorem ratOf_add : ratOf (Val.add r (.fin s m e) (.fin t n f)) = ratOf (.fin s m e) + ratOf (.fin t n f) := by
  rw [← aligned_add_ratOf, add_fin]
  dsimp only
  generalize aligned s m e (min e f) + aligned t n f (min e f) = k
  split
  · rename_i zero
    rw [zero, Int.cast_zero, zero_mul]
    split <;> exact ratOf_zero ..
  · exact ratOf_units k _

theorem add_fin_isNan : (Val.add r (.fin s m e) (.fin t n f)).isNan = false := by
  rw [add_fin]
  dsimp only
  split
  · split <;> rfl
  · rfl

/-- The sign of an exact zero sum (R94). -/
theorem add_fin_sign_of_zero (zero : ratOf (.fin s m e) + ratOf (.fin t n f) = 0) :
    (Val.add r (.fin s m e) (.fin t n f)).sign = if m = 0 ∧ n = 0 ∧ s = t then s else decide (r = .rdn) := by
  have units : aligned s m e (min e f) + aligned t n f (min e f) = 0 := by
    rw [← aligned_add_ratOf] at zero
    exact_mod_cast (mul_eq_zero.1 zero).resolve_right (zpow_ne_zero _ two_ne_zero)
  rw [add_fin]
  dsimp only
  rw [if_pos units]
  by_cases zeros : m = 0 ∧ n = 0 ∧ s = t
  · rw [if_pos zeros, if_pos (by simpa [and_assoc] using zeros)]
    rfl
  · rw [if_neg zeros, if_neg (by simpa [and_assoc] using zeros)]
    rfl

theorem ratOf_mul : ratOf (Val.mul (.fin s m e) (.fin t n f)) = ratOf (.fin s m e) * ratOf (.fin t n f) := by
  have product : (m : ℚ) * 2 ^ e * (n * 2 ^ f) = (m * n : Nat) * 2 ^ (e + f) := by
    rw [zpow_add₀ two_ne_zero, Nat.cast_mul]
    ring
  change ratOf (.fin (s != t) (m * n) (e + f)) = _
  simp only [ratOf_fin, ← product]
  cases s <;> cases t <;> simp

theorem ratOf_scale : ratOf (Val.scale (.fin s m e) f) = ratOf (.fin s m e) * (2 : ℚ) ^ f := by
  change ratOf (.fin s m (e + f)) = _
  rw [ratOf_fin, ratOf_fin, zpow_add₀ two_ne_zero, ← mul_assoc]
  split
  · rw [neg_mul]
  · rfl

end

/-! ### The order of values (R79) -/

theorem lt_fin (s t : Bool) (m n : Nat) (e f : Int) :
    Val.lt (.fin s m e) (.fin t n f) = decide (aligned s m e (min e f) < aligned t n f (min e f)) := rfl

theorem lt_iff_less (x y : Val) : x.lt y = true ↔ Less x y := by
  cases x with
  | nan => cases y <;> exact iff_of_false Bool.false_ne_true id
  | inf s => cases y with
    | nan => exact iff_of_false Bool.false_ne_true id
    | inf t => cases s <;> cases t <;> simp [Val.lt, Less]
    | fin => exact Iff.rfl
  | fin s m e => cases y with
    | nan => exact iff_of_false Bool.false_ne_true id
    | inf t => cases t <;> simp [Val.lt, Less]
    | fin t n f =>
      have unit : (0 : ℚ) < 2 ^ min e f := zpow_pos two_pos _
      change _ ↔ ratOf (.fin s m e) < ratOf (.fin t n f)
      rw [lt_fin, decide_eq_true_iff, ← aligned_ratOf s m (min_le_left e f), ← aligned_ratOf t n (min_le_right e f),
        mul_lt_mul_iff_left₀ unit, Int.cast_lt]

theorem isNan_iff (x : Val) : x.isNan = true ↔ x = .nan := by
  cases x <;> simp [Val.isNan]

theorem eqv_iff_same (x y : Val) : x.eqv y = true ↔ Same x y := by
  simp only [Val.eqv, Same, Bool.and_eq_true, Bool.not_eq_true', Bool.eq_false_iff, ne_eq, isNan_iff, lt_iff_less, and_assoc]

/-! ### Infinities and NaN -/

theorem add_nan_right (r : Rnd) (x : Val) : Val.add r x .nan = .nan := by cases x <;> rfl

theorem mul_nan_right (x : Val) : Val.mul x .nan = .nan := by cases x <;> rfl

/-- Settles O27: finite values in a common unit, the order by cases of the operands, then the rules of infinities and NaN. -/
theorem exactFloatArithmetic : Obligations.ExactFloatArithmetic := by
  refine ⟨fun r a b m n e f k => ?_, fun x y => ⟨lt_iff_less x y, eqv_iff_same x y⟩, fun r a b m e => ?_, fun r x k => ?_⟩
  · exact ⟨ratOf_add r a b m n e f, ratOf_mul a b m n e f, ratOf_scale a m e k, add_fin_isNan r a b m n e f, rfl, rfl,
      add_fin_sign_of_zero r a b m n e f⟩
  · refine ⟨rfl, rfl, rfl, rfl, ?_, rfl⟩
    rw [Bool.xor_comm]
    rfl
  · exact ⟨rfl, add_nan_right r x, rfl, mul_nan_right x, rfl, fun _ => rfl⟩

end Sys2Proof.Machine
end

section
/-! The obligations: the compares, the predicate operations, the moves of an immediate, and MODER. -/

namespace Sys2Proof.Machine

open Sys2Proof

/-! ### Integer compares (R79) -/

/-- A relation of elements is the table's relation of their numbers, at every width. -/
def Relates (g : IntRel) (r : Nat → Nat → Nat → Prop) : Prop :=
  ∀ (n : Nat) (x y : BitVec n), g n x y = true ↔ r n x.toNat y.toNat

theorem slt_iff_toSigned {n : Nat} (x y : BitVec n) : x.slt y = true ↔ toSigned n x.toNat < toSigned n y.toNat := by
  rw [BitVec.slt_iff_toInt_lt, toSigned_toNat, toSigned_toNat]

theorem relEq_relates : Relates relEq (fun _ x y => x = y) := fun _ _ _ => beq_iff_eq.trans BitVec.toNat_inj.symm
theorem relNe_relates : Relates relNe (fun _ x y => x ≠ y) := fun _ _ _ => bne_iff_ne.trans (not_congr BitVec.toNat_inj.symm)
theorem relLt_relates : Relates relLt (fun n x y => toSigned n x < toSigned n y) := fun _ x y => slt_iff_toSigned x y
theorem relLe_relates : Relates relLe (fun n x y => toSigned n x ≤ toSigned n y) := fun _ x y => sle_iff_toSigned x y
theorem relLtn_relates : Relates relLtn (fun _ x y => x < y) := fun _ _ _ => BitVec.ult_iff_lt
theorem relLen_relates : Relates relLen (fun _ x y => x ≤ y) := fun _ _ _ => BitVec.ule_iff_le

/-- A compare of R79's table: its word, and its relation of elements. -/
theorem intCompare_form {i : Instr} {op : BitVec 7} {d a b : Operand} {r : Nat → Nat → Nat → Prop} (h : intCompare i = some (op, d, a, b, r)) :
    encodeCore i = some (formA op false d.code a.code b.code) ∧ ∃ g, Relates g r ∧ ∀ s, exec i s = .next (s.icmp d a b g) := by
  cases i <;> cases h
  case icmpeq => exact ⟨rfl, _, relEq_relates, fun _ => rfl⟩
  case icmpne => exact ⟨rfl, _, relNe_relates, fun _ => rfl⟩
  case icmplt => exact ⟨rfl, _, relLt_relates, fun _ => rfl⟩
  case icmple => exact ⟨rfl, _, relLe_relates, fun _ => rfl⟩
  case icmpltn => exact ⟨rfl, _, relLtn_relates, fun _ => rfl⟩
  case icmplen => exact ⟨rfl, _, relLen_relates, fun _ => rfl⟩

/-- Settles O5, by R79's table. -/
theorem integerCompareResults : Obligations.IntegerCompareResults := by
  intro i op d a b r s shape _
  obtain ⟨word, g, num, ran⟩ := intCompare_form shape
  refine ⟨word, _, _, ran s, predResult_written s d _, fun l => ?_⟩
  simp only [allElems_iff, num _ _ _, toNat_elem]

/-! ### Floating compares (R79) -/

/-- A floating compare of R79's table: its word, and its relation of values. -/
theorem fltCompare_form {i : Instr} {op : BitVec 7} {d a b : Operand} {r : Val → Val → Prop} (h : fltCompare i = some (op, d, a, b, r)) :
    encodeCore i = some (formA op false d.code a.code b.code) ∧
      ∃ g : FltRel, (∀ x y, g x y = true ↔ r x y) ∧ ∀ s, exec i s = .next (s.fcmp d a b g) := by
  cases i <;> cases h
  case fcmpeq => exact ⟨rfl, _, eqv_iff_same, fun _ => rfl⟩
  case fcmpne => exact ⟨rfl, frelNe, fun x y => by rw [frelNe, Bool.not_eq_true', Bool.eq_false_iff, ne_eq, eqv_iff_same], fun _ => rfl⟩
  case fcmplt => exact ⟨rfl, _, lt_iff_less, fun _ => rfl⟩
  case fcmple => exact ⟨rfl, frelLe, fun x y => by rw [frelLe, Bool.or_eq_true, lt_iff_less, eqv_iff_same], fun _ => rfl⟩
  case fcmpun => exact ⟨rfl, frelUn, fun x y => by rw [frelUn, Bool.or_eq_true, isNan_iff, isNan_iff], fun _ => rfl⟩

theorem allFElems_iff (f : Fmt) (r : FltRel) (a b : Word) :
    allFElems f r a b = true ↔ ∀ e, e < fCount f → r (f.value (fElem f a e)) (f.value (fElem f b e)) = true := by
  simp only [allFElems, List.all_eq_true, List.mem_range]

/-- Settles O23, by R79's table. -/
theorem floatCompareResults : Obligations.FloatCompareResults := by
  intro i op d a b r s shape _
  obtain ⟨word, g, num, ran⟩ := fltCompare_form shape
  refine ⟨word, _, _, ran s, predResult_written s d _, fun l => ?_⟩
  exact (allFElems_iff s.fmt g (s.rd a l) (s.rd b l)).trans (forall₂_congr fun e _ => num _ _)

/-! ### Predicate operations (R80) -/

theorem exists_of_isP {o : Operand} (h : o.isP = true) : ∃ p, o = .p p := by
  cases o <;> cases h
  exact ⟨_, rfl⟩

section
variable {i : Instr} {op : BitVec 7} {d a b : Operand} {f : Bool → Bool → Bool}

/-- An operation of R80's table: its word, its operand fields and its effect. -/
theorem predicateOp_form (h : predicateOp i = some (op, d, a, b, f)) :
    encodeCore i = some (formA op false d.code a.code b.code) ∧
      i.view = { d := some (.pred, d), a := some (.pred, a), b := some (.pred, b) } ∧ ∀ s, exec i s = .next (s.predOp d a b f) := by
  cases i <;> cases h
  case pand | por | pxor | pandn => exact ⟨rfl, rfl, fun _ => rfl⟩

/-- A well-formed operation of R80's table has predicate codes in D, A and B (R50). -/
theorem predicateOp_operands (h : predicateOp i = some (op, d, a, b, f)) (wf : i.wf = true) :
    ∃ d' a' b', d = .p d' ∧ a = .p a' ∧ b = .p b' := by
  obtain ⟨-, view, -⟩ := predicateOp_form h
  obtain ⟨aClass, bClass⟩ := wf_srcs i wf
  have dClass := wf_d i wf .pred d (by rw [view])
  simp only [view, View.srcClass, Bool.and_true, Bool.false_eq_true, false_and, or_false, OpClass.accepts] at aClass bClass dClass
  obtain ⟨d', rfl⟩ := exists_of_isP dClass
  obtain ⟨a', rfl⟩ := exists_of_isP aClass
  obtain ⟨b', rfl⟩ := exists_of_isP bClass
  exact ⟨d', a', b', rfl, rfl, rfl⟩

/-- The opcodes of R80's table have no W bit, and parse to operations of the table. -/
theorem predicateOp_parse (h : predicateOp i = some (op, d, a, b, f)) :
    (shapeOf op).wOk = false ∧ ∀ w x y z j, parse (formA op w x y z) = .ok j → ∃ d' a' b' f', predicateOp j = some (op, d', a', b', f') := by
  cases i <;> cases h
  case pand | por | pxor | pandn =>
    refine ⟨rfl, fun w x y z j parsed => ?_⟩
    rw [parse, opcodeOf_formA] at parsed
    cases parsed
    exact ⟨_, _, _, _, rfl⟩

end

/-- Settles O6: the word and the effect by R80's table, and the operands that a word of one of its opcodes decodes to. -/
theorem predicateOperationResults : Obligations.PredicateOperationResults := by
  intro i op d a b f s shape
  obtain ⟨word, -, ran⟩ := predicateOp_form shape
  refine ⟨word, fun w x y z j decoded => ?_, _, ran s, ?_⟩
  · obtain ⟨parsed, wf, zeros, noW⟩ := decodeCore_eq_ok.1 decoded
    obtain ⟨noBit, rows⟩ := predicateOp_parse shape
    have wBit := (checks_formA.1 ⟨zeros, noW⟩).wBit
    rw [noBit, Bool.false_and] at wBit
    obtain ⟨d', a', b', f', row⟩ := rows w x y z j parsed
    obtain ⟨d', a', b', rfl, rfl, rfl⟩ := predicateOp_operands row wf
    exact ⟨wBit, d', a', b', f', row⟩
  · have written : PredWritten s (s.predOp (.p d) (.p a) (.p b) f) (.p d) (fun l => f (s.rd (.p a) l != 0) (s.rd (.p b) l != 0)) :=
      predResult_written s (.p d) _
    simpa only [rd_pred_ne_zero] using written

/-! ### MOVI, MOVHI and MOVSI (R78) -/

/-- An instruction whose only operand is D is well formed where D's field is (R50, R54). -/
theorem wf_of_only_d {i : Instr} (counter : i.badCounter = false) (range : i.badRange = none) (a : i.view.a = none) (b : i.view.b = none) :
    i.wf = (i.view.dZero && i.view.dClass) := by
  unfold Instr.wf Instr.illegal View.badClass
  rw [counter, range, a, b]
  cases i.view.dZero <;> cases i.view.dClass <;> rfl

/-- The D field of an instruction that does not read it: zero with W = 1, else of its class (R54). -/
theorem dField_written (w : Bool) (c : OpClass) (d : Operand) :
    (View.dZero { w, d := some (c, d) } && View.dClass { w, d := some (c, d) }) = if w then decide (d = .v 0) else c.accepts d := by
  cases w
  · exact Bool.true_and _
  · simp [View.dZero, View.dClass, beq_eq_decide]

theorem movi_value (k : BitVec 16) : (k.setWidth 64).toNat % 2 ^ 32 = k.toNat := by
  have := k.isLt
  rw [BitVec.toNat_setWidth]
  omega

theorem movsi_value (k : BitVec 16) : ((k.signExtend 32).setWidth 64).toNat % 2 ^ 32 = wrapInt 32 k.toInt := by
  have bound := (k.signExtend 32).isLt
  rw [BitVec.toNat_setWidth, Nat.mod_eq_of_lt (a := (k.signExtend 32).toNat) (b := 2 ^ 64) (by omega), Nat.mod_eq_of_lt bound,
    signExtend_ofInt k (by decide), ofInt_toNat]

theorem movhi_value (k : BitVec 16) (x : Word) :
    ((k ++ x.setWidth 16).setWidth 64 : DWord).toNat % 2 ^ 32 = k.toNat * 2 ^ 16 + x.toNat % 2 ^ 16 := by
  have low := (x.setWidth 16).isLt
  have high := k.isLt
  rw [toNat_two, BitVec.toNat_setWidth] at *
  omega

/-- Settles O4: the words, the D fields, and the results by class with their values. -/
theorem moveImmediateResults : Obligations.MoveImmediateResults := by
  intro w d k s
  refine ⟨rfl, rfl, rfl, ?_, ?_, ?_, fun wf => ?_, fun wf => ?_, fun wf => ?_⟩
  · exact (wf_of_only_d rfl rfl rfl rfl).trans (dField_written w .dst d)
  · refine (wf_of_only_d rfl rfl rfl rfl).trans ?_
    simp [Instr.view, View.dZero, View.dClass, OpClass.accepts]
  · exact (wf_of_only_d rfl rfl rfl rfl).trans (dField_written w .dst d)
  · exact ⟨_, _, rfl, result_written s w d false _ (wf_dst _ wf d rfl), fun _ => movi_value k⟩
  · exact ⟨_, _, rfl, result_written s w d false _ (wf_dst _ wf d rfl), fun _ => movsi_value k⟩
  · exact ⟨_, _, rfl, result_written s w d false _ (wf_dst _ wf d rfl), fun l => movhi_value k (s.rd d l)⟩

/-! ### MODER (R72) -/

/-- The codes of the S registers (R49). -/
theorem ofCode_isS (c : BitVec 8) : (Operand.ofCode c).isS = true ↔ 0xC0 ≤ c.toNat ∧ c.toNat < 0xE0 := by
  unfold Operand.ofCode
  split_ifs <;> simp only [Operand.isS, Bool.false_eq_true, false_iff, true_iff] <;> omega

/-- A word of opcode 0x03 that decodes has zero fields A and B, and an S code in D. -/
theorem moder_fields {w : Bool} {d a b : BitVec 8} (h : decodeCore (formA 0x03 w d a b) = .ok (.moder (Operand.ofCode d))) :
    a = 0 ∧ b = 0 ∧ (Operand.ofCode d).isS = true := by
  obtain ⟨-, wf, zeros, noW⟩ := decodeCore_eq_ok.1 h
  have fixed := checks_formA.1 ⟨zeros, noW⟩
  refine ⟨fixed.aField, fixed.bField, ?_⟩
  exact (wf_d _ wf .sdst _ rfl).resolve_right (fun c => Bool.false_ne_true c.1)

/-- Settles O10: the word both ways, and the scalar-class result. -/
theorem moderCopiesMode : Obligations.ModerCopiesMode := by
  intro s n
  refine ⟨coreWordsRoundTrip _ _ rfl rfl, fun d a b => ?_, rfl, _, rfl, scalarResult_written s n false _⟩
  rw [or_iff_not_imp_left, not_not]
  intro decoded
  obtain ⟨zeroA, zeroB, sCode⟩ := moder_fields decoded
  exact ⟨zeroA, zeroB, (ofCode_isS d).1 sCode⟩

end Sys2Proof.Machine
end

section
/-! The obligation of GROW and SHRINK (R84 to R87). -/

namespace Sys2Proof.Machine

open Sys2Proof

/-! ### GROW (R84, R86, R87) -/

/-- A core's record and the acting group's changed, and the offset set. -/
theorem modCore_setG_jump (s : State) (ck : Nat) (f : Core → Core) (g : Group) (o : Off) :
    let t := ((s.modCore ck f).setG g).jump o
    t.g = { g with offset := o } ∧ t = { s with groups := t.groups, cores := t.cores, iss := { s.iss with moved := true } } ∧
      (∀ k, k ≠ s.cur → t.group k = s.group k) ∧ (∀ k, k ≠ ck → t.coreOf k = s.coreOf k) ∧ t.coreOf ck = f (s.coreOf ck) := by
  obtain ⟨⟨-, others, -⟩, -, mine⟩ := setG_jump (s.modCore ck f) g o
  exact ⟨mine, rfl, others, fun k hk => s.coreOf_modCore_ne ck k f hk, s.coreOf_modCore ck f⟩

/-- A GROW granted at once adds zeroed registers, and drops the latches (R84). -/
theorem doGrow_cur (s : State) (n : Nat) :
    GroupOnly s (s.doGrow s.cur n) ∧ (s.doGrow s.cur n).iss = s.iss ∧
      (s.doGrow s.cur n).g = { State.zeroRegs s.g s.g.allot n with allot := s.g.allot + n, latValid := 0, wait := .ready } :=
  ⟨groupOnly_setG s _ s.iss, rfl, g_setG' s _ s.iss⟩

section
variable {s : State} {i : BitVec 8}

theorem exec_grow_beyond (beyond : 192 < s.g.allot + 16 * i.toNat) : exec (.grow i) s = .next (s.trapAt 0x16 0 s.iss.mask 0) :=
  if_pos beyond

theorem exec_grow_granted (within : s.g.allot + 16 * i.toNat ≤ 192) (room : s.lanesFree s.g (16 * i.toNat) = true)
    (first : s.growBehind s.g (s.coreOf s.g.ckey).growQ = false) : exec (.grow i) s = .next (s.doGrow s.cur (16 * i.toNat)) :=
  (if_neg (not_lt.2 within)).trans (if_pos (by rw [room, first]; rfl))

theorem exec_grow_waits (within : s.g.allot + 16 * i.toNat ≤ 192)
    (full : ¬ (s.lanesFree s.g (16 * i.toNat) = true ∧ s.growBehind s.g (s.coreOf s.g.ckey).growQ = false)) :
    exec (.grow i) s = .next (((s.modCore s.g.ckey (fun c => { c with growQ := c.growQ ++ [s.cur] })).setG
      { s.g with wait := .grow (16 * i.toNat) }).jump s.g.offset) :=
  (if_neg (not_lt.2 within)).trans (if_neg (by simpa using full))

end

/-! ### SHRINK (R85, R86) -/

theorem checkGrow_agenda (s : State) (ck : Nat) : s.checkGrow ck = { s with agenda := (s.checkGrow ck).agenda } := by
  unfold State.checkGrow
  split <;> rfl

theorem kickPlace_agenda (s : State) (fkey : Nat) : s.kickPlace fkey = { s with agenda := (s.kickPlace fkey).agenda } := by
  unfold State.kickPlace
  dsimp only
  split <;> split <;> rfl

/-- Registers given back are offered to waiting GROWs and to teams to be placed, by activities posted (R85, R87). -/
theorem shrinkReleases_frame (s : State) (g : Group) :
    let t := ((s.setG g).checkGrow s.g.ckey).kickPlace s.g.fkey
    t = { s with groups := t.groups, agenda := t.agenda } ∧ (∀ k, k ≠ s.cur → t.group k = s.group k) ∧ t.g = g := by
  intro t
  have posted : t = { s.setG g with agenda := t.agenda } :=
    (kickPlace_agenda _ _).trans (congrArg (fun u : State => { u with agenda := t.agenda }) (checkGrow_agenda ..))
  obtain ⟨-, others, -⟩ := groupOnly_setG s g s.iss
  rw [posted]
  exact ⟨rfl, others, g_setG' s g s.iss⟩

section
variable {s : State} {i : BitVec 8}

theorem exec_shrink_below (below : s.g.allot < 16 + 16 * i.toNat) : exec (.shrink i) s = .next (s.trapAt 0x16 0 s.iss.mask 0) :=
  if_pos below

theorem exec_shrink_releases (above : 16 + 16 * i.toNat ≤ s.g.allot) (idle : s.loadInto s.cur (s.g.allot - 16 * i.toNat) s.g.allot = false) :
    exec (.shrink i) s =
      .next (((s.setG { s.g with allot := s.g.allot - 16 * i.toNat }).checkGrow s.g.ckey).kickPlace s.g.fkey) :=
  (if_neg (not_lt.2 above)).trans (if_neg (Bool.eq_false_iff.1 idle))

theorem exec_shrink_waits (above : 16 + 16 * i.toNat ≤ s.g.allot) (busy : s.loadInto s.cur (s.g.allot - 16 * i.toNat) s.g.allot = true) :
    exec (.shrink i) s = .next ((s.setG { s.g with wait := .shrink (16 * i.toNat) }).jump s.g.offset) :=
  (if_neg (not_lt.2 above)).trans (if_pos busy)

end

/-- Settles O21: GROW and SHRINK by the cases of their executors. -/
theorem allotmentResults : Obligations.AllotmentResults := by
  intro s i h n room
  refine ⟨fun beyond can => ?_, fun within ⟨free, first⟩ => ?_, fun within full => ?_, fun below can => ?_, fun above idle => ?_,
    fun above busy => ?_⟩
  · exact ⟨_, exec_grow_beyond beyond, trapAt_taken s h 0x16 0 0 s.iss.mask can⟩
  · obtain ⟨only, issue, mine⟩ := doGrow_cur s n
    refine ⟨_, exec_grow_granted within free first, only, issue, ?_, fun r l hl => ?_⟩
    · rw [mine]
      rfl
    · rw [mine]
      exact s.g.vr_zeroRegs s.g.allot n r hl
  · exact ⟨_, exec_grow_waits within full, modCore_setG_jump s s.g.ckey _ { s.g with wait := .grow n } s.g.offset⟩
  · exact ⟨_, exec_shrink_below below, trapAt_taken s h 0x16 0 0 s.iss.mask can⟩
  · exact ⟨_, exec_shrink_releases above idle, shrinkReleases_frame s _⟩
  · exact ⟨_, exec_shrink_waits above busy, setG_jump s { s.g with wait := .shrink n } s.g.offset⟩

end Sys2Proof.Machine
end

section
/-! SUPPORT. Encodings (R88): sign and magnitude, the value of each, and the steps of a format's set in their order. -/

namespace Sys2Proof.Machine

open Sys2Proof

/-! ### Sign and magnitude -/

theorem formats_signed : ∀ f ∈ Fmt.e2m1 :: elementFormats, f.signed = true := by decide

/-- A sign bit, where there is one, and magnitudes up to the largest finite one fill an encoding. -/
theorem formats_widths : ∀ f ∈ Fmt.e2m1 :: .e3m5 :: elementFormats,
    1 ≤ f.bits ∧ (f.signed = true → f.maxEnc < f.signW) ∧ (f.signed = false → f.maxEnc < 2 ^ f.bits) := by decide

section
variable {f : Fmt} {x : Nat}

theorem two_pow_bits (bits : 1 ≤ f.bits) : 2 ^ f.bits = 2 * f.signW := by
  rw [Fmt.signW, ← pow_succ', Nat.sub_add_cancel bits]

theorem neg_signed (signed : f.signed = true) (bound : x < 2 ^ f.bits) : f.neg x = decide (f.signW ≤ x) := by
  rw [Fmt.neg, signed, Bool.true_and, Nat.mod_eq_of_lt bound]

theorem mag_signed (signed : f.signed = true) : f.mag x = x % f.signW := by rw [Fmt.mag, if_pos signed]

/-- An encoding is its magnitude with its sign. -/
theorem withSign_neg_mag (bits : 1 ≤ f.bits) (bound : x < 2 ^ f.bits) : f.withSign (f.neg x) (f.mag x) = x := by
  unfold Fmt.withSign
  cases signed : f.signed
  · simp [Fmt.mag, signed]
  · rw [mag_signed signed, neg_signed signed bound, Bool.true_and]
    rw [two_pow_bits bits] at bound
    by_cases high : f.signW ≤ x
    · rw [if_pos (by simpa using high), Nat.mod_eq_sub_mod high, Nat.mod_eq_of_lt (by omega)]; omega
    · rw [if_neg (by simpa using high), Nat.mod_eq_of_lt (by omega)]

/-- Sign and magnitude of an encoding put together. -/
theorem neg_withSign (bits : 1 ≤ f.bits) (signed : f.signed = true) (s : Bool) {g : Nat} (bound : g < f.signW) :
    f.neg (f.withSign s g) = s ∧ f.mag (f.withSign s g) = g := by
  have wide := two_pow_bits bits
  rw [mag_signed signed]
  cases s
  · have : f.withSign false g = g := by simp [Fmt.withSign]
    rw [this, neg_signed signed (by omega), decide_eq_false (by omega), Nat.mod_eq_of_lt bound]
    exact ⟨rfl, rfl⟩
  · have : f.withSign true g = g + f.signW := by simp [Fmt.withSign, signed]
    rw [this, neg_signed signed (by omega), decide_eq_true (by omega), Nat.add_mod_right, Nat.mod_eq_of_lt bound]
    exact ⟨rfl, rfl⟩

end

/-! ### Binades and steps -/

/-- The binade that a magnitude stands in, 0 for the one below the least normal number too. -/
def Fmt.binade (f : Fmt) (g : Nat) : Nat := g / 2 ^ f.man - 1

/-- A magnitude in units of its binade's last place. -/
def Fmt.units (f : Fmt) (g : Nat) : Nat := g - f.binade g * 2 ^ f.man

section
variable (f : Fmt) (g : Nat)

theorem binade_add_units : f.binade g * 2 ^ f.man + f.units g = g := by
  have : f.binade g * 2 ^ f.man ≤ g := (Nat.mul_le_mul_right _ (Nat.sub_le ..)).trans (Nat.div_mul_le_self ..)
  unfold Fmt.units
  omega

theorem units_bounds : f.units g < 2 ^ (f.man + 1) ∧ (f.binade g = 0 ∨ 2 ^ f.man ≤ f.units g) := by
  have pos : 0 < 2 ^ f.man := by positivity
  have parts := Nat.div_add_mod g (2 ^ f.man)
  have low := Nat.mod_lt g pos
  unfold Fmt.units Fmt.binade
  rw [pow_succ]
  rcases Nat.eq_zero_or_pos (g / 2 ^ f.man) with zero | some
  · simp only [zero, zero_tsub, zero_mul, true_or, and_true]
    rw [zero] at parts
    omega
  · have : (g / 2 ^ f.man - 1) * 2 ^ f.man + 2 ^ f.man = 2 ^ f.man * (g / 2 ^ f.man) := by
      rw [← Nat.succ_mul, Nat.succ_eq_add_one, Nat.sub_add_cancel some, mul_comm]
    omega

/-- A step and the next one lie a unit of their binade apart. -/
theorem stepOf_units : stepOf f g = f.units g * (2 : ℚ) ^ ((f.binade g : Int) + 1 - f.bias - f.man) ∧
    stepOf f (g + 1) = (f.units g + 1 : Nat) * (2 : ℚ) ^ ((f.binade g : Int) + 1 - f.bias - f.man) := by
  obtain ⟨upper, lower⟩ := units_bounds f g
  have here := stepOf_binade upper.le lower
  have next := stepOf_binade (k := f.units g + 1) upper (lower.imp id (by omega))
  rw [← add_assoc] at next
  rw [binade_add_units] at here next
  exact ⟨here, next⟩

theorem stepOf_strictMono : StrictMono (stepOf f) := by
  refine strictMono_nat_of_lt_succ fun g => ?_
  obtain ⟨here, next⟩ := stepOf_units f g
  rw [here, next]
  exact mul_lt_mul_of_pos_right (by exact_mod_cast Nat.lt_succ_self _) (zpow_pos two_pos _)

theorem stepOf_zero : stepOf f 0 = 0 := by simp [stepOf]

/-- A finite encoding is its units with its binade's exponent. -/
theorem value_of_finite {f : Fmt} {x : Nat} (finite : f.mag x ≤ f.maxEnc) :
    f.value x = .fin (f.neg x) (f.units (f.mag x)) ((f.binade (f.mag x) : Int) + 1 - f.bias - f.man) := by
  have pos : 0 < 2 ^ f.man := by positivity
  unfold Fmt.value
  dsimp only
  rw [if_pos finite]
  generalize f.mag x = g
  have parts := Nat.div_add_mod g (2 ^ f.man)
  split
  · rename_i small
    rw [Fmt.units, Fmt.binade, Nat.div_eq_of_lt small]
    simp
  · rename_i normal
    have some : 0 < g / 2 ^ f.man := Nat.div_pos (by omega) pos
    have binade : f.binade g + 1 = g / 2 ^ f.man := Nat.sub_add_cancel some
    have := binade_add_units f g
    congr 1
    · rw [← binade, mul_add, mul_one, mul_comm] at parts
      omega
    · rw [← binade]; push_cast; ring

end

section
variable {f : Fmt} {x : Nat}

/-- An encoding of a finite number has a magnitude up to the largest finite one. -/
theorem finite_of_fin {s : Bool} {m : Nat} {e : Int} (fin : f.value x = .fin s m e) : f.mag x ≤ f.maxEnc := by
  by_contra beyond
  unfold Fmt.value at fin
  dsimp only at fin
  rw [if_neg beyond] at fin
  split at fin <;> cases fin

theorem value_fin_eq {s : Bool} {m : Nat} {e : Int} (fin : f.value x = .fin s m e) :
    s = f.neg x ∧ m = f.units (f.mag x) ∧ e = (f.binade (f.mag x) : Int) + 1 - f.bias - f.man := by
  rw [value_of_finite (finite_of_fin fin)] at fin
  cases fin
  exact ⟨rfl, rfl, rfl⟩

/-- A finite encoding stands for its step with its sign. -/
theorem ratOf_value (finite : f.mag x ≤ f.maxEnc) : ratOf (f.value x) = if f.neg x then -stepOf f (f.mag x) else stepOf f (f.mag x) := by
  rw [value_of_finite finite, ratOf_fin, (stepOf_units f (f.mag x)).1]

/-- An encoding of an infinity has the magnitude above the largest finite one. -/
theorem mag_of_inf {s : Bool} (inf : f.value x = .inf s) : s = f.neg x ∧ f.mag x = f.maxEnc + 1 ∧ f.hasInf = true := by
  unfold Fmt.value at inf
  dsimp only at inf
  split at inf
  · split at inf <;> cases inf
  · split at inf
    · rename_i top
      rw [Bool.and_eq_true, beq_iff_eq] at top
      cases inf
      exact ⟨rfl, top.2, top.1⟩
    · cases inf

theorem mag_lt (signed : f.signed = true) : f.mag x < f.signW := by
  rw [mag_signed signed]
  exact Nat.mod_lt _ (Nat.two_pow_pos _)

end

theorem units_eq_zero_iff (f : Fmt) (g : Nat) : f.units g = 0 ↔ g = 0 := by
  obtain ⟨-, lower⟩ := units_bounds f g
  have parts := binade_add_units f g
  have pos : 0 < 2 ^ f.man := by positivity
  constructor
  · intro zero
    have base : f.binade g = 0 := lower.resolve_right (by omega)
    rw [base] at parts
    omega
  · rintro rfl
    simp [Fmt.units]

/-! ### The length of a magnitude -/

theorem bitLen_le {m n : Nat} (h : m < 2 ^ n) : bitLen m ≤ n := by
  rcases Nat.eq_zero_or_pos m with rfl | pos
  · simp [bitLen]
  · have := (two_pow_bitLen_le pos.ne').trans_lt (show 2 * m < 2 ^ (n + 1) by rw [pow_succ]; omega)
    have := (Nat.pow_lt_pow_iff_right (a := 2) (by norm_num)).1 this
    omega

theorem lt_bitLen {m n : Nat} (h : 2 ^ n ≤ m) : n < bitLen m :=
  (Nat.pow_lt_pow_iff_right (a := 2) (by norm_num)).1 (h.trans_lt (lt_two_pow_bitLen m))

/-- What a binade holds goes to itself (R92). -/
theorem roundFmt_held {f : Fmt} {b k : Nat} (upper : k < 2 ^ (f.man + 1)) (lower : b = 0 ∨ 2 ^ f.man ≤ k)
    (finite : b * 2 ^ f.man + k ≤ f.maxEnc) (s : Bool) (r : Rnd) (sat : Bool) :
    roundFmt (.fin s k ((b : Int) + 1 - f.bias - f.man)) f r sat = f.withSign s (b * 2 ^ f.man + k) := by
  have unit : max ((b : Int) + 1 - f.bias - f.man + bitLen k - 1 - f.man) (1 - (f.bias : Int) - f.man) = (b : Int) + 1 - f.bias - f.man := by
    have long := bitLen_le upper
    rcases lower with base | normal
    · omega
    · have := lt_bitLen normal
      omega
  have whole : quantum r s k ((b : Int) + 1 - f.bias - f.man) ((b : Int) + 1 - f.bias - f.man) = k := by
    unfold quantum
    split
    · omega
    · simp
  have enc : ((b : Int) + 1 - f.bias - f.man + f.man + f.bias - 1).toNat * 2 ^ f.man = b * 2 ^ f.man := by
    congr 1; omega
  unfold roundFmt
  dsimp only
  rw [unit, whole, enc]
  have pos : 0 < 2 ^ f.man := by positivity
  by_cases zero : k = 0
  · have base : b = 0 := lower.resolve_right (by omega)
    simp [zero, base]
  · simp [zero, finite]

/-- A finite encoding rounds to itself. -/
theorem roundFmt_value {f : Fmt} {x : Nat} (bits : 1 ≤ f.bits) (bound : x < 2 ^ f.bits) (finite : f.mag x ≤ f.maxEnc) (r : Rnd) (sat : Bool) :
    roundFmt (f.value x) f r sat = x := by
  obtain ⟨upper, lower⟩ := units_bounds f (f.mag x)
  rw [value_of_finite finite, roundFmt_held upper lower (by rwa [binade_add_units]), binade_add_units, withSign_neg_mag bits bound]

theorem overflow_exact {f : Fmt} (e2m1 : f.nan.isNone = true ↔ f = .e2m1) (s : Bool) (r : Rnd) (sat : Bool) :
    f.overflow s true r sat = overflowOf f sat [] r s := by
  unfold Fmt.overflow overflowOf
  simp [← e2m1]

/-- Settles O28: an encoding holds its value in its binade; of other values `roundFmt_roundsTo` speaks. -/
theorem roundingKeepsRepresentable : Obligations.RoundingKeepsRepresentable := by
  refine ⟨fun f r sat x hf bound ⟨s, m, e, fin⟩ => ?_, fun f r sat s m e hf => ?_⟩
  · exact roundFmt_value (formats_widths f hf).1 bound (finite_of_fin fin) r sat
  · obtain ⟨mantissa, small, e2m1⟩ := formats_round f hf
    exact ⟨roundFmt_roundsTo mantissa small e2m1 r sat s m e, overflow_exact e2m1 s r sat, rfl⟩

end Sys2Proof.Machine
end

section
/-! The obligations: the floating instructions FADD to FSCALE, the functions of FUN, and FCLASS. -/

namespace Sys2Proof.Machine

open Sys2Proof

/-! ### Results by element (R100, R102) -/

theorem fmt_mem (s : State) : s.fmt ∈ elementFormats := by
  unfold State.fmt ftypeFmt
  split <;> decide

theorem mem_formats {f : Fmt} (h : f ∈ elementFormats) : f ∈ .e2m1 :: elementFormats := List.mem_cons_of_mem _ h

theorem format_widths {f : Fmt} (hf : f ∈ elementFormats) : 1 ≤ f.bits ∧ f.signed = true ∧ f.maxEnc < f.signW := by
  have signed := formats_signed f (mem_formats hf)
  obtain ⟨bits, top, -⟩ := formats_widths f (List.mem_cons_of_mem _ (List.mem_cons_of_mem _ hf))
  exact ⟨bits, signed, top signed⟩

theorem fElem_lt (f : Fmt) (x : Word) (e : Nat) : fElem f x e < 2 ^ f.bits := Nat.mod_lt _ (Nat.two_pow_pos _)

/-- A function of the elements of A, B and D: its result by class, and every element of it. -/
theorem fltOp_results {i : Instr} {s : State} {w : Bool} {d a b : Operand} {g : Nat → Nat → Nat → Nat}
    (ran : exec i s = .next (s.fltOp w d a b g)) (hd : d.isV = true ∨ d.isS = true) :
    ∃ t x, exec i s = .next t ∧ Written s t w d false x ∧
      ∀ l e, e < fCount s.fmt → elemNat s.fmt.bits (x l) e =
        g (fElem s.fmt (s.rd a l) e) (fElem s.fmt (s.rd b l) e) (fElem s.fmt (s.rd d l) e) % 2 ^ s.fmt.bits := by
  refine ⟨_, _, ran, result_written s w d _ _ hd, fun l e he => ?_⟩
  have fits : s.fmt.bits * fCount s.fmt ≤ 64 := (Nat.mul_div_le 32 _).trans (by norm_num)
  rw [elemNat_packElems (by simpa using fits), List.getD_eq_getElem _ _ (by simpa using he), List.getElem_map, List.getElem_range]

/-- A model's function of encodings is a table's function of them, in every format, mode and SAT. -/
def FltComputes (g F : Fmt → Rnd → Bool → Nat → Nat → Nat → Nat) : Prop :=
  ∀ (f : Fmt) (r : Rnd) (sat : Bool) (x y c : Nat), f ∈ elementFormats → x < 2 ^ f.bits → y < 2 ^ f.bits →
    g f r sat x y c = F f r sat x y c

/-! ### FMIN and FMAX (R101) -/

section
variable {f : Fmt} {x y : Nat}

theorem value_of_beyond (beyond : ¬ f.mag x ≤ f.maxEnc) : f.value x = .nan ∨ ∃ s, f.value x = .inf s := by
  unfold Fmt.value
  dsimp only
  rw [if_neg beyond]
  split
  · exact .inr ⟨_, rfl⟩
  · exact .inl rfl

theorem value_isZero_iff : (f.value x).isZero = true ↔ f.mag x = 0 := by
  by_cases finite : f.mag x ≤ f.maxEnc
  · rw [value_of_finite finite, ← units_eq_zero_iff f]
    cases f.units (f.mag x) <;> simp [Val.isZero]
  · have : f.mag x ≠ 0 := by omega
    rcases value_of_beyond finite with nan | ⟨s, inf⟩
    · simp [nan, Val.isZero, this]
    · simp [inf, Val.isZero, this]

/-- Signed steps are equal where the steps are, and the signs but at 0. -/
theorem signed_step_inj {s t : Bool} {g h : Nat}
    (eq : (if s then -stepOf f g else stepOf f g) = if t then -stepOf f h else stepOf f h) : g = h ∧ (s = t ∨ g = 0) := by
  have nonneg (k : Nat) : 0 ≤ stepOf f k := stepOf_zero f ▸ (stepOf_strictMono f).monotone k.zero_le
  have size : stepOf f g = stepOf f h := by
    have := congrArg abs eq
    simpa [apply_ite abs, abs_of_nonneg (nonneg _)] using this
  obtain rfl := (stepOf_strictMono f).injective size
  refine ⟨rfl, ?_⟩
  by_contra differ
  push Not at differ
  have pos : stepOf f 0 < stepOf f g := stepOf_strictMono f (Nat.pos_of_ne_zero differ.2)
  rw [stepOf_zero] at pos
  cases s <;> cases t <;> simp at eq differ <;> linarith

/-- Encodings of equal values have one magnitude, and one sign but at zero (R88). -/
theorem mag_neg_of_same (same : Same (f.value x) (f.value y)) :
    f.mag x = f.mag y ∧ (f.neg x = f.neg y ∨ f.mag x = 0) := by
  obtain ⟨notNan, notNan', notLess, notLess'⟩ := same
  by_cases finite : f.mag x ≤ f.maxEnc
  · by_cases finite' : f.mag y ≤ f.maxEnc
    · have eq : ratOf (f.value x) = ratOf (f.value y) := by
        rw [value_of_finite finite, value_of_finite finite'] at notLess notLess' ⊢
        exact le_antisymm (not_lt.1 notLess') (not_lt.1 notLess)
      rw [ratOf_value finite, ratOf_value finite'] at eq
      exact signed_step_inj eq
    · obtain ⟨s, inf⟩ := (value_of_beyond finite').resolve_left notNan'
      rw [value_of_finite finite, inf] at notLess notLess'
      cases s <;> simp [Less] at notLess notLess'
  · obtain ⟨s, inf⟩ := (value_of_beyond finite).resolve_left notNan
    obtain ⟨sign, top, -⟩ := mag_of_inf inf
    by_cases finite' : f.mag y ≤ f.maxEnc
    · rw [value_of_finite finite', inf] at notLess notLess'
      cases s <;> simp [Less] at notLess notLess'
    · obtain ⟨t, inf'⟩ := (value_of_beyond finite').resolve_left notNan'
      obtain ⟨sign', top', -⟩ := mag_of_inf inf'
      rw [inf, inf'] at notLess notLess'
      rw [← sign, ← sign']
      refine ⟨top.trans top'.symm, .inl ?_⟩
      cases s <;> cases t <;> simp [Less] at notLess notLess' ⊢

end

section
variable {f : Fmt} {x y : Nat}

theorem less_asymm {v w : Val} (h : Less v w) : ¬ Less w v := by
  cases v with
  | nan => cases h
  | inf s => cases w with
    | nan => cases h
    | inf t => cases s <;> cases t <;> simp [Less] at h ⊢
    | fin => cases s <;> simp [Less] at h ⊢
  | fin s m e => cases w with
    | nan => cases h
    | inf t => cases t <;> simp [Less] at h ⊢
    | fin => exact not_lt.2 (le_of_lt h)

/-- Two zeros stand in no order but that of their signs. -/
theorem not_less_of_zeros (hx : (f.value x).isZero = true) (hy : (f.value y).isZero = true) : (f.value x).lt (f.value y) = false := by
  rw [value_isZero_iff] at hx hy
  rw [Bool.eq_false_iff, ne_eq, lt_iff_less, value_of_finite (by omega), value_of_finite (by omega), hx, hy]
  simp [Less, ratOf_fin, Fmt.units]

/-- Of two encodings that are not NaN and not the same, one is the first, −0 before +0 (R101); the model asks for it in other words. -/
theorem firstLess_total (bits : 1 ≤ f.bits) (hx : x < 2 ^ f.bits) (hy : y < 2 ^ f.bits)
    (notNan : (f.value x).isNan = false) (notNan' : (f.value y).isNan = false) :
    x = y ∨ firstLess f y x = (!firstLess f x y) ∧
      ((f.value x).lt (f.value y) || ((f.value x).eqv (f.value y) && f.neg x && !f.neg y)) = firstLess f x y := by
  unfold firstLess
  by_cases less : (f.value x).lt (f.value y) = true
  · have back : (f.value y).lt (f.value x) = false := by
      rw [Bool.eq_false_iff, ne_eq, lt_iff_less]
      exact less_asymm ((lt_iff_less ..).1 less)
    have zeros : ((f.value y).isZero && (f.value x).isZero) = false := by
      rw [Bool.eq_false_iff, ne_eq, Bool.and_eq_true]
      exact fun h => Bool.false_ne_true ((not_less_of_zeros h.2 h.1).symm.trans less)
    simp [less, back, zeros]
  · by_cases more : (f.value y).lt (f.value x) = true
    · have zeros : ((f.value x).isZero && (f.value y).isZero) = false := by
        rw [Bool.eq_false_iff, ne_eq, Bool.and_eq_true]
        exact fun h => Bool.false_ne_true ((not_less_of_zeros h.2 h.1).symm.trans more)
      simp [less, more, zeros, Val.eqv]
    · have eqv : (f.value x).eqv (f.value y) = true := by simp [Val.eqv, less, more, notNan, notNan']
      obtain ⟨mag, signs | zero⟩ := mag_neg_of_same ((eqv_iff_same ..).1 eqv)
      · left
        rw [← withSign_neg_mag bits hx, ← withSign_neg_mag bits hy, mag, signs]
      · have zeros : (f.value x).isZero = true ∧ (f.value y).isZero = true := ⟨value_isZero_iff.2 zero, value_isZero_iff.2 (mag ▸ zero)⟩
        by_cases signs : f.neg x = f.neg y
        · left
          rw [← withSign_neg_mag bits hx, ← withSign_neg_mag bits hy, mag, signs]
        · right
          simp only [Bool.not_eq_true] at less more
          rw [less, more, eqv, zeros.1, zeros.2]
          generalize f.neg x = a at *
          generalize f.neg y = b at *
          cases a <;> cases b <;> simp at signs ⊢

end

theorem fminmax_computes (greater : Bool) : FltComputes (fun f _ _ x y _ => fminmax greater f x y) (fun f _ _ x y _ =>
    if (f.value x).isNan || (f.value y).isNan then f.nan.getD 0
    else if (if greater then firstLess f y x else firstLess f x y) then x else y) := by
  intro f r sat x y c hf hx hy
  unfold fminmax
  dsimp only
  by_cases nan : ((f.value x).isNan || (f.value y).isNan) = true
  · rw [if_pos nan, if_pos nan]
  · rw [if_neg nan, if_neg nan]
    rw [Bool.or_eq_true, not_or, Bool.not_eq_true, Bool.not_eq_true] at nan
    rcases firstLess_total (format_widths hf).1 hx hy nan.1 nan.2 with rfl | ⟨other, model⟩
    · simp
    · rw [model, other]
      cases greater <;> cases firstLess f x y <;> rfl

theorem fscale_computes : FltComputes (fun f r sat x y _ => roundFmt ((f.value x).scale (BitVec.ofNat f.bits y).toInt) f r sat)
    (fun f r sat x y _ => roundFmt ((f.value x).scale (toSigned f.bits y)) f r sat) := by
  intro f r sat x y c _ _ hy
  dsimp only
  rw [← toSigned_toNat, BitVec.toNat_ofNat, Nat.mod_eq_of_lt hy]

/-- An instruction of R100, R101 or R103: its word, its dst field, and its function of encodings. -/
theorem fltBinary_form {i : Instr} {op : BitVec 7} {w : Bool} {d a b : Operand} {F : Fmt → Rnd → Bool → Nat → Nat → Nat → Nat}
    (h : fltBinary i = some (op, w, d, a, b, F)) :
    encodeCore i = some (formA op w d.code a.code b.code) ∧ i.view.d = some (.dst, d) ∧
      ∃ g, FltComputes g F ∧ ∀ s : State, exec i s = .next (s.fltOp w d a b (g s.fmt s.rnd s.sat)) := by
  have same (g : Fmt → Rnd → Bool → Nat → Nat → Nat → Nat) : FltComputes g g := fun _ _ _ _ _ _ _ _ _ => rfl
  cases i <;> cases h
  case fadd => exact ⟨rfl, rfl, _, same _, fun _ => rfl⟩
  case fsub => exact ⟨rfl, rfl, _, same _, fun _ => rfl⟩
  case fmul => exact ⟨rfl, rfl, _, same _, fun _ => rfl⟩
  case ffma => exact ⟨rfl, rfl, _, same _, fun _ => rfl⟩
  case fmin => exact ⟨rfl, rfl, _, fminmax_computes false, fun _ => rfl⟩
  case fmax => exact ⟨rfl, rfl, _, fminmax_computes true, fun _ => rfl⟩
  case fscale => exact ⟨rfl, rfl, _, fscale_computes, fun _ => rfl⟩

/-- Settles O24, by the tables of R100, R101 and R103. -/
theorem floatTwoSourceResults : Obligations.FloatTwoSourceResults := by
  intro i op w d a b F s shape wf
  obtain ⟨word, dst, g, num, ran⟩ := fltBinary_form shape
  obtain ⟨t, x, next, written, elems⟩ := fltOp_results (ran s) (wf_dst i wf d dst)
  refine ⟨word, t, x, next, written, fun l e he => ?_⟩
  rw [elems l e he, num _ _ _ _ _ _ (fmt_mem s) (fElem_lt ..) (fElem_lt ..)]

/-! ### The functions of FUN and FCLASS (R102, R104) -/

/-- A model's function of one encoding is a table's function of it, in every format, mode and SAT. -/
def FltUnComputes (g F : Fmt → Rnd → Bool → Nat → Nat) : Prop :=
  ∀ (f : Fmt) (r : Rnd) (sat : Bool) (x : Nat), f ∈ elementFormats → x < 2 ^ f.bits → g f r sat x = F f r sat x

section
variable {f : Fmt} (hf : f ∈ elementFormats)
include hf

theorem fabsBits_eq (x : Nat) : fabsBits f x = if (f.value x).isNan then f.nan.getD 0 else x % f.signW := by
  rw [fabsBits, mag_signed (format_widths hf).2.1]

theorem fnegBits_eq {x : Nat} (bound : x < 2 ^ f.bits) :
    fnegBits f x = if (f.value x).isNan then f.nan.getD 0 else if x < f.signW then x + f.signW else x - f.signW := by
  obtain ⟨bits, signed, -⟩ := format_widths hf
  rw [fnegBits, mag_signed signed, neg_signed signed bound]
  rw [two_pow_bits bits] at bound
  congr 1
  by_cases low : x < f.signW
  · rw [decide_eq_false (by omega), Nat.mod_eq_of_lt low, if_pos low]
    simp [Fmt.withSign, signed]
  · rw [decide_eq_true (by omega), Nat.mod_eq_sub_mod (by omega), Nat.mod_eq_of_lt (by omega), if_neg low]
    simp [Fmt.withSign]

end

theorem fnegBits_computes : FltUnComputes (fun f _ _ x => fnegBits f x)
    (fun f _ _ x => if (f.value x).isNan then f.nan.getD 0 else (x + 2 ^ (f.bits - 1)) % 2 ^ f.bits) := by
  intro f r sat x hf bound
  dsimp only
  rw [fnegBits_eq hf bound]
  rw [two_pow_bits (format_widths hf).1] at *
  unfold Fmt.signW at *
  congr 1
  split
  · rw [Nat.mod_eq_of_lt (by omega)]
  · rw [Nat.mod_eq_sub_mod (by omega), Nat.mod_eq_of_lt (by omega)]; omega

/-- A function of FUN's table, or FCLASS: its word, its dst field, and its function of encodings. -/
theorem fltUnary_form {i : Instr} {op : BitVec 7} {fn : BitVec 8} {w : Bool} {d a : Operand} {F : Fmt → Rnd → Bool → Nat → Nat}
    (h : fltUnary i = some (op, fn, w, d, a, F)) :
    encodeCore i = some (formA op w d.code a.code fn) ∧ i.view.d = some (.dst, d) ∧
      ∃ g, FltUnComputes g F ∧ ∀ s : State, exec i s = .next (s.fltUn w d a (g s.fmt s.rnd s.sat)) := by
  have same (g : Fmt → Rnd → Bool → Nat → Nat) : FltUnComputes g g := fun _ _ _ _ _ _ => rfl
  cases i <;> cases h
  case fabs => exact ⟨rfl, rfl, fun f _ _ x => fabsBits f x, fun _ _ _ x hf _ => fabsBits_eq hf x, fun _ => rfl⟩
  case fneg => exact ⟨rfl, rfl, _, fnegBits_computes, fun _ => rfl⟩
  case frcp | frsq | fsqrt | fexp2 | flog2 => exact ⟨rfl, rfl, _, same _, fun _ => rfl⟩
  case ffloor | fceil | ftrunc | frint | fclass => exact ⟨rfl, rfl, _, same _, fun _ => rfl⟩

/-- The least normal number is step 2^man. -/
theorem stepOf_small_iff (f : Fmt) (g : Nat) : stepOf f g < (2 : ℚ) ^ (1 - (f.bias : Int)) ↔ g < 2 ^ f.man := by
  have least : stepOf f (2 ^ f.man) = (2 : ℚ) ^ (1 - (f.bias : Int)) := by
    have normal := stepOf_binade (f := f) (b := 0) (k := 2 ^ f.man) (Nat.pow_le_pow_right two_pos (by omega)) (.inl rfl)
    rw [zero_mul, zero_add] at normal
    rw [normal]
    push_cast
    rw [← zpow_natCast, ← zpow_add₀ two_ne_zero]
    congr 1; ring
  rw [← least, (stepOf_strictMono f).lt_iff_lt]

theorem fclassCode_fin {f : Fmt} {x : Nat} (finite : f.mag x ≤ f.maxEnc) :
    fclassCode f x = if f.mag x = 0 then (if f.neg x then 3 else 4)
      else if f.mag x < 2 ^ f.man then (if f.neg x then 2 else 5) else if f.neg x then 1 else 6 := by
  unfold fclassCode
  rw [value_of_finite finite]
  simp only [units_eq_zero_iff]

/-- R104: the codes of the finite numbers, by their size and sign. -/
theorem fclassCode_ratOf {f : Fmt} {x : Nat} (finite : f.mag x ≤ f.maxEnc) :
    let v := f.value x
    let small := |ratOf v| < (2 : ℚ) ^ (1 - (f.bias : Int))
    (ratOf v = 0 → fclassCode f x = if f.neg x then 3 else 4) ∧
    (ratOf v < 0 → fclassCode f x = if small then 2 else 1) ∧ (0 < ratOf v → fclassCode f x = if small then 5 else 6) := by
  have nonneg : 0 ≤ stepOf f (f.mag x) := stepOf_zero f ▸ (stepOf_strictMono f).monotone (Nat.zero_le _)
  have zero : stepOf f (f.mag x) = 0 ↔ f.mag x = 0 := by rw [← stepOf_zero f, (stepOf_strictMono f).injective.eq_iff]
  dsimp only
  rw [fclassCode_fin finite, ratOf_value finite]
  cases f.neg x
  · simp only [Bool.false_eq_true, if_false, abs_of_nonneg nonneg, stepOf_small_iff, zero]
    refine ⟨fun h => if_pos h, fun h => absurd h nonneg.not_gt, fun h => if_neg fun z => ?_⟩
    exact h.ne' (zero.2 z)
  · simp only [if_true, abs_neg, abs_of_nonneg nonneg, stepOf_small_iff, neg_eq_zero, zero]
    refine ⟨fun h => if_pos h, fun h => if_neg fun z => ?_, fun h => absurd h (by linarith)⟩
    rw [zero.2 z] at h
    exact absurd h (by norm_num)

/-- Settles O25: the tables of R102 and R104, the class codes, and the signs of FABS and FNEG. -/
theorem floatOneSourceResults : Obligations.FloatOneSourceResults := by
  refine ⟨fun i op fn w d a F s shape wf => ?_, fun f x hf bound => ?_, fun f x hf bound => ?_⟩
  · obtain ⟨word, dst, g, num, ran⟩ := fltUnary_form shape
    obtain ⟨t, x, next, written, elems⟩ := fltOp_results (ran s) (wf_dst i wf d dst)
    refine ⟨word, t, x, next, written, fun l e he => ?_⟩
    rw [elems l e he, num _ _ _ _ (fmt_mem s) (fElem_lt ..)]
  · refine ⟨fun nan => ?_, fun inf => ?_, fun inf => ?_, fun ⟨s, m, e, fin⟩ => fclassCode_ratOf (finite_of_fin fin)⟩
    · simp only [fclassCode, nan]
    · simp only [fclassCode, inf, ← (mag_of_inf inf).1, if_true]
    · simp only [fclassCode, inf, ← (mag_of_inf inf).1, Bool.false_eq_true, if_false]
  · rw [fabsBits_eq hf, fnegBits_eq hf bound]
    refine ⟨fun nan => ?_, fun notNan => ?_⟩
    · simp [nan, Val.isNan]
    · have : (f.value x).isNan = false := by rwa [Bool.eq_false_iff, ne_eq, isNan_iff]
      simp [this]

end Sys2Proof.Machine
end

section
/-! SUPPORT. Rounding of a real number (R92): the step chosen is one, rises with the magnitude, and depends only on the side of the
format's steps and middles that the magnitude lies on. -/

namespace Sys2Proof.Machine

open Sys2Proof

/-- The middle between a step and the next. -/
def middle (f : Fmt) (k : Nat) : ℚ := (stepOf f k + stepOf f (k + 1)) / 2

/-- Between steps `k` and `k + 1` a mode chooses `n`, by the middle, the parity or the sign (R92, step 2). -/
def ModeChoosesStep (f : Fmt) (r : Rnd) (v : ℝ) (k n : Nat) : Prop :=
  match r with
  | .rne => if |v| = middle f k then n % 2 = 0 else (n = k ↔ |v| < middle f k)
  | .rna => n = k ↔ |v| < middle f k
  | .rtz => n = k
  | .rup => n = k ↔ v < 0
  | .rdn => n = k ↔ 0 < v

section
variable {f : Fmt} {r : Rnd} {v w : ℝ} {k n m : Nat}

theorem chooses_iff : Chooses f r v n ↔ (stepOf f n : ℝ) = |v| ∨
    ∃ k, (stepOf f k : ℝ) < |v| ∧ |v| < stepOf f (k + 1) ∧ (n = k ∨ n = k + 1) ∧ ModeChoosesStep f r v k n := by
  have near (k : Nat) : |v| - stepOf f k < stepOf f (k + 1) - |v| ↔ |v| < middle f k := by
    unfold middle; push_cast; constructor <;> intro h <;> linarith
  have tie (k : Nat) : |v| - stepOf f k = stepOf f (k + 1) - |v| ↔ |v| = middle f k := by
    unfold middle; push_cast; constructor <;> intro h <;> linarith
  cases r <;> simp only [Chooses, ModeChoosesStep, near, tie]

theorem real_stepOf_lt {j k : Nat} : (stepOf f j : ℝ) < stepOf f k ↔ j < k := by
  rw [Rat.cast_lt, (stepOf_strictMono f).lt_iff_lt]

theorem real_stepOf_le {j k : Nat} : (stepOf f j : ℝ) ≤ stepOf f k ↔ j ≤ k := by
  rw [Rat.cast_le, (stepOf_strictMono f).le_iff_le]

/-! ### The order of steps chosen -/

/-- What a mode moves up lies above what it moves down between the same two steps. -/
theorem lt_of_up_of_down (up : ModeChoosesStep f r v k (k + 1)) (down : ModeChoosesStep f r w k k) (neg : v < 0 ↔ w < 0) (pos : 0 < v ↔ 0 < w) :
    |w| < |v| := by
  have other : ¬ k + 1 = k := by omega
  cases r <;> simp only [ModeChoosesStep, other, false_iff, true_iff, not_lt] at up down
  case rne =>
    split_ifs at up down with tie_v tie_w tie_w
    · omega
    · exact tie_v ▸ down
    · exact lt_of_le_of_ne (tie_w ▸ up) (fun h => tie_v (h ▸ tie_w))
    · exact down.trans_le up
  case rna => exact down.trans_le up
  case rup => exact absurd (neg.2 down) up.not_gt
  case rdn => exact absurd (pos.2 down) up.not_gt

/-- The step chosen rises with the magnitude. -/
theorem chooses_mono (hv : Chooses f r v n) (hw : Chooses f r w m) (neg : v < 0 ↔ w < 0) (pos : 0 < v ↔ 0 < w) (le : |v| ≤ |w|) :
    n ≤ m := by
  rcases chooses_iff.1 hv with exact_v | ⟨j, below_v, above_v, ends_v, mode_v⟩
  · rcases chooses_iff.1 hw with exact_w | ⟨k, below_w, above_w, ends_w, -⟩
    · exact real_stepOf_le.1 (by rw [exact_v, exact_w]; exact le)
    · have : n < k + 1 := real_stepOf_lt.1 (by rw [exact_v]; exact le.trans_lt above_w)
      omega
  · rcases chooses_iff.1 hw with exact_w | ⟨k, below_w, above_w, ends_w, mode_w⟩
    · have : j < m := real_stepOf_lt.1 (by rw [exact_w]; exact below_v.trans_le le)
      omega
    · have order : j < k + 1 := real_stepOf_lt.1 (below_v.trans_le (le.trans above_w.le))
      by_contra more
      obtain ⟨rfl, rfl, rfl⟩ : j = k ∧ n = k + 1 ∧ m = k := by omega
      exact le.not_gt (lt_of_up_of_down mode_v mode_w neg pos)

theorem chooses_unique (h : Chooses f r v n) (h' : Chooses f r v m) : n = m :=
  le_antisymm (chooses_mono h h' Iff.rfl Iff.rfl le_rfl) (chooses_mono h' h Iff.rfl Iff.rfl le_rfl)

/-- What the format holds goes to itself. -/
theorem chooses_step (h : Chooses f r v n) (held : (stepOf f k : ℝ) = |v|) : n = k := chooses_unique h (.inl held)

/-! ### The borders of a rounding -/

/-- The numbers at which a rounding of magnitudes turns: the steps and the middles between them. -/
def Border (f : Fmt) (b : ℚ) : Prop := ∃ k, b = stepOf f k ∨ b = middle f k

/-- No border keeps two numbers of one sign apart, or holds one of them only. -/
def OneSide (f : Fmt) (v w : ℝ) : Prop :=
  (v < 0 ↔ w < 0) ∧ (0 < v ↔ 0 < w) ∧ ∀ b, Border f b → (((b : ℝ) < |v| ↔ (b : ℝ) < |w|) ∧ (|v| < b ↔ |w| < b))

/-- Numbers on one side of every border go to the same step. -/
theorem chooses_of_oneSide (side : OneSide f w v) (h : Chooses f r w n) : Chooses f r v n := by
  obtain ⟨neg, pos, borders⟩ := side
  have same {b : ℚ} (hb : Border f b) : |v| = b ↔ |w| = b := by
    obtain ⟨above, below⟩ := borders b hb
    rw [eq_iff_le_not_lt, eq_iff_le_not_lt, ← not_lt, ← not_lt, above, below]
  have step (k : Nat) : Border f (stepOf f k) := ⟨k, .inl rfl⟩
  have mid (k : Nat) : Border f (middle f k) := ⟨k, .inr rfl⟩
  rw [chooses_iff] at h ⊢
  refine h.imp (fun held => ((same (step n)).2 held.symm).symm) fun ⟨k, below, above, ends, mode⟩ => ?_
  refine ⟨k, (borders _ (step k)).1.1 below, (borders _ (step (k + 1))).2.1 above, ends, ?_⟩
  unfold ModeChoosesStep at mode ⊢
  simp only [same (mid k), ← (borders _ (mid k)).2, ← neg, ← pos]
  exact mode

theorem roundsTo_of_oneSide {sat neg : Bool} {y : Nat} (side : OneSide f w v) (h : RoundsTo f r sat neg w y) : RoundsTo f r sat neg v y :=
  h.imp fun _ h => ⟨chooses_of_oneSide side h.1, h.2⟩

/-- A number of a power of two's multiples lies outside the open interval between two neighbouring multiples of a higher or lower power,
unless it has more bits than the interval's place. -/
theorem multiple_outside {c a n : Nat} {i j : Int} (small : c ≤ 2 ^ (n + 1)) (large : 2 ^ n ≤ a) :
    (c : ℚ) * 2 ^ i ≤ a * 2 ^ j ∨ ((a + 1 : Nat) : ℚ) * 2 ^ j ≤ c * 2 ^ i := by
  have unit : (0 : ℚ) < 2 ^ j := zpow_pos two_pos _
  rcases le_or_gt j i with fine | coarse
  · obtain ⟨d, hd⟩ := Int.le.dest fine
    have : (c : ℚ) * 2 ^ i = (c * 2 ^ d : Nat) * 2 ^ j := by
      rw [← hd, zpow_add₀ two_ne_zero, zpow_natCast]; push_cast; ring
    rw [this, mul_le_mul_iff_left₀ unit, mul_le_mul_iff_left₀ unit, Nat.cast_le, Nat.cast_le]
    omega
  · left
    have half : (2 : ℚ) ^ i ≤ 2 ^ (j - 1) := zpow_le_zpow_right₀ one_le_two (by omega)
    calc (c : ℚ) * 2 ^ i ≤ (2 ^ (n + 1) : Nat) * 2 ^ (j - 1) := by gcongr
      _ = (2 ^ n : Nat) * 2 ^ j := by rw [zpow_sub_one₀ two_ne_zero]; push_cast; rw [pow_succ]; ring
      _ ≤ a * 2 ^ j := by gcongr

/-- No border lies between two neighbours of a grid that is fine beside them. -/
theorem border_outside {b : ℚ} (hb : Border f b) {a : Nat} {j : Int} (large : 2 ^ (f.man + 1) ≤ a) :
    b ≤ a * 2 ^ j ∨ ((a + 1 : Nat) : ℚ) * 2 ^ j ≤ b := by
  obtain ⟨k, hb⟩ := hb
  obtain ⟨here, next⟩ := stepOf_units f k
  obtain ⟨upper, -⟩ := units_bounds f k
  have wide : 2 ^ (f.man + 1 + 1) = 2 * 2 ^ (f.man + 1) := pow_succ' ..
  rcases hb with rfl | rfl
  · rw [here]
    exact multiple_outside (by omega) large
  · have mid : middle f k = (2 * f.units k + 1 : Nat) * (2 : ℚ) ^ ((f.binade k : Int) + 1 - f.bias - f.man - 1) := by
      rw [middle, here, next, zpow_sub_one₀ two_ne_zero]; push_cast; ring
    rw [mid]
    exact multiple_outside (by omega) large

theorem abs_signed (s : Bool) {x : ℝ} (pos : 0 < x) : |if s then -x else x| = x := by
  cases s
  · exact abs_of_pos pos
  · simpa using pos.le

theorem signed_neg_iff (s : Bool) {x : ℝ} (pos : 0 < x) : (if s then -x else x) < 0 ↔ s = true := by
  cases s
  · simpa using pos.le
  · simpa using pos

theorem signed_pos_iff (s : Bool) {x : ℝ} (pos : 0 < x) : 0 < (if s then -x else x) ↔ s = false := by
  cases s
  · simpa using pos
  · simpa using pos.le

/-- Numbers strictly between the same two neighbours of such a grid, with one sign, are on one side of every border. -/
theorem oneSide_of_grid {s : Bool} {x y : ℝ} {a : Nat} {j : Int} (large : 2 ^ (f.man + 1) ≤ a)
    (hx : (a : ℝ) * 2 ^ j < x ∧ x < ((a + 1 : Nat) : ℝ) * 2 ^ j) (hy : (a : ℝ) * 2 ^ j < y ∧ y < ((a + 1 : Nat) : ℝ) * 2 ^ j) :
    OneSide f (if s then -x else x) (if s then -y else y) := by
  have low : (0 : ℝ) ≤ a * 2 ^ j := by positivity
  have posx : 0 < x := low.trans_lt hx.1
  have posy : 0 < y := low.trans_lt hy.1
  refine ⟨by rw [signed_neg_iff s posx, signed_neg_iff s posy], by rw [signed_pos_iff s posx, signed_pos_iff s posy], fun b hb => ?_⟩
  rw [abs_signed s posx, abs_signed s posy]
  rcases border_outside hb (j := j) large with below | above
  · have below : (b : ℝ) ≤ a * 2 ^ j := by simpa using (Rat.cast_le (K := ℝ)).2 below
    exact ⟨iff_of_true (below.trans_lt hx.1) (below.trans_lt hy.1), iff_of_false (by linarith) (by linarith)⟩
  · have above : ((a + 1 : Nat) : ℝ) * 2 ^ j ≤ b := by simpa using (Rat.cast_le (K := ℝ)).2 above
    exact ⟨iff_of_false (by linarith) (by linarith), iff_of_true (hx.2.trans_le above) (hy.2.trans_le above)⟩

/-! ### Numbers held with a last bit for what has been cut -/

/-- `q` units of 2^`k` are the positive number `v`; or their last bit is 1 and stands for a remainder, below it at least 25 bits. -/
def Sticky (q : Nat) (k : Int) (v : ℝ) : Prop :=
  (q : ℝ) * 2 ^ k = v ∨ ∃ a : Nat, q = 2 * a + 1 ∧ 2 ^ 25 ≤ a ∧ (a : ℝ) * 2 ^ (k + 1) < v ∧ v < ((a + 1 : Nat) : ℝ) * 2 ^ (k + 1)

theorem Sticky.scale {q : Nat} {k : Int} (h : Sticky q k v) (e : Int) : Sticky q (e + k) (v * 2 ^ e) := by
  have unit : (0 : ℝ) < 2 ^ e := zpow_pos two_pos _
  have split (x : ℝ) (i : Int) : x * 2 ^ (e + i) = x * 2 ^ i * 2 ^ e := by rw [zpow_add₀ two_ne_zero]; ring
  refine h.imp (fun held => by rw [split, held]) fun ⟨a, odd, large, below, above⟩ => ⟨a, odd, large, ?_, ?_⟩
  · rw [add_assoc, split]; exact mul_lt_mul_of_pos_right below unit
  · rw [add_assoc, split]; exact mul_lt_mul_of_pos_right above unit

theorem format_facts : ∀ f ∈ elementFormats, f.man ≤ 24 ∧ 1 ≤ f.bias ∧ (f.bias + f.man + 1) * 2 ^ f.man ≤ f.maxEnc := by decide

theorem ratOf_fin_real (s : Bool) (q : Nat) (k : Int) :
    ((ratOf (.fin s q k) : ℚ) : ℝ) = if s then -((q : ℝ) * 2 ^ k) else (q : ℝ) * 2 ^ k := by
  rw [ratOf_fin]
  cases s <;> simp

/-- A number held so rounds as it would without the cut. -/
theorem Sticky.roundsTo {q : Nat} {k : Int} (h : Sticky q k v) (hf : f ∈ elementFormats) (r : Rnd) (sat s : Bool) :
    RoundsTo f r sat s (if s then -v else v) (roundFmt (.fin s q k) f r sat) := by
  obtain ⟨mantissa, small, e2m1⟩ := formats_round f (mem_formats hf)
  have rounds := roundFmt_roundsTo mantissa small e2m1 r sat s q k
  rw [ratOf_fin_real] at rounds
  rcases h with held | ⟨a, rfl, large, below, above⟩
  · rwa [held] at rounds
  · refine roundsTo_of_oneSide (oneSide_of_grid (a := a) (j := k + 1) ?_ ?_ ⟨below, above⟩) rounds
    · exact (Nat.pow_le_pow_right two_pos (by have := (format_facts f hf).1; omega)).trans large
    · have unit : (0 : ℝ) < 2 ^ k := zpow_pos two_pos _
      rw [zpow_add_one₀ two_ne_zero]
      push_cast
      constructor <;> nlinarith

end

end Sys2Proof.Machine
end

section
/-! The obligation of the integral roundings, and of FRCP, FRSQ and FSQRT (R93, R102). -/

namespace Sys2Proof.Machine

open Sys2Proof

/-! ### Integers of a format -/

/-- The integers up to 2^man are steps, each below the largest finite one. -/
theorem integer_isStep {f : Fmt} (hf : f ∈ elementFormats) {n : Nat} (bound : n ≤ 2 ^ f.man) :
    ∃ k, stepOf f k = n ∧ k ≤ f.maxEnc := by
  obtain ⟨-, bias, room⟩ := format_facts f hf
  rcases Nat.eq_zero_or_pos n with rfl | pos
  · exact ⟨0, by simp [stepOf], Nat.zero_le _⟩
  · obtain ⟨l, hl⟩ : ∃ l, Nat.log2 n = l := ⟨_, rfl⟩
    have low : 2 ^ l ≤ n := hl ▸ Nat.log2_self_le pos.ne'
    have high : n < 2 ^ (l + 1) := hl ▸ Nat.lt_log2_self
    have le : l ≤ f.man := (Nat.pow_le_pow_iff_right (a := 2) (by norm_num)).1 (low.trans bound)
    have lower : 2 ^ f.man ≤ n * 2 ^ (f.man - l) := by
      calc 2 ^ f.man = 2 ^ l * 2 ^ (f.man - l) := by rw [← pow_add, Nat.add_sub_cancel' le]
        _ ≤ n * 2 ^ (f.man - l) := Nat.mul_le_mul_right _ low
    have upper : n * 2 ^ (f.man - l) ≤ 2 ^ (f.man + 1) := by
      calc n * 2 ^ (f.man - l) ≤ 2 ^ (l + 1) * 2 ^ (f.man - l) := Nat.mul_le_mul_right _ high.le
        _ = 2 ^ (f.man + 1) := by rw [← pow_add]; congr 1; omega
    refine ⟨(f.bias - 1 + l) * 2 ^ f.man + n * 2 ^ (f.man - l), ?_, ?_⟩
    · have shift : ((f.man - l : Nat) : Int) + (((f.bias - 1 + l : Nat) : Int) + 1 - f.bias - f.man) = 0 := by omega
      rw [stepOf_binade upper (.inr lower), Nat.cast_mul, mul_assoc, Nat.cast_pow, Nat.cast_ofNat, ← zpow_natCast,
        ← zpow_add₀ two_ne_zero, shift, zpow_zero, mul_one]
    · have binade : (f.bias - 1 + l) * 2 ^ f.man ≤ (f.bias + f.man - 1) * 2 ^ f.man := Nat.mul_le_mul_right _ (by omega)
      have split : (f.bias + f.man + 1) * 2 ^ f.man = (f.bias + f.man - 1) * 2 ^ f.man + 2 * 2 ^ f.man := by
        rw [← add_mul]; congr 1; omega
      rw [pow_succ] at upper
      omega

/-- An integer that is a step rounds to it, with its sign. -/
theorem roundFmt_integer {f : Fmt} (hf : f ∈ elementFormats) {n k : Nat} (step : stepOf f k = n) (finite : k ≤ f.maxEnc) (s : Bool) (r : Rnd)
    (sat : Bool) : roundFmt (.fin s n 0) f r sat = f.withSign s k := by
  obtain ⟨mantissa, small, e2m1⟩ := formats_round f (mem_formats hf)
  obtain ⟨j, chosen, delivers⟩ := roundFmt_roundsTo mantissa small e2m1 r sat s n 0
  have held : (stepOf f k : ℝ) = |((ratOf (.fin s n 0) : ℚ) : ℝ)| := by
    rw [ratOf_fin_real, step]
    cases s <;> simp
  rw [delivers, chooses_step chosen held, delivered, if_pos finite]

section
variable {f : Fmt} (r : Rnd) {x : Nat}

theorem fintBits_fin {s : Bool} {m : Nat} {e : Int} (fin : f.value x = .fin s m e) :
    fintBits f r x = if 0 ≤ e then x else roundFmt (.fin s (Val.toInt r s m e) 0) f r false := by
  simp only [fintBits, fin]

/-- A finite number with an exponent below 0 is rounded to no more than 2^man. -/
theorem toInt_le {s : Bool} {m : Nat} {e : Int} (fin : f.value x = .fin s m e) (fraction : ¬ 0 ≤ e) : Val.toInt r s m e ≤ 2 ^ f.man := by
  obtain ⟨-, rfl, -⟩ := value_fin_eq fin
  have upper : (f.units (f.mag x) : ℚ) ≤ (2 ^ (f.man + 1) : Nat) := by exact_mod_cast (units_bounds f (f.mag x)).1.le
  have half : (2 : ℚ) ^ (e - 0) ≤ 2 ^ (-1 : Int) := zpow_le_zpow_right₀ one_le_two (by omega)
  refine choosesInt_le (quantum_chooses r s _ (q := 0) (by omega)) ?_
  calc (f.units (f.mag x) : ℚ) * 2 ^ (e - 0) ≤ (2 ^ (f.man + 1) : Nat) * 2 ^ (-1 : Int) := by gcongr
    _ = (2 ^ f.man : Nat) := by push_cast; rw [pow_succ, zpow_neg_one]; ring

/-- R93: the integral roundings give the integer of their mode exactly, and keep the sign. -/
theorem fintBits_exact (hf : f ∈ elementFormats) {s : Bool} {m : Nat} {e : Int} (fin : f.value x = .fin s m e) :
    ratOf (f.value (fintBits f r x)) = (intRounded r (ratOf (f.value x)) : ℚ) ∧ f.neg (fintBits f r x) = f.neg x := by
  obtain ⟨bits, signed, top⟩ := format_widths hf
  have sign := (value_fin_eq fin).1
  rw [fintBits_fin r fin]
  split
  · rename_i whole
    obtain ⟨d, rfl⟩ := Int.eq_ofNat_of_zero_le whole
    refine ⟨?_, rfl⟩
    have int : ratOf (f.value x) = (((if s then -1 else 1) * (m * 2 ^ d : Nat) : Int) : ℚ) := by
      rw [fin, ratOf_fin]
      cases s <;> simp
    rw [int, intRounded_int]
  · rename_i fraction
    obtain ⟨k, step, finite⟩ := integer_isStep hf (toInt_le r fin fraction)
    rw [roundFmt_integer hf step finite]
    obtain ⟨neg, mag⟩ := neg_withSign bits signed s (finite.trans_lt top)
    refine ⟨?_, neg.trans sign⟩
    rw [ratOf_value (mag.le.trans finite), neg, mag, step, fin, intRounded_fin (value_exponent (mem_formats hf) fin)]
    cases s <;> push_cast <;> rfl

end

/-! ### The quotient (R94) -/

/-- The quotient of `divBits` is held with its remainder. -/
theorem divBits_sticky {m n : Nat} (hm : m ≠ 0) (hn : n ≠ 0) : Sticky (divBits m n).1 (divBits m n).2 ((m : ℝ) / n) := by
  obtain ⟨k, hk⟩ : ∃ k, 80 + bitLen n = k := ⟨_, rfl⟩
  have q_def : divBits m n = (2 * (m * 2 ^ k / n) + (if m * 2 ^ k % n = 0 then 0 else 1), -(k : Int) - 1) := by rw [← hk]; rfl
  rw [q_def]
  dsimp only
  have pos : (0 : ℝ) < n := by exact_mod_cast Nat.pos_of_ne_zero hn
  have unit : (0 : ℝ) < 2 ^ k := by positivity
  have whole : (m : ℝ) * 2 ^ k = n * (m * 2 ^ k / n : Nat) + (m * 2 ^ k % n : Nat) := by exact_mod_cast (Nat.div_add_mod (m * 2 ^ k) n).symm
  have rest : ((m * 2 ^ k % n : Nat) : ℝ) < n := by exact_mod_cast Nat.mod_lt _ (Nat.pos_of_ne_zero hn)
  have large : 2 ^ 25 ≤ m * 2 ^ k / n := by
    rw [Nat.le_div_iff_mul_le (Nat.pos_of_ne_zero hn)]
    calc 2 ^ 25 * n ≤ 2 ^ 25 * 2 ^ bitLen n := Nat.mul_le_mul_left _ (lt_two_pow_bitLen n).le
      _ = 2 ^ (25 + bitLen n) := (pow_add ..).symm
      _ ≤ 2 ^ k := Nat.pow_le_pow_right two_pos (by omega)
      _ ≤ m * 2 ^ k := Nat.le_mul_of_pos_left _ (Nat.pos_of_ne_zero hm)
  generalize m * 2 ^ k / n = q at *
  generalize m * 2 ^ k % n = d at *
  have down : (2 : ℝ) ^ (-(k : Int) - 1 + 1) = (2 ^ k)⁻¹ := by rw [sub_add_cancel, zpow_neg, zpow_natCast]
  by_cases zero : d = 0
  · left
    have down' : (2 : ℝ) ^ (-(k : Int) - 1) = (2 ^ k)⁻¹ / 2 := by rw [zpow_sub_one₀ two_ne_zero, zpow_neg, zpow_natCast]; rfl
    rw [if_pos zero, down', eq_div_iff pos.ne']
    rw [zero, Nat.cast_zero, add_zero] at whole
    push_cast
    field_simp
    linarith
  · right
    refine ⟨q, by rw [if_neg zero], large, ?_, ?_⟩
    · have : (0 : ℝ) < d := by exact_mod_cast Nat.pos_of_ne_zero zero
      rw [down, ← div_eq_mul_inv, div_lt_div_iff₀ unit pos]
      linarith
    · rw [down, ← div_eq_mul_inv, div_lt_div_iff₀ pos unit]
      push_cast
      linarith

/-! ### Square roots (R102) -/

theorem isqrtFrom_spec (n k r : Nat) (low : r * r ≤ n) (high : n < (r + 2 ^ (k + 1)) * (r + 2 ^ (k + 1))) :
    isqrtFrom n k r * isqrtFrom n k r ≤ n ∧ n < (isqrtFrom n k r + 1) * (isqrtFrom n k r + 1) := by
  induction k generalizing r with
  | zero =>
    unfold isqrtFrom
    split
    · rename_i up
      exact ⟨up, high⟩
    · rename_i down
      exact ⟨low, not_le.1 down⟩
  | succ j ih =>
    unfold isqrtFrom
    split
    · rename_i up
      refine ih _ up ?_
      rwa [pow_succ 2 (j + 1), mul_two, ← add_assoc] at high
    · rename_i down
      exact ih _ low (not_le.1 down)

/-- `isqrt` is the integer square root. -/
theorem isqrt_eq (n : Nat) : isqrt n = Nat.sqrt n := by
  rw [Nat.eq_sqrt]
  refine isqrtFrom_spec n _ 0 (Nat.zero_le _) ((lt_two_pow_bitLen n).trans_le ?_)
  rw [zero_add, ← pow_add]
  exact Nat.pow_le_pow_right two_pos (by omega)

/-- An integer root is held with its remainder, `n` being what the root's square has of whole units. -/
theorem sqrt_sticky {n : Nat} {y : ℝ} (floor : (n : ℝ) ≤ y) (near : y < n + 1) (large : 2 ^ 50 ≤ n) (exact : Prop) [Decidable exact]
    (root : exact ↔ ((Nat.sqrt n : ℕ) : ℝ) ^ 2 = y) : Sticky (2 * Nat.sqrt n + if exact then 0 else 1) (-1) (√y) := by
  have nonneg : (0 : ℝ) ≤ y := n.cast_nonneg.trans floor
  have low : ((Nat.sqrt n : ℕ) : ℝ) ^ 2 ≤ n := by exact_mod_cast Nat.sqrt_le' n
  have high : (n : ℝ) + 1 ≤ ((Nat.sqrt n : ℕ) + 1) ^ 2 := by exact_mod_cast Nat.succ_le_succ_sqrt' n
  by_cases h : exact
  · left
    rw [if_pos h, ← root.1 h, Real.sqrt_sq (Nat.cast_nonneg _), add_zero, zpow_neg_one]
    push_cast
    ring
  · right
    refine ⟨_, by rw [if_neg h], ?_, ?_, ?_⟩
    · exact Nat.le_sqrt'.2 (by rw [← pow_mul]; exact large)
    · rw [neg_add_cancel, zpow_zero, mul_one]
      exact Real.lt_sqrt_of_sq_lt (lt_of_le_of_ne (low.trans floor) fun e => h (root.2 e))
    · rw [neg_add_cancel, zpow_zero, mul_one, Real.sqrt_lt' (by positivity)]
      push_cast
      linarith

/-- A number m × 2^e with an even exponent. -/
theorem even_exponent (m : Nat) (e : Int) :
    ∃ n h, (if e % 2 = 0 then (m, e) else (2 * m, e - 1)) = (n, 2 * h) ∧ (m ≠ 0 → n ≠ 0) ∧ (m : ℝ) * 2 ^ e = n * (2 ^ h) ^ 2 := by
  have square (h : Int) : ((2 : ℝ) ^ h) ^ 2 = 2 ^ (2 * h) := by rw [← zpow_natCast, ← zpow_mul]; congr 1; push_cast; ring
  by_cases even : e % 2 = 0
  · refine ⟨m, e / 2, ?_, id, ?_⟩
    · rw [if_pos even]; congr 1; omega
    · rw [square]; congr 2; omega
  · refine ⟨2 * m, (e - 1) / 2, ?_, by omega, ?_⟩
    · rw [if_neg even]; congr 1; omega
    · have : e = 2 * ((e - 1) / 2) + 1 := by omega
      rw [square, this, zpow_add_one₀ two_ne_zero, ← this]
      push_cast
      ring

theorem sqrt_mul_square (y : ℝ) (h : Int) : √(y * (2 ^ h) ^ 2) = √y * 2 ^ h := by
  rw [Real.sqrt_mul' _ (sq_nonneg _), Real.sqrt_sq (zpow_pos two_pos _).le]

theorem sqrtBits_sticky {m : Nat} (hm : m ≠ 0) (e : Int) : Sticky (sqrtBits m e).1 (sqrtBits m e).2 (√(m * 2 ^ e)) := by
  obtain ⟨n, h, norm, pos, value⟩ := even_exponent m e
  have bits : sqrtBits m e = (2 * Nat.sqrt (n * 2 ^ 128) +
      (if Nat.sqrt (n * 2 ^ 128) * Nat.sqrt (n * 2 ^ 128) = n * 2 ^ 128 then 0 else 1), h - 65) := by
    unfold sqrtBits
    rw [norm]
    simp only [isqrt_eq]
    congr 1; omega
  have large : 2 ^ 50 ≤ n * 2 ^ 128 :=
    (Nat.pow_le_pow_right two_pos (by norm_num)).trans (Nat.le_mul_of_pos_left _ (Nat.pos_of_ne_zero (pos hm)))
  have held := sqrt_sticky (y := (n * 2 ^ 128 : Nat)) le_rfl (lt_add_one _) large
    (Nat.sqrt (n * 2 ^ 128) * Nat.sqrt (n * 2 ^ 128) = n * 2 ^ 128) (by rw [sq]; exact_mod_cast Iff.rfl)
  have split : (m : ℝ) * 2 ^ e = (n * 2 ^ 128 : Nat) * (2 ^ (h - 64)) ^ 2 := by
    rw [value, zpow_sub₀ two_ne_zero]
    push_cast
    field_simp
    norm_num
  have exponent : h - 65 = h - 64 + -1 := by ring
  rw [bits, split, sqrt_mul_square, exponent]
  exact held.scale _

theorem rsqrtBits_sticky {m : Nat} (hm : m ≠ 0) (e : Int) : Sticky (rsqrtBits m e).1 (rsqrtBits m e).2 (1 / √(m * 2 ^ e)) := by
  obtain ⟨n, h, norm, pos, value⟩ := even_exponent m e
  obtain ⟨k, hk⟩ : ∃ k, 128 + bitLen n = k := ⟨_, rfl⟩
  have bits : rsqrtBits m e = (2 * Nat.sqrt (2 ^ (2 * k) / n) +
      (if Nat.sqrt (2 ^ (2 * k) / n) * Nat.sqrt (2 ^ (2 * k) / n) * n = 2 ^ (2 * k) then 0 else 1), -h - k + -1) := by
    unfold rsqrtBits
    rw [norm]
    simp only [isqrt_eq, hk]
    congr 1; omega
  have posN : 0 < n := Nat.pos_of_ne_zero (pos hm)
  have pos' : (0 : ℝ) < n := by exact_mod_cast posN
  have large : 2 ^ 50 ≤ 2 ^ (2 * k) / n := by
    rw [Nat.le_div_iff_mul_le posN]
    calc 2 ^ 50 * n ≤ 2 ^ 50 * 2 ^ bitLen n := Nat.mul_le_mul_left _ (lt_two_pow_bitLen n).le
      _ = 2 ^ (50 + bitLen n) := (pow_add ..).symm
      _ ≤ 2 ^ (2 * k) := Nat.pow_le_pow_right two_pos (by omega)
  have floor : ((2 ^ (2 * k) / n : Nat) : ℝ) ≤ (2 ^ (2 * k) : Nat) / n := Nat.cast_div_le
  have near : ((2 ^ (2 * k) : Nat) : ℝ) / n < (2 ^ (2 * k) / n : Nat) + 1 := by
    rw [div_lt_iff₀ pos', mul_comm _ (n : ℝ)]
    exact_mod_cast Nat.lt_mul_div_succ _ posN
  have held := sqrt_sticky floor near large (Nat.sqrt (2 ^ (2 * k) / n) * Nat.sqrt (2 ^ (2 * k) / n) * n = 2 ^ (2 * k))
    (by rw [sq, eq_div_iff pos'.ne']; exact_mod_cast Iff.rfl)
  have split : 1 / √(m * 2 ^ e) = √((2 ^ (2 * k) : Nat) / n) * 2 ^ (-h - k) := by
    rw [← sqrt_mul_square, one_div, ← Real.sqrt_inv, value, zpow_sub₀ two_ne_zero, zpow_neg]
    congr 1
    push_cast
    field_simp
    norm_num
    ring
  rw [bits, split]
  exact held.scale _

/-! ### FRCP, FRSQ and FSQRT -/

section
variable {f : Fmt} {r : Rnd} {sat : Bool} {x : Nat} {s : Bool} {m : Nat} {e : Int}

theorem frcpBits_roundsTo (hf : f ∈ elementFormats) (fin : f.value x = .fin s m e) (nonzero : m ≠ 0) :
    RoundsTo f r sat s (1 / ((ratOf (f.value x) : ℚ) : ℝ)) (frcpBits f r sat x) := by
  have held := (divBits_sticky one_ne_zero nonzero).scale (-e)
  have bits : frcpBits f r sat x = roundFmt (.fin s (divBits 1 m).1 (-e + (divBits 1 m).2)) f r sat := by
    unfold frcpBits
    rw [fin, Val.div, if_neg nonzero]
    simp
  have value : 1 / ((ratOf (f.value x) : ℚ) : ℝ) = if s then -(((1 : Nat) : ℝ) / m * 2 ^ (-e)) else ((1 : Nat) : ℝ) / m * 2 ^ (-e) := by
    rw [fin, ratOf_fin_real, zpow_neg]
    cases s
    · simp [mul_comm]
    · simp [mul_comm]
  rw [bits, value]
  exact held.roundsTo hf r sat s

theorem frsqBits_roundsTo (hf : f ∈ elementFormats) (fin : f.value x = .fin false m e) (nonzero : m ≠ 0) :
    RoundsTo f r sat false (1 / √((ratOf (f.value x) : ℚ) : ℝ)) (frsqBits f r sat x) := by
  have bits : frsqBits f r sat x = roundFmt (.fin false (rsqrtBits m e).1 (rsqrtBits m e).2) f r sat := by
    simp [frsqBits, fin, nonzero]
  rw [bits, fin, ratOf_fin_real]
  exact (rsqrtBits_sticky nonzero e).roundsTo hf r sat false

theorem fsqrtBits_roundsTo (hf : f ∈ elementFormats) (fin : f.value x = .fin false m e) (nonzero : m ≠ 0) :
    RoundsTo f r sat false (√((ratOf (f.value x) : ℚ) : ℝ)) (fsqrtBits f r sat x) := by
  have bits : fsqrtBits f r sat x = roundFmt (.fin false (sqrtBits m e).1 (sqrtBits m e).2) f r sat := by
    simp [fsqrtBits, fin, nonzero]
  rw [bits, fin, ratOf_fin_real]
  exact (sqrtBits_sticky nonzero e).roundsTo hf r sat false

theorem nonzero_of_ratOf (fin : f.value x = .fin s m e) (nonzero : ((ratOf (f.value x) : ℚ) : ℝ) ≠ 0) : m ≠ 0 := by
  rintro rfl
  rw [fin, ratOf_zero] at nonzero
  exact nonzero Rat.cast_zero

theorem positive_of_ratOf (fin : f.value x = .fin s m e) (pos : 0 < ((ratOf (f.value x) : ℚ) : ℝ)) : s = false := by
  rw [fin, ratOf_fin_real] at pos
  have : (0 : ℝ) ≤ m * 2 ^ e := by positivity
  cases s
  · rfl
  · rw [if_pos rfl] at pos
    linarith

end

/-- Settles O29: the integral roundings by the integers of a format, the others by quotient and roots held with a remainder. -/
theorem integralRoundingIsExact : Obligations.IntegralRoundingIsExact := by
  intro f r x hf _ ⟨s, m, e, fin⟩ q
  obtain ⟨integer, sign⟩ := fintBits_exact r hf fin
  refine ⟨integer, sign, fun sat => ⟨fun nonzero => ?_, fun pos => ?_⟩⟩
  · rw [← (value_fin_eq fin).1]
    exact frcpBits_roundsTo hf fin (nonzero_of_ratOf fin nonzero)
  · have nonzero := nonzero_of_ratOf fin pos.ne'
    obtain rfl := positive_of_ratOf fin pos
    exact ⟨frsqBits_roundsTo hf fin nonzero, fsqrtBits_roundsTo hf fin nonzero⟩

end Sys2Proof.Machine
end

section
/-! SUPPORT. The enclosures of log₂ and 2^x (log entry 14): the fixed-point sums and the series that they cut off. -/

namespace Sys2Proof.Machine

open Sys2Proof

/-! ### Numbers in units of 2^(−p) -/

/-- `t` units of 2^(−p) lie below the number `x`, by no more than `d` units. -/
def Below (p t : Nat) (x d : ℝ) : Prop := (t : ℝ) ≤ x * 2 ^ p ∧ x * 2 ^ p ≤ t + d

theorem floor_div_bounds (a : Nat) {b : Nat} (pos : 0 < b) : ((a / b : Nat) : ℝ) ≤ (a : ℝ) / b ∧ (a : ℝ) / b ≤ (a / b : Nat) + 1 := by
  refine ⟨Nat.cast_div_le, ?_⟩
  rw [div_le_iff₀ (by exact_mod_cast pos), mul_comm _ (b : ℝ)]
  exact_mod_cast (Nat.lt_mul_div_succ a pos).le

namespace Below

variable {p t u : Nat} {x y d c : ℝ}

theorem mono (h : Below p t x d) (le : d ≤ c) : Below p t x c := ⟨h.1, h.2.trans (by linarith)⟩

theorem add (hx : Below p t x d) (hy : Below p u y c) : Below p (t + u) (x + y) (d + c) := by
  obtain ⟨xl, xh⟩ := hx
  obtain ⟨yl, yh⟩ := hy
  constructor <;> push_cast <;> linarith

theorem double (hx : Below p t x d) : Below p (2 * t) (2 * x) (2 * d) := by
  obtain ⟨xl, xh⟩ := hx
  constructor <;> push_cast <;> linarith

theorem div (hx : Below p t x d) {j : Nat} (pos : 0 < j) : Below p (t / j) (x / j) (d / j + 1) := by
  obtain ⟨xl, xh⟩ := hx
  obtain ⟨floor, near⟩ := floor_div_bounds t pos
  have posj : (0 : ℝ) < j := by exact_mod_cast pos
  constructor
  · calc ((t / j : Nat) : ℝ) ≤ t / j := floor
      _ ≤ x * 2 ^ p / j := by gcongr
      _ = x / j * 2 ^ p := by ring
  · calc x / j * 2 ^ p = x * 2 ^ p / j := by ring
      _ ≤ (t + d) / j := by gcongr
      _ = t / j + d / j := add_div ..
      _ ≤ (t / j : Nat) + (d / j + 1) := by linarith

/-- The product of two such numbers, cut down. -/
theorem mul (hx : Below p t x d) (hy : Below p u y c) (x0 : 0 ≤ x) (y0 : 0 ≤ y) : Below p (t * u / 2 ^ p) (x * y) (d * y + c * x + 1) := by
  obtain ⟨xl, xh⟩ := hx
  obtain ⟨yl, yh⟩ := hy
  obtain ⟨floor, near⟩ := floor_div_bounds (t * u) (show 0 < 2 ^ p by positivity)
  push_cast at floor near
  have unit : (0 : ℝ) < 2 ^ p := by positivity
  constructor
  · calc ((t * u / 2 ^ p : Nat) : ℝ) ≤ t * u / 2 ^ p := floor
      _ ≤ (x * 2 ^ p) * (y * 2 ^ p) / 2 ^ p := by gcongr
      _ = x * y * 2 ^ p := by field_simp
  · have lost : (x * 2 ^ p) * (y * 2 ^ p) - t * u ≤ d * (y * 2 ^ p) + (x * 2 ^ p) * c :=
      calc (x * 2 ^ p) * (y * 2 ^ p) - t * u = (x * 2 ^ p - t) * (y * 2 ^ p) + t * (y * 2 ^ p - u) := by ring
        _ ≤ d * (y * 2 ^ p) + (x * 2 ^ p) * c :=
          add_le_add (mul_le_mul_of_nonneg_right (by linarith) (by positivity))
            (mul_le_mul xl (by linarith) (by linarith) (by positivity))
    calc x * y * 2 ^ p = (x * 2 ^ p) * (y * 2 ^ p) / 2 ^ p := by field_simp
      _ ≤ (t * u + (d * (y * 2 ^ p) + (x * 2 ^ p) * c)) / 2 ^ p := by gcongr; linarith
      _ = t * u / 2 ^ p + (d * y + c * x) := by field_simp
      _ ≤ (t * u / 2 ^ p : Nat) + (d * y + c * x + 1) := by linarith

end Below

/-! ### The logarithm -/

/-- The sum of `n` terms of atanh ζ from term `k` on. -/
noncomputable def atanhSum (ζ : ℝ) (n k : Nat) : ℝ := ∑ i ∈ Finset.range n, ζ ^ (2 * (k + i) + 1) / (2 * (k + i : Nat) + 1)

theorem atanhSum_succ (ζ : ℝ) (n k : Nat) : atanhSum ζ (n + 1) k = ζ ^ (2 * k + 1) / (2 * k + 1 : Nat) + atanhSum ζ n (k + 1) := by
  unfold atanhSum
  rw [Finset.sum_range_succ', add_comm]
  simp [add_comm, add_left_comm]

theorem atanhTerms_below {p z2 : Nat} {ζ : ℝ} (ζ0 : 0 ≤ ζ) (ζ3 : ζ ≤ 1 / 3) (sq : Below p z2 (ζ ^ 2) 2) (n k zp : Nat)
    (term : Below p zp (ζ ^ (2 * k + 1)) 2) : Below p (atanhTerms p z2 n k zp) (atanhSum ζ n k) (3 * n) := by
  induction n generalizing k zp with
  | zero => simp [atanhTerms, atanhSum, Below]
  | succ n ih =>
    have small : ζ ^ (2 * k + 1) ≤ 1 / 3 := (pow_le_of_le_one ζ0 (by linarith) (by omega)).trans ζ3
    have small2 : ζ ^ 2 ≤ 1 / 9 := (pow_le_pow_left₀ ζ0 ζ3 2).trans_eq (by norm_num)
    have next : Below p (zp * z2 / 2 ^ p) (ζ ^ (2 * (k + 1) + 1)) 2 := by
      have := (term.mul sq (by positivity) (by positivity)).mono (c := 2) (by linarith)
      rwa [← pow_add] at this
    have here := (term.div (show 0 < 2 * k + 1 by omega)).mono (c := 3) (by
      have : (1 : ℝ) ≤ (2 * k + 1 : Nat) := by exact_mod_cast Nat.le_add_left 1 (2 * k)
      have := div_le_self (zero_le_two (α := ℝ)) this
      linarith)
    rw [atanhTerms, atanhSum_succ]
    refine (here.add (ih (k + 1) _ next)).mono (le_of_eq ?_)
    push_cast
    ring

/-- The series of 2 atanh ζ is cut where the rest is below a unit of 2^(−p). -/
theorem atanhSum_tail (p : Nat) {ζ : ℝ} (ζ0 : 0 ≤ ζ) (ζ3 : ζ ≤ 1 / 3) :
    atanhSum ζ (p / 3 + 4) 0 ≤ 1 / 2 * Real.log ((1 + ζ) / (1 - ζ)) ∧
      1 / 2 * Real.log ((1 + ζ) / (1 - ζ)) * 2 ^ p ≤ atanhSum ζ (p / 3 + 4) 0 * 2 ^ p + 1 := by
  have series : atanhSum ζ (p / 3 + 4) 0 = ∑ i ∈ Finset.range (p / 3 + 4), ζ ^ (2 * i + 1) / (2 * i + 1) := by
    unfold atanhSum; simp
  have small2 : ζ ^ 2 ≤ 1 / 9 := (pow_le_pow_left₀ ζ0 ζ3 2).trans_eq (by norm_num)
  rw [series]
  refine ⟨Real.sum_range_le_log_div ζ0 (by linarith) _, ?_⟩
  have upper := Real.log_div_le_sum_range_add ζ0 (show ζ < 1 by linarith) (p / 3 + 4)
  have rest : ζ ^ (2 * (p / 3 + 4) + 1) / (1 - ζ ^ 2) * 2 ^ p ≤ 1 := by
    rw [div_mul_eq_mul_div, div_le_one (by linarith)]
    calc ζ ^ (2 * (p / 3 + 4) + 1) * 2 ^ p = (ζ ^ 2) ^ (p / 3 + 4) * ζ * 2 ^ p := by rw [pow_succ, pow_mul]
      _ ≤ (1 / 8) ^ (p / 3 + 4) * (1 / 3) * 2 ^ (3 * (p / 3 + 4)) := by
        gcongr
        · linarith
        · norm_num
        · omega
      _ = (1 / 3) := by rw [pow_mul, mul_right_comm, ← mul_pow]; norm_num
      _ ≤ 1 - ζ ^ 2 := by linarith
  have unit : (0 : ℝ) < 2 ^ p := by positivity
  nlinarith

/-- `atanh2` from below: 2 atanh ζ = log ((1 + ζ) / (1 − ζ)). -/
theorem atanh2_below (p : Nat) {a b : Nat} (small : 3 * a ≤ b) (pos : 0 < b) :
    Below p (atanh2 p a b) (Real.log ((1 + (a : ℝ) / b) / (1 - (a : ℝ) / b))) (2 * p + 26) := by
  obtain ⟨ζ, hζ⟩ : ∃ ζ : ℝ, (a : ℝ) / b = ζ := ⟨_, rfl⟩
  have posb : (0 : ℝ) < b := by exact_mod_cast pos
  have ζ0 : 0 ≤ ζ := hζ ▸ by positivity
  have ζ3 : ζ ≤ 1 / 3 := by
    rw [← hζ, div_le_div_iff₀ posb (by norm_num), one_mul, mul_comm]
    exact_mod_cast small
  have start : Below p (a * 2 ^ p / b) ζ 1 := by
    obtain ⟨floor, near⟩ := floor_div_bounds (a * 2 ^ p) pos
    push_cast at floor near
    rw [mul_div_right_comm, hζ] at floor near
    exact ⟨floor, near⟩
  have square : Below p (a * 2 ^ p / b * (a * 2 ^ p / b) / 2 ^ p) (ζ ^ 2) 2 := by
    rw [sq]
    exact (start.mul start ζ0 ζ0).mono (by linarith)
  have terms := atanhTerms_below ζ0 ζ3 square (p / 3 + 4) 0 (a * 2 ^ p / b) (by simpa using start.mono one_le_two)
  obtain ⟨lower, upper⟩ := atanhSum_tail p ζ0 ζ3
  obtain ⟨below, near⟩ := terms
  have unit : (0 : ℝ) < 2 ^ p := by positivity
  have count : (3 : ℝ) * (p / 3 + 4 : Nat) ≤ p + 12 := by exact_mod_cast (by omega : 3 * (p / 3 + 4) ≤ p + 12)
  have scaled := mul_le_mul_of_nonneg_right lower unit.le
  rw [hζ]
  unfold atanh2
  constructor <;> push_cast <;> linarith

/-- `ln2` from below. -/
theorem ln2_below (p : Nat) : Below p (ln2 p) (Real.log 2) (2 * p + 26) := by
  have := atanh2_below p (a := 1) (b := 3) le_rfl (by norm_num)
  norm_num at this
  exact this

/-! ### The power of two -/

/-- The sum of `n` terms of e^η from term `k` on. -/
noncomputable def expSum (η : ℝ) (n k : Nat) : ℝ := ∑ i ∈ Finset.range n, η ^ (k + i) / (k + i).factorial

theorem expSum_succ (η : ℝ) (n k : Nat) : expSum η (n + 1) k = η ^ k / k.factorial + expSum η n (k + 1) := by
  unfold expSum
  rw [Finset.sum_range_succ', add_comm]
  simp [add_comm, add_left_comm]

theorem expTerms_below {p y : Nat} {η c B : ℝ} (η0 : 0 ≤ η) (η4 : η ≤ 3 / 4) (arg : Below p y η c) (c0 : 0 ≤ c)
    (room : 4 * (c + 2) ≤ B) (n k t : Nat) (term : Below p t (η ^ k / k.factorial) B) : Below p (expTerms p y n k t) (expSum η n k) (n * B) := by
  induction n generalizing k t with
  | zero => simp [expTerms, expSum, Below]
  | succ n ih =>
    have one : (1 : ℝ) ≤ (k + 1 : Nat) := by exact_mod_cast Nat.le_add_left 1 k
    have fact : (1 : ℝ) ≤ k.factorial := by exact_mod_cast Nat.factorial_pos k
    have small : η ^ k / k.factorial ≤ 1 := (div_le_one (by linarith)).2 ((pow_le_one₀ η0 (by linarith)).trans fact)
    have next : Below p (t * y / 2 ^ p / (k + 1)) (η ^ (k + 1) / (k + 1).factorial) B := by
      have step := ((term.mul arg (by positivity) η0).div (show 0 < k + 1 by omega)).mono (c := B) (by
        have num : B * η + c * (η ^ k / k.factorial) + 1 ≤ B * (3 / 4) + c + 1 := by
          have := mul_le_mul_of_nonneg_left small c0
          have := mul_le_mul_of_nonneg_left η4 (show 0 ≤ B by linarith)
          linarith
        have nonneg : 0 ≤ B * η + c * (η ^ k / k.factorial) + 1 := by
          have : 0 ≤ B := by linarith
          positivity
        have := div_le_self nonneg one
        linarith)
      have value : η ^ k / k.factorial * η / (k + 1 : Nat) = η ^ (k + 1) / (k + 1).factorial := by
        rw [Nat.factorial_succ, pow_succ]; push_cast; field_simp
      rwa [value] at step
    rw [expTerms, expSum_succ]
    refine (term.add (ih (k + 1) _ next)).mono (le_of_eq ?_)
    push_cast
    ring

end Sys2Proof.Machine
end

section
/-! SUPPORT. Rounding near a number, and the roundings of the enclosures of 2^x and log₂ x. -/

namespace Sys2Proof.Machine

open Sys2Proof

section
variable {f : Fmt} {r : Rnd} {sat s : Bool} {v w : ℝ} {y : Nat}

/-! ### Numbers near one another -/

/-- What is rounded near a number is what the number is rounded to, where all numbers near it round alike. -/
theorem roundsNear_of_roundsTo (h : RoundsTo f r sat s w y) (neg : v < 0 ↔ w < 0) (pos : 0 < v ↔ 0 < w)
    (low : |v| * (1 - 2 ^ (-50 : Int)) ≤ |w|) (high : |w| ≤ |v| * (1 + 2 ^ (-50 : Int))) : RoundsNear f r sat s v y := by
  obtain ⟨k, chosen, rfl⟩ := h
  have below : (0 : ℝ) < 1 - 2 ^ (-50 : Int) := by norm_num
  have above : (0 : ℝ) < 1 + 2 ^ (-50 : Int) := by norm_num
  intro n lower upper
  have le : n ≤ k := by
    refine chooses_mono lower chosen ?_ ?_ ?_
    · rw [← neg_pos, ← neg_mul, mul_pos_iff_of_pos_right below, neg_pos, neg]
    · rw [mul_pos_iff_of_pos_right below, pos]
    · rwa [abs_mul, abs_of_pos below]
  have ge : k ≤ n := by
    refine chooses_mono chosen upper ?_ ?_ ?_
    · rw [← neg_pos (a := v * _), ← neg_mul, mul_pos_iff_of_pos_right above, neg_pos, neg]
    · rw [mul_pos_iff_of_pos_right above, pos]
    · rwa [abs_mul, abs_of_pos above]
  rw [le_antisymm le ge]

theorem roundsNear_self (h : RoundsTo f r sat s v y) : RoundsNear f r sat s v y := by
  have nonneg := abs_nonneg v
  refine roundsNear_of_roundsTo h Iff.rfl Iff.rfl ?_ ?_ <;> norm_num <;> linarith

/-- A value held to 50 bits is rounded near its number. -/
theorem roundFmt_near (hf : f ∈ elementFormats) {x : ℝ} (pos : 0 < x) {m : Nat} {e : Int}
    (near : |(m : ℝ) * 2 ^ e - x| ≤ x * 2 ^ (-50 : Int)) :
    RoundsNear f r sat s (if s then -x else x) (roundFmt (.fin s m e) f r sat) := by
  obtain ⟨mantissa, small, e2m1⟩ := formats_round f (mem_formats hf)
  have rounds := roundFmt_roundsTo mantissa small e2m1 r sat s m e
  rw [ratOf_fin_real] at rounds
  rw [abs_le] at near
  have posw : 0 < (m : ℝ) * 2 ^ e := by norm_num at near; linarith
  refine roundsNear_of_roundsTo rounds ?_ ?_ ?_ ?_
  · rw [signed_neg_iff s pos, signed_neg_iff s posw]
  · rw [signed_pos_iff s pos, signed_pos_iff s posw]
  · rw [abs_signed s pos, abs_signed s posw]; linarith
  · rw [abs_signed s pos, abs_signed s posw]; linarith

/-! ### Numbers beyond the formats -/

theorem formats_range : ∀ f ∈ elementFormats, stepOf f (f.maxEnc + 1) ≤ 2 ^ 200 ∧ (2 : ℚ) ^ (-200 : Int) < middle f 0 := by
  intro f hf
  fin_cases hf <;> norm_num [stepOf, middle, Fmt.f32, Fmt.bf16, Fmt.f16, Fmt.e4m3, Fmt.e5m2]

/-- Two numbers go to the same encoding, where a step is chosen for each. -/
def Alike (f : Fmt) (r : Rnd) (sat s : Bool) (v w : ℝ) : Prop :=
  ∀ n m, Chooses f r v n → Chooses f r w m → delivered f r sat s n = delivered f r sat s m

theorem roundsTo_of_alike (alike : Alike f r sat s v w) (h : RoundsTo f r sat s w y) {y' : Nat} (some : RoundsTo f r sat s v y') :
    RoundsTo f r sat s v y := by
  obtain ⟨n, chosen, -⟩ := some
  obtain ⟨m, chosen', rfl⟩ := h
  exact ⟨n, chosen, (alike n m chosen chosen').symm⟩

/-- The least border above 0 is the middle before the first step. -/
theorem border_least {b : ℚ} (hb : Border f b) : b = 0 ∨ middle f 0 ≤ b := by
  have mono := (stepOf_strictMono f).monotone
  obtain ⟨k, rfl | rfl⟩ := hb
  · rcases Nat.eq_zero_or_pos k with rfl | pos
    · exact .inl (stepOf_zero f)
    · right
      have step := mono (Nat.succ_le_of_lt pos)
      have zeroth := mono (Nat.zero_le k)
      unfold middle
      linarith
  · right
    have step := mono (Nat.succ_le_succ (Nat.zero_le k))
    have zeroth := mono (Nat.zero_le k)
    unfold middle
    linarith

theorem roundsNear_of_alike (alike : Alike f r sat s (v * (1 - 2 ^ (-50 : Int))) w) (h : RoundsTo f r sat s w y) : RoundsNear f r sat s v y := by
  obtain ⟨m, chosen, rfl⟩ := h
  exact fun n lower _ => (alike n m lower chosen).symm

theorem beyond_of_huge (hf : f ∈ elementFormats) (huge : 2 ^ 200 ≤ v) {n : Nat} (h : Chooses f r v n) : f.maxEnc < n := by
  have pos : 0 < v := lt_of_lt_of_le (by positivity) huge
  have top : (stepOf f (f.maxEnc + 1) : ℝ) ≤ 2 ^ 200 := by exact_mod_cast (Rat.cast_le (K := ℝ)).2 (formats_range f hf).1
  have positive : (0 : ℝ) < stepOf f (f.maxEnc + 1) := by
    have := (Rat.cast_lt (K := ℝ)).2 (stepOf_strictMono f (Nat.succ_pos f.maxEnc))
    rwa [stepOf_zero, Rat.cast_zero] at this
  refine chooses_mono (v := (stepOf f (f.maxEnc + 1) : ℝ)) (.inl (abs_of_pos positive).symm) h ?_ ?_ ?_
  · exact iff_of_false positive.not_gt pos.not_gt
  · exact iff_of_true positive pos
  · rw [abs_of_pos positive, abs_of_pos pos]; exact top.trans huge

theorem alike_of_huge (hf : f ∈ elementFormats) (hv : 2 ^ 200 ≤ v) (hw : 2 ^ 200 ≤ w) : Alike f r sat s v w := by
  intro n m chosen chosen'
  unfold delivered
  rw [if_neg (beyond_of_huge hf hv chosen).not_ge, if_neg (beyond_of_huge hf hw chosen').not_ge]

theorem alike_of_tiny (hf : f ∈ elementFormats) (hv : 0 < v ∧ v ≤ 2 ^ (-200 : Int)) (hw : 0 < w ∧ w ≤ 2 ^ (-200 : Int)) :
    Alike f r sat s v w := by
  intro n m chosen chosen'
  have side : OneSide f v w := by
    refine ⟨iff_of_false hv.1.not_gt hw.1.not_gt, iff_of_true hv.1 hw.1, fun b hb => ?_⟩
    rw [abs_of_pos hv.1, abs_of_pos hw.1]
    rcases border_least hb with rfl | large
    · rw [Rat.cast_zero]
      exact ⟨iff_of_true hv.1 hw.1, iff_of_false hv.1.not_gt hw.1.not_gt⟩
    · have : (2 : ℝ) ^ (-200 : Int) < b := by simpa using (Rat.cast_lt (K := ℝ)).2 ((formats_range f hf).2.trans_le large)
      exact ⟨iff_of_false (by linarith) (by linarith), iff_of_true (by linarith) (by linarith)⟩
  rw [chooses_unique (chooses_of_oneSide side chosen) chosen']

end

/-! ### The enclosures -/

/-- One of the enclosures is rounded, at its lower end. -/
theorem roundEncl_lower (enc : Nat → Val × Val) (f : Fmt) (r : Rnd) (sat : Bool) (ps : List Nat) (large : ∀ p ∈ ps, 96 ≤ p) :
    ∃ p, 96 ≤ p ∧ roundEncl enc f r sat ps = roundFmt (enc p).1 f r sat := by
  induction ps with
  | nil => exact ⟨1024, by norm_num, rfl⟩
  | cons p ps ih =>
    rw [List.forall_mem_cons] at large
    unfold roundEncl
    dsimp only
    split
    · exact ⟨p, large.1, rfl⟩
    · exact ih large.2

/-- The errors of the sums are small beside 2^p, from p = 96 on. -/
theorem errors_small {p : Nat} (h : 96 ≤ p) : (80 * p + 4300) * 2 ^ 76 ≤ 2 ^ p ∧ (p + 16) * (4 * p + 58) * 2 ^ 76 ≤ 2 ^ p := by
  induction p, h using Nat.le_induction with
  | base => norm_num
  | succ p h ih =>
    have twice {a b c : Nat} (grow : a ≤ 2 * b) (bound : b * c ≤ 2 ^ p) : a * c ≤ 2 ^ (p + 1) :=
      calc a * c ≤ 2 * b * c := Nat.mul_le_mul_right _ grow
        _ = b * c * 2 := by ring
        _ ≤ 2 ^ p * 2 := Nat.mul_le_mul_right _ bound
    exact ⟨twice (by omega) ih.1, twice (by nlinarith) ih.2⟩

end Sys2Proof.Machine
end

section
/-! SUPPORT. 2^x and log₂ x as the model encloses them. -/

namespace Sys2Proof.Machine

open Sys2Proof

/-! ### The fraction of 2^x -/

theorem Below.part {p t : Nat} {x d : ℝ} (h : Below p t x d) (d0 : 0 ≤ d) {a b : Nat} (le : a ≤ 2 ^ b) :
    Below p (a * t / 2 ^ b) ((a : ℝ) / 2 ^ b * x) (d + 1) := by
  obtain ⟨low, high⟩ := h
  have share : (a : ℝ) / 2 ^ b ≤ 1 := (div_le_one (by positivity)).2 (by exact_mod_cast le)
  obtain ⟨floor, near⟩ := floor_div_bounds (a * t) (show 0 < 2 ^ b by positivity)
  push_cast at floor near
  constructor
  · calc ((a * t / 2 ^ b : Nat) : ℝ) ≤ a * t / 2 ^ b := floor
      _ = a / 2 ^ b * t := by ring
      _ ≤ a / 2 ^ b * (x * 2 ^ p) := by gcongr
      _ = a / 2 ^ b * x * 2 ^ p := by ring
  · calc (a : ℝ) / 2 ^ b * x * 2 ^ p = a / 2 ^ b * (x * 2 ^ p) := by ring
      _ ≤ a / 2 ^ b * (t + d) := by gcongr
      _ = a * t / 2 ^ b + a / 2 ^ b * d := by ring
      _ ≤ a * t / 2 ^ b + d := by gcongr; exact mul_le_of_le_one_left d0 share
      _ ≤ (a * t / 2 ^ b : Nat) + (d + 1) := by linarith

/-- The series of e^η from its first terms, for p ≥ 96. -/
theorem expSum_tail {p : Nat} (large : 96 ≤ p) {η : ℝ} (η0 : 0 ≤ η) (η1 : η ≤ 1) :
    expSum η (p / 2 + 8) 0 ≤ Real.exp η ∧ Real.exp η ≤ expSum η (p / 2 + 8) 0 + 2 ^ (-53 : Int) := by
  obtain ⟨n, hn⟩ : ∃ n, p / 2 + 8 = n + 1 := ⟨p / 2 + 7, rfl⟩
  have big : 55 ≤ n := by omega
  have series : expSum η (n + 1) 0 = ∑ i ∈ Finset.range (n + 1), η ^ i / i.factorial := by
    unfold expSum; simp
  rw [hn, series]
  refine ⟨Real.sum_le_exp_of_nonneg η0 _, (Real.exp_bound' η0 η1 (n := n + 1) (Nat.succ_pos n)).trans ?_⟩
  have fact : (2 : ℝ) ^ 55 ≤ (n + 1).factorial := by
    have := Nat.factorial_mul_pow_le_factorial (m := 1) (n := n)
    rw [Nat.factorial_one, one_mul, add_comm 1 n] at this
    exact_mod_cast (Nat.pow_le_pow_right two_pos big).trans this
  have rest : η ^ (n + 1) * ((n + 1 : Nat) + 1) / ((n + 1).factorial * (n + 1 : Nat)) ≤ 2 ^ (-53 : Int) := by
    have pos : (0 : ℝ) < (n + 1 : Nat) := by positivity
    have count : ((n + 1 : Nat) : ℝ) + 1 ≤ 2 * (n + 1 : Nat) := by push_cast; linarith
    calc η ^ (n + 1) * ((n + 1 : Nat) + 1) / ((n + 1).factorial * (n + 1 : Nat))
        ≤ 1 * (2 * (n + 1 : Nat)) / (2 ^ 55 * (n + 1 : Nat)) := by
          gcongr
          exact pow_le_one₀ η0 η1
      _ = 2 / 2 ^ 55 := by field_simp
      _ ≤ 2 ^ (-53 : Int) := by norm_num
  linarith

theorem exp2Frac_below {p a b : Nat} (large : 96 ≤ p) (le : a ≤ 2 ^ b) :
    (exp2Frac p a b : ℝ) ≤ (2 : ℝ) ^ ((a : ℝ) / 2 ^ b) * 2 ^ p ∧
      (2 : ℝ) ^ ((a : ℝ) / 2 ^ b) * 2 ^ p ≤ exp2Frac p a b + 2 ^ (-52 : Int) * 2 ^ p := by
  obtain ⟨η, hη⟩ : ∃ η, (a : ℝ) / 2 ^ b * Real.log 2 = η := ⟨_, rfl⟩
  have log0 : 0 < Real.log 2 := Real.log_pos one_lt_two
  have log4 : Real.log 2 ≤ 3 / 4 := by have := Real.log_two_lt_d9; linarith
  have share : (a : ℝ) / 2 ^ b ≤ 1 := (div_le_one (by positivity)).2 (by exact_mod_cast le)
  have η0 : 0 ≤ η := hη ▸ by positivity
  have η4 : η ≤ 3 / 4 := hη ▸ (mul_le_of_le_one_left log0.le share).trans log4
  have power : (2 : ℝ) ^ ((a : ℝ) / 2 ^ b) = Real.exp η := by rw [Real.rpow_def_of_pos two_pos, mul_comm, hη]
  have arg := (ln2_below p).part (by positivity) le
  rw [hη] at arg
  obtain ⟨lower, upper⟩ := expTerms_below (B := 4 * (2 * p + 29)) η0 η4 arg (by positivity) (by linarith) (p / 2 + 8) 0 (2 ^ p)
    (by constructor <;> simp; positivity)
  obtain ⟨sum, rest⟩ := expSum_tail large η0 (η4.trans (by norm_num))
  have unit : (0 : ℝ) < 2 ^ p := by positivity
  have small : ((p / 2 + 8 : Nat) : ℝ) * (4 * (2 * p + 29)) ≤ 2 ^ (-53 : Int) * 2 ^ p := by
    have half : (p / 2 + 8 : Nat) * (4 * (2 * p + 29)) ≤ (p + 16) * (4 * p + 58) := by
      calc (p / 2 + 8) * (4 * (2 * p + 29)) = (2 * (p / 2 + 8)) * (4 * p + 58) := by ring
        _ ≤ _ := Nat.mul_le_mul_right _ (by omega)
    have bound : (((p / 2 + 8) * (4 * (2 * p + 29)) * 2 ^ 76 : Nat) : ℝ) ≤ (2 ^ p : Nat) :=
      by exact_mod_cast (Nat.mul_le_mul_right _ half).trans (errors_small large).2
    push_cast at bound ⊢
    norm_num at bound ⊢
    linarith
  have sum' := mul_le_mul_of_nonneg_right sum unit.le
  have rest' := mul_le_mul_of_nonneg_right rest unit.le
  rw [add_mul] at rest'
  have halves : (2 : ℝ) ^ (-52 : Int) * 2 ^ p = 2 ^ (-53 : Int) * 2 ^ p + 2 ^ (-53 : Int) * 2 ^ p := by norm_num; ring
  have frac : exp2Frac p a b = expTerms p (a * ln2 p / 2 ^ b) (p / 2 + 8) 0 (2 ^ p) := rfl
  rw [power, frac]
  constructor <;> linarith

/-- The lower end of the enclosure of 2^(n + a/2^b). -/
theorem exp2_end_near {p a b : Nat} (large : 96 ≤ p) (le : a ≤ 2 ^ b) (n : Int) :
    |((2 * exp2Frac p a b + 1 : Nat) : ℝ) * 2 ^ (n - p - 1) - (2 : ℝ) ^ ((n : ℝ) + (a : ℝ) / 2 ^ b)| ≤
      (2 : ℝ) ^ ((n : ℝ) + (a : ℝ) / 2 ^ b) * 2 ^ (-50 : Int) := by
  obtain ⟨lower, upper⟩ := exp2Frac_below large le
  have one : (1 : ℝ) ≤ (2 : ℝ) ^ ((a : ℝ) / 2 ^ b) := Real.one_le_rpow one_le_two (by positivity)
  rw [Real.rpow_add two_pos, Real.rpow_intCast, zpow_sub_one₀ two_ne_zero, zpow_sub₀ two_ne_zero, zpow_natCast]
  generalize (2 : ℝ) ^ ((a : ℝ) / 2 ^ b) = x at *
  have scale : (0 : ℝ) < 2 ^ n := zpow_pos two_pos n
  have unit : (0 : ℝ) < 2 ^ p := by positivity
  have fine : (2 : ℝ) ^ 52 ≤ 2 ^ p := pow_le_pow_right₀ one_le_two (by omega)
  have split : ((2 * exp2Frac p a b + 1 : Nat) : ℝ) * (2 ^ n / 2 ^ p * 2⁻¹) - 2 ^ n * x =
      2 ^ n * ((exp2Frac p a b + 1 / 2 - x * 2 ^ p) / 2 ^ p) := by push_cast; field_simp
  rw [split, abs_mul, abs_of_pos scale, mul_assoc]
  refine mul_le_mul_of_nonneg_left ?_ scale.le
  rw [abs_div, abs_of_pos unit, div_le_iff₀ unit, abs_le]
  norm_num at upper ⊢
  constructor <;> nlinarith

/-! ### The logarithm of a mantissa -/

/-- log₂ (m / 2^k) in units of 2^(−p), as `log2Round` takes it. -/
def log2Frac (p m k : Nat) : Nat := atanh2 p (m - 2 ^ k) (m + 2 ^ k) * 2 ^ p / (ln2 p + p + 64)

/-- A quotient of two cut numbers, `a` of x × c and `d` of c in `u` units, with the model's allowance for what `d` falls short. -/
theorem quotient_near {p l a d u x c : ℝ} (p0 : 96 ≤ p) (fine : (p + 16) * (4 * p + 58) ≤ u) (half : 2 / 3 ≤ c) (x0 : 0 ≤ x) (x1 : x ≤ 1)
    (num_low : a ≤ x * c * u) (num_high : x * c * u ≤ a + (2 * p + 26)) (den_low : d ≤ c * u) (den_high : c * u ≤ d + (2 * p + 26))
    (floor : l ≤ a * u / (d + p + 64)) (near : a * u / (d + p + 64) ≤ l + 1) : x * u - (6 * p + 182) ≤ l ∧ l ≤ x * u + 2 * p := by
  have unit : 0 < u := by nlinarith
  have wide : u ≤ 2 * (d + p + 64) := by
    have logu := mul_le_mul_of_nonneg_right half unit.le
    have big : 100 * p ≤ u := by nlinarith
    linarith
  have den0 : 0 < d + p + 64 := by linarith
  rw [div_le_iff₀ den0] at near
  rw [le_div_iff₀ den0] at floor
  have xu0 : 0 ≤ x * u := by positivity
  have xu : x * u ≤ u := mul_le_of_le_one_left unit.le x1
  constructor
  · have product : x * u * (d + p + 64) ≤ (l + 1) * (d + p + 64) + (3 * p + 90) * u :=
      calc x * u * (d + p + 64) = x * u * d + x * u * (p + 64) := by ring
        _ ≤ x * u * (c * u) + u * (p + 64) := by gcongr
        _ = (x * c * u) * u + (p + 64) * u := by ring
        _ ≤ (a + (2 * p + 26)) * u + (p + 64) * u := by gcongr
        _ ≤ (l + 1) * (d + p + 64) + (3 * p + 90) * u := by linarith
    have rest : (3 * p + 90) * u ≤ (3 * p + 90) * (2 * (d + p + 64)) := by gcongr
    have := le_of_mul_le_mul_right (show x * u * (d + p + 64) ≤ (l + 1 + (6 * p + 180)) * (d + p + 64) by linarith) den0
    linarith
  · refine le_of_mul_le_mul_right ?_ den0
    calc l * (d + p + 64) ≤ a * u := floor
      _ ≤ x * c * u * u := by gcongr
      _ = x * u * (c * u) := by ring
      _ ≤ x * u * (d + p + 64 + p) := by gcongr; linarith
      _ = x * u * (d + p + 64) + x * u * p := by ring
      _ ≤ x * u * (d + p + 64) + 2 * (d + p + 64) * p := 
        add_le_add le_rfl (mul_le_mul_of_nonneg_right (xu.trans wide) (by linarith))
      _ = (x * u + 2 * p) * (d + p + 64) := by ring

section
variable {p m k : Nat} (above : 2 ^ k < m) (below : m < 2 ^ (k + 1))
include above

/-- The argument that `log2Round` gives atanh stands for the mantissa. -/
theorem mantissa_quotient :
    (1 + ((m - 2 ^ k : Nat) : ℝ) / (m + 2 ^ k : Nat)) / (1 - ((m - 2 ^ k : Nat) : ℝ) / (m + 2 ^ k : Nat)) = m / 2 ^ k := by
  have pow0 : (0 : ℝ) < 2 ^ k := by positivity
  have sum0 : (0 : ℝ) < (m : ℝ) + 2 ^ k := by positivity
  rw [Nat.cast_sub above.le]
  push_cast
  rw [div_eq_div_iff (by rw [sub_ne_zero, ne_comm, ne_eq, div_eq_one_iff_eq sum0.ne']; linarith) pow0.ne']
  field_simp
  ring

include below

theorem log2Frac_near (large : 96 ≤ p) :
    Real.logb 2 (m / 2 ^ k) * 2 ^ p - (6 * p + 182) ≤ log2Frac p m k ∧ (log2Frac p m k : ℝ) ≤ Real.logb 2 (m / 2 ^ k) * 2 ^ p + 2 * p := by
  have pow0 : (0 : ℝ) < 2 ^ k := by positivity
  have above' : (2 : ℝ) ^ k < m := by exact_mod_cast above
  have below' : (m : ℝ) < 2 * 2 ^ k := by rw [pow_succ'] at below; exact_mod_cast below
  have third : 3 * (m - 2 ^ k) ≤ m + 2 ^ k := by rw [pow_succ] at below; omega
  obtain ⟨num_low, num_high⟩ := atanh2_below p third (by omega)
  obtain ⟨den_low, den_high⟩ := ln2_below p
  obtain ⟨floor, near⟩ := floor_div_bounds (atanh2 p (m - 2 ^ k) (m + 2 ^ k) * 2 ^ p) (show 0 < ln2 p + p + 64 by omega)
  push_cast at floor near
  have log0 : 0 < Real.log 2 := Real.log_pos one_lt_two
  have half : 2 / 3 ≤ Real.log 2 := by have := Real.log_two_gt_d9; linarith
  have value : Real.log (m / 2 ^ k) = Real.logb 2 (m / 2 ^ k) * Real.log 2 := by rw [Real.logb, div_mul_cancel₀ _ log0.ne']
  have x0 : 0 ≤ Real.logb 2 (m / 2 ^ k) := Real.logb_nonneg one_lt_two ((one_le_div pow0).2 above'.le)
  have x1 : Real.logb 2 (m / 2 ^ k) ≤ 1 := by
    rw [Real.logb_le_iff_le_rpow one_lt_two (div_pos (pow0.trans above') pow0), Real.rpow_one, div_le_iff₀ pow0]
    exact below'.le
  have fine : ((p : ℝ) + 16) * (4 * p + 58) ≤ 2 ^ p := by
    exact_mod_cast (Nat.le_mul_of_pos_right _ (by positivity)).trans (errors_small large).2
  rw [mantissa_quotient above, value] at num_low num_high
  exact quotient_near (by exact_mod_cast large) fine half x0 x1 num_low num_high den_low den_high floor near

/-- The logarithm of a mantissa is no nearer than 2^(−25) to an integer. -/
theorem logb_mantissa (short : k ≤ 24) :
    (2 : ℝ) ^ (-25 : Int) ≤ Real.logb 2 (m / 2 ^ k) ∧ Real.logb 2 (m / 2 ^ k) ≤ 1 - 2 ^ (-25 : Int) := by
  have pow0 : (0 : ℝ) < 2 ^ k := by positivity
  have m0 : (0 : ℝ) < m := by exact_mod_cast (Nat.zero_le _).trans_lt above
  have above' : (2 : ℝ) ^ k + 1 ≤ m := by exact_mod_cast above
  have below' : (m : ℝ) + 1 ≤ 2 * 2 ^ k := by rw [pow_succ'] at below; exact_mod_cast below
  have short' : (2 : ℝ) * 2 ^ k ≤ 2 ^ 25 := by rw [← pow_succ']; exact pow_le_pow_right₀ one_le_two (by omega)
  have log0 : 0 < Real.log 2 := Real.log_pos one_lt_two
  have log1 : Real.log 2 ≤ 1 := by have := Real.log_two_lt_d9; linarith
  have gap {y : ℝ} (pos : 0 < y) (far : y⁻¹ ≤ 1 - 2 ^ (-25 : Int)) : (2 : ℝ) ^ (-25 : Int) ≤ Real.logb 2 y := by
    have least : (2 : ℝ) ^ (-25 : Int) ≤ Real.log y := (le_sub_comm.1 far).trans (Real.one_sub_inv_le_log_of_pos pos)
    have nonneg : 0 ≤ Real.log y := le_trans (by positivity) least
    calc (2 : ℝ) ^ (-25 : Int) ≤ Real.log y := least
      _ ≤ Real.log y / Real.log 2 := le_div_self nonneg log0 log1
  have unit : (2 : ℝ) ^ (-25 : Int) = 1 / 2 ^ 25 := by norm_num
  constructor
  · refine gap (by positivity) ?_
    rw [inv_div, unit, div_le_iff₀ m0, sub_mul, one_mul, div_mul_eq_mul_div, one_mul]
    have : (m : ℝ) / 2 ^ 25 ≤ 1 := (div_le_one (by positivity)).2 (by linarith)
    linarith
  · have other := gap (y := 2 * 2 ^ k / m) (by positivity) (by
      rw [inv_div, unit, div_le_iff₀ (by positivity), sub_mul, one_mul, div_mul_eq_mul_div, one_mul]
      have : (2 : ℝ) * 2 ^ k / 2 ^ 25 ≤ 1 := (div_le_one (by positivity)).2 short'
      linarith)
    have split : (2 : ℝ) * 2 ^ k / m = 2 / (m / 2 ^ k) := by field_simp
    rw [split, Real.logb_div two_ne_zero (by positivity), Real.logb_self_eq_one one_lt_two] at other
    linarith

end

end Sys2Proof.Machine
end

section
/-! The obligation of R102's special operands, and of 2^x and log₂ x. -/

namespace Sys2Proof.Machine

open Sys2Proof

/-! ### The logarithm (R102) -/

section
variable {m : Nat}

theorem bitLen_eq (pos : m ≠ 0) : bitLen m = Nat.log2 m + 1 := by rw [bitLen, if_neg pos]

theorem log2Round_power (e : Int) (f : Fmt) (r : Rnd) (sat : Bool) (k : Nat) :
    log2Round (2 ^ k) e f r sat = roundFmt (.fin (decide (e + k < 0)) (e + k).natAbs 0) f r sat := by
  have len : bitLen (2 ^ k) - 1 = k := by rw [bitLen_eq (by positivity), Nat.log2_two_pow, Nat.add_sub_cancel]
  unfold log2Round
  dsimp only
  rw [len, if_pos rfl]

/-- The lower end of the enclosure of log₂ (m × 2^e), where `n` is its integer part and k the place of the first bit of m. -/
def log2End (m k : Nat) (n : Int) (p : Nat) : Val :=
  if 0 ≤ n then .fin false (2 * log2Frac p m k + 1 + n.toNat * 2 ^ (p + 1)) (-(p : Int) - 1)
  else .fin true (2 * (n.natAbs * 2 ^ p - log2Frac p m k - slack p) + 1) (-(p : Int) - 1)

/-- Where m is no power of two, log₂ is rounded from one of its enclosures. -/
theorem log2Round_enclosed {k : Nat} (above : 2 ^ k < m) (below : m < 2 ^ (k + 1)) (e : Int) (f : Fmt) (r : Rnd) (sat : Bool) :
    ∃ p, 96 ≤ p ∧ log2Round m e f r sat = roundFmt (log2End m k (e + k) p) f r sat := by
  have m0 : m ≠ 0 := by omega
  have len : bitLen m - 1 = k := by
    rw [bitLen_eq m0, Nat.add_sub_cancel, Nat.log2_eq_iff m0]
    exact ⟨above.le, below⟩
  unfold log2Round
  dsimp only
  rw [len, if_neg above.ne']
  obtain ⟨p, large, lower⟩ := roundEncl_lower _ f r sat [96, 256, 512] (by decide)
  refine ⟨p, large, lower.trans ?_⟩
  unfold log2End log2Frac
  by_cases nonneg : 0 ≤ e + (k : Int)
  · simp only [nonneg, if_true, ends, zero_sub]
  · simp only [nonneg, if_false]

/-- An end of an enclosure, an odd multiple of half a unit, is near a number that is not too small beside the errors of the sums. -/
theorem near_of_units {p a : Nat} (large : 96 ≤ p) {y : ℝ} (y0 : (2 : ℝ) ^ (-25 : Int) ≤ y) (least : y * 2 ^ p - (80 * p + 4300) ≤ a / 2)
    (most : (a : ℝ) / 2 ≤ y * 2 ^ p + (80 * p + 4300)) : |(a : ℝ) * 2 ^ (-(p : Int) - 1) - y| ≤ y * 2 ^ (-50 : Int) := by
  have unit : (0 : ℝ) < 2 ^ p := by positivity
  have errors : (80 * (p : ℝ) + 4300) * 2 ^ 76 ≤ 2 ^ p := by exact_mod_cast (errors_small large).1
  have split : (a : ℝ) * 2 ^ (-(p : Int) - 1) - y = (a / 2 - y * 2 ^ p) / 2 ^ p := by
    rw [zpow_sub_one₀ two_ne_zero, zpow_neg, zpow_natCast]; field_simp
  rw [split, abs_div, abs_of_pos unit, div_le_iff₀ unit, abs_le]
  norm_num at y0 ⊢
  constructor <;> nlinarith

variable {k p : Nat} (above : 2 ^ k < m) (below : m < 2 ^ (k + 1)) (short : k ≤ 24) (large : 96 ≤ p)
include above below short large

/-- The lower end is as near as the statement asks, on both sides of 0. -/
theorem log2End_near (n : Int) : ∃ a : Nat, log2End m k n p = .fin (decide (n < 0)) a (-(p : Int) - 1) ∧
    |(a : ℝ) * 2 ^ (-(p : Int) - 1) - abs (n + Real.logb 2 (m / 2 ^ k))| ≤ abs (n + Real.logb 2 (m / 2 ^ k)) * 2 ^ (-50 : Int) := by
  obtain ⟨low, high⟩ := log2Frac_near above below large
  obtain ⟨x_low, x_high⟩ := logb_mantissa above below short
  unfold log2End
  by_cases nonneg : 0 ≤ n
  · obtain ⟨j, rfl⟩ := Int.eq_ofNat_of_zero_le nonneg
    have j0 : (0 : ℝ) ≤ j := j.cast_nonneg
    refine ⟨2 * log2Frac p m k + 1 + j * 2 ^ (p + 1), ?_, ?_⟩
    · rw [if_pos nonneg, decide_eq_false (by omega), Int.toNat_natCast]
    · rw [Int.cast_natCast, abs_of_nonneg (add_nonneg j0 (le_trans (by positivity) x_low))]
      refine near_of_units large (by linarith) ?_ ?_ <;> push_cast <;> rw [pow_succ] <;> linarith
  · obtain ⟨j, hj⟩ : ∃ j : Nat, n = -(j + 1 : Nat) := ⟨n.natAbs - 1, by omega⟩
    have size : n.natAbs = j + 1 := by omega
    have j0 : (0 : ℝ) ≤ j := j.cast_nonneg
    have slackp : ((slack p : Nat) : ℝ) = 64 * (p + 64) := by unfold slack; push_cast; ring
    have room : log2Frac p m k + slack p ≤ (j + 1) * 2 ^ p := by
      have : (log2Frac p m k : ℝ) + slack p ≤ (j + 1) * 2 ^ p := by
        have errors : (80 * (p : ℝ) + 4300) * 2 ^ 76 ≤ 2 ^ p := by exact_mod_cast (errors_small large).1
        rw [slackp]
        norm_num at x_high
        nlinarith
      exact_mod_cast this
    refine ⟨2 * (n.natAbs * 2 ^ p - log2Frac p m k - slack p) + 1, ?_, ?_⟩
    · rw [if_neg nonneg, decide_eq_true (by omega)]
    · have value : |(n : ℝ) + Real.logb 2 (m / 2 ^ k)| = j + 1 - Real.logb 2 (m / 2 ^ k) := by
        rw [hj, abs_of_nonpos (by push_cast; norm_num at x_high; linarith)]
        push_cast
        ring
      rw [value, size, Nat.sub_sub]
      refine near_of_units large (by linarith) ?_ ?_ <;> push_cast [Nat.cast_sub room, slackp] <;> linarith

end

section
variable {f : Fmt} {r : Rnd} {sat : Bool} {x : Nat}

theorem flog2Bits_fin {m : Nat} {e : Int} (fin : f.value x = .fin false m e) (nonzero : m ≠ 0) :
    flog2Bits f r sat x = log2Round m e f r sat := by
  simp [flog2Bits, fin, nonzero]

/-- A power of two as m × 2^e has a power of two as its m. -/
theorem power_of_ratOf {m : Nat} {e n : Int} (power : (m : ℚ) * 2 ^ e = 2 ^ n) : ∃ k : Nat, m = 2 ^ k ∧ e + k = n := by
  have m_eq : (m : ℚ) = 2 ^ (n - e) := by
    rw [zpow_sub₀ two_ne_zero, eq_div_iff (zpow_ne_zero _ two_ne_zero)]
    exact power
  rcases le_or_gt e n with le | gt
  · obtain ⟨k, hk⟩ := Int.le.dest le
    refine ⟨k, ?_, hk⟩
    rw [← hk, add_sub_cancel_left, zpow_natCast] at m_eq
    exact_mod_cast m_eq
  · have small : (m : ℚ) < 1 := by rw [m_eq]; exact zpow_lt_one_of_neg₀ one_lt_two (by omega)
    have zero : m = 0 := Nat.lt_one_iff.1 (by exact_mod_cast small)
    rw [zero, Nat.cast_zero] at m_eq
    exact absurd m_eq.symm (zpow_ne_zero _ two_ne_zero)

theorem roundFmt_int (hf : f ∈ elementFormats) (n : Int) (r : Rnd) (sat : Bool) :
    RoundsTo f r sat (decide (n < 0)) (n : ℝ) (roundFmt (.fin (decide (n < 0)) n.natAbs 0) f r sat) := by
  obtain ⟨mantissa, small, e2m1⟩ := formats_round f (mem_formats hf)
  have rounds := roundFmt_roundsTo mantissa small e2m1 r sat (decide (n < 0)) n.natAbs 0
  rwa [ratOf_units, zpow_zero, mul_one, Rat.cast_intCast] at rounds

/-- log₂ of a power of two (R102). -/
theorem flog2Bits_power {s : Bool} {m : Nat} {e n : Int} (fin : f.value x = .fin s m e)
    (power : ratOf (f.value x) = (2 : ℚ) ^ n) :
    flog2Bits f r sat x = roundFmt (.fin (decide (n < 0)) n.natAbs 0) f r sat := by
  have pos : (0 : ℚ) < ratOf (f.value x) := power ▸ zpow_pos two_pos n
  obtain rfl : s = false := positive_of_ratOf fin (by exact_mod_cast pos)
  rw [fin, ratOf_fin, if_neg Bool.false_ne_true] at power
  obtain ⟨k, rfl, rfl⟩ := power_of_ratOf power
  rw [flog2Bits_fin fin (by positivity), log2Round_power]

/-- log₂ of a positive number (R102). -/
theorem flog2Bits_near (hf : f ∈ elementFormats) {m : Nat} {e : Int} (fin : f.value x = .fin false m e) (nonzero : m ≠ 0) :
    RoundsNear f r sat (decide (ratOf (f.value x) < 1)) (Real.logb 2 ((ratOf (f.value x) : ℚ) : ℝ)) (flog2Bits f r sat x) := by
  obtain ⟨k, hk⟩ : ∃ k, Nat.log2 m = k := ⟨_, rfl⟩
  have low : 2 ^ k ≤ m := hk ▸ Nat.log2_self_le nonzero
  have below : m < 2 ^ (k + 1) := hk ▸ Nat.lt_log2_self
  rcases low.lt_or_eq with above | eq
  · have short : k ≤ 24 := by
      have upper : m < 2 ^ (f.man + 1) := (value_fin_eq fin).2.1 ▸ (units_bounds f (f.mag x)).1
      have := (Nat.pow_lt_pow_iff_right (a := 2) (by norm_num)).1 (low.trans_lt upper)
      have := (format_facts f hf).1
      omega
    have pow0 : (0 : ℝ) < 2 ^ k := by positivity
    have m0 : (0 : ℝ) < m := by exact_mod_cast Nat.pos_of_ne_zero nonzero
    have value : ((ratOf (f.value x) : ℚ) : ℝ) = 2 ^ (e + k) * (m / 2 ^ k) := by
      rw [fin, ratOf_fin_real, zpow_add₀ two_ne_zero, zpow_natCast]
      field_simp
      rfl
    have log : Real.logb 2 ((ratOf (f.value x) : ℚ) : ℝ) = (e + k : Int) + Real.logb 2 (m / 2 ^ k) := by
      rw [value, Real.logb_mul (zpow_ne_zero _ two_ne_zero) (by positivity), ← Real.rpow_intCast, Real.logb_rpow two_pos (by norm_num)]
    obtain ⟨p, large, bits⟩ := log2Round_enclosed above below e f r sat
    obtain ⟨a, shape, near⟩ := log2End_near above below short large (e + k)
    obtain ⟨x_low, x_high⟩ := logb_mantissa above below short
    norm_num at x_low x_high
    have part : (((e + k : Int) : ℝ) + Real.logb 2 (m / 2 ^ k) < 0 ↔ e + k < 0) ∧ ((e + k : Int) : ℝ) + Real.logb 2 (m / 2 ^ k) ≠ 0 := by
      by_cases neg : e + k < 0
      · have : ((e + k : Int) : ℝ) ≤ -1 := by exact_mod_cast (by omega : e + (k : Int) ≤ -1)
        exact ⟨iff_of_true (by linarith) neg, by linarith⟩
      · have : (0 : ℝ) ≤ ((e + k : Int) : ℝ) := by exact_mod_cast not_lt.1 neg
        exact ⟨iff_of_false (by linarith) neg, by linarith⟩
    have sign : ratOf (f.value x) < 1 ↔ e + k < 0 := by
      rw [← part.1, ← log, Real.logb_neg_iff one_lt_two (by rw [value]; positivity)]
      exact_mod_cast Iff.rfl
    rw [flog2Bits_fin fin nonzero, bits, shape, log]
    simp only [sign]
    have rounds := roundFmt_near (r := r) (sat := sat) (s := decide (e + k < 0)) hf (abs_pos.2 part.2) near
    have signed : (if decide (e + k < 0) = true then -|((e + k : Int) : ℝ) + Real.logb 2 (m / 2 ^ k)|
        else |((e + k : Int) : ℝ) + Real.logb 2 (m / 2 ^ k)|) = ((e + k : Int) : ℝ) + Real.logb 2 (m / 2 ^ k) := by
      simp only [decide_eq_true_eq, ← part.1]
      split
      · rename_i neg
        rw [abs_of_neg neg, neg_neg]
      · rename_i nonneg
        exact abs_of_nonneg (not_lt.1 nonneg)
    rwa [signed] at rounds
  · have power : ratOf (f.value x) = (2 : ℚ) ^ (e + (k : Int)) := by
      rw [fin, ratOf_fin, if_neg Bool.false_ne_true, ← eq, zpow_add₀ two_ne_zero, zpow_natCast]
      push_cast
      ring
    have log : Real.logb 2 ((ratOf (f.value x) : ℚ) : ℝ) = ((e + k : Int) : ℝ) := by
      rw [power, Rat.cast_zpow, Rat.cast_ofNat, ← Real.rpow_intCast, Real.logb_rpow two_pos (by norm_num)]
    have sign : ratOf (f.value x) < 1 ↔ e + (k : Int) < 0 := by rw [power, zpow_lt_one_iff_right₀ one_lt_two]
    rw [flog2Bits_power fin power, log]
    simp only [sign]
    exact roundsNear_self (roundFmt_int hf _ r sat)

end

/-! ### The power of two (R102) -/

/-- An integer and a fraction are no integer. -/
theorem fraction_not_int {n n' : Int} {a b : Nat} (pos : 0 < a) (lt : a < 2 ^ b) : (n : ℚ) + (a : ℚ) / 2 ^ b ≠ n' := by
  intro eq
  have unit : (0 : ℚ) < 2 ^ b := by positivity
  have low : (0 : ℚ) < (a : ℚ) / 2 ^ b := div_pos (by exact_mod_cast pos) unit
  have high : (a : ℚ) / 2 ^ b < 1 := (div_lt_one unit).2 (by exact_mod_cast lt)
  have above : (n : ℚ) < n' := by linarith
  have below : (n' : ℚ) < (n + 1 : Int) := by push_cast; linarith
  have above' : n < n' := by exact_mod_cast above
  have below' : n' < n + 1 := by exact_mod_cast below
  omega

theorem le_of_long {m : Nat} {e : Int} (nonzero : m ≠ 0) (long : e + (bitLen m : Int) > 12) : (4096 : ℚ) ≤ m * 2 ^ e := by
  have bottom : (2 : ℚ) ^ bitLen m ≤ 2 * m := by exact_mod_cast two_pow_bitLen_le nonzero
  have scaled := mul_le_mul_of_nonneg_right bottom (zpow_pos (two_pos (α := ℚ)) e).le
  have high : (2 : ℚ) ^ (13 : Int) ≤ 2 ^ ((bitLen m : Int) + e) := zpow_le_zpow_right₀ one_le_two (by omega)
  rw [zpow_add₀ two_ne_zero, zpow_natCast] at high
  norm_num at high
  linarith

/-- A number with an exponent below 0: integer part and fraction. -/
theorem integer_and_fraction (m b : Nat) : (m : ℚ) * 2 ^ (-(b : Int)) = (m / 2 ^ b : Nat) + ((m % 2 ^ b : Nat) : ℚ) / 2 ^ b := by
  have unit : (0 : ℚ) < 2 ^ b := by positivity
  have : (m : ℚ) = 2 ^ b * (m / 2 ^ b : Nat) + (m % 2 ^ b : Nat) := by exact_mod_cast (Nat.div_add_mod m (2 ^ b)).symm
  rw [zpow_neg, zpow_natCast, ← div_eq_mul_inv, div_eq_iff unit.ne', add_mul, div_mul_cancel₀ _ unit.ne', mul_comm _ ((2 : ℚ) ^ b)]
  exact this

/-- The value that `exp2Round` rounds for a finite operand `q`: 2^n for an integer, a power of two beyond every format for an operand of
4096 and more, and the lower end of an enclosure for others. -/
def Exp2Rounds (f : Fmt) (r : Rnd) (sat : Bool) (q : ℚ) (y : Nat) : Prop :=
  (∃ n : Int, q = n ∧ y = roundFmt (.fin false 1 n) f r sat) ∨
  (4096 ≤ q ∧ y = roundFmt (.fin false 1 4096) f r sat) ∨ (q ≤ -4096 ∧ y = roundFmt (.fin false 1 (-4096)) f r sat) ∨
  ∃ (n : Int) (a b p : Nat), 0 < a ∧ a < 2 ^ b ∧ q = n + (a : ℚ) / 2 ^ b ∧ 96 ≤ p ∧
    y = roundFmt (.fin false (2 * exp2Frac p a b + 1) (n - p - 1)) f r sat

section
variable (f : Fmt) (r : Rnd) (sat : Bool)

/-- An operand with a fraction, of either sign. -/
theorem exp2Rounds_fraction (s : Bool) (i : Nat) {a b : Nat} (pos : a ≠ 0) (bound : a < 2 ^ b) :
    Exp2Rounds f r sat (if s then -((i : ℚ) + (a : ℚ) / 2 ^ b) else (i : ℚ) + (a : ℚ) / 2 ^ b)
      (let (n, c) : Int × Nat := if s then (-(i : Int) - 1, 2 ^ b - a) else ((i : Int), a)
       roundEncl (fun p => ends (exp2Frac p c b) p n false) f r sat [96, 256, 512]) := by
  right; right; right
  cases s
  · obtain ⟨p, large, lower⟩ := roundEncl_lower (fun p => ends (exp2Frac p a b) p i false) f r sat [96, 256, 512] (by decide)
    exact ⟨i, a, b, p, Nat.pos_of_ne_zero pos, bound, by simp, large, lower⟩
  · obtain ⟨p, large, lower⟩ := roundEncl_lower (fun p => ends (exp2Frac p (2 ^ b - a) b) p (-(i : Int) - 1) false) f r sat [96, 256, 512]
      (by decide)
    refine ⟨-(i : Int) - 1, 2 ^ b - a, b, p, by omega, by omega, ?_, large, lower⟩
    have unit : (0 : ℚ) < 2 ^ b := by positivity
    rw [if_pos rfl, Nat.cast_sub bound.le]
    push_cast
    field_simp
    ring

theorem exp2Round_rounds (s : Bool) (m : Nat) (e : Int) : Exp2Rounds f r sat (ratOf (.fin s m e)) (exp2Round (.fin s m e) f r sat) := by
  unfold exp2Round
  dsimp only
  split
  · rename_i zero
    exact .inl ⟨0, by simp [ratOf_fin, zero], rfl⟩
  rename_i nonzero
  split
  · rename_i huge
    have large := le_of_long nonzero huge
    rw [ratOf_fin]
    cases s
    · exact .inr (.inl ⟨large, rfl⟩)
    · exact .inr (.inr (.inl ⟨neg_le_neg large, rfl⟩))
  split
  · rename_i whole
    obtain ⟨d, rfl⟩ := Int.eq_ofNat_of_zero_le whole
    refine .inl ⟨_, ?_, rfl⟩
    cases s <;> simp [ratOf_fin]
  rename_i fraction
  obtain ⟨b, rfl⟩ : ∃ b : Nat, e = -(b : Int) := ⟨(-e).toNat, by omega⟩
  have bound : m % 2 ^ b < 2 ^ b := Nat.mod_lt _ (Nat.two_pow_pos b)
  rw [ratOf_fin, integer_and_fraction, neg_neg, Int.toNat_natCast]
  generalize m / 2 ^ b = i at *
  generalize m % 2 ^ b = a at *
  by_cases integer : a = 0
  · rw [if_pos integer]
    refine .inl ⟨_, ?_, rfl⟩
    rw [integer]
    cases s <;> simp
  · rw [if_neg integer]
    exact exp2Rounds_fraction f r sat s i integer bound

end

section
variable {f : Fmt} {r : Rnd} {sat : Bool} {q : ℚ} {y : Nat} (hf : f ∈ elementFormats)
include hf

theorem roundFmt_power (n : Int) (r : Rnd) (sat : Bool) : RoundsTo f r sat false ((2 : ℝ) ^ n) (roundFmt (.fin false 1 n) f r sat) := by
  obtain ⟨mantissa, small, e2m1⟩ := formats_round f (mem_formats hf)
  have rounds := roundFmt_roundsTo mantissa small e2m1 r sat false 1 n
  rwa [ratOf_fin_real, if_neg Bool.false_ne_true, Nat.cast_one, one_mul] at rounds

/-- 2^n for an integer n (R102): where the model rounds another power beyond every format, 2^n lies there too. -/
theorem exp2Rounds_int (h : Exp2Rounds f r sat q y) {n : Int} (int : q = n) : RoundsTo f r sat false ((2 : ℝ) ^ n) y := by
  have some := roundFmt_power hf n r sat
  rw [int] at h
  rcases h with ⟨n', same, rfl⟩ | ⟨huge, rfl⟩ | ⟨tiny, rfl⟩ | ⟨n', a, b, p, pos, lt, split, -, -⟩
  · obtain rfl := Int.cast_inj.1 same
    exact some
  · have n_huge : 4096 ≤ n := by exact_mod_cast huge
    have beyond : (2 : ℝ) ^ (200 : Int) ≤ 2 ^ n := zpow_le_zpow_right₀ one_le_two (by omega)
    refine roundsTo_of_alike (alike_of_huge hf (by exact_mod_cast beyond) ?_) (roundFmt_power hf 4096 r sat) some
    exact_mod_cast (zpow_le_zpow_right₀ one_le_two (by norm_num) : (2 : ℝ) ^ (200 : Int) ≤ 2 ^ (4096 : Int))
  · have n_tiny : n ≤ -4096 := by exact_mod_cast tiny
    exact roundsTo_of_alike (alike_of_tiny hf ⟨zpow_pos two_pos _, zpow_le_zpow_right₀ one_le_two (by omega)⟩
      ⟨zpow_pos two_pos _, zpow_le_zpow_right₀ one_le_two (by norm_num)⟩) (roundFmt_power hf (-4096) r sat) some
  · exact absurd split.symm (fraction_not_int pos lt)

/-- 2^q for a rational q (R102). -/
theorem exp2Rounds_near (h : Exp2Rounds f r sat q y) : RoundsNear f r sat false ((2 : ℝ) ^ (q : ℝ)) y := by
  rcases h with ⟨n, rfl, rfl⟩ | ⟨huge, rfl⟩ | ⟨tiny, rfl⟩ | ⟨n, a, b, p, pos, lt, rfl, large, rfl⟩
  · rw [Rat.cast_intCast, Real.rpow_intCast]
    exact roundsNear_self (roundFmt_power hf n r sat)
  · have huge' : (4096 : ℝ) ≤ q := by exact_mod_cast huge
    have beyond : (2 : ℝ) ^ (201 : ℝ) ≤ 2 ^ (q : ℝ) := Real.rpow_le_rpow_of_exponent_le one_le_two (by linarith)
    refine roundsNear_of_alike (alike_of_huge hf ?_ ?_) (roundFmt_power hf 4096 r sat)
    · norm_num at beyond ⊢
      linarith
    · exact_mod_cast (zpow_le_zpow_right₀ one_le_two (by norm_num) : (2 : ℝ) ^ (200 : Int) ≤ 2 ^ (4096 : Int))
  · have tiny' : (q : ℝ) ≤ -4096 := by exact_mod_cast tiny
    have pos : (0 : ℝ) < 2 ^ (q : ℝ) := Real.rpow_pos_of_pos two_pos _
    have below : (2 : ℝ) ^ (q : ℝ) ≤ 2 ^ ((-200 : Int) : ℝ) := Real.rpow_le_rpow_of_exponent_le one_le_two (by norm_num; linarith)
    rw [Real.rpow_intCast] at below
    have shrunk : (0 : ℝ) < 1 - 2 ^ (-50 : Int) ∧ (1 : ℝ) - 2 ^ (-50 : Int) ≤ 1 := by norm_num
    refine roundsNear_of_alike (alike_of_tiny hf ⟨mul_pos pos shrunk.1, (mul_le_of_le_one_right pos.le shrunk.2).trans below⟩
      ⟨zpow_pos two_pos _, zpow_le_zpow_right₀ one_le_two (by norm_num)⟩) (roundFmt_power hf (-4096) r sat)
  · have near := exp2_end_near large lt.le n
    have rounds := roundFmt_near (r := r) (sat := sat) (s := false) hf (Real.rpow_pos_of_pos two_pos _) near
    rw [if_neg Bool.false_ne_true] at rounds
    push_cast
    exact rounds

end

/-! ### The column of special operands -/

section
variable {f : Fmt} {r : Rnd} {sat : Bool} {x : Nat}

theorem special_nan (nan : f.value x = .nan) :
    frcpBits f r sat x = f.nan.getD 0 ∧ frsqBits f r sat x = f.nan.getD 0 ∧ fsqrtBits f r sat x = f.nan.getD 0 ∧
      fexp2Bits f r sat x = f.nan.getD 0 ∧ flog2Bits f r sat x = f.nan.getD 0 ∧ fintBits f r x = f.nan.getD 0 := by
  simp only [frcpBits, frsqBits, fsqrtBits, fexp2Bits, flog2Bits, fintBits, nan, Val.div, exp2Round, roundFmt, and_self]

theorem special_inf {s : Bool} (inf : f.value x = .inf s) : frcpBits f r sat x = f.withSign s 0 ∧ fintBits f r x = x := by
  simp [frcpBits, fintBits, inf, Val.div, roundFmt, quantum]

theorem special_positive_inf (inf : f.value x = .inf false) :
    frsqBits f r sat x = 0 ∧ fsqrtBits f r sat x = roundFmt (.inf false) f r sat ∧
      fexp2Bits f r sat x = roundFmt (.inf false) f r sat ∧ flog2Bits f r sat x = roundFmt (.inf false) f r sat := by
  simp [frsqBits, fsqrtBits, fexp2Bits, flog2Bits, exp2Round, inf]

theorem special_zero (bits : 1 ≤ f.bits) (bound : x < 2 ^ f.bits) (zero : (f.value x).isZero = true) :
    frcpBits f r sat x = roundFmt (.inf (f.neg x)) f r sat ∧ frsqBits f r sat x = roundFmt (.inf (f.neg x)) f r sat ∧
      fsqrtBits f r sat x = x ∧ flog2Bits f r sat x = roundFmt (.inf true) f r sat ∧ fintBits f r x = x := by
  have mag := value_isZero_iff.1 zero
  have itself : f.withSign (f.neg x) 0 = x := mag ▸ withSign_neg_mag bits bound
  have value := value_of_finite (f := f) (x := x) (by omega)
  rw [(units_eq_zero_iff f _).2 mag] at value
  have integer : roundFmt (.fin (f.neg x) 0 0) f r false = x := by simpa [roundFmt, quantum] using itself
  simp [frcpBits, frsqBits, fsqrtBits, flog2Bits, fintBits, value, Val.div, Val.toInt, quantum, itself, integer]

theorem special_negative (less : Less (f.value x) (.fin false 0 0)) :
    frsqBits f r sat x = f.nan.getD 0 ∧ fsqrtBits f r sat x = f.nan.getD 0 ∧ flog2Bits f r sat x = f.nan.getD 0 := by
  cases value : f.value x with
  | nan => rw [value] at less; exact less.elim
  | inf s =>
    rw [value] at less
    obtain rfl : s = true := less
    simp [frsqBits, fsqrtBits, flog2Bits, value, roundFmt]
  | fin s m e =>
    rw [value] at less
    have neg : ratOf (.fin s m e) < 0 := by simpa [Less, ratOf_zero] using less
    have size : (0 : ℚ) ≤ m * 2 ^ e := by positivity
    rw [ratOf_fin] at neg
    obtain rfl : s = true := by
      by_contra positive
      rw [if_neg positive] at neg
      linarith
    have nonzero : m ≠ 0 := by
      rintro rfl
      simp at neg
    simp [frsqBits, fsqrtBits, flog2Bits, value, nonzero, roundFmt]

theorem flog2Bits_one (one : ratOf (f.value x) = 1) : flog2Bits f r sat x = 0 := by
  cases value : f.value x with
  | nan => rw [value] at one; exact absurd one zero_ne_one
  | inf s => rw [value] at one; exact absurd one zero_ne_one
  | fin s m e =>
    rw [flog2Bits_power value (n := 0) (by rw [one, zpow_zero])]
    simp [roundFmt, quantum, Fmt.withSign]

end

/-- Settles O26: the column of special operands, then 2^x and log₂ x by what the model rounds for them. -/
theorem floatFunctionSpecialOperands : Obligations.FloatFunctionSpecialOperands := by
  intro f r sat x hf bound v nan
  refine ⟨special_nan, special_zero (format_widths hf).1 bound, fun s inf => special_inf inf, special_positive_inf, fun inf => ?_,
    special_negative, flog2Bits_one, fun ⟨s, m, e, fin⟩ => ?_⟩
  · change exp2Round v f r sat = 0
    rw [inf]
    simp [exp2Round, Fmt.withSign]
  · have rounds := exp2Round_rounds f r sat s m e
    rw [← fin] at rounds
    refine ⟨fun n int => exp2Rounds_int hf rounds int, fun n power => ?_, exp2Rounds_near hf rounds, fun pos => ?_⟩
    · rw [flog2Bits_power fin power]
      exact roundFmt_int hf n r sat
    · have pos' : 0 < ((ratOf v : ℚ) : ℝ) := by exact_mod_cast pos
      obtain rfl := positive_of_ratOf fin pos'
      exact flog2Bits_near hf fin (nonzero_of_ratOf fin pos'.ne')

end Sys2Proof.Machine
end

section
/-! The obligation of the engines' events: the last step of an MLOOP whose team has ended leaves its tile clear. -/

namespace Sys2Proof.Machine

open Sys2Proof

/-- An MLOOP that team 0 has queued in core 0 of die 0. -/
def endedTeamsLoop : Origin := { die := 0, core := 0, team := 0, group := 0, gkey := 0, handle := 0x20010000, offset := 0 }

/-- E4M3 operands without scales. -/
def plainHalf : FormatHalf := { type := 3, blockScaled := false, bandScaled := false, table := 0, incr := 0, band := 0 }

/-- The team has ended and the tiles have a new owner, team 1; of the MLOOP, which works on element (0, 0) of tile 0, the only step is due
(R232, log entry 73). Element (1, 1) of the tile is not 0. -/
def lastStepDue : State := { State.reset with
  teams := [(0, { live := false }), (1, { live := true })]
  cores := [(0, { tileOwner := some 1, tiles := [(17, 1)], mx := [(endedTeamsLoop, .mloop 0 0 0x2000 1 0 0 plainHalf plainHalf 1 1 0 false 0)] })] }

/-- The step ends the MLOOP, and element (1, 1) is +0 after it. -/
theorem lastStep_clears {t : State} (ran : exec (.matrixStep 0 0) lastStepDue = .next t) : (t.coreOf 0).tiles.get 17 0 = 0 := by
  have cleared : (match exec (.matrixStep 0 0) lastStepDue with
      | .next t => (t.coreOf 0).tiles.get 17 0 == 0
      | _ => false) = true := by decide +kernel
  rw [ran] at cleared
  exact beq_iff_eq.1 cleared

/-- Refutes O57: the last step of an MLOOP leaves its tile clear where its team owns the tiles no longer, so that the elements beyond its rows
and columns do not stay as they were. -/
theorem not_engineEvents : ¬ Obligations.EngineEvents := by
  intro h
  obtain ⟨step, -⟩ := h lastStepDue 0 0 endedTeamsLoop
  obtain ⟨t, ran, elements, -⟩ := step 0 0x2000 1 0 0 plainHalf plainHalf 1 1 0 false (by decide +kernel) (by decide +kernel)
    (by decide) (by decide)
  have kept : (t.coreOf 0).tiles.get 17 0 = 1 := elements 1 1 (by decide) (by decide)
  rw [lastStep_clears ran] at kept
  exact absurd kept (by decide)

end Sys2Proof.Machine
end

section
/-! The obligations of branches, of the return from a trap, and of EXIT: O11, O18 and O16. -/

namespace Sys2Proof.Machine

open Sys2Proof

/-! ### BR, CALL, RET and JMPS (R107, R108) -/

/-- The target that a register names. -/
theorem setWidth_off (x : Word) : (x.setWidth 24 : Off) = x.extractLsb' 0 24 := by
  apply BitVec.eq_of_getLsbD_eq
  intro i hi
  simp [hi]

/-- CALL: the group goes to its target with the next offset in S31. -/
theorem exec_call (o : BitVec 24) (s : State) :
    exec (.call o) s = .next ((s.setG (s.g.setS 31 ((s.g.offset + 1).setWidth 32))).jump (s.g.offset + o)) := by
  change Host.Outcome.next ((s.setG (s.g.setS 31 ((s.g.offset + 1).setWidth 32))).jump (relOff s.g.offset o)) = _
  rw [relOff, BitVec.signExtend_eq]

/-- Settles O11: a branch by its decision; the other forms set the offset at once. -/
theorem branchResults : Obligations.BranchResults := by
  intro s o a
  simp only [← branchTaken_iff, ← setWidth_off]
  refine ⟨fun taken => ⟨_, if_pos taken, ?_⟩, fun passed => if_neg passed, ⟨_, exec_call o s, ?_⟩, ⟨_, rfl, jump_jumped ..⟩, ⟨_, rfl, jump_jumped ..⟩⟩
  · rw [relOff, BitVec.signExtend_eq]
    exact jump_jumped ..
  · obtain ⟨only, iss, g⟩ := setG_jump s (s.g.setS 31 ((s.g.offset + 1).setWidth 32)) (s.g.offset + o)
    refine ⟨only, iss, ?_, fun r => ?_⟩
    · rw [g]
      rfl
    · rw [g]
      exact sr_setS ..

/-! ### TRET (R125) -/

/-- The group's record with the state of a frame in place of its own. -/
def Group.restored (g : Group) (f : Frame) : Group :=
  { g with exec := f.exec, nest := f.nest, plane := f.plane, joins := f.joins, latValid := 0, frame := none }

/-- TRET in handler state. -/
theorem exec_tret_returns {s : State} {f : Frame} (frame : s.g.frame = some f) (i : BitVec 8) :
    exec (.tret i) s = .next ((s.setG (s.g.restored f)).jump (if (i == 1) = true then f.offset + 1 else f.offset)) := by
  change execTret i s = _
  unfold execTret
  rw [frame]
  rfl

/-- TRET outside handler state. -/
theorem exec_tret_traps {s : State} (frame : s.g.frame = none) (i : BitVec 8) : exec (.tret i) s = .next (s.trapAt 0x1B 0 s.iss.mask 0) := by
  change execTret i s = _
  unfold execTret
  rw [frame]

/-- Settles O18: with a frame it comes back, at its offset or the next; without one the trap of kind 0x1B. -/
theorem trapReturnRestoresFrame : Obligations.TrapReturnRestoresFrame := by
  intro s h
  refine ⟨fun f frame => ⟨⟨_, exec_tret_returns frame 0, ?_⟩, ⟨_, exec_tret_returns frame 1, ?_⟩⟩, fun i can => ?_⟩
  · exact setG_jump s (s.g.restored f) f.offset
  · exact setG_jump s (s.g.restored f) (f.offset + 1)
  · exact ⟨_, exec_tret_traps can.2.1 i, trapAt_taken s h 0x1B 0 0 s.iss.mask can⟩

/-! ### EXIT (R114) -/

/-- Activities have come up; nothing else differs. -/
def Posts (s t : State) : Prop := ∃ more, t = { s with agenda := s.agenda ++ more }

namespace Posts

variable {s t u : State}

theorem refl (s : State) : Posts s s := ⟨[], by rw [List.append_nil]⟩

theorem trans (h : Posts s t) (k : Posts t u) : Posts s u := by
  obtain ⟨first, rfl⟩ := h
  obtain ⟨then_, rfl⟩ := k
  exact ⟨first ++ then_, by rw [← List.append_assoc]⟩

theorem post (h : Posts s t) (e : Instr) : Posts s (t.post e) := h.trans ⟨[.event e], rfl⟩

theorem ite {p : Prop} [Decidable p] {a b : State} (h : Posts s a) (k : Posts s b) : Posts s (if p then a else b) := by
  split
  · exact h
  · exact k

end Posts

namespace State

variable (s : State)

theorem checkBarriers_posts (t : Nat) : Posts s (s.checkBarriers t) :=
  foldl_rel .refl .trans _ _ (fun u _ _ => .ite ((Posts.refl u).post _) (.refl u)) s

theorem checkGrow_posts (ck : Nat) : Posts s (s.checkGrow ck) := .ite (.refl s) ((Posts.refl s).post _)

theorem kickPlace_posts (fkey : Nat) : Posts s (s.kickPlace fkey) :=
  have restored : Posts s (if (s.fnOf fkey).saved.isEmpty then s else s.post (.teamRestore (fkey / 8) (fkey % 8))) :=
    .ite (.refl s) ((Posts.refl s).post _)
  .ite (restored.post _) restored

end State

/-- A group that has exited. -/
def Group.left (g : Group) : Group := { g with live := false, exited := true, wait := .ready }

/-- A team that counts a group as gone. -/
def Team.without (t : Team) (k : Nat) : Team := { t with gone := t.gone ++ [k] }

/-- The state in which the acting group has left its team (R114, R214). -/
def exited (s : State) : State :=
  { (s.modG Group.left).modTeam s.g.team (fun t => t.without s.cur) with iss := { s.iss with moved := true } }

/-- EXIT: the group has left, and what waits on it comes up. -/
def exitPosted (s : State) : State := ((exited s).checkBarriers s.g.team).checkGrow s.g.ckey

theorem exec_exit (s : State) : exec .exit s = if ((exitPosted s).teamGroups s.g.team).isEmpty then .next ((exitPosted s).post (.teamEnd s.g.team))
    else .next ((exitPosted s).kickPlace s.g.fkey) := rfl

theorem exitPosted_posts (s : State) : Posts (exited s) (exitPosted s) := (State.checkBarriers_posts _ _).trans (State.checkGrow_posts ..)

/-- The records of the groups and teams once the group has left. -/
theorem exited_leaves (s : State) : (∀ k, k ≠ s.cur → (exited s).group k = s.group k) ∧
    (exited s).g = s.g.left ∧ (exited s).teamOf s.g.team = s.team.without s.cur ∧
    (∀ j, j ≠ s.g.team → (exited s).teamOf j = s.teamOf j) :=
  ⟨s.group_modG_ne Group.left, s.g_modG Group.left, (s.modG Group.left).teamOf_modTeam s.g.team (fun t => t.without s.cur),
    fun j => (s.modG Group.left).teamOf_modTeam_ne s.g.team j (fun t => t.without s.cur)⟩

/-- With the last group gone no group of the team is left. -/
theorem exited_last {s : State} (last : ∀ k ∈ s.team.groups, k ∈ s.team.gone ∨ k = s.cur) : (exited s).teamGroups s.g.team = [] := by
  obtain ⟨-, -, team, -⟩ := exited_leaves s
  rw [State.teamGroups, team, List.filter_eq_nil_iff]
  intro k mem
  have gone : k ∈ (s.team.without s.cur).gone := List.mem_append.2 ((last k mem).imp_right List.mem_singleton.2)
  rw [List.contains_iff_mem.2 gone]
  exact Bool.false_ne_true

/-- Settles O16: EXIT leaves the state in which the group has left, with activities posted. -/
theorem exitEndsGroup : Obligations.ExitEndsGroup := by
  intro s
  have ran : ∃ t, exec .exit s = .next t ∧ Posts (exited s) t ∧
      ((∀ k ∈ s.team.groups, k ∈ s.team.gone ∨ k = s.cur) → Activity.event (.teamEnd s.g.team) ∈ t.agenda) := by
    have posted := exitPosted_posts s
    rw [exec_exit]
    split
    · exact ⟨_, rfl, posted.post _, fun _ => List.mem_append_right _ (List.mem_singleton_self _)⟩
    · rename_i left
      refine ⟨_, rfl, posted.trans (State.kickPlace_posts ..), fun last => absurd ?_ left⟩
      obtain ⟨more, e⟩ := posted
      rw [e]
      exact List.isEmpty_iff.2 (exited_last last)
  obtain ⟨t, ran, ⟨more, rfl⟩, ends⟩ := ran
  obtain ⟨others, group, team, teams⟩ := exited_leaves s
  refine ⟨_, ran, rfl, others, fun _ _ _ _ => rfl, group, ?_, teams, ⟨more, rfl⟩, ends⟩
  exact (congrArg (fun g : Group => (exited s).teamOf g.team) group).trans team

end Sys2Proof.Machine
end

section
/-! SUPPORT. Changes of the acting group's record alone, and the faults of lanes recorded one after the other (R127, R128). -/

namespace Sys2Proof.Table

/-- Records set for the numbers of a list, each by its number. -/
theorem get_foldl_set_list {α : Type} (ls : List Nat) (f : Nat → α) (t : Table α) (k : Nat) (d : α) :
    (ls.foldl (fun t l => t.set l (f l)) t).get k d = if k ∈ ls then f k else t.get k d := by
  split
  · rename_i mem
    exact get_foldl_set ls (fun l => l) f t k d mem (fun _ _ _ _ e => e)
  · rename_i out
    exact get_foldl_set_ne ls (fun l => l) f t k d (fun l mem e => out (e ▸ mem))

end Sys2Proof.Table

namespace Sys2Proof.Machine

open Sys2Proof

/-- `t` is `s` with the acting group's record replaced by `g`. -/
structure Regrouped (s : State) (g : Group) (t : State) : Prop where
  rest : t = { s with groups := t.groups }
  others : ∀ k, k ≠ s.cur → t.group k = s.group k
  g : t.g = g

namespace Regrouped

variable {s t : State} {g : Group}

theorem refl (s : State) : Regrouped s s.g s := ⟨rfl, fun _ _ => rfl, rfl⟩

theorem cur (h : Regrouped s g t) : t.cur = s.cur := (congrArg State.cur h.rest :)
theorem iss (h : Regrouped s g t) : t.iss = s.iss := (congrArg State.iss h.rest :)
theorem mem (h : Regrouped s g t) : t.mem = s.mem := (congrArg State.mem h.rest :)
theorem nextUid (h : Regrouped s g t) : t.nextUid = s.nextUid := (congrArg State.nextUid h.rest :)

theorem setG (h : Regrouped s g t) (g' : Group) : Regrouped s g' (t.setG g') where
  rest := (congrArg (fun x : State => { x with groups := (t.setG g').groups }) h.rest :)
  others k other := (t.group_setG_ne g' k (by rwa [h.cur])).trans (h.others k other)
  g := t.g_setG g'

theorem modG (h : Regrouped s g t) (f : Group → Group) : Regrouped s (f g) (t.modG f) := by
  have changed := h.setG (f t.g)
  rw [h.g] at changed
  rwa [State.modG, h.g]

theorem groupOnly (h : Regrouped s g t) : GroupOnly s t :=
  ⟨h.rest.trans (by rw [h.iss]), h.others, fun a => by rw [h.mem]⟩

/-- A fold whose steps each change the record alone. -/
theorem fold {β : Type} {step : State → β → State} {change : Group → β → Group}
    (acts : ∀ u g b, Regrouped s g u → Regrouped s (change g b) (step u b)) (l : List β) (h : Regrouped s g t) :
    Regrouped s (l.foldl change g) (l.foldl step t) := by
  induction l generalizing t g with
  | nil => exact h
  | cons b r ih => exact ih (acts t g b h)

end Regrouped

/-! ### Faults of lanes -/

/-- The faults of lanes, each of its kind and at its address. -/
def faultsOf (ls : List Nat) (kind addr : Nat → Nat) : List LaneFault := ls.map (fun l => ⟨l, kind l, addr l⟩)

theorem faultsOf_lanes (ls : List Nat) (kind addr : Nat → Nat) : (faultsOf ls kind addr).map (fun x => x.lane) = ls := by
  rw [faultsOf, List.map_map]
  exact List.map_id _

/-- Lanes of the issue fault one after the other. -/
theorem laneFaults_regrouped {s t : State} {g : Group} (ls : List Nat) (kind addr : Nat → Nat) (h : Regrouped s g t) :
    Regrouped s (g.faultAll { s.iss with seq := s.nextUid } false (faultsOf ls kind addr))
      (ls.foldl (fun t l => t.laneFault l (kind l) (addr l)) t) := by
  unfold Group.faultAll faultsOf
  rw [List.foldl_map]
  refine Regrouped.fold (fun u g l h => ?_) ls h
  have faulted := h.modG (fun g => g.accessFault { u.iss with seq := u.nextUid } false l (kind l) (addr l))
  rw [h.iss, h.nextUid] at faulted
  unfold State.laneFault
  rwa [h.iss, h.nextUid]

/-- Faults recorded from the group's own records and faults on, for the issue or one with its word, offset and planes, are those that
`FaultsTaken` states. -/
theorem faultsTaken_faultAll {s t : State} {g : Group} {i : Issue} {scalar : Bool} {ls : List Nat} {kind addr : Nat → Nat}
    (word : i.word = s.iss.word) (here : i.here = s.iss.here) (planes : i.planes = s.iss.planes)
    (recs : g.recs = s.g.recs) (faults : g.faults = s.g.faults) (plane : g.plane = s.g.plane)
    (recs' : t.g.recs = (g.faultAll i scalar (faultsOf ls kind addr)).recs)
    (faults' : t.g.faults = (g.faultAll i scalar (faultsOf ls kind addr)).faults) :
    FaultsTaken s t scalar ls kind addr := by
  have named : ∀ x ∈ faultsOf ls kind addr, kind x.lane = x.kind ∧ addr x.lane = x.addr := by
    intro x mem
    obtain ⟨l, -, rfl⟩ := List.mem_map.1 mem
    exact ⟨rfl, rfl⟩
  have taken := faultsTaken_of (s := { s with iss := i }) (scalar := scalar) named recs faults plane
    (State.g_setG s (g.faultAll i scalar (faultsOf ls kind addr)))
  rw [faultsOf_lanes] at taken
  unfold FaultsTaken at taken ⊢
  rw [State.g_setG] at taken
  rw [recs', faults', ← word, ← here, ← planes]
  exact taken

/-- With no lane at fault, records and faults stand. -/
theorem faultsTaken_none {s t : State} {scalar : Bool} {kind addr : Nat → Nat} (h : FaultsTaken s t scalar [] kind addr) :
    t.g.recs = s.g.recs ∧ t.g.faults = s.g.faults :=
  ⟨h.1.trans (List.append_nil _), h.2.1 rfl⟩

end Sys2Proof.Machine
end

section
/-! The obligations of the planes and of the moves between lanes: O19 and O31. -/

namespace Sys2Proof.Machine

open Sys2Proof

/-! ### PLSET, PLSETV and PLGET (R115 to R117) -/

/-- The planes of lanes set. -/
def Group.setPlanes (g : Group) (ls : List Nat) (f : Nat → BitVec 3) : Group := { g with plane := ls.foldl (fun t l => t.set l (f l)) g.plane }

theorem Group.plane_setPlanes (g : Group) (ls : List Nat) (f : Nat → BitVec 3) (l : Nat) :
    (g.setPlanes ls f).plane.get l 0 = if l ∈ ls then f l else g.plane.get l 0 := Table.get_foldl_set_list ..

/-- PLSET of a plane of the launch. -/
theorem exec_plset_sets {s : State} {i : BitVec 8} (within : i.toNat < s.g.np) :
    ∃ t, exec (.plset i) s = .next t ∧
      PlanesSet s t (fun l => if s.guarded.getLsbD l && s.g.pred (modeBp s.g.mode) l then i.setWidth 3 else s.g.plane.get l 0) := by
  have set := (Regrouped.refl s).modG (fun g => g.setPlanes (lanesOf (s.guarded &&& s.g.predMask (modeBp s.g.mode))) (fun _ => i.setWidth 3))
  refine ⟨_, (if_neg (not_le.2 within) : _ = Host.Outcome.next (s.modG (fun g =>
    g.setPlanes (lanesOf (s.guarded &&& s.g.predMask (modeBp s.g.mode))) (fun _ => i.setWidth 3)))), set.groupOnly, set.iss, ?_, fun l => ?_⟩
  · rw [set.g]
    rfl
  · simp only [set.g, Group.plane_setPlanes, mem_lanesOf, getLsbD_and_predMask]

/-- The guarded lanes whose operand is below a bound, and those at or above it. -/
def State.lanesBelow (s : State) (a : Operand) (n : Nat) : List Nat := (lanesOf s.guarded).filter (fun l => decide ((s.rd a l).toNat < n))
def State.lanesBeyond (s : State) (a : Operand) (n : Nat) : List Nat := (lanesOf s.guarded).filter (fun l => decide (n ≤ (s.rd a l).toNat))

theorem State.mem_lanesBelow {s : State} {a : Operand} {n l : Nat} :
    l ∈ s.lanesBelow a n ↔ s.guarded.getLsbD l = true ∧ (s.rd a l).toNat < n := by
  rw [lanesBelow, List.mem_filter, mem_lanesOf, decide_eq_true_eq]

theorem State.mem_lanesBeyond {s : State} {a : Operand} {n l : Nat} :
    l ∈ s.lanesBeyond a n ↔ s.guarded.getLsbD l = true ∧ n ≤ (s.rd a l).toNat := by
  rw [lanesBeyond, List.mem_filter, mem_lanesOf, decide_eq_true_eq]

theorem State.lanesBeyond_eq_nil {s : State} {a : Operand} {n : Nat} (within : ∀ l, s.guarded.getLsbD l = true → (s.rd a l).toNat < n) :
    s.lanesBeyond a n = [] :=
  List.eq_nil_iff_forall_not_mem.2 fun l mem => absurd (within l (mem_lanesBeyond.1 mem).1) (not_lt.2 (mem_lanesBeyond.1 mem).2)

theorem State.lanesBeyond_not_lt (s : State) (a : Operand) (n : Nat) :
    (lanesOf s.guarded).filter (fun l => !decide ((s.rd a l).toNat < n)) = s.lanesBeyond a n := by
  refine List.filter_congr fun l _ => ?_
  rw [← decide_not, decide_eq_decide]
  exact not_lt

theorem exec_plsetv_eq (s : State) (a : Operand) : exec (.plsetv a) s = .next (((s.lanesBeyond a s.g.np).foldl (fun t l => t.laneFault l 6 0) s).modG
    (fun g => g.setPlanes (s.lanesBelow a s.g.np) (fun l => (s.rd a l).setWidth 3))) := by
  rw [← s.lanesBeyond_not_lt]
  rfl

/-- PLSETV: the lanes with a plane of the launch take it, the other guarded lanes fault. -/
theorem exec_plsetv (s : State) (a : Operand) : ∃ t, exec (.plsetv a) s = .next t ∧ GroupOnly s t ∧
    t.iss = s.iss ∧ t.g = { s.g with plane := t.g.plane, recs := t.g.recs, faults := t.g.faults } ∧
    FaultsTaken s t false (s.lanesBeyond a s.g.np) (fun _ => 6) (fun _ => 0) ∧
    ∀ l, t.g.plane.get l 0 =
      if s.guarded.getLsbD l ∧ (s.rd a l).toNat < s.g.np then (s.rd a l).setWidth 3 else s.g.plane.get l 0 := by
  have set := (laneFaults_regrouped (s.lanesBeyond a s.g.np) (fun _ => 6) (fun _ => 0) (.refl s)).modG
    (fun g => g.setPlanes (s.lanesBelow a s.g.np) (fun l => (s.rd a l).setWidth 3))
  have only := s.g.faultAll_eq { s.iss with seq := s.nextUid } false (faultsOf (s.lanesBeyond a s.g.np) (fun _ => 6) (fun _ => 0))
  refine ⟨_, exec_plsetv_eq s a, set.groupOnly, set.iss, ?_, ?_, fun l => ?_⟩
  · rw [set.g, only]
    rfl
  · exact faultsTaken_faultAll (i := { s.iss with seq := s.nextUid }) rfl rfl rfl rfl rfl rfl (by rw [set.g]; rfl) (by rw [set.g]; rfl)
  · rw [set.g, Group.plane_setPlanes, only]
    simp only [State.mem_lanesBelow]

/-- A plane number in a register. -/
theorem plane_setWidth (x : BitVec 3) : (x.setWidth 32).setWidth 64 = x.setWidth 64 := by
  apply BitVec.eq_of_toNat_eq
  have := x.isLt
  simp only [BitVec.toNat_setWidth]
  omega

/-- Settles O19: PLSET by its range; PLSETV as `exec_plsetv` has it, where no lane may be at fault. -/
theorem planeResults : Obligations.PlaneResults := by
  intro s i a n h old
  refine ⟨exec_plset_sets, fun beyond can => ⟨_, if_pos beyond, trapAt_taken s h 0x1A 0 0 s.iss.mask can⟩, fun within => ?_,
    fun _ => exec_plsetv s a, ⟨_, rfl, ?_⟩⟩
  · obtain ⟨t, ran, only, iss, group, faulted, planes⟩ := exec_plsetv s a
    rw [State.lanesBeyond_eq_nil within] at faulted
    obtain ⟨recs, faults⟩ := faultsTaken_none faulted
    rw [recs, faults] at group
    refine ⟨t, ran, only, iss, group, fun l => ?_⟩
    exact (planes l).trans (if_congr (and_iff_left_of_imp (within l)) rfl rfl)
  · have wrote := plainWrite_written s n s.guarded (fun l => (s.g.plane.get l 0).setWidth 32)
    simpa only [plane_setWidth] using wrote

/-! ### PERM, BCAST, VREAD and VWRITE (R130, R131) -/

theorem exists_of_isV {o : Operand} (h : o.isV = true) : ∃ n, o = .v n := by
  cases o
  case v n => exact ⟨n, rfl⟩
  all_goals exact nomatch h

/-- A lane result of a V destination. -/
theorem laneResult_vdst (s : State) (w : Bool) {d : Operand} (vector : d.isV = true) (wide : Bool) (f : Nat → DWord) :
    LaneWritten s (s.laneResult w d wide f) w d wide f := by
  obtain ⟨n, rfl⟩ := exists_of_isV vector
  exact laneResult_written ..

/-- VREAD: once per issue, and nothing with no enabled lane. -/
theorem exec_vread (s : State) (m : Fin 32) (a : Operand) (k : BitVec 8) : ∃ t, exec (.vread (.s m) a k) s = .next t ∧ (s.iss.mask = 0 → t = s) ∧
    (s.iss.mask ≠ 0 → ScalarWritten s t (.s m) false ((s.rd a k.toNat).setWidth 64)) := by
  by_cases none : s.iss.mask = 0
  · exact ⟨s, if_pos none, fun _ => rfl, fun some => absurd none some⟩
  · exact ⟨_, if_neg none, fun zero => absurd zero none, fun _ => scalarResult_written s m false _⟩

/-- A 32-bit value in a register. -/
theorem low_setWidth (x : Word) : (x.setWidth 64).extractLsb' 0 32 = x := by
  rw [← low_eq, BitVec.setWidth_setWidth_of_le _ (by decide), BitVec.setWidth_eq]

/-- VWRITE: lane k alone is written, where it is guarded. -/
theorem exec_vwrite (s : State) (n : Fin 192) (a : Operand) (k : BitVec 8) : ∃ t, exec (.vwrite (.v n) a k) s = .next t ∧ RegsOnly s t ∧
    t.iss = s.iss ∧ t.g.s = s.g.s ∧
    ∀ r l, l < 64 → t.g.vr r l = if r = n.val ∧ l = k.toNat ∧ s.guarded.getLsbD l then s.rd a 0 else s.g.vr r l := by
  by_cases lane : s.guarded.getLsbD k.toNat = true
  · have ran : exec (.vwrite (.v n) a k) s = .next (s.setG (State.putReg s.g (.v n) false k.toNat ((s.rd a 0).setWidth 64))) := if_pos lane
    have wrote := (Regrouped.refl s).setG (State.putReg s.g (.v n) false k.toNat ((s.rd a 0).setWidth 64))
    refine ⟨_, ran, ⟨wrote.groupOnly, ?_⟩, wrote.iss, ?_, fun r l hl => ?_⟩
    · rw [wrote.g]
      exact putReg_frame ..
    · rw [wrote.g]
      exact putReg_v_s ..
    · rw [wrote.g, vr_putReg _ _ _ _ _ _ _ (lt_of_getLsbD lane) hl, low_setWidth]
      by_cases here : l = k.toNat
      · subst here
        simp [lane]
      · simp [here]
  · refine ⟨s, if_neg lane, ⟨(Regrouped.refl s).groupOnly, rfl⟩, rfl, rfl, fun r l _ => (if_neg ?_).symm⟩
    rintro ⟨-, rfl, guarded⟩
    exact lane guarded

/-! ### VIDX (R132) -/

/-- The issue of a VIDX without the lanes that fault. -/
def vidxIssue (s : State) (a : Operand) : Issue := { s.iss with mask := s.iss.mask &&& ~~~(maskOf (s.lanesBeyond a s.g.allot)) }

/-- The value that a lane's index names. -/
def vidxValue (s : State) (a : Operand) (l : Nat) : DWord := (s.g.vr (s.rd a l).toNat l).setWidth 64

/-- VIDX with its results written and no fault recorded yet. -/
def vidxWritten (s : State) (w : Bool) (d a : Operand) : State :=
  let r := State.laneResult { s with iss := vidxIssue s a } w d false (vidxValue s a)
  { r with iss := { r.iss with
      mask := s.iss.mask, l0 := (s.lanesBeyond a s.g.allot).foldl (fun t l => t.set l 0) r.iss.l0, res := r.iss.res || s.iss.mask != 0 } }

theorem exec_vidx_eq (s : State) (w : Bool) (d a : Operand) : exec (.vidx w d a) s =
    .next ((s.lanesBeyond a s.g.allot).foldl (fun t l => t.laneFault l 5 (s.rd a l).toNat) (vidxWritten s w d a)) := rfl

/-- The lanes of its issue that do not fault. -/
theorem vidxIssue_mask (s : State) (a : Operand) {l : Nat} (hl : l < 64) :
    (vidxIssue s a).mask.getLsbD l = (s.iss.mask.getLsbD l && decide (l ∉ s.lanesBeyond a s.g.allot)) := by
  rw [vidxIssue, BitVec.getLsbD_and, BitVec.getLsbD_not, getLsbD_maskOf, decide_eq_true hl, Bool.true_and, Bool.true_and, decide_not]

/-- Those that take their value. -/
theorem vidxIssue_guarded (s : State) (a : Operand) (l : Nat) :
    (State.guarded { s with iss := vidxIssue s a }).getLsbD l = (s.guarded.getLsbD l && decide ((s.rd a l).toNat < s.g.allot)) := by
  by_cases hl : l < 64
  · have both : s.guarded.getLsbD l = (s.iss.mask.getLsbD l && (s.g.predMask (modeGp s.g.mode)).getLsbD l) := BitVec.getLsbD_and ..
    have part : (State.guarded { s with iss := vidxIssue s a }).getLsbD l =
      ((vidxIssue s a).mask.getLsbD l && (s.g.predMask (modeGp s.g.mode)).getLsbD l) := BitVec.getLsbD_and ..
    rw [part, vidxIssue_mask s a hl, Bool.and_right_comm, ← both]
    by_cases guarded : s.guarded.getLsbD l = true
    · rw [guarded, Bool.true_and, Bool.true_and, decide_eq_decide, State.mem_lanesBeyond, not_and, not_le]
      exact forall_prop_of_true guarded
    · rw [Bool.eq_false_iff.2 guarded, Bool.false_and, Bool.false_and]
  · rw [BitVec.getLsbD_of_ge _ _ (not_lt.1 hl), BitVec.getLsbD_of_ge _ _ (not_lt.1 hl), Bool.false_and]

/-- The registers of a lane are of the V table alone. -/
theorem Group.vr_eq {g g' : Group} (same : g.v = g'.v) (r l : Nat) : g.vr r l = g'.vr r l := by
  unfold vr
  rw [same]

/-- The latch lanes of a VIDX: the lanes at fault, though they are not written, take zero. -/
theorem vidxWritten_latch (s : State) (w : Bool) (d a : Operand) :
    LatchTaken s (vidxWritten s w d a) (fun l => if (s.rd a l).toNat < s.g.allot then vidxValue s a l else 0) := by
  obtain ⟨iss, l0⟩ := laneResult_latch { s with iss := vidxIssue s a } w d false (vidxValue s a)
  refine ⟨?_, fun l hl => ?_⟩
  · have res : ((State.laneResult { s with iss := vidxIssue s a } w d false (vidxValue s a)).iss.res || s.iss.mask != 0) =
        (s.iss.res || s.iss.mask != 0) := by
      rw [iss, vidxIssue]
      by_cases none : s.iss.mask = 0
      · rw [none]
        simp
      · rw [bne_iff_ne.2 none, Bool.or_true, Bool.or_true]
    rw [vidxWritten, iss]
    dsimp only
    rw [← res, iss]
    rfl
  · change ((s.lanesBeyond a s.g.allot).foldl (fun (t : Table Word) l => t.set l 0) _).get l 0 = _
    refine (Table.get_foldl_set_list _ (fun _ => (0 : Word)) ..).trans ?_
    rw [l0 l hl, vidxIssue_guarded, vidxIssue_mask s a hl]
    by_cases guarded : s.guarded.getLsbD l = true
    · rw [guarded, guarded_mask s l guarded]
      simp only [State.mem_lanesBeyond, guarded, true_and, not_le, Bool.true_and]
      by_cases within : (s.rd a l).toNat < s.g.allot
      · simp [within, not_le.2 within]
      · simp [within, not_lt.1 within]
    · have out : l ∉ s.lanesBeyond a s.g.allot := fun mem => guarded (State.mem_lanesBeyond.1 mem).1
      rw [if_neg out, Bool.eq_false_iff.2 guarded, decide_eq_true out, Bool.and_true, Bool.false_and]
      rfl

/-- VIDX: the results of the lanes whose index is in range, and the faults of the others. -/
theorem exec_vidx (s : State) (w : Bool) {d : Operand} (a : Operand) (vector : d.isV = true) : ∃ t m, exec (.vidx w d a) s = .next t ∧ GroupOnly s t ∧
    FaultsTaken s t false (s.lanesBeyond a s.g.allot) (fun _ => 5) (fun l => (s.rd a l).toNat) ∧
    t.g = { s.g with v := t.g.v, recs := t.g.recs, faults := t.g.faults } ∧
    LatchTaken s t (fun l => if (s.rd a l).toNat < s.g.allot then vidxValue s a l else 0) ∧
    (∀ l, m.getLsbD l = (!w && s.guarded.getLsbD l && decide ((s.rd a l).toNat < s.g.allot))) ∧
    VWritten s t d false m (vidxValue s a) := by
  obtain ⟨⟨⟨rest, others, mem⟩, regs⟩, -, sregs, vregs⟩ := laneResult_vdst { s with iss := vidxIssue s a } w vector false (vidxValue s a)
  have latch := vidxWritten_latch s w d a
  have faulted := laneFaults_regrouped (s.lanesBeyond a s.g.allot) (fun _ => 5) (fun l => (s.rd a l).toNat) (.refl (vidxWritten s w d a))
  have only := (vidxWritten s w d a).g.faultAll_eq { (vidxWritten s w d a).iss with seq := (vidxWritten s w d a).nextUid } false
    (faultsOf (s.lanesBeyond a s.g.allot) (fun _ => 5) (fun l => (s.rd a l).toNat))
  have group : (vidxWritten s w d a).g = { s.g with v := (vidxWritten s w d a).g.v } :=
    regs.trans (congrArg (fun x => { s.g with v := (vidxWritten s w d a).g.v, s := x }) sregs)
  generalize ht : (s.lanesBeyond a s.g.allot).foldl (fun t l => t.laneFault l 5 (s.rd a l).toNat) (vidxWritten s w d a) = t at faulted
  have v : t.g.v = (vidxWritten s w d a).g.v := by rw [faulted.g, only]
  refine ⟨t, if w then 0 else State.guarded { s with iss := vidxIssue s a }, (exec_vidx_eq s w d a).trans (by rw [ht]), ?_, ?_, ?_, ?_, fun l => ?_, ?_⟩
  · refine ⟨?_, fun k other => (faulted.others k other).trans (others k other), fun x => ?_⟩
    · rw [faulted.rest]
      exact (congrArg (fun r : State => { r with groups := t.groups, iss := (vidxWritten s w d a).iss }) rest :)
    · rw [faulted.mem]
      exact mem x
  · refine faultsTaken_faultAll (i := { (vidxWritten s w d a).iss with seq := (vidxWritten s w d a).nextUid }) ?_ ?_ ?_ ?_ ?_ ?_
      (by rw [faulted.g]) (by rw [faulted.g])
    · rw [latch.1]
    · rw [latch.1]
    · rw [latch.1]
    · rw [group]
    · rw [group]
    · rw [group]
  · rw [faulted.g, only, group]
  · exact ⟨faulted.iss ▸ latch.1, fun l hl => faulted.iss ▸ latch.2 l hl⟩
  · cases w
    · exact vidxIssue_guarded s a l
    · exact BitVec.getLsbD_zero
  · intro r l hl
    rw [Group.vr_eq v]
    exact vregs r l hl

/-- VIDX with every index in range. -/
theorem vidx_within {s : State} (w : Bool) {d : Operand} (a : Operand) (vector : d.isV = true)
    (within : ∀ l, s.guarded.getLsbD l = true → (s.rd a l).toNat < s.g.allot) :
    ∃ t, exec (.vidx w d a) s = .next t ∧ LaneWritten s t w d false (vidxValue s a) := by
  obtain ⟨t, m, ran, only, faulted, group, ⟨iss, latch⟩, mask, regs⟩ := exec_vidx s w a vector
  rw [State.lanesBeyond_eq_nil within] at faulted
  obtain ⟨recs, faults⟩ := faultsTaken_none faulted
  have same : m = if w then 0 else s.guarded := by
    refine BitVec.eq_of_getLsbD_eq fun l _ => ?_
    rw [mask]
    cases w
    · exact (Bool.and_eq_left_iff_imp.2 fun guarded => decide_eq_true (within l guarded))
    · exact BitVec.getLsbD_zero.symm
  have sregs : t.g.s = s.g.s := by rw [group]
  refine ⟨t, ran, ⟨only, ?_⟩, ⟨iss, fun l hl => ?_⟩, sregs, same ▸ regs⟩
  · rw [recs, faults] at group
    rw [sregs]
    exact group
  · rw [latch l hl]
    by_cases guarded : s.guarded.getLsbD l = true
    · rw [if_pos guarded, if_pos guarded]
      dsimp only
      rw [if_pos (within l guarded)]
    · rw [if_neg guarded, if_neg guarded]

/-! ### VIDXW (R132) -/

/-- Registers of lanes written, each lane's own by its number. -/
def Group.setRegs (g : Group) (ls : List Nat) (reg : Nat → Nat) (x : Nat → Word) : Group := ls.foldl (fun g l => g.setV (reg l) l (x l)) g

theorem Group.setRegs_frame (g : Group) (ls : List Nat) (reg : Nat → Nat) (x : Nat → Word) :
    g.setRegs ls reg x = { g with v := (g.setRegs ls reg x).v } := by
  induction ls generalizing g with
  | nil => rfl
  | cons l r ih => exact ih (g.setV (reg l) l (x l))

theorem Group.vr_setRegs (g : Group) (ls : List Nat) (reg : Nat → Nat) (x : Nat → Word) (lanes : ∀ l ∈ ls, l < 64) (r : Nat) {l : Nat}
    (hl : l < 64) : (g.setRegs ls reg x).vr r l = if l ∈ ls ∧ reg l = r then x l else g.vr r l := by
  induction ls generalizing g with
  | nil => exact (if_neg (fun h => nomatch h.1)).symm
  | cons k rest ih =>
    refine (ih (g.setV (reg k) k (x k)) fun j mem => lanes j (.tail _ mem)).trans ?_
    rw [vr_setV _ _ _ _ _ _ (lanes k (.head _)) hl]
    by_cases own : l = k
    · subst own
      by_cases num : reg l = r
      · simp [num]
      · simp [num, Ne.symm num]
    · simp [own]

/-- The group's record after a VIDXW, no fault recorded yet. -/
def vidxwGroup (s : State) (d a : Operand) : Group := s.g.setRegs (s.lanesBelow a s.g.allot) (fun l => (s.rd a l).toNat) (s.rd d)

theorem exec_vidxw_eq (s : State) (d a : Operand) : exec (.vidxw d a) s =
    .next ((s.lanesBeyond a s.g.allot).foldl (fun t l => t.laneFault l 5 (s.rd a l).toNat) (s.setG (vidxwGroup s d a))) := by
  rw [← s.lanesBeyond_not_lt]
  rfl

/-- VIDXW: the registers named by the lanes whose index is in range, and the faults of the others. -/
theorem exec_vidxw (s : State) (d a : Operand) : ∃ t, exec (.vidxw d a) s = .next t ∧ GroupOnly s t ∧ t.iss = s.iss ∧
    FaultsTaken s t false (s.lanesBeyond a s.g.allot) (fun _ => 5) (fun l => (s.rd a l).toNat) ∧
    t.g = { s.g with v := t.g.v, recs := t.g.recs, faults := t.g.faults } ∧
    ∀ r l, l < 64 → t.g.vr r l =
      if s.guarded.getLsbD l ∧ (s.rd a l).toNat = r ∧ r < s.g.allot then s.rd d l else s.g.vr r l := by
  have done := laneFaults_regrouped (s.lanesBeyond a s.g.allot) (fun _ => 5) (fun l => (s.rd a l).toNat) ((Regrouped.refl s).setG (vidxwGroup s d a))
  have only := (vidxwGroup s d a).faultAll_eq { s.iss with seq := s.nextUid } false
    (faultsOf (s.lanesBeyond a s.g.allot) (fun _ => 5) (fun l => (s.rd a l).toNat))
  have frame : vidxwGroup s d a = { s.g with v := (vidxwGroup s d a).v } := Group.setRegs_frame ..
  refine ⟨_, exec_vidxw_eq s d a, done.groupOnly, done.iss, ?_, ?_, fun r l hl => ?_⟩
  · exact faultsTaken_faultAll (i := { s.iss with seq := s.nextUid }) rfl rfl rfl (g := vidxwGroup s d a) (by rw [frame]) (by rw [frame]) (by rw [frame])
      (by rw [done.g]) (by rw [done.g])
  · rw [done.g, only, frame]
  · have v : (Group.faultAll (vidxwGroup s d a) { s.iss with seq := s.nextUid } false
        (faultsOf (s.lanesBeyond a s.g.allot) (fun _ => 5) (fun l => (s.rd a l).toNat))).v = (vidxwGroup s d a).v := by rw [only]
    rw [done.g, Group.vr_eq v]
    refine (Group.vr_setRegs _ _ _ _ (fun k mem => lt_of_getLsbD (State.mem_lanesBelow.1 mem).1) r hl).trans (if_congr ?_ rfl rfl)
    rw [State.mem_lanesBelow, and_assoc, and_congr_right_iff]
    intro _
    constructor
    · rintro ⟨within, rfl⟩
      exact ⟨rfl, within⟩
    · rintro ⟨rfl, within⟩
      exact ⟨within, rfl⟩

/-- VIDXW with every index in range. -/
theorem vidxw_within {s : State} (d a : Operand) (within : ∀ l, s.guarded.getLsbD l = true → (s.rd a l).toNat < s.g.allot) :
    ∃ t, exec (.vidxw d a) s = .next t ∧ RegsOnly s t ∧ t.iss = s.iss ∧ t.g.s = s.g.s ∧
      ∀ r l, l < 64 → t.g.vr r l = if s.guarded.getLsbD l ∧ (s.rd a l).toNat = r then s.rd d l else s.g.vr r l := by
  obtain ⟨t, ran, only, iss, faulted, group, regs⟩ := exec_vidxw s d a
  rw [State.lanesBeyond_eq_nil within] at faulted
  obtain ⟨recs, faults⟩ := faultsTaken_none faulted
  have sregs : t.g.s = s.g.s := by rw [group]
  refine ⟨t, ran, ⟨only, ?_⟩, iss, sregs, fun r l hl => (regs r l hl).trans (if_congr ?_ rfl rfl)⟩
  · rw [recs, faults] at group
    rw [sregs]
    exact group
  · rw [and_congr_right_iff]
    exact fun guarded => and_iff_left_of_imp fun e => e ▸ within l guarded

/-- Settles O31: each move by its own lemma. -/
theorem laneMoves : Obligations.LaneMoves := by
  intro s w d a b n m k
  refine ⟨fun wf => ⟨_, rfl, laneResult_vdst s w (wf_vdst _ wf d rfl) false _⟩, fun wf => ⟨_, rfl, laneResult_vdst s w (wf_vdst _ wf d rfl) false _⟩,
    exec_vread s m a k, exec_vwrite s n a k, fun wf within => vidx_within w a (wf_vdst _ wf d rfl) within,
    fun wf _ => exec_vidx s w a (wf_vdst _ wf d rfl), vidxw_within d a, fun _ => exec_vidxw s d a⟩

end Sys2Proof.Machine
end

section
/-! The obligation of the reductions over lanes: O32. -/

namespace Sys2Proof.Machine

open Sys2Proof

/-! ### The tree over lanes (R133) -/

/-- A level combines the values of neighbours. -/
theorem treeLevel_range {α : Type} (f : α → α → α) (m : Nat) (t : Nat → α) :
    treeLevel f ((List.range (2 * m)).map t) = (List.range m).map (fun l => f (t (2 * l)) (t (2 * l + 1))) := by
  induction m generalizing t with
  | zero => rfl
  | succ m ih =>
    have values : (List.range (2 * (m + 1))).map t = t 0 :: t 1 :: (List.range (2 * m)).map (fun l => t (l + 2)) := by
      rw [Nat.mul_succ, List.range_succ_eq_map, List.range_succ_eq_map]
      simp only [List.map_cons, List.map_map]
      rfl
    rw [values, treeLevel, ih, List.range_succ_eq_map, List.map_cons, List.map_map]
    rfl

/-- The lowest level of the tree taken first. -/
theorem pairTree_succ {α : Type} (f : α → α → α) (k : Nat) (t : Nat → α) :
    pairTree f (k + 1) t = pairTree f k (fun l => f (t (2 * l)) (t (2 * l + 1))) := by
  induction k generalizing t with
  | zero => rfl
  | succ k ih =>
    rw [pairTree, ih, ih, pairTree]
    have shift : ∀ l, 2 * (l + 2 ^ k) = 2 * l + 2 ^ (k + 1) := fun l => by rw [mul_add, pow_succ']
    simp only [shift, Nat.add_right_comm]

/-- Enough levels over a power of two of lanes leave the tree's one value. -/
theorem treeReduce_range {α : Type} (f : α → α → α) {k n : Nat} (levels : k ≤ n) (t : Nat → α) :
    treeReduce f n ((List.range (2 ^ k)).map t) = [pairTree f k t] := by
  induction n generalizing k t with
  | zero =>
    obtain rfl := Nat.le_zero.1 levels
    rfl
  | succ n ih =>
    cases k with
    | zero => exact ih n.zero_le t
    | succ k => rw [treeReduce, pow_succ', treeLevel_range, ih (Nat.le_of_succ_le_succ levels), pairTree_succ]

/-- The tree of an image. -/
theorem map_pairTree {α β : Type} {f : α → α → α} {f' : β → β → β} {g : α → β} (hom : ∀ x y, g (f x y) = f' (g x) (g y)) (k : Nat) (t : Nat → α) :
    g (pairTree f k t) = pairTree f' k (fun l => g (t l)) := by
  induction k generalizing t with
  | zero => rfl
  | succ k ih => rw [pairTree, hom, ih, ih, pairTree]

/-- The tree over the lanes of a group. -/
theorem treeReduce_treeInput {α : Type} {s : State} {k : Nat} (f : α → α → α) (ident : α) (val : Nat → α) (width : s.g.width = 2 ^ k) (le : k ≤ 6) :
    treeReduce f 6 (s.treeInput ident val) = [pairTree f k (fun l => if s.iss.mask.getLsbD l then val l else ident)] := by
  rw [State.treeInput, width, treeReduce_range f le]

/-! ### REDI -/

/-- A function of R133's integer table: its word, its vdst field, its element function and its identity. -/
theorem redInteger_form {i : Instr} {fn : BitVec 8} {w : Bool} {d a : Operand} {f : Nat → Nat → Nat → Nat} {ident : Nat → Nat}
    (h : redInteger i = some (fn, w, d, a, f, ident)) :
    encodeCore i = some (formA 0x66 w d.code a.code fn) ∧ i.view.d = some (.vdst, d) ∧
      ∃ g absent, Computes g (fun n x y _ => f n x y) ∧ (∀ n, 0 < n → BitVec.toNat (absent n) = ident n) ∧
        ∀ s, exec i s = .next (s.redInt w d a g absent) := by
  cases i <;> cases h
  case rediadd => exact ⟨rfl, rfl, _, _, opAdd_computes, fun _ _ => BitVec.toNat_zero, fun _ => rfl⟩
  case redimax => exact ⟨rfl, rfl, _, _, opMax_computes, fun _ pos => BitVec.toNat_intMin_of_pos pos, fun _ => rfl⟩
  case redimin => exact ⟨rfl, rfl, _, _, opMin_computes, fun _ _ => BitVec.toNat_intMax, fun _ => rfl⟩
  case redimaxn => exact ⟨rfl, rfl, _, _, opMaxn_computes, fun _ _ => BitVec.toNat_zero, fun _ => rfl⟩
  case rediminn => exact ⟨rfl, rfl, _, _, opMinn_computes, fun _ _ => BitVec.toNat_allOnes, fun _ => rfl⟩

theorem elemWidth_pos (it : Nat) : 0 < elemWidth it := by
  unfold elemWidth
  split <;> decide

/-- REDI: every element of the result is the tree of the lanes' elements. -/
theorem redInt_results {i : Instr} {s : State} {w : Bool} {d a : Operand} {g : IntOp} {absent : (n : Nat) → BitVec n} {f : Nat → Nat → Nat → Nat}
    {ident : Nat → Nat} {k : Nat} (num : Computes g (fun n x y _ => f n x y)) (missing : ∀ n, 0 < n → (absent n).toNat = ident n)
    (ran : exec i s = .next (s.redInt w d a g absent)) (vector : d.isV = true) (width : s.g.width = 2 ^ k) (le : k ≤ 6) :
    ∃ t x, exec i s = .next t ∧ LaneWritten s t w d (modeItype s.g.mode == 3) x ∧
      ∀ l e, e < elemCount (modeItype s.g.mode) →
        let n := elemWidth (modeItype s.g.mode)
        elemNat n (x l) e = pairTree (f n) k (fun j => if s.iss.mask.getLsbD j then elemNat n (s.rd64 a j) e else ident n) := by
  refine ⟨_, _, ran, laneResult_vdst s w vector _ _, fun l e he => ?_⟩
  intro n
  have element (x y : DWord) : elemNat n (mapElems s.itype g x y 0) e = f n (elemNat n x e) (elemNat n y e) := by
    rw [State.itype, elemNat_mapElems _ _ _ _ _ _ he, num, toNat_elem, toNat_elem]
  have none : elemNat n (immElems s.itype absent) e = ident n := by
    rw [State.itype, immElems, elemNat_mapElems _ _ _ _ _ _ he, missing _ (elemWidth_pos _)]
  rw [treeReduce_treeInput _ _ _ width le, List.headD_cons, map_pairTree (g := fun x => elemNat n x e) element]
  simp only [apply_ite (fun x => elemNat n x e), none]

/-! ### REDF -/

/-- Every element of a packed register of a format is the list's, modulo its width. -/
theorem elemNat_packFormat {f : Fmt} {e : Nat} (one : Nat → Nat) (he : e < fCount f) :
    elemNat f.bits (BitVec.ofNat 64 (packElems f.bits ((List.range (fCount f)).map one))) e = one e % 2 ^ f.bits := by
  have fits : f.bits * ((List.range (fCount f)).map one).length ≤ 64 := by
    rw [List.length_map, List.length_range]
    exact (Nat.mul_div_le 32 f.bits).trans (by decide)
  rw [elemNat_packElems fits, List.getD_eq_getElem _ _ (by simpa using he), List.getElem_map, List.getElem_range]

/-- REDFADD: every element of the result is the tree of the lanes' elements, each node rounded. -/
theorem redFadd_results {s : State} (w : Bool) {d : Operand} (a : Operand) {k : Nat} (vector : d.isV = true) (width : s.g.width = 2 ^ k) (le : k ≤ 6) :
    ∃ t v, exec (.redfadd w d a) s = .next t ∧ LaneWritten s t w d false v ∧ ∀ l e, e < fCount s.fmt →
      elemNat s.fmt.bits (v l) e = pairTree (fun p q => roundFmt ((s.fmt.value p).add s.rnd (s.fmt.value q)) s.fmt s.rnd s.sat) k
        (fun j => if s.iss.mask.getLsbD j then fElem s.fmt (s.rd a j) e else s.fmt.signW) % 2 ^ s.fmt.bits := by
  refine ⟨_, _, rfl, laneResult_vdst s w vector _ _, fun l e he => ?_⟩
  rw [elemNat_packFormat _ he, treeReduce_treeInput _ _ _ width le, List.headD_cons]

/-- REDFMAX and REDFMIN: every element of the result is the tree over the lanes that are there. -/
theorem redFlt_results {i : Instr} {s : State} {w : Bool} {d a : Operand} {g : Nat → Nat → Nat} {k : Nat}
    (ran : exec i s = .next (s.redFlt w d a g)) (vector : d.isV = true) (width : s.g.width = 2 ^ k) (le : k ≤ 6) :
    ∃ t v, exec i s = .next t ∧ LaneWritten s t w d false v ∧ ∀ l e, e < fCount s.fmt →
      let p := (pairTree (orOther g) k (fun j => if s.iss.mask.getLsbD j then some (fElem s.fmt (s.rd a j) e) else none)).getD 0
      elemNat s.fmt.bits (v l) e = (if s.fmt.value p = .nan then s.fmt.nan.getD 0 else p) % 2 ^ s.fmt.bits := by
  refine ⟨_, _, ran, laneResult_vdst s w vector _ _, fun l e he => ?_⟩
  rw [elemNat_packFormat _ he, treeReduce_treeInput _ _ _ width le]
  simp only [isNan_iff]
  rfl

/-- Settles O32: the integer functions by their table, then REDFADD, REDFMAX and REDFMIN. -/
theorem reductions : Obligations.Reductions := by
  refine ⟨fun i fn w d a f ident s k table wf width le => ?_, fun w d a s k wf width le => ?_⟩
  · obtain ⟨word, dst, g, absent, num, missing, ran⟩ := redInteger_form table
    exact ⟨word, redInt_results num missing (ran s) (wf_vdst i wf d dst) width le⟩
  · have vector := wf_vdst _ wf d rfl
    refine ⟨redFadd_results w a vector width le, fun i g form => ?_⟩
    subst form
    cases g
    · exact redFlt_results rfl vector width le
    · exact redFlt_results rfl vector width le

end Sys2Proof.Machine
end

section
/-! SUPPORT. Accesses of lanes to the local store (R136, R137): the lanes that pass, the faults of the others, and the bytes that they store. -/

namespace Sys2Proof.Machine

open Sys2Proof

/-! ### The lanes of an access -/

theorem modeBytes_pos (m : Word) : 0 < modeBytes m := Nat.two_pow_pos _

section
variable (s : State) (a : Operand) (i : BitVec 8)

/-- The check of R136 by its two conditions. -/
theorem localCheck_eq (l : Nat) : localCheck s.team.lsSize (modeBytes s.g.mode) (s.localAddr a i (modeBytes s.g.mode) l) =
    if localPasses s a i l then .ok (s.localAddr a i (modeBytes s.g.mode) l).toNat else .error (if localInside s a i l then 3 else 1) := by
  unfold localPasses localInside localCheck
  generalize s.localAddr a i (modeBytes s.g.mode) l = x
  by_cases inside : 0 ≤ x ∧ x + modeBytes s.g.mode ≤ s.team.lsSize
  · obtain ⟨y, rfl⟩ := Int.eq_ofNat_of_zero_le inside.1
    have out : ¬ (decide ((y : Int) < 0) || decide ((s.team.lsSize : Int) < y + modeBytes s.g.mode)) = true := by
      simp only [Bool.or_eq_true, decide_eq_true_eq]
      omega
    rw [if_neg out, decide_eq_true inside.1, decide_eq_true inside.2]
    have residue : (y : Int) % modeBytes s.g.mode = 0 ↔ y % modeBytes s.g.mode = 0 := by rw [← Int.natCast_mod, Int.natCast_eq_zero]
    by_cases aligned : y % modeBytes s.g.mode = 0
    · rw [decide_eq_true (residue.2 aligned)]
      exact if_neg (not_not.2 aligned)
    · rw [decide_eq_false (mt residue.1 aligned)]
      exact if_pos aligned
  · have out : (decide (x < 0) || decide ((s.team.lsSize : Int) < x + modeBytes s.g.mode)) = true := by
      simp only [Bool.or_eq_true, decide_eq_true_eq]
      omega
    have outside : (decide (0 ≤ x) && decide (x + modeBytes s.g.mode ≤ s.team.lsSize)) = false := by
      simp only [Bool.and_eq_false_iff, decide_eq_false_iff_not]
      omega
    rw [if_pos out, outside]
    rfl

/-- The accesses that pass, as lanes with their addresses. -/
theorem localGood_eq (ls : List Nat) : s.localGood ls a i (modeBytes s.g.mode) =
    (ls.filter (localPasses s a i)).map (fun l => (l, (s.localAddr a i (modeBytes s.g.mode) l).toNat)) := by
  unfold State.localGood
  simp only [localCheck_eq]
  induction ls with
  | nil => rfl
  | cons l r ih =>
    by_cases pass : localPasses s a i l = true
    · rw [List.filterMap_cons, List.filter_cons, if_pos pass, if_pos pass, ih]
      rfl
    · rw [List.filterMap_cons, List.filter_cons, if_neg pass, if_neg pass, ih]

/-- The faults of an access, over the lanes that do not pass. -/
theorem localFaults_eq (scalar : Bool) (ls : List Nat) : s.localFaults scalar ls a i (modeBytes s.g.mode) =
    (ls.filter (fun l => !localPasses s a i l)).foldl (fun t l =>
      t.accessFault scalar l (if localInside s a i l then 3 else 1) (addr64 (s.localAddr a i (modeBytes s.g.mode) l))) s := by
  unfold State.localFaults
  rw [List.foldl_filter]
  congr 1
  funext t l
  rw [localCheck_eq]
  cases localPasses s a i l <;> rfl

end

/-- Accesses fail one after the other. -/
theorem accessFaults_regrouped {s t : State} {g : Group} (scalar : Bool) (ls : List Nat) (kind addr : Nat → Nat) (h : Regrouped s g t) :
    Regrouped s (g.faultAll s.iss scalar (faultsOf ls kind addr)) (ls.foldl (fun t l => t.accessFault scalar l (kind l) (addr l)) t) := by
  unfold Group.faultAll faultsOf
  rw [List.foldl_map]
  refine Regrouped.fold (fun u g l h => ?_) ls h
  have faulted := h.modG (fun g => g.accessFault u.iss scalar l (kind l) (addr l))
  unfold State.accessFault
  rwa [h.iss] at faulted ⊢

/-- The group's time goes on. -/
def Group.busier (g : Group) (n : Nat) : Group := { g with busy := g.busy + n }

/-- What an access leaves of the groups where some of its lanes have failed. -/
theorem accessOnly_of {s t u : State} {scalar : Bool} {ls : List Nat} {kind addr : Nat → Nat} {n : Nat}
    (left : Regrouped s ((s.g.faultAll s.iss scalar (faultsOf ls kind addr)).busier n) u) (iss : t.iss = s.iss) (cur : t.cur = s.cur)
    (groups : t.groups = u.groups) : AccessOnly s t ∧ FaultsTaken s t scalar ls kind addr := by
  have mine : t.g = (s.g.faultAll s.iss scalar (faultsOf ls kind addr)).busier n := by
    rw [State.g, cur, State.group_of_groups groups, ← left.cur]
    exact left.g
  refine ⟨⟨iss, fun k other => (State.group_of_groups groups k).trans (left.others k other), ?_⟩, ?_⟩
  · rw [mine, Group.busier, Group.faultAll_eq]
  · exact faultsTaken_faultAll (i := s.iss) (g := s.g) rfl rfl rfl rfl rfl rfl (by rw [mine]; rfl) (by rw [mine]; rfl)

/-- The faults and the time of an access of lanes. -/
theorem localAccess_left {s t : State} {scalar : Bool} {ls : List Nat} {a : Operand} {i : BitVec 8} (good : List (Nat × Nat)) (iss : t.iss = s.iss)
    (cur : t.cur = s.cur) (groups : t.groups = ((s.localFaults scalar ls a i (modeBytes s.g.mode)).countBanks good).groups) :
    AccessOnly s t ∧ LocalFaults s t scalar ls a i := by
  have left := (accessFaults_regrouped scalar (ls.filter (fun l => !localPasses s a i l)) (fun l => if localInside s a i l then 3 else 1)
    (fun l => addr64 (s.localAddr a i (modeBytes s.g.mode) l)) (.refl s)).modG (fun g => g.busier (bankCycles (good.map Prod.snd)))
  rw [← localFaults_eq] at left
  exact accessOnly_of left iss cur groups

/-- The time of banks is of the groups' records alone. -/
theorem countBanks_groups {u v : State} (good : List (Nat × Nat)) (groups : u.groups = v.groups) (cur : u.cur = v.cur) :
    (u.countBanks good).groups = (v.countBanks good).groups := by
  unfold State.countBanks State.countC State.modCore State.setCore State.modG State.setG State.setGroup State.g State.group
  rw [groups, cur]

/-! ### Bytes of the local store -/

theorem lsLoc_beyond (s : State) (x : Nat) : tableLoc (2 ^ 48) ≤ s.lsLoc x := by
  unfold State.lsLoc localLoc tableLoc
  omega

/-- Nothing differs but the bytes and the words that are empty. -/
def BytesOnly (s t : State) : Prop :=
  t = { s with mem := t.mem, basin := t.basin, tags := t.tags, veils := t.veils, empties := t.empties }

theorem BytesOnly.refl (s : State) : BytesOnly s s := rfl

theorem BytesOnly.trans {s t u : State} (h : BytesOnly s t) (k : BytesOnly t u) : BytesOnly s u :=
  Eq.trans k (congrArg (fun x : State => { x with mem := u.mem, basin := u.basin, tags := u.tags, veils := u.veils, empties := u.empties }) h :)

theorem storeNat_only (s : State) (loc slot n v : Nat) : BytesOnly s (s.storeNat loc slot n v) := by
  obtain ⟨m, x, t, v, stored⟩ := s.storeBytes_frame loc slot (bytesOf n v)
  unfold BytesOnly State.storeNat
  rw [stored]

theorem setFull_only (s : State) (loc n : Nat) : BytesOnly s (s.setFull loc n) := rfl

theorem storeNat_inv {s : State} (inv : Inv s) {loc : Nat} (slot n v : Nat) (beyond : tableLoc (2 ^ 48) ≤ loc) : Inv (s.storeNat loc slot n v) := by
  have tags : s.tagUnits loc slot (bytesOf n v).length = s := if_neg (by simp [Nat.not_lt.2 (hostLoc_le beyond)])
  have put (bs : List Byte) : ∀ s : State, Inv s → ∀ loc, Inv (s.putBytes loc bs) := by
    induction bs with
    | nil => exact fun s inv _ => inv
    | cons b r ih => exact fun s inv loc => ih _ (s.storeByte_inv inv loc b) (loc + 1)
  unfold State.storeNat State.storeBytes
  rw [tags]
  exact put _ s inv loc

/-- A number read where no byte differs. -/
theorem natAt_congr {s t : State} {loc n : Nat} (same : ∀ k, k < n → t.byteAt (loc + k) = s.byteAt (loc + k)) : t.natAt loc n = s.natAt loc n := by
  unfold State.natAt State.bytesAt
  rw [List.map_congr_left fun k mem => same k (List.mem_range.1 mem)]

/-- Accesses in their order, each storing in its own place: bytes outside all places stand. -/
theorem byteAt_foldl_out {α : Type} {f : State → α → State} {loc : α → Nat} {n x : Nat} {l : List α}
    (out : ∀ t, ∀ b ∈ l, x < loc b ∨ loc b + n ≤ x → (f t b).byteAt x = t.byteAt x) (away : ∀ b ∈ l, x < loc b ∨ loc b + n ≤ x) (s : State) :
    (l.foldl f s).byteAt x = s.byteAt x :=
  foldl_rel (R := fun s t : State => t.byteAt x = s.byteAt x) (fun _ => rfl) (fun h k => k.trans h) f l (fun t b mem => out t b mem (away b mem)) s

theorem inv_foldl {α : Type} {f : State → α → State} {l : List α} (keep : ∀ t, ∀ b ∈ l, Inv t → Inv (f t b)) {s : State} (inv : Inv s) :
    Inv (l.foldl f s) :=
  foldl_rel (R := fun s t : State => Inv s → Inv t) (fun _ => id) (fun h k => k ∘ h) f l keep s inv

/-- What an access stores stands where no later one stores. -/
theorem byteAt_foldl_in {α : Type} {f : State → α → State} {loc : α → Nat} {n x : Nat} {v : Byte} {before after : List α} {b : α}
    (out : ∀ t, ∀ c ∈ after, x < loc c ∨ loc c + n ≤ x → (f t c).byteAt x = t.byteAt x) (away : ∀ c ∈ after, x < loc c ∨ loc c + n ≤ x)
    (keep : ∀ t, ∀ c ∈ before, Inv t → Inv (f t c)) (stored : ∀ t, Inv t → (f t b).byteAt x = v) {s : State} (inv : Inv s) :
    ((before ++ b :: after).foldl f s).byteAt x = v := by
  rw [List.foldl_append, List.foldl_cons, byteAt_foldl_out out away]
  exact stored _ (inv_foldl keep inv)

/-- Accesses in their order, each filling its own words. -/
theorem empties_foldl_fill {α : Type} {f : State → α → State} {lo hi : α → Nat} {w : Nat}
    (step : ∀ t b, w ∈ (f t b).empties ↔ w ∈ t.empties ∧ (w < lo b ∨ hi b ≤ w)) (l : List α) (s : State) :
    w ∈ (l.foldl f s).empties ↔ w ∈ s.empties ∧ ∀ b ∈ l, w < lo b ∨ hi b ≤ w := by
  induction l generalizing s with
  | nil => exact (and_iff_left fun _ mem => nomatch mem).symm
  | cons b r ih => rw [List.foldl_cons, ih, step, List.forall_mem_cons, and_assoc]

end Sys2Proof.Machine
end

section
/-! SUPPORT. LDL, STL, ALADD and ALCAS of any lanes (R141 to R146). -/

namespace Sys2Proof.Machine

open Sys2Proof

section
variable (s : State) (a : Operand) (i : BitVec 8)

/-- The lanes of an access that pass R136. -/
def localLanes (scalar : Bool) : List Nat := (s.accessLanes scalar).filter (localPasses s a i)

/-- Their addresses. -/
def localPairs (scalar : Bool) : List (Nat × Nat) :=
  (localLanes s a i scalar).map (fun l => (l, (s.localAddr a i (modeBytes s.g.mode) l).toNat))

theorem localGood_lanes (scalar : Bool) : s.localGood (s.accessLanes scalar) a i (modeBytes s.g.mode) = localPairs s a i scalar := localGood_eq ..

/-- The state of an access whose other lanes have failed, and whose banks' time is taken. -/
def localBegun (scalar : Bool) : State :=
  (s.localFaults scalar (s.accessLanes scalar) a i (modeBytes s.g.mode)).countBanks (localPairs s a i scalar)

/-- What a lane loads from its place: the value that stands there. -/
def localPart (l : Nat) : LoadPart where
  lane := l
  space := 0
  loc := localPlace s a i l
  value := some (extendValue s.g.mode (modeBytes s.g.mode) (s.natAt (localPlace s a i l) (modeBytes s.g.mode)))
  expo := none

end

theorem localPlace_beyond (s : State) (a : Operand) (i : BitVec 8) (l : Nat) : tableLoc (2 ^ 48) ≤ localPlace s a i l := lsLoc_beyond ..

theorem localLanes_nodup (s : State) (a : Operand) (i : BitVec 8) (scalar : Bool) : (localLanes s a i scalar).Nodup :=
  (accessLanes_nodup s scalar).filter _

/-- The faults of lanes change the group's record alone. -/
theorem localFaults_only (s : State) (scalar : Bool) (ls : List Nat) (a : Operand) (i : BitVec 8) :
    let t := s.localFaults scalar ls a i (modeBytes s.g.mode)
    t = { s with groups := t.groups } := by
  rw [localFaults_eq]
  exact (accessFaults_regrouped scalar _ _ _ (.refl s)).rest

theorem localBegun_only (s : State) (a : Operand) (i : BitVec 8) (scalar : Bool) :
    localBegun s a i scalar = { s with groups := (localBegun s a i scalar).groups, cores := (localBegun s a i scalar).cores } :=
  (congrArg (fun t : State => { t with groups := (localBegun s a i scalar).groups, cores := (localBegun s a i scalar).cores })
    (localFaults_only s scalar (s.accessLanes scalar) a i) :)

/-- What the accesses of a state go through, where its issue and its groups are those of an access that has begun. -/
theorem localBegun_left {s t : State} {a : Operand} {i : BitVec 8} {scalar : Bool} (iss : t.iss = s.iss) (cur : t.cur = s.cur)
    (groups : t.groups = (localBegun s a i scalar).groups) :
    AccessOnly s t ∧ LocalFaults s t scalar (s.accessLanes scalar) a i :=
  localAccess_left (localPairs s a i scalar) iss cur groups

/-- An access that is neither held back nor meets a range of the scoreboard. -/
theorem localFree {s : State} {scalar write : Bool} {a : Operand} {i : BitVec 8} {n : Nat} (free : s.fenceHeld 0 = false)
    (clear : s.localBlocked (s.localGood (s.accessLanes scalar) a i n) n write = false) :
    ¬ (s.fenceHeld 0 || s.localBlocked (s.localGood (s.accessLanes scalar) a i n) n write) = true := by
  rw [free, clear]
  decide

/-! ### LDL (R142, R144) -/

theorem exec_ldl {s : State} {d a : Operand} {i : BitVec 8} (free : s.fenceHeld 0 = false)
    (clear : s.localBlocked (s.localGood (s.accessLanes d.isS) a i (modeBytes s.g.mode)) (modeBytes s.g.mode) false = false) :
    exec (.ldl d a i) s = .next ((localBegun s a i d.isS).addLoad d.isS (regNum d) (modeBytes s.g.mode)
      ((localLanes s a i d.isS).map (localPart s a i))) := by
  have ran : exec (.ldl d a i) s = .next (s.localLoad d.isS d a i) := rfl
  rw [ran, State.localLoad]
  dsimp only
  rw [if_neg (localFree free clear), localGood_lanes, localPairs, List.map_map]
  rfl

/-- LDL: one load of the lanes that pass. -/
theorem exec_ldl_loads {s : State} {d a : Operand} {i : BitVec 8} (free : s.fenceHeld 0 = false)
    (clear : s.localBlocked (s.localGood (s.accessLanes d.isS) a i (modeBytes s.g.mode)) (modeBytes s.g.mode) false = false) :
    let good := localLanes s a i d.isS
    ∃ t, exec (.ldl d a i) s = .next t ∧ AccessOnly s t ∧ LocalFaults s t d.isS (s.accessLanes d.isS) a i ∧ t.mem = s.mem ∧ t.empties = s.empties ∧
      t.reqs = s.reqs ∧ (good = [] → t.loads = s.loads) ∧ (good ≠ [] → LoadMade s t d.isS (regNum d) (good.map (localPart s a i))) := by
  have begun := localBegun_only s a i d.isS
  have frame := (localBegun s a i d.isS).addLoad_frame d.isS (regNum d) (modeBytes s.g.mode) ((localLanes s a i d.isS).map (localPart s a i))
  have cur : (localBegun s a i d.isS).cur = s.cur := (congrArg State.cur begun :)
  have iss : (localBegun s a i d.isS).iss = s.iss := (congrArg State.iss begun :)
  have loads : (localBegun s a i d.isS).loads = s.loads := (congrArg State.loads begun :)
  obtain ⟨⟨-, -, group⟩, -⟩ := localBegun_left (t := localBegun s a i d.isS) iss cur rfl
  obtain ⟨only, faults⟩ := localBegun_left (s := s) (a := a) (i := i) (scalar := d.isS) ((congrArg State.iss frame :).trans iss)
    ((congrArg State.cur frame :).trans cur) (congrArg State.groups frame :)
  refine ⟨_, exec_ldl free clear, only, faults, (congrArg State.mem frame :).trans (congrArg State.mem begun :),
    (congrArg State.empties frame :).trans (congrArg State.empties begun :), (congrArg State.reqs frame :).trans (congrArg State.reqs begun :),
    fun none => ?_, fun some' => ?_⟩
  · rw [none]
    exact loads
  · exact s.addLoad_made d.isS (regNum d) (mt List.map_eq_nil_iff.1 some') cur iss loads (by rw [group]; rfl)

/-! ### STL (R141, R143) -/

theorem byteAt_setFull (s : State) (loc n x : Nat) : (s.setFull loc n).byteAt x = s.byteAt x := rfl

theorem inv_setFull {s : State} {loc n : Nat} (inv : Inv s) : Inv (s.setFull loc n) := inv

section
variable (s : State) (a : Operand) (i : BitVec 8)

/-- The bytes of a lane stored in its place. -/
def localPut (v : State → Nat → Nat) (t : State) (l : Nat) : State := t.storeNat (localPlace s a i l) 0 (modeBytes s.g.mode) (v t l)

/-- The same, and the words that they cover made full. -/
def localFill (d : Operand) (t : State) (l : Nat) : State :=
  (localPut s a i (fun _ l => (s.rd128 d l).toNat) t l).setFull (localPlace s a i l) (modeBytes s.g.mode)

variable {s a i}

theorem localPut_out {v : State → Nat → Nat} {l x : Nat} (t : State) (out : x < localPlace s a i l ∨ localPlace s a i l + modeBytes s.g.mode ≤ x) :
    (localPut s a i v t l).byteAt x = t.byteAt x := t.byteAt_storeNat_out (localPlace_beyond ..) out

theorem localFill_out {d : Operand} {l x : Nat} (t : State) (out : x < localPlace s a i l ∨ localPlace s a i l + modeBytes s.g.mode ≤ x) :
    (localFill s a i d t l).byteAt x = t.byteAt x :=
  (byteAt_setFull ..).trans (localPut_out t out)

theorem localPut_in {v : State → Nat → Nat} {l k : Nat} {t : State} (inv : Inv t) (inside : k < modeBytes s.g.mode) :
    (localPut s a i v t l).byteAt (localPlace s a i l + k) = BitVec.ofNat 8 (v t l / 256 ^ k) :=
  t.byteAt_storeNat_in inv (localPlace_beyond ..) inside

theorem localPut_inv {v : State → Nat → Nat} {l : Nat} {t : State} (inv : Inv t) : Inv (localPut s a i v t l) :=
  storeNat_inv inv _ _ _ (localPlace_beyond ..)

theorem localFill_inv {d : Operand} {l : Nat} {t : State} (inv : Inv t) : Inv (localFill s a i d t l) := inv_setFull (localPut_inv inv)

/-- In the order of the lanes the last of those that store in a place is read there. -/
theorem localFill_in {d : Operand} {ls : List Nat} (sorted : ls.Pairwise (· < ·)) {t : State} (inv : Inv t) {l k : Nat} (mem : l ∈ ls)
    (last : ∀ j ∈ ls, l < j → apart (modeBytes s.g.mode) (localPlace s a i l) (localPlace s a i j)) (inside : k < modeBytes s.g.mode) :
    (ls.foldl (localFill s a i d) t).byteAt (localPlace s a i l + k) = BitVec.ofNat 8 ((s.rd128 d l).toNat / 256 ^ k) := by
  obtain ⟨before, after, rfl⟩ := List.append_of_mem mem
  have later : ∀ j ∈ after, l < j := (List.pairwise_cons.1 (List.pairwise_append.1 sorted).2.1).1
  refine byteAt_foldl_in (loc := localPlace s a i) (n := modeBytes s.g.mode) (fun t j _ => localFill_out t) (fun j hj => ?_)
    (fun t j _ => localFill_inv) (fun t inv => (byteAt_setFull ..).trans (localPut_in inv inside)) inv
  have := last j (List.mem_append_right _ (List.mem_cons_of_mem _ hj)) (later j hj)
  unfold apart at this
  omega

theorem localFill_only (d : Operand) (ls : List Nat) (t : State) : BytesOnly t (ls.foldl (localFill s a i d) t) :=
  foldl_rel BytesOnly.refl BytesOnly.trans _ ls (fun t _ _ => (storeNat_only t _ _ _ _).trans (setFull_only _ _ _)) t

theorem storeNat_empties (t : State) (loc slot n v : Nat) : (t.storeNat loc slot n v).empties = t.empties := by
  obtain ⟨m, x, tags, veils, stored⟩ := t.storeBytes_frame loc slot (bytesOf n v)
  rw [State.storeNat, stored]

theorem localFill_empties (d : Operand) (ls : List Nat) (t : State) (w : Nat) : w ∈ (ls.foldl (localFill s a i d) t).empties ↔
    w ∈ t.empties ∧ ∀ l ∈ ls, w < localPlace s a i l / 4 ∨ (localPlace s a i l + modeBytes s.g.mode + 3) / 4 ≤ w := by
  refine empties_foldl_fill (fun t l => ?_) ls t
  rw [localFill, State.setFull, localPut, Empties.mem_fill, storeNat_empties]

end

end Sys2Proof.Machine
end

section
/-! SUPPORT. STL and the local atomics of any lanes (R141, R143 to R146). -/

namespace Sys2Proof.Machine

open Sys2Proof

/-! ### STL -/

theorem checkFe_posts (s : State) (ck : Nat) : Posts s (s.checkFe ck) := by
  unfold State.checkFe
  split
  · exact .post (.refl s) _
  · exact .refl s

/-- The state of an access whose other lanes have failed. -/
def localFailed (s : State) (a : Operand) (i : BitVec 8) (scalar : Bool) : State :=
  s.localFaults scalar (s.accessLanes scalar) a i (modeBytes s.g.mode)

theorem localFailed_only (s : State) (a : Operand) (i : BitVec 8) (scalar : Bool) :
    localFailed s a i scalar = { s with groups := (localFailed s a i scalar).groups } := localFaults_only ..

theorem localFailed_byteAt (s : State) (a : Operand) (i : BitVec 8) (scalar : Bool) (x : Nat) : (localFailed s a i scalar).byteAt x = s.byteAt x := by
  rw [localFailed_only]
  rfl

theorem localFailed_inv {s : State} (a : Operand) (i : BitVec 8) (scalar : Bool) (inv : Inv s) : Inv (localFailed s a i scalar) := by
  rw [localFailed_only]
  exact inv

theorem localFailed_empties (s : State) (a : Operand) (i : BitVec 8) (scalar : Bool) : (localFailed s a i scalar).empties = s.empties :=
  (congrArg State.empties (localFailed_only s a i scalar) :)

/-- STL before its time is taken. -/
def stlPut (s : State) (d a : Operand) (i : BitVec 8) : State :=
  (localLanes s a i (d.isS && a.isS)).foldl (localFill s a i d) (localFailed s a i (d.isS && a.isS))

theorem exec_stl {s : State} {d a : Operand} {i : BitVec 8} (free : s.fenceHeld 0 = false)
    (clear : s.localBlocked (s.localGood (s.accessLanes (d.isS && a.isS)) a i (modeBytes s.g.mode)) (modeBytes s.g.mode) true = false) :
    exec (.stl d a i) s = .next (((stlPut s d a i).countBanks (localPairs s a i (d.isS && a.isS))).checkFe s.g.ckey) := by
  have ran : exec (.stl d a i) s = .next (s.localStore (d.isS && a.isS) d a i) := rfl
  rw [ran, State.localStore]
  dsimp only
  rw [if_neg (localFree free clear), localGood_lanes, localPairs, List.foldl_map]
  rfl

theorem lanesOf_sorted (m : DWord) : (lanesOf m).Pairwise (· < ·) := List.pairwise_lt_range.filter _

theorem localLanes_sorted (s : State) (a : Operand) (i : BitVec 8) (scalar : Bool) : (localLanes s a i scalar).Pairwise (· < ·) := by
  refine List.Pairwise.filter _ ?_
  cases scalar
  · exact lanesOf_sorted _
  · exact List.pairwise_singleton ..

/-- What stands after the time of banks and the coming service of waiting lanes. -/
theorem storeEnd (s : State) (good : List (Nat × Nat)) (ck : Nat) : let t := (s.countBanks good).checkFe ck
    t = { s with groups := (s.countBanks good).groups, cores := t.cores, agenda := t.agenda } := by
  obtain ⟨more, posted⟩ := checkFe_posts (s.countBanks good) ck
  dsimp only
  rw [posted]
  rfl

/-- STL: each lane that passes stores its bytes and fills the words they cover. -/
theorem exec_stl_stores {s : State} {d a : Operand} {i : BitVec 8} (free : s.fenceHeld 0 = false)
    (clear : s.localBlocked (s.localGood (s.accessLanes (d.isS && a.isS)) a i (modeBytes s.g.mode)) (modeBytes s.g.mode) true = false) :
    let n := modeBytes s.g.mode
    let scalar := d.isS && a.isS
    let good := localLanes s a i scalar
    let at' := localPlace s a i
    ∃ t, exec (.stl d a i) s = .next t ∧ AccessOnly s t ∧ LocalFaults s t scalar (s.accessLanes scalar) a i ∧ t.loads = s.loads ∧ t.reqs = s.reqs ∧
      (∀ x, (∀ l ∈ good, x < at' l ∨ at' l + n ≤ x) → t.byteAt x = s.byteAt x) ∧
      (Inv s → ∀ l ∈ good, (∀ j ∈ good, l < j → apart n (at' l) (at' j)) → ∀ k, k < n →
        t.byteAt (at' l + k) = BitVec.ofNat 8 ((s.rd128 d l).toNat / 256 ^ k)) ∧
      ∀ w, w ∈ t.empties ↔ w ∈ s.empties ∧ ∀ l ∈ good, w < at' l / 4 ∨ (at' l + n + 3) / 4 ≤ w := by
  intro n scalar good at'
  have failed := localFailed_only s a i scalar
  have put := localFill_only (s := s) (a := a) (i := i) d good (localFailed s a i scalar)
  have groups := countBanks_groups (localPairs s a i scalar) (congrArg State.groups put :) (congrArg State.cur put :)
  have finished := storeEnd (stlPut s d a i) (localPairs s a i scalar) s.g.ckey
  have ran := exec_stl free clear
  generalize ht : ((stlPut s d a i).countBanks (localPairs s a i scalar)).checkFe s.g.ckey = t at ran finished
  have bytes (x : Nat) : t.byteAt x = (stlPut s d a i).byteAt x := by
    rw [finished]
    rfl
  have empties : t.empties = (stlPut s d a i).empties := (congrArg State.empties finished :)
  have iss : t.iss = s.iss := ((congrArg State.iss finished :).trans (congrArg State.iss put :)).trans (congrArg State.iss failed :)
  have cur : t.cur = s.cur := ((congrArg State.cur finished :).trans (congrArg State.cur put :)).trans (congrArg State.cur failed :)
  have loads : t.loads = s.loads := ((congrArg State.loads finished :).trans (congrArg State.loads put :)).trans (congrArg State.loads failed :)
  have reqs : t.reqs = s.reqs := ((congrArg State.reqs finished :).trans (congrArg State.reqs put :)).trans (congrArg State.reqs failed :)
  obtain ⟨only, faults⟩ := localBegun_left (s := s) (a := a) (i := i) (scalar := scalar) iss cur ((congrArg State.groups finished :).trans groups)
  refine ⟨t, ran, only, faults, loads, reqs, fun x away => ?_, fun inv l mem last k inside => ?_, fun w => ?_⟩
  · rw [bytes, ← localFailed_byteAt s a i scalar]
    exact byteAt_foldl_out (fun t j _ => localFill_out t) away _
  · rw [bytes]
    exact localFill_in (localLanes_sorted ..) (localFailed_inv a i scalar inv) mem last inside
  · rw [empties, ← localFailed_empties s a i scalar]
    exact localFill_empties ..

end Sys2Proof.Machine
end

section
/-! SUPPORT. ALADD and ALCAS of any lanes (R144 to R146). -/

namespace Sys2Proof.Machine

open Sys2Proof

/-! ### Bytes of a number -/

theorem natOf_bytes (n v : Nat) : natOf ((List.range n).map (fun k => BitVec.ofNat 8 (v / 256 ^ k))) = v % 2 ^ (8 * n) := by
  induction n generalizing v with
  | zero => exact (Nat.mod_one v).symm
  | succ n ih =>
    have rest : ∀ k, v / 256 ^ (k + 1) = v / 256 / 256 ^ k := fun k => by rw [pow_succ', Nat.div_div_eq_div_mul]
    have parts : 2 ^ (8 * (n + 1)) = 256 * 2 ^ (8 * n) := by rw [mul_add, pow_add, mul_comm]; rfl
    rw [List.range_succ_eq_map, List.map_cons, List.map_map, natOf, parts, Nat.mod_mul]
    simp only [Function.comp_def, Nat.succ_eq_add_one, rest, ih, BitVec.toNat_ofNat, pow_zero, Nat.div_one]

/-- The number that bytes at a place hold. -/
theorem natAt_of_bytes {s : State} {loc n v : Nat} (bytes : ∀ k, k < n → s.byteAt (loc + k) = BitVec.ofNat 8 (v / 256 ^ k)) :
    s.natAt loc n = v % 2 ^ (8 * n) := by
  rw [State.natAt, State.bytesAt, List.map_congr_left fun k mem => bytes k (List.mem_range.1 mem), natOf_bytes]

/-! ### The local atomics -/

section
variable (s : State) (d a : Operand) (i : BitVec 8) (f : Nat → Nat → Nat → Nat)

/-- The new value of a lane's place (R145, R146). -/
def localNew (t : State) (l : Nat) : Nat :=
  f (t.natAt (localPlace s a i l) (modeBytes s.g.mode))
    ((if modeBytes s.g.mode = 8 then (s.rd64 d l).toNat else (s.rd d l).toNat) % 2 ^ (8 * modeBytes s.g.mode))
    ((s.rdAt d l 1).toNat % 2 ^ (8 * modeBytes s.g.mode)) % 2 ^ (8 * modeBytes s.g.mode)

/-- A lane's step, with the old value as it comes back. -/
def localAtom (p : State × List LoadPart) (l : Nat) : State × List LoadPart :=
  (localPut s a i (localNew s d a i f) p.1 l, p.2 ++ [{ localPart s a i l with
    value := some (extendValue s.g.mode (modeBytes s.g.mode) (p.1.natAt (localPlace s a i l) (modeBytes s.g.mode))) }])

theorem localAtoms_fst (ls : List Nat) (p : State × List LoadPart) :
    (ls.foldl (localAtom s d a i f) p).1 = ls.foldl (localPut s a i (localNew s d a i f)) p.1 := by
  induction ls generalizing p with
  | nil => rfl
  | cons l r ih => exact ih _

variable {s d a i f}

/-- A lane's place stands while others are changed. -/
theorem natAt_localPut {v : State → Nat → Nat} {l j : Nat} (away : apart (modeBytes s.g.mode) (localPlace s a i l) (localPlace s a i j)) (t : State) :
    (localPut s a i v t j).natAt (localPlace s a i l) (modeBytes s.g.mode) = t.natAt (localPlace s a i l) (modeBytes s.g.mode) :=
  natAt_congr fun k inside => localPut_out t (by unfold apart at away; omega)

theorem natAt_localPuts {v : State → Nat → Nat} {l : Nat} {ls : List Nat}
    (away : ∀ j ∈ ls, apart (modeBytes s.g.mode) (localPlace s a i l) (localPlace s a i j)) (t : State) :
    (ls.foldl (localPut s a i v) t).natAt (localPlace s a i l) (modeBytes s.g.mode) = t.natAt (localPlace s a i l) (modeBytes s.g.mode) :=
  foldl_rel (R := fun t u : State => u.natAt (localPlace s a i l) (modeBytes s.g.mode) = t.natAt (localPlace s a i l) (modeBytes s.g.mode))
    (fun _ => rfl) (fun h k => k.trans h) _ ls (fun u j mem => natAt_localPut (away j mem) u) t

/-- Lanes that have no byte in common return the values that stood before all of them. -/
theorem localAtoms_snd {ls : List Nat} (distinct : ls.Nodup)
    (away : ∀ l ∈ ls, ∀ j ∈ ls, j ≠ l → apart (modeBytes s.g.mode) (localPlace s a i l) (localPlace s a i j)) (p : State × List LoadPart)
    (old : ∀ l ∈ ls, p.1.natAt (localPlace s a i l) (modeBytes s.g.mode) = s.natAt (localPlace s a i l) (modeBytes s.g.mode)) :
    (ls.foldl (localAtom s d a i f) p).2 = p.2 ++ ls.map (localPart s a i) := by
  induction ls generalizing p with
  | nil => exact (List.append_nil _).symm
  | cons l r ih =>
    obtain ⟨new, distinct⟩ := List.nodup_cons.1 distinct
    have apart' (j : Nat) (mem : j ∈ r) : j ≠ l := fun e => new (e ▸ mem)
    have rest := ih distinct (fun j hj k hk => away j (.tail _ hj) k (.tail _ hk)) (localAtom s d a i f p l) (fun j hj =>
      (natAt_localPut (away j (.tail _ hj) l (.head _) (apart' j hj).symm) p.1).trans (old j (.tail _ hj)))
    rw [List.foldl_cons, rest, localAtom, old l (.head _), List.append_assoc]
    rfl

/-- The place of a lane that no other touches holds its new value. -/
theorem natAt_localPuts_in {ls : List Nat} {t : State} (inv : Inv t) {l : Nat} (distinct : ls.Nodup) (mem : l ∈ ls)
    (away : ∀ j ∈ ls, j ≠ l → apart (modeBytes s.g.mode) (localPlace s a i l) (localPlace s a i j)) :
    (ls.foldl (localPut s a i (localNew s d a i f)) t).natAt (localPlace s a i l) (modeBytes s.g.mode) = localNew s d a i f t l := by
  obtain ⟨before, after, rfl⟩ := List.append_of_mem mem
  obtain ⟨-, tail, disjoint⟩ := List.nodup_append.1 distinct
  have first (j : Nat) (hj : j ∈ before) : j ≠ l := fun e => disjoint j hj l (.head _) e
  have last (j : Nat) (hj : j ∈ after) : j ≠ l := fun e => (List.nodup_cons.1 tail).1 (e ▸ hj)
  rw [List.foldl_append, List.foldl_cons, natAt_localPuts (fun j hj => away j (List.mem_append_right _ (.tail _ hj)) (last j hj))]
  have before' := natAt_localPuts (v := localNew s d a i f) (fun j hj => away j (List.mem_append_left _ hj) (first j hj)) t
  have kept : Inv (before.foldl (localPut s a i (localNew s d a i f)) t) := inv_foldl (fun t j _ => localPut_inv) inv
  generalize before.foldl (localPut s a i (localNew s d a i f)) t = u at before' kept
  have same : localNew s d a i f u l = localNew s d a i f t l := by
    unfold localNew
    rw [before']
  rw [natAt_of_bytes (v := localNew s d a i f u l) (fun k hk => localPut_in kept hk), same, localNew]
  exact Nat.mod_mod _ _

end

section
variable {s : State} {e : Instr} {w : Bool} {d a : Operand} {i : BitVec 8} {f : Nat → Nat → Nat → Nat}

/-- The lanes' steps of a local atomic. -/
def atomicPut (s : State) (w : Bool) (d a : Operand) (i : BitVec 8) (f : Nat → Nat → Nat → Nat) : State × List LoadPart :=
  (localLanes s a i (!w && d.isS)).foldl (localAtom s d a i f) (localBegun s a i (!w && d.isS), [])

theorem exec_localAtomic (ran : exec e s = .next (s.localAtomic w (!w && d.isS) d a i f)) (free : s.fenceHeld 0 = false)
    (clear : s.localBlocked (s.localGood (s.accessLanes (!w && d.isS)) a i (modeBytes s.g.mode)) (modeBytes s.g.mode) true = false) :
    exec e s = .next (if w then (atomicPut s w d a i f).1
      else (atomicPut s w d a i f).1.addLoad (!w && d.isS) (regNum d) (modeBytes s.g.mode) (atomicPut s w d a i f).2) := by
  rw [ran, State.localAtomic]
  dsimp only
  rw [if_neg (localFree free clear), localGood_lanes, localPairs, List.foldl_map]
  rfl

theorem localPuts_only (v : State → Nat → Nat) (ls : List Nat) (t : State) : BytesOnly t (ls.foldl (localPut s a i v) t) :=
  foldl_rel BytesOnly.refl BytesOnly.trans _ ls (fun t _ _ => storeNat_only t _ _ _ _) t

/-- The end of a local atomic: its load, if any. -/
theorem addLoad_if (t : State) (w scalar : Bool) (dst n : Nat) (parts : List LoadPart) :
    let u := if w then t else t.addLoad scalar dst n parts
    u = { t with loads := u.loads, agenda := u.agenda, nextUid := u.nextUid } := by
  cases w
  · exact t.addLoad_frame ..
  · rfl

theorem localPuts_empties (v : State → Nat → Nat) (ls : List Nat) (t : State) : (ls.foldl (localPut s a i v) t).empties = t.empties :=
  foldl_rel (R := fun t u : State => u.empties = t.empties) (fun _ => rfl) (fun h k => k.trans h) _ ls (fun _ _ _ => storeNat_empties ..) t

/-- A local atomic: the new value in each place that no other lane touches, and the old ones as a load. -/
theorem exec_localAtomic_changes (ran : exec e s = .next (s.localAtomic w (!w && d.isS) d a i f)) (free : s.fenceHeld 0 = false)
    (clear : s.localBlocked (s.localGood (s.accessLanes (!w && d.isS)) a i (modeBytes s.g.mode)) (modeBytes s.g.mode) true = false) :
    let n := modeBytes s.g.mode
    let scalar := !w && d.isS
    let good := localLanes s a i scalar
    let at' := localPlace s a i
    ∃ t, exec e s = .next t ∧ AccessOnly s t ∧ LocalFaults s t scalar (s.accessLanes scalar) a i ∧ t.empties = s.empties ∧ t.reqs = s.reqs ∧
      (∀ x, (∀ l ∈ good, x < at' l ∨ at' l + n ≤ x) → t.byteAt x = s.byteAt x) ∧
      (Inv s → ∀ l ∈ good, (∀ j ∈ good, j ≠ l → apart n (at' l) (at' j)) → t.natAt (at' l) n = localNew s d a i f s l) ∧
      (w = true ∨ good = [] → t.loads = s.loads) ∧
      (w = false → good ≠ [] → (∀ l ∈ good, ∀ j ∈ good, j ≠ l → apart n (at' l) (at' j)) →
        LoadMade s t d.isS (regNum d) (good.map (localPart s a i))) := by
  intro n scalar good at'
  have begun := localBegun_only s a i scalar
  have start (x : Nat) : (localBegun s a i scalar).byteAt x = s.byteAt x := by
    rw [begun]
    rfl
  have startInv (inv : Inv s) : Inv (localBegun s a i scalar) := by
    rw [begun]
    exact inv
  have fst : (atomicPut s w d a i f).1 = good.foldl (localPut s a i (localNew s d a i f)) (localBegun s a i scalar) := localAtoms_fst ..
  have put := localPuts_only (s := s) (a := a) (i := i) (localNew s d a i f) good (localBegun s a i scalar)
  have full := localPuts_empties (s := s) (a := a) (i := i) (localNew s d a i f) good (localBegun s a i scalar)
  rw [← fst] at put full
  have snd := localAtoms_snd (s := s) (d := d) (a := a) (i := i) (f := f) (localLanes_nodup s a i scalar) (p := (localBegun s a i scalar, []))
  have finished := addLoad_if (atomicPut s w d a i f).1 w scalar (regNum d) n (atomicPut s w d a i f).2
  have done := exec_localAtomic ran free clear
  have putCur : (atomicPut s w d a i f).1.cur = s.cur := (congrArg State.cur put :).trans (congrArg State.cur begun :)
  have putIss : (atomicPut s w d a i f).1.iss = s.iss := (congrArg State.iss put :).trans (congrArg State.iss begun :)
  have putLoads : (atomicPut s w d a i f).1.loads = s.loads := (congrArg State.loads put :).trans (congrArg State.loads begun :)
  have putGroups : (atomicPut s w d a i f).1.groups = (localBegun s a i scalar).groups := (congrArg State.groups put :)
  obtain ⟨⟨-, -, putGroup⟩, -⟩ := localBegun_left putIss putCur putGroups
  generalize hu : (atomicPut s w d a i f).1 = u at fst put full finished done putCur putIss putLoads putGroups putGroup
  generalize ht : (if w then u else u.addLoad scalar (regNum d) n (atomicPut s w d a i f).2) = t at finished
  have bytes (x : Nat) : t.byteAt x = u.byteAt x := by
    rw [finished]
    rfl
  obtain ⟨only, faults⟩ := localBegun_left (s := s) (a := a) (i := i) (scalar := scalar) ((congrArg State.iss finished :).trans putIss)
    ((congrArg State.cur finished :).trans putCur) ((congrArg State.groups finished :).trans putGroups)
  refine ⟨t, by rw [done, ht], only, faults, (congrArg State.empties finished :).trans (full.trans (congrArg State.empties begun :)),
    ((congrArg State.reqs finished :).trans (congrArg State.reqs put :)).trans (congrArg State.reqs begun :), fun x away => ?_,
    fun inv l mem away => ?_, ?_, ?_⟩
  · rw [bytes, fst, ← start x]
    exact byteAt_foldl_out (fun t j _ => localPut_out t) away _
  · have old : localNew s d a i f (localBegun s a i scalar) l = localNew s d a i f s l := by
      unfold localNew
      rw [natAt_congr fun k _ => start _]
    rw [natAt_congr fun k _ => bytes _, fst, ← old]
    exact natAt_localPuts_in (startInv inv) (localLanes_nodup ..) mem away
  · rintro (rfl | none)
    · rw [← ht, if_pos rfl, putLoads]
    · have parts : (atomicPut s w d a i f).2 = [] := by
        rw [atomicPut]
        exact congrArg (fun ls => Prod.snd (List.foldl (localAtom s d a i f) (localBegun s a i scalar, []) ls)) none
      rw [← ht, parts]
      cases w
      · exact putLoads
      · exact putLoads
  · rintro rfl some' away
    have parts : (atomicPut s false d a i f).2 = good.map (localPart s a i) := snd away (fun l _ => natAt_congr fun k _ => start _)
    rw [← ht, if_neg Bool.false_ne_true, parts]
    exact s.addLoad_made d.isS (regNum d) (mt List.map_eq_nil_iff.1 some') putCur putIss putLoads (by rw [putGroup]; rfl)

end

end Sys2Proof.Machine
end

section
/-! The obligation of the local atomics: O47. -/

namespace Sys2Proof.Machine

open Sys2Proof

/-- Settles O47: ALADD and ALCAS are local atomics, each with its function. -/
theorem localAtomics : Obligations.LocalAtomics := by
  intro s w d a i e f form free n ls good at' op clear
  have ran : exec e s = .next (s.localAtomic w (!w && d.isS) d a i f) := by
    rcases form with ⟨rfl, rfl⟩ | ⟨rfl, rfl⟩
    · rfl
    · rfl
  exact exec_localAtomic_changes ran free clear

end Sys2Proof.Machine
end

section
/-! SUPPORT. The service of lanes that begin to wait together, on words that they do not share (R138 to R140). -/

namespace Sys2Proof.Machine

open Sys2Proof

/-- A group that knows of a lane served. -/
def Group.feMarked (g : Group) (l : Nat) : Group := { g with served := g.served ||| laneBit l }

namespace State

variable {s : State}

/-- Are a waiting lane's words as it waits for them? -/
def feReady (s : State) (w : FeWait) : Bool := s.coveredAre (w.kind != .stle) w.loc w.n

/-- A waiting lane served. -/
def feServed (s : State) (w : FeWait) : State :=
  match w.kind with
  | .stle => ((s.feTaken w).storeNat w.loc 0 w.n w.data.toNat).setFull w.loc w.n
  | .ldlp => ({ s.feTaken w with nextUid := s.nextUid + 1, loads := s.loads ++ [s.feLoad w] }).post (.loadDataReturn s.nextUid)
  | .ldlf => ({ (s.feTaken w).setEmpty w.loc w.n with nextUid := s.nextUid + 1, loads := s.loads ++ [s.feLoad w] }).post (.loadDataReturn s.nextUid)

theorem feReady_of {w : FeWait} {k : FeKind} (kind : w.kind = k) : s.feReady w = s.coveredAre (k != .stle) w.loc w.n := by
  rw [feReady, kind]

theorem feServed_stle {w : FeWait} (kind : w.kind = .stle) :
    s.feServed w = ((s.feTaken w).storeNat w.loc 0 w.n w.data.toNat).setFull w.loc w.n := by
  unfold feServed
  rw [kind]

theorem feServed_ldlp {w : FeWait} (kind : w.kind = .ldlp) : s.feServed w =
    ({ s.feTaken w with nextUid := s.nextUid + 1, loads := s.loads ++ [s.feLoad w] }).post (.loadDataReturn s.nextUid) := by
  unfold feServed
  rw [kind]

theorem feServed_ldlf {w : FeWait} (kind : w.kind = .ldlf) : s.feServed w =
    ({ (s.feTaken w).setEmpty w.loc w.n with nextUid := s.nextUid + 1, loads := s.loads ++ [s.feLoad w] }).post (.loadDataReturn s.nextUid) := by
  unfold feServed
  rw [kind]

theorem serveOne_ready {w : FeWait} (ready : s.feReady w = true) : s.serveOne w = s.feServed w := by
  cases kind : w.kind
  case stle =>
    rw [feReady_of kind] at ready
    exact (serveOne_stle kind ready).trans (feServed_stle kind).symm
  case ldlp =>
    rw [feReady_of kind] at ready
    rw [serveOne_ldlp kind ready, feServed_ldlp kind, feLoad_feTaken]
  case ldlf =>
    rw [feReady_of kind] at ready
    rw [serveOne_ldlf kind ready, feServed_ldlf kind, feLoad_feTaken]

theorem serveOne_waits {w : FeWait} (waits : s.feReady w = false) : s.serveOne w = s := by
  cases kind : w.kind
  case stle =>
    have words : s.coveredAre false w.loc w.n = false := (feReady_of kind).symm.trans waits
    unfold serveOne
    dsimp only
    rw [kind]
    exact if_pos (congrArg (! ·) words)
  case ldlp =>
    have words : s.coveredAre true w.loc w.n = false := (feReady_of kind).symm.trans waits
    unfold serveOne
    dsimp only
    rw [kind]
    exact if_pos (congrArg (! ·) words)
  case ldlf =>
    have words : s.coveredAre true w.loc w.n = false := (feReady_of kind).symm.trans waits
    unfold serveOne
    dsimp only
    rw [kind]
    exact if_pos (congrArg (! ·) words)

/-- What a served lane leaves. -/
theorem feServed_frame (w : FeWait) : let t := s.feServed w
    t = { s.feTaken w with nextUid := t.nextUid, loads := t.loads, agenda := t.agenda, mem := t.mem, basin := t.basin, tags := t.tags,
                           veils := t.veils, empties := t.empties } := by
  dsimp only
  cases kind : w.kind
  case stle =>
    rw [feServed_stle kind]
    have stored := (storeNat_only (s.feTaken w) w.loc 0 w.n w.data.toNat).trans (setFull_only _ w.loc w.n)
    generalize ((s.feTaken w).storeNat w.loc 0 w.n w.data.toNat).setFull w.loc w.n = t at stored
    exact (congrArg (fun x : State => { x with nextUid := t.nextUid, loads := t.loads, agenda := t.agenda }) stored :)
  case ldlp =>
    rw [feServed_ldlp kind]
    rfl
  case ldlf =>
    rw [feServed_ldlf kind]
    rfl

theorem feServed_feWaits (w : FeWait) : (s.feServed w).feWaits = s.feWaits.filter (fun x => x != w) := (congrArg State.feWaits (s.feServed_frame w) :)

theorem feServed_group (w : FeWait) (k : Nat) :
    (s.feServed w).group k = if k = w.gkey then (s.group k).feMarked w.lane else s.group k := by
  have groups : (s.feServed w).groups = (s.feTaken w).groups := (congrArg State.groups (s.feServed_frame w) :)
  rw [group_of_groups groups]
  split
  · rename_i mine
    subst mine
    exact group_setGroup ..
  · rename_i other
    exact group_setGroup_ne _ _ _ _ other

/-- The words that become full or empty are the lane's. -/
theorem feServed_empties (w : FeWait) (x : Nat) (away : x < w.loc / 4 ∨ (w.loc + w.n + 3) / 4 ≤ x) :
    x ∈ (s.feServed w).empties ↔ x ∈ s.empties := by
  cases kind : w.kind
  case stle =>
    rw [feServed_stle kind, setFull, Empties.mem_fill, storeNat_empties]
    exact and_iff_left away
  case ldlp =>
    rw [feServed_ldlp kind]
    rfl
  case ldlf =>
    rw [feServed_ldlf kind]
    refine (Empties.mem_drain s.empties _ _ x).trans (or_iff_left ?_)
    omega

end State

/-- Waiting lanes that cover no common word. -/
def FeWait.away (w v : FeWait) : Prop := (w.loc + w.n + 3) / 4 ≤ v.loc / 4 ∨ (v.loc + v.n + 3) / 4 ≤ w.loc / 4

theorem FeWait.away.symm {w v : FeWait} (h : w.away v) : v.away w := Or.symm h

namespace State

variable {s : State}

theorem feReady_iff (w : FeWait) : s.feReady w = true ↔ ∀ x, w.loc / 4 ≤ x → x < (w.loc + w.n + 3) / 4 → (x ∈ s.empties ↔ w.kind = .stle) := by
  rw [feReady, coveredAre_iff]
  refine forall_congr' fun x => forall_congr' fun _ => forall_congr' fun _ => ?_
  by_cases empty : x ∈ s.empties <;> by_cases kind : w.kind = .stle <;> simp [empty, kind]

/-- A lane served leaves the words of another as they are. -/
theorem feReady_feServed {w v : FeWait} (away : w.away v) : (s.feServed w).feReady v = s.feReady v := by
  rw [Bool.eq_iff_iff, feReady_iff, feReady_iff]
  refine forall_congr' fun x => forall_congr' fun lo => forall_congr' fun hi => ?_
  rw [feServed_empties w x (by unfold FeWait.away at away; omega)]

theorem feOverlap_eq_false {w v : FeWait} (away : w.away v) : feOverlap w v = false := by
  unfold FeWait.away at away
  unfold feOverlap
  by_cases first : w.loc / 4 < (v.loc + v.n + 3) / 4
  · rw [decide_eq_false (by omega : ¬ v.loc / 4 < (w.loc + w.n + 3) / 4), Bool.and_false]
  · rw [decide_eq_false first, Bool.and_false, Bool.false_and]

/-- A pass over waiting lanes of a core that share no word serves those that can be served, in their order. -/
theorem servePass_eq {ck : Nat} {ws seen : List FeWait} (queue : s.feWaits = seen ++ ws) (distinct : (seen ++ ws).Nodup)
    (core : ∀ w ∈ seen ++ ws, (s.group w.gkey).ckey = ck) (away : ∀ w ∈ seen ++ ws, ∀ v ∈ seen ++ ws, w ≠ v → w.away v) :
    s.servePass ck ws seen = (ws.filter s.feReady).foldl feServed s := by
  induction ws generalizing s seen with
  | nil => rfl
  | cons w r ih =>
    have mem : w ∈ seen ++ w :: r := List.mem_append_right _ (.head _)
    have new : w ∉ seen ++ r := fun h => by
      have := List.nodup_middle.1 distinct
      exact (List.nodup_cons.1 this).1 h
    have free : (((s.group w.gkey).ckey != ck) || seen.any (feOverlap w)) = false := by
      rw [core w mem, bne_self_eq_false, Bool.false_or, List.any_eq_false]
      intro v hv
      rw [feOverlap_eq_false (away w mem v (List.mem_append_left _ hv) (fun e => new (List.mem_append_left _ (e ▸ hv))))]
      exact Bool.false_ne_true
    rw [servePass]
    rw [free, if_neg Bool.false_ne_true]
    dsimp only
    cases ready : s.feReady w
    case false =>
      have waits : s.feWaits.contains w = true := by
        rw [queue]
        simp
      rw [serveOne_waits ready, if_pos waits, List.filter_cons_of_neg (by rw [ready]; decide)]
      have assoc : seen ++ [w] ++ r = seen ++ w :: r := by rw [List.append_assoc]; rfl
      exact ih (by rw [assoc, queue]) (assoc ▸ distinct) (assoc ▸ core) (assoc ▸ away)
    case true =>
      have left : (s.feServed w).feWaits = seen ++ r := by
        rw [feServed_feWaits, queue, List.filter_append, List.filter_cons_of_neg (by simp), ← List.filter_append]
        exact List.filter_eq_self.2 fun x hx => bne_iff_ne.2 (fun e => new (e ▸ hx))
      have gone : ¬ (s.feServed w).feWaits.contains w = true := by
        rw [left, List.contains_iff_mem]
        exact new
      have keep (v : FeWait) (hv : v ∈ seen ++ r) : v ∈ seen ++ w :: r := by
        rcases List.mem_append.1 hv with h | h
        · exact List.mem_append_left _ h
        · exact List.mem_append_right _ (.tail _ h)
      rw [serveOne_ready ready, if_neg gone, List.filter_cons_of_pos ready, List.foldl_cons]
      rw [ih left (List.nodup_cons.1 (List.nodup_middle.1 distinct)).2 (fun v hv => ?_) (fun v hv u hu => away v (keep v hv) u (keep u hu))]
      · congr 1
        refine List.filter_congr fun v hv => feReady_feServed (away w mem v (List.mem_append_right _ (.tail _ hv)) ?_)
        exact fun e => new (List.mem_append_right _ (e ▸ hv))
      · rw [feServed_group]
        split
        · exact core v (keep v hv)
        · exact core v (keep v hv)

end State

end Sys2Proof.Machine
end

section
/-! SUPPORT. What the service leaves of lanes that begin to wait together (R139, R140). -/

namespace Sys2Proof.Machine

open Sys2Proof

namespace State

variable {s : State}

theorem feServeds_feWaits (ls : List FeWait) (s : State) : (ls.foldl feServed s).feWaits = s.feWaits.filter (fun x => decide (x ∉ ls)) := by
  induction ls generalizing s with
  | nil => exact (List.filter_eq_self.2 fun _ _ => rfl).symm
  | cons w r ih =>
    rw [List.foldl_cons, ih, feServed_feWaits, List.filter_filter]
    refine List.filter_congr fun x _ => ?_
    rw [Bool.eq_iff_iff]
    simp [and_comm]

theorem feReady_feServeds {ls : List FeWait} {v : FeWait} (away : ∀ w ∈ ls, w.away v) (s : State) : (ls.foldl feServed s).feReady v = s.feReady v :=
  foldl_rel (R := fun s t : State => t.feReady v = s.feReady v) (fun _ => rfl) (fun h k => k.trans h) _ ls
    (fun _ w mem => feReady_feServed (away w mem)) s

theorem feServeds_ckey (ls : List FeWait) (s : State) (k : Nat) : ((ls.foldl feServed s).group k).ckey = (s.group k).ckey :=
  foldl_rel (R := fun s t : State => (t.group k).ckey = (s.group k).ckey) (fun _ => rfl) (fun h k => k.trans h) _ ls
    (fun s w _ => by rw [feServed_group]; split <;> rfl) s

/-- The service of a core whose waiting lanes share no word: those that can be served are, in their order. -/
theorem serveAll_eq {ck : Nat} (distinct : s.feWaits.Nodup) (core : ∀ w ∈ s.feWaits, (s.group w.gkey).ckey = ck)
    (away : ∀ w ∈ s.feWaits, ∀ v ∈ s.feWaits, w ≠ v → w.away v) :
    s.serveAll ck (s.feWaits.length + 1) = (s.feWaits.filter s.feReady).foldl feServed s := by
  have pass := servePass_eq (seen := []) rfl distinct core away
  have left := feServeds_feWaits (s.feWaits.filter s.feReady) s
  have ready (v : FeWait) (mem : v ∈ s.feWaits) (waits : s.feReady v = false) : ((s.feWaits.filter s.feReady).foldl feServed s).feReady v = false := by
    rw [feReady_feServeds (fun w hw => ?_), waits]
    obtain ⟨mem', ready⟩ := List.mem_filter.1 hw
    exact away w mem' v mem (fun e => Bool.false_ne_true (waits.symm.trans (e ▸ ready)))
  have ckey := feServeds_ckey (s.feWaits.filter s.feReady) s
  rw [serveAll, pass]
  generalize (s.feWaits.filter s.feReady).foldl feServed s = t at left ready ckey
  split
  · rfl
  · rename_i some'
    have kept (w : FeWait) (mem : w ∈ t.feWaits) : w ∈ s.feWaits ∧ s.feReady w = false := by
      obtain ⟨mem, out⟩ := List.mem_filter.1 (left ▸ mem)
      exact ⟨mem, Bool.eq_false_iff.2 fun ready => of_decide_eq_true out (List.mem_filter.2 ⟨mem, ready⟩)⟩
    have none : t.feWaits.filter t.feReady = [] :=
      List.filter_eq_nil_iff.2 fun w mem => Bool.eq_false_iff.1 (ready w (kept w mem).1 (kept w mem).2)
    have distinct' : t.feWaits.Nodup := left ▸ distinct.filter _
    have again := servePass_eq (s := t) (seen := []) (ck := ck) rfl distinct' (fun w mem => (ckey _).trans (core w (kept w mem).1))
      (fun w mem v mem' => away w (kept w mem).1 v (kept v mem').1)
    rw [none] at again
    have more : s.feWaits.length ≠ 0 := fun empty => some' (by rw [left, List.length_eq_zero_iff.1 empty]; rfl)
    obtain ⟨k, hk⟩ := Nat.exists_eq_succ_of_ne_zero more
    rw [hk, serveAll, again]
    exact if_pos rfl

/-! ### What lanes that are served leave -/

/-- The loads of lanes served, each as the state had it. -/
def feLoads (s : State) (us : List Nat) (ws : List FeWait) : List Load := List.zipWith (fun u w => { s.feLoad w with uid := u }) us ws

/-- Lanes that load leave the bytes; what they make are loads, and their words are empty after LDLF. -/
structure LoadsServed (s : State) (ws : List FeWait) (us : List Nat) (t : State) : Prop where
  number : us.length = ws.length
  loads : t.loads = s.loads ++ s.feLoads us ws
  come : ∀ u ∈ us, Activity.event (.loadDataReturn u) ∈ t.agenda
  old : ∀ e ∈ s.agenda, e ∈ t.agenda
  mem : t.mem = s.mem
  empties : ∀ x, x ∈ t.empties ↔ x ∈ s.empties ∨ ∃ w ∈ ws, w.kind = .ldlf ∧ w.loc / 4 ≤ x ∧ x < (w.loc + w.n + 3) / 4

/-- A load is the group's and of the bytes. -/
theorem feLoad_congr {s t : State} {w : FeWait} (mem : t.mem = s.mem) (live : t.live = s.live) (partNo : t.partNo = s.partNo) (basin : t.basin = s.basin)
    (owns : ((t.group w.gkey).die, (t.group w.gkey).core, (t.group w.gkey).fn) = ((s.group w.gkey).die, (s.group w.gkey).core, (s.group w.gkey).fn))
    (u : Nat) : { t.feLoad w with uid := u } = ({ s.feLoad w with uid := u } : Load) := by
  obtain ⟨die, core, fn⟩ : (t.group w.gkey).die = (s.group w.gkey).die ∧ (t.group w.gkey).core = (s.group w.gkey).core ∧
      (t.group w.gkey).fn = (s.group w.gkey).fn := by simpa only [Prod.mk.injEq] using owns
  have value : t.natAt w.loc w.n = s.natAt w.loc w.n :=
    natAt_congr fun k _ => byteAt_congr mem live partNo (by rw [basin]) (by rw [basin]) (by rw [basin]) _
  unfold feLoad
  rw [die, core, fn, value]

theorem feServed_loads {w : FeWait} (load : w.kind ≠ .stle) : let t := s.feServed w
    t.loads = s.loads ++ [s.feLoad w] ∧ t.agenda = s.agenda ++ [.event (.loadDataReturn s.nextUid)] ∧ t.mem = s.mem ∧ t.live = s.live ∧
      t.partNo = s.partNo ∧ t.basin = s.basin ∧
      ∀ x, x ∈ t.empties ↔ x ∈ s.empties ∨ w.kind = .ldlf ∧ w.loc / 4 ≤ x ∧ x < (w.loc + w.n + 3) / 4 := by
  dsimp only
  cases kind : w.kind
  case stle => exact absurd kind load
  case ldlp =>
    rw [feServed_ldlp kind]
    exact ⟨rfl, rfl, rfl, rfl, rfl, rfl, fun x => (or_iff_left fun h => nomatch h.1).symm⟩
  case ldlf =>
    rw [feServed_ldlf kind]
    refine ⟨rfl, rfl, rfl, rfl, rfl, rfl, fun x => (Empties.mem_drain s.empties _ _ x).trans (or_congr_right ?_)⟩
    rw [and_iff_right rfl]
    omega

theorem feServeds_loads (ws : List FeWait) (load : ∀ w ∈ ws, w.kind ≠ .stle) (s : State) :
    ∃ us, LoadsServed s ws us (ws.foldl feServed s) := by
  induction ws generalizing s with
  | nil => exact ⟨[], rfl, (List.append_nil _).symm, fun _ h => (nomatch h), fun _ h => h, rfl, fun x => by simp⟩
  | cons w r ih =>
    obtain ⟨loads, agenda, mem, live, partNo, basin, empties⟩ := feServed_loads (s := s) (load w (.head _))
    obtain ⟨us, rest⟩ := ih (fun v hv => load v (.tail _ hv)) (s.feServed w)
    have same : (s.feServed w).feLoads us r = s.feLoads us r := by
      unfold feLoads
      congr 1
      funext u v
      refine feLoad_congr mem live partNo basin ?_ u
      rw [feServed_group]
      split <;> rfl
    refine ⟨s.nextUid :: us, congrArg Nat.succ rest.number, ?_, ?_, fun e he => rest.old e ?_, rest.mem.trans mem, fun x => ?_⟩
    · rw [List.foldl_cons, rest.loads, loads, same, List.append_assoc]
      rfl
    · rintro u (_ | ⟨_, hu⟩)
      · exact rest.old _ (by rw [agenda]; exact List.mem_append_right _ (.head _))
      · exact rest.come u hu
    · rw [agenda]
      exact List.mem_append_left _ he
    · rw [List.foldl_cons, rest.empties, empties, List.exists_mem_cons_iff, or_assoc]

end State

end Sys2Proof.Machine
end

section
/-! SUPPORT. LDLF, STLE and LDLP of any lanes, where no access waits yet (R139 to R142). -/

namespace Sys2Proof.Machine

open Sys2Proof

/-! ### The queue -/

/-- A lane of the same group and core cycle as all that wait stands behind them. -/
theorem insertFe_last {l : List FeWait} {w : FeWait} (same : ∀ x ∈ l, x.gkey = w.gkey ∧ x.since = w.since) : State.insertFe l w = l ++ [w] := by
  induction l with
  | nil => rfl
  | cons x r ih =>
    obtain ⟨gkey, since⟩ := same x (.head _)
    rw [State.insertFe, if_pos (by simp [gkey, since]), ih fun y hy => same y (.tail _ hy)]
    rfl

theorem insertFe_foldl {ws l : List FeWait} {gkey since : Nat} (same : ∀ x ∈ l ++ ws, x.gkey = gkey ∧ x.since = since) :
    ws.foldl State.insertFe l = l ++ ws := by
  induction ws generalizing l with
  | nil => exact (List.append_nil l).symm
  | cons w r ih =>
    have mine := same w (List.mem_append_right _ (.head _))
    have last : State.insertFe l w = l ++ [w] := insertFe_last fun x hx => by
      obtain ⟨g, t⟩ := same x (List.mem_append_left _ hx)
      exact ⟨g.trans mine.1.symm, t.trans mine.2.symm⟩
    rw [List.foldl_cons, last, ih (by rwa [List.append_assoc]), List.append_assoc]
    rfl

/-! ### Groups that wait -/

/-- No group waits for full or empty words. -/
def NoFeGroup (s : State) : Prop := ∀ p ∈ s.groups, p.2.wait ≠ .fullEmpty

theorem NoFeGroup.group {s : State} (none : NoFeGroup s) (k : Nat) : (s.group k).wait ≠ .fullEmpty := fun waits => by
  obtain ⟨x, mem, wait⟩ := State.exists_entry waits
  exact none _ mem wait

/-- An entry of a table after one has been set. -/
theorem mem_table_set {α : Type} {t : Table α} {k : Nat} {x : α} {p : Nat × α} (h : p ∈ t.set k x) : p ∈ t ∨ p = (k, x) := by
  induction t with
  | nil => exact .inr (List.mem_singleton.1 h)
  | cons q r ih =>
    obtain ⟨j, y⟩ := q
    unfold Table.set at h
    split at h
    · rcases List.mem_cons.1 h with e | h
      · exact .inr e
      · exact .inl (.tail _ h)
    · split at h
      · rcases List.mem_cons.1 h with e | h
        · exact .inr e
        · exact .inl h
      · rcases List.mem_cons.1 h with e | h
        · exact .inl (e ▸ .head _)
        · exact (ih h).imp_left (.tail _)

theorem NoFeGroup.setGroup {s : State} (none : NoFeGroup s) {k : Nat} {g : Group} (wait : g.wait ≠ .fullEmpty) : NoFeGroup (s.setGroup k g) := by
  intro p mem
  rcases mem_table_set mem with old | rfl
  · exact none p old
  · exact wait

theorem NoFeGroup.of_groups {s t : State} (none : NoFeGroup s) (groups : t.groups = s.groups) : NoFeGroup t := fun p mem => none p (groups ▸ mem)

/-- With no group waiting nothing is released. -/
theorem releaseFe_none {s : State} (none : NoFeGroup s) : s.releaseFe = s := by
  have step (l : List (Nat × Group)) (waits : ∀ p ∈ l, p.2.wait ≠ .fullEmpty) : l.foldl State.releaseOne s = s := by
    induction l with
    | nil => rfl
    | cons p r ih =>
      have first : s.releaseOne p = s := if_neg (by rw [decide_eq_false (waits p (.head _))]; exact Bool.false_ne_true)
      rw [List.foldl_cons, first]
      exact ih fun q mem => waits q (.tail _ mem)
  exact step s.groups none

/-! ### What lanes that are served leave of the groups -/

/-- Nothing differs but what a served lane changes. -/
def FeOnly (s t : State) : Prop :=
  t = { s with feWaits := t.feWaits, groups := t.groups, nextUid := t.nextUid, loads := t.loads, agenda := t.agenda, mem := t.mem,
               basin := t.basin, tags := t.tags, veils := t.veils, empties := t.empties }

theorem FeOnly.trans {s t u : State} (h : FeOnly s t) (k : FeOnly t u) : FeOnly s u :=
  Eq.trans k (congrArg (fun x : State =>
    { x with feWaits := u.feWaits, groups := u.groups, nextUid := u.nextUid, loads := u.loads, agenda := u.agenda, mem := u.mem,
             basin := u.basin, tags := u.tags, veils := u.veils, empties := u.empties }) h :)

namespace State

variable {s : State}

theorem feServed_only (s : State) (w : FeWait) : FeOnly s (s.feServed w) :=
  (congrArg (fun x : State => { x with feWaits := (s.feServed w).feWaits, groups := (s.feServed w).groups }) (s.feServed_frame w) :)

theorem feServeds_only (ls : List FeWait) (s : State) : FeOnly s (ls.foldl feServed s) :=
  foldl_rel (R := FeOnly) (fun _ => rfl) FeOnly.trans _ ls (fun s w _ => s.feServed_only w) s

theorem feServeds_other {ls : List FeWait} {k : Nat} (other : ∀ w ∈ ls, k ≠ w.gkey) (s : State) : (ls.foldl feServed s).group k = s.group k :=
  foldl_rel (R := fun s t : State => t.group k = s.group k) (fun _ => rfl) (fun h k => k.trans h) _ ls
    (fun s w mem => by rw [feServed_group, if_neg (other w mem)]) s

/-- The group of the lanes served knows them, and is as it was else. -/
theorem feServeds_mine {ls : List FeWait} {k : Nat} (mine : ∀ w ∈ ls, w.gkey = k) (lanes : ∀ w ∈ ls, w.lane < 64) (s : State) :
    (ls.foldl feServed s).group k = { s.group k with served := ((ls.foldl feServed s).group k).served } ∧
      ∀ l, l < 64 → ((ls.foldl feServed s).group k).served.getLsbD l = ((s.group k).served.getLsbD l || (ls.map (fun w => w.lane)).contains l) := by
  induction ls generalizing s with
  | nil => exact ⟨rfl, fun l _ => (Bool.or_false _).symm⟩
  | cons w r ih =>
    obtain ⟨rest, bits⟩ := ih (fun v hv => mine v (.tail _ hv)) (fun v hv => lanes v (.tail _ hv)) (s.feServed w)
    have first : (s.feServed w).group k = (s.group k).feMarked w.lane := by rw [feServed_group, if_pos (mine w (.head _)).symm]
    rw [first] at rest bits
    refine ⟨rest, fun l hl => ?_⟩
    have bit : (laneBit w.lane).getLsbD l = (l == w.lane) := by
      have := lanes w (.head _)
      rw [Bool.eq_iff_iff]
      simp [laneBit, hl]
    rw [List.foldl_cons, bits l hl, Group.feMarked, BitVec.getLsbD_or, bit, Bool.or_assoc, List.map_cons, List.contains_cons]

theorem feServeds_noFe {ls : List FeWait} (none : NoFeGroup s) : NoFeGroup (ls.foldl feServed s) := by
  refine foldl_rel (R := fun s t : State => NoFeGroup s → NoFeGroup t) (fun _ => id) (fun h k => k ∘ h) _ ls (fun s w _ none => ?_) s none
  have groups : (s.feServed w).groups = (s.setGroup w.gkey ((s.group w.gkey).feMarked w.lane)).groups := (congrArg State.groups (s.feServed_frame w) :)
  have wait : ((s.group w.gkey).feMarked w.lane).wait ≠ .fullEmpty := none.group w.gkey
  exact (none.setGroup wait).of_groups groups

end State

end Sys2Proof.Machine
end

section
/-! SUPPORT. LDLF, STLE and LDLP of any lanes: the lanes served, and those that wait (R139, R140). -/

namespace Sys2Proof.Machine

open Sys2Proof

/-- A lane that begins to wait. -/
def feWait (s : State) (kind : FeKind) (scalar : Bool) (d a : Operand) (i : BitVec 8) (l : Nat) : FeWait where
  gkey := s.cur
  team := s.g.team
  lane := l
  kind := kind
  loc := localPlace s a i l
  n := modeBytes s.g.mode
  mode := s.g.mode
  scalar := scalar
  dst := regNum d
  data := s.rd128 d l
  since := s.coreTime s.g.ckey

/-- Lanes wait. -/
def State.withWaits (t : State) (ws : List FeWait) : State := { t with feWaits := ws }

theorem State.withWaits_empties (t : State) (ws : List FeWait) : (t.withWaits ws).empties = t.empties := rfl
theorem State.withWaits_group (t : State) (ws : List FeWait) (k : Nat) : (t.withWaits ws).group k = t.group k := rfl
theorem State.withWaits_feWaits (t : State) (ws : List FeWait) : (t.withWaits ws).feWaits = ws := rfl

/-- All lanes that pass wait. -/
def feBegun (s : State) (kind : FeKind) (scalar : Bool) (d a : Operand) (i : BitVec 8) : State :=
  (localBegun s a i scalar).withWaits ((localLanes s a i scalar).map (feWait s kind scalar d a i))

/-- The lanes that can be served are. -/
def feServe (s : State) (kind : FeKind) (scalar : Bool) (d a : Operand) (i : BitVec 8) (ready : Nat → Bool) : State :=
  (((localLanes s a i scalar).filter ready).map (feWait s kind scalar d a i)).foldl State.feServed (feBegun s kind scalar d a i)

/-- The group's own part of the end of an access that waits. -/
def feEnd (waits : Bool) (t : State) : State :=
  if waits then (t.modG (fun g => { g with wait := .fullEmpty })).holdIssue else t.modG (fun g => { g with served := 0 })

section
variable {s : State} {kind : FeKind} {scalar : Bool} {d a : Operand} {i : BitVec 8}

theorem feWait_injective : Function.Injective (feWait s kind scalar d a i) := fun _ _ e => congrArg FeWait.lane e

theorem feWait_loc (l : Nat) : (feWait s kind scalar d a i l).loc = localPlace s a i l := by
  unfold feWait
  generalize localPlace s a i l = loc
  rfl

theorem feWait_n (l : Nat) : (feWait s kind scalar d a i l).n = modeBytes s.g.mode := by
  unfold feWait
  generalize modeBytes s.g.mode = n
  rfl

theorem feWait_kind (l : Nat) : (feWait s kind scalar d a i l).kind = kind := rfl

/-- The words of an access's lanes do not meet. -/
def WordsApart (s : State) (a : Operand) (i : BitVec 8) (ls : List Nat) : Prop :=
  ∀ l ∈ ls, ∀ j ∈ ls, j ≠ l → (localPlace s a i l + modeBytes s.g.mode + 3) / 4 ≤ localPlace s a i j / 4 ∨
    (localPlace s a i j + modeBytes s.g.mode + 3) / 4 ≤ localPlace s a i l / 4

/-- Words are as lanes of a kind wait for them. -/
def WordsReady (s : State) (kind : FeKind) (a : Operand) (i : BitVec 8) (l : Nat) : Prop :=
  ∀ w, localPlace s a i l / 4 ≤ w → w < (localPlace s a i l + modeBytes s.g.mode + 3) / 4 → (w ∈ s.empties ↔ kind = .stle)

theorem localBegun_empties (s : State) (a : Operand) (i : BitVec 8) (scalar : Bool) : (localBegun s a i scalar).empties = s.empties :=
  (congrArg State.empties (localBegun_only s a i scalar) :)

theorem feBegun_empties : (feBegun s kind scalar d a i).empties = s.empties := by
  rw [feBegun, State.withWaits_empties, localBegun_empties]

theorem feReady_feBegun (l : Nat) : (feBegun s kind scalar d a i).feReady (feWait s kind scalar d a i l) = true ↔ WordsReady s kind a i l := by
  rw [State.feReady_iff, feBegun_empties, feWait_loc, feWait_n, feWait_kind]
  exact Iff.rfl

theorem feBegun_feWaits : (feBegun s kind scalar d a i).feWaits = (localLanes s a i scalar).map (feWait s kind scalar d a i) := by
  rw [feBegun, State.withWaits_feWaits]

variable {ready : Nat → Bool} (apart' : WordsApart s a i (localLanes s a i scalar))
  (readies : ∀ l ∈ localLanes s a i scalar, ready l = true ↔ WordsReady s kind a i l)

include readies in
theorem feBegun_ready : (feBegun s kind scalar d a i).feWaits.filter (feBegun s kind scalar d a i).feReady =
    ((localLanes s a i scalar).filter ready).map (feWait s kind scalar d a i) := by
  rw [feBegun_feWaits, List.filter_map]
  congr 1
  refine List.filter_congr fun l mem => ?_
  rw [Function.comp_apply, Bool.eq_iff_iff]
  exact (feReady_feBegun l).trans (readies l mem).symm

theorem localBegun_cur (s : State) (a : Operand) (i : BitVec 8) (scalar : Bool) : (localBegun s a i scalar).cur = s.cur :=
  (congrArg State.cur (localBegun_only s a i scalar) :)

theorem localBegun_iss (s : State) (a : Operand) (i : BitVec 8) (scalar : Bool) : (localBegun s a i scalar).iss = s.iss :=
  (congrArg State.iss (localBegun_only s a i scalar) :)

theorem localBegun_access (s : State) (a : Operand) (i : BitVec 8) (scalar : Bool) :
    AccessOnly s (localBegun s a i scalar) ∧ LocalFaults s (localBegun s a i scalar) scalar (s.accessLanes scalar) a i :=
  localBegun_left (localBegun_iss s a i scalar) (localBegun_cur s a i scalar) rfl

theorem localBegun_ckey (s : State) (a : Operand) (i : BitVec 8) (scalar : Bool) : (localBegun s a i scalar).g.ckey = s.g.ckey := by
  obtain ⟨⟨-, -, g⟩, -⟩ := localBegun_access s a i scalar
  rw [g]
  rfl

theorem feBegun_mine : (feBegun s kind scalar d a i).group s.cur = (localBegun s a i scalar).g := by
  rw [State.g, localBegun_cur, feBegun, State.withWaits_group]

include apart' readies in
/-- The service of the lanes that begin to wait. -/
theorem feBegun_service : (feBegun s kind scalar d a i).serveAll s.g.ckey ((feBegun s kind scalar d a i).feWaits.length + 1) =
    feServe s kind scalar d a i ready := by
  rw [State.serveAll_eq]
  · rw [feBegun_ready readies]
    rfl
  · exact (localLanes_nodup s a i scalar).map feWait_injective
  · intro w mem
    obtain ⟨l, -, rfl⟩ := List.mem_map.1 mem
    exact (congrArg Group.ckey feBegun_mine).trans (localBegun_ckey s a i scalar)
  · intro w mem v mem' ne
    obtain ⟨l, hl, rfl⟩ := List.mem_map.1 mem
    obtain ⟨j, hj, rfl⟩ := List.mem_map.1 mem'
    unfold FeWait.away
    rw [feWait_loc, feWait_loc, feWait_n, feWait_n]
    exact apart' l hl j hj fun e => ne (e ▸ rfl)

/-- Those not served still wait. -/
theorem feServe_feWaits : (feServe s kind scalar d a i ready).feWaits =
    ((localLanes s a i scalar).filter (fun l => !ready l)).map (feWait s kind scalar d a i) := by
  rw [feServe, State.feServeds_feWaits, feBegun_feWaits, List.filter_map]
  congr 1
  refine List.filter_congr fun l mem => ?_
  have served : feWait s kind scalar d a i l ∈ ((localLanes s a i scalar).filter ready).map (feWait s kind scalar d a i) ↔ ready l = true := by
    rw [List.mem_map_of_injective feWait_injective, List.mem_filter, and_iff_right mem]
  simp only [Function.comp_apply, served, Bool.not_eq_true, Bool.decide_eq_false]

end

end Sys2Proof.Machine
end

section
/-! SUPPORT. LDLF, STLE and LDLP of any lanes: what the instruction leaves (R139 to R142). -/

namespace Sys2Proof.Machine

open Sys2Proof

theorem NoFeGroup.modG {s : State} (none : NoFeGroup s) {f : Group → Group} (keep : ∀ g, (f g).wait = g.wait) : NoFeGroup (s.modG f) :=
  none.setGroup (by rw [keep]; exact none.group s.cur)

theorem NoFeGroup.accessFault {s : State} (none : NoFeGroup s) (scalar : Bool) (lane kind addr : Nat) : NoFeGroup (s.accessFault scalar lane kind addr) :=
  none.modG fun g => by rw [g.accessFault_eq]

theorem NoFeGroup.localBegun {s : State} (none : NoFeGroup s) (a : Operand) (i : BitVec 8) (scalar : Bool) : NoFeGroup (localBegun s a i scalar) := by
  have faults : NoFeGroup (s.localFaults scalar (s.accessLanes scalar) a i (modeBytes s.g.mode)) := by
    rw [localFaults_eq]
    refine foldl_rel (R := fun s t : State => NoFeGroup s → NoFeGroup t) (fun _ => id) (fun h k => k ∘ h) _ _ (fun t l _ none => ?_) s none
    exact none.accessFault _ _ _ _
  exact faults.modG (f := fun g => g.busier (bankCycles ((localPairs s a i scalar).map Prod.snd))) (fun _ => rfl)

/-- Lanes begin to wait behind those that wait. -/
def State.feQueue (t : State) (ws : List FeWait) : State := t.withWaits (ws.foldl State.insertFe t.feWaits)

/-- A core's waiting lanes are served, and the group goes on or waits. -/
def State.feFinish (t : State) (ck k : Nat) : State :=
  feEnd ((t.serveAll ck (t.feWaits.length + 1)).releaseFe.feWaits.any (fun w => w.gkey == k)) (t.serveAll ck (t.feWaits.length + 1)).releaseFe

section
variable {s : State} {kind : FeKind} {scalar : Bool} {d a : Operand} {i : BitVec 8}

theorem localWait_finish (free : s.fenceHeld 0 = false)
    (clear : s.localBlocked (s.localGood (s.accessLanes scalar) a i (modeBytes s.g.mode)) (modeBytes s.g.mode) (kind == .stle) = false) :
    s.localWait kind scalar d a i = ((localBegun s a i scalar).feQueue ((localLanes s a i scalar).map (feWait s kind scalar d a i))).feFinish
      s.g.ckey s.cur := by
  rw [State.localWait]
  dsimp only
  rw [if_neg (localFree free clear), localGood_lanes, localPairs, List.map_map]
  rfl

theorem feQueue_localBegun (idle : s.feWaits = []) :
    (localBegun s a i scalar).feQueue ((localLanes s a i scalar).map (feWait s kind scalar d a i)) = feBegun s kind scalar d a i := by
  have empty : (localBegun s a i scalar).feWaits = [] := (congrArg State.feWaits (localBegun_only s a i scalar) :).trans idle
  rw [State.feQueue, empty, insertFe_foldl (gkey := s.cur) (since := s.coreTime s.g.ckey), feBegun]
  · rfl
  · intro x mem
    obtain ⟨l, -, rfl⟩ := List.mem_map.1 mem
    exact ⟨rfl, rfl⟩

theorem feBegun_noFe (none : NoFeGroup s) : NoFeGroup (feBegun s kind scalar d a i) := none.localBegun a i scalar

/-- LDLF, STLE and LDLP, where the lanes cover no common word: those whose words are as they wait for them are served at once. -/
theorem localWait_eq {ready : Nat → Bool} (free : s.fenceHeld 0 = false)
    (clear : s.localBlocked (s.localGood (s.accessLanes scalar) a i (modeBytes s.g.mode)) (modeBytes s.g.mode) (kind == .stle) = false)
    (idle : s.feWaits = []) (none : NoFeGroup s) (apart' : WordsApart s a i (localLanes s a i scalar))
    (readies : ∀ l ∈ localLanes s a i scalar, ready l = true ↔ WordsReady s kind a i l) :
    s.localWait kind scalar d a i =
      feEnd (!((localLanes s a i scalar).filter (fun l => !ready l)).isEmpty) (feServe s kind scalar d a i ready) := by
  have released : (feServe s kind scalar d a i ready).releaseFe = feServe s kind scalar d a i ready :=
    releaseFe_none (State.feServeds_noFe (feBegun_noFe none))
  rw [localWait_finish free clear, feQueue_localBegun idle, State.feFinish, feBegun_service apart' readies, released, feServe_feWaits]
  congr 1
  generalize (localLanes s a i scalar).filter (fun l => !ready l) = ls
  cases ls with
  | nil => rfl
  | cons l r =>
    rw [List.map_cons, List.any_cons]
    have mine : ((feWait s kind scalar d a i l).gkey == s.cur) = true := beq_self_eq_true s.cur
    rw [mine]
    rfl

end

end Sys2Proof.Machine
end

section
/-! SUPPORT. LDLF, STLE and LDLP of any lanes: the lanes served, those that wait, and the group (R139 to R142). -/

namespace Sys2Proof.Machine

open Sys2Proof

/-- The end of an access that waits is of the group and the issue alone. -/
theorem feEnd_only (waits : Bool) (t : State) : feEnd waits t = { t with groups := (feEnd waits t).groups, iss := (feEnd waits t).iss } := by
  cases waits <;> rfl

theorem feEnd_others (waits : Bool) (t : State) (k : Nat) (other : k ≠ t.cur) : (feEnd waits t).group k = t.group k := by
  cases waits
  · exact t.group_setG_ne _ k other
  · exact t.group_setG_ne _ k other

theorem feEnd_goes (t : State) : (feEnd false t).iss = t.iss ∧ (feEnd false t).g = { t.g with served := 0 } :=
  ⟨rfl, t.g_modG (fun g => { g with served := 0 })⟩

theorem feEnd_waits (t : State) : (feEnd true t).iss = { t.iss with hold := true } ∧ (feEnd true t).g = { t.g with wait := .fullEmpty } :=
  ⟨rfl, t.g_modG (fun g => { g with wait := .fullEmpty })⟩

theorem feEnd_faults (waits : Bool) (t : State) : (feEnd waits t).g.recs = t.g.recs ∧ (feEnd waits t).g.faults = t.g.faults := by
  cases waits
  · rw [(feEnd_goes t).2]
    exact ⟨rfl, rfl⟩
  · rw [(feEnd_waits t).2]
    exact ⟨rfl, rfl⟩

section
variable {s : State} {kind : FeKind} {scalar : Bool} {d a : Operand} {i : BitVec 8} {ready : Nat → Bool}

theorem feServe_only (s : State) (kind : FeKind) (scalar : Bool) (d a : Operand) (i : BitVec 8) (ready : Nat → Bool) :
    FeOnly (feBegun s kind scalar d a i) (feServe s kind scalar d a i ready) := State.feServeds_only _ _

theorem State.withWaits_only (t : State) (ws : List FeWait) : FeOnly t (t.withWaits ws) := rfl

theorem feServe_localBegun : FeOnly (localBegun s a i scalar) (feServe s kind scalar d a i ready) :=
  FeOnly.trans (State.withWaits_only _ _) (feServe_only s kind scalar d a i ready)

theorem feServe_cur : (feServe s kind scalar d a i ready).cur = s.cur :=
  (congrArg State.cur feServe_localBegun :).trans (localBegun_cur ..)

theorem feServe_iss : (feServe s kind scalar d a i ready).iss = s.iss :=
  (congrArg State.iss feServe_localBegun :).trans (localBegun_iss ..)

theorem feServe_reqs : (feServe s kind scalar d a i ready).reqs = s.reqs :=
  (congrArg State.reqs feServe_localBegun :).trans (congrArg State.reqs (localBegun_only s a i scalar) :)

theorem localLanes_lt {l : Nat} (mem : l ∈ localLanes s a i scalar) : l < 64 := by
  obtain ⟨mem, -⟩ := List.mem_filter.1 mem
  cases scalar
  · exact lt_of_getLsbD ((mem_lanesOf _ _).1 mem)
  · rw [List.mem_singleton.1 mem]
    decide

/-- The served lanes' waits are of the acting group, each of a lane. -/
theorem served_waits {w : FeWait} (mem : w ∈ ((localLanes s a i scalar).filter ready).map (feWait s kind scalar d a i)) :
    w.gkey = s.cur ∧ w.lane < 64 ∧ w.kind = kind := by
  obtain ⟨l, served, rfl⟩ := List.mem_map.1 mem
  exact ⟨rfl, localLanes_lt (List.mem_filter.1 served).1, rfl⟩

theorem feServe_others (k : Nat) (other : k ≠ s.cur) : (feServe s kind scalar d a i ready).group k = s.group k := by
  obtain ⟨⟨-, others, -⟩, -⟩ := localBegun_access s a i scalar
  rw [feServe, State.feServeds_other (fun w mem => (served_waits mem).1 ▸ other), feBegun, State.withWaits_group]
  exact others k other

/-- The group of the lanes served: its time and its faults are those of the access, and it knows the lanes. -/
theorem feServe_g : (feServe s kind scalar d a i ready).g =
      { s.g with busy := (localBegun s a i scalar).g.busy, recs := (localBegun s a i scalar).g.recs, faults := (localBegun s a i scalar).g.faults,
                 served := (feServe s kind scalar d a i ready).g.served } ∧
    ∀ l, l < 64 → (feServe s kind scalar d a i ready).g.served.getLsbD l =
      (s.g.served.getLsbD l || ((localLanes s a i scalar).filter ready).contains l) := by
  obtain ⟨⟨-, -, group⟩, -⟩ := localBegun_access s a i scalar
  obtain ⟨mine, bits⟩ := State.feServeds_mine (k := s.cur) (fun w mem => (served_waits (ready := ready) mem).1)
    (fun w mem => (served_waits mem).2.1) (feBegun s kind scalar d a i)
  have lanes : (((localLanes s a i scalar).filter ready).map (feWait s kind scalar d a i)).map (fun w => w.lane) = (localLanes s a i scalar).filter ready := by
    rw [List.map_map]
    exact List.map_id _
  rw [lanes] at bits
  rw [feBegun_mine] at mine bits
  change (feServe s kind scalar d a i ready).group s.cur = { (localBegun s a i scalar).g with
    served := ((feServe s kind scalar d a i ready).group s.cur).served } at mine
  change ∀ l, l < 64 → ((feServe s kind scalar d a i ready).group s.cur).served.getLsbD l = _ at bits
  rw [State.g, feServe_cur]
  generalize (feServe s kind scalar d a i ready).group s.cur = g at mine bits
  have before : (localBegun s a i scalar).g.served = s.g.served := by rw [group]
  refine ⟨?_, fun l hl => ?_⟩
  · rw [group] at mine
    exact mine
  · rw [bits l hl, before]

/-- With records and faults those of another state, an access has failed in the same lanes. -/
theorem FaultsTaken.congr {s t u : State} {scalar : Bool} {ls : List Nat} {kind addr : Nat → Nat} (h : FaultsTaken s t scalar ls kind addr)
    (recs : u.g.recs = t.g.recs) (faults : u.g.faults = t.g.faults) : FaultsTaken s u scalar ls kind addr := by
  unfold FaultsTaken at h ⊢
  rw [recs, faults]
  exact h

end

/-- The loads of lanes served one by one. -/
def LoadsMade (s t : State) (scalar : Bool) (dst : Nat) (parts : List LoadPart) : Prop :=
  ∃ us : List Nat, us.length = parts.length ∧ (∀ u ∈ us, Activity.event (.loadDataReturn u) ∈ t.agenda) ∧
    t.loads = s.loads ++ List.zipWith (fun u p => ({
      uid := u, gkey := s.cur, team := s.g.team, die := s.g.die, core := s.g.core, fn := s.g.fn, n := modeBytes s.g.mode,
      mode := s.g.mode, scalar, dst, parts := [p] } : Load)) us parts

/-- The end of an access that waits, from the state in which its lanes have been served: the lanes that still wait hold the group. -/
theorem feEnd_made {s u : State} {kind : FeKind} {scalar : Bool} {dst : Nat} {parts : List LoadPart} {served : List Nat} {waits : List (Nat × Nat)}
    (iss : u.iss = s.iss) (cur : u.cur = s.cur) (others : ∀ k, k ≠ s.cur → u.group k = s.group k)
    (group : u.g = { s.g with busy := u.g.busy, recs := u.g.recs, faults := u.g.faults, served := u.g.served })
    (bits : ∀ l, l < 64 → u.g.served.getLsbD l = (s.g.served.getLsbD l || served.contains l))
    (queue : u.feWaits.map (fun w => (w.gkey, w.kind, w.lane, w.loc)) = waits.map (fun p => (s.cur, kind, p.1, p.2)))
    (loads : LoadsMade s u scalar dst parts) : FullEmptyMade s (feEnd (!waits.isEmpty) u) kind scalar dst parts served waits := by
  have frame := feEnd_only (!waits.isEmpty) u
  obtain ⟨us, number, come, loads⟩ := loads
  refine ⟨⟨us, number, fun v hv => ?_, (congrArg State.loads frame :).trans loads⟩, ?_,
    fun k ne => (feEnd_others _ u k (by rwa [cur])).trans (others k ne), fun none => ?_, fun some' => ?_⟩
  · rw [frame]
    exact come v hv
  · rw [frame]
    exact queue
  · subst none
    obtain ⟨iss', g⟩ := feEnd_goes u
    refine ⟨iss'.trans iss, ?_⟩
    change (feEnd false u).g = { s.g with busy := (feEnd false u).g.busy, recs := (feEnd false u).g.recs, faults := (feEnd false u).g.faults, served := 0 }
    rw [g, group]
  · have holds : (!waits.isEmpty) = true := by simpa using some'
    obtain ⟨iss', g⟩ := feEnd_waits u
    rw [holds, iss', g, iss]
    refine ⟨rfl, ?_, bits⟩
    rw [group]

end Sys2Proof.Machine
end

section
/-! SUPPORT. LDLF and LDLP: the loads of the lanes served; STLE: their bytes (R139 to R143). -/

namespace Sys2Proof.Machine

open Sys2Proof

section
variable {s : State} {kind : FeKind} {scalar : Bool} {d a : Operand} {i : BitVec 8} {ready : Nat → Bool}

/-- LDLF, STLE and LDLP of lanes that cover no common word, where the loads of those served are known. -/
theorem exec_localWait {e : Instr} {dst : Nat} {parts : List LoadPart} (ran : exec e s = .next (s.localWait kind scalar d a i)) (free : s.fenceHeld 0 = false)
    (clear : s.localBlocked (s.localGood (s.accessLanes scalar) a i (modeBytes s.g.mode)) (modeBytes s.g.mode) (kind == .stle) = false)
    (idle : s.feWaits = []) (none : NoFeGroup s) (apart' : WordsApart s a i (localLanes s a i scalar))
    (readies : ∀ l ∈ localLanes s a i scalar, ready l = true ↔ WordsReady s kind a i l)
    (loads : LoadsMade s (feServe s kind scalar d a i ready) scalar dst parts) :
    let good := localLanes s a i scalar
    let u := feServe s kind scalar d a i ready
    ∃ t, exec e s = .next t ∧ t = { u with groups := t.groups, iss := t.iss } ∧ t.reqs = s.reqs ∧ LocalFaults s t scalar (s.accessLanes scalar) a i ∧
      FullEmptyMade s t kind scalar dst parts (good.filter ready) ((good.filter (fun l => !ready l)).map (fun l => (l, localPlace s a i l))) := by
  intro good u
  obtain ⟨group, bits⟩ := feServe_g (s := s) (kind := kind) (scalar := scalar) (d := d) (a := a) (i := i) (ready := ready)
  obtain ⟨-, failed⟩ := localBegun_access s a i scalar
  have shape : s.localWait kind scalar d a i = feEnd (!((good.filter (fun l => !ready l)).map (fun l => (l, localPlace s a i l))).isEmpty) u := by
    rw [List.isEmpty_map]
    exact localWait_eq free clear idle none apart' readies
  have queue : u.feWaits = (good.filter (fun l => !ready l)).map (feWait s kind scalar d a i) := feServe_feWaits
  have cur : u.cur = s.cur := feServe_cur
  have iss : u.iss = s.iss := feServe_iss
  have reqs : u.reqs = s.reqs := feServe_reqs
  have others : ∀ k, k ≠ s.cur → u.group k = s.group k := feServe_others
  change u.g = _ at group
  change ∀ l, l < 64 → u.g.served.getLsbD l = _ at bits
  change LoadsMade s u scalar dst parts at loads
  generalize u = u at *
  have made := feEnd_made (kind := kind) (dst := dst) (parts := parts) (waits := (good.filter (fun l => !ready l)).map (fun l => (l, localPlace s a i l)))
    iss cur others (by rw [group]) bits (by rw [queue, List.map_map, List.map_map]; rfl) loads
  have frame := feEnd_only (!((good.filter (fun l => !ready l)).map (fun l => (l, localPlace s a i l))).isEmpty) u
  refine ⟨_, by rw [ran, shape], frame, (congrArg State.reqs frame :).trans reqs, ?_, made⟩
  obtain ⟨recs, faults⟩ := feEnd_faults (!((good.filter (fun l => !ready l)).map (fun l => (l, localPlace s a i l))).isEmpty) u
  exact FaultsTaken.congr failed (by rw [recs, group]) (by rw [faults, group])

/-! ### LDLF and LDLP -/

theorem feBegun_byteAt (x : Nat) : (feBegun s kind scalar d a i).byteAt x = s.byteAt x := by
  have begun := localBegun_only s a i scalar
  rw [feBegun]
  generalize localBegun s a i scalar = t at begun
  rw [begun]
  rfl

/-- The load of a lane served, of the state in which the lanes begin to wait. -/
theorem feLoad_feBegun (l u : Nat) : { (feBegun s kind scalar d a i).feLoad (feWait s kind scalar d a i l) with uid := u } = ({
    uid := u, gkey := s.cur, team := s.g.team, die := s.g.die, core := s.g.core, fn := s.g.fn, n := modeBytes s.g.mode,
    mode := s.g.mode, scalar, dst := regNum d, parts := [localPart s a i l] } : Load) := by
  obtain ⟨⟨-, -, group⟩, -⟩ := localBegun_access s a i scalar
  have mine : (feBegun s kind scalar d a i).group (feWait s kind scalar d a i l).gkey = (localBegun s a i scalar).g := feBegun_mine
  have value : (feBegun s kind scalar d a i).natAt (feWait s kind scalar d a i l).loc (feWait s kind scalar d a i l).n =
      s.natAt (localPlace s a i l) (modeBytes s.g.mode) := by
    rw [feWait_loc, feWait_n]
    exact natAt_congr fun k _ => feBegun_byteAt _
  unfold State.feLoad
  rw [mine, value, group, feWait_loc, feWait_n]
  rfl

theorem feServe_loads (load : kind ≠ .stle) :
    LoadsMade s (feServe s kind scalar d a i ready) scalar (regNum d) (((localLanes s a i scalar).filter ready).map (localPart s a i)) ∧
      (feServe s kind scalar d a i ready).mem = s.mem ∧
      ∀ w, w ∈ (feServe s kind scalar d a i ready).empties ↔ w ∈ s.empties ∨ kind = .ldlf ∧ ∃ l ∈ (localLanes s a i scalar).filter ready,
        localPlace s a i l / 4 ≤ w ∧ w < (localPlace s a i l + modeBytes s.g.mode + 3) / 4 := by
  obtain ⟨us, served⟩ := State.feServeds_loads (((localLanes s a i scalar).filter ready).map (feWait s kind scalar d a i))
    (fun w mem => (served_waits mem).2.2 ▸ load) (feBegun s kind scalar d a i)
  have start : (feBegun s kind scalar d a i).loads = s.loads := (congrArg State.loads (localBegun_only s a i scalar) :)
  refine ⟨⟨us, ?_, served.come, ?_⟩, ?_, fun w => ?_⟩
  · rw [served.number, List.length_map, List.length_map]
  · refine served.loads.trans ?_
    rw [start, State.feLoads, List.zipWith_map_right, List.zipWith_map_right]
    simp only [feLoad_feBegun]
  · exact served.mem.trans (congrArg State.mem (localBegun_only s a i scalar) :)
  · refine (served.empties w).trans ?_
    rw [feBegun_empties]
    refine or_congr_right ?_
    simp only [List.mem_map, exists_exists_and_eq_and, feWait_kind, feWait_loc, feWait_n, and_left_comm (b := kind = .ldlf), exists_and_left]

/-- LDLF and LDLP of lanes that cover no common word: a load each for the lanes whose words are full. -/
theorem exec_localWait_loads {e : Instr} (ran : exec e s = .next (s.localWait kind scalar d a i)) (load : kind ≠ .stle) (free : s.fenceHeld 0 = false)
    (clear : s.localBlocked (s.localGood (s.accessLanes scalar) a i (modeBytes s.g.mode)) (modeBytes s.g.mode) false = false)
    (idle : s.feWaits = []) (none : NoFeGroup s) (apart' : WordsApart s a i (localLanes s a i scalar))
    (readies : ∀ l ∈ localLanes s a i scalar, ready l = true ↔ ∀ w, localPlace s a i l / 4 ≤ w →
      w < (localPlace s a i l + modeBytes s.g.mode + 3) / 4 → w ∉ s.empties) :
    let good := localLanes s a i scalar
    let served := good.filter ready
    ∃ t, exec e s = .next t ∧ t.mem = s.mem ∧ t.reqs = s.reqs ∧ LocalFaults s t scalar (s.accessLanes scalar) a i ∧
      FullEmptyMade s t kind scalar (regNum d) (served.map (localPart s a i)) served
        ((good.filter (fun l => !ready l)).map (fun l => (l, localPlace s a i l))) ∧
      ∀ w, w ∈ t.empties ↔ w ∈ s.empties ∨ kind = .ldlf ∧ ∃ l ∈ served,
        localPlace s a i l / 4 ≤ w ∧ w < (localPlace s a i l + modeBytes s.g.mode + 3) / 4 := by
  intro good served
  obtain ⟨loads, mem, empties⟩ := feServe_loads (s := s) (scalar := scalar) (d := d) (a := a) (i := i) (ready := ready) load
  obtain ⟨t, ran, frame, reqs, faults, made⟩ := exec_localWait ran free (by rwa [beq_false_of_ne load]) idle none apart'
    (fun l mem => (readies l mem).trans (forall_congr' fun w => by simp [load])) loads
  have words : t.empties = (feServe s kind scalar d a i ready).empties := (congrArg State.empties frame :)
  exact ⟨t, ran, (congrArg State.mem frame :).trans mem, reqs, faults, made, fun w => words ▸ empties w⟩

end

end Sys2Proof.Machine
end

section
/-! The obligation of the loads from the local store: O45. -/

namespace Sys2Proof.Machine

open Sys2Proof

/-- Settles O45: LDL at once; LDLF and LDLP by what their lanes' service leaves. -/
theorem localLoads : Obligations.LocalLoads := by
  intro s d a i free n ls good at' lo hi part clear
  refine ⟨exec_ldl_loads free clear, fun full e k form idle none apart' readies => ?_⟩
  rcases form with ⟨rfl, rfl⟩ | ⟨rfl, rfl⟩
  · exact exec_localWait_loads rfl (by decide) free clear idle none apart' readies
  · exact exec_localWait_loads rfl (by decide) free clear idle none apart' readies

end Sys2Proof.Machine
end

section
/-! SUPPORT. STLE and FESET of any lanes (R139, R143, R147). -/

namespace Sys2Proof.Machine

open Sys2Proof

/-! ### STLE -/

section
variable {s : State} {scalar : Bool} {d a : Operand} {i : BitVec 8} {ready : Nat → Bool}

theorem feWait_beyond (kind : FeKind) (l : Nat) : tableLoc (2 ^ 48) ≤ (feWait s kind scalar d a i l).loc := by
  rw [feWait_loc]
  exact localPlace_beyond ..

/-- A lane of an STLE served: its bytes are stored, its words full, and nothing is loaded. -/
theorem feServed_stores (t : State) (l : Nat) : let u := t.feServed (feWait s .stle scalar d a i l)
    u.loads = t.loads ∧ (∀ x, x < localPlace s a i l ∨ localPlace s a i l + modeBytes s.g.mode ≤ x → u.byteAt x = t.byteAt x) ∧
      (Inv t → Inv u ∧ ∀ k, k < modeBytes s.g.mode → u.byteAt (localPlace s a i l + k) = BitVec.ofNat 8 ((s.rd128 d l).toNat / 256 ^ k)) ∧
      ∀ w, w ∈ u.empties ↔ w ∈ t.empties ∧ (w < localPlace s a i l / 4 ∨ (localPlace s a i l + modeBytes s.g.mode + 3) / 4 ≤ w) := by
  dsimp only
  have taken : (t.feTaken (feWait s .stle scalar d a i l)).loads = t.loads := rfl
  have takenEmpties : (t.feTaken (feWait s .stle scalar d a i l)).empties = t.empties := rfl
  have takenBytes (x : Nat) : (t.feTaken (feWait s .stle scalar d a i l)).byteAt x = t.byteAt x := rfl
  have takenInv (inv : Inv t) : Inv (t.feTaken (feWait s .stle scalar d a i l)) := inv
  have data : (feWait s .stle scalar d a i l).data = s.rd128 d l := rfl
  rw [State.feServed_stle (feWait_kind l), feWait_loc, feWait_n, data]
  generalize t.feTaken (feWait s .stle scalar d a i l) = v at *
  have only := storeNat_only v (localPlace s a i l) 0 (modeBytes s.g.mode) (s.rd128 d l).toNat
  refine ⟨((congrArg State.loads only :)).trans taken, fun x out => ?_, fun inv => ⟨?_, fun k inside => ?_⟩, fun w => ?_⟩
  · rw [byteAt_setFull, v.byteAt_storeNat_out (localPlace_beyond ..) out, takenBytes]
  · exact inv_setFull (storeNat_inv (takenInv inv) _ _ _ (localPlace_beyond ..))
  · rw [byteAt_setFull, v.byteAt_storeNat_in (takenInv inv) (localPlace_beyond ..) inside]
  · rw [State.setFull, Empties.mem_fill, storeNat_empties, takenEmpties]

theorem feServe_stle_out {x : Nat} (away : ∀ l ∈ (localLanes s a i scalar).filter ready, x < localPlace s a i l ∨ localPlace s a i l + modeBytes s.g.mode ≤ x) :
    (feServe s .stle scalar d a i ready).byteAt x = s.byteAt x := by
  rw [feServe, List.foldl_map, byteAt_foldl_out (loc := localPlace s a i) (n := modeBytes s.g.mode) (fun t l _ => (feServed_stores t l).2.1 x) away,
    feBegun_byteAt]

theorem feServe_stle : feServe s .stle scalar d a i ready =
    ((localLanes s a i scalar).filter ready).foldl (fun t l => t.feServed (feWait s .stle scalar d a i l)) (feBegun s .stle scalar d a i) :=
  List.foldl_map

theorem feServe_stle_loads : LoadsMade s (feServe s .stle scalar d a i ready) scalar 0 [] := by
  have same : (feServe s .stle scalar d a i ready).loads = s.loads := by
    rw [feServe_stle]
    exact (foldl_rel (R := fun t u : State => u.loads = t.loads) (fun _ => rfl) (fun h k => k.trans h) _ _
      (fun t l _ => (feServed_stores t l).1) _).trans (congrArg State.loads (localBegun_only s a i scalar) :)
  exact ⟨[], rfl, fun _ mem => (nomatch mem), same.trans (List.append_nil _).symm⟩

theorem feBegun_inv (kind : FeKind) (inv : Inv s) : Inv (feBegun s kind scalar d a i) := by
  have mem : (feBegun s kind scalar d a i).mem = s.mem := (congrArg State.mem (localBegun_only s a i scalar) :)
  rw [Inv, mem]
  exact inv

/-- Each lane that an STLE serves has stored its bytes, as no other stores there. -/
theorem feServe_stle_in (apart' : WordsApart s a i (localLanes s a i scalar)) (inv : Inv s) {l k : Nat}
    (mem : l ∈ (localLanes s a i scalar).filter ready) (inside : k < modeBytes s.g.mode) :
    (feServe s .stle scalar d a i ready).byteAt (localPlace s a i l + k) = BitVec.ofNat 8 ((s.rd128 d l).toNat / 256 ^ k) := by
  have distinct : ((localLanes s a i scalar).filter ready).Nodup := (localLanes_nodup s a i scalar).filter _
  have others (j : Nat) (served : j ∈ (localLanes s a i scalar).filter ready) (ne : j ≠ l) :=
    apart' l (List.mem_filter.1 mem).1 j (List.mem_filter.1 served).1 ne
  rw [feServe_stle]
  generalize (localLanes s a i scalar).filter ready = served at mem distinct others
  obtain ⟨before, after, rfl⟩ := List.append_of_mem mem
  have ne (j : Nat) (hj : j ∈ after) : j ≠ l := fun e => (List.nodup_cons.1 (List.nodup_append.1 distinct).2.1).1 (e ▸ hj)
  refine byteAt_foldl_in (loc := localPlace s a i) (n := modeBytes s.g.mode) (fun t j _ out => (feServed_stores t j).2.1 _ out) (fun j hj => ?_)
    (fun t j _ inv => ((feServed_stores t j).2.2.1 inv).1) (fun t inv => ((feServed_stores t l).2.2.1 inv).2 k inside) (feBegun_inv .stle inv)
  have := others j (List.mem_append_right _ (.tail _ hj)) (ne j hj)
  omega

/-- STLE of lanes that cover no common word: those whose words are empty store their bytes and fill them. -/
theorem exec_localWait_stores {e : Instr} (ran : exec e s = .next (s.localWait .stle scalar d a i)) (free : s.fenceHeld 0 = false)
    (clear : s.localBlocked (s.localGood (s.accessLanes scalar) a i (modeBytes s.g.mode)) (modeBytes s.g.mode) true = false)
    (idle : s.feWaits = []) (none : NoFeGroup s) (apart' : WordsApart s a i (localLanes s a i scalar))
    (readies : ∀ l ∈ localLanes s a i scalar, ready l = true ↔ ∀ w, localPlace s a i l / 4 ≤ w →
      w < (localPlace s a i l + modeBytes s.g.mode + 3) / 4 → w ∈ s.empties) :
    let n := modeBytes s.g.mode
    let good := localLanes s a i scalar
    let at' := localPlace s a i
    let served := good.filter ready
    ∃ t, exec e s = .next t ∧ t.reqs = s.reqs ∧ LocalFaults s t scalar (s.accessLanes scalar) a i ∧
      FullEmptyMade s t .stle scalar 0 [] served ((good.filter (fun l => !ready l)).map (fun l => (l, at' l))) ∧
      (∀ x, (∀ l ∈ served, x < at' l ∨ at' l + n ≤ x) → t.byteAt x = s.byteAt x) ∧
      (Inv s → ∀ l ∈ served, ∀ k, k < n → t.byteAt (at' l + k) = BitVec.ofNat 8 ((s.rd128 d l).toNat / 256 ^ k)) ∧
      ∀ w, w ∈ t.empties ↔ w ∈ s.empties ∧ ∀ l ∈ served, w < at' l / 4 ∨ (at' l + n + 3) / 4 ≤ w := by
  intro n good at' served
  obtain ⟨t, ran, frame, reqs, faults, made⟩ := exec_localWait ran free clear idle none apart'
    (fun l mem => (readies l mem).trans (forall_congr' fun w => by simp)) feServe_stle_loads
  have words : t.empties = (feServe s .stle scalar d a i ready).empties := (congrArg State.empties frame :)
  have bytes (x : Nat) : t.byteAt x = (feServe s .stle scalar d a i ready).byteAt x := by
    generalize feServe s .stle scalar d a i ready = u at frame
    rw [frame]
    rfl
  refine ⟨t, ran, reqs, faults, made, fun x away => ?_, fun inv l mem k inside => ?_, fun w => ?_⟩
  · rw [bytes]
    exact feServe_stle_out away
  · rw [bytes]
    exact feServe_stle_in apart' inv mem inside
  · rw [words, feServe_stle, empties_foldl_fill (fun t l => (feServed_stores t l).2.2.2 w), feBegun_empties]

end

end Sys2Proof.Machine
end

section
/-! SUPPORT. FESET of any lanes (R147). -/

namespace Sys2Proof.Machine

open Sys2Proof

/-- The words of a state replaced. -/
def State.withEmpties (t : State) (e : List Nat) : State := { t with empties := e }

section
variable (s : State) (d a : Operand)

/-- The length and the address of a lane's range of words, and does it pass the checks of R147? -/
def fesetLen (l : Nat) : Nat := (s.rd d l).toNat
def fesetPasses (l : Nat) : Bool := decide ((s.rd a l).toNat % 4 = 0) && decide ((s.rd a l).toNat + 4 * fesetLen s d l ≤ s.team.lsSize)

theorem fesetCheck_eq (l : Nat) : State.fesetCheck s.team.lsSize (s.rd a l).toNat (fesetLen s d l) =
    if fesetPasses s d a l then .ok (s.rd a l).toNat else .error (if (s.rd a l).toNat % 4 = 0 then 1 else 3) := by
  unfold State.fesetCheck fesetPasses
  by_cases aligned : (s.rd a l).toNat % 4 = 0
  · rw [if_neg (not_not.2 aligned), decide_eq_true aligned, Bool.true_and, if_pos aligned]
    by_cases inside : (s.rd a l).toNat + 4 * fesetLen s d l ≤ s.team.lsSize
    · rw [if_neg (not_lt.2 inside), decide_eq_true inside]
      rfl
    · rw [if_pos (not_le.1 inside), decide_eq_false inside]
      rfl
  · rw [if_pos aligned, decide_eq_false aligned, if_neg aligned]
    rfl

/-- The words of a lane's range made full or empty. -/
def fesetWords (full : Bool) (e : List Nat) (l : Nat) : List Nat :=
  if fesetPasses s d a l = true ∧ fesetLen s d l ≠ 0 then
    if full then Empties.fill e (s.lsLoc (s.rd a l).toNat / 4) ((s.lsLoc (s.rd a l).toNat + 4 * fesetLen s d l + 3) / 4)
    else Empties.drain e (s.lsLoc (s.rd a l).toNat / 4) ((s.lsLoc (s.rd a l).toNat + 4 * fesetLen s d l + 3) / 4 - s.lsLoc (s.rd a l).toNat / 4)
  else e

/-- A lane of FESET: a fault, or its words. -/
def fesetStep (full : Bool) (t : State) (l : Nat) : State :=
  match State.fesetCheck s.team.lsSize (s.rd a l).toNat (fesetLen s d l) with
  | .error k => t.accessFault a.isS l k (s.rd a l).toNat
  | .ok x =>
    if fesetLen s d l = 0 then t
    else if full then t.setFull (s.lsLoc x) (4 * fesetLen s d l) else t.setEmpty (s.lsLoc x) (4 * fesetLen s d l)

/-- A lane at fault. -/
def fesetFault (t : State) (l : Nat) : State := t.accessFault a.isS l (if (s.rd a l).toNat % 4 = 0 then 1 else 3) (s.rd a l).toNat

theorem fesetStep_eq (full : Bool) (t : State) (e : List Nat) (l : Nat) : fesetStep s d a full (t.withEmpties e) l =
    (if fesetPasses s d a l then t else fesetFault s a t l).withEmpties (fesetWords s d a full e l) := by
  unfold fesetStep fesetWords
  rw [fesetCheck_eq]
  cases fesetPasses s d a l
  · rfl
  · by_cases none : fesetLen s d l = 0
    · simp [none]
    · cases full
      · simp [none]
        rfl
      · simp [none]
        rfl

theorem fesetSteps_eq (full : Bool) (ls : List Nat) (t : State) (e : List Nat) : ls.foldl (fesetStep s d a full) (t.withEmpties e) =
    ((ls.filter (fun l => !fesetPasses s d a l)).foldl (fesetFault s a) t).withEmpties (ls.foldl (fesetWords s d a full) e) := by
  induction ls generalizing t e with
  | nil => rfl
  | cons l r ih =>
    rw [List.foldl_cons, fesetStep_eq, ih, List.filter_cons]
    cases fesetPasses s d a l <;> rfl

/-- Does a lane's range cover a word? -/
def fesetCovers (l w : Nat) : Prop :=
  fesetPasses s d a l = true ∧ fesetLen s d l ≠ 0 ∧ s.lsLoc (s.rd a l).toNat / 4 ≤ w ∧ w < (s.lsLoc (s.rd a l).toNat + 4 * fesetLen s d l + 3) / 4

theorem mem_fesetWords_full (e : List Nat) (l w : Nat) : w ∈ fesetWords s d a true e l ↔ w ∈ e ∧ ¬ fesetCovers s d a l w := by
  unfold fesetWords fesetCovers
  split
  · rename_i covers
    rw [if_pos rfl, Empties.mem_fill, and_iff_right covers.1, and_iff_right covers.2, not_and_or, not_le, not_lt]
  · rename_i passed
    exact (and_iff_left fun h => passed ⟨h.1, h.2.1⟩).symm

theorem mem_fesetWords_empty (e : List Nat) (l w : Nat) : w ∈ fesetWords s d a false e l ↔ w ∈ e ∨ fesetCovers s d a l w := by
  unfold fesetWords fesetCovers
  split
  · rename_i covers
    rw [if_neg Bool.false_ne_true, Empties.mem_drain, and_iff_right covers.1, and_iff_right covers.2]
    exact or_congr_right (and_congr_right fun _ => by omega)
  · rename_i passed
    exact (or_iff_left fun h => passed ⟨h.1, h.2.1⟩).symm

theorem mem_fesetWordss_full (ls : List Nat) (e : List Nat) (w : Nat) :
    w ∈ ls.foldl (fesetWords s d a true) e ↔ w ∈ e ∧ ∀ l ∈ ls, ¬ fesetCovers s d a l w := by
  induction ls generalizing e with
  | nil => exact (and_iff_left fun _ mem => nomatch mem).symm
  | cons l r ih => rw [List.foldl_cons, ih, mem_fesetWords_full, List.forall_mem_cons, and_assoc]

theorem mem_fesetWordss_empty (ls : List Nat) (e : List Nat) (w : Nat) :
    w ∈ ls.foldl (fesetWords s d a false) e ↔ w ∈ e ∨ ∃ l ∈ ls, fesetCovers s d a l w := by
  induction ls generalizing e with
  | nil => exact (or_iff_left fun ⟨_, mem, _⟩ => nomatch mem).symm
  | cons l r ih => rw [List.foldl_cons, ih, mem_fesetWords_empty, List.exists_mem_cons_iff, or_assoc]

end

section
variable {s : State} {d a : Operand}

/-- FESET, where no range of a lane that passes meets the scoreboard's. -/
theorem exec_feset_eq (full : Bool) (free : s.fenceHeld 0 = false)
    (clear : ∀ l ∈ s.accessLanes a.isS, fesetPasses s d a l = true → fesetLen s d l ≠ 0 →
      s.scoreConflict s.g.ckey (s.team.lsBase + (s.rd a l).toNat) (s.team.lsBase + (s.rd a l).toNat + 4 * fesetLen s d l) true = false) :
    ∃ n, exec (.feset d a full) s =
      .next ((((s.accessLanes a.isS).foldl (fesetStep s d a full) s).modG (fun g => g.busier n)).checkFe s.g.ckey) := by
  have passes : (s.fenceHeld 0 || (s.accessLanes a.isS).any (fun l =>
      match State.fesetCheck s.team.lsSize (s.rd a l).toNat (s.rd d l).toNat with
      | .ok x => (s.rd d l).toNat != 0 &&
          s.scoreConflict s.g.ckey (s.team.lsBase + x) (s.team.lsBase + x + 4 * (s.rd d l).toNat) true
      | .error _ => false)) = false := by
    rw [free, Bool.false_or, List.any_eq_false]
    intro l mem
    have check := fesetCheck_eq s d a l
    unfold fesetLen at check
    rw [check]
    by_cases pass : fesetPasses s d a l = true
    · rw [pass]
      by_cases none : (s.rd d l).toNat = 0
      · simp [none]
      · have apart' := clear l mem pass none
        unfold fesetLen at apart'
        simpa [none] using apart'
    · rw [Bool.eq_false_iff.2 pass]
      exact Bool.false_ne_true
  have ran : exec (.feset d a full) s = execFeset d a full s := rfl
  rw [ran, execFeset]
  dsimp only
  exact ⟨_, if_neg (Bool.eq_false_iff.1 passes)⟩

/-- FESET: the faults of lanes, and the words of the others. -/
theorem exec_feset (full : Bool) (free : s.fenceHeld 0 = false)
    (clear : ∀ l ∈ s.accessLanes a.isS, fesetPasses s d a l = true → fesetLen s d l ≠ 0 →
      s.scoreConflict s.g.ckey (s.team.lsBase + (s.rd a l).toNat) (s.team.lsBase + (s.rd a l).toNat + 4 * fesetLen s d l) true = false) :
    ∃ t, exec (.feset d a full) s = .next t ∧ AccessOnly s t ∧
      FaultsTaken s t a.isS ((s.accessLanes a.isS).filter (fun l => !fesetPasses s d a l)) (fun l => if (s.rd a l).toNat % 4 = 0 then 1 else 3)
        (fun l => (s.rd a l).toNat) ∧ t.mem = s.mem ∧ t.empties = (s.accessLanes a.isS).foldl (fesetWords s d a full) s.empties := by
  obtain ⟨n, ran⟩ := exec_feset_eq full free clear
  have steps := fesetSteps_eq s d a full (s.accessLanes a.isS) s s.empties
  have left := (accessFaults_regrouped a.isS ((s.accessLanes a.isS).filter (fun l => !fesetPasses s d a l))
    (fun l => if (s.rd a l).toNat % 4 = 0 then 1 else 3) (fun l => (s.rd a l).toNat) (.refl s)).modG (fun g => g.busier n)
  change Regrouped s _ ((List.foldl (fesetFault s a) s _).modG _) at left
  have same : s.withEmpties s.empties = s := rfl
  rw [same] at steps
  rw [steps] at ran
  generalize ((s.accessLanes a.isS).filter (fun l => !fesetPasses s d a l)).foldl (fesetFault s a) s = u at ran left
  generalize (s.accessLanes a.isS).foldl (fesetWords s d a full) s.empties = e at ran
  obtain ⟨more, posted⟩ := checkFe_posts ((u.withEmpties e).modG (fun g => g.busier n)) s.g.ckey
  rw [posted] at ran
  obtain ⟨only, failed⟩ := accessOnly_of (t := { (u.withEmpties e).modG (fun g => g.busier n) with
    agenda := ((u.withEmpties e).modG (fun g => g.busier n)).agenda ++ more }) left (left.iss) (left.cur) rfl
  exact ⟨_, ran, only, failed, left.mem, rfl⟩

end

end Sys2Proof.Machine
end

section
/-! The obligation of the stores to the local store: O46. -/

namespace Sys2Proof.Machine

open Sys2Proof

/-- Settles O46: STL and STLE by what their lanes store; FESET by its lanes' words. -/
theorem localStores : Obligations.LocalStores := by
  intro s d a i free n scalar ls good at' lo hi byte
  refine ⟨fun clear => ⟨exec_stl_stores free clear, fun empty idle none apart' readies => ?_⟩, ?_⟩
  · exact exec_localWait_stores rfl free clear idle none apart' readies
  · intro ms x len ok covers faulted clear
    obtain ⟨t, ran, only, faults, mem, words⟩ := exec_feset (s := s) (d := d) (a := a) true free clear
    obtain ⟨t', ran', only', faults', mem', words'⟩ := exec_feset (s := s) (d := d) (a := a) false free clear
    refine ⟨⟨t, ran, only, faults, mem, fun w => ?_⟩, ⟨t', ran', only', faults', mem', fun w => ?_⟩⟩
    · rw [words]
      exact mem_fesetWordss_full ..
    · rw [words']
      exact mem_fesetWordss_empty ..

end Sys2Proof.Machine
end

section
/-! SUPPORT. PHASE and FENCE as instructions (R165, R174, R175). -/

namespace Sys2Proof.Machine

open Sys2Proof

/-- The scope and the storage set of a phase or a fence (R57). -/
def phaseScope (d : BitVec 8) : Nat := (d.extractLsb' 0 3).toNat
def phaseStorage (d : BitVec 8) : BitVec 5 := d.extractLsb' 3 5

namespace State

theorem stationEnd_cur (s : State) (k scope : Nat) (st : BitVec 5) : (s.stationEnd k scope st).iss = s.iss ∧ (s.stationEnd k scope st).cur = s.cur := by
  unfold stationEnd
  split
  · unfold writeBack
    dsimp only
    split <;> exact ⟨rfl, rfl⟩
  · exact ⟨rfl, rfl⟩

theorem publishEnd_cur (s : State) (k scope : Nat) (st : BitVec 5) : (s.publishEnd k scope st).iss = s.iss ∧ (s.publishEnd k scope st).cur = s.cur := by
  unfold publishEnd
  dsimp only
  split
  · exact (s.unveil k (s.group k).team).stationEnd_cur k scope st
  · exact s.stationEnd_cur k scope st

end State

section
variable {s : State}

/-- Does a PHASE wait for what its publish covers? -/
def phaseWaits (s : State) (d : BitVec 8) (i : BitVec 2) : Prop :=
  i.getLsbD 0 = true ∧ 2 ≤ phaseScope d ∧ unpublished s s.cur (phaseScope d) (phaseStorage d)

theorem phaseWaits_iff (s : State) (d : BitVec 8) (i : BitVec 2) :
    (i.getLsbD 0 && decide (2 ≤ phaseScope d) && !s.published s.cur (phaseScope d) (phaseStorage d)) = true ↔ phaseWaits s d i := by
  rw [Bool.and_eq_true, Bool.and_eq_true, decide_eq_true_eq, Bool.not_eq_true', ← Bool.not_eq_true, s.published_iff, not_not, and_assoc]
  rfl

/-- A publish's end where the instruction publishes. -/
def phasePublished (s : State) (d : BitVec 8) (i : BitVec 2) : State :=
  if i.getLsbD 0 then s.publishEnd s.cur (phaseScope d) (phaseStorage d) else s

theorem phasePublished_leaves (s : State) (d : BitVec 8) (i : BitVec 2) :
    let t := phasePublished s d i
    let shows := i.getLsbD 0 = true ∧ 2 ≤ phaseScope d ∧ (phaseStorage d).getLsbD 1 = true
    t.groups = s.groups ∧ t.cores = s.cores ∧ t.iss = s.iss ∧ t.cur = s.cur ∧
      (i.getLsbD 0 = false ∨ ¬ (phaseScope d = 5 ∧ (phaseStorage d).getLsbD 4 = true) → t.mem = s.mem) ∧
      (shows → t.veils = s.veils.filter (fun v => !(v.gkey == s.cur && v.team == s.g.team))) ∧ (¬ shows → t.veils = s.veils) := by
  unfold phasePublished
  cases publishes : i.getLsbD 0
  · exact ⟨rfl, rfl, rfl, rfl, fun _ => rfl, fun shown => Bool.noConfusion shown.1, fun _ => rfl⟩
  · obtain ⟨groups, cores, mem, veils⟩ := s.publishEnd_leaves s.cur (phaseScope d) (phaseStorage d)
    obtain ⟨iss, cur⟩ := s.publishEnd_cur s.cur (phaseScope d) (phaseStorage d)
    refine ⟨groups, cores, iss, cur, fun h => mem (h.resolve_left Bool.noConfusion), fun shown => ?_, fun hidden => ?_⟩
    · exact veils.trans (if_pos shown.2)
    · exact veils.trans (if_neg fun shown => hidden ⟨rfl, shown⟩)

theorem exec_phase_eq (s : State) (d : BitVec 8) (i : BitVec 2) : exec (.phase d i) s =
    if (i.getLsbD 0 && decide (2 ≤ phaseScope d) && !s.published s.cur (phaseScope d) (phaseStorage d)) = true then
      .next ((s.modG (fun g => { g with wait := .publish (phaseScope d) (phaseStorage d) (i.getLsbD 1) })).holdIssue)
    else .next (if i.getLsbD 1 then (phasePublished s d i).refreshFor (phasePublished s d i).cur (phaseStorage d) else phasePublished s d i) := rfl

/-- A PHASE that waits. -/
theorem exec_phase_waits {d : BitVec 8} {i : BitVec 2} (waits : phaseWaits s d i) : ∃ t, exec (.phase d i) s = .next t ∧ GroupOnly s t ∧
    t.iss = { s.iss with hold := true } ∧ t.g = { s.g with wait := .publish (phaseScope d) (phaseStorage d) (i.getLsbD 1) } := by
  have held := (Regrouped.refl s).setG { s.g with wait := .publish (phaseScope d) (phaseStorage d) (i.getLsbD 1) }
  refine ⟨_, (exec_phase_eq s d i).trans (if_pos ((phaseWaits_iff s d i).2 waits)), ?_, rfl, held.g⟩
  exact groupOnly_setG s _ { s.iss with hold := true }

/-- The core's snapshot after an instruction that may refresh it. -/
def Refreshed (s t : State) (st : BitVec 5) (r : Bool) : Prop := (t.coreOf s.g.ckey).snap =
  if r then (s.coreOf s.g.ckey).snap.filter (fun x => !coversSpace st x.space) else (s.coreOf s.g.ckey).snap

/-- A PHASE that does not wait. -/
theorem exec_phase_completes {d : BitVec 8} {i : BitVec 2} (done : ¬ phaseWaits s d i) :
    let shows := i.getLsbD 0 = true ∧ 2 ≤ phaseScope d ∧ (phaseStorage d).getLsbD 1 = true
    ∃ t, exec (.phase d i) s = .next t ∧ t.iss = s.iss ∧ (∀ k, k ≠ s.cur → t.group k = s.group k) ∧
      t.g = { s.g with busy := if i.getLsbD 1 then s.g.busy + 32 else s.g.busy } ∧ Refreshed s t (phaseStorage d) (i.getLsbD 1) ∧
      (shows → t.veils = s.veils.filter (fun v => !(v.gkey == s.cur && v.team == s.g.team))) ∧ (¬ shows → t.veils = s.veils) ∧
      (i.getLsbD 0 = false ∨ ¬ (phaseScope d = 5 ∧ (phaseStorage d).getLsbD 4 = true) → t.mem = s.mem) := by
  intro shows
  have ran : exec (.phase d i) s = .next (if i.getLsbD 1 then (phasePublished s d i).refreshFor (phasePublished s d i).cur (phaseStorage d) else phasePublished s d i) :=
    (exec_phase_eq s d i).trans (if_neg (mt (phaseWaits_iff s d i).1 done))
  obtain ⟨groups, cores, iss, cur, mem, shown, hidden⟩ := phasePublished_leaves s d i
  rw [cur] at ran
  generalize phasePublished s d i = u at ran groups cores iss cur mem shown hidden
  have group := State.group_of_groups groups
  have core := State.coreOf_of_cores cores
  unfold Refreshed
  cases refreshes : i.getLsbD 1
  · rw [refreshes] at ran
    refine ⟨u, ran, iss, fun k _ => group k, ?_, congrArg Core.snap (core _), shown, hidden, mem⟩
    rw [State.g, cur]
    exact group s.cur
  · rw [refreshes] at ran
    obtain ⟨mine, others, snap, veils, mem'⟩ := u.refreshFor_leaves s.cur (phaseStorage d)
    rw [group, core] at snap
    rw [group] at mine
    refine ⟨u.refreshFor s.cur (phaseStorage d), ran, iss, fun k other => (others k other).trans (group k), ?_, snap, fun h => veils.trans (shown h), fun h => veils.trans (hidden h),
      fun h => mem'.trans (mem h)⟩
    have cur' : (u.refreshFor s.cur (phaseStorage d)).cur = s.cur := cur
    rw [State.g, cur']
    exact mine

end

end Sys2Proof.Machine
end

section
/-! SUPPORT. FENCE as an instruction (R175). -/

namespace Sys2Proof.Machine

open Sys2Proof

section
variable (s : State) (d a b : BitVec 8)

/-- The requests of the acting group that a fence's storage set covers, not yet performed. -/
def fenceReqs : List Req :=
  s.reqs.filter (fun r => r.gkey == s.cur && r.team == s.g.team && r.pending && !r.isLook && r.parts.any (fun p => coversSpace (phaseStorage d) p.space))

/-- Its loads that the set covers. -/
def fenceLoads : List Load :=
  s.loads.filter (fun l => l.gkey == s.cur && l.team == s.g.team
    && l.parts.any (fun p => coversSpace (phaseStorage d) p.space || (p.space == 0 && (phaseStorage d).getLsbD 0)))

/-- An acceptance of an alias store of the acting group. -/
def fenceStored (x : Activity) : Option Nat :=
  match x with
  | .stored u k t => if k = s.cur && t == s.g.team then some u else none
  | _ => none

/-- Its alias stores. -/
def fenceAliases : List Nat :=
  (s.aliases.filter (fun x => x.gkey == s.cur && x.team == s.g.team)).map AliasStore.uid ++ s.sures.filterMap (fun x => fenceStored s x.act)

/-- Its operations whose paths the fence names and whose ranges the set covers. -/
def fenceOps : List OpEntry :=
  (s.team.ops.map Prod.snd).filter (fun e => e.pending && e.gkey == s.cur && a.getLsbD (classPath e.handle)
    && s.commandTouches e.handle (phaseStorage d))

/-- The point that a FENCE records. -/
def fencePoint : FencePoint where
  scope := phaseScope d
  storage := phaseStorage d
  later := b.setWidth 7
  awaited := false
  reqs := (if a.getLsbD 0 && decide (2 ≤ phaseScope d) then (fenceReqs s d).map Req.uid else [])
    ++ (if a.getLsbD 4 && (phaseStorage d).getLsbD 3 && decide (2 ≤ phaseScope d) && State.aliasWaits (phaseScope d) then fenceAliases s else [])
  loads := if a.getLsbD 0 then (fenceLoads s d).map Load.uid else []
  ops := (fenceOps s d a).map OpEntry.handle

end

/-- The end of a FENCE with nothing to wait for. -/
def fenceDone (s : State) (d b : BitVec 8) : State :=
  if b.getLsbD 0 then (s.stationEnd s.cur (phaseScope d) (phaseStorage d)).refresh s.g.ckey (phaseStorage d)
  else s.stationEnd s.cur (phaseScope d) (phaseStorage d)

section
variable {s : State} {d a b : BitVec 8}

/-- FENCE by the points that stand. -/
theorem exec_fence_eq (s : State) (d a b : BitVec 8) : exec (.fence d a b) s = match s.g.fences with
    | p :: r =>
      if p.awaited then .next s.holdIssue
      else if 4 ≤ s.g.fences.length then .next ((s.setG { s.g with fences := { p with awaited := true } :: r }).holdIssue)
      else if s.pointDone s.g (fencePoint s d a b) then .next (fenceDone s d b)
      else .next (s.setG { s.g with fences := s.g.fences ++ [fencePoint s d a b] })
    | [] =>
      if s.pointDone s.g (fencePoint s d a b) then .next (fenceDone s d b)
      else .next (s.setG { s.g with fences := [fencePoint s d a b] }) := rfl

/-- A fifth point waits at issue for the oldest. -/
theorem exec_fence_waits {f : FencePoint} {rest : List FencePoint} (points : s.g.fences = f :: rest) :
    (f.awaited = true → exec (.fence d a b) s = .next s.holdIssue) ∧
    (f.awaited = false → 4 ≤ s.g.fences.length →
      exec (.fence d a b) s = .next ((s.setG { s.g with fences := { f with awaited := true } :: rest }).holdIssue)) := by
  have ran := exec_fence_eq s d a b
  rw [points] at ran ⊢
  dsimp only at ran
  refine ⟨fun awaited => ?_, fun idle full => ?_⟩
  · rw [ran, if_pos awaited]
  · rw [ran, if_neg (Bool.eq_false_iff.1 idle), if_pos full]

/-- With a point free the FENCE completes, or records its own. -/
theorem exec_fence_free (few : s.g.fences.length < 4) (head : ∀ f ∈ s.g.fences.head?, f.awaited = false) : exec (.fence d a b) s =
    if s.pointDone s.g (fencePoint s d a b) then .next (fenceDone s d b)
    else .next (s.setG { s.g with fences := s.g.fences ++ [fencePoint s d a b] }) := by
  have ran := exec_fence_eq s d a b
  cases points : s.g.fences with
  | nil =>
    rw [points] at ran
    exact ran
  | cons p r =>
    have idle : p.awaited = false := head p (by rw [points]; rfl)
    rw [points] at ran few
    dsimp only at ran
    rwa [if_neg (Bool.eq_false_iff.1 idle), if_neg (not_le.2 few)] at ran

/-- Nothing of the group is outstanding. -/
theorem fencePoint_done (reqs : ∀ r ∈ s.reqs, r.gkey ≠ s.cur) (loads : ∀ l ∈ s.loads, l.gkey ≠ s.cur) (aliases : ∀ x ∈ s.aliases, x.gkey ≠ s.cur)
    (sures : ∀ x ∈ s.sures, ∀ u m, x.act ≠ .stored u s.cur m) (ops : ∀ e ∈ s.team.ops, e.2.gkey = s.cur → e.2.pending = false) :
    s.pointDone s.g (fencePoint s d a b) = true := by
  have noReqs : fenceReqs s d = [] := List.filter_eq_nil_iff.2 fun r mem => by simp [reqs r mem]
  have noLoads : fenceLoads s d = [] := List.filter_eq_nil_iff.2 fun l mem => by simp [loads l mem]
  have noStores : s.sures.filterMap (fun x => fenceStored s x.act) = [] := by
    rw [List.filterMap_eq_nil_iff]
    intro x mem
    have other := sures x mem
    unfold fenceStored
    split
    · rename_i u k t act
      exact if_neg fun mine => other u t (by rw [act, (by simpa using mine : k = s.cur ∧ t = s.g.team).1])
    · rfl
  have noAliases : fenceAliases s = [] := by
    have none : s.aliases.filter (fun x => x.gkey == s.cur && x.team == s.g.team) = [] := List.filter_eq_nil_iff.2 fun x mem => by simp [aliases x mem]
    rw [fenceAliases, none, noStores]
    rfl
  have noOps : fenceOps s d a = [] := by
    refine List.filter_eq_nil_iff.2 fun e mem => ?_
    obtain ⟨p, entry, rfl⟩ := List.mem_map.1 mem
    by_cases mine : p.2.gkey = s.cur
    · simp [ops p entry mine]
    · simp [mine]
  refine s.pointDone_of (fun u mem => ?_) (fun u mem => ?_) (fun h mem => ?_)
  · rw [fencePoint, noReqs, noAliases] at mem
    simp at mem
  · rw [fencePoint, noLoads] at mem
    simp at mem
  · rw [fencePoint, noOps] at mem
    exact nomatch mem

/-- A request of the group that the fence covers stands in its point. -/
theorem fencePoint_request {r : Req} (mem : r ∈ s.reqs) (mine : r.gkey = s.cur) (team : r.team = s.g.team) (pending : r.pending = true)
    (look : r.isLook = false) (covered : ∃ x ∈ r.parts, coversSpace (phaseStorage d) x.space = true) (path : a.getLsbD 0 = true) (wide : 2 ≤ phaseScope d) :
    r.uid ∈ (fencePoint s d a b).reqs ∧ s.pointDone s.g (fencePoint s d a b) = false := by
  have covers : r ∈ fenceReqs s d := by
    refine List.mem_filter.2 ⟨mem, ?_⟩
    rw [mine, team, pending, look, List.any_eq_true.2 covered]
    simp
  have stands : r.uid ∈ (fencePoint s d a b).reqs := by
    refine List.mem_append_left _ ?_
    rw [path, decide_eq_true wide]
    exact List.mem_map_of_mem covers
  refine ⟨stands, ?_⟩
  have left : s.reqs.any (fun q => q.uid == r.uid && q.pending) = true := List.any_eq_true.2 ⟨r, mem, by simp [pending]⟩
  have notAll : (fencePoint s d a b).reqs.all (fun u => !s.reqs.any (fun r => r.uid == u && r.pending) && !s.aliases.any (fun a => a.uid == u) &&
      !s.storedAck u) = false := by
    rw [List.all_eq_false]
    exact ⟨r.uid, stands, by rw [left]; exact Bool.false_ne_true⟩
  rw [State.pointDone, notAll, Bool.false_and, Bool.false_and]

/-- What a FENCE with nothing to wait for leaves. -/
theorem fenceDone_leaves (s : State) (d b : BitVec 8) : let t := fenceDone s d b
    t.iss = s.iss ∧ t.groups = s.groups ∧ t.veils = s.veils ∧ Refreshed s t (phaseStorage d) (b.getLsbD 0) ∧
      (¬ (phaseScope d = 5 ∧ (phaseStorage d).getLsbD 4 = true) → t.mem = s.mem) := by
  obtain ⟨groups, cores, veils, mem⟩ := s.stationEnd_leaves s.cur (phaseScope d) (phaseStorage d)
  obtain ⟨iss, -⟩ := s.stationEnd_cur s.cur (phaseScope d) (phaseStorage d)
  unfold fenceDone Refreshed
  generalize s.stationEnd s.cur (phaseScope d) (phaseStorage d) = u at groups cores veils mem iss
  cases b.getLsbD 0
  · exact ⟨iss, groups, veils, congrArg Core.snap (State.coreOf_of_cores cores _), mem⟩
  · refine ⟨iss, groups, veils, (State.refresh_snap u s.g.ckey (phaseStorage d)).trans ?_, mem⟩
    rw [State.coreOf_of_cores cores]
    rfl

end

end Sys2Proof.Machine
end

section
/-! SUPPORT. WAITC as an instruction (R190, R191). -/

namespace Sys2Proof.Machine

open Sys2Proof

/-- What an instruction leaves that changes the acting group's record and none of memory, the issue and the other groups. -/
structure Acted (s : State) (g : Group) (t : State) : Prop where
  mem : t.mem = s.mem
  iss : t.iss = s.iss
  cur : t.cur = s.cur
  others : ∀ k, k ≠ s.cur → t.group k = s.group k
  g : t.g = g

namespace Acted

variable {s t u : State} {g : Group}

theorem of_translates (h : Translates s t) : Acted s s.g t := ⟨h.mem, h.iss, h.cur, fun _ _ => State.group_of_groups h.groups _, h.g⟩

theorem modG (h : Acted s g t) (f : Group → Group) : Acted s (f g) (t.modG f) where
  mem := h.mem
  iss := h.iss
  cur := h.cur
  others k other := (t.group_setG_ne _ k (by rwa [h.cur])).trans (h.others k other)
  g := by rw [State.g_modG, h.g]

/-- The same of a state with the same groups. -/
theorem of_eq (h : Acted s g t) (mem : u.mem = t.mem) (iss : u.iss = t.iss) (cur : u.cur = t.cur) (groups : u.groups = t.groups) : Acted s g u where
  mem := mem.trans h.mem
  iss := iss.trans h.iss
  cur := cur.trans h.cur
  others k other := (State.group_of_groups groups k).trans (h.others k other)
  g := by
    rw [State.g, cur, State.group_of_groups groups]
    exact h.g

end Acted

/-- The read of a WAITC's word leaves the groups and memory, and stands among the requests (R190). -/
theorem sendWord_leaves (s : State) (k team fn : Nat) (p : LoadPart) : let t := s.sendWord k team fn p
    t.mem = s.mem ∧ t.iss = s.iss ∧ t.cur = s.cur ∧ t.groups = s.groups ∧
      ∃ r ∈ t.reqs, r.kind = .word ∧ r.gkey = k ∧ r.home = homePound p.loc ∧ r.parts.map (fun y => y.loc) = [p.loc] := by
  by_cases far : homePound p.loc = k / 16 / 512
  · have landed : s.sendWord k team fn p = (s.looking .word (k / 16) k team fn 8 (homePound p.loc) [State.lookPart p p.loc]).land (.request s.nextUid) :=
      if_pos far.symm
    have mem : s.lookReq .word (k / 16) k team fn 8 (homePound p.loc) [State.lookPart p p.loc] ∈
        (s.looking .word (k / 16) k team fn 8 (homePound p.loc) [State.lookPart p p.loc]).reqs := List.mem_append_right _ (List.mem_singleton_self _)
    dsimp only
    rw [landed]
    refine ⟨rfl, rfl, rfl, rfl, _, List.mem_map_of_mem mem, ?_⟩
    have uid : (s.lookReq .word (k / 16) k team fn 8 (homePound p.loc) [State.lookPart p p.loc]).uid = s.nextUid := rfl
    rw [if_pos uid]
    exact ⟨rfl, rfl, rfl, rfl⟩
  · have sent := s.sendLook_sends .word k team fn 8 [State.lookPart p p.loc] far
    refine ⟨sent.mem, (congrArg State.iss sent.rest :), (congrArg State.cur sent.rest :), sent.groups,
      s.lookReq .word (k / 16) k team fn 8 (homePound p.loc) [State.lookPart p p.loc], ?_, rfl, rfl, rfl, rfl⟩
    rw [State.sendWord, State.Sends.reqs sent]
    exact List.mem_append_right _ (List.mem_singleton_self _)

/-- No service of an address has failed: what its translation gives stands. -/
theorem State.orFailed_new (s : State) {va : Nat} {x : Xl} (new : s.g.failedVa ≠ some va) (here : (∀ f p, x ≠ .absent f p) ∨ s.iss.made = false) :
    s.orFailed va x = x := by
  unfold State.orFailed
  dsimp only
  rw [if_neg new]
  split
  · rename_i f p
    rcases here with other | first
    · exact absurd rfl (other f p)
    · rw [first]
      rfl
  · rfl

theorem watch_leaves (s : State) (loc k : Nat) :
    (s.watch loc k).mem = s.mem ∧ (s.watch loc k).iss = s.iss ∧ (s.watch loc k).cur = s.cur ∧ (s.watch loc k).groups = s.groups := by
  unfold State.watch
  dsimp only
  split
  · exact ⟨rfl, rfl, rfl, rfl⟩
  · exact ⟨rfl, rfl, rfl, rfl⟩

/-- A group's record with no address of a failed service. -/
def Group.withoutFailed (g : Group) : Group := { g with failedVa := none }
/-- A group that waits for a word. -/
def Group.awaits (g : Group) (loc slot : Nat) (thr : DWord) : Group := { g with wait := .waitc loc slot thr }

/-- A WAITC of a word that translates, after its checks. -/
def waitcOk (s : State) (g : Group) (thr : DWord) (va sp loc slot : Nat) (expo : Option Nat) : Res :=
  if homePound loc ≠ g.die then
    .next ((s.modG (fun g => g.awaits loc slot thr)).sendWord s.cur g.team g.fn { lane := 0, space := sp, loc, value := none, expo, slot, va })
  else if (s.recallLine g.ckey loc).natSlot loc slot 8 < thr.toNat then
    .next (((s.recallLine g.ckey loc).modG (fun g => g.awaits loc slot thr)).watch loc (s.recallLine g.ckey loc).cur)
  else .next (s.recallLine g.ckey loc)

section
variable {s s1 : State} {p q : Operand} {x : Xl}

/-- WAITC by what its address gives. -/
theorem exec_waitc_eq (new : s.g.failedVa ≠ some (s.rdPair p).toNat)
    (made : s.translate s.g.die s.g.fn (some s.g.ckey) (s.rdPair p).toNat 8 .waitc = (s1, x)) :
    (∀ sp loc slot e, x = .ok sp loc slot e → exec (.waitc p q) s =
      waitcOk ((s1.modG Group.withoutFailed).modG Group.dropLatches) s.g (s.rdPair q) (s.rdPair p).toNat sp loc slot e) ∧
    (∀ k, x = .fault k → exec (.waitc p q) s = .next ((s1.modG Group.withoutFailed).scalarFault k (s.rdPair p).toNat)) ∧
    (∀ f pg, x = .absent f pg → s.iss.made = false → exec (.waitc p q) s =
      .next ((((s1.requestPage f pg .waitc).modG (fun g => { g with wait := .page f pg (s.rdPair p).toNat })).holdIssue))) := by
  have translates : Translates s s1 := by
    have h := s.translate_translates s.g.die s.g.fn (some s.g.ckey) (s.rdPair p).toNat 8 .waitc
    rw [made] at h
    exact h
  have same : s1.g = s.g := translates.g
  have new1 : s1.g.failedVa ≠ some (s.rdPair p).toNat := by rwa [same]
  have ran : exec (.waitc p q) s = execWaitc p q s := rfl
  unfold execWaitc at ran
  dsimp only at ran
  rw [made] at ran
  dsimp only at ran
  refine ⟨fun sp loc slot e ok => ?_, fun k fault => ?_, fun f pg absent first => ?_⟩
  · subst ok
    rw [s1.orFailed_new new1 (.inl fun _ _ => Xl.noConfusion)] at ran
    exact ran
  · subst fault
    rw [s1.orFailed_new new1 (.inl fun _ _ => Xl.noConfusion)] at ran
    exact ran
  · subst absent
    rw [s1.orFailed_new new1 (.inr (by rwa [translates.iss]))] at ran
    exact ran

/-- A WAITC of a word that translates: it is compared at its own die, or asked for at another pound. -/
theorem waitcOk_leaves {t : State} {g : Group} (acted : Acted s g t) {thr : DWord} {va sp loc slot : Nat} {expo : Option Nat} :
    ∃ u, waitcOk t s.g thr va sp loc slot expo = .next u ∧
      Acted s (if homePound loc ≠ s.g.die ∨ t.natSlot loc slot 8 < thr.toNat then g.awaits loc slot thr else g) u ∧
      (homePound loc ≠ s.g.die → ∃ r ∈ u.reqs, r.kind = .word ∧ r.gkey = s.cur ∧ r.home = homePound loc ∧ r.parts.map (fun y => y.loc) = [loc]) := by
  unfold waitcOk
  by_cases far : homePound loc = s.g.die
  · have recalled : Acted s g (t.recallLine s.g.ckey loc) := acted.of_eq rfl rfl rfl rfl
    have read : (t.recallLine s.g.ckey loc).natSlot loc slot 8 = t.natSlot loc slot 8 := rfl
    rw [if_neg (not_not.2 far), read]
    by_cases below : t.natSlot loc slot 8 < thr.toNat
    · rw [if_pos below, if_pos (.inr below)]
      obtain ⟨mem, iss, cur, groups⟩ := watch_leaves ((t.recallLine s.g.ckey loc).modG (fun g => g.awaits loc slot thr)) loc
        (t.recallLine s.g.ckey loc).cur
      exact ⟨_, rfl, (recalled.modG (fun g => g.awaits loc slot thr)).of_eq mem iss cur groups, fun away => absurd far away⟩
    · rw [if_neg below, if_neg (not_or.2 ⟨not_not.2 far, below⟩)]
      exact ⟨_, rfl, recalled, fun away => absurd far away⟩
  · obtain ⟨mem, iss, cur, groups, asked⟩ := sendWord_leaves (t.modG (fun g => g.awaits loc slot thr)) t.cur s.g.team s.g.fn
      { lane := 0, space := sp, loc, value := none, expo, slot, va }
    rw [if_pos far, if_pos (.inl far)]
    refine ⟨_, rfl, (acted.modG (fun g => g.awaits loc slot thr)).of_eq mem iss cur groups, fun _ => ?_⟩
    rw [acted.cur] at asked ⊢
    exact asked

/-- A scalar access that faults. -/
theorem scalarFault_leaves {t : State} {g : Group} (acted : Acted s g t) (recs : g.recs = s.g.recs) (faults : g.faults = s.g.faults)
    (plane : g.plane = s.g.plane) (k va : Nat) :
    FaultsTaken s (t.scalarFault k va) true [0] (fun _ => k) (fun _ => va) ∧
      Acted s { g with recs := (t.scalarFault k va).g.recs, faults := (t.scalarFault k va).g.faults } (t.scalarFault k va) := by
  have faulted := acted.modG (fun g => g.accessFault { t.iss with seq := t.nextUid } true 0 k va)
  have mine : (t.scalarFault k va).g = g.accessFault { t.iss with seq := t.nextUid } true 0 k va := faulted.g
  refine ⟨faultsTaken_faultAll (i := { t.iss with seq := t.nextUid }) (g := g) ?_ ?_ ?_ recs faults plane ?_ ?_, ?_⟩
  · rw [acted.iss]
  · rw [acted.iss]
  · rw [acted.iss]
  · rw [mine]
    rfl
  · rw [mine]
    rfl
  · refine ⟨faulted.mem, faulted.iss, faulted.cur, faulted.others, ?_⟩
    rw [mine, g.accessFault_eq]

end

end Sys2Proof.Machine
end

section
/-! The obligation of PHASE, FENCE and WAITC: O50. -/

namespace Sys2Proof.Machine

open Sys2Proof

/-- WAITC by what its address gives (R190, R191). -/
theorem exec_waitc {s s1 : State} {p q : Operand} {x : Xl} (new : s.g.failedVa ≠ some (s.rdPair p).toNat)
    (made : s.translate s.g.die s.g.fn (some s.g.ckey) (s.rdPair p).toNat 8 .waitc = (s1, x)) :
    let va := (s.rdPair p).toNat
    (∀ sp loc slot e, x = .ok sp loc slot e →
      ∃ t, exec (.waitc p q) s = .next t ∧ t.mem = s.mem ∧ t.iss = s.iss ∧ (∀ k, k ≠ s.cur → t.group k = s.group k) ∧
        t.g = { s.g with latValid := 0, failedVa := none,
                         wait := if homePound loc ≠ s.g.die ∨ s1.natSlot loc slot 8 < (s.rdPair q).toNat then .waitc loc slot (s.rdPair q)
                                 else s.g.wait } ∧
        (homePound loc ≠ s.g.die → ∃ r ∈ t.reqs, r.kind = .word ∧ r.gkey = s.cur ∧ r.home = homePound loc ∧
          r.parts.map (fun y => y.loc) = [loc])) ∧
    (∀ k, x = .fault k → ∃ t, exec (.waitc p q) s = .next t ∧ t.mem = s.mem ∧ t.iss = s.iss ∧
      (∀ j, j ≠ s.cur → t.group j = s.group j) ∧ FaultsTaken s t true [0] (fun _ => k) (fun _ => va) ∧
      t.g = { s.g with failedVa := none, recs := t.g.recs, faults := t.g.faults }) ∧
    (∀ f pg, x = .absent f pg → s.iss.made = false → ∃ t, exec (.waitc p q) s = .next t ∧ t.iss = { s.iss with hold := true } ∧
      t.g.wait = .page f pg va ∧ t.requested f pg = true) := by
  intro va
  have translates : Translates s s1 := by
    have h := s.translate_translates s.g.die s.g.fn (some s.g.ckey) (s.rdPair p).toNat 8 .waitc
    rw [made] at h
    exact h
  have acted : Acted s s.g.withoutFailed (s1.modG Group.withoutFailed) := (Acted.of_translates translates).modG _
  obtain ⟨ok, fault, absent⟩ := exec_waitc_eq (q := q) new made
  refine ⟨fun sp loc slot e h => ?_, fun k h => ?_, fun f pg h first => ?_⟩
  · obtain ⟨u, ran, left, asked⟩ := waitcOk_leaves (acted.modG Group.dropLatches) (thr := s.rdPair q) (va := va) (sp := sp) (loc := loc) (slot := slot)
      (expo := e)
    refine ⟨u, (ok sp loc slot e h).trans ran, left.mem, left.iss, left.others, ?_, asked⟩
    by_cases waits : homePound loc ≠ s.g.die ∨ s1.natSlot loc slot 8 < (s.rdPair q).toNat
    · refine left.g.trans ((if_pos waits).trans ?_)
      rw [if_pos waits]
      rfl
    · refine left.g.trans ((if_neg waits).trans ?_)
      rw [if_neg waits]
      rfl
  · obtain ⟨faulted, left⟩ := scalarFault_leaves acted rfl rfl rfl k va
    exact ⟨_, fault k h, left.mem, left.iss, left.others, faulted, left.g⟩
  · obtain ⟨work, requested⟩ := s1.requestPage_partWork f pg .waitc
    refine ⟨_, absent f pg h first, ?_, ?_, requested⟩
    · change { (s1.requestPage f pg .waitc).iss with hold := true } = _
      rw [work.iss, translates.iss]
    · exact congrArg Group.wait (State.g_modG (s1.requestPage f pg .waitc) (fun g => { g with wait := .page f pg va }))

/-- Settles O50: PHASE and FENCE by what their publishes and points cover, WAITC by what its address gives. -/
theorem phaseFenceWaitc : Obligations.PhaseFenceWaitc := by
  intro s d a b i p q scope st waits system shows refreshed
  refine ⟨exec_phase_waits, exec_phase_completes, fun f rest points => exec_fence_waits points, fun few head => ⟨?_, ?_⟩,
    fun s1 x new made => exec_waitc new made⟩
  · intro reqs loads aliases sures ops
    have ran := exec_fence_free (d := d) (a := a) (b := b) few head
    rw [if_pos (fencePoint_done reqs loads aliases sures ops)] at ran
    exact ⟨_, ran, fenceDone_leaves s d b⟩
  · intro r mem mine team pending look covered path wide
    have ran := exec_fence_free (d := d) (a := a) (b := b) few head
    obtain ⟨stands, left⟩ := fencePoint_request (b := b) mem mine team pending look covered path wide
    rw [left] at ran
    have set := (Regrouped.refl s).setG { s.g with fences := s.g.fences ++ [fencePoint s d a b] }
    exact ⟨_, fencePoint s d a b, ran, set.groupOnly, set.iss, set.g, rfl, rfl, rfl, stands⟩

end Sys2Proof.Machine
end

section
/-! SUPPORT. The trap after the issues of an offset some of whose lanes have faulted (R121). -/

namespace Sys2Proof.Machine

open Sys2Proof

/-- The words of X0 to X7 for faults that an offset has gathered (R61, R121). -/
def laneTrapWords (f : Faults) (here : Off) : List Word :=
  [BitVec.ofNat 32 (0x19 * 2 ^ 24 + f.word.toNat / 2 ^ 25), BitVec.ofNat 32 (f.word.toNat % 2 ^ 25), here.setWidth 32,
    f.lanes.extractLsb' 0 32, f.lanes.extractLsb' 32 32, f.addr.extractLsb' 0 32, f.addr.extractLsb' 32 32,
    BitVec.ofNat 32 (f.planes.toNat * 2 ^ 8 + f.low.toNat)]

theorem trapX_lane (f : Faults) (here : Off) :
    State.trapX 0x19 0 (f.word.toNat / 2 ^ 25) f.word.toNat here f.lanes f.addr.toNat 0 f.planes f.low.toNat = laneTrapWords f here := by
  have low : BitVec.ofNat 32 f.addr.toNat = f.addr.extractLsb' 0 32 := by rw [← low_eq]; rfl
  have high : BitVec.ofNat 32 (f.addr.toNat / 2 ^ 32) = f.addr.extractLsb' 32 32 := by
    apply BitVec.eq_of_toNat_eq
    simp [Nat.shiftRight_eq_div_pow]
  unfold State.trapX laneTrapWords
  rw [low_eq, low, high]
  simp

namespace State

theorem takeLaneTrap_some {u : State} {f : Faults} (faults : u.g.faults = some f) :
    u.takeLaneTrap = (u.modG (fun g => { g with faults := none })).takeTrap (laneTrapWords f u.g.offset) := by
  unfold takeLaneTrap
  rw [faults, ← trapX_lane]

section
variable {s : State}

/-- The shift of an offset of a forward run with no lane parked changes the latches alone. -/
theorem shiftedOffset_regrouped (parked : s.g.parked = 0) (replays : s.g.replays = []) : ∃ cnt lat latValid,
    Regrouped s { s.g with cnt := cnt, lat := lat, latValid := latValid } s.shiftedOffset := by
  have counted := (Regrouped.refl s).modG (fun g => { g with cnt := g.cnt.set 1 (g.cnt.get 1 0 + BitVec.ofNat 64 1) })
  change Regrouped s _ (s.countG 1 1) at counted
  unfold shiftedOffset
  split
  · have shifted := counted.setG { (s.countG 1 1).g with
      lat := (lanesOf (s.countG 1 1).g.all).foldl (shiftLane (s.countG 1 1).g s.iss.l0) (s.countG 1 1).g.lat, latValid := (s.countG 1 1).g.latValid <<< 1 ||| 1 }
    have latches : (s.countG 1 1).shiftLatches = (s.countG 1 1).setG { (s.countG 1 1).g with
        lat := (lanesOf (s.countG 1 1).g.all).foldl (shiftLane (s.countG 1 1).g s.iss.l0) (s.countG 1 1).g.lat, latValid := (s.countG 1 1).g.latValid <<< 1 ||| 1 } := by
      unfold shiftLatches
      dsimp only
      rw [counted.g, replays]
      rfl
    rw [← latches] at shifted
    have none : (s.countG 1 1).shiftLatches.g.parked = 0 := by
      rw [shifted.g, counted.g]
      exact parked
    have stays : (s.countG 1 1).shiftOffset = (s.countG 1 1).shiftLatches := if_pos none
    rw [stays]
    rw [counted.g] at shifted
    exact ⟨_, _, _, shifted⟩
  · exact ⟨_, _, _, counted⟩

/-- An offset whose lanes have faulted ends in the trap of kind 0x19 at it. -/
theorem finishOffset_traps {f : Faults} (live : s.g.live = true) (faults : s.g.faults = some f) (parked : s.g.parked = 0)
    (replays : s.g.replays = []) : ∃ u cnt lat latValid, s.finishOffset = u.takeTrap (laneTrapWords f s.iss.here) ∧
      Regrouped s { s.g with offset := s.iss.here, faults := none, cnt := cnt, lat := lat, latValid := latValid } u := by
  obtain ⟨cnt, lat, latValid, shifted⟩ := shiftedOffset_regrouped parked replays
  have moved : ∃ o, Regrouped s { s.g with offset := o, cnt := cnt, lat := lat, latValid := latValid }
      (if s.shiftedOffset.iss.moved then s.shiftedOffset else s.shiftedOffset.modG (fun g => g.advance 1)) := by
    split
    · exact ⟨_, shifted⟩
    · exact ⟨_, shifted.modG (fun g => g.advance 1)⟩
  obtain ⟨o, moved⟩ := moved
  have traps : s.finishOffset = (let u := if s.shiftedOffset.iss.moved then s.shiftedOffset else s.shiftedOffset.modG (fun g => g.advance 1)
      if !u.g.live || u.g.faults.isNone || !u.g.replays.isEmpty then u
      else if u.g.parked != 0 then u.startRejoin
      else (u.modG (fun g => { g with offset := u.iss.here })).takeLaneTrap) := rfl
  dsimp only at traps
  generalize (if s.shiftedOffset.iss.moved then s.shiftedOffset else s.shiftedOffset.modG (fun g => g.advance 1)) = u at moved traps
  have set := moved.modG (fun g => { g with offset := u.iss.here })
  have faulted : (u.modG (fun g => { g with offset := u.iss.here })).g.faults = some f := by
    rw [set.g]
    exact faults
  rw [moved.g, if_neg (by simp [live, faults, replays]), if_neg (by simp [parked]), takeLaneTrap_some faulted, set.g, moved.iss] at traps
  have cleared := set.modG (fun g => { g with faults := none })
  rw [moved.iss] at cleared
  exact ⟨_, cnt, lat, latValid, traps, cleared⟩

end

end State

/-- A word of opcode 0x0E that decodes has zero fields D and A. -/
theorem trap_fields {d a k : BitVec 8} (h : decodeCore (formA 0x0E false d a k) = .ok (.trap k)) : d = 0 ∧ a = 0 := by
  obtain ⟨-, -, zeros, noW⟩ := decodeCore_eq_ok.1 h
  have fixed := checks_formA.1 ⟨zeros, noW⟩
  exact ⟨fixed.dField, fixed.aField⟩

end Sys2Proof.Machine
end

section
/-! SUPPORT. Records put into a fault block, and a trap that enters its handler (R123, R127). -/

namespace Sys2Proof.Machine

open Sys2Proof

/-- `t` is `s` after records have been put into a fault block: work of the part's own, and requests on their way that the records cover. -/
structure Recorded (s t : State) : Prop where
  rest : { t with mem := s.mem, groups := s.groups, cores := s.cores, fns := s.fns, dies := s.dies, basin := s.basin, tags := s.tags
                  veils := s.veils, incrs := s.incrs, agenda := s.agenda, nextUid := s.nextUid, sures := s.sures, reqs := s.reqs } = s
  groups : ∀ k, Satisfied (s.group k) (t.group k)

namespace Recorded

variable {s t u : State}

theorem refl (s : State) : Recorded s s := ⟨rfl, fun _ => .inl rfl⟩

theorem trans (h : Recorded s t) (k : Recorded t u) : Recorded s u where
  rest := (congrArg (fun x : State => { x with mem := s.mem, groups := s.groups, cores := s.cores, fns := s.fns, dies := s.dies, basin := s.basin, tags := s.tags, veils := s.veils, incrs := s.incrs, agenda := s.agenda, nextUid := s.nextUid, sures := s.sures, reqs := s.reqs }) k.rest).trans h.rest
  groups j := (h.groups j).trans (k.groups j)

theorem of_partWork (h : PartWork s t) : Recorded s t :=
  ⟨(congrArg (fun x : State => { x with reqs := s.reqs }) h.rest :), h.groups⟩

theorem covered (s : State) (c : Table Core) (q : List Req) (v : List Veil) : Recorded s { s with cores := c, reqs := q, veils := v } :=
  ⟨rfl, fun _ => .inl rfl⟩

theorem cur (h : Recorded s t) : t.cur = s.cur := (congrArg State.cur h.rest :)
theorem teams (h : Recorded s t) : t.teams = s.teams := (congrArg State.teams h.rest :)
theorem g (h : Recorded s t) : t.g = { s.g with wait := t.g.wait } := by
  rw [State.g, State.g, h.cur]
  exact (h.groups _).same

end Recorded

namespace State

variable (s : State)

theorem shownPiece_recorded (loc slot n : Nat) (b : List Byte) (expo : Option Nat) : Recorded s (s.shownPiece loc slot n b expo) :=
  (Recorded.of_partWork (storeBytes_partWork s loc slot b)).trans (.covered ..)

theorem putShown_recorded (l : List (Nat × Nat × Nat × Option Nat)) (bs : List Byte) : Recorded s (s.putShown l bs) := by
  induction l generalizing s bs with
  | nil => exact .refl s
  | cons p r ih =>
    obtain ⟨loc, slot, n, expo⟩ := p
    have woken := (pieceCounted_partWork (s.shownPiece loc slot n (bs.take n) expo) n expo).trans (wakeAt_partWork _ loc n)
    rw [putShown_cons]
    exact ((s.shownPiece_recorded loc slot n (bs.take n) expo).trans (.of_partWork woken)).trans (ih _ _)

theorem writeRecs_recorded (base : Nat) (rs : List (Nat × Nat × Nat)) : Recorded s (s.writeRecs base rs).1 := by
  induction rs generalizing s with
  | nil => exact .refl s
  | cons x r ih =>
    obtain ⟨o, n, v⟩ := x
    have places := PartWork.of_translates (s.vPlaces_translates s.g.die s.g.fn .store (pieces 2 ((base + o) % 2 ^ 64) n))
    unfold writeRecs
    split
    · have placed := Recorded.of_partWork (places.of_fst ‹_›)
      exact ((placed.trans (.of_partWork (partFlits_partWork ..))).trans (putShown_recorded ..)).trans (ih _)
    all_goals exact .of_partWork (places.of_fst ‹_›)

end State

/-! ### The stages of a trap -/

/-- The issue of a trap. -/
def State.trappedIssue (s : State) : Issue := { s.iss with moved := true, trapped := true }

/-- The group's record in its handler (R123). -/
def Group.entered (g : Group) (xs : List Word) (h : Off) : Group :=
  { g with frame := some ⟨g.offset, g.exec, g.nest, g.plane, g.joins⟩, x := (List.range 8).foldl (fun t i => t.set i (xs.getD i 0)) g.x
           latValid := 0, nest := [], joins := [], offset := h, faults := none, pendX := [], dying := false, recs := [], replays := []
           wait := .ready }

/-- The frame that a group record tells of: the group's in handler state, and what would be frozen now outside it (R128). -/
def toldFrame (g : Group) : Frame := g.frame.getD ⟨g.offset, g.exec, g.nest, g.plane, g.joins⟩

/-- The records of a trap that ends the team. -/
def lastRecs (g : Group) (xs : List Word) : List (Nat × Nat × Nat) :=
  g.recs ++ [(1024, 64, State.groupRecord xs (toldFrame g).exec (toldFrame g).offset (toldFrame g).joins.length)]

/-- A trap, its records to be written first. -/
theorem takeTrap_eq (s : State) (xs : List Word) : let last := s.g.frame.isSome || s.g.handler.isNone
    s.takeTrap xs = { (trapPending s xs last (if last then lastRecs s.g xs else s.g.recs)).finishTrap with iss := s.trappedIssue } := by
  have told : State.groupRecord xs (toldFrame s.g).exec (toldFrame s.g).offset (toldFrame s.g).joins.length = (match s.g.frame with
      | some f => State.groupRecord xs f.exec f.offset f.joins.length
      | none => State.groupRecord xs s.g.exec s.g.offset s.g.joins.length) := by
    unfold toldFrame
    cases s.g.frame <;> rfl
  unfold lastRecs
  rw [told]
  rfl

section
variable {s : State} {xs : List Word} {h : Off}

/-- A trap of a group that has a handler and is not in it. -/
theorem takeTrap_handled (handler : s.g.handler = some h) (frame : s.g.frame = none) :
    s.takeTrap xs = { (trapPending s xs false s.g.recs).finishTrap with iss := s.trappedIssue } := by
  have stays : (s.g.frame.isSome || s.g.handler.isNone) = false := by
    rw [handler, frame]
    rfl
  rw [takeTrap_eq, stays]
  rfl

theorem trapPending_g (last : Bool) (recs : List (Nat × Nat × Nat)) :
    (trapPending s xs last recs).g = { s.g with pendX := xs, dying := last, recs := recs, replays := [] } := s.g_setG _

theorem trapPending_faultBlock (last : Bool) (recs : List (Nat × Nat × Nat)) : (trapPending s xs last recs).faultBlock = s.faultBlock := by
  unfold State.faultBlock State.team
  rw [trapPending_g]
  rfl

/-- The end of a trap whose records are written. -/
def trapDone (s : State) (g : Group) : State :=
  if g.dying then s.killTeam g.team else match g.handler with
    | some h => s.enterHandler g.pendX h
    | none => s.killTeam g.team

theorem finishTrap_noRecs (none : s.g.recs = []) : s.finishTrap = trapDone s s.g := by
  unfold State.finishTrap
  dsimp only
  rw [if_pos (List.isEmpty_iff.2 none)]
  rfl

/-- Records that have been written are no longer to be written. -/
def recsDone (s : State) : State := s.modG (fun g => { g with recs := [], wait := .ready })

theorem unwritable_iff (g : Group) : (decide (g.faultArea = 0) || g.blockFailed) = true ↔ g.faultArea = 0 ∨ g.blockFailed = true := by
  rw [Bool.or_eq_true, decide_eq_true_eq]

theorem finishTrap_wrote {t : State} (some : s.g.recs ≠ []) (area : s.g.faultArea ≠ 0) (works : s.g.blockFailed = false)
    (wrote : s.writeRecs s.faultBlock s.g.recs = (t, .ok ())) : s.finishTrap = trapDone (recsDone t) s.g := by
  unfold State.finishTrap
  dsimp only
  rw [if_neg (mt List.isEmpty_iff.1 some), if_neg (mt (unwritable_iff s.g).1 (not_or.2 ⟨area, by rw [works]; exact Bool.false_ne_true⟩)), wrote]
  rfl

theorem finishTrap_unwritable (some : s.g.recs ≠ []) (fails : s.g.faultArea = 0 ∨ s.g.blockFailed = true) : s.finishTrap = s.unwritableBlock := by
  unfold State.finishTrap
  dsimp only
  rw [if_neg (mt List.isEmpty_iff.1 some), if_pos ((unwritable_iff s.g).2 fails)]

/-- A state whose acting group stands in the trap, but for its wait and its records, enters the handler. -/
theorem trapDone_enters {t s1 : State} {g g1 : Group} (dying : g.dying = false) (handler : g.handler = some h) (words : g.pendX = xs)
    (here : Regrouped t g1 s1) (same : g1 = { s.g with pendX := xs, dying := false, recs := g1.recs, replays := [], wait := g1.wait }) :
    Regrouped t (s.g.entered xs h) (trapDone s1 g) := by
  have enters : trapDone s1 g = s1.enterHandler xs h := by
    unfold trapDone
    rw [dying, handler, words]
    rfl
  have entered := here.setG (s1.g.entered xs h)
  have pending : s1.g.dying = false ∧ s1.g.replays = [] := by
    rw [here.g, same]
    exact ⟨rfl, rfl⟩
  have record : s1.g.entered xs h = s.g.entered xs h := by
    rw [here.g, same]
    rfl
  rw [enters]
  have goes : s1.enterHandler xs h = s1.setG (s1.g.entered xs h) := by
    unfold State.enterHandler Group.entered
    dsimp only
    rw [← pending.1, ← pending.2]
  rw [goes, ← record]
  exact entered

/-- The states in which the records of a trap that enters its handler are written (R127). -/
def recordsWritten (s : State) (xs : List Word) (s1 : State) : Prop :=
  s.g.recs = [] ∧ s1 = trapPending s xs false s.g.recs ∨
    s.g.recs ≠ [] ∧ s.g.faultArea ≠ 0 ∧ s.g.blockFailed = false ∧
      (trapPending s xs false s.g.recs).writeRecs s.faultBlock s.g.recs = (s1, .ok ())

/-- A trap whose records can be written enters the handler, and only the acting group differs from where they are written. -/
theorem takeTrap_enters {s1 : State} (handler : s.g.handler = some h) (frame : s.g.frame = none) (written : recordsWritten s xs s1) :
    ∃ u, Regrouped s1 (s.g.entered xs h) u ∧ s.takeTrap xs = { u with iss := s.trappedIssue } := by
  have pending := trapPending_g (s := s) (xs := xs) false s.g.recs
  have recs : (trapPending s xs false s.g.recs).g.recs = s.g.recs := by rw [pending]
  have dying : (trapPending s xs false s.g.recs).g.dying = false := by rw [pending]
  have handled : (trapPending s xs false s.g.recs).g.handler = some h := by rwa [pending]
  have words : (trapPending s xs false s.g.recs).g.pendX = xs := by rw [pending]
  rw [takeTrap_handled handler frame]
  rcases written with ⟨none, rfl⟩ | ⟨some, area, works, wrote⟩
  · rw [finishTrap_noRecs (recs.trans none)]
    refine ⟨_, trapDone_enters dying handled words (.refl _) ?_, rfl⟩
    rw [pending]
  · have put := (trapPending s xs false s.g.recs).writeRecs_recorded s.faultBlock s.g.recs
    rw [wrote] at put
    rw [finishTrap_wrote (t := s1) (by rwa [recs]) (by rwa [pending]) (by rwa [pending]) (by rwa [recs, trapPending_faultBlock])]
    have cleared := (Regrouped.refl s1).modG (fun g => { g with recs := [], wait := .ready })
    refine ⟨_, trapDone_enters dying handled words cleared ?_, rfl⟩
    rw [put.g, pending]

/-- X0 to X7 in the handler. -/
theorem entered_x (g : Group) {i : Nat} (hi : i < 8) : (g.entered xs h).x.get i 0 = xs.getD i 0 := by
  refine (Table.get_foldl_set_list (List.range 8) (fun i => xs.getD i 0) g.x i 0).trans (if_pos (List.mem_range.2 hi))

end

end Sys2Proof.Machine
end

section
/-! SUPPORT. What is read of a place, and a record that its group has not published (R127, R163, R340). -/

namespace Sys2Proof.Machine

open Sys2Proof

/-- Every read of memory gives in `t` what it gives in `s`. -/
structure Shows (s t : State) : Prop where
  mem : t.mem = s.mem
  live : t.live = s.live
  partNo : t.partNo = s.partNo
  boot : t.basin.boot = s.basin.boot
  station0 : t.basin.station0 = s.basin.station0
  station1 : t.basin.station1 = s.basin.station1
  tags : t.tags = s.tags
  veils : t.veils = s.veils
  keys : ∀ d, (t.die d).keys = (s.die d).keys

namespace Shows

variable {s t u : State}

theorem refl (s : State) : Shows s s := ⟨rfl, rfl, rfl, rfl, rfl, rfl, rfl, rfl, fun _ => rfl⟩

theorem trans (h : Shows s t) (k : Shows t u) : Shows s u where
  mem := k.mem.trans h.mem
  live := k.live.trans h.live
  partNo := k.partNo.trans h.partNo
  boot := k.boot.trans h.boot
  station0 := k.station0.trans h.station0
  station1 := k.station1.trans h.station1
  tags := k.tags.trans h.tags
  veils := k.veils.trans h.veils
  keys d := (k.keys d).trans (h.keys d)

theorem fold {β : Type} {f : State → β → State} {l : List β} (h : Shows s t) (step : ∀ t b, Shows t (f t b)) : Shows s (l.foldl f t) :=
  h.trans (foldl_rel refl trans f l (fun t b _ => step t b) t)

theorem of_translates (h : Translates s t) : Shows s t := by
  have basin : t.basin = s.basin := (congrArg State.basin h.rest :)
  exact ⟨(congrArg State.mem h.rest :), (congrArg State.live h.rest :), (congrArg State.partNo h.rest :), congrArg Basin.boot basin,
    congrArg Basin.station0 basin, congrArg Basin.station1 basin, (congrArg State.tags h.rest :), (congrArg State.veils h.rest :), h.keys⟩

theorem of_sends (h : Sends s t) : Shows s t := by
  have dies : t.dies = s.dies := h.dies
  refine ⟨h.mem, (congrArg State.live h.rest :), (congrArg State.partNo h.rest :), (congrArg Basin.boot h.basin :),
    (congrArg Basin.station0 h.basin :), (congrArg Basin.station1 h.basin :), (congrArg State.tags h.rest :), (congrArg State.veils h.rest :), ?_⟩
  intro d
  rw [State.die, dies]
  rfl

theorem byteAt (h : Shows s t) (a : Nat) : t.byteAt a = s.byteAt a :=
  State.byteAt_congr h.mem h.live h.partNo h.boot h.station0 h.station1 a

theorem coreView (h : Shows s t) (ck loc slot n : Nat) : t.coreView ck loc slot n = s.coreView ck loc slot n :=
  State.coreView_congr h.veils h.tags h.keys h.byteAt ck loc slot n

theorem slotByte (h : Shows s t) (slot a : Nat) : t.slotByte slot a = s.slotByte slot a := by
  unfold State.slotByte
  simp only [h.tags, h.keys, h.byteAt]

theorem readSlot (h : Shows s t) (loc slot n : Nat) : t.readSlot loc slot n = s.readSlot loc slot n :=
  List.map_congr_left (fun i _ => h.slotByte slot (loc + i))

end Shows

namespace State

variable (s : State)

theorem unwatch_shows (loc gk : Nat) : Shows s (s.unwatch loc gk) := by
  unfold unwatch
  dsimp only
  split
  · exact .of_translates (.modDie _ _ _ (fun _ => rfl))
  · exact .refl s

theorem freeDep_shows (fkey : Nat) (w : DepWatch) : Shows s (s.freeDep fkey w) := by
  unfold freeDep
  split
  · exact .refl s
  · exact s.unwatch_shows ..

theorem meetDeps_shows (loc n : Nat) : Shows s (s.meetDeps loc n) := by
  have met (f : Table Fn) : Shows s { s with fns := f } := ⟨rfl, rfl, rfl, rfl, rfl, rfl, rfl, rfl, fun _ => rfl⟩
  exact (met _).fold (fun t x => (t.freeDep_shows ..).trans (.of_sends (sendSure_sends ..)))

/-- What a write wakes is no write. -/
theorem wakeAt_shows (loc n : Nat) : Shows s (s.wakeAt loc n) := by
  have satisfied (t : State) (k : Nat) (f : Group → Group) : Shows t (t.modGroup k f) := ⟨rfl, rfl, rfl, rfl, rfl, rfl, rfl, rfl, fun _ => rfl⟩
  unfold wakeAt
  refine Shows.fold ((Shows.of_sends (s.agenda_sends _)).trans (meetDeps_shows ..)) (fun t p => ?_)
  split
  · split
    · exact (satisfied t ..).trans (.of_sends (sendSure_sends ..))
    · exact .refl t
  · exact .refl t

theorem partFlits_shows (d : Nat) (write : Bool) (l : List (Nat × Nat × Nat × Option Nat)) : Shows s (s.partFlits d write l) := by
  refine foldl_rel .refl .trans _ _ (fun t h m => ?_) s
  have far := farPounds_ne m
  exact .of_sends ((t.sendMsg_sends _ _ _ _ _ (Ne.symm far)).trans (sendMsg_sends _ _ _ _ _ _ far))

/-! ### Bytes stored under a key slot -/

variable {s} in
theorem putBytes_inv (inv : Inv s) (loc : Nat) (bs : List Byte) : Inv (s.putBytes loc bs) := by
  induction bs generalizing s loc with
  | nil => exact inv
  | cons b r ih => exact ih (s.storeByte_inv inv loc b) (loc + 1)

/-- Bytes put before the device tables stand at their places. -/
theorem byteAt_putBytes_below (inv : Inv s) (loc : Nat) (bs : List Byte) {i : Nat} (hi : i < bs.length) (below : loc + bs.length ≤ tableLoc 0) :
    (s.putBytes loc bs).byteAt (loc + i) = bs.getD i 0 := by
  induction bs generalizing s loc i with
  | nil => exact absurd hi (Nat.not_lt_zero i)
  | cons b r ih =>
    rw [List.length_cons] at hi below
    rw [putBytes]
    cases i with
    | zero =>
      rw [byteAt_putBytes_out _ _ _ (.inl (by omega)), byteAt_storeByte _ _ _ _ (.inr ⟨inv, by unfold tableLoc at below; omega⟩)]
      exact if_pos rfl
    | succ i =>
      rw [show loc + (i + 1) = loc + 1 + i by omega, List.getD_cons_succ]
      exact ih _ (s.storeByte_inv inv loc b) (loc + 1) (by omega) (by omega)

theorem putBytes_tags (loc : Nat) (bs : List Byte) : (s.putBytes loc bs).tags = s.tags := by
  obtain ⟨m, x, put⟩ := s.putBytes_frame loc bs
  rw [put]

theorem tagUnit_tags (slot u : Nat) : (s.tagUnit slot u).tags = s.tags.set u slot := by
  unfold tagUnit
  dsimp only
  split
  · rw [putBytes_tags]
  · rfl

variable {s} in
theorem tagUnit_inv (inv : Inv s) (slot u : Nat) : Inv (s.tagUnit slot u) := by
  unfold tagUnit
  dsimp only
  split
  · have put := putBytes_inv inv (64 * u) (s.readSlot (64 * u) slot 64)
    generalize s.putBytes (64 * u) (s.readSlot (64 * u) slot 64) = t at put
    exact put
  · exact inv

variable {s} in
theorem tagUnits_inv (inv : Inv s) (loc slot n : Nat) : Inv (s.tagUnits loc slot n) := by
  unfold tagUnits
  split
  · generalize List.range ((loc + n - 1) / 64 - loc / 64 + 1) = l
    induction l generalizing s with
    | nil => exact inv
    | cons i r ih => exact ih (tagUnit_inv inv ..)
  · exact inv

theorem tagUnits_fold (slot base : Nat) (l : List Nat) : (l.foldl (fun s i => s.tagUnit slot (base + i)) s).tags =
    l.foldl (fun t i => t.set (base + i) slot) s.tags := by
  induction l generalizing s with
  | nil => rfl
  | cons i r ih => rw [List.foldl_cons, List.foldl_cons, ih, tagUnit_tags]

/-- The units of bytes in die memory come under the slot. -/
theorem tagUnits_get (loc slot : Nat) {n i : Nat} (hi : i < n) (die : loc < hostLoc 0) :
    (s.tagUnits loc slot n).tags.get ((loc + i) / 64) 0 = slot := by
  have tagged : (decide (loc < hostLoc 0) && n != 0) = true := by simp [die, Nat.ne_zero_of_lt hi]
  unfold tagUnits
  rw [if_pos tagged, tagUnits_fold, show (loc + i) / 64 = loc / 64 + ((loc + i) / 64 - loc / 64) by omega]
  exact Table.get_foldl_set _ (fun i => loc / 64 + i) (fun _ => slot) s.tags _ 0 (List.mem_range.2 (by omega)) (fun _ _ _ _ e => by omega)

/-- Bytes stored under a slot are read under it. -/
theorem readSlot_storeBytes (inv : Inv s) {loc : Nat} (slot : Nat) (b : List Byte) (below : loc + b.length ≤ tableLoc 0) :
    (s.storeBytes loc slot b).readSlot loc slot b.length = b := by
  have tags : (s.storeBytes loc slot b).tags = (s.tagUnits loc slot b.length).tags := putBytes_tags ..
  have stands (i : Nat) (hi : i < b.length) : (s.storeBytes loc slot b).byteAt (loc + i) = b.getD i 0 :=
    byteAt_putBytes_below _ (tagUnits_inv inv loc slot b.length) loc b hi below
  have byte (i : Nat) (hi : i < b.length) : (s.storeBytes loc slot b).slotByte slot (loc + i) = b.getD i 0 := by
    rw [← stands i hi]
    refine if_neg fun other => ?_
    rw [Bool.and_eq_true, Bool.and_eq_true, decide_eq_true_eq, bne_iff_ne, tags] at other
    exact other.2 (s.tagUnits_get loc slot hi (by omega))
  apply List.ext_getElem
  · rw [readSlot, List.length_map, List.length_range]
  · intro i _ hi
    rw [List.getElem_eq_getD 0, List.getElem_eq_getD 0, ← byte i hi]
    simp [readSlot, hi]

/-! ### A record that its group has not published -/

variable {s} in
/-- With no veil over them, a core sees the bytes that stand. -/
theorem coreView_bare {loc n : Nat} (bare : ∀ w ∈ s.veils, w.loc < loc ∨ loc + n ≤ w.loc) (ck slot : Nat) :
    s.coreView ck loc slot n = s.readSlot loc slot n := by
  refine List.map_congr_left (fun i hi => ?_)
  have none : s.veils.find? (fun v => v.loc == loc + i && v.gkey / 16 != ck) = none := by
    rw [List.find?_eq_none]
    intro w mem hit
    rw [Bool.and_eq_true, beq_iff_eq] at hit
    have out := bare w mem
    have := List.mem_range.1 hi
    omega
  rw [none]

/-- The veils of a record, byte by byte. -/
def veilsOf (k team loc : Nat) (old : List Byte) : List Veil := old.zipIdx.map (fun x => ⟨k, team, loc + x.2, x.1⟩)

theorem find?_veilsOf (k team loc : Nat) (old : List Byte) {ck i : Nat} (other : ck ≠ k / 16) (hi : i < old.length) :
    (veilsOf k team loc old).find? (fun v => v.loc == loc + i && v.gkey / 16 != ck) = some ⟨k, team, loc + i, old[i]⟩ := by
  rw [List.find?_eq_some_iff_getElem]
  refine ⟨by simp [Ne.symm other], i, by simpa [veilsOf] using hi, by simp [veilsOf], fun j hj => ?_⟩
  simp [veilsOf, Nat.ne_of_lt hj]

variable {s} in
/-- Veils over a record alone show the bytes that stood there. -/
theorem coreView_veiled {t : State} {loc n : Nat} {w : List Veil} {old : List Byte} {k team : Nat} (length : old.length = n)
    (veils : t.veils = w ++ veilsOf k team loc old) (bare : ∀ v ∈ w, v.loc < loc ∨ loc + n ≤ v.loc) {ck : Nat} (other : ck ≠ k / 16) (slot : Nat) :
    t.coreView ck loc slot n = old := by
  have hidden (i : Nat) (hi : i < n) : t.veils.find? (fun v => v.loc == loc + i && v.gkey / 16 != ck) = some ⟨k, team, loc + i, old[i]'(by omega)⟩ := by
    have none : w.find? (fun v => v.loc == loc + i && v.gkey / 16 != ck) = none := by
      rw [List.find?_eq_none]
      intro v mem hit
      rw [Bool.and_eq_true, beq_iff_eq] at hit
      have out := bare v mem
      omega
    rw [veils, List.find?_append, none, Option.none_or]
    exact find?_veilsOf k team loc old other (by omega)
  apply List.ext_getElem
  · rw [coreView, List.length_map, List.length_range, length]
  · intro i hi _
    have hn : i < n := by simpa [coreView] using hi
    simp [coreView, hidden i hn]

end State

end Sys2Proof.Machine
end

section
/-! SUPPORT. A single record of a fault block, as its group's core and the others see it (R127). -/

namespace Sys2Proof.Machine

open Sys2Proof

namespace State

variable {s u t : State} {loc slot n : Nat}

theorem readSlot_of_bytes (t : State) (c : Table Core) (q : List Req) (v : List Veil) (loc slot n : Nat) :
    { t with cores := c, reqs := q, veils := v }.readSlot loc slot n = t.readSlot loc slot n := rfl

/-- The piece of a record: its bytes stand at its place, and the other cores see what stood there. -/
theorem shownPiece_seen (b : List Byte) (length : b.length = n) (below : loc + n ≤ tableLoc 0)
    (bare : ∀ w ∈ s.veils, w.loc < loc ∨ loc + n ≤ w.loc) :
    (Inv s → (s.shownPiece loc slot n b none).readSlot loc slot n = b) ∧
      ∀ ck, ck ≠ s.cur / 16 → (s.shownPiece loc slot n b none).coreView ck loc slot n = s.readSlot loc slot n := by
  subst length
  refine ⟨fun inv => ?_, fun ck other => ?_⟩
  · exact (readSlot_of_bytes (s.storeBytes loc slot b) _ _ _ loc slot b.length).trans (s.readSlot_storeBytes inv slot b below)
  · have old : (s.coreView (2 ^ 16) loc slot b.length).length = b.length := by rw [coreView, List.length_map, List.length_range]
    have veils : (s.shownPiece loc slot b.length b none).veils =
        (s.storeBytes loc slot b).veils ++ veilsOf s.cur s.g.team loc (s.coreView (2 ^ 16) loc slot b.length) := rfl
    have kept : ∀ w ∈ (s.storeBytes loc slot b).veils, w.loc < loc ∨ loc + b.length ≤ w.loc := by
      intro w mem
      have out := (List.mem_filter.1 mem).2
      rwa [Bool.or_eq_true, decide_eq_true_eq, decide_eq_true_eq] at out
    rw [coreView_veiled old veils kept other, coreView_bare bare]

theorem writeRecs_single {base o v : Nat} (placed : s.vPlaces s.g.die s.g.fn .store (pieces 2 ((base + o) % 2 ^ 64) n) = (u, .ok [(loc, slot, n, none)])) :
    s.writeRecs base [(o, n, v)] =
      (((u.partFlits u.g.die true [(loc, slot, n, none)]).shownPiece loc slot n (bytesOf n v) none).wakeAt loc n, .ok ()) := by
  have whole : (bytesOf n v).take n = bytesOf n v := List.take_of_length_le (Nat.le_of_eq (length_bytesOf n v))
  unfold writeRecs
  rw [placed]
  dsimp only
  rw [putShown_cons, whole]
  rfl

/-- A single record written: the group's own core reads it, the others see the bytes that stood before. -/
theorem writeRecs_seen {base o v : Nat} (wrote : s.writeRecs base [(o, n, v)] = (t, .ok ()))
    (placed : s.vPlaces s.g.die s.g.fn .store (pieces 2 ((base + o) % 2 ^ 64) n) = (u, .ok [(loc, slot, n, none)]))
    (below : loc + n ≤ tableLoc 0) (bare : ∀ w ∈ s.veils, w.loc < loc ∨ loc + n ≤ w.loc) :
    (Inv s → t.readSlot loc slot n = bytesOf n v) ∧ ∀ ck, ck ≠ s.cur / 16 → t.coreView ck loc slot n = s.readSlot loc slot n := by
  have found : Translates s u := by
    have found := s.vPlaces_translates s.g.die s.g.fn .store (pieces 2 ((base + o) % 2 ^ 64) n)
    rwa [placed] at found
  have sent : Recorded s (u.partFlits u.g.die true [(loc, slot, n, none)]) :=
    .of_partWork ((PartWork.of_translates found).trans (partFlits_partWork ..))
  have shows : Shows s (u.partFlits u.g.die true [(loc, slot, n, none)]) := (Shows.of_translates found).trans (partFlits_shows ..)
  rw [writeRecs_single placed] at wrote
  obtain ⟨rfl, -⟩ := Prod.mk.inj wrote
  generalize u.partFlits u.g.die true [(loc, slot, n, none)] = r at sent shows
  have woken := wakeAt_shows (r.shownPiece loc slot n (bytesOf n v) none) loc n
  obtain ⟨stands, seen⟩ := shownPiece_seen (s := r) (slot := slot) (bytesOf n v) (length_bytesOf n v) below (by rwa [shows.veils])
  refine ⟨fun inv => ?_, fun ck other => ?_⟩
  · rw [woken.readSlot]
    exact stands (by rwa [Inv, shows.mem])
  · rw [woken.coreView, ← shows.readSlot]
    exact seen ck (by rwa [sent.cur])

end State

end Sys2Proof.Machine
end

section
/-! SUPPORT. The end of a team on a fault (R123, R126, R128, R214). -/

namespace Sys2Proof.Machine

open Sys2Proof

/-- A group that has gone for good. -/
def Group.dead (g : Group) : Prop := g.live = false ∧ g.exited = true

theorem Satisfied.dead {g g' : Group} (h : Satisfied g g') (dead : g.dead) : g'.dead := by
  rw [h.same]
  exact dead

/-- In `t` team `n` of `s` has ended in error: its groups have gone, it and its launch are marked, and its end is to come. -/
structure TeamEnded (s t : State) (n : Nat) : Prop where
  groups : ∀ j ∈ s.teamGroups n, (t.group j).dead
  team : (t.teamOf n).bad = true
  launch : (t.launch (s.teamOf n).launch).bad = true
  comes : Activity.event (.teamEnd n) ∈ t.agenda

namespace TeamEnded

variable {s t u : State} {n : Nat}

/-- The part's own work afterwards takes nothing of it back. -/
theorem partWork (h : TeamEnded s t n) (k : PartWork t u) : TeamEnded s u n where
  groups j mem := (k.groups j).dead (h.groups j mem)
  team := by
    have teams : u.teams = t.teams := (congrArg State.teams k.rest :)
    rw [State.teamOf, teams]
    exact h.team
  launch := by
    have launches : u.launches = t.launches := (congrArg State.launches k.rest :)
    rw [State.launch, launches]
    exact h.launch
  comes := k.agenda h.comes

theorem of_teams (h : TeamEnded u t n) (teams : u.teams = s.teams) : TeamEnded s t n := by
  have team : u.teamOf n = s.teamOf n := by
    rw [State.teamOf, teams]
    rfl
  refine ⟨fun j mem => h.groups j ?_, h.team, ?_, h.comes⟩
  · rwa [State.teamGroups, team]
  · rw [← team]
    exact h.launch

end TeamEnded

namespace State

variable (s : State)

/-- A group of a team that ends stops. -/
def stopGroup (k : Nat) : State :=
  (s.stopWatching k).modGroup k (fun g => { g with live := false, exited := true, wait := .ready, recs := [], pendX := [] })

theorem stopGroup_dead (k j : Nat) (dead : (s.group j).dead ∨ j = k) : ((s.stopGroup k).group j).dead := by
  have groups : (s.stopWatching k).groups = s.groups := by
    unfold stopWatching
    split
    · exact (s.unwatch_groups ..).1
    · rfl
  unfold stopGroup
  by_cases here : j = k
  · subst here
    rw [modGroup, group_setGroup]
    exact ⟨rfl, rfl⟩
  · rw [modGroup, group_setGroup_ne _ _ _ _ here, group_of_groups groups]
    exact dead.resolve_right here

theorem stopGroups_dead (l : List Nat) (j : Nat) (dead : (s.group j).dead ∨ j ∈ l) : ((l.foldl stopGroup s).group j).dead := by
  induction l generalizing s with
  | nil => exact dead.resolve_right (List.not_mem_nil)
  | cons k r ih =>
    refine ih (s.stopGroup k) ?_
    rw [List.mem_cons, ← or_assoc] at dead
    exact dead.imp_left (s.stopGroup_dead k j)

theorem killTeam_ended (n : Nat) : TeamEnded s (s.killTeam n) n where
  groups j mem := stopGroups_dead s (s.teamGroups n) j (.inr mem)
  team := by
    have marked (u : State) (x : Team) (k : Nat) (f : Launch → Launch) (e : Instr) : (((u.setTeam n x).modLaunch k f).post e).teamOf n = x :=
      Table.get_set ..
    unfold killTeam
    dsimp only
    rw [marked]
  launch := by
    have marked (u : State) (k : Nat) (f : Launch → Launch) (e : Instr) : ((u.modLaunch k f).post e).launch k = f (u.launch k) := Table.get_set ..
    unfold killTeam
    dsimp only
    rw [marked]
  comes := List.mem_append_right _ (List.mem_singleton_self _)

theorem unwritableBlock_ended : TeamEnded s s.unwritableBlock s.g.team :=
  (s.killTeam_ended s.g.team).partWork (faultRecord_partWork ..)

end State

section
variable {s : State} {xs : List Word}

/-- A trap in handler state, or with no handler. -/
theorem takeTrap_last (last : s.g.handler = none ∨ s.g.frame ≠ none) :
    s.takeTrap xs = { (trapPending s xs true (lastRecs s.g xs)).finishTrap with iss := s.trappedIssue } := by
  have ends : (s.g.frame.isSome || s.g.handler.isNone) = true := by
    rw [Bool.or_eq_true, Option.isNone_iff_eq_none, Option.isSome_iff_ne_none]
    exact last.symm
  rw [takeTrap_eq, ends]
  rfl

/-- The team ends where the records are written, and where they cannot be. -/
theorem finishTrap_ends {s1 : State} (dying : s.g.dying = true) (some : s.g.recs ≠ [])
    (done : s.g.faultArea = 0 ∨ s.g.blockFailed = true ∨ s.writeRecs s.faultBlock s.g.recs = (s1, .ok ())) : TeamEnded s s.finishTrap s.g.team := by
  by_cases fails : s.g.faultArea = 0 ∨ s.g.blockFailed = true
  · rw [finishTrap_unwritable some fails]
    exact s.unwritableBlock_ended
  · obtain ⟨area, works⟩ := not_or.1 fails
    have wrote := (done.resolve_left area).resolve_left works
    have put := s.writeRecs_recorded s.faultBlock s.g.recs
    rw [wrote] at put
    have kills : trapDone (recsDone s1) s.g = (recsDone s1).killTeam s.g.team := if_pos dying
    rw [finishTrap_wrote some area (Bool.eq_false_iff.2 works) wrote, kills]
    exact ((recsDone s1).killTeam_ended s.g.team).of_teams put.teams

theorem takeTrap_ends {s1 : State} (last : s.g.handler = none ∨ s.g.frame ≠ none)
    (done : s.g.faultArea = 0 ∨ s.g.blockFailed = true ∨
      (trapPending s xs true (lastRecs s.g xs)).writeRecs s.faultBlock (lastRecs s.g xs) = (s1, .ok ())) : TeamEnded s (s.takeTrap xs) s.g.team := by
  have pending := trapPending_g (s := s) (xs := xs) true (lastRecs s.g xs)
  have recs : (trapPending s xs true (lastRecs s.g xs)).g.recs = lastRecs s.g xs := by rw [pending]
  have ended := finishTrap_ends (s := trapPending s xs true (lastRecs s.g xs)) (s1 := s1) (by rw [pending])
    (by rw [recs, lastRecs]; exact List.append_ne_nil_of_right_ne_nil _ (List.cons_ne_nil _ _))
    (by rwa [recs, trapPending_faultBlock, pending])
  rw [pending] at ended
  rw [takeTrap_last last]
  obtain ⟨groups, team, launch, comes⟩ := ended
  exact ⟨groups, team, launch, comes⟩

end

end Sys2Proof.Machine
end

section
/-! The obligation of traps: O17. -/

namespace Sys2Proof.Machine

open Sys2Proof

/-- The handler's live state and the records, once a trap has entered it. -/
theorem takeTrap_entered {s s1 : State} {xs : List Word} {h : Off} (handler : s.g.handler = some h) (frame : s.g.frame = none)
    (written : recordsWritten s xs s1) : let t := s.takeTrap xs
    t.g = s.g.entered xs h ∧ t.mem = s1.mem ∧ t.veils = s1.veils ∧ t.iss = s.trappedIssue ∧
      (∀ loc slot n, t.readSlot loc slot n = s1.readSlot loc slot n) ∧ ∀ ck loc slot n, t.coreView ck loc slot n = s1.coreView ck loc slot n := by
  obtain ⟨u, entered, took⟩ := takeTrap_enters handler frame written
  rw [took]
  refine ⟨entered.g, entered.mem, (congrArg State.veils entered.rest :), rfl, fun loc slot n => ?_, fun ck loc slot n => ?_⟩
  · exact ((congrArg (fun x : State => x.readSlot loc slot n) entered.rest :) : u.readSlot loc slot n = s1.readSlot loc slot n)
  · exact ((congrArg (fun x : State => x.coreView ck loc slot n) entered.rest :) : u.coreView ck loc slot n = s1.coreView ck loc slot n)

/-- A single record that a trap has written (R127). -/
theorem recordsWritten_seen {s s1 u : State} {xs : List Word} {o n v loc slot : Nat} (written : recordsWritten s xs s1) (recs : s.g.recs = [(o, n, v)])
    (placed : (trapPending s xs false s.g.recs).vPlaces s.g.die s.g.fn .store (pieces 2 ((s.faultBlock + o) % 2 ^ 64) n) = (u, .ok [(loc, slot, n, none)]))
    (below : loc + n ≤ tableLoc 0) (bare : ∀ w ∈ s.veils, w.loc < loc ∨ loc + n ≤ w.loc) :
    (Inv s → s1.readSlot loc slot n = bytesOf n v) ∧ ∀ ck, ck ≠ s.cur / 16 → s1.coreView ck loc slot n = s.readSlot loc slot n := by
  rcases written with ⟨none, -⟩ | ⟨-, -, -, wrote⟩
  · exact absurd (recs.symm.trans none) (List.cons_ne_nil _ _)
  · have pending := trapPending_g (s := s) (xs := xs) false s.g.recs
    have here : (trapPending s xs false s.g.recs).g.die = s.g.die ∧ (trapPending s xs false s.g.recs).g.fn = s.g.fn := by
      rw [pending]
      exact ⟨rfl, rfl⟩
    rw [← here.1, ← here.2] at placed
    rw [recs] at wrote placed
    have seen := State.writeRecs_seen wrote placed below bare
    exact seen

/-- Settles O17: TRAP is taken as a precise trap; lanes at fault end the offset in kind 0x19; the records are written before the handler is
entered, or before the team ends. -/
theorem trapEntersHandler : Obligations.TrapEntersHandler := by
  intro s k h
  refine ⟨coreWordsRoundTrip _ _ rfl rfl, fun d a nonzero decoded => ?_, fun can => ⟨_, rfl, trapAt_taken s h 0x10 k.toNat 0 s.iss.mask can⟩,
    ⟨_, rfl, rfl⟩, fun f live faults parked replays => ?_, fun xs s1 handler frame written => ?_, fun xs s1 last => ?_⟩
  · obtain ⟨dZero, aZero⟩ := trap_fields decoded
    exact nonzero.elim (fun ne => ne dZero) (fun ne => ne aZero)
  · obtain ⟨u, cnt, lat, latValid, traps, only⟩ := State.finishOffset_traps live faults parked replays
    refine ⟨u, traps, ?_, only.iss, only.others, only.mem⟩
    rw [only.g]
  · obtain ⟨g, mem, veils, iss, reads, views⟩ := takeTrap_entered handler frame written
    dsimp only
    rw [g]
    refine ⟨rfl, rfl, rfl, rfl, rfl, rfl, rfl, rfl, fun i hi => entered_x s.g hi, rfl, rfl, rfl, rfl, mem, veils, iss, fun none => ?_, ?_⟩
    · rcases written with ⟨-, rfl⟩ | ⟨some, -⟩
      · rfl
      · exact absurd none some
    · intro o n v loc slot u recs placed below bare
      obtain ⟨own, other⟩ := recordsWritten_seen written recs placed below bare
      exact ⟨fun inv => (reads loc slot n).trans (own inv), fun ck ne => (views ck loc slot n).trans (other ck ne)⟩
  · intro _ _ done
    obtain ⟨groups, team, launch, comes⟩ := takeTrap_ends last done
    exact ⟨groups, team, launch, comes⟩

end Sys2Proof.Machine
end
